-- ==== Sys2Proof/Word.lean ====
section
/-! DEFINITION. The bytes that the ports carry. -/

namespace Sys2Proof

/-- One byte of a frame or of a text field. -/
abbrev Byte := BitVec 8

/-- A text field: its characters, first to last (Tables 15 and 30 judge each character). -/
abbrev Text := List Byte

end Sys2Proof
end

