-- ==== Sys2Proof/Syntax.lean ====
section
/-! DEFINITION. The commands of the part: one constructor of `Instr` for each row of spec/opcode_table.json, with
the operands that the rule of the row gives it. A value that a message can carry and that the rule refuses
(a label mode that is none of the three, a part that no report has) stands as `none`. -/

namespace Sys2Proof

/-- The eight weighing stations (00_scope.md, section 5.3). -/
inductive StationNo where
  | s1 | s2 | s3 | s4 | s5 | s6 | s7 | s8
deriving DecidableEq, Repr

/-- The four label printers. -/
inductive PrinterNo where
  | p1 | p2 | p3 | p4
deriving DecidableEq, Repr

/-- The two ticket dispensers. -/
inductive DispenserNo where
  | d1 | d2
deriving DecidableEq, Repr

/-- Which labels an order makes (Table 34). -/
inductive LabelMode where
  | item | total | both
deriving DecidableEq, Repr

/-- How an article is sold (Table 15). -/
inductive ArticleKind where
  | weighed | counted | fixed
deriving DecidableEq, Repr

/-- How a weighed price is rounded (Table 15, R43). -/
inductive RoundingMode where
  | nearest | down | up
deriving DecidableEq, Repr

/-- Role of a clerk (Table 30). -/
inductive Role where
  | clerk | supervisor
deriving DecidableEq, Repr

/-- Host port speed (section 11.1). -/
inductive BaudRate where
  | b57600 | b115200
deriving DecidableEq, Repr

/-- The 13 conditions, in the order of Table 67. -/
inductive Condition where
  | stationLost | printerAttention | printQueueHigh | journalLow | storeFault | stagingExpired | applyDone
  | dayClosed | ticketsFull | linkError | recoveryPending | calibrationChanged | clockUnset
deriving DecidableEq, Repr

/-- One yes/no for each of the 13 conditions, in the order of Table 67 (the body of SET NOTICES, R195). -/
structure Enables where
  stationLost : Bool
  printerAttention : Bool
  printQueueHigh : Bool
  journalLow : Bool
  storeFault : Bool
  stagingExpired : Bool
  applyDone : Bool
  dayClosed : Bool
  ticketsFull : Bool
  linkError : Bool
  recoveryPending : Bool
  calibrationChanged : Bool
  clockUnset : Bool
deriving DecidableEq, Repr

/-- The station fields of SET STATION (R3); `labelMode = none` is a value that is none of the three modes. -/
structure StationFields where
  enabled : Bool
  printer : Nat
  depthCode : Nat
  tareAutoClear : Bool
  labelMode : Option LabelMode
deriving DecidableEq, Repr

/-- The body of SET STATION: station 0 carries the two prefixes (R52), any other number the station fields (R3). -/
inductive SetStationBody where
  | prefixes (item total : Nat)
  | station (number : Nat) (fields : StationFields)
deriving DecidableEq, Repr

/-- The article record of a STAGE PUT as the host sends it (R33). The generation is not taken from the request. -/
structure ArticleFields where
  number : Nat
  kind : Option ArticleKind
  unitPrice : Nat
  rounding : Option RoundingMode
  step : Nat
  presetTare : Option Nat
  department : Nat
  name : Text
  shelfLife : Option Nat
  held : Bool
deriving DecidableEq, Repr

/-- Direction of READ ARTICLE (R36). -/
inductive Direction where
  | exact | following
deriving DecidableEq, Repr

/-- Part of READ QUEUE (R126). -/
inductive QueuePart where
  | summary
  | waiting (start : Nat)
deriving DecidableEq, Repr

/-- Part of READ PRINTERS (R142). -/
inductive PrintersPart where
  | summary
  | jobs (start : Nat)
deriving DecidableEq, Repr

/-- Part of READ TOTALS (R176). -/
inductive TotalsPart where
  | counter | departments | stations | clerks
  | articles (start : Nat)
deriving DecidableEq, Repr

/-- A host request with the values of its body, once its frame has the length the request needs (R191). -/
inductive HostRequest where
  | resetPart
  | hello
  | status
  | setNotices (enables : Enables)
  | readConditions
  | clearConditions (named : List (Option Condition))
  | setStation (body : SetStationBody)
  | readStation (station : Nat)
  | readArticle (number : Nat) (direction : Option Direction)
  | beginChange (base : Nat)
  | stagePut (fields : ArticleFields)
  | stageDelete (number : Nat)
  | stageHold (number : Nat)
  | stageRelease (number : Nat)
  | discardChange
  | changeStatus
  | applyNow
  | applyAt (hour minute second : Nat)
  | setClerk (number : Nat) (role : Option Role) (name : Text)
  | removeClerk (number : Nat)
  | signOffClerk (number : Nat)
  | readOrder (number : Nat)
  | voidOrder (number : Nat)
  | readQueue (part : Option QueuePart)
  | moveJobs (source target : Nat)
  | cancelJobs (printer : Nat)
  | readPrinters (part : Option PrintersPart)
  | readJournal (index : Nat) (entry : Option Nat)
  | readRecovery (position : Nat)
  | openCounter
  | pauseCounter
  | closeCounter
  | setClock (year month day hour minute second : Nat)
  | readTotals (part : Option TotalsPart)
  | dayClose
  | readClose
  | calBegin (station : Nat)
  | calAbort
  | calZero
  | calSpan (load : Nat)
  | calIntervals (max b e1 e2 : Nat)
  | calCommit
  | readAudit (position : Nat)
deriving DecidableEq, Repr

/-- What the kind and body of a host frame stand for. Each request has a kind value of its own and a body of a
length of its own (section 11.1); the values are not given, so the frame carries their meaning (log entry 7). -/
inductive FrameMeaning where
  /-- a host request kind with a body of the right length -/
  | request (r : HostRequest)
  /-- a host request kind with a body of another length, or a field whose value its encoding cannot carry -/
  | wrongBody (kind : Byte)
  /-- a RESET PART kind with a body of another length (R192) -/
  | wrongResetBody
  /-- a kind that is not a host request kind -/
  | notARequest (kind : Byte)
deriving DecidableEq, Repr

/-- A frame as the input buffer holds it: its tag and what it carries (R191). -/
structure Frame where
  tag : Nat
  meaning : FrameMeaning
deriving DecidableEq, Repr

/-- A frame on the host line up to the byte that ends its reception, start byte passed (Table 65), with the meaning of its
kind and body; `startAt` is the mark of its start byte on the elapsed-time count (R170, R190). -/
structure WireFrame where
  length : Byte
  kind : Byte
  tag : Byte
  body : List Byte
  check : BitVec 16
  meaning : FrameMeaning
  startAt : Nat
deriving DecidableEq, Repr

/-- The key requests of Table 70 with their parameters. -/
inductive Key where
  | signOn (clerk : Nat)
  | signOff
  | override (supervisor : Nat)
  | endOverride
  | select (article : Nat)
  | quantity (count : Nat)
  | repeatEntry
  | priceOverride (price : Nat)
  | zero
  | tare
  | clearTare
  | addLine
  | openOrder
  | park
  | resume (order : Nat)
  | closeOrder
  | voidLine (index : Nat)
  | voidOrder (order : Option Nat)
  | reprint (index : Nat)
  | next
  | recall (ticket : Nat)
deriving DecidableEq, Repr

/-- One key request of a station reply (Table 69). `key = none`: a name that Table 70 does not hold, or a parameter
that the request lacks or does not take (R196). -/
structure KeyRequest where
  tag : Nat
  key : Option Key
deriving DecidableEq, Repr

/-- A station reply on the bus (Table 69): the station number of its tag byte, whether its check agrees, and its
content. -/
structure StationReply where
  address : Nat
  checkAgrees : Bool
  displayedGeneration : Nat
  samples : List Int
  keys : List KeyRequest
deriving DecidableEq, Repr

/-- Status of a printer reply (section 7.4). -/
inductive PrinterStatus where
  | idle | busy
  | done (label : Nat)
  | stockOut | coverOpen
deriving DecidableEq, Repr

/-- The commands, in the order of spec/opcode_table.json. Host requests begin with the tag of their frame, key
requests with their station and key tag; `agrees` says whether the read-back of a write agrees. -/
inductive Instr where
  | powerOn
  | resetLine
  | resetPart (tag : Nat)
  /-- `failedSeals`: the sectors whose seal fails its read-back (R160). -/
  | startUpScanEnd (failedSeals : List Nat)
  | hostFrame (frame : WireFrame)
  | hostFrameTimeout
  | notAHostRequest (frame : Frame)
  | baudStrapChange (rate : BaudRate)
  | notice
  | hello (tag : Nat)
  | status (tag : Nat)
  | setNotices (tag : Nat) (enables : Enables)
  | readConditions (tag : Nat)
  | clearConditions (tag : Nat) (named : List (Option Condition))
  | setStation (tag : Nat) (body : SetStationBody)
  | setStationWriteDone (agrees : Bool)
  | readStation (tag : Nat) (station : Nat)
  | readArticle (tag : Nat) (number : Nat) (direction : Option Direction)
  | beginChange (tag : Nat) (base : Nat)
  | stagePut (tag : Nat) (fields : ArticleFields)
  | stageDelete (tag : Nat) (number : Nat)
  | stageHold (tag : Nat) (number : Nat)
  | stageRelease (tag : Nat) (number : Nat)
  | discardChange (tag : Nat)
  | changeStatus (tag : Nat)
  | applyNow (tag : Nat)
  | applyAt (tag : Nat) (hour minute second : Nat)
  | changeSetExpiry
  | scheduledTimeReached
  | setClerk (tag : Nat) (number : Nat) (role : Option Role) (name : Text)
  | setClerkWriteDone (agrees : Bool)
  | removeClerk (tag : Nat) (number : Nat)
  | removeClerkWriteDone (agrees : Bool)
  | signOffClerk (tag : Nat) (number : Nat)
  | readOrder (tag : Nat) (number : Nat)
  | hostVoidOrder (tag : Nat) (number : Nat)
  | readQueue (tag : Nat) (part : Option QueuePart)
  | moveJobs (tag : Nat) (source target : Nat)
  | cancelJobs (tag : Nat) (printer : Nat)
  | readPrinters (tag : Nat) (part : Option PrintersPart)
  | readJournal (tag : Nat) (index : Nat) (entry : Option Nat)
  | readRecovery (tag : Nat) (position : Nat)
  | openCounter (tag : Nat)
  | pauseCounter (tag : Nat)
  | closeCounter (tag : Nat)
  | setClock (tag : Nat) (year month day hour minute second : Nat)
  | readTotals (tag : Nat) (part : Option TotalsPart)
  | dayClose (tag : Nat)
  | readClose (tag : Nat)
  | calBegin (tag : Nat) (station : Nat)
  | calAbort (tag : Nat)
  | calZero (tag : Nat)
  | calSpan (tag : Nat) (load : Nat)
  | calIntervals (tag : Nat) (max b e1 e2 : Nat)
  | calCommit (tag : Nat)
  | calAuditWriteDone (agrees : Bool)
  | calRecordWriteDone (agrees : Bool)
  | calGapExpiry
  | calibrationSwitchRelease
  | calibrationSwitchAssert
  | readAudit (tag : Nat) (position : Nat)
  | stationPoll
  | stationReply (reply : StationReply)
  | stationReplyTimeout
  | stationStale (station : StationNo)
  | signOn (station : StationNo) (keyTag : Nat) (clerk : Nat)
  | signOff (station : StationNo) (keyTag : Nat)
  | override (station : StationNo) (keyTag : Nat) (supervisor : Nat)
  | endOverride (station : StationNo) (keyTag : Nat)
  | overrideDeadline (station : StationNo)
  | select (station : StationNo) (keyTag : Nat) (article : Nat)
  | quantity (station : StationNo) (keyTag : Nat) (count : Nat)
  | repeatEntry (station : StationNo) (keyTag : Nat)
  | priceOverride (station : StationNo) (keyTag : Nat) (price : Nat)
  | zero (station : StationNo) (keyTag : Nat)
  | tare (station : StationNo) (keyTag : Nat)
  | clearTare (station : StationNo) (keyTag : Nat)
  | addLine (station : StationNo) (keyTag : Nat)
  | openOrder (station : StationNo) (keyTag : Nat)
  | park (station : StationNo) (keyTag : Nat)
  | resume (station : StationNo) (keyTag : Nat) (order : Nat)
  | closeOrder (station : StationNo) (keyTag : Nat)
  | voidLine (station : StationNo) (keyTag : Nat) (index : Nat)
  | voidOrder (station : StationNo) (keyTag : Nat) (order : Option Nat)
  | reprint (station : StationNo) (keyTag : Nat) (index : Nat)
  | next (station : StationNo) (keyTag : Nat)
  | recall (station : StationNo) (keyTag : Nat) (ticket : Nat)
  | missedTicketExpiry (ticket : Nat)
  /-- `checkAgrees`: a TAKE whose frame check fails is discarded (section 11.6). -/
  | take (dispenser : DispenserNo) (takeTag : Nat) (checkAgrees : Bool)
  | calls
  | printerStatusSend (printer : PrinterNo)
  | labelSend (printer : PrinterNo)
  /-- `checkAgrees`: a reply that fails its check is discarded and counts as no reply (R136). -/
  | printerReply (printer : PrinterNo) (status : PrinterStatus) (checkAgrees : Bool)
  | printerMessageGiveUp (printer : PrinterNo)
  | printerOffline (printer : PrinterNo)
  | appendStart
  | lineWritten
  | voidLineWritten
  | closeWritten
  | voidOrderWritten
  | reprintWritten
  | priceApplyWritten
  /-- `generationAgrees`: the read-back of the article area generation, written after the last record (R71, R72). -/
  | articleAreaWriteDone (agrees generationAgrees : Bool)
  | priceStoredWritten
  | dayCloseWritten
  /-- `markAgrees`: the read-back of the BAD mark itself (R150). -/
  | appendReadbackFail (markAgrees : Bool)
  | eraseStart
  | eraseResume
  | eraseDone (agrees : Bool)
  | resetInputAsserted
deriving DecidableEq, Repr

end Sys2Proof
end

