-- ==== Sys2Proof/Decode.lean ====
section
/-! DEFINITION. Words that spell a command. -/

namespace Sys2Proof

/-- The command that a word spells by the bits of the opcode table. The table gives no row any bits: a command reaches the
part as a message, an event or a level, so no word spells one. -/
def decodeTableWord (_nbits _w : Nat) : Option Instr := none

end Sys2Proof
end

