-- ==== Sys2Proof/Config.lean ====
section
/-! DEFINITION. What is fixed for the part: the capacities and durations of the manual, and the values that the
manual leaves open, as constants without a body. -/

namespace Sys2Proof.Config

/-! Capacities (00_scope.md, Table 3) -/

/-- Articles of the article table (R32). -/
def maxArticles : Nat := 2000
/-- Records of the clerk table (R74). -/
def maxClerks : Nat := 32
/-- Slots of the order pool. -/
def orderSlots : Nat := 16
/-- Lines of one order. -/
def maxLines : Nat := 24
/-- Orders in OPEN or PARKED of one clerk (R92). -/
def maxClerkOrders : Nat := 3
/-- Entries of the change set (R56). -/
def maxStaged : Nat := 64
/-- Tickets of the waiting queue (R114). -/
def maxWaiting : Nat := 64
/-- Tickets of the missed list (R116). -/
def maxMissed : Nat := 8
/-- Calls of the call list (R123). -/
def maxCalls : Nat := 4
/-- Jobs of the print queue (R132). -/
def maxJobs : Nat := 32
/-- Jobs from which PRINT_QUEUE_HIGH is latched (R132). -/
def highJobs : Nat := 24
/-- Sectors of the journal ring. -/
def sectors : Nat := 32
/-- Bytes of one sector's record area (R145). -/
def recordArea : Nat := 4064
/-- Places of the write queue (R147). -/
def queuePlaces : Nat := 8
/-- ERASED sectors that the erase keeps ready (R153). -/
def keptErased : Nat := 4
/-- Entries of the audit area (R188). -/
def maxAudit : Nat := 128
/-- Frames of the host input buffer (R191). -/
def maxFrames : Nat := 4
/-- Longest body of a host frame (Table 65). -/
def maxBody : Nat := 240
/-- Entries of the article accumulator map (Table 57). -/
def maxArticleEntries : Nat := 2048
/-- Entries of the clerk accumulators (Table 57). -/
def maxClerkEntries : Nat := 32

/-! Durations in milliseconds of the elapsed-time count (R170) -/

/-- Station freshness (R196). -/
def staleMs : Nat := 500
/-- Time a station has to complete its reply (R196). -/
def replyMs : Nat := 2
/-- Wait between two changes of the zero (R16). -/
def trackingMs : Nat := 1000
/-- Override deadline (R84). -/
def overrideMs : Nat := 30000
/-- Expiry of an OPEN change set (R59). -/
def stagingMs : Nat := 60000
/-- Expiry of a MISSED ticket (R118). -/
def missedMs : Nat := 600000
/-- Gap between two calibration steps (R183). -/
def gapMs : Nat := 120000
/-- Time after which a printer message is given up, and greatest interval of STATUS (R136). -/
def printerMessageMs : Nat := 250
/-- Silence after which a printer is OFFLINE (R136). -/
def printerOfflineMs : Nat := 2000
/-- Frame limit of the host port (R190). -/
def frameMs : Nat := 50

/-! Limits of money and numbering -/

/-- Largest price of a line (R44, R45). -/
def maxPrice : Nat := 99999
/-- Largest order total (Table 37). -/
def maxTotal : Nat := 999999
/-- Largest 32-bit value: generations, label numbers, wait sum. -/
def max32 : Nat := 4294967295
/-- Largest 16-bit value: figures, day number. -/
def max16 : Nat := 65535
/-- The grand total is counted modulo this (R177). -/
def grandTotalModulus : Nat := 1000000000000000

/-! What the manual leaves open. No constant below has a body: a statement that holds, holds for every value of it.
Those that are functions are applied to the counter of free values of the state, which every use advances. -/

/-- Firmware version reported by HELLO (R193); log entry 12. -/
opaque firmwareVersion : Nat

/-- Whether the write to a nonvolatile place that a reset cut has left the new content (true) or the previous
one (R1); log entry 8. -/
opaque cutWriteLanded : Nat → Bool

/-- What a reset leaves of the append that it cut (R149, R158). -/
inductive CutAppend where
  /-- nothing of the record, and nothing of the header of a sector opened for it -/
  | nothing
  /-- a header that is whole, and a record whose check fails -/
  | tornRecord
  /-- a header that is no valid header, in a sector opened for the record -/
  | tornHeader
deriving DecidableEq, Repr, Inhabited

/-- What a reset leaves of the append that it cut; log entry 10. -/
opaque cutAppend : Nat → CutAppend

/-- The 16 bits that stand as the check of a record that was not written whole (R158); log entry 10. -/
opaque tornCheck : Nat → BitVec 16

/-- Whether the header of a sector whose BAD mark failed its read-back is no valid header at the next survey (R150,
R158); log entry 11. -/
opaque failedMarkUnreadable : Nat → Bool

/-- Whether an article-area place whose write failed its read-back holds the new content (true) or the previous
one (R72); log entry 11. -/
opaque failedArticleWriteLanded : Nat → Bool

end Sys2Proof.Config
end

