-- ==== Sys2Proof/Machine/State.lean ====
section
/-! DEFINITION. The state of the part: every piece of state that the manual names, block by block, as plain data, with
the messages that last left its ports; the reasons for which a command can stop; and the state right after reset. -/

namespace Sys2Proof

/-! Numbers of stations, printers and dispensers, and one value for each of them. -/

/-- The number that the manual gives a station, 1 to 8. -/
def StationNo.number : StationNo → Nat
  | .s1 => 1 | .s2 => 2 | .s3 => 3 | .s4 => 4 | .s5 => 5 | .s6 => 6 | .s7 => 7 | .s8 => 8

/-- The stations in ascending number. -/
def StationNo.all : List StationNo := [.s1, .s2, .s3, .s4, .s5, .s6, .s7, .s8]

/-- The station of a number, if it lies within 1..8. -/
def StationNo.ofNumber (n : Nat) : Option StationNo := StationNo.all.find? (fun st => st.number == n)

/-- The number that the manual gives a printer, 1 to 4. -/
def PrinterNo.number : PrinterNo → Nat
  | .p1 => 1 | .p2 => 2 | .p3 => 3 | .p4 => 4

/-- The printers in ascending number. -/
def PrinterNo.all : List PrinterNo := [.p1, .p2, .p3, .p4]

/-- The printer of a number, if it lies within 1..4. -/
def PrinterNo.ofNumber (n : Nat) : Option PrinterNo := PrinterNo.all.find? (fun pr => pr.number == n)

/-- The conditions in the order of Table 67. -/
def Condition.all : List Condition :=
  [.stationLost, .printerAttention, .printQueueHigh, .journalLow, .storeFault, .stagingExpired, .applyDone,
   .dayClosed, .ticketsFull, .linkError, .recoveryPending, .calibrationChanged, .clockUnset]

end Sys2Proof

namespace Sys2Proof.Machine

/-- One value for each station. -/
structure PerStation (α : Type) where
  s1 : α
  s2 : α
  s3 : α
  s4 : α
  s5 : α
  s6 : α
  s7 : α
  s8 : α
deriving DecidableEq, Repr

/-- The same value for each station. -/
def PerStation.all {α : Type} (x : α) : PerStation α := ⟨x, x, x, x, x, x, x, x⟩

/-- The value of a station. -/
def PerStation.get {α : Type} (v : PerStation α) : StationNo → α
  | .s1 => v.s1 | .s2 => v.s2 | .s3 => v.s3 | .s4 => v.s4 | .s5 => v.s5 | .s6 => v.s6 | .s7 => v.s7 | .s8 => v.s8

/-- The values with that of one station replaced. -/
def PerStation.set {α : Type} (v : PerStation α) (st : StationNo) (x : α) : PerStation α :=
  match st with
  | .s1 => { v with s1 := x } | .s2 => { v with s2 := x } | .s3 => { v with s3 := x } | .s4 => { v with s4 := x }
  | .s5 => { v with s5 := x } | .s6 => { v with s6 := x } | .s7 => { v with s7 := x } | .s8 => { v with s8 := x }

/-- The values of the stations in ascending number. -/
def PerStation.toList {α : Type} (v : PerStation α) : List α := StationNo.all.map v.get

/-- A function of the station's value, for each station. -/
def PerStation.map {α β : Type} (f : α → β) (v : PerStation α) : PerStation β :=
  ⟨f v.s1, f v.s2, f v.s3, f v.s4, f v.s5, f v.s6, f v.s7, f v.s8⟩

/-- One value for each printer. -/
structure PerPrinter (α : Type) where
  p1 : α
  p2 : α
  p3 : α
  p4 : α
deriving DecidableEq, Repr

/-- The same value for each printer. -/
def PerPrinter.all {α : Type} (x : α) : PerPrinter α := ⟨x, x, x, x⟩

/-- The value of a printer. -/
def PerPrinter.get {α : Type} (v : PerPrinter α) : PrinterNo → α
  | .p1 => v.p1 | .p2 => v.p2 | .p3 => v.p3 | .p4 => v.p4

/-- The values with that of one printer replaced. -/
def PerPrinter.set {α : Type} (v : PerPrinter α) (pr : PrinterNo) (x : α) : PerPrinter α :=
  match pr with
  | .p1 => { v with p1 := x } | .p2 => { v with p2 := x } | .p3 => { v with p3 := x } | .p4 => { v with p4 := x }

/-- One value for each dispenser. -/
structure PerDispenser (α : Type) where
  d1 : α
  d2 : α
deriving DecidableEq, Repr

/-- The value of a dispenser. -/
def PerDispenser.get {α : Type} (v : PerDispenser α) : DispenserNo → α
  | .d1 => v.d1 | .d2 => v.d2

/-- The values with that of one dispenser replaced. -/
def PerDispenser.set {α : Type} (v : PerDispenser α) (d : DispenserNo) (x : α) : PerDispenser α :=
  match d with
  | .d1 => { v with d1 := x } | .d2 => { v with d2 := x }

/-- One value for each condition, in the order of Table 67. -/
structure PerCondition (α : Type) where
  stationLost : α
  printerAttention : α
  printQueueHigh : α
  journalLow : α
  storeFault : α
  stagingExpired : α
  applyDone : α
  dayClosed : α
  ticketsFull : α
  linkError : α
  recoveryPending : α
  calibrationChanged : α
  clockUnset : α
deriving DecidableEq, Repr

/-- The same value for each condition. -/
def PerCondition.all {α : Type} (x : α) : PerCondition α := ⟨x, x, x, x, x, x, x, x, x, x, x, x, x⟩

/-- The value of a condition. -/
def PerCondition.get {α : Type} (v : PerCondition α) : Condition → α
  | .stationLost => v.stationLost
  | .printerAttention => v.printerAttention
  | .printQueueHigh => v.printQueueHigh
  | .journalLow => v.journalLow
  | .storeFault => v.storeFault
  | .stagingExpired => v.stagingExpired
  | .applyDone => v.applyDone
  | .dayClosed => v.dayClosed
  | .ticketsFull => v.ticketsFull
  | .linkError => v.linkError
  | .recoveryPending => v.recoveryPending
  | .calibrationChanged => v.calibrationChanged
  | .clockUnset => v.clockUnset

/-- The values with that of one condition replaced. -/
def PerCondition.set {α : Type} (v : PerCondition α) (c : Condition) (x : α) : PerCondition α :=
  match c with
  | .stationLost => { v with stationLost := x }
  | .printerAttention => { v with printerAttention := x }
  | .printQueueHigh => { v with printQueueHigh := x }
  | .journalLow => { v with journalLow := x }
  | .storeFault => { v with storeFault := x }
  | .stagingExpired => { v with stagingExpired := x }
  | .applyDone => { v with applyDone := x }
  | .dayClosed => { v with dayClosed := x }
  | .ticketsFull => { v with ticketsFull := x }
  | .linkError => { v with linkError := x }
  | .recoveryPending => { v with recoveryPending := x }
  | .calibrationChanged => { v with calibrationChanged := x }
  | .clockUnset => { v with clockUnset := x }

/-! ## Time (R168, R170) -/

/-- A calendar date. -/
structure Date where
  year : Nat
  month : Nat
  day : Nat
deriving DecidableEq, Repr

/-- A time of day. -/
structure TimeOfDay where
  hour : Nat
  minute : Nat
  second : Nat
deriving DecidableEq, Repr

/-- A date and a time of day; a time that is "unset" is the absent `Option DateTime`. -/
structure DateTime where
  date : Date
  time : TimeOfDay
deriving DecidableEq, Repr

/-- The elapsed-time count in milliseconds since the end of the reset, and the clock (R168, R170).
`phase` is the model's own: the milliseconds since the clock last advanced (log entry 4). -/
structure TimeBase where
  elapsed : Nat
  clock : DateTime
  valid : Bool
  phase : Nat
deriving DecidableEq, Repr

/-- Levels of the three control inputs (00_scope.md, section 2). -/
structure Inputs where
  calibrationSwitch : Bool
  baudStrap : BaudRate
  resetAsserted : Bool
deriving DecidableEq, Repr

/-! ## Reasons, shared by host and station replies (Table 66) -/

/-- The reasons of Table 66. -/
inductive Reason where
  | busy | wrongState | notAllowed | noSuch | badValue | range
  | motion | underMin | notCleared | zeroRange | tareSet | overload | underload | rail | zeroPending | uncalibrated
  | calibrating | stationStale
  | staleDisplay | noSelection | held | limit | generationMismatch | stageFull
  | orderFull | noOrderSlot | clerkLimit | queueFull | ordersOpen
  | storeBusy | journalFull | storeFault
  | nestLimit
  | calLocked | auditFull
  | ticketsEmpty | paused | closed | clockUnset
deriving DecidableEq, Repr

/-! ## Weighing channels (chapter 1) -/

/-- Calibration record of a station (Table 8); weights in grams, counts as raw counts. -/
structure CalRecord where
  zcal : Int
  scal : Nat
  lcal : Nat
  max : Nat
  b : Nat
  e1 : Nat
  e2 : Nat
  calibrated : Bool
deriving DecidableEq, Repr

/-- Configuration of a station (Table 7); the depth code is 2, 3, 4 or 5 (R10). -/
structure StationConfig where
  enabled : Bool
  printer : PrinterNo
  depthCode : Nat
  tareAutoClear : Bool
  labelMode : LabelMode
deriving DecidableEq, Repr

/-- Link state of a station (R196). -/
inductive Link where
  | absent | present | stale
deriving DecidableEq, Repr

/-- Progress of the power-up zero (R13). -/
inductive ZeroPhase where
  | settling | zeroPending | zeroed
deriving DecidableEq, Repr

/-- Kind of the tare in use (R19, R20). -/
inductive TareKind where
  | none | weighed | preset
deriving DecidableEq, Repr

/-- The tare in use; its value is 0 when the kind is NONE. -/
structure Tare where
  kind : TareKind
  value : Nat
deriving DecidableEq, Repr

/-- Capture interlock (R27, R28). -/
inductive Interlock where
  | set | released
deriving DecidableEq, Repr

/-- One entry of the filter window: a raw count and its converted value in fine units (R8). -/
structure Sample where
  raw : Int
  fine : Int
deriving DecidableEq, Repr

/-- One weighing channel (Table 7). Its link state is kept by ML. -/
structure Channel where
  cal : CalRecord
  config : StationConfig
  session : Bool
  window : List Sample
  filtered : Option Int
  filteredRaw : Option Int
  stability : List Int
  rawHistory : List Int
  rail : Bool
  phase : ZeroPhase
  zpu : Option Int
  zo : Int
  lastZeroChange : Option Nat
  tare : Tare
  interlock : Interlock
  autoClearPending : Bool
deriving DecidableEq, Repr

/-- Weighing state, derived and not stored (R4, Table 9). -/
inductive WeighState where
  | noLink | calibrating | rail | settling | zeroPending | overload | underload | uncalibrated | ready
deriving DecidableEq, Repr

/-- Weight field of the display record (Table 11). -/
inductive WeightField where
  | dashes
  | ol
  | ul
  | grams (w : Int)
deriving DecidableEq, Repr

/-! ## Articles and generations (chapters 2 and 3) -/

/-- An article record as AT holds it (Table 15). -/
structure Article where
  number : Nat
  kind : ArticleKind
  unitPrice : Nat
  rounding : RoundingMode
  step : Nat
  presetTare : Option Nat
  department : Nat
  name : Text
  shelfLife : Option Nat
  held : Bool
  generation : Nat
deriving DecidableEq, Repr

/-- A supervisor's price for the next line (R46). -/
structure PriceOverride where
  price : Nat
  supervisor : Nat
deriving DecidableEq, Repr

/-- What a clerk is about to sell (Table 16). -/
structure Selection where
  article : Option Nat
  quantity : Nat
  repeatEntry : Option Nat
  override : Option PriceOverride
deriving DecidableEq, Repr

/-- The values of Table 16 after every reset. -/
def Selection.initial : Selection := ⟨none, 1, none, none⟩

/-- An entry of the change set (section 3.2). -/
inductive ChangeEntry where
  | put (record : Article)
  | delete (number : Nat)
  | hold (number : Nat)
  | release (number : Nat)
deriving DecidableEq, Repr

/-- The change set (Table 25): its phase with the fields present in it. -/
inductive ChangeSet where
  | none
  | opened (base : Nat) (entries : List ChangeEntry) (lastMessage : Nat)
  | scheduled (base : Nat) (entries : List ChangeEntry) (time : TimeOfDay)
  | applying (base : Nat) (entries : List ChangeEntry) (time : Option TimeOfDay)
deriving DecidableEq, Repr

/-- How far the store-back of one generation is (R71, R72). -/
inductive StoreStage where
  /-- the writes still to be made; the first of them is in flight -/
  | writing (todo : List ChangeEntry)
  /-- the PRICE_STORED record was refused with JOURNAL_FULL and is offered again when an erase completes -/
  | refused
  /-- the PRICE_STORED record is in the write queue or waits for a place -/
  | queued
deriving DecidableEq, Repr

/-- A generation to be stored back, with the entries of its PRICE_APPLY. -/
structure OwedGeneration where
  generation : Nat
  entries : List ChangeEntry
deriving DecidableEq, Repr

/-- The store-back (Table 24). `later` holds the generations that a roll-forward has still to store (R73). -/
inductive StoreBack where
  | idle
  | storing (generation : Nat) (stage : StoreStage) (later : List OwedGeneration)
  | owed (generation : Nat)
deriving DecidableEq, Repr

/-- Phase of the change set, as STATUS and CHANGE STATUS report it (Table 25). -/
inductive ChangePhase where
  | none | opened | scheduled | applying
deriving DecidableEq, Repr

/-- Phase of the store-back, as STATUS and CHANGE STATUS report it, with the generation (Table 24). -/
inductive StorePhase where
  | idle
  | storing (generation : Nat)
  | owed (generation : Nat)
deriving DecidableEq, Repr

/-- Article table and generation control, with the RAM copy of the two prefixes (R52). -/
structure ArticleControl where
  table : List Article
  generation : Nat
  changeSet : ChangeSet
  storeBack : StoreBack
  selections : PerStation Selection
  confirmed : PerStation (Option Nat)
  itemPrefix : Nat
  totalPrefix : Nat
deriving DecidableEq, Repr

/-! ## Operators (chapter 4) -/

/-- A clerk record (Table 30). -/
structure Clerk where
  number : Nat
  role : Role
  name : Text
deriving DecidableEq, Repr

/-- The operator stack of a station (Table 31): entry 2 and its deadline are present only above an entry 1. -/
inductive Stack where
  | empty
  | signedOn (clerk : Nat)
  | overridden (clerk supervisor : Nat) (deadline : Nat)
deriving DecidableEq, Repr

/-- Operator control: the RAM copy of the clerk table and the stacks. -/
structure OperatorControl where
  clerks : List Clerk
  stack : PerStation Stack
deriving DecidableEq, Repr

/-! ## Orders (chapter 5) -/

/-- What a line sells: a weight with its tare, a number of items, or one fixed item (Table 35). -/
inductive Measure where
  | weighed (grams : Nat) (tare : Tare)
  | counted (quantity : Nat)
  | fixed
deriving DecidableEq, Repr

/-- The fields of a line, which no later event alters (Table 35, R99), with the department of its article (R146). -/
structure LineFields where
  index : Nat
  station : StationNo
  article : Nat
  measure : Measure
  department : Nat
  unitPrice : Nat
  generation : Nat
  listPrice : Nat
  linePrice : Nat
  overriddenBy : Option Nat
  label : Option Nat
  time : Option DateTime
deriving DecidableEq, Repr

/-- State of a line (section 5.5). -/
inductive LineState where
  | pending | active | voided
deriving DecidableEq, Repr

/-- A line of an order. -/
structure Line where
  fields : LineFields
  state : LineState
deriving DecidableEq, Repr

/-- How an order in CLOSING ends. -/
inductive CloseKind where
  | sale | void
deriving DecidableEq, Repr

/-- How far the closing record of an order is (Table 34). -/
inductive ClosingRecord where
  | waiting | queued | failed
deriving DecidableEq, Repr

/-- State of an order with the fields present in it (Table 34). FREE is the empty slot. -/
inductive OrderState where
  | opened (station : StationNo)
  | parked
  | closing (kind : CloseKind) (record : ClosingRecord)
deriving DecidableEq, Repr

/-- An order of the pool (Table 34). -/
structure Order where
  number : Nat
  owner : Nat
  state : OrderState
  ticket : Option Nat
  labelMode : LabelMode
  lines : List Line
  total : Nat
  totalLabel : Option Nat
  openedAt : Option DateTime
deriving DecidableEq, Repr

/-- Order manager: 16 slots (`none` is FREE), the active-order references and the last assigned number. -/
structure OrderManager where
  pool : List (Option Order)
  active : PerStation (Option Nat)
  lastNumber : Nat
deriving DecidableEq, Repr

/-! ## Tickets (chapter 6) -/

/-- A ticket as issued; in the waiting queue it is WAITING (Table 41). -/
structure Ticket where
  number : Nat
  dispenser : DispenserNo
  issued : DateTime
deriving DecidableEq, Repr

/-- A ticket CALLED at a station, with the time of its latest call. -/
structure CalledTicket where
  ticket : Ticket
  callTime : DateTime
deriving DecidableEq, Repr

/-- A MISSED ticket, with the elapsed-time mark of its miss. -/
structure MissedTicket where
  ticket : Ticket
  callTime : DateTime
  missedAt : Nat
deriving DecidableEq, Repr

/-- A SERVING ticket, bound to an order. -/
structure ServingTicket where
  ticket : Ticket
  callTime : DateTime
  station : StationNo
  order : Nat
deriving DecidableEq, Repr

/-- One call of the call list. -/
structure Call where
  ticket : Nat
  station : StationNo
deriving DecidableEq, Repr

/-- The ticket figures (Table 42). -/
structure TicketFigures where
  issued : Nat
  served : Nat
  servedWithWait : Nat
  noSale : Nat
  expired : Nat
  abandoned : Nat
  waitSum : Nat
deriving DecidableEq, Repr

/-- All ticket figures 0. -/
def TicketFigures.zero : TicketFigures := ⟨0, 0, 0, 0, 0, 0, 0⟩

/-- Ticket controller (Table 42). -/
structure TicketController where
  waiting : List Ticket
  called : PerStation (Option CalledTicket)
  missed : List MissedTicket
  serving : List ServingTicket
  lastIssued : Nat
  callList : List Call
  figures : TicketFigures
  validFrom : Option DateTime
deriving DecidableEq, Repr

/-! ## Labels and printers (chapter 7) -/

/-- Kind of a label job (Table 48). -/
inductive LabelKind where
  | item | total | reprint
deriving DecidableEq, Repr

/-- What a label carries (Table 47); a field that a kind does not carry, or that is blank, is absent. The code of a
TOTAL label is empty until R130 completes it. -/
structure LabelContent where
  kind : LabelKind
  label : Nat
  stamp : Option DateTime
  articleName : Option Text
  article : Option Nat
  weight : Option Nat
  tare : Option Nat
  quantity : Option Nat
  unitPrice : Option Nat
  perKilogram : Bool
  linePrice : Option Nat
  wasPrice : Option Nat
  sellBy : Option Date
  order : Nat
  lineIndex : Option Nat
  lineCount : Option Nat
  total : Option Nat
  ticket : Option Nat
  clerk : Nat
  station : StationNo
  code : List Nat
deriving DecidableEq, Repr

/-- A job of the print queue (Table 48); its creation order is its place in the list. -/
structure Job where
  kind : LabelKind
  label : Nat
  target : PrinterNo
  released : Bool
  atPrinter : Bool
  content : LabelContent
deriving DecidableEq, Repr

/-- State of a printer (Table 49). -/
inductive PrinterState where
  | ready | printing | outOfStock | headOpen | offline
deriving DecidableEq, Repr

/-- A message to a printer (section 7.4). -/
inductive PrinterMessage where
  | status
  | label (content : LabelContent)
deriving DecidableEq, Repr

/-- A message that waits for its reply, with the elapsed-time mark of its sending (R136). -/
structure SentMessage where
  message : PrinterMessage
  sentAt : Nat
deriving DecidableEq, Repr

/-- One printer port (R136). -/
structure Printer where
  state : PrinterState
  waiting : Option SentMessage
  lastReply : Option Nat
  lastStatus : Option Nat
deriving DecidableEq, Repr

/-- Label unit. -/
structure LabelUnit where
  queue : List Job
  printers : PerPrinter Printer
  lastLabel : Nat
  cancelled : Nat
deriving DecidableEq, Repr

/-! ## Totals (chapter 9) -/

/-- Figures of an article entry (Table 57). -/
structure ArticleFigures where
  lines : Nat
  weight : Nat
  quantity : Nat
  value : Nat
deriving DecidableEq, Repr

/-- An entry of the article map. -/
structure ArticleEntry where
  article : Nat
  figures : ArticleFigures
deriving DecidableEq, Repr

/-- Figures of a department or a station. -/
structure LineFigures where
  lines : Nat
  value : Nat
deriving DecidableEq, Repr

/-- Figures of a clerk entry. -/
structure ClerkFigures where
  orders : Nat
  value : Nat
  voidOrders : Nat
  voidValue : Nat
deriving DecidableEq, Repr

/-- An entry of the clerk accumulators. -/
structure ClerkEntry where
  clerk : Nat
  figures : ClerkFigures
deriving DecidableEq, Repr

/-- The counter-wide figures, in the order of Table 57. -/
structure CounterFigures where
  ordersClosed : Nat
  lines : Nat
  value : Nat
  voidedLines : Nat
  voidedLineValue : Nat
  voidOrders : Nat
  voidOrderValue : Nat
  overrideCount : Nat
  overrideDifference : Nat
  labelsMade : Nat
  reprints : Nat
deriving DecidableEq, Repr

/-- The day accumulators (Table 57). `departments` holds the 16 departments in ascending number. -/
structure Accumulators where
  articles : List ArticleEntry
  other : ArticleFigures
  departments : List LineFigures
  stations : PerStation LineFigures
  clerks : List ClerkEntry
  otherClerks : ClerkFigures
  counter : CounterFigures
deriving DecidableEq, Repr

/-- Every figure 0, no map entry (R172, R178). -/
def Accumulators.zero : Accumulators :=
  { articles := [], other := ⟨0, 0, 0, 0⟩, departments := List.replicate 16 ⟨0, 0⟩, stations := .all ⟨0, 0⟩,
    clerks := [], otherClerks := ⟨0, 0, 0, 0⟩, counter := ⟨0, 0, 0, 0, 0, 0, 0, 0, 0, 0, 0⟩ }

/-- The interrupted accumulator (Table 56). -/
structure Interrupted where
  value : Nat
  lines : Nat
deriving DecidableEq, Repr

/-- The digest of a day close (Table 59). -/
structure Digest where
  dayValue : Nat
  ordersClosed : Nat
  lines : Nat
  voidOrders : Nat
  voidOrderValue : Nat
  voidedLineValue : Nat
  overrideDifference : Nat
  labelsMade : Nat
  reprints : Nat
  check : BitVec 16
deriving DecidableEq, Repr

/-- The fields of a DAY_CLOSE record (Table 53). -/
structure DayClose where
  day : Nat
  digest : Digest
  grandTotalAfter : Nat
  lastLabel : Nat
  lastOrder : Nat
  time : Option DateTime
deriving DecidableEq, Repr

/-! ## Journal (chapter 8) -/

/-- A journal record with the fields of Table 53. -/
inductive Record where
  | line (order owner : Nat) (fields : LineFields)
  | voidLine (order index supervisor : Nat)
  | close (order owner : Nat) (ticket : Option Nat) (lineCount total : Nat) (totalLabel waitSeconds : Option Nat)
  | voidOrder (order owner : Nat) (ticket : Option Nat) (value : Nat)
  | reprint (label supervisor : Nat) (station : StationNo)
  | priceApply (generation : Nat) (entries : List ChangeEntry) (time : Option DateTime)
  | priceStored (generation : Nat)
  | dayClose (fields : DayClose)
deriving DecidableEq, Repr

/-- A record as it stands in a sector, with the 16-bit check of its record header (R146). -/
structure Stored where
  record : Record
  check : BitVec 16
deriving DecidableEq, Repr

/-- State mark of a sector header (R145, R150, R153, R158, R160). -/
inductive SectorMark where
  /-- every byte erased -/
  | erased
  /-- records, ending at an erased or a failed record header -/
  | inUse
  /-- records up to the length that the seal gives (R160) -/
  | sealed
  /-- no longer written or erased; good records up to the length that the mark gives -/
  | bad
  /-- an erase has begun: no records -/
  | eraseBegun
  /-- any other content: BAD with no records at the next scan -/
  | other
deriving DecidableEq, Repr

/-- One sector of the journal ring: its mark, its sequence number, the records written into it (for a SEALED or BAD
sector, those that its length covers), the record that a reset cut while it was written behind them (R158), and whether
its BAD mark failed its read-back in such a way that the next survey finds no valid header (log entry 11). -/
structure Sector where
  mark : SectorMark
  seq : Option Nat
  records : List Stored
  torn : Option Stored
  unreadable : Bool
deriving DecidableEq, Repr

/-- The records of a sector, in the order they were appended. -/
def Sector.journal (s : Sector) : List Record := s.records.map Stored.record

/-- An ERASED sector. -/
def Sector.blank : Sector := ⟨.erased, none, [], none, false⟩

/-- A place of the write queue that is not free (R147): held for the closing record of an order, or filled. -/
inductive Place where
  | held (order : Nat) (kind : CloseKind)
  | filled (record : Record)
deriving DecidableEq, Repr

/-- The append in flight (R149, R150): its first try, or the retry after the sector named was marked BAD. -/
inductive Append where
  | first
  | retry (badSector : Nat)
deriving DecidableEq, Repr

/-- The erase in flight: its sector, and whether it is suspended (R153, R154). -/
structure Erase where
  sector : Nat
  suspended : Bool
deriving DecidableEq, Repr

/-- Transaction journal, RAM side. `openAfter` is the index after which the next sector to open is looked for (R145,
R160); `writingSeq` is the sequence number of the writing sector. -/
structure Journal where
  writing : Option Nat
  writingSeq : Nat
  nextSeq : Nat
  openAfter : Nat
  queue : List Place
  waiting : Option Record
  fault : Bool
  append : Option Append
  erase : Option Erase
deriving DecidableEq, Repr

/-! ## Recovery report (R162) -/

/-- Cause of the latest reset (R192). -/
inductive ResetCause where
  | powerOn | resetLine | resetPart
deriving DecidableEq, Repr

/-- A line of an interrupted order as the report lists it (R162). A line that carries a label number is marked "print
unconfirmed". -/
structure InterruptedLine where
  index : Nat
  station : StationNo
  article : Nat
  linePrice : Nat
  label : Option Nat
  printUnconfirmed : Bool
deriving DecidableEq, Repr

/-- An interrupted order: its lines that have no VOID_LINE record, and their sum. -/
structure InterruptedOrder where
  order : Nat
  owner : Nat
  lines : List InterruptedLine
  value : Nat
deriving DecidableEq, Repr

/-- Where the scan ended early: sequence number and number of sectors passed over (R159). -/
structure EarlyEnd where
  seq : Nat
  passedOver : Nat
deriving DecidableEq, Repr

/-- The recovery report (R162), with the mark of R163 that says whether it has been read. -/
structure RecoveryReport where
  cause : ResetCause
  early : Option EarlyEnd
  orders : List InterruptedOrder
  read : Bool
deriving DecidableEq, Repr

/-- Counter state (R164). -/
inductive CounterState where
  | starting | trading | paused | closed | closedClosing
deriving DecidableEq, Repr

/-- Totals and counter control (Table 56), with the recovery report. -/
structure Totals where
  counter : CounterState
  scheduled : Option DateTime
  day : Nat
  grandTotal : Nat
  accumulators : Accumulators
  interrupted : Interrupted
  lastClose : Option DayClose
  report : Option RecoveryReport
deriving DecidableEq, Repr

/-! ## Calibration (chapter 10) -/

/-- New intervals of a session (R186). -/
structure Intervals where
  max : Nat
  b : Nat
  e1 : Nat
  e2 : Nat
deriving DecidableEq, Repr

/-- New span of a session: span counts and load (R185). -/
structure Span where
  scal : Nat
  lcal : Nat
deriving DecidableEq, Repr

/-- The calibration session (Table 61). -/
structure Session where
  station : StationNo
  old : CalRecord
  newZero : Option Int
  newSpan : Option Span
  newIntervals : Option Intervals
  gapMark : Nat
deriving DecidableEq, Repr

/-- How the last session ended (Table 62). -/
inductive EndCause where
  | committed | failed | aborted | switch | gap | stale
deriving DecidableEq, Repr

/-- The last session end with its station and time (Table 62). -/
structure SessionEnd where
  cause : EndCause
  station : StationNo
  time : Option DateTime
deriving DecidableEq, Repr

/-- Calibration control, RAM side (Table 62). -/
structure CalControl where
  session : Option Session
  lastEnd : Option SessionEnd
deriving DecidableEq, Repr

/-- One of the seven items of a calibration record that an audit entry can name (Table 63). -/
inductive CalItem where
  | zcal | scal | lcal | max | b | e1 | e2
deriving DecidableEq, Repr

/-- An audit entry (Table 63). -/
structure AuditEntry where
  number : Nat
  station : StationNo
  changed : List CalItem
  old : CalRecord
  new : CalRecord
  time : Option DateTime
  check : BitVec 16
deriving DecidableEq, Repr

/-- What an entry of the audit area that is not blank reads as (R188). -/
inductive AuditSlot where
  | written (entry : AuditEntry)
  | damaged
deriving DecidableEq, Repr

/-! ## Message links (chapter 11) -/

/-- Receiver of the host port, with a mark on the elapsed-time count: since when it hunts, or when the start byte of the
frame came that it receives (R170, R190). -/
inductive Receiver where
  | hunting (since : Nat)
  | receiving (startAt : Nat)
deriving DecidableEq, Repr

/-- Failing store of a STORE_FAULT (Table 67). -/
inductive StoreDetail where
  | journal
  | sectorBad (sector : Nat)
  | articleArea
  | settingsArea
  | auditArea
deriving DecidableEq, Repr

/-- Detail of a LINK_ERROR (R190). -/
inductive LinkDetail where
  | overlength | timeout | check | overrun
deriving DecidableEq, Repr

/-- Detail of a condition (Table 67). -/
inductive Detail where
  | station (st : StationNo)
  | printer (pr : PrinterNo) (entered : PrinterState)
  | printQueue (jobs : Nat) (target : PrinterNo)
  | erasedSectors (n : Nat)
  | store (d : StoreDetail)
  | staging (base lost : Nat)
  | switched (generation : Nat)
  | applyFailed (reason : Reason)
  | dayDone (day : Nat)
  | dayFailed (day : Nat)
  | dispenser (d : DispenserNo)
  | link (d : LinkDetail)
  | interrupted (orders : Nat)
  | calibration (st : StationNo) (audit : Nat)
deriving DecidableEq, Repr

/-- Flag and detail of a condition (R194). -/
structure Latch where
  flag : Bool
  detail : Option Detail
deriving DecidableEq, Repr

/-- Result data of an accepted key request: what the owning rule names (R198). -/
structure ResultData where
  order : Option Nat
  lineIndex : Option Nat
  linePrice : Option Nat
  total : Option Nat
  ticket : Option Nat
  label : Option Nat
deriving DecidableEq, Repr

/-- No result data. -/
def ResultData.nothing : ResultData := ⟨none, none, none, none, none, none⟩

/-- Result of a key request. -/
inductive KeyResult where
  | accepted (data : ResultData)
  | refused (reason : Reason)
deriving DecidableEq, Repr

/-- One outcome of the outcome list (R198). -/
structure KeyOutcome where
  keyTag : Nat
  result : KeyResult
deriving DecidableEq, Repr

/-- What ML keeps for one station (R196 to R198). -/
structure StationLink where
  link : Link
  lastReply : Option Nat
  keptTag : Option Nat
  sequence : Nat
  outcomes : List KeyOutcome
  storeError : Bool
deriving DecidableEq, Repr

/-- Answer to a TAKE (R114). -/
inductive TakeAnswer where
  | issued (number : Nat) (time : DateTime) (ahead : Nat)
  | full
  | closed
deriving DecidableEq, Repr

/-- The last take tag answered at a dispenser, with its answer (R199). -/
structure KeptTake where
  tag : Nat
  answer : TakeAnswer
deriving DecidableEq, Repr

/-- Message code of a poll (R198). -/
inductive MessageCode where
  | none | storeFault | starting | paused | closed
deriving DecidableEq, Repr

/-- Price preview of the display record (Table 18). -/
inductive Preview where
  | blank
  | limit
  | price (cents : Nat)
deriving DecidableEq, Repr

/-- Content of a poll (Table 68). -/
structure Poll where
  weight : WeightField
  stable : Bool
  net : Bool
  zero : Bool
  name : Option Text
  unitPrice : Option Nat
  preview : Preview
  overrideMark : Bool
  generation : Nat
  code : MessageCode
  sequence : Nat
  outcomes : List KeyOutcome
deriving DecidableEq, Repr

/-- The nonvolatile write that a dispatched request waits for, with what it writes (R191). -/
inductive HeldWrite where
  | setStation (st : StationNo) (config : StationConfig)
  | setPrefixes (item total : Nat)
  | setClerk (record : Clerk)
  | removeClerk (number : Nat)
  | calAudit (entry : AuditEntry)
  | calRecord (entry : AuditEntry)
deriving DecidableEq, Repr

/-- A request that has been dispatched and whose reply waits for the end of a nonvolatile write (R191). -/
structure HeldRequest where
  tag : Nat
  request : HostRequest
  write : HeldWrite
deriving DecidableEq, Repr

/-- Summary of one order for READ ORDER 0 (R112). -/
structure OrderSummary where
  number : Nat
  state : OrderState
  owner : Nat
  ticket : Option Nat
  lines : Nat
  total : Nat
deriving DecidableEq, Repr

/-- Reply of HELLO (R193). -/
structure HelloReport where
  vendor : String
  part : String
  firmware : Nat
  cause : ResetCause
  baud : BaudRate
  scanEnded : Bool
  elapsedSeconds : Nat
deriving DecidableEq, Repr

/-- Reply of STATUS (R193); `none` is a value that the start-up scan has not yet rebuilt. -/
structure StatusReport where
  counter : CounterState
  conditions : List Condition
  frames : Nat
  links : PerStation Link
  enabled : PerStation Bool
  printers : PerPrinter PrinterState
  journalFault : Option Bool
  erasedSectors : Option Nat
  changeSet : ChangePhase
  storeBack : Option StorePhase
  session : Option StationNo
  calibrationSwitch : Bool
  clockValid : Bool
deriving DecidableEq, Repr

/-- Weighing part of READ STATION (R29). -/
structure WeighReport where
  state : WeighState
  stable : Bool
  gross : Option Int
  net : Option Int
  saleWeight : Option Int
  division : Option Nat
  tare : Tare
  phase : ZeroPhase
  zo : Int
  zpu : Option Int
  interlock : Interlock
  autoClearPending : Bool
  cal : CalRecord
deriving DecidableEq, Repr

/-- An entry of an operator stack as READ STATION reports it (R88). -/
structure OperatorReport where
  number : Nat
  record : Option Clerk
deriving DecidableEq, Repr

/-- Reply of READ STATION for a station (R3, R29, R88, R91, R127). -/
structure StationReport where
  config : StationConfig
  weighing : WeighReport
  entry1 : Option OperatorReport
  entry2 : Option OperatorReport
  overrideSeconds : Option Nat
  activeOrder : Option (Nat × OrderState × Nat)
  calledTicket : Option (Nat × DateTime)
deriving DecidableEq, Repr

/-- Reply of CHANGE STATUS (R61). -/
structure ChangeReport where
  phase : ChangePhase
  base : Option Nat
  entries : Option Nat
  secondsLeft : Option Nat
  scheduledTime : Option TimeOfDay
  generation : Nat
  records : Nat
  storeBack : StorePhase
  areaGeneration : Nat
  confirmed : PerStation (Option Nat)
deriving DecidableEq, Repr

/-- Reply of READ QUEUE SUMMARY (R126). -/
structure QueueReport where
  lastIssued : Nat
  waiting : Nat
  called : PerStation (Option CalledTicket)
  missed : List (Nat × DateTime × Nat)
  serving : List (Nat × Nat × StationNo)
  callList : List Call
  figures : TicketFigures
  validFrom : Option DateTime
deriving DecidableEq, Repr

/-- One printer in READ PRINTERS SUMMARY (R142). -/
structure PrinterReport where
  state : PrinterState
  job : Option (Nat × LabelKind)
  held : Nat
  released : Nat
deriving DecidableEq, Repr

/-- One job in READ PRINTERS JOBS (R142). -/
structure JobReport where
  kind : LabelKind
  label : Nat
  target : PrinterNo
  released : Bool
  atPrinter : Bool
deriving DecidableEq, Repr

/-- What every reply of READ JOURNAL carries (R157). -/
structure JournalReport where
  day : Nat
  recordsSinceClose : Nat
  erased : Nat
  bad : Nat
  fault : Bool
  erasing : Bool
  placesInUse : Nat
deriving DecidableEq, Repr

/-- A record as READ JOURNAL shows it: for a PRICE_APPLY the entries from the position asked for and their number. -/
structure RecordReport where
  record : Record
  entries : Option Nat
deriving DecidableEq, Repr

/-- What every reply of READ TOTALS carries (R176). -/
structure TotalsReport where
  counter : CounterState
  day : Nat
  grandTotal : Nat
  clock : DateTime
  clockValid : Bool
  scheduled : Bool
deriving DecidableEq, Repr

/-- The part of READ TOTALS (R176). -/
inductive TotalsData where
  | counter (figures : CounterFigures) (interrupted : Interrupted)
  | departments (entries : List LineFigures)
  | stations (entries : PerStation LineFigures)
  | clerks (entries : List ClerkEntry) (other : ClerkFigures)
  | articles (entries : List ArticleEntry) (other : Option ArticleFigures) (mapEntries : Nat)
deriving DecidableEq, Repr

/-- Open session in the summary of READ AUDIT (R189). -/
structure SessionReport where
  station : StationNo
  hasZero : Bool
  hasSpan : Bool
  hasIntervals : Bool
  secondsLeft : Nat
deriving DecidableEq, Repr

/-- Summary of READ AUDIT (R189). -/
structure AuditReport where
  counter : Nat
  damaged : Nat
  switch : Bool
  session : Option SessionReport
  lastEnd : Option SessionEnd
deriving DecidableEq, Repr

/-- Data of a DONE reply, as the owning rule names it. -/
inductive ReplyData where
  | nothing
  | hello (r : HelloReport)
  | status (r : StatusReport)
  | conditions (entries : List (Condition × Latch × Bool))
  | stationSettings (st : StationNo) (config : StationConfig)
  | prefixes (item total : Nat)
  | station (r : StationReport)
  | article (record : Article) (generation records : Nat)
  | generation (g : Nat)
  | staged (entries : Nat)
  | changeStatus (r : ChangeReport)
  | clerk (record : Clerk) (records : Nat)
  | clerks (records : Nat)
  | signedOff (st : StationNo) (parked : Option Nat)
  | orders (entries : List OrderSummary)
  | order (o : Order)
  | orderTotal (total : Nat)
  | queue (r : QueueReport)
  | waitingTickets (tickets : List Ticket) (length : Nat)
  | moved (jobs : Nat)
  | cancelled (jobs : Nat)
  | printers (entries : PerPrinter PrinterReport) (jobs lastLabel cancelled : Nat)
  | jobs (entries : List JobReport) (length : Nat)
  | journal (record : RecordReport) (r : JournalReport)
  | recoverySummary (cause : ResetCause) (early : Option EarlyEnd) (orders value : Nat) (readBefore : Bool)
  | recoveryOrder (o : InterruptedOrder) (readBefore : Bool)
  | totals (part : TotalsData) (r : TotalsReport)
  | lastClose (fields : DayClose)
  | calRecord (record : CalRecord)
  | calZero (count : Int) (spanRemoved : Bool)
  | calSpan (scal lcal : Nat)
  | calCommitted (audit : Nat) (record : CalRecord)
  | audit (r : AuditReport)
  | auditEntry (slot : AuditSlot)
deriving DecidableEq, Repr

/-- Body of a reply (section 11.1): DONE with its data, ACCEPTED, or REFUSED with its reason, the current generation
for GENERATION_MISMATCH (R55, R62, R63), and what every reply of READ JOURNAL and of READ TOTALS carries (R157, R176). -/
inductive ReplyBody where
  | done (data : ReplyData)
  | accepted
  | refused (reason : Reason) (generation : Option Nat)
  | refusedJournal (reason : Reason) (r : JournalReport)
  | refusedTotals (reason : Reason) (r : TotalsReport)
deriving DecidableEq, Repr

/-- A reply on the host port: the tag and the kind of the request it answers, and its body. -/
structure Reply where
  tag : Nat
  answers : FrameMeaning
  body : ReplyBody
deriving DecidableEq, Repr

/-- A notice on the host port: a condition with its detail (R194), or STARTED (R192). -/
inductive Notice where
  | condition (c : Condition) (detail : Option Detail)
  | started (cause : ResetCause) (day generation : Nat) (counter : CounterState) (interrupted : Nat)
deriving DecidableEq, Repr

/-- The poll that waits for its reply: its station and the elapsed-time mark of its end (R196). -/
structure AwaitedReply where
  station : StationNo
  sentAt : Nat
deriving DecidableEq, Repr

/-- Message links. `sentReply`, `sentNotice`, `sentPoll` and `sentCalls` are the model's record of what last left the
host port, the station bus and the call display port. -/
structure Links where
  receiver : Receiver
  buffer : List Frame
  serving : Option HeldRequest
  latches : PerCondition Latch
  enables : PerCondition Bool
  notices : List Condition
  cause : ResetCause
  baud : BaudRate
  stations : PerStation StationLink
  lastPolled : Option StationNo
  awaited : Option AwaitedReply
  takes : PerDispenser (Option KeptTake)
  display : List (List Call)
  sentReply : Option Reply
  sentNotice : Option Notice
  sentPoll : Option (StationNo × Poll)
  sentCalls : Option (List Call)
deriving DecidableEq, Repr

/-! ## Nonvolatile memory (00_scope.md, section 3.1) -/

/-- Settings area: the station places, the two prefixes and the clerk table. -/
structure Settings where
  records : PerStation CalRecord
  configs : PerStation StationConfig
  itemPrefix : Nat
  totalPrefix : Nat
  clerks : List Clerk
deriving DecidableEq, Repr

/-- The four nonvolatile areas. -/
structure NonVolatile where
  settings : Settings
  articles : List Article
  areaGeneration : Nat
  sectors : List Sector
  audit : List AuditSlot
  auditCounter : Nat
deriving DecidableEq, Repr

/-! ## The part -/

/-- The whole part: its nonvolatile memory, its inputs, its time, its ten blocks, and the model's counter of free
values used (log entry 2). -/
structure Part where
  nv : NonVolatile
  inputs : Inputs
  time : TimeBase
  wc : PerStation Channel
  art : ArticleControl
  oc : OperatorControl
  om : OrderManager
  tc : TicketController
  lu : LabelUnit
  tj : Journal
  tt : Totals
  cc : CalControl
  ml : Links
  free : Nat
deriving DecidableEq, Repr

/-- The state: the part, and the commands that wait, first in, first out. -/
structure State where
  part : Part
  pending : List Instr
deriving DecidableEq, Repr

/-- Why a command stops with a fault. No rule of the manual makes the part stop, so there is no constructor: nothing
raises one, which is neither safe nor unsafe. -/
inductive Fault where
deriving DecidableEq, Repr

/-- Why a command is refused. -/
inductive Refusal where
  /-- The command has no meaning in the model yet; raised by the arms of `exec` that reject a command by its mnemonic.
  Safe: the model stops where the part goes on. -/
  | notModelled (mnemonic : String)
deriving DecidableEq, Repr

/-! ## A new part (Table 8, R1, R32, R52, R53, R74, R145, R188) -/

/-- Calibration record of a station that has never been calibrated (Table 8). -/
def CalRecord.default : CalRecord := ⟨0, 2000000, 10000, 15000, 6000, 2, 5, false⟩

/-- Configuration of a station that SET STATION has never written (Table 8). -/
def StationConfig.default (printer : PrinterNo) : StationConfig := ⟨true, printer, 3, true, .item⟩

/-- The settings area of a new part (Table 8, R52, R74). -/
def Settings.new : Settings :=
  { records := .all .default
    configs := ⟨.default .p1, .default .p1, .default .p2, .default .p2, .default .p3, .default .p3, .default .p4,
      .default .p4⟩
    itemPrefix := 27
    totalPrefix := 28
    clerks := [] }

/-- The nonvolatile memory of a new part. -/
def NonVolatile.new : NonVolatile :=
  { settings := .new
    articles := []
    areaGeneration := 0
    sectors := List.replicate Config.sectors .blank
    audit := []
    auditCounter := 0 }

/-! ## The RAM state right after a reset -/

/-- A channel with its reset contents (R2) and the copies of its settings (R1). -/
def Channel.initial (cal : CalRecord) (config : StationConfig) : Channel :=
  { cal := cal, config := config, session := false, window := [], filtered := none, filteredRaw := none, stability := [],
    rawHistory := [], rail := false, phase := .settling, zpu := none, zo := 0, lastZeroChange := none,
    tare := ⟨.none, 0⟩, interlock := .set, autoClearPending := false }

/-- The channels after a reset: each with its copies of the settings area. -/
def Channel.initialAll (s : Settings) : PerStation Channel :=
  ⟨.initial s.records.s1 s.configs.s1, .initial s.records.s2 s.configs.s2, .initial s.records.s3 s.configs.s3,
   .initial s.records.s4 s.configs.s4, .initial s.records.s5 s.configs.s5, .initial s.records.s6 s.configs.s6,
   .initial s.records.s7 s.configs.s7, .initial s.records.s8 s.configs.s8⟩

/-- AT after a reset: the table and the generation are still to be rebuilt (R53, R69, R73). -/
def ArticleControl.initial (s : Settings) : ArticleControl :=
  { table := [], generation := 0, changeSet := .none, storeBack := .idle, selections := .all .initial,
    confirmed := .all none, itemPrefix := s.itemPrefix, totalPrefix := s.totalPrefix }

/-- OC after a reset (R74, R77). -/
def OperatorControl.initial (s : Settings) : OperatorControl := { clerks := s.clerks, stack := .all .empty }

/-- OM after a reset (R89, R90). -/
def OrderManager.initial : OrderManager :=
  { pool := List.replicate Config.orderSlots none, active := .all none, lastNumber := 0 }

/-- TC after a reset (R113). -/
def TicketController.initial : TicketController :=
  { waiting := [], called := .all none, missed := [], serving := [], lastIssued := 0, callList := [],
    figures := .zero, validFrom := none }

/-- A printer after a reset (R136). -/
def Printer.initial : Printer := { state := .offline, waiting := none, lastReply := none, lastStatus := none }

/-- LU after a reset (R128, R132, R136, R141). -/
def LabelUnit.initial : LabelUnit := { queue := [], printers := .all .initial, lastLabel := 0, cancelled := 0 }

/-- TJ after a reset (R147, R160); the scan sets its sector state. -/
def Journal.initial : Journal :=
  { writing := none, writingSeq := 0, nextSeq := 1, openAfter := 31, queue := [], waiting := none, fault := false,
    append := none, erase := none }

/-- TT after a reset (Table 56). -/
def Totals.initial : Totals :=
  { counter := .starting, scheduled := none, day := 1, grandTotal := 0, accumulators := .zero, interrupted := ⟨0, 0⟩,
    lastClose := none, report := none }

/-- CC after a reset (R181). -/
def CalControl.initial : CalControl := { session := none, lastEnd := none }

/-- What ML keeps for a station after a reset (R196 to R198). -/
def StationLink.initial : StationLink :=
  { link := .absent, lastReply := none, keptTag := none, sequence := 0, outcomes := [], storeError := false }

/-- ML after a reset (R190 to R199). -/
def Links.initial (cause : ResetCause) (baud : BaudRate) : Links :=
  { receiver := .hunting 0, buffer := [], serving := none, latches := .all ⟨false, none⟩, enables := .all true,
    notices := [], cause := cause, baud := baud, stations := .all .initial, lastPolled := none, awaited := none,
    takes := ⟨none, none⟩, display := [], sentReply := none, sentNotice := none, sentPoll := none, sentCalls := none }

/-- The part at the end of a reset, with the start-up scan still to come (R192). -/
def Part.afterReset (cause : ResetCause) (nv : NonVolatile) (inputs : Inputs) (time : TimeBase) (free : Nat) : Part :=
  { nv := nv, inputs := inputs, time := time, wc := Channel.initialAll nv.settings, art := .initial nv.settings,
    oc := .initial nv.settings, om := .initial, tc := .initial, lu := .initial, tj := .initial, tt := .initial,
    cc := .initial, ml := .initial cause inputs.baudStrap, free := free }

/-- The clock at POWER_ON (R168). -/
def TimeBase.powerOn : TimeBase :=
  { elapsed := 0, clock := ⟨⟨2000, 1, 1⟩, ⟨0, 0, 0⟩⟩, valid := false, phase := 0 }

/-- A new part right after POWER_ON, with no command waiting. The levels of the inputs are log entry 3. -/
def State.reset : State :=
  { part := Part.afterReset .powerOn .new
      { calibrationSwitch := false, baudStrap := .b57600, resetAsserted := false } .powerOn 0
    pending := [] }

end Sys2Proof.Machine

namespace Sys2Proof.Config

/-- The bytes over which the check of a journal record runs: its kind, its length and its fields (R146), in a layout that
the manual does not give; log entry 7. -/
opaque recordContent : Machine.Record → List Byte

end Sys2Proof.Config
end

