-- ==== Sys2Proof/Machine/Operands.lean ====
section
/-! DEFINITION. The arithmetic of the manual's values: rounding, bands, prices, digit strings, checks, dates, and the
ordered lists in which records are kept. -/

namespace Sys2Proof.Machine

/-! ## Ranges and rounding (00_scope.md, sections 5.1 and 5.2) -/

/-- A range written a..b includes both a and b. -/
def within (a b n : Nat) : Bool := a ≤ n && n ≤ b

/-- Division rounded half away from zero to an integer (section 5.2). -/
def divRound (a : Int) (b : Nat) : Int :=
  if a < 0 then -Int.ofNat ((2 * a.natAbs + b) / (2 * b)) else Int.ofNat ((2 * a.natAbs + b) / (2 * b))

/-- Whether `x` fine units lie within ±`p` % of Max grams (R12): 100 × |x| ≤ p × Max × 10, exactly. -/
def inBand (p max : Nat) (x : Int) : Bool := 100 * x.natAbs ≤ p * max * 10

/-! ## Prices (R43 to R45) -/

/-- The rounded quotient of an exact product by a divisor, under a rounding mode (R43). -/
def roundQuotient (mode : RoundingMode) (product divisor : Nat) : Nat :=
  match mode with
  | .nearest => (2 * product + divisor) / (2 * divisor)
  | .down => product / divisor
  | .up => (product + (divisor - 1)) / divisor

/-- List price of a WEIGHED line: W grams at `u` cents per kilogram, step `s` (R43). -/
def weighedPrice (mode : RoundingMode) (w u s : Nat) : Nat := roundQuotient mode (w * u) (1000 * s) * s

/-! ## Digit strings (R49 to R51) -/

/-- `n` as `width` decimal digits with leading zeros. -/
def decimal (n : Nat) : Nat → List Nat
  | 0 => []
  | k + 1 => (n / 10 ^ k) % 10 :: decimal n k

/-- Weighted sum of digits, the first with weight `w`, then alternating between 1 and 3. -/
def weightedSum : Nat → List Nat → Nat
  | _, [] => 0
  | w, d :: ds => d * w + weightedSum (4 - w) ds

/-- Check digit of twelve digits (R51): digit 1 has weight 1 and digit 12 weight 3. -/
def checkDigit (digits : List Nat) : Nat := (10 - weightedSum 1 digits % 10) % 10

/-- Twelve digits with their check digit. -/
def withCheck (digits : List Nat) : List Nat := digits ++ [checkDigit digits]

/-- Item code (R49). -/
def itemCode (itemPrefix article price : Nat) : List Nat :=
  withCheck (decimal itemPrefix 2 ++ decimal article 5 ++ decimal price 5)

/-- Total code (R50). -/
def totalCode (totalPrefix order total : Nat) : List Nat :=
  withCheck (decimal totalPrefix 2 ++ decimal order 4 ++ decimal total 6)

/-! ## 16-bit check: polynomial 1021h, initial value FFFFh, most significant bit first (Tables 59, 63, 65) -/

/-- One step of the check: the most significant bit is shifted out. -/
def crcShift (crc : BitVec 16) : BitVec 16 := if crc.msb then (crc <<< 1) ^^^ 0x1021#16 else crc <<< 1

/-- `n` steps of the check. -/
def crcShifts : Nat → BitVec 16 → BitVec 16
  | 0, crc => crc
  | n + 1, crc => crcShifts n (crcShift crc)

/-- The check with one more byte. -/
def crcByte (crc : BitVec 16) (b : Byte) : BitVec 16 := crcShifts 8 (crc ^^^ (b.setWidth 16 <<< 8))

/-- The check of a list of bytes. -/
def crc16 (bytes : List Byte) : BitVec 16 := bytes.foldl crcByte 0xFFFF#16

/-- `n` as an unsigned integer of `width` bytes, most significant byte first. -/
def bigEndian (n : Nat) : Nat → List Byte
  | 0 => []
  | k + 1 => BitVec.ofNat 8 (n / 256 ^ k) :: bigEndian n k

/-- A signed integer in two's complement of four bytes, most significant byte first (Table 63). -/
def bigEndianSigned (z : Int) : List Byte := bigEndian (BitVec.ofInt 32 z).toNat 4

/-! ## Calendar (R168) -/

/-- Leap years: every year from 2000 to 2096 divisible by 4 (R168). A sell-by date can fall in 2100, which the
calendar of R129 makes no leap year. -/
def isLeap (year : Nat) : Bool := year % 4 == 0 && year != 2100

/-- Length of a month in a year. -/
def monthLength (year month : Nat) : Nat :=
  match month with
  | 2 => if isLeap year then 29 else 28
  | 4 | 6 | 9 | 11 => 30
  | _ => 31

/-- The next date by the calendar. -/
def Date.following (d : Date) : Date :=
  if d.day < monthLength d.year d.month then { d with day := d.day + 1 }
  else if d.month < 12 then ⟨d.year, d.month + 1, 1⟩
  else ⟨d.year + 1, 1, 1⟩

/-- The date `n` days later, across months and years (R129). -/
def Date.plusDays : Nat → Date → Date
  | 0, d => d
  | n + 1, d => Date.plusDays n d.following

/-- The next date of the clock: after 2099-12-31 comes 2000-01-01 (R168). -/
def Date.clockFollowing (d : Date) : Date := if d = ⟨2099, 12, 31⟩ then ⟨2000, 1, 1⟩ else d.following

/-- The clock's date `n` days later. -/
def Date.clockPlusDays : Nat → Date → Date
  | 0, d => d
  | n + 1, d => Date.clockPlusDays n d.clockFollowing

/-- Days of a year before the first of a month. -/
def daysBefore (year : Nat) : Nat → Nat
  | 0 => 0
  | 1 => 0
  | m + 2 => daysBefore year (m + 1) + monthLength year (m + 1)

/-- Days from 2000-01-01 to a date. -/
def Date.dayNumber (d : Date) : Nat :=
  (d.year - 2000) * 365 + (d.year - 2000 + 3) / 4 + daysBefore d.year d.month + (d.day - 1)

/-- Seconds since midnight. -/
def TimeOfDay.seconds (t : TimeOfDay) : Nat := t.hour * 3600 + t.minute * 60 + t.second

/-- The time of day of a number of seconds since midnight. -/
def TimeOfDay.ofSeconds (n : Nat) : TimeOfDay := ⟨n / 3600, n / 60 % 60, n % 60⟩

/-- Seconds from 2000-01-01 00:00:00 to a date and time. -/
def DateTime.seconds (t : DateTime) : Nat := t.date.dayNumber * 86400 + t.time.seconds

/-- The clock's reading `n` seconds later (R168). -/
def DateTime.clockPlus (t : DateTime) (n : Nat) : DateTime :=
  if n = 0 then t
  else ⟨Date.clockPlusDays ((t.time.seconds + n) / 86400) t.date, TimeOfDay.ofSeconds ((t.time.seconds + n) % 86400)⟩

/-- Whether a date and time of day is one that SET CLOCK accepts (R169). -/
def validDateTime (year month day hour minute second : Nat) : Bool :=
  within 2000 2099 year && within 1 12 month && within 1 (monthLength year month) day && hour ≤ 23 && minute ≤ 59
    && second ≤ 59

/-- Whole seconds left from `now` to a deadline, rounded down. -/
def secondsLeft (deadline now : Nat) : Nat := (deadline - now) / 1000

/-! ## Text -/

/-- 1 to `max` characters, each from 20h to 7Eh (Tables 15 and 30). -/
def validText (max : Nat) (t : Text) : Bool :=
  within 1 max t.length && t.all (fun c => within 0x20 0x7E c.toNat)

/-! ## Lists of records in ascending key -/

/-- The record of a key. -/
def lookup {α : Type} (key : α → Nat) (n : Nat) (l : List α) : Option α := l.find? (fun x => key x == n)

/-- The list with a record put in its place: it replaces the record of the same key, or joins in ascending key. -/
def insertByKey {α : Type} (key : α → Nat) (x : α) : List α → List α
  | [] => [x]
  | y :: ys =>
    if key x < key y then x :: y :: ys
    else if key x = key y then x :: ys
    else y :: insertByKey key x ys

/-- The list without the record of a key. -/
def removeKey {α : Type} (key : α → Nat) (n : Nat) (l : List α) : List α := l.filter (fun x => key x != n)

/-- The list without its first element that satisfies a test. -/
def removeFirst {α : Type} (test : α → Bool) : List α → List α
  | [] => []
  | x :: xs => if test x then xs else x :: removeFirst test xs

/-- The list with its first element that satisfies a test changed. -/
def changeFirst {α : Type} (test : α → Bool) (f : α → α) : List α → List α
  | [] => []
  | x :: xs => if test x then f x :: xs else x :: changeFirst test f xs

/-- The newest `n` elements of a list that is oldest first. -/
def newest {α : Type} (n : Nat) (l : List α) : List α := l.drop (l.length - n)

/-- A figure raised by `n` that stays at its limit (R125, R141). -/
def saturate (limit figure n : Nat) : Nat := min limit (figure + n)

end Sys2Proof.Machine
end

