-- ==== Sys2Proof/Machine/Flags.lean ====
section
/-! DEFINITION. The condition flags and their notices (R194, R195). -/

namespace Sys2Proof.Machine

/-- A condition is latched with its detail: the flag becomes set and the detail is brought up to date; when the flag was
clear and its notice is enabled, a notice becomes pending, at most one for each condition (R194). -/
def Part.latch (p : Part) (c : Condition) (detail : Option Detail) : Part :=
  { p with ml :=
      { p.ml with
        latches := p.ml.latches.set c ⟨true, detail⟩
        notices :=
          if !(p.ml.latches.get c).flag && p.ml.enables.get c && !p.ml.notices.contains c then p.ml.notices ++ [c]
          else p.ml.notices } }

/-- STORE_FAULT is latched with the store that failed (Table 67). -/
def Part.latchStore (p : Part) (d : StoreDetail) : Part := p.latch .storeFault (some (.store d))

/-- LINK_ERROR is latched (R190). -/
def Part.latchLink (p : Part) (d : LinkDetail) : Part := p.latch .linkError (some (.link d))

/-- A condition is cleared: its flag, its detail and its pending notice (R195). -/
def Part.clear (p : Part) (c : Condition) : Part :=
  { p with ml :=
      { p.ml with
        latches := p.ml.latches.set c ⟨false, none⟩
        notices := p.ml.notices.filter (fun d => d != c) } }

/-- The enables that SET NOTICES carries, as one value for each condition. -/
def enablesOf (e : Enables) : PerCondition Bool :=
  ⟨e.stationLost, e.printerAttention, e.printQueueHigh, e.journalLow, e.storeFault, e.stagingExpired, e.applyDone,
   e.dayClosed, e.ticketsFull, e.linkError, e.recoveryPending, e.calibrationChanged, e.clockUnset⟩

/-- Every enable is replaced, and the pending notice of each condition now disabled is withdrawn (R195). -/
def Part.setEnables (p : Part) (e : PerCondition Bool) : Part :=
  { p with ml := { p.ml with enables := e, notices := p.ml.notices.filter (fun c => e.get c) } }

/-- The conditions whose flags are set (R193). -/
def Part.setConditions (p : Part) : List Condition := Condition.all.filter (fun c => (p.ml.latches.get c).flag)

end Sys2Proof.Machine
end

