-- ==== Sys2Proof/Machine/Ops.lean ====
section
/-! DEFINITION. The operations that commands of every block share: acting on the part, the passing of time, replies, and the
dispatch of a host request. -/

namespace Sys2Proof.Machine

/-! ## Acting on the part -/

/-- The part after a command that every state of the reset input lets through. -/
def State.always (s : State) (f : Part → Part) : Host.Outcome State Fault Refusal := .next { s with part := f s.part }

/-- A command's effect as the reset input lets it: while the input is asserted the part is held in reset and nothing is
sent or received on any port (R192), so the command leaves the part as it is. -/
def Part.unlessHeld (f : Part → Part) (p : Part) : Part := if p.inputs.resetAsserted then p else f p

/-- The part after a command that the part takes only while it is not held in reset. -/
def State.act (s : State) (f : Part → Part) : Host.Outcome State Fault Refusal := s.always (Part.unlessHeld f)

/-! ## Time (R168, R170) -/

/-- The passing of `ms` milliseconds: the elapsed-time count runs, and the clock advances by one second each second
(R168, R170). -/
def TimeBase.advance (t : TimeBase) (ms : Nat) : TimeBase :=
  { t with
    elapsed := t.elapsed + ms
    clock := t.clock.clockPlus ((t.phase + ms) / 1000)
    phase := (t.phase + ms) % 1000 }

/-- The passing of `ms` milliseconds. -/
def Part.advance (p : Part) (ms : Nat) : Part := { p with time := p.time.advance ms }

/-- The part at a mark of the elapsed-time count: a deadline that the count has not reached is reached now (log
entry 4). -/
def Part.reach (p : Part) (mark : Nat) : Part := p.advance (mark - p.time.elapsed)

/-- The present moment on the elapsed-time count (R170). -/
def Part.now (p : Part) : Nat := p.time.elapsed

/-- The present date and time, or "unset" while the clock is invalid (R168). -/
def Part.stamp (p : Part) : Option DateTime := if p.time.valid then some p.time.clock else none

/-! ## Free values -/

/-- The part with one more free value used (log entry 2). -/
def Part.useFree (p : Part) : Part := { p with free := p.free + 1 }

/-! ## Replies and dispatch (R191) -/

/-- The reply to a request leaves the host port (section 11.1). -/
def Part.reply (p : Part) (tag : Nat) (answers : FrameMeaning) (body : ReplyBody) : Part :=
  { p with ml := { p.ml with sentReply := some ⟨tag, answers, body⟩ } }

/-- What the owning block makes of a dispatched request: a reply now, or a reply when its write has ended (R191). -/
inductive Answer where
  | now (body : ReplyBody)
  | later (write : HeldWrite)
deriving DecidableEq, Repr

/-- A refusal without detail. -/
def Answer.refuse (r : Reason) : Answer := .now (.refused r none)

/-- A DONE reply. -/
def Answer.done (d : ReplyData) : Answer := .now (.done d)

/-- The requests that are served while the counter is STARTING (R191, check 4). -/
def servedDuringScan : HostRequest → Bool
  | .hello => true
  | .status => true
  | _ => false

/-- The frame that is dispatched leaves the input buffer. Only the oldest frame is dispatched, and only when the reply to
the request before it has been sent (R191). A request command that meets an empty buffer stands for the reception of
its frame and its dispatch together (log entry 13). -/
def Part.takeFrame (p : Part) (f : Frame) : Option Part :=
  if p.ml.serving.isSome then none
  else
    match p.ml.buffer with
    | [] => some p
    | g :: rest => if g = f then some { p with ml := { p.ml with buffer := rest } } else none

/-- The answer of the owning block is sent, or held until the write of the request has ended (R191). -/
def Part.answer (p : Part) (tag : Nat) (req : HostRequest) : Answer → Part
  | .now body => p.reply tag (.request req) body
  | .later write => { p with ml := { p.ml with serving := some ⟨tag, req, write⟩ } }

/-- The nonvolatile write that the dispatched request waits for. -/
def Part.awaitedWrite (p : Part) : Option HeldWrite := p.ml.serving.map HeldRequest.write

/-- The write of the dispatched request has ended: its reply is sent, and the next request can be dispatched (R191). -/
def Part.replyHeld (p : Part) (body : ReplyBody) : Part :=
  match p.ml.serving with
  | none => p
  | some h => Part.reply { p with ml := { p.ml with serving := none } } h.tag (.request h.request) body

/-- A settings-area write has failed its read-back: the reply is STORE_FAULT, and STORE_FAULT is latched (R3, R75,
R76). -/
def Part.failSettings (p : Part) : Part := (p.latchStore .settingsArea).replyHeld (.refused .storeFault none)

/-- The settings area changed. -/
def Part.onSettings (p : Part) (f : Settings → Settings) : Part :=
  { p with nv := { p.nv with settings := f p.nv.settings } }

/-- The dispatch of a host request: the checks of R191 that a frame with a known kind and a body of the right length
can fail, then the owning block. -/
def Part.dispatch (p : Part) (tag : Nat) (req : HostRequest) (serve : Part → Part × Answer) : Part :=
  match p.takeFrame ⟨tag, .request req⟩ with
  | none => p
  | some q =>
    if tag = 0 then q.reply tag (.request req) (.refused .badValue none)
    else if q.tt.counter = .starting && !servedDuringScan req then q.reply tag (.request req) (.refused .busy none)
    else (serve q).1.answer tag req (serve q).2

/-- A request that only reads: its reply is formed from the part as it stands and changes nothing else. -/
def reading (report : Part → Answer) (p : Part) : Part × Answer := (p, report p)

/-! ## Key requests -/

/-- What a block makes of a key request: a refusal with its reason, which changes nothing, or the part after it with the
result data. -/
abbrev Served := Except Reason (Part × ResultData)

/-- A check of an ordered list of checks: the reason when it fails. -/
def check (passes : Bool) (reason : Reason) : Except Reason Unit := if passes then .ok () else .error reason

/-- A value that a check looks up: the reason when there is none. -/
def need {α : Type} (o : Option α) (reason : Reason) : Except Reason α :=
  match o with
  | some x => .ok x
  | none => .error reason

/-- The reason when the counter is not TRADING: CLOSED_CLOSING is judged as CLOSED (R164), STARTING as R93 gives. -/
def Part.checkTrading (p : Part) : Except Reason Unit :=
  match p.tt.counter with
  | .trading => .ok ()
  | .paused => .error .paused
  | .starting => .error .busy
  | .closed => .error .closed
  | .closedClosing => .error .closed

end Sys2Proof.Machine
end

