-- ==== Sys2Proof/Machine/Weighing.lean ====
section
/-! DEFINITION. The weighing channels (chapter 1): from sample to sale weight, the weighing states, zero, tare, the
capture, and the part of the channel in link changes and calibration. -/

namespace Sys2Proof.Machine

/-! ## Derived values -/

/-- Largest less smallest of a list of values; 0 for no values. -/
def spread : List Int → Int
  | [] => 0
  | x :: xs => xs.foldl max x - xs.foldl min x

/-- Stability (R11): 8 filtered values whose spread is at most 5 × e1 fine units. -/
def Channel.stable (c : Channel) : Bool := c.stability.length == 8 && spread c.stability ≤ 5 * c.cal.e1

/-- Raw stability (R11, R184): 8 filtered raw counts whose spread is at most 64 counts. -/
def Channel.rawStable (c : Channel) : Bool := c.rawHistory.length == 8 && spread c.rawHistory ≤ 64

/-- Gross weight in fine units, absent when G is absent (R12). -/
def Channel.gross (c : Channel) : Option Int := c.filtered.map (fun g => g - c.zo)

/-- Net weight in fine units of a gross weight (R18). -/
def Channel.netOf (c : Channel) (gross : Int) : Int := gross - 10 * c.tare.value

/-- The division that applies to a net weight (R18). -/
def Channel.divisionOf (c : Channel) (net : Int) : Nat := if net ≤ 10 * c.cal.b then c.cal.e1 else c.cal.e2

/-- Sale weight in grams of a net weight (R18). -/
def Channel.saleWeightOf (c : Channel) (net : Int) : Int :=
  divRound net (10 * c.divisionOf net) * c.divisionOf net

/-- Overload limit in fine units of gross (R17). -/
def Channel.overloadLimit (c : Channel) : Int := c.cal.max * 10 + 9 * c.cal.e2 * 10

/-- Underload limit in fine units of gross (R17). -/
def Channel.underloadLimit (c : Channel) : Int := -(20 * c.cal.e1 * 10)

/-- Whether the gross is above the overload limit; it is not when there is no filtered value (R4). -/
def Channel.overloaded (c : Channel) : Bool :=
  match c.gross with
  | some g => c.overloadLimit < g
  | none => false

/-- Whether the gross is below the underload limit; it is not when there is no filtered value (R4). -/
def Channel.underloaded (c : Channel) : Bool :=
  match c.gross with
  | some g => g < c.underloadLimit
  | none => false

/-- The weighing state: the first entry of Table 9 whose condition holds (R4). -/
def Channel.state (c : Channel) (link : Link) : WeighState :=
  if link ≠ .present then .noLink
  else if c.session then .calibrating
  else if c.rail then .rail
  else if c.phase = .settling then .settling
  else if c.phase = .zeroPending then .zeroPending
  else if c.overloaded then .overload
  else if c.underloaded then .underload
  else if !c.cal.calibrated then .uncalibrated
  else .ready

/-- Window length of a depth code (section 1.1). -/
def windowLength (depthCode : Nat) : Nat :=
  match depthCode with
  | 2 => 4
  | 3 => 8
  | 4 => 16
  | _ => 32

/-! ## Filter (R7 to R9) -/

/-- A filter restart (R9): the window, the histories and the filtered values go, and the rail mark is no. -/
def Channel.filterRestart (c : Channel) : Channel :=
  { c with window := [], filtered := none, filteredRaw := none, stability := [], rawHistory := [], rail := false }

/-- A rail sample (R7). -/
def Channel.railSample (c : Channel) : Channel := { c.filterRestart with rail := true }

/-- A raw sample at an ADC rail (R7). -/
def isRail (raw : Int) : Bool := raw == -8388608 || raw == 8388607

/-- A raw sample in fine units (R8). -/
def Channel.convert (c : Channel) (raw : Int) : Int := divRound ((raw - c.cal.zcal) * c.cal.lcal * 10) c.cal.scal

/-- Average of a list of values, rounded half away from zero (R9). -/
def average (l : List Int) : Int := divRound l.sum l.length

/-- A non-rail sample joins the window, and the filtered values join the histories (R7 to R9). -/
def Channel.filter (c : Channel) (raw : Int) : Channel :=
  let window := newest (windowLength c.config.depthCode) (c.window ++ [⟨raw, c.convert raw⟩])
  let g := average (window.map Sample.fine)
  let r := average (window.map Sample.raw)
  { c with
    window := window
    filtered := some g
    filteredRaw := some r
    stability := newest 8 (c.stability ++ [g])
    rawHistory := newest 8 (c.rawHistory ++ [r])
    rail := false }

/-! ## Power-up zero, tracking and interlock release on each new filtered value -/

/-- Power-up zero (R13): the first filtered value that finds a SETTLING station stable decides it. -/
def Channel.powerUpZero (c : Channel) (now : Nat) : Channel :=
  match c.filtered with
  | none => c
  | some g =>
    if c.phase = .settling && c.stable then
      if inBand 10 c.cal.max g then { c with phase := .zeroed, zpu := some g, zo := g, lastZeroChange := some now }
      else { c with phase := .zeroPending }
    else c

/-- Whether the last zero change is at least 1 s in the past (R16). -/
def Channel.trackingRested (c : Channel) (now : Nat) : Bool :=
  match c.lastZeroChange with
  | some t => t + Config.trackingMs ≤ now
  | none => false

/-- Whether automatic zero tracking acts on a gross weight (R16). The link is PRESENT while samples are taken. -/
def Channel.tracks (c : Channel) (gross : Int) (now : Nat) : Bool :=
  c.phase = .zeroed && (c.state .present = .ready || c.state .present = .uncalibrated) && c.stable
    && c.tare.kind = .none && gross != 0 && 4 * gross.natAbs ≤ 10 * c.cal.e1 && c.trackingRested now

/-- Automatic zero tracking (R16). -/
def Channel.track (c : Channel) (now : Nat) : Channel :=
  match c.filtered, c.zpu with
  | some g, some zpu =>
    if c.tracks (g - c.zo) now && inBand 2 c.cal.max (g - zpu) then { c with zo := g, lastZeroChange := some now } else c
  | _, _ => c

/-- Interlock release and auto-clear (R28): the gross is below the minimum-sale weight of 20 e1. UNDERLOAD is below it too, and
R17 says that tare, interlock and auto-clear pending keep their values while a limit applies; the release is made there at once,
as R28 makes it on each filtered value, and the limit itself is read as changing none of them (DEDUCED, log entry 59). -/
def Channel.release (c : Channel) : Channel :=
  match c.gross with
  | none => c
  | some g =>
    if g < 200 * c.cal.e1 then
      { c with
        interlock := .released
        autoClearPending := false
        tare := if c.autoClearPending && c.config.tareAutoClear then ⟨.none, 0⟩ else c.tare }
    else c

/-- One sample of a valid reply (R6): R7, or R8 to R11, then R13, R16 and R28. -/
def Channel.takeSample (now : Nat) (c : Channel) (raw : Int) : Channel :=
  if isRail raw then c.railSample else (((c.filter raw).powerUpZero now).track now).release

/-! ## Link, calibration session and configuration -/

/-- The reset contents of a channel, with its copies kept (R2, R23, R25). -/
def Channel.restart (c : Channel) : Channel := Channel.initial c.cal c.config

/-- The calibration restart with a new record (R31). -/
def Channel.calRestart (c : Channel) (new : CalRecord) : Channel :=
  { c.filterRestart with
    cal := new, zo := 0, zpu := none, lastZeroChange := none, phase := .settling, tare := ⟨.none, 0⟩,
    autoClearPending := false, session := false }

/-- A completed SET STATION (R1, R10, R25): a changed depth code makes a filter restart, and a station that is disabled
returns to its reset contents. -/
def Channel.configure (c : Channel) (new : StationConfig) : Channel :=
  let d := if c.config.depthCode = new.depthCode then { c with config := new } else { c.filterRestart with config := new }
  if c.config.enabled && !new.enabled then d.restart else d

/-! ## Selection report (R20) -/

/-- A report of AT: a selection with its preset tare, or the loss of the selection. -/
inductive SelectionReport where
  | chosen (presetTare : Option Nat)
  | lost
deriving DecidableEq, Repr

/-- The tare after a PRESET tare has been removed (R20). -/
def Tare.withoutPreset (t : Tare) : Tare := if t.kind = .preset then ⟨.none, 0⟩ else t

/-- The preset tare of a report, if it is greater than 0, at most Max, and no tare is present (R20). -/
def Channel.presetFor (c : Channel) (t : Tare) (preset : Option Nat) : Tare :=
  match preset with
  | some v => if t.kind = .none && 0 < v && v ≤ c.cal.max then ⟨.preset, v⟩ else t
  | none => t

/-- What a selection report does to the tare (R20). -/
def Channel.report (c : Channel) : SelectionReport → Channel
  | .chosen preset => { c with tare := c.presetFor c.tare.withoutPreset preset }
  | .lost => { c with tare := c.tare.withoutPreset }

/-! ## Capture (R26, R27) -/

/-- What a passing capture test offers (R26). -/
structure Capture where
  grams : Nat
  division : Nat
  tare : Tare
deriving DecidableEq, Repr

/-- The reason of a capture test in a weighing state (R26). -/
def captureReason : WeighState → Option Reason
  | .ready => none
  | .noLink => some .stationStale
  | .calibrating => some .calibrating
  | .rail => some .rail
  | .settling => some .motion
  | .zeroPending => some .zeroPending
  | .overload => some .overload
  | .underload => some .underload
  | .uncalibrated => some .uncalibrated

/-- The capture test (R26): it answers with a sale weight or a reason and changes nothing. -/
def Channel.captureTest (c : Channel) (link : Link) : Except Reason Capture :=
  match captureReason (c.state link), c.gross with
  | some r, _ => .error r
  | none, none => .error .motion
  | none, some g =>
    let net := c.netOf g
    let w := c.saleWeightOf net
    if !c.stable then .error .motion
    else if net < 200 * c.cal.e1 then .error .underMin
    else if c.cal.max < w then .error .overload
    else if c.interlock = .set then .error .notCleared
    else .ok ⟨w.toNat, c.divisionOf net, c.tare⟩

/-- The capture confirmation (R27). -/
def Channel.confirmCapture (c : Channel) : Channel := { c with interlock := .set, autoClearPending := true }

/-! ## Display (R29) -/

/-- The weight field: the first entry of Table 11 that applies. -/
def Channel.weightField (c : Channel) (link : Link) : WeightField :=
  match c.state link, c.gross with
  | .noLink, _ => .dashes
  | .calibrating, _ => .dashes
  | .rail, _ => .dashes
  | .settling, _ => .dashes
  | _, none => .dashes
  | _, some g =>
    if c.overloadLimit < g then .ol
    else if g < c.underloadLimit then .ul
    else .grams (c.saleWeightOf (c.netOf g))

/-- Whether the weight field carries a weight. -/
def WeightField.carriesWeight : WeightField → Bool
  | .grams _ => true
  | _ => false

/-- The net mark (R29). -/
def Channel.netMark (c : Channel) (link : Link) : Bool := (c.weightField link).carriesWeight && c.tare.kind ≠ .none

/-- The zero mark (R29). -/
def Channel.zeroMark (c : Channel) (link : Link) : Bool :=
  (c.weightField link).carriesWeight && c.tare.kind = .none
    && match c.gross with
      | some g => 4 * g.natAbs ≤ 10 * c.cal.e1
      | none => false

/-- The weighing fields of READ STATION (R29). -/
def Channel.weighReport (c : Channel) (link : Link) : WeighReport :=
  { state := c.state link
    stable := c.stable
    gross := c.gross
    net := c.gross.map c.netOf
    saleWeight := c.gross.map (fun g => c.saleWeightOf (c.netOf g))
    division := c.gross.map (fun g => c.divisionOf (c.netOf g))
    tare := c.tare
    phase := c.phase
    zo := c.zo
    zpu := c.zpu
    interlock := c.interlock
    autoClearPending := c.autoClearPending
    cal := c.cal }

/-! ## The channels of the part -/

/-- The link state of a station (R196). -/
def Part.link (p : Part) (st : StationNo) : Link := (p.ml.stations.get st).link

/-- The channel of a station changed. -/
def Part.onChannel (p : Part) (st : StationNo) (f : Channel → Channel) : Part :=
  { p with wc := p.wc.set st (f (p.wc.get st)) }

/-- What ML keeps for a station changed. -/
def Part.onLink (p : Part) (st : StationNo) (f : StationLink → StationLink) : Part :=
  { p with ml := { p.ml with stations := p.ml.stations.set st (f (p.ml.stations.get st)) } }

/-! ## Key requests of WC -/

/-- The common checks of ZERO, in their order (R14, R15): CALIBRATING, RAIL, MOTION, TARE_SET. A station in SETTLING has
produced no stable reading. -/
def Channel.zeroChecks (c : Channel) : Except Reason Int :=
  if c.session then .error .calibrating
  else if c.rail then .error .rail
  else if !c.stable || c.phase = .settling then .error .motion
  else if c.tare.kind ≠ .none then .error .tareSet
  else need c.filtered .motion

/-- The channel after a ZERO that passed the common checks with the filtered value `g`: the band is that of R14 around
Zpu in ZEROED and that of R15 around the calibration zero in ZERO_PENDING. -/
def Channel.zeroAt (c : Channel) (g : Int) (now : Nat) : Except Reason Channel :=
  match c.phase, c.zpu with
  | .zeroed, some zpu =>
    if inBand 2 c.cal.max (g - zpu) then .ok { c with zo := g, lastZeroChange := some now } else .error .zeroRange
  | _, _ =>
    if inBand 10 c.cal.max g then
      .ok { c with zpu := some g, zo := g, phase := .zeroed, lastZeroChange := some now }
    else .error .zeroRange

/-- ZERO at a channel (R14, R15). -/
def Channel.keyZero (c : Channel) (now : Nat) : Except Reason Channel :=
  match c.zeroChecks with
  | .error r => .error r
  | .ok g => c.zeroAt g now

/-- The reason of TARE in a weighing state (R19). -/
def tareReason : WeighState → Option Reason
  | .calibrating => some .calibrating
  | .rail => some .rail
  | .zeroPending => some .zeroPending
  | .overload => some .overload
  | .underload => some .underload
  | _ => none

/-- TARE at a channel (R19). -/
def Channel.keyTare (c : Channel) (link : Link) : Except Reason Channel :=
  match tareReason (c.state link), c.gross with
  | some r, _ => .error r
  | none, none => .error .motion
  | none, some g =>
    let t := divRound g (10 * c.cal.e1) * c.cal.e1
    if !c.stable || c.phase = .settling then .error .motion
    else if c.tare.kind ≠ .none then .error .tareSet
    else if t < c.cal.e1 || c.cal.max < t then .error .range
    else .ok { c with tare := ⟨.weighed, t.toNat⟩ }

/-- CLEAR TARE at a channel (R21). -/
def Channel.keyClearTare (c : Channel) : Except Reason Channel :=
  if c.session then .error .calibrating else .ok { c with tare := ⟨.none, 0⟩ }

/-- A key request served by the channel of its station. -/
def Part.onKeyChannel (p : Part) (st : StationNo) (r : Except Reason Channel) : Served :=
  match r with
  | .error e => .error e
  | .ok c => .ok (p.onChannel st (fun _ => c), .nothing)

/-- ZERO at a station. -/
def keyZero (st : StationNo) (p : Part) : Served := p.onKeyChannel st ((p.wc.get st).keyZero p.now)

/-- TARE at a station. -/
def keyTare (st : StationNo) (p : Part) : Served := p.onKeyChannel st ((p.wc.get st).keyTare (p.link st))

/-- CLEAR TARE at a station. -/
def keyClearTare (st : StationNo) (p : Part) : Served := p.onKeyChannel st (p.wc.get st).keyClearTare

end Sys2Proof.Machine
end

