-- ==== Sys2Proof/Machine/Articles.lean ====
section
/-! DEFINITION. Articles, the selection at a station, the price of a line and the price override (chapter 2). -/

namespace Sys2Proof.Machine

/-- The number of an article of the table, if it is there (R32). -/
def Part.article (p : Part) (n : Nat) : Option Article := lookup Article.number n p.art.table

/-- The selection record of a station changed. -/
def Part.onSelection (p : Part) (st : StationNo) (f : Selection → Selection) : Part :=
  { p with art := { p.art with selections := p.art.selections.set st (f (p.art.selections.get st)) } }

/-- The selection report of R20 reaches the channel of the station. -/
def Part.reportSelection (p : Part) (st : StationNo) (r : SelectionReport) : Part :=
  p.onChannel st (fun c => c.report r)

/-! ## The record of a STAGE PUT (R33) -/

/-- The fields that R33 checks in a WEIGHED record only. -/
def weighedFieldsOk (f : ArticleFields) : Bool :=
  f.rounding.isSome && [1, 2, 5, 10].contains f.step && (f.presetTare.getD 0) ≤ 99999

/-- The record of a STAGE PUT after its field checks, or none when a check fails (R33). COUNTED and FIXED records take the
stored values of R33. The generation is set at the switch. -/
def articleOf (f : ArticleFields) : Option Article :=
  match f.kind with
  | none => none
  | some kind =>
    if within 1 99999 f.number && within 1 99999 f.unitPrice && within 1 16 f.department && validText 24 f.name
        && within 1 99 (f.shelfLife.getD 1) then
      match kind, f.rounding with
      | .weighed, some mode =>
        if weighedFieldsOk f then
          some ⟨f.number, .weighed, f.unitPrice, mode, f.step, f.presetTare, f.department, f.name, f.shelfLife, f.held, 0⟩
        else none
      | .weighed, none => none
      | k, _ => some ⟨f.number, k, f.unitPrice, .nearest, 1, none, f.department, f.name, f.shelfLife, f.held, 0⟩
    else none

/-! ## READ ARTICLE (R36) -/

/-- The record of the lowest article number above `n`. -/
def Part.articleAfter (p : Part) (n : Nat) : Option Article := p.art.table.find? (fun a => n < a.number)

/-- READ ARTICLE (R36). -/
def readArticle (number : Nat) (direction : Option Direction) (p : Part) : Answer :=
  let found (o : Option Article) : Answer :=
    match o with
    | some a => .done (.article a p.art.generation p.art.table.length)
    | none => .refuse .noSuch
  match direction with
  | none => .refuse .badValue
  | some .exact => if within 1 99999 number then found (p.article number) else .refuse .badValue
  | some .following => if number ≤ 99999 then found (p.articleAfter number) else .refuse .badValue

/-! ## Selection at a station (R38 to R41) -/

/-- Every effect of an accepted SELECT or REPEAT of an article (R38, R40). -/
def Part.choose (p : Part) (st : StationNo) (a : Article) : Part :=
  (p.onSelection st (fun s => { s with article := some a.number, quantity := 1, override := none })).reportSelection st
    (.chosen a.presetTare)

/-- The checks that SELECT and REPEAT share: the article is in the table and not held. -/
def Part.sellable (p : Part) (n : Nat) : Except Reason Article :=
  match p.article n with
  | none => .error .noSuch
  | some a => if a.held then .error .held else .ok a

/-- SELECT (R38). -/
def keySelect (st : StationNo) (n : Nat) (p : Part) : Served := do
  check (within 1 99999 n) .badValue
  let a ← p.sellable n
  return (p.choose st a, .nothing)

/-- QUANTITY (R39). -/
def keyQuantity (st : StationNo) (count : Nat) (p : Part) : Served := do
  let n ← need (p.art.selections.get st).article .noSelection
  check ((p.article n).map Article.kind = some .counted) .wrongState
  check (within 1 99 count) .badValue
  return (p.onSelection st (fun s => { s with quantity := count }), .nothing)

/-- REPEAT (R40). -/
def keyRepeat (st : StationNo) (p : Part) : Served := do
  let n ← need (p.art.selections.get st).repeatEntry .noSuch
  let a ← p.sellable n
  return (p.choose st a, .nothing)

/-- PRICE OVERRIDE by the supervisor at the top of the stack (R46). -/
def keyPriceOverride (st : StationNo) (price supervisor : Nat) (p : Part) : Served := do
  let _ ← need (p.art.selections.get st).article .noSelection
  check (within 1 Config.maxPrice price) .badValue
  return (p.onSelection st (fun s => { s with override := some ⟨price, supervisor⟩ }), .nothing)

/-- The end of a sign-on at a station: AT clears the selection record and reports the loss (R41). -/
def Part.clearSelection (p : Part) (st : StationNo) : Part :=
  (p.onSelection st (fun _ => .initial)).reportSelection st .lost

/-! ## The price of a line (R42 to R47) -/

/-- The list price of an article for a weight in grams and a station quantity, before its limits (R43, R45). -/
def Article.listPrice (a : Article) (grams quantity : Nat) : Nat :=
  match a.kind with
  | .weighed => weighedPrice a.rounding grams a.unitPrice a.step
  | .counted => quantity * a.unitPrice
  | .fixed => a.unitPrice

/-- The line price of a list price under the station's override, with the supervisor of an overridden line; the first
failing limit of R44, R45 and R47 gives LIMIT. -/
def linePriceOf (list : Nat) (override : Option PriceOverride) : Except Reason (Nat × Option Nat) :=
  if within 1 Config.maxPrice list then
    match override with
    | none => .ok (list, none)
    | some o => if o.price ≤ list then .ok (o.price, some o.supervisor) else .error .limit
  else .error .limit

/-- AT after a line of an article has been committed at a station: the quantity returns to 1, an override is consumed
and the repeat entry is set (R40, R42, R47). -/
def Part.consumeSelection (p : Part) (st : StationNo) (article : Nat) : Part :=
  p.onSelection st (fun s => { s with quantity := 1, override := none, repeatEntry := some article })

/-! ## The selection part of the display record (R48) -/

/-- The price preview: the first entry of Table 18 that applies. -/
def previewOf (a : Article) (sel : Selection) (weight : WeightField) : Preview :=
  let priced (list : Nat) : Preview :=
    if !within 1 Config.maxPrice list then .limit
    else
      match sel.override with
      | some o => if o.price ≤ list then .price o.price else .price list
      | none => .price list
  match a.kind, weight with
  | .weighed, .grams w => if w ≤ 0 then .blank else priced (a.listPrice w.toNat sel.quantity)
  | .weighed, _ => .blank
  | _, _ => priced (a.listPrice 0 sel.quantity)

/-- The selected article of a station as the table holds it. -/
def Part.selected (p : Part) (st : StationNo) : Option Article := (p.art.selections.get st).article.bind p.article

end Sys2Proof.Machine
end

