-- ==== Sys2Proof/Machine/Tickets.lean ====
section
/-! DEFINITION. Service tickets and the call display (chapter 6). -/

namespace Sys2Proof.Machine

/-! ## Numbers (R115) -/

/-- The numbers of the live tickets: WAITING, CALLED, MISSED and SERVING. -/
def TicketController.live (t : TicketController) : List Nat :=
  t.waiting.map Ticket.number ++ t.called.toList.filterMap (fun c => c.map (fun x => x.ticket.number))
    ++ t.missed.map (fun m => m.ticket.number) ++ t.serving.map (fun x => x.ticket.number)

/-- The ticket number after `n`: 99 is followed by 1. -/
def ticketAfter (n : Nat) : Nat := if n < 99 then n + 1 else 1

/-- The first number after `n` that no live ticket holds, tried at most `fuel` times (R115). -/
def freeTicket (live : List Nat) : Nat → Nat → Nat
  | 0, n => ticketAfter n
  | fuel + 1, n => if live.contains (ticketAfter n) then freeTicket live fuel (ticketAfter n) else ticketAfter n

/-! ## Call list and figures (R123 to R125) -/

/-- The call list is handed to ML, one message for each change (R124, R200). -/
def Part.handCallList (p : Part) : Part := { p with ml := { p.ml with display := p.ml.display ++ [p.tc.callList] } }

/-- A call is put at the front of the call list, which holds each ticket once and at most 4 calls (R123), and the list
is handed to ML (R124). -/
def Part.addCall (p : Part) (ticket : Nat) (st : StationNo) : Part :=
  Part.handCallList { p with tc := { p.tc with
    callList := (⟨ticket, st⟩ :: p.tc.callList.filter (fun c => c.ticket != ticket)).take Config.maxCalls } }

/-- The ticket figures changed. -/
def Part.onFigures (p : Part) (f : TicketFigures → TicketFigures) : Part :=
  { p with tc := { p.tc with figures := f p.tc.figures } }

/-- The expired figure rises by `n` (R118). -/
def TicketFigures.expire (f : TicketFigures) (n : Nat) : TicketFigures :=
  { f with expired := saturate Config.max16 f.expired n }

/-! ## TAKE (R114) -/

/-- A ticket is issued to a dispenser (R114). -/
def Part.issue (p : Part) (d : DispenserNo) : Part × TakeAnswer :=
  let n := freeTicket p.tc.live 99 p.tc.lastIssued
  ({ p with tc := { p.tc with
       waiting := p.tc.waiting ++ [⟨n, d, p.time.clock⟩]
       lastIssued := n
       figures := { p.tc.figures with issued := saturate Config.max16 p.tc.figures.issued 1 } } },
   .issued n p.time.clock p.tc.waiting.length)

/-- A TAKE that is no retransmission is served according to the counter state (R114). -/
def Part.serveTake (p : Part) (d : DispenserNo) : Part × TakeAnswer :=
  match p.tt.counter with
  | .starting => (p, .closed)
  | .closed => (p, .closed)
  | .closedClosing => (p, .closed)
  | _ =>
    if Config.maxWaiting ≤ p.tc.waiting.length then (p.latch .ticketsFull (some (.dispenser d)), .full) else p.issue d

/-- The tag of a TAKE and its answer are kept for a retransmission (R199). -/
def Part.keepTake (p : Part) (d : DispenserNo) (tag : Nat) (a : TakeAnswer) : Part :=
  { p with ml := { p.ml with takes := p.ml.takes.set d (some ⟨tag, a⟩) } }

/-- A TAKE with its take tag: a retransmission is answered again from the kept answer and touches nothing (R199). -/
def Part.take (p : Part) (d : DispenserNo) (tag : Nat) : Part :=
  if (p.ml.takes.get d).map KeptTake.tag = some tag then p
  else (p.serveTake d).1.keepTake d tag (p.serveTake d).2

/-! ## NEXT, RECALL and the missed list (R116 to R118) -/

/-- The missed list with a ticket joined at its newest end; a full list first loses its oldest ticket (R116). -/
def joinMissed (missed : List MissedTicket) (t : MissedTicket) : List MissedTicket :=
  missed.drop (missed.length + 1 - Config.maxMissed) ++ [t]

/-- The CALLED ticket of a station, if there is one, becomes MISSED (step 1 of R116). -/
def Part.missCalled (p : Part) (st : StationNo) : Part :=
  match p.tc.called.get st with
  | none => p
  | some c =>
    { p with tc := { p.tc with
        called := p.tc.called.set st none
        missed := joinMissed p.tc.missed ⟨c.ticket, c.callTime, p.now⟩
        figures := p.tc.figures.expire (p.tc.missed.length + 1 - Config.maxMissed) } }

/-- A ticket becomes CALLED at a station now (R116, R117). -/
def Part.callTicket (p : Part) (st : StationNo) (t : Ticket) : Part :=
  Part.addCall { p with tc := { p.tc with called := p.tc.called.set st (some ⟨t, p.time.clock⟩) } } t.number st

/-- NEXT (R116). -/
def keyNext (st : StationNo) (p : Part) : Served := do
  p.checkTrading
  check (p.om.active.get st).isNone .wrongState
  let t ← need p.tc.waiting.head? .ticketsEmpty
  return ((Part.missCalled { p with tc := { p.tc with waiting := p.tc.waiting.tail } } st).callTicket st t,
    { ResultData.nothing with ticket := some t.number })

/-- RECALL (R117). -/
def keyRecall (st : StationNo) (n : Nat) (p : Part) : Served := do
  p.checkTrading
  check (p.om.active.get st).isNone .wrongState
  check (within 1 99 n) .badValue
  let m ← need (p.tc.missed.find? (fun m => m.ticket.number == n)) .noSuch
  return ((Part.missCalled { p with tc := { p.tc with
      missed := removeFirst (fun m => m.ticket.number == n) p.tc.missed } } st).callTicket st m.ticket,
    { ResultData.nothing with ticket := some n })

/-- The expiry of a MISSED ticket (R118), at the mark 600 s after its miss. -/
def Part.expireMissed (p : Part) (n : Nat) : Part :=
  match p.tc.missed.find? (fun m => m.ticket.number == n) with
  | none => p
  | some m =>
    let q := p.reach (m.missedAt + Config.missedMs)
    { q with tc := { q.tc with
        missed := removeFirst (fun m => m.ticket.number == n) q.tc.missed
        figures := q.tc.figures.expire 1 } }

/-! ## Binding and outcomes (R119 to R122) -/

/-- The number of the ticket CALLED at a station. -/
def Part.calledNumber (p : Part) (st : StationNo) : Option Nat := (p.tc.called.get st).map (fun c => c.ticket.number)

/-- At an open the station's CALLED ticket, if there is one, becomes SERVING and is bound to the order (R119). -/
def Part.bindTicket (p : Part) (st : StationNo) (order : Nat) : Part :=
  match p.tc.called.get st with
  | none => p
  | some c =>
    { p with tc := { p.tc with
        called := p.tc.called.set st none
        serving := p.tc.serving ++ [⟨c.ticket, c.callTime, st, order⟩] } }

/-- The wait of a ticket in whole seconds: from issue to latest call, 0 when the call lies before the issue, and at most
65,535 (R120). A call that lies before the issue because the clock went from 2099 to 2000 by itself gives 0 as well (log
entry 43). -/
def waitSeconds (issued called : DateTime) : Nat := min Config.max16 (called.seconds - issued.seconds)

/-- The SERVING ticket of a number. -/
def Part.servingTicket (p : Part) (n : Nat) : Option ServingTicket :=
  p.tc.serving.find? (fun t => t.ticket.number == n)

/-- The wait of an order's ticket as TC gives it for the CLOSE record (R107, R120). -/
def Part.waitOf (p : Part) (ticket : Option Nat) : Option Nat :=
  (ticket.bind p.servingTicket).map (fun t => waitSeconds t.ticket.issued t.callTime)

/-- The SERVING ticket of a number leaves TC. -/
def Part.dropServing (p : Part) (n : Nat) : Part :=
  { p with tc := { p.tc with serving := removeFirst (fun t => t.ticket.number == n) p.tc.serving } }

/-- The order's ticket, if it has one, leaves TC with outcome NO_SALE (R121). -/
def Part.endNoSale (p : Part) (ticket : Option Nat) : Part :=
  match ticket.bind p.servingTicket with
  | none => p
  | some t =>
    (p.dropServing t.ticket.number).onFigures (fun f => { f with noSale := saturate Config.max16 f.noSale 1 })

/-- The order's ticket, if it has one, leaves TC with outcome SERVED and its wait (R121). -/
def Part.endServed (p : Part) (ticket : Option Nat) : Part :=
  match ticket.bind p.servingTicket with
  | none => p
  | some t =>
    (p.dropServing t.ticket.number).onFigures (fun f =>
      { f with
        served := saturate Config.max16 f.served 1
        servedWithWait := saturate Config.max16 f.servedWithWait 1
        waitSum := saturate Config.max32 f.waitSum (waitSeconds t.ticket.issued t.callTime) })

/-- The tickets that a counter close abandons: WAITING, CALLED and MISSED (R122). -/
def TicketController.unbound (t : TicketController) : Nat :=
  t.waiting.length + (t.called.toList.filter Option.isSome).length + t.missed.length

/-- The counter enters CLOSED: every WAITING, CALLED and MISSED ticket leaves TC as ABANDONED, and the call list is
emptied and handed to ML (R122). -/
def Part.abandonTickets (p : Part) : Part :=
  Part.handCallList { p with tc := { p.tc with
    waiting := []
    called := .all none
    missed := []
    callList := []
    figures := { p.tc.figures with abandoned := saturate Config.max16 p.tc.figures.abandoned p.tc.unbound } } }

/-- A day close has been written at `time`: the figures are zeroed and the numbering restarts (R125). -/
def Part.restartTickets (p : Part) (time : Option DateTime) : Part :=
  { p with tc := { p.tc with figures := .zero, validFrom := time, lastIssued := 0 } }

/-! ## READ QUEUE (R126) -/

/-- The summary of READ QUEUE. The SERVING tickets stand in the order of their binding to orders (log entry 44). -/
def Part.queueReport (p : Part) : QueueReport :=
  { lastIssued := p.tc.lastIssued
    waiting := p.tc.waiting.length
    called := p.tc.called
    missed := p.tc.missed.map (fun m => (m.ticket.number, m.callTime, secondsLeft (m.missedAt + Config.missedMs) p.now))
    serving := p.tc.serving.map (fun t => (t.ticket.number, t.order, t.station))
    callList := p.tc.callList
    figures := p.tc.figures
    validFrom := p.tc.validFrom }

/-- READ QUEUE (R126). -/
def readQueue (part : Option QueuePart) (p : Part) : Answer :=
  match part with
  | none => .refuse .badValue
  | some .summary => .done (.queue p.queueReport)
  | some (.waiting start) =>
    if within 1 64 start then
      .done (.waitingTickets ((p.tc.waiting.drop (start - 1)).take 32) p.tc.waiting.length)
    else .refuse .badValue

end Sys2Proof.Machine
end

