-- ==== Sys2Proof/Machine/Labels.lean ====
section
/-! DEFINITION. Labels and printers (chapter 7). -/

namespace Sys2Proof.Machine

/-- The label unit changed. -/
def Part.onLabels (p : Part) (f : LabelUnit → LabelUnit) : Part := { p with lu := f p.lu }

/-- A printer's record changed. -/
def Part.onPrinter (p : Part) (pr : PrinterNo) (f : Printer → Printer) : Part :=
  { p with lu := { p.lu with printers := p.lu.printers.set pr (f (p.lu.printers.get pr)) } }

/-! ## Label numbers (R128) -/

/-- The number that a new label takes: the last taken plus 1, with 4,294,967,295 followed by 1 (R128). -/
def LabelUnit.nextLabel (l : LabelUnit) : Nat := if l.lastLabel < Config.max32 then l.lastLabel + 1 else 1

/-- The next label number is taken (R128). -/
def Part.takeLabel (p : Part) : Part := { p with lu := { p.lu with lastLabel := p.lu.nextLabel } }

/-! ## Label content (R129 to R131) -/

/-- The weight that a line's label carries: WEIGHED lines (Table 47). -/
def Measure.labelWeight : Measure → Option Nat
  | .weighed g _ => some g
  | _ => none

/-- The tare that a line's label carries: printed when above 0 (Table 47). -/
def Measure.labelTare : Measure → Option Nat
  | .weighed _ t => if 0 < t.value then some t.value else none
  | _ => none

/-- The quantity of a COUNTED or FIXED line. -/
def Measure.quantity? : Measure → Option Nat
  | .weighed _ _ => none
  | .counted q => some q
  | .fixed => some 1

/-- Whether a line is WEIGHED, so that its unit price is per kilogram. -/
def Measure.isWeighed : Measure → Bool
  | .weighed _ _ => true
  | _ => false

/-- The sell-by date: the label date plus the shelf life; blank without either (R129, R131). -/
def sellByDate (stamp : Option DateTime) (shelfLife : Option Nat) : Option Date :=
  match stamp, shelfLife with
  | some t, some days => some (t.date.plusDays days)
  | _, _ => none

/-- The content of an ITEM or REPRINT label of a line (Table 47): the name and shelf life are those of the article
record handed over, absent when there is none. -/
def lineContent (kind : LabelKind) (label itemPrefix order owner : Nat) (f : LineFields) (a : Option Article) :
    LabelContent :=
  { kind := kind
    label := label
    stamp := f.time
    articleName := a.map Article.name
    article := some f.article
    weight := f.measure.labelWeight
    tare := f.measure.labelTare
    quantity := f.measure.quantity?
    unitPrice := some f.unitPrice
    perKilogram := f.measure.isWeighed
    linePrice := some f.linePrice
    wasPrice := if f.overriddenBy.isSome then some f.listPrice else none
    sellBy := sellByDate f.time (a.bind Article.shelfLife)
    order := order
    lineIndex := some f.index
    lineCount := none
    total := none
    ticket := none
    clerk := owner
    station := f.station
    code := itemCode itemPrefix f.article f.linePrice }

/-- The content of a TOTAL label at the acceptance of the sale close: its total, count, time and code are not yet fixed
(R130). -/
def totalDraft (label order owner : Nat) (ticket : Option Nat) (st : StationNo) : LabelContent :=
  { kind := .total, label := label, stamp := none, articleName := none, article := none, weight := none, tare := none,
    quantity := none, unitPrice := none, perKilogram := false, linePrice := none, wasPrice := none, sellBy := none,
    order := order, lineIndex := none, lineCount := none, total := none, ticket := ticket, clerk := owner, station := st,
    code := [] }

/-- The content of a TOTAL label completed when its CLOSE record is formed (R130). -/
def LabelContent.complete (c : LabelContent) (stamp : Option DateTime) (totalPrefix lineCount total : Nat) :
    LabelContent :=
  { c with stamp := stamp, lineCount := some lineCount, total := some total, code := totalCode totalPrefix c.order total }

/-! ## The print queue (R132 to R134) -/

/-- Whether the print queue has room for one more job (R132). -/
def Part.printRoom (p : Part) : Bool := p.lu.queue.length < Config.maxJobs

/-- A HELD job joins the tail of the queue; at 24 jobs or more PRINT_QUEUE_HIGH is latched (R132). -/
def Part.addJob (p : Part) (kind : LabelKind) (label : Nat) (target : PrinterNo) (content : LabelContent) : Part :=
  let q := p.onLabels (fun l => { l with queue := l.queue ++ [⟨kind, label, target, false, false, content⟩] })
  if Config.highJobs ≤ q.lu.queue.length then q.latch .printQueueHigh (some (.printQueue q.lu.queue.length target)) else q

/-- A HELD job of a kind and label number. -/
def Job.isHeld (kind : LabelKind) (label : Nat) (j : Job) : Bool :=
  j.kind = kind && j.label == label && !j.released

/-- The oldest HELD job of a kind and label number becomes RELEASED; when there is none, nothing is released (R133). -/
def Part.releaseJob (p : Part) (kind : LabelKind) (label : Nat) : Part :=
  p.onLabels (fun l => { l with
    queue := changeFirst (Job.isHeld kind label) (fun j => { j with released := true }) l.queue })

/-- The oldest HELD job of a kind and label number leaves the queue (R134). -/
def Part.deleteJob (p : Part) (kind : LabelKind) (label : Nat) : Part :=
  p.onLabels (fun l => { l with queue := removeFirst (Job.isHeld kind label) l.queue })

/-- The HELD TOTAL job of a label number is completed; when CANCEL JOBS has removed it, nothing is composed (R130). -/
def Part.completeTotal (p : Part) (label lineCount total : Nat) : Part :=
  p.onLabels (fun l => { l with
    queue := changeFirst (Job.isHeld .total label)
      (fun j => { j with content := j.content.complete p.stamp p.art.totalPrefix lineCount total }) l.queue })

/-! ## Sending (R135, R136) -/

/-- The next job of a printer: the oldest that targets it and is not at a printer (R135). -/
def LabelUnit.nextJob (l : LabelUnit) (pr : PrinterNo) : Option Job :=
  l.queue.find? (fun j => j.target = pr && !j.atPrinter)

/-- STATUS is sent to a printer with no message waiting for its reply (R136). -/
def Part.sendStatus (p : Part) (pr : PrinterNo) : Part :=
  if (p.lu.printers.get pr).waiting.isSome then p
  else p.onPrinter pr (fun r => { r with waiting := some ⟨.status, p.now⟩, lastStatus := some p.now })

/-- The next job of a printer is sent: the printer is READY, no message waits for its reply and the job is RELEASED. The
job is at the printer and the printer PRINTING at once (R135, R137). -/
def Part.sendLabel (p : Part) (pr : PrinterNo) : Part :=
  match p.lu.nextJob pr with
  | none => p
  | some j =>
    if (p.lu.printers.get pr).state = .ready && (p.lu.printers.get pr).waiting.isNone && j.released then
      (p.onLabels (fun l => { l with
        queue := changeFirst (fun j => j.target = pr && !j.atPrinter) (fun j => { j with atPrinter := true }) l.queue
        })).onPrinter pr (fun r => { r with state := .printing, waiting := some ⟨.label j.content, p.now⟩ })
    else p

/-- A message without a valid reply for 250 ms is given up (R136). -/
def Part.giveUp (p : Part) (pr : PrinterNo) : Part :=
  match (p.lu.printers.get pr).waiting with
  | none => p
  | some m => (p.reach (m.sentAt + Config.printerMessageMs)).onPrinter pr (fun r => { r with waiting := none })

/-! ## Printer replies (R137 to R139) -/

/-- The job at a printer returns to its place in the queue, RELEASED (R138). -/
def returnJob (pr : PrinterNo) (queue : List Job) : List Job :=
  changeFirst (fun j => j.target = pr && j.atPrinter) (fun j => { j with atPrinter := false }) queue

/-- The job at a printer. -/
def LabelUnit.jobAt (l : LabelUnit) (pr : PrinterNo) : Option Job := l.queue.find? (fun j => j.target = pr && j.atPrinter)

/-- The queue after DONE n (Table 50): the job at the printer leaves as printed when its number is n; otherwise it
returns, and the oldest job of number n that targets the printer and is not at a printer leaves. -/
def settleDone (l : LabelUnit) (pr : PrinterNo) (n : Nat) : List Job :=
  if (l.jobAt pr).map Job.label = some n then removeFirst (fun j => j.target = pr && j.atPrinter) l.queue
  else
    -- the job that returns has another number, so it is not the one removed
    returnJob pr (removeFirst (fun j => j.label == n && j.target = pr && !j.atPrinter) l.queue)

/-- The queue after a valid reply with a status (Table 50). -/
def settleJobs (l : LabelUnit) (pr : PrinterNo) : PrinterStatus → List Job
  | .busy => l.queue
  | .done n => settleDone l pr n
  | .idle => returnJob pr l.queue
  | .stockOut => returnJob pr l.queue
  | .coverOpen => returnJob pr l.queue

/-- The state that a status gives (Table 50). -/
def stateOfStatus : PrinterStatus → PrinterState
  | .busy => .printing
  | .done _ => .ready
  | .idle => .ready
  | .stockOut => .outOfStock
  | .coverOpen => .headOpen

/-- The states whose entry from another state latches PRINTER_ATTENTION (R139). -/
def PrinterState.needsAttention : PrinterState → Bool
  | .outOfStock => true
  | .headOpen => true
  | .offline => true
  | _ => false

/-- A printer enters a state; PRINTER_ATTENTION is latched as R139 gives. -/
def Part.enterPrinterState (p : Part) (pr : PrinterNo) (new : PrinterState) : Part :=
  let q := p.onPrinter pr (fun r => { r with state := new })
  if new.needsAttention && (p.lu.printers.get pr).state ≠ new then
    q.latch .printerAttention (some (.printer pr new))
  else q

/-- A valid reply from a printer (R137). It ends the wait of the message that waits now, also when it answers one that
was given up before (log entry 45). -/
def Part.printerReply (p : Part) (pr : PrinterNo) (status : PrinterStatus) : Part :=
  ((p.onLabels (fun l => { l with queue := settleJobs l pr status })).onPrinter pr (fun r =>
    { r with waiting := none, lastReply := some p.now })).enterPrinterState pr (stateOfStatus status)

/-- 2 s without a valid reply: the printer becomes OFFLINE and its job returns (R136, R138). -/
def Part.printerOffline (p : Part) (pr : PrinterNo) : Part :=
  match (p.lu.printers.get pr).state, (p.lu.printers.get pr).lastReply with
  | .offline, _ => p
  | _, none => p
  | _, some t =>
    ((p.reach (t + Config.printerOfflineMs)).onLabels (fun l => { l with
      queue := returnJob pr l.queue })).enterPrinterState pr .offline

/-! ## Host requests (R140 to R142) -/

/-- A job that a request naming a printer reaches: it targets the printer and is not at it. -/
def Job.movable (pr : PrinterNo) (j : Job) : Bool := j.target = pr && !j.atPrinter

/-- MOVE JOBS (R140). -/
def serveMoveJobs (source target : Nat) (p : Part) : Part × Answer :=
  match PrinterNo.ofNumber source, PrinterNo.ofNumber target with
  | some a, some b =>
    if a = b then (p, .refuse .badValue)
    else
      (p.onLabels (fun l => { l with queue := l.queue.map (fun j => if j.movable a then { j with target := b } else j) }),
       .done (.moved (p.lu.queue.filter (Job.movable a)).length))
  | _, _ => (p, .refuse .badValue)

/-- CANCEL JOBS (R141). -/
def serveCancelJobs (printer : Nat) (p : Part) : Part × Answer :=
  match PrinterNo.ofNumber printer with
  | none => (p, .refuse .badValue)
  | some pr =>
    let n := (p.lu.queue.filter (Job.movable pr)).length
    (p.onLabels (fun l => { l with
       queue := l.queue.filter (fun j => !j.movable pr)
       cancelled := saturate Config.max16 l.cancelled n }),
     .done (.cancelled n))

/-- One printer in the summary of READ PRINTERS. -/
def LabelUnit.printerReport (l : LabelUnit) (pr : PrinterNo) : PrinterReport :=
  let share := l.queue.filter (fun j => j.target = pr)
  { state := (l.printers.get pr).state
    job := (l.jobAt pr).map (fun j => (j.label, j.kind))
    held := (share.filter (fun j => !j.released)).length
    released := (share.filter (fun j => j.released)).length }

/-- One job in READ PRINTERS JOBS. -/
def Job.report (j : Job) : JobReport := ⟨j.kind, j.label, j.target, j.released, j.atPrinter⟩

/-- READ PRINTERS (R142). -/
def readPrinters (part : Option PrintersPart) (p : Part) : Answer :=
  match part with
  | none => .refuse .badValue
  | some .summary =>
    .done (.printers ⟨p.lu.printerReport .p1, p.lu.printerReport .p2, p.lu.printerReport .p3, p.lu.printerReport .p4⟩
      p.lu.queue.length p.lu.lastLabel p.lu.cancelled)
  | some (.jobs start) =>
    if within 1 32 start then
      .done (.jobs (((p.lu.queue.drop (start - 1)).take 16).map Job.report) p.lu.queue.length)
    else .refuse .badValue

end Sys2Proof.Machine
end

