-- ==== Sys2Proof/Machine/Journal.lean ====
section
/-! DEFINITION. The transaction journal (chapter 8): records and sectors, the write queue and its space, appends and
erases. -/

namespace Sys2Proof.Machine

/-! ## Records (R146, Table 53) -/

/-- Length of a CLOSE or VOID_ORDER record. -/
def closingLength : CloseKind → Nat
  | .sale => 40
  | .void => 32

/-- Length of a record in bytes (Table 53). -/
def Record.length : Record → Nat
  | .line _ _ _ => 56
  | .voidLine _ _ _ => 24
  | .close _ _ _ _ _ _ _ => closingLength .sale
  | .voidOrder _ _ _ _ => closingLength .void
  | .reprint _ _ _ => 24
  | .priceApply _ entries _ => 64 + 49 * entries.length
  | .priceStored _ => 24
  | .dayClose _ => 64

/-- The check of a record, over its kind, its length and its fields (R146). -/
def Record.check (r : Record) : BitVec 16 := crc16 (Config.recordContent r)

/-- A record as it is written: with its check. -/
def Stored.of (r : Record) : Stored := ⟨r, r.check⟩

/-- Whether the check of a record agrees when it is read. -/
def Stored.agrees (x : Stored) : Bool := x.check = x.record.check

/-- A record that was not written whole: its check is a free value that does not agree (log entry 10). -/
def Stored.cut (r : Record) (c : BitVec 16) : Stored := ⟨r, if c = r.check then ~~~c else c⟩

/-- Length of the record of a place: a held place counts as a closing record of full length (R148). -/
def Place.length : Place → Nat
  | .held _ kind => closingLength kind
  | .filled r => r.length

/-- ERASED sectors that must remain for a record of an ordinary kind (R148). -/
def ordinaryReserve : Nat := 2
/-- The same for a VOID_ORDER or PRICE_STORED record. -/
def sharedReserve : Nat := 1
/-- The same for a DAY_CLOSE record. -/
def closeReserve : Nat := 0

/-- The record of a DAY_CLOSE. -/
def Record.dayClose? : Record → Option DayClose
  | .dayClose d => some d
  | _ => none

/-- Whether a record is the PRICE_STORED of a generation. -/
def Record.stores (g : Nat) : Record → Bool
  | .priceStored h => g == h
  | _ => false

/-! ## Sectors (R145, R152) -/

/-- Whether a sector's header is IN_USE or SEALED. -/
def Sector.live (s : Sector) : Bool := s.mark = .inUse || s.mark = .sealed

/-- Whether the journal reads a sector: its header is IN_USE, SEALED or BAD, with a sequence number. -/
def Sector.readable (s : Sector) : Bool := (s.live || s.mark = .bad) && s.seq.isSome

/-- A sector with its index. -/
structure Indexed where
  index : Nat
  sector : Sector
deriving DecidableEq, Repr

/-- Sequence number of a sector that has one. -/
def Indexed.seq (s : Indexed) : Nat := s.sector.seq.getD 0

/-- The sectors with their indices. -/
def indexed (ss : List Sector) : List Indexed := ss.zipIdx.map (fun x => ⟨x.2, x.1⟩)

/-- A dead BAD sector: its sequence number lies below that of every sector whose header is IN_USE or SEALED, of which
there is one (R152, log entry 15). -/
def Sector.dead (ss : List Sector) (s : Sector) : Bool :=
  s.mark = .bad && ss.any Sector.live && (ss.filter Sector.live).all (fun t => s.seq.getD 0 < t.seq.getD 0)

/-- The sectors that the journal reads, in ascending sequence number, less the dead BAD ones (R158). The records of a BAD
sector leave READ JOURNAL at the moment it is dead, not at the next scan (log entry 47). -/
def journalSectors (ss : List Sector) : List Indexed :=
  ((indexed ss).filter (fun s => s.sector.readable && !s.sector.dead ss)).foldl
    (fun l s => insertByKey Indexed.seq s l) []

/-- The records of the journal, in journal order. -/
def journalRecords (ss : List Sector) : List Record := (journalSectors ss).flatMap (fun s => s.sector.journal)

/-- The latest DAY_CLOSE record, if there is one, and the records after it. -/
def sinceClose (rs : List Record) : Option DayClose × List Record :=
  rs.foldl (fun acc r =>
    match r.dayClose? with
    | some d => (some d, [])
    | none => (acc.1, acc.2 ++ [r])) (none, [])

/-- A sector of the part changed. -/
def Part.onSector (p : Part) (i : Nat) (f : Sector → Sector) : Part :=
  { p with nv := { p.nv with sectors := p.nv.sectors.modify i f } }

/-- Whether the sector of an index is ERASED; the writing sector is not, even before its first append (Table 52). -/
def Part.isErased (p : Part) (i : Nat) : Bool :=
  p.tj.writing ≠ some i && (p.nv.sectors[i]?).map Sector.mark = some .erased

/-- The number of ERASED sectors. -/
def Part.erasedCount (p : Part) : Nat := ((List.range Config.sectors).filter p.isErased).length

/-- The number of BAD sectors. -/
def Part.badCount (p : Part) : Nat := (p.nv.sectors.filter (fun s => s.mark = .bad)).length

/-- What is left of the writing sector's record area. -/
def Part.room (p : Part) : Nat :=
  match p.tj.writing with
  | none => 0
  | some i => Config.recordArea - ((((p.nv.sectors[i]?).map Sector.journal).getD []).map Record.length).sum

/-! ## Erasable sectors (R152) -/

/-- Whether every PRICE_APPLY of `own` is followed, in `own` or in `rest`, by a PRICE_STORED of its generation. -/
def allStored : List Record → List Record → Bool
  | [], _ => true
  | .priceApply g _ _ :: own, rest => (own ++ rest).any (Record.stores g) && allStored own rest
  | _ :: own, rest => allStored own rest

/-- The sequence number of the sector that holds the latest DAY_CLOSE. -/
def closeSeq (ss : List Sector) : Option Nat :=
  (((journalSectors ss).filter (fun s => s.sector.journal.any (fun r => r.dayClose?.isSome))).getLast?).map Indexed.seq

/-- Whether a sector is erasable (R152): it holds no records, or every record in it lies before the latest DAY_CLOSE and
every PRICE_APPLY in it has its PRICE_STORED. -/
def erasable (ss : List Sector) (s : Indexed) : Bool :=
  s.sector.records.isEmpty
    || ((closeSeq ss).any (fun c => s.seq < c)
        && allStored s.sector.journal
            (((journalSectors ss).filter (fun t => s.seq < t.seq)).flatMap (fun t => t.sector.journal)))

/-- The FULL sector with the lowest sequence number (R152). -/
def Part.lowestFull (p : Part) : Option Indexed :=
  (((indexed p.nv.sectors).filter (fun s => s.sector.live && p.tj.writing ≠ some s.index)).foldl
    (fun l s => insertByKey Indexed.seq s l) []).head?

/-- The erase candidate when it may be erased (R152): it is erasable, and so is every BAD sector with a lower sequence
number on its good records. -/
def Part.candidate (p : Part) : Option Nat :=
  match p.lowestFull with
  | none => none
  | some s =>
    if erasable p.nv.sectors s
        && (indexed p.nv.sectors).all (fun t =>
          !(t.sector.mark = .bad && t.seq < s.seq) || erasable p.nv.sectors t) then some s.index
    else none

/-- The first sector that carries the ERASE_BEGUN mark: its erase comes first (R160). -/
def Part.begun (p : Part) : Option Nat :=
  ((indexed p.nv.sectors).find? (fun s => s.sector.mark = .eraseBegun)).map Indexed.index

/-- The sector whose erase can begin: one with the ERASE_BEGUN mark, or the candidate while fewer than 4 sectors are
ERASED (R153, R160). -/
def Part.nextErase (p : Part) : Option Nat :=
  match p.begun with
  | some i => some i
  | none => if p.erasedCount < Config.keptErased then p.candidate else none

/-- JOURNAL_LOW is judged: fewer than 4 sectors are ERASED, no erase is in flight or suspended, and none can begin
(R156). -/
def Part.judgeErase (p : Part) : Part :=
  if p.erasedCount < Config.keptErased && p.tj.erase.isNone && p.nextErase.isNone then
    p.latch .journalLow (some (.erasedSectors p.erasedCount))
  else p

/-! ## The write queue (R147, R148) -/

/-- Whether the front place of the queue is filled. -/
def frontFilled : List Place → Bool
  | .filled _ :: _ => true
  | _ => false

/-- The record of the oldest filled place (R149). -/
def firstRecord : List Place → Option Record
  | [] => none
  | .held _ _ :: rest => firstRecord rest
  | .filled r :: _ => some r

/-- The queue without its oldest filled place. -/
def dropFirstRecord : List Place → List Place
  | [] => []
  | .held o k :: rest => .held o k :: dropFirstRecord rest
  | .filled _ :: rest => rest

/-- The records of the filled places, in queue order. -/
def filledRecords : List Place → List Record
  | [] => []
  | .held _ _ :: rest => filledRecords rest
  | .filled r :: rest => r :: filledRecords rest

/-- The queue with the held place of an order filled by its record. -/
def fillHeld (order : Nat) (r : Record) : List Place → List Place
  | [] => []
  | .held o k :: rest => if o = order then .filled r :: rest else .held o k :: fillHeld order r rest
  | .filled q :: rest => .filled q :: fillHeld order r rest

/-- The queue without the held place of an order. -/
def dropHeld (order : Nat) : List Place → List Place
  | [] => []
  | .held o k :: rest => if o = order then rest else .held o k :: dropHeld order rest
  | .filled q :: rest => .filled q :: dropHeld order rest

/-- The fresh sectors that a layout of records needs, from the room left in the present sector (R148). -/
def freshSectors : Nat → List Nat → Nat
  | _, [] => 0
  | room, len :: rest =>
    if len ≤ room then freshSectors (room - len) rest else freshSectors (Config.recordArea - len) rest + 1

/-- The lengths that the layout of R148 takes before a new record: the places in queue order, then the record waiting for
a place. -/
def Part.queuedLengths (p : Part) : List Nat :=
  p.tj.queue.map Place.length ++ (p.tj.waiting.map Record.length).toList

/-- Whether the journal has space for a record of a length, with the ERASED sectors that must remain for its kind
(R148). -/
def Part.hasSpace (p : Part) (length reserve : Nat) : Bool :=
  let n := freshSectors p.room (p.queuedLengths ++ [length])
  n == 0 || n + reserve ≤ p.erasedCount

/-- Whether a place is free with no record waiting (R147). -/
def Part.hasPlace (p : Part) : Bool := p.tj.waiting.isNone && p.tj.queue.length < Config.queuePlaces

/-- The checks of a request that queues a record, in their order (R147). -/
def Part.journalCheck (p : Part) (length reserve : Nat) : Except Reason Unit :=
  if p.tj.fault then .error .storeFault
  else if !p.hasSpace length reserve then .error .journalFull
  else if !p.hasPlace then .error .storeBusy
  else .ok ()

/-- The write queue changed. A filled place that arrives at its front suspends an erase in flight (R154). -/
def Part.withQueue (p : Part) (queue : List Place) (arrives : Bool) : Part :=
  { p with tj := { p.tj with
      queue := queue
      erase := if arrives && frontFilled queue then p.tj.erase.map (fun e => { e with suspended := true }) else p.tj.erase } }

/-- A place of the write queue is taken (R147). -/
def Part.takePlace (p : Part) (place : Place) : Part :=
  p.withQueue (p.tj.queue ++ [place]) (!frontFilled p.tj.queue)

/-- A record is placed in the write queue. -/
def Part.queueRecord (p : Part) (r : Record) : Part := p.takePlace (.filled r)

/-- The record waiting for a place takes the first place that frees (R147). -/
def Part.promote (p : Part) : Part :=
  match p.tj.waiting with
  | none => p
  | some r =>
    if p.tj.queue.length < Config.queuePlaces then
      Part.queueRecord { p with tj := { p.tj with waiting := none } } r
    else p

/-- A record takes a free place, or waits for the first that frees (R64, R71). -/
def Part.queueOrWait (p : Part) (r : Record) : Part :=
  if p.hasPlace then p.queueRecord r else { p with tj := { p.tj with waiting := some r } }

/-- The held place of an order takes its record (R107, R110). -/
def Part.fillPlace (p : Part) (order : Nat) (r : Record) : Part :=
  p.withQueue (fillHeld order r p.tj.queue) (!frontFilled p.tj.queue)

/-- The held place of an order is given back and becomes free (R147). -/
def Part.giveBack (p : Part) (order : Nat) : Part :=
  (p.withQueue (dropHeld order p.tj.queue) (!frontFilled p.tj.queue)).promote

/-! ## Appends (R145, R149) -/

/-- The indices 0..31 in the order in which the next sector to open is looked for (R145). -/
def openOrder (after : Nat) : List Nat := (List.range Config.sectors).map (fun k => (after + 1 + k) % Config.sectors)

/-- The sector that is opened next: the first ERASED one in index order, wrapping from 31 to 0 (R145, R160). -/
def Part.sectorToOpen (p : Part) : Option Nat := (openOrder p.tj.openAfter).find? p.isErased

/-- A sector is opened: it becomes WRITING with the next sequence number, and the one before it FULL (R145). The numbers
count on above 4,294,967,295 (log entry 46). -/
def Part.openSector (p : Part) (i : Nat) : Part :=
  Part.judgeErase { p with tj := { p.tj with
    writing := some i
    writingSeq := p.tj.nextSeq
    nextSeq := p.tj.nextSeq + 1
    openAfter := i } }

/-- The state of the append in flight. -/
def Part.withAppend (p : Part) (a : Option Append) : Part := { p with tj := { p.tj with append := a } }

/-- TJ begins to append the record of the oldest filled place, opening a sector when the record does not fit or there is
no writing sector (R149). Without an ERASED sector to open the append waits (log entry 16). -/
def Part.startAppend (p : Part) : Part :=
  if p.tj.fault || p.tj.append.isSome then p
  else
    match firstRecord p.tj.queue with
    | none => p
    | some r =>
      if r.length ≤ p.room then p.withAppend (some .first)
      else
        match p.sectorToOpen with
        | none => p
        | some i => (p.openSector i).withAppend (some .first)

/-- The record of the append in flight. -/
def Part.inFlight (p : Part) : Option Record := if p.tj.append.isSome then firstRecord p.tj.queue else none

/-- The record joins the writing sector with its check, whose header is then IN_USE (R145, R149). -/
def Part.storeRecord (p : Part) (r : Record) : Part :=
  match p.tj.writing with
  | none => p
  | some i =>
    p.onSector i (fun s =>
      { s with mark := .inUse, seq := some p.tj.writingSeq, records := s.records ++ [Stored.of r] })

/-- A retry that succeeded latches STORE_FAULT with the sector that was marked BAD (R150). -/
def Part.reportRetry (p : Part) : Part :=
  match p.tj.append with
  | some (.retry bad) => p.latchStore (.sectorBad bad)
  | _ => p

/-- The append in flight is written: the record is in the journal, its place is free, and the record waiting for a place
takes it (R149). On a retry STORE_FAULT is latched here, before what the owner of the record and the judgement of R156 latch in
the same step (DAY_CLOSED, APPLY_DONE, JOURNAL_LOW): R194 sends notices in the order in which they became pending, and no rule
gives the order within one step (DESIGN CHOICE, log entry 61). -/
def Part.finishAppend (p : Part) (r : Record) : Part :=
  let q := (p.storeRecord r).reportRetry
  ((q.withAppend none).withQueue (dropFirstRecord q.tj.queue) true).promote

/-! ## Erases (R153 to R155) -/

/-- The erase of a sector begins: its header takes the mark ERASE_BEGUN, and the sector is cleared (R153). -/
def Part.beginErase (p : Part) (i : Nat) : Part :=
  let q := p.onSector i (fun s => { s with mark := .eraseBegun, records := [], torn := none })
  { q with tj := { q.tj with erase := some ⟨i, false⟩ } }

/-- An erase begins when R153 holds, or when a sector carries the ERASE_BEGUN mark after a scan (R160). -/
def Part.startErase (p : Part) : Part :=
  if p.tt.counter = .starting || p.tj.fault || p.tj.erase.isSome then p
  else
    match p.nextErase with
    | none => p
    | some i => p.beginErase i

/-- A suspended erase resumes once no filled place remains in the write queue (R154). -/
def Part.resumeErase (p : Part) : Part :=
  if p.tj.fault || (firstRecord p.tj.queue).isSome then p
  else { p with tj := { p.tj with erase := p.tj.erase.map (fun e => { e with suspended := false }) } }

/-- The erase in flight ends: the sector is ERASED, or BAD with no good records (R153, R155). The BAD mark of a failed erase is
taken as written: it does not fail its own read-back (log entry 54). STORE_FAULT is latched before JOURNAL_LOW is judged (DESIGN
CHOICE, log entry 61). -/
def Part.endErase (p : Part) (i : Nat) (agrees : Bool) : Part :=
  let q := { p with tj := { p.tj with erase := none } }
  if agrees then (q.onSector i (fun _ => .blank)).judgeErase
  else
    Part.judgeErase ((q.onSector i (fun s => { s with mark := .bad, records := [], torn := none })).latchStore
      (.sectorBad i))

/-! ## READ JOURNAL (R157) -/

/-- What every reply of READ JOURNAL carries (R157). While the journal holds no DAY_CLOSE, the number of records since the
latest one is that of every record of the journal (log entry 56). -/
def Part.journalReport (p : Part) : JournalReport :=
  { day := p.tt.day
    recordsSinceClose := (sinceClose (journalRecords p.nv.sectors)).2.length
    erased := p.erasedCount
    bad := p.badCount
    fault := p.tj.fault
    erasing := p.tj.erase.isSome
    placesInUse := p.tj.queue.length }

/-- The record of an index counted from the latest DAY_CLOSE. -/
def Part.journalRecord (p : Part) (index : Nat) : Option Record :=
  match sinceClose (journalRecords p.nv.sectors), index with
  | (some d, _), 0 => some (.dayClose d)
  | (none, _), 0 => none
  | (_, rs), n + 1 => rs[n]?

/-- A record as READ JOURNAL shows it: up to 3 entries of a PRICE_APPLY from an entry position, and their number (R157). From a
position within 1..64 beyond its last entry it shows none, and the request is still DONE (log entry 52). -/
def Record.report (r : Record) (entry : Nat) : RecordReport :=
  match r with
  | .priceApply g entries t => ⟨.priceApply g ((entries.drop (entry - 1)).take 3) t, some entries.length⟩
  | _ => ⟨r, none⟩

/-- READ JOURNAL (R157). Without an entry position a PRICE_APPLY is shown from its first entry (log entry 17). A position
outside 1..64 is refused before the record is looked for, whatever its kind (log entry 48), and one beyond the entries of the
record is answered DONE (log entry 52). -/
def readJournal (index : Nat) (entry : Option Nat) (p : Part) : Answer :=
  if Config.max16 < index || !within 1 64 (entry.getD 1) then .now (.refusedJournal .badValue p.journalReport)
  else
    match p.journalRecord index with
    | none => .now (.refusedJournal .noSuch p.journalReport)
    | some r => .done (.journal (r.report (entry.getD 1)) p.journalReport)

end Sys2Proof.Machine
end

