-- ==== Sys2Proof/Machine/Totals.lean ====
section
/-! DEFINITION. The day accumulators, their rebuild from the journal, the digest of a day close, and the requests that read
them (chapter 9). -/

namespace Sys2Proof.Machine

/-! ## Accumulation (R173, R174) -/

/-- Weight that a line adds to a weight sum: a WEIGHED line. -/
def Measure.grams (m : Measure) : Nat := m.labelWeight.getD 0

/-- Quantity that a line adds to a quantity sum: a COUNTED or FIXED line. -/
def Measure.items (m : Measure) : Nat := m.quantity?.getD 0

/-- Article figures with a line added. -/
def ArticleFigures.add (a : ArticleFigures) (f : LineFields) : ArticleFigures :=
  ⟨a.lines + 1, a.weight + f.measure.grams, a.quantity + f.measure.items, a.value + f.linePrice⟩

/-- Department or station figures with a line added. -/
def LineFigures.add (l : LineFigures) (f : LineFields) : LineFigures := ⟨l.lines + 1, l.value + f.linePrice⟩

/-- The article map and OTHER with a line added: the line goes to the entry of its article, to a new entry while the map
holds fewer than 2,048, and otherwise to OTHER (R173). -/
def Accumulators.addArticle (a : Accumulators) (f : LineFields) : Accumulators :=
  match lookup ArticleEntry.article f.article a.articles with
  | some e => { a with articles := insertByKey ArticleEntry.article ⟨f.article, e.figures.add f⟩ a.articles }
  | none =>
    if a.articles.length < Config.maxArticleEntries then
      { a with articles := insertByKey ArticleEntry.article ⟨f.article, ArticleFigures.add ⟨0, 0, 0, 0⟩ f⟩ a.articles }
    else { a with other := a.other.add f }

/-- The override count and difference with a line added (R173). -/
def CounterFigures.addOverride (c : CounterFigures) (f : LineFields) : CounterFigures :=
  if f.overriddenBy.isSome then
    { c with
      overrideCount := c.overrideCount + 1
      overrideDifference := c.overrideDifference + (f.listPrice - f.linePrice) }
  else c

/-- The accumulators with a line that is not VOIDED added (R173). -/
def Accumulators.addLine (a : Accumulators) (f : LineFields) : Accumulators :=
  let b := a.addArticle f
  { b with
    departments := b.departments.modify (f.department - 1) (fun l => l.add f)
    stations := b.stations.set f.station ((b.stations.get f.station).add f)
    counter := { b.counter with lines := b.counter.lines + 1 }.addOverride f }

/-- The accumulators with a VOIDED line added (R173). -/
def Accumulators.addVoided (a : Accumulators) (f : LineFields) : Accumulators :=
  { a with counter := { a.counter with
      voidedLines := a.counter.voidedLines + 1
      voidedLineValue := a.counter.voidedLineValue + f.linePrice } }

/-- The clerk entry of an owner changed, created while fewer than 32 exist, or else OTHER CLERKS (R173). -/
def Accumulators.onClerk (a : Accumulators) (owner : Nat) (g : ClerkFigures → ClerkFigures) : Accumulators :=
  match lookup ClerkEntry.clerk owner a.clerks with
  | some e => { a with clerks := insertByKey ClerkEntry.clerk ⟨owner, g e.figures⟩ a.clerks }
  | none =>
    if a.clerks.length < Config.maxClerkEntries then
      { a with clerks := insertByKey ClerkEntry.clerk ⟨owner, g ⟨0, 0, 0, 0⟩⟩ a.clerks }
    else { a with otherClerks := g a.otherClerks }

/-- A CLOSE record of an order is accumulated with the order's lines (R173): `active` those that are not VOIDED. -/
def Accumulators.addClose (a : Accumulators) (owner total : Nat) (totalLabel : Option Nat)
    (active voided : List LineFields) : Accumulators :=
  let b := voided.foldl Accumulators.addVoided (active.foldl Accumulators.addLine a)
  let c := b.onClerk owner (fun f => { f with orders := f.orders + 1, value := f.value + total })
  { c with counter := { c.counter with
      ordersClosed := c.counter.ordersClosed + 1
      value := c.counter.value + total
      labelsMade := c.counter.labelsMade + ((active ++ voided).filter (fun f => f.label.isSome)).length
        + totalLabel.toList.length } }

/-- A VOID_ORDER record is accumulated (R174). -/
def Accumulators.addVoidOrder (a : Accumulators) (owner value : Nat) : Accumulators :=
  let b := a.onClerk owner (fun f => { f with voidOrders := f.voidOrders + 1, voidValue := f.voidValue + value })
  { b with counter := { b.counter with
      voidOrders := b.counter.voidOrders + 1
      voidOrderValue := b.counter.voidOrderValue + value } }

/-- A REPRINT record is accumulated (R174). -/
def Accumulators.addReprint (a : Accumulators) : Accumulators :=
  { a with counter := { a.counter with reprints := a.counter.reprints + 1 } }

/-- The accumulators of the part changed. -/
def Part.onAccumulators (p : Part) (f : Accumulators → Accumulators) : Part :=
  { p with tt := { p.tt with accumulators := f p.tt.accumulators } }

/-! ## Rebuild and interrupted orders (R161, R162, R172) -/

/-- The LINE records of an order since its previous closing record, each with whether a VOID_LINE record follows. -/
structure Group where
  order : Nat
  owner : Nat
  lines : List (LineFields × Bool)
deriving DecidableEq, Repr

/-- The lines of a group without a VOID_LINE record. -/
def Group.active (g : Group) : List LineFields := (g.lines.filter (fun x => !x.2)).map Prod.fst

/-- The lines of a group with a VOID_LINE record. -/
def Group.voided (g : Group) : List LineFields := (g.lines.filter (fun x => x.2)).map Prod.fst

/-- A LINE record joins the group of its order, which begins with it when there is none. The group keeps the owner of its first
LINE record, also when a later order of the same number and of another owner joins it because the earlier one ended without a
closing record (DESIGN CHOICE, log entry 60). -/
def joinGroup (order owner : Nat) (f : LineFields) : List Group → List Group
  | [] => [⟨order, owner, [(f, false)]⟩]
  | g :: gs =>
    if g.order = order then { g with lines := g.lines ++ [(f, false)] } :: gs else g :: joinGroup order owner f gs

/-- A VOID_LINE record marks the line of its order and index. -/
def markVoid (order index : Nat) (gs : List Group) : List Group :=
  gs.map (fun g =>
    if g.order = order then { g with lines := g.lines.map (fun x => (x.1, x.2 || x.1.index == index)) } else g)

/-- What the walk through the records since the latest DAY_CLOSE has found. -/
structure Rebuild where
  accumulators : Accumulators
  groups : List Group
deriving DecidableEq, Repr

/-- The lines of the order's group, or none. -/
def Rebuild.group (r : Rebuild) (order owner : Nat) : Group :=
  (r.groups.find? (fun g => g.order == order)).getD ⟨order, owner, []⟩

/-- One record of the walk (R161). -/
def Rebuild.step (r : Rebuild) : Record → Rebuild
  | .line order owner f => { r with groups := joinGroup order owner f r.groups }
  | .voidLine order index _ => { r with groups := markVoid order index r.groups }
  | .close order owner _ _ total label _ =>
    ⟨r.accumulators.addClose owner total label (r.group order owner).active (r.group order owner).voided,
      r.groups.filter (fun g => g.order != order)⟩
  | .voidOrder order owner _ value =>
    ⟨r.accumulators.addVoidOrder owner value, r.groups.filter (fun g => g.order != order)⟩
  | .reprint _ _ _ => { r with accumulators := r.accumulators.addReprint }
  | .priceApply _ _ _ => r
  | .priceStored _ => r
  | .dayClose _ => r

/-- The walk through records (R161). -/
def rebuild (rs : List Record) : Rebuild := rs.foldl Rebuild.step ⟨.zero, []⟩

/-- A line as the recovery report lists it (R162). -/
def LineFields.interrupted (f : LineFields) : InterruptedLine :=
  ⟨f.index, f.station, f.article, f.linePrice, f.label, f.label.isSome⟩

/-- The interrupted orders, in journal order of their first line (R162). -/
def Rebuild.interrupted (r : Rebuild) : List InterruptedOrder :=
  (r.groups.filter (fun g => !g.active.isEmpty)).map (fun g =>
    ⟨g.order, g.owner, g.active.map LineFields.interrupted, (g.active.map LineFields.linePrice).sum⟩)

/-- The interrupted accumulator of a list of interrupted orders (R172). -/
def interruptedOf (os : List InterruptedOrder) : Interrupted :=
  ⟨(os.map InterruptedOrder.value).sum, (os.map (fun o => o.lines.length)).sum⟩

/-! ## READ TOTALS and the totals check (R176, Table 59) -/

/-- The numbers of the part COUNTER in the order of Table 59. -/
def CounterFigures.numbers (c : CounterFigures) : List Nat :=
  [c.ordersClosed, c.lines, c.value, c.voidedLines, c.voidedLineValue, c.voidOrders, c.voidOrderValue, c.overrideCount,
   c.overrideDifference, c.labelsMade, c.reprints]

/-- The numbers of a department or station. -/
def LineFigures.numbers (l : LineFigures) : List Nat := [l.lines, l.value]

/-- The numbers of a clerk entry, with clerk number 0 for OTHER CLERKS. -/
def ClerkFigures.numbers (clerk : Nat) (f : ClerkFigures) : List Nat :=
  [clerk, f.orders, f.value, f.voidOrders, f.voidValue]

/-- The numbers of an article entry, with article number 0 for OTHER. -/
def ArticleFigures.numbers (article : Nat) (f : ArticleFigures) : List Nat :=
  [article, f.lines, f.weight, f.quantity, f.value]

/-- The numbers over which the totals check runs, in their order (Table 59). -/
def checkedNumbers (a : Accumulators) (i : Interrupted) : List Nat :=
  a.counter.numbers ++ [i.value, i.lines]
    ++ a.departments.flatMap LineFigures.numbers
    ++ a.stations.toList.flatMap LineFigures.numbers
    ++ a.clerks.flatMap (fun e => e.figures.numbers e.clerk) ++ a.otherClerks.numbers 0
    ++ a.articles.flatMap (fun e => e.figures.numbers e.article) ++ a.other.numbers 0

/-- The totals check: every number in 8 bytes (Table 59). -/
def totalsCheck (a : Accumulators) (i : Interrupted) : BitVec 16 :=
  crc16 ((checkedNumbers a i).flatMap (fun n => bigEndian n 8))

/-- The digest of a day close (Table 59). -/
def digestOf (a : Accumulators) (i : Interrupted) : Digest :=
  { dayValue := a.counter.value
    ordersClosed := a.counter.ordersClosed
    lines := a.counter.lines
    voidOrders := a.counter.voidOrders
    voidOrderValue := a.counter.voidOrderValue
    voidedLineValue := a.counter.voidedLineValue
    overrideDifference := a.counter.overrideDifference
    labelsMade := a.counter.labelsMade
    reprints := a.counter.reprints
    check := totalsCheck a i }

/-- What every reply of READ TOTALS carries (R176). -/
def Part.totalsReport (p : Part) : TotalsReport :=
  ⟨p.tt.counter, p.tt.day, p.tt.grandTotal, p.time.clock, p.time.valid, p.tt.scheduled.isSome⟩

/-- The part of READ TOTALS: ARTICLES has up to 20 entries from a position, with OTHER at the last position. OTHER counts
among the 20: it is left out when 20 entries of the map are shown (log entry 49). -/
def Part.totalsData (p : Part) : TotalsPart → TotalsData
  | .counter => .counter p.tt.accumulators.counter p.tt.interrupted
  | .departments => .departments p.tt.accumulators.departments
  | .stations => .stations p.tt.accumulators.stations
  | .clerks => .clerks p.tt.accumulators.clerks p.tt.accumulators.otherClerks
  | .articles start =>
    let entries := (p.tt.accumulators.articles.drop (start - 1)).take 20
    let n := p.tt.accumulators.articles.length
    .articles entries (if start ≤ n + 1 && entries.length < 20 then some p.tt.accumulators.other else none) n

/-- Whether READ TOTALS carries a part and position of R176. -/
def totalsPartOk : TotalsPart → Bool
  | .articles start => within 1 2049 start
  | _ => true

/-- READ TOTALS (R176): every reply carries the same report, a refusal too. -/
def readTotals (part : Option TotalsPart) (p : Part) : Answer :=
  match part with
  | none => .now (.refusedTotals .badValue p.totalsReport)
  | some t =>
    if totalsPartOk t then .done (.totals (p.totalsData t) p.totalsReport)
    else .now (.refusedTotals .badValue p.totalsReport)

/-- READ CLOSE (R180). -/
def readClose (p : Part) : Answer :=
  match p.tt.lastClose with
  | none => .refuse .noSuch
  | some d => .done (.lastClose d)

/-! ## Counter states (R165 to R167) -/

/-- The counter state changed. -/
def Part.withCounter (p : Part) (c : CounterState) : Part := { p with tt := { p.tt with counter := c } }

/-- OPEN COUNTER (R165). -/
def serveOpenCounter (p : Part) : Part × Answer :=
  match p.tt.counter with
  | .trading => (p, .refuse .wrongState)
  | .closedClosing => (p, .refuse .busy)
  | _ =>
    if !p.time.valid then (p, .refuse .clockUnset)
    else if p.cc.session.isSome then (p, .refuse .calibrating)
    else (p.withCounter .trading, .done .nothing)

/-- PAUSE COUNTER (R166). -/
def servePauseCounter (p : Part) : Part × Answer :=
  match p.tt.counter with
  | .trading => (p.withCounter .paused, .done .nothing)
  | .closedClosing => (p, .refuse .busy)
  | _ => (p, .refuse .wrongState)

/-- CLOSE COUNTER (R167, R122). -/
def serveCloseCounter (p : Part) : Part × Answer :=
  match p.tt.counter with
  | .trading => ((p.withCounter .closed).abandonTickets, .done .nothing)
  | .paused => ((p.withCounter .closed).abandonTickets, .done .nothing)
  | .closedClosing => (p, .refuse .busy)
  | _ => (p, .refuse .wrongState)

/-! ## Day close (R177 to R179) -/

/-- The fields of the DAY_CLOSE record that TT forms (R177). -/
def Part.dayCloseFields (p : Part) : DayClose :=
  { day := p.tt.day
    digest := digestOf p.tt.accumulators p.tt.interrupted
    grandTotalAfter := (p.tt.grandTotal + p.tt.accumulators.counter.value) % Config.grandTotalModulus
    lastLabel := p.lu.lastLabel
    lastOrder := p.om.lastNumber
    time := p.stamp }

/-- The checks of DAY CLOSE, in their order (R177). -/
def Part.dayCloseChecks (p : Part) : Except Reason Unit := do
  check (p.tt.counter ≠ .closedClosing) .busy
  check (p.tt.counter = .closed) .wrongState
  check (p.om.pool.all Option.isNone) .ordersOpen
  p.journalCheck (Record.dayClose p.dayCloseFields).length closeReserve

/-- DAY CLOSE (R177). -/
def serveDayClose (p : Part) : Part × Answer :=
  match p.dayCloseChecks with
  | .error r => (p, .refuse r)
  | .ok _ => ((p.queueRecord (.dayClose p.dayCloseFields)).withCounter .closedClosing, .now .accepted)

/-- The day number after `n`: 65,535 is followed by 1 (R178). -/
def dayAfter (n : Nat) : Nat := if n < Config.max16 then n + 1 else 1

/-- A DAY_CLOSE record is written (R178): the accumulators are zeroed, the day advances, and TC and LU zero their
figures (R125, R141). -/
def Part.endDayClose (p : Part) (d : DayClose) : Part :=
  let q := { p with
    tt := { p.tt with
      accumulators := .zero
      interrupted := ⟨0, 0⟩
      grandTotal := d.grandTotalAfter
      day := dayAfter p.tt.day
      lastClose := some d
      counter := .closed }
    lu := { p.lu with cancelled := 0 } }
  (q.restartTickets d.time).latch .dayClosed (some (.dayDone d.day))

/-- The append of a DAY_CLOSE record has failed (R179). -/
def Part.failDayClose (p : Part) (d : DayClose) : Part :=
  (p.withCounter .closed).latch .dayClosed (some (.dayFailed d.day))

end Sys2Proof.Machine
end

