-- ==== Sys2Proof/Machine/Generations.lean ====
section
/-! DEFINITION. Price generations: the change set, the apply and the switch, the store-back, and the clock of the scheduled
apply (chapter 3, R169 and R171). -/

namespace Sys2Proof.Machine

/-! ## Change set (R54 to R61) -/

/-- Article number of an entry. -/
def ChangeEntry.number : ChangeEntry → Nat
  | .put a => a.number
  | .delete n => n
  | .hold n => n
  | .release n => n

/-- Whether an entry is a PUT. -/
def ChangeEntry.isPut : ChangeEntry → Bool
  | .put _ => true
  | _ => false

/-- Phase of a change set. -/
def ChangeSet.phase : ChangeSet → ChangePhase
  | .none => .none
  | .opened _ _ _ => .opened
  | .scheduled _ _ _ => .scheduled
  | .applying _ _ _ => .applying

/-- Base generation and entries, unless the phase is NONE. -/
def ChangeSet.content : ChangeSet → Option (Nat × List ChangeEntry)
  | .none => .none
  | .opened b es _ => some (b, es)
  | .scheduled b es _ => some (b, es)
  | .applying b es _ => some (b, es)

/-- The scheduled time, in SCHEDULED (R61). -/
def ChangeSet.scheduledTime : ChangeSet → Option TimeOfDay
  | .scheduled _ _ t => some t
  | _ => .none

/-- Phase of a store-back. -/
def StoreBack.phase : StoreBack → StorePhase
  | .idle => .idle
  | .storing g _ _ => .storing g
  | .owed g => .owed g

/-- The change set replaced. -/
def Part.withChangeSet (p : Part) (c : ChangeSet) : Part := { p with art := { p.art with changeSet := c } }

/-- A request of the change-set group is dispatched to AT: an OPEN set takes the present time as its last-message time,
whatever the request is answered (R59). -/
def Part.touchChange (p : Part) : Part :=
  match p.art.changeSet with
  | .opened b es _ => p.withChangeSet (.opened b es p.now)
  | _ => p

/-- The set must be OPEN: in NONE the reason is WRONG_STATE, in SCHEDULED and APPLYING it is BUSY (R57, R58, R62). -/
def ChangeSet.needOpen : ChangeSet → Except Reason (Nat × List ChangeEntry)
  | .opened b es _ => .ok (b, es)
  | .none => .error .wrongState
  | .scheduled _ _ _ => .error .busy
  | .applying _ _ _ => .error .busy

/-- A refusal, with the current generation when the reason is GENERATION_MISMATCH (R55, R62, R63). -/
def Part.refuseApply (p : Part) (r : Reason) : Answer :=
  .now (.refused r (if r = .generationMismatch then some p.art.generation else none))

/-- The checks of BEGIN CHANGE, in their order (R55). -/
def Part.beginChecks (p : Part) (base : Nat) : Except Reason Unit := do
  check (p.art.changeSet = .none) .busy
  match p.art.storeBack with
  | .idle => check (base = p.art.generation) .generationMismatch
  | .storing _ _ _ => .error .busy
  | .owed _ => .error .storeFault

/-- BEGIN CHANGE (R55). -/
def serveBeginChange (base : Nat) (q : Part) : Part × Answer :=
  let p := q.touchChange
  match p.beginChecks base with
  | .error r => (p, p.refuseApply r)
  | .ok _ => (p.withChangeSet (.opened base [] p.now), .done (.generation p.art.generation))

/-- Whether the set has an entry for an article number. -/
def hasEntry (n : Nat) (es : List ChangeEntry) : Bool := (lookup ChangeEntry.number n es).isSome

/-- An accepted staged request: the entry joins or replaces (R56). -/
def Part.stage (p : Part) (base : Nat) (es : List ChangeEntry) (e : ChangeEntry) : Part × Answer :=
  let new := insertByKey ChangeEntry.number e es
  (p.withChangeSet (.opened base new p.now), .done (.staged new.length))

/-- The count of R34: the records of the table and the staged PUTs of articles that are not in it. -/
def Part.roomCount (p : Part) (es : List ChangeEntry) : Nat :=
  p.art.table.length + (es.filter (fun e => e.isPut && (p.article e.number).isNone)).length

/-- Whether the table has room for a PUT of an article number (R34). -/
def Part.roomFor (p : Part) (es : List ChangeEntry) (n : Nat) : Bool :=
  (p.article n).isSome || (lookup ChangeEntry.number n es).any ChangeEntry.isPut || p.roomCount es < Config.maxArticles

/-- Whether an entry for an article number can join or replace (R56). -/
def stageRoom (es : List ChangeEntry) (n : Nat) : Bool := hasEntry n es || es.length < Config.maxStaged

/-- The checks of STAGE PUT, in their order (R57). -/
def Part.putChecks (p : Part) (f : ArticleFields) : Except Reason (Nat × List ChangeEntry × Article) := do
  let (base, es) ← p.art.changeSet.needOpen
  let a ← need (articleOf f) .badValue
  check (stageRoom es a.number) .stageFull
  check (p.roomFor es a.number) .range
  return (base, es, a)

/-- STAGE PUT (R57). -/
def serveStagePut (f : ArticleFields) (q : Part) : Part × Answer :=
  let p := q.touchChange
  match p.putChecks f with
  | .error r => (p, .refuse r)
  | .ok (base, es, a) => p.stage base es (.put a)

/-- The checks of STAGE DELETE, STAGE HOLD and STAGE RELEASE, in their order (R58). -/
def Part.stageChecks (p : Part) (n : Nat) : Except Reason (Nat × List ChangeEntry) := do
  let (base, es) ← p.art.changeSet.needOpen
  check (within 1 99999 n) .badValue
  check (p.article n).isSome .noSuch
  check (stageRoom es n) .stageFull
  return (base, es)

/-- STAGE DELETE, STAGE HOLD and STAGE RELEASE with the entry that each stages (R58). -/
def serveStage (e : ChangeEntry) (q : Part) : Part × Answer :=
  let p := q.touchChange
  match p.stageChecks e.number with
  | .error r => (p, .refuse r)
  | .ok (base, es) => p.stage base es e

/-- The change set becomes NONE, and a scheduled time is withdrawn from TT (R60). -/
def Part.dropChangeSet (p : Part) : Part :=
  { p.withChangeSet .none with tt := { p.tt with scheduled := none } }

/-- DISCARD CHANGE (R60). In OPEN and SCHEDULED no time remains with TT afterwards. -/
def serveDiscardChange (q : Part) : Part × Answer :=
  match q.art.changeSet with
  | .none => (q, .refuse .wrongState)
  | .applying _ _ _ => (q, .refuse .busy)
  | .opened _ _ _ => (q.withChangeSet .none, .done .nothing)
  | .scheduled _ _ _ => (q.dropChangeSet, .done .nothing)

/-- Whole seconds left before the expiry of an OPEN set (R61). -/
def Part.stagingLeft (p : Part) : Option Nat :=
  match p.art.changeSet with
  | .opened _ _ t => some (secondsLeft (t + Config.stagingMs) p.now)
  | _ => none

/-- What CHANGE STATUS reports (R61). -/
def Part.changeReport (p : Part) : ChangeReport :=
  { phase := p.art.changeSet.phase
    base := p.art.changeSet.content.map Prod.fst
    entries := p.art.changeSet.content.map (fun c => c.2.length)
    secondsLeft := p.stagingLeft
    scheduledTime := p.art.changeSet.scheduledTime
    generation := p.art.generation
    records := p.art.table.length
    storeBack := p.art.storeBack.phase
    areaGeneration := p.nv.areaGeneration
    confirmed := p.art.confirmed }

/-- CHANGE STATUS (R61): the last-message time is set first (R59). -/
def serveChangeStatus (q : Part) : Part × Answer := (q.touchChange, .done (.changeStatus q.touchChange.changeReport))

/-- The expiry of an OPEN set, 60 s after its last-message time (R59). -/
def Part.expireChangeSet (p : Part) : Part :=
  match p.art.changeSet with
  | .opened b es t =>
    ((p.reach (t + Config.stagingMs)).withChangeSet .none).latch .stagingExpired (some (.staging b es.length))
  | _ => p

/-! ## Apply (R62 to R65) -/

/-- The PRICE_APPLY record that AT forms now (R62). -/
def Part.applyRecord (p : Part) (es : List ChangeEntry) : Record := .priceApply (p.art.generation + 1) es p.stamp

/-- The checks of APPLY NOW and APPLY AT before and after those of the time, with the base and entries of the set (R62,
R63). -/
def Part.applyChecks (p : Part) (time : Except Reason Unit) : Except Reason (Nat × List ChangeEntry) := do
  let (base, es) ← p.art.changeSet.needOpen
  check (!es.isEmpty) .wrongState
  time
  check (base = p.art.generation) .generationMismatch
  check (p.art.generation < Config.max32) .range
  return (base, es)

/-- The checks of APPLY NOW, in their order (R62). -/
def Part.applyNowChecks (p : Part) : Except Reason (Nat × List ChangeEntry) := do
  let (base, es) ← p.applyChecks (.ok ())
  p.journalCheck (p.applyRecord es).length ordinaryReserve
  return (base, es)

/-- APPLY NOW (R62). -/
def serveApplyNow (q : Part) : Part × Answer :=
  let p := q.touchChange
  match p.applyNowChecks with
  | .error r => (p, p.refuseApply r)
  | .ok (base, es) => ((p.queueRecord (p.applyRecord es)).withChangeSet (.applying base es none), .now .accepted)

/-- The first date and time, at or after the clock's reading, whose time of day is the given one (R171). -/
def scheduledMoment (clock : DateTime) (t : TimeOfDay) : DateTime :=
  if clock.time.seconds ≤ t.seconds then ⟨clock.date, t⟩ else ⟨clock.date.clockFollowing, t⟩

/-- The checks of APPLY AT that concern its time (R63). -/
def Part.applyAtTime (p : Part) (hour minute second : Nat) : Except Reason Unit := do
  check (hour ≤ 23 && minute ≤ 59 && second ≤ 59) .badValue
  check p.time.valid .clockUnset

/-- APPLY AT (R63, R171). -/
def serveApplyAt (hour minute second : Nat) (q : Part) : Part × Answer :=
  let p := q.touchChange
  match p.applyChecks (p.applyAtTime hour minute second) with
  | .error r => (p, p.refuseApply r)
  | .ok (base, es) =>
    ({ p.withChangeSet (.scheduled base es ⟨hour, minute, second⟩) with
        tt := { p.tt with scheduled := some (scheduledMoment p.time.clock ⟨hour, minute, second⟩) } }, .now .accepted)

/-- An apply fails: the set returns to OPEN with its entries, and APPLY_DONE is latched with the reason (R64, R65). -/
def Part.failApply (p : Part) (r : Reason) : Part :=
  match p.art.changeSet.content with
  | none => p
  | some (base, es) => (p.withChangeSet (.opened base es p.now)).latch .applyDone (some (.applyFailed r))

/-- TT reports that the scheduled time has been reached (R64). -/
def Part.scheduledReport (p : Part) : Part :=
  match p.art.changeSet with
  | .scheduled base es t =>
    if p.tj.fault then p.failApply .storeFault
    else if !p.hasSpace (p.applyRecord es).length ordinaryReserve then p.failApply .journalFull
    else (p.queueOrWait (p.applyRecord es)).withChangeSet (.applying base es (some t))
  | _ => p

/-- TT reports the scheduled moment to AT, and the moment becomes absent (R171). -/
def Part.reportScheduled (p : Part) : Part := Part.scheduledReport { p with tt := { p.tt with scheduled := none } }

/-- Seconds until the clock first reads a moment. A moment after the clock's return to 2000-01-01 lies ahead of a clock
that reads 2099-12-31 (log entry 18). -/
def secondsUntil (clock moment : DateTime) : Nat :=
  if clock.date = ⟨2099, 12, 31⟩ ∧ moment.date = ⟨2000, 1, 1⟩ then 86400 - clock.time.seconds + moment.time.seconds
  else moment.seconds - clock.seconds

/-- The part when the clock reads a moment: the milliseconds that are left of it pass (log entry 4). -/
def Part.reachMoment (p : Part) (moment : DateTime) : Part :=
  p.advance (secondsUntil p.time.clock moment * 1000 - p.time.phase)

/-- The clock reaches the scheduled moment (R171). -/
def Part.scheduledTime (p : Part) : Part :=
  match p.tt.scheduled with
  | none => p
  | some m => (p.reachMoment m).reportScheduled

/-- SET CLOCK (R169, R171): it reports the scheduled moment when it puts the clock at it or after it. -/
def serveSetClock (year month day hour minute second : Nat) (p : Part) : Part × Answer :=
  if validDateTime year month day hour minute second then
    let t : DateTime := ⟨⟨year, month, day⟩, ⟨hour, minute, second⟩⟩
    let q := { p with time := { p.time with clock := t, valid := true, phase := 0 } }
    match q.tt.scheduled with
    | some m => if m.seconds ≤ t.seconds then (q.reportScheduled, .done .nothing) else (q, .done .nothing)
    | none => (q, .done .nothing)
  else (p, .refuse .badValue)

/-! ## Switch (R66, R67) -/

/-- A held field set, with the new generation. -/
def Article.setHeld (a : Article) (held : Bool) (g : Nat) : Article := { a with held := held, generation := g }

/-- One entry applied to the table (R66). -/
def applyEntry (g : Nat) (table : List Article) : ChangeEntry → List Article
  | .put a => insertByKey Article.number { a with generation := g } table
  | .delete n => removeKey Article.number n table
  | .hold n => changeFirst (fun a => a.number == n) (fun a => a.setHeld true g) table
  | .release n => changeFirst (fun a => a.number == n) (fun a => a.setHeld false g) table

/-- The entries of a PRICE_APPLY applied to the table in ascending article number (R66). -/
def applyEntries (g : Nat) (es : List ChangeEntry) (table : List Article) : List Article := es.foldl (applyEntry g) table

/-- Whether the entries PUT an article. -/
def putsArticle (es : List ChangeEntry) (n : Nat) : Bool := (lookup ChangeEntry.number n es).any ChangeEntry.isPut

/-- What the switch does to the selection record of a station, with the report to WC (R67): `selected` is its article as
the table holds it after the entries. -/
def Selection.switched (s : Selection) (es : List ChangeEntry) (selected : Option Article) :
    Selection × Option SelectionReport :=
  match s.article, selected with
  | none, _ => ({ s with repeatEntry := none, override := none }, none)
  | some _, none => (.initial, some .lost)
  | some n, some a =>
    if a.held then (.initial, some .lost)
    else if putsArticle es n then (⟨some n, 1, none, none⟩, some (.chosen a.presetTare))
    else ({ s with repeatEntry := none, override := none }, none)

/-- The switch at one station, after the table has been switched (R67). -/
def Part.switchStation (es : List ChangeEntry) (p : Part) (st : StationNo) : Part :=
  let r := (p.art.selections.get st).switched es (p.selected st)
  let q := p.onSelection st (fun _ => r.1)
  match r.2 with
  | none => q
  | some report => q.reportSelection st report

/-- The store-back of a generation begins (R71). -/
def Part.beginStore (p : Part) (o : OwedGeneration) (later : List OwedGeneration) : Part :=
  { p with art := { p.art with storeBack := .storing o.generation (.writing o.entries) later } }

/-- The switch, on the completion of a PRICE_APPLY record (R66, R67). -/
def Part.switchTo (p : Part) (g : Nat) (es : List ChangeEntry) : Part :=
  let q := { p with art := { p.art with table := applyEntries g es p.art.table, generation := g, changeSet := .none } }
  Part.latch ((StationNo.all.foldl (Part.switchStation es) q).beginStore ⟨g, es⟩ []) .applyDone (some (.switched g))

/-! ## Store-back (R71, R72) -/

/-- One record written into the article area: an article as it now stands in the table, or its removal (R71). -/
def Part.storeEntry (p : Part) (e : ChangeEntry) : Part :=
  let area :=
    match e, p.article e.number with
    | .delete n, _ => removeKey Article.number n p.nv.articles
    | _, some a => insertByKey Article.number a p.nv.articles
    | _, none => removeKey Article.number e.number p.nv.articles
  { p with nv := { p.nv with articles := area } }

/-- The store-back replaced. -/
def Part.withStoreBack (p : Part) (s : StoreBack) : Part := { p with art := { p.art with storeBack := s } }

/-- AT offers the PRICE_STORED record to the write queue (R71, R72). A refusal with STORE_FAULT makes the phase OWED and
latches nothing anew: the journal's own STORE_FAULT stands since the FAULT began (log entry 35). -/
def Part.offerStored (p : Part) (g : Nat) (later : List OwedGeneration) : Part :=
  if p.tj.fault then p.withStoreBack (.owed g)
  else if !p.hasSpace (Record.priceStored g).length sharedReserve then p.withStoreBack (.storing g .refused later)
  else (p.queueOrWait (.priceStored g)).withStoreBack (.storing g .queued later)

/-- A PRICE_STORED that was refused with JOURNAL_FULL is offered again when an erase completes (R72). -/
def Part.offerAgain (p : Part) : Part :=
  match p.art.storeBack with
  | .storing g .refused later => p.offerStored g later
  | _ => p

/-- A write to the article area fails its read-back: the store-back stops in OWED (R72). -/
def Part.owe (p : Part) (g : Nat) : Part := (p.withStoreBack (.owed g)).latchStore .articleArea

/-- The article area generation is written as g, and PRICE_STORED offered (R71), or its read-back fails (R72). -/
def Part.storeGeneration (p : Part) (g : Nat) (later : List OwedGeneration) (agrees : Bool) : Part :=
  if agrees then Part.offerStored { p with nv := { p.nv with areaGeneration := g } } g later else p.owe g

/-- The place of an entry after a write whose read-back failed: a free value says which content it holds (log entry
11). -/
def Part.spoilEntry (p : Part) (e : ChangeEntry) : Part :=
  (if Config.failedArticleWriteLanded p.free then p.storeEntry e else p).useFree

/-- One write of the store-back ends; after the last the article area generation is written (R71, R72). -/
def Part.articleAreaWrite (p : Part) (agrees generationAgrees : Bool) : Part :=
  match p.art.storeBack with
  | .storing g (.writing []) later => p.storeGeneration g later (agrees && generationAgrees)
  | .storing g (.writing (e :: rest)) later =>
    if !agrees then (p.spoilEntry e).owe g
    else if rest.isEmpty then (p.storeEntry e).storeGeneration g later generationAgrees
    else (p.storeEntry e).withStoreBack (.storing g (.writing rest) later)
  | _ => p

/-- PRICE_STORED is written: the store-back becomes IDLE, or goes on with the next generation rolled forward (R71,
R73). -/
def Part.finishStore (p : Part) : Part :=
  match p.art.storeBack with
  | .storing _ .queued [] => p.withStoreBack .idle
  | .storing _ .queued (o :: rest) => p.beginStore o rest
  | _ => p

/-- The append of PRICE_STORED has failed (R72). -/
def Part.failStore (p : Part) : Part :=
  match p.art.storeBack with
  | .storing g _ _ => p.withStoreBack (.owed g)
  | _ => p

/-! ## Station agreement (R69, R70) -/

/-- The confirmed generation of a station replaced. -/
def Part.confirm (p : Part) (st : StationNo) (g : Option Nat) : Part :=
  { p with art := { p.art with confirmed := p.art.confirmed.set st g } }

end Sys2Proof.Machine
end

