-- ==== Sys2Proof/Machine/Orders.lean ====
section
/-! DEFINITION. Orders and lines (chapter 5), with the reprint of a line's label (R143, R144). -/

namespace Sys2Proof.Machine

/-! ## The pool (R89 to R92) -/

/-- The orders of the pool. -/
def OrderManager.orders (m : OrderManager) : List Order := m.pool.filterMap id

/-- The order of a number, if a slot that is not FREE holds it. -/
def Part.order (p : Part) (n : Nat) : Option Order := lookup Order.number n p.om.orders

/-- The order of a number changed; `none` frees its slot. -/
def updatePool (n : Nat) (f : Order → Option Order) (pool : List (Option Order)) : List (Option Order) :=
  pool.map (fun slot => slot.bind (fun o => if o.number = n then f o else some o))

/-- The order of a number changed. -/
def Part.updateOrder (p : Part) (n : Nat) (f : Order → Order) : Part :=
  { p with om := { p.om with pool := updatePool n (fun o => some (f o)) p.om.pool } }

/-- No station's active-order reference names the order any more (R91). -/
def Part.unbind (p : Part) (n : Nat) : Part :=
  { p with om := { p.om with active := p.om.active.map (fun a => if a = some n then none else a) } }

/-- The order's slot becomes FREE (R89). -/
def Part.freeOrder (p : Part) (n : Nat) : Part :=
  Part.unbind { p with om := { p.om with pool := updatePool n (fun _ => none) p.om.pool } } n

/-- An order placed in the lowest-numbered FREE slot (R89). -/
def placeOrder (o : Order) : List (Option Order) → List (Option Order)
  | [] => []
  | none :: rest => some o :: rest
  | some x :: rest => some x :: placeOrder o rest

/-- The order number after `n`: 9,999 is followed by 1 (R90). -/
def orderAfter (n : Nat) : Nat := if n < 9999 then n + 1 else 1

/-- The first number after `n` that no order holds, tried at most `fuel` times (R90). -/
def freeOrderNumber (held : List Nat) : Nat → Nat → Nat
  | 0, n => orderAfter n
  | fuel + 1, n => if held.contains (orderAfter n) then freeOrderNumber held fuel (orderAfter n) else orderAfter n

/-- The number that the next order takes (R90). -/
def Part.nextOrder (p : Part) : Nat :=
  freeOrderNumber (p.om.orders.map Order.number) Config.orderSlots p.om.lastNumber

/-- The station's active order (R91). -/
def Part.activeOrder (p : Part) (st : StationNo) : Option Order := (p.om.active.get st).bind p.order

/-- Whether an order counts against its owner: OPEN or PARKED (R92). -/
def Order.counted (o : Order) : Bool :=
  match o.state with
  | .closing _ _ => false
  | _ => true

/-- The orders of a clerk in OPEN or PARKED (R92). -/
def Part.ownedBy (p : Part) (clerk : Nat) : Nat := (p.om.orders.filter (fun o => o.owner == clerk && o.counted)).length

/-- The highest line index of an order; 0 without lines. -/
def Order.lastIndex (o : Order) : Nat := (o.lines.map (fun l => l.fields.index)).foldl max 0

/-- The line of an index. -/
def Order.line (o : Order) (index : Nat) : Option Line := lookup (fun l => l.fields.index) index o.lines

/-- The fields of the lines that are not VOIDED. -/
def Order.activeLines (o : Order) : List LineFields := (o.lines.filter (fun l => l.state ≠ .voided)).map Line.fields

/-- The fields of the lines that are VOIDED. -/
def Order.voidedLines (o : Order) : List LineFields := (o.lines.filter (fun l => l.state = .voided)).map Line.fields

/-- Whether the order holds a PENDING line. -/
def Order.hasPending (o : Order) : Bool := o.lines.any (fun l => l.state = .pending)

/-- The order with the state of one line changed. -/
def Order.withLineState (o : Order) (index : Nat) (s : LineState) : Order :=
  { o with lines := changeFirst (fun l => l.fields.index == index) (fun l => { l with state := s }) o.lines }

/-- Whether a label mode makes item labels. -/
def makesItem : LabelMode → Bool
  | .total => false
  | _ => true

/-- Whether a label mode makes a total label. -/
def makesTotal : LabelMode → Bool
  | .item => false
  | _ => true

/-- The configuration copy of a station. -/
def Part.config (p : Part) (st : StationNo) : StationConfig := (p.wc.get st).config

/-- The result data of an order request: the order number and the total after the request (R112). -/
def orderResult (number total : Nat) : ResultData :=
  { ResultData.nothing with order := some number, total := some total }

/-! ## Opening (R94, R95) -/

/-- Checks 3 and 4 of OPEN ORDER (R94, R98). -/
def Part.checkNewOrder (p : Part) (operator : Nat) : Except Reason Unit := do
  check (p.om.pool.any Option.isNone) .noOrderSlot
  check (p.ownedBy operator < Config.maxClerkOrders) .clerkLimit

/-- An order opened at a station for an operator: it takes a FREE slot and the next order number, and the station's CALLED
ticket is bound to it (R94, R95, R119). -/
def Part.openOrder (p : Part) (st : StationNo) (operator : Nat) : Part :=
  let o : Order :=
    { number := p.nextOrder, owner := operator, state := .opened st, ticket := p.calledNumber st,
      labelMode := (p.config st).labelMode, lines := [], total := 0, totalLabel := none, openedAt := p.stamp }
  Part.bindTicket { p with om := { p.om with
    pool := placeOrder o p.om.pool
    active := p.om.active.set st (some o.number)
    lastNumber := o.number } } st o.number

/-- OPEN ORDER (R94). -/
def keyOpenOrder (st : StationNo) (operator : Nat) (p : Part) : Served := do
  p.checkTrading
  check (p.om.active.get st).isNone .wrongState
  p.checkNewOrder operator
  return (p.openOrder st operator, orderResult p.nextOrder 0)

/-! ## Line commit (R96 to R99) -/

/-- What the ten checks of ADD LINE have decided. -/
structure Commit where
  article : Article
  measure : Measure
  listPrice : Nat
  linePrice : Nat
  overriddenBy : Option Nat
  labelMode : LabelMode
deriving DecidableEq, Repr

/-- The label mode of a commit: that of the active order, or that of the station's configuration (R96). -/
def Part.commitMode (p : Part) (st : StationNo) : LabelMode :=
  match p.activeOrder st with
  | some o => o.labelMode
  | none => (p.config st).labelMode

/-- Check 5: the capture test of a WEIGHED article; for the others the quantity is the station's quantity or 1 (R26, R42,
R96). -/
def Part.measure (p : Part) (st : StationNo) (a : Article) : Except Reason Measure :=
  match a.kind with
  | .weighed =>
    match (p.wc.get st).captureTest (p.link st) with
    | .error r => .error r
    | .ok c => .ok (.weighed c.grams c.tare)
  | .counted => .ok (.counted (p.art.selections.get st).quantity)
  | .fixed => .ok .fixed

/-- The list price of a measured article (R43, R45). -/
def Article.priceOf (a : Article) (m : Measure) : Nat := a.listPrice m.grams m.items

/-- Check 7: room for the line, or for a new order (R98). -/
def Part.checkLineRoom (p : Part) (st : StationNo) (operator : Nat) : Except Reason Unit :=
  match p.om.active.get st with
  | some _ =>
    check ((p.activeOrder st).any (fun o => o.lastIndex < Config.maxLines)) .orderFull
  | none => p.checkNewOrder operator

/-- The present total that check 8 counts (R97). -/
def Part.presentTotal (p : Part) (st : StationNo) : Nat := ((p.activeOrder st).map Order.total).getD 0

/-- The ten checks of ADD LINE in their order (Table 37). -/
def Part.commitChecks (p : Part) (st : StationNo) (operator : Nat) : Except Reason Commit := do
  p.checkTrading
  check (p.link st = .present) .stationStale
  check (p.art.confirmed.get st = some p.art.generation) .staleDisplay
  let n ← need (p.art.selections.get st).article .noSelection
  let a ← need (p.article n) .noSuch
  check (!a.held) .held
  let m ← p.measure st a
  let price ← linePriceOf (a.priceOf m) (p.art.selections.get st).override
  p.checkLineRoom st operator
  check (p.presentTotal st + price.1 ≤ Config.maxTotal) .limit
  check (!makesItem (p.commitMode st) || p.printRoom) .queueFull
  p.journalCheck 56 ordinaryReserve
  return ⟨a, m, a.priceOf m, price.1, price.2, p.commitMode st⟩

/-- The line that a commit adds to an order (step 2 of R99). -/
def Part.newLine (p : Part) (st : StationNo) (o : Order) (c : Commit) : LineFields :=
  { index := o.lastIndex + 1
    station := st
    article := c.article.number
    measure := c.measure
    department := c.article.department
    unitPrice := c.article.unitPrice
    generation := p.art.generation
    listPrice := c.listPrice
    linePrice := c.linePrice
    overriddenBy := c.overriddenBy
    label := if makesItem c.labelMode then some p.lu.nextLabel else none
    time := p.stamp }

/-- Step 4 of R99: a label number is taken and a HELD ITEM job created, when the line carries a label. The job goes to the
printer of the station as it stands, also in an order opened before SET STATION changed it (log entry 51). -/
def Part.makeItemLabel (p : Part) (o : Order) (f : LineFields) (a : Article) : Part :=
  match f.label with
  | none => p
  | some n =>
    p.takeLabel.addJob .item n (p.config f.station).printer (lineContent .item n p.art.itemPrefix o.number o.owner f (some a))

/-- Step 6 of R99: the capture confirmation of a WEIGHED line. -/
def Part.confirmLine (p : Part) (f : LineFields) : Part :=
  if f.measure.isWeighed then p.onChannel f.station Channel.confirmCapture else p

/-- Steps 2 to 7 of R99, on the order that the line joins. -/
def Part.addLine (p : Part) (o : Order) (f : LineFields) (a : Article) : Part :=
  let q := p.updateOrder o.number (fun x => { x with lines := x.lines ++ [⟨f, .pending⟩], total := x.total + f.linePrice })
  ((((q.makeItemLabel o f a).queueRecord (.line o.number o.owner f)).confirmLine f).consumeSelection f.station f.article)

/-- The part in which the line is added: with an order opened at the station when there was none (step 1 of R99). -/
def Part.withOrder (p : Part) (st : StationNo) (operator : Nat) : Part :=
  if (p.om.active.get st).isNone then p.openOrder st operator else p

/-- ADD LINE (R96, R99). -/
def keyAddLine (st : StationNo) (operator : Nat) (p : Part) : Served := do
  let c ← p.commitChecks st operator
  let q := p.withOrder st operator
  let o ← need (q.activeOrder st) .wrongState
  let f := q.newLine st o c
  return (q.addLine o f c.article,
    { orderResult o.number (o.total + f.linePrice) with lineIndex := some f.index, linePrice := some f.linePrice })

/-! ## Park and resume (R103, R104) -/

/-- The park of the active order of a station (R103). -/
def Part.park (p : Part) (st : StationNo) : Except Reason (Part × Order) := do
  let o ← need (p.activeOrder st) .wrongState
  return ((p.updateOrder o.number (fun x => { x with state := .parked })).unbind o.number, o)

/-- PARK (R103). -/
def keyPark (st : StationNo) (p : Part) : Served := do
  let (q, o) ← p.park st
  return (q, orderResult o.number o.total)

/-- RESUME (R104). -/
def keyResume (st : StationNo) (n : Nat) (p : Part) : Served := do
  check (within 1 9999 n) .badValue
  check (p.om.active.get st).isNone .wrongState
  let o ← need (p.order n) .noSuch
  check (o.state = .parked) .wrongState
  let q := p.updateOrder n (fun x => { x with state := .opened st })
  return ({ q with om := { q.om with active := q.om.active.set st (some n) } }, orderResult n o.total)

/-! ## Closing records (R107, R110, R111) -/

/-- A close that has no line to record ends: the slot becomes FREE, the ticket leaves with NO_SALE, the HELD TOTAL job is
deleted and the held place given back (R107, R110). -/
def Part.endEmptyClose (p : Part) (o : Order) : Part :=
  let q := (p.freeOrder o.number).endNoSale o.ticket
  let r := match o.totalLabel with
    | some n => q.deleteJob .total n
    | none => q
  r.giveBack o.number

/-- Whether a WAITING close has nothing to record: a sale with no line that is not VOIDED, a void with no line. -/
def Order.nothingToClose (o : Order) : CloseKind → Bool
  | .sale => o.activeLines.isEmpty
  | .void => o.lines.isEmpty

/-- The closing record of an order (R107, R110). -/
def Part.closingRecord (p : Part) (o : Order) : CloseKind → Record
  | .sale => .close o.number o.owner o.ticket o.activeLines.length o.total o.totalLabel (p.waitOf o.ticket)
  | .void => .voidOrder o.number o.owner o.ticket o.total

/-- The closing record of an order in CLOSING takes a new state. -/
def Part.setClosing (p : Part) (n : Nat) (kind : CloseKind) (r : ClosingRecord) : Part :=
  p.updateOrder n (fun o => { o with state := .closing kind r })

/-- The order's HELD TOTAL job, if it has a total label, changed in LU. -/
def Part.onTotalJob (p : Part) (o : Order) (f : Part → Nat → Part) : Part :=
  match o.totalLabel with
  | some n => f p n
  | none => p

/-- The append of a closing record has failed (R111). -/
def Part.failClosing (p : Part) (o : Order) (kind : CloseKind) : Part :=
  (p.setClosing o.number kind .failed).onTotalJob o (fun q n => q.deleteJob .total n)

/-- The closing record is formed: it fills the held place, or, when the journal is in FAULT, is reported as failed in the
same step and its place freed (R107, R110, R151). Only a sale close completes a TOTAL job: LU has no part in a void close
(R110). -/
def Part.formClosing (p : Part) (o : Order) (kind : CloseKind) : Part :=
  let q := match kind with
    | .sale => p.onTotalJob o (fun q n => q.completeTotal n o.activeLines.length o.total)
    | .void => p
  if p.tj.fault then (q.failClosing o kind).giveBack o.number
  else (q.fillPlace o.number (p.closingRecord o kind)).setClosing o.number kind .queued

/-- A WAITING close is judged: when the order holds no PENDING line, its record is formed or it ends without one (R107,
R110). -/
def Part.settleClosing (p : Part) (n : Nat) : Part :=
  match p.order n with
  | none => p
  | some o =>
    match o.state with
    | .closing kind .waiting =>
      if o.hasPending then p
      else if o.nothingToClose kind then p.endEmptyClose o
      else p.formClosing o kind
    | _ => p

/-- An order enters CLOSING: a place of the write queue is held for its record (R106, R109). -/
def Part.beginClosing (p : Part) (n : Nat) (kind : CloseKind) : Part :=
  (((p.setClosing n kind .waiting).unbind n).takePlace (.held n kind)).settleClosing n

/-! ## Sale close (R106) -/

/-- The TOTAL label of a sale close: LU takes its number and creates a HELD job for the printer of the closing station
(R106, R130): its printer as it stands, also for an order opened before SET STATION changed it (log entry 51). -/
def Part.makeTotalLabel (p : Part) (st : StationNo) (o : Order) : Part :=
  if makesTotal o.labelMode then
    let n := p.lu.nextLabel
    (p.takeLabel.updateOrder o.number (fun x => { x with totalLabel := some n })).addJob .total n (p.config st).printer
      (totalDraft n o.number o.owner o.ticket st)
  else p

/-- CLOSE ORDER (R106). -/
def keyCloseOrder (st : StationNo) (p : Part) : Served := do
  let o ← need (p.activeOrder st) .wrongState
  if o.activeLines.isEmpty then
    return ((p.freeOrder o.number).endNoSale o.ticket, orderResult o.number 0)
  else
    check (!makesTotal o.labelMode || p.printRoom) .queueFull
    p.journalCheck (closingLength .sale) ordinaryReserve
    return ((p.makeTotalLabel st o).beginClosing o.number .sale, orderResult o.number o.total)

/-! ## Void line and void close (R105, R109) -/

/-- The ACTIVE line of an index in the active order of a station: checks 1 to 4 of VOID LINE and REPRINT (R105, R143). -/
def Part.activeLine (p : Part) (st : StationNo) (index : Nat) : Except Reason (Order × LineFields) := do
  let o ← need (p.activeOrder st) .wrongState
  check (within 1 24 index) .badValue
  let l ← need (o.line index) .noSuch
  check (l.state = .active) .wrongState
  return (o, l.fields)

/-- VOID LINE under a supervisor's number (R105). -/
def keyVoidLine (st : StationNo) (index supervisor : Nat) (p : Part) : Served := do
  let (o, f) ← p.activeLine st index
  p.journalCheck (Record.voidLine o.number index supervisor).length ordinaryReserve
  let q := p.updateOrder o.number (fun x => { x.withLineState index .voided with total := x.total - f.linePrice })
  return (q.queueRecord (.voidLine o.number index supervisor), orderResult o.number (o.total - f.linePrice))

/-- The void close of an order: FREE at once without lines, else CLOSING once the journal admits the record (R109). -/
def Part.voidOrder (p : Part) (o : Order) : Except Reason Part :=
  if o.lines.isEmpty then .ok ((p.freeOrder o.number).endNoSale o.ticket)
  else
    match p.journalCheck (closingLength .void) sharedReserve with
    | .error r => .error r
    | .ok _ => .ok (p.beginClosing o.number .void)

/-- The order that VOID ORDER acts on at a station (R109). -/
def Part.orderToVoid (p : Part) (st : StationNo) (named : Option Nat) : Except Reason Order :=
  match named with
  | none => need (p.activeOrder st) .wrongState
  | some n => do
    let o ← need (p.order n) .noSuch
    check (o.state = .parked) .wrongState
    return o

/-- VOID ORDER at a station (R109). -/
def keyVoidOrder (st : StationNo) (named : Option Nat) (p : Part) : Served := do
  let o ← p.orderToVoid st named
  let q ← p.voidOrder o
  return (q, orderResult o.number o.total)

/-- The checks of VOID ORDER from the host (R109). -/
def Part.hostVoid (p : Part) (n : Nat) : Except Reason (Part × Nat) := do
  check (within 1 9999 n) .badValue
  let o ← need (p.order n) .noSuch
  check (o.state = .parked) .wrongState
  let q ← p.voidOrder o
  return (q, o.total)

/-- VOID ORDER from the host (R109). -/
def serveVoidOrder (n : Nat) (p : Part) : Part × Answer :=
  match p.hostVoid n with
  | .error r => (p, .refuse r)
  | .ok (q, total) => (q, .done (.orderTotal total))

/-! ## Reprint (R143, R144) -/

/-- REPRINT under a supervisor's number (R143). -/
def keyReprint (st : StationNo) (index supervisor : Nat) (p : Part) : Served := do
  let (o, f) ← p.activeLine st index
  let n ← need f.label .wrongState
  check p.printRoom .queueFull
  p.journalCheck (Record.reprint n supervisor st).length ordinaryReserve
  let q := p.addJob .reprint n (p.config st).printer
    (lineContent .reprint n p.art.itemPrefix o.number o.owner f (p.article f.article))
  return (q.queueRecord (.reprint n supervisor st), { orderResult o.number o.total with label := some n })

/-! ## Completions (R100, R101, R108, R110, R144) -/

/-- The station's store error mark becomes yes (R198). -/
def Part.markStoreError (p : Part) (st : StationNo) : Part := p.onLink st (fun l => { l with storeError := true })

/-- The ITEM job of a line, if it has one, changed in LU. -/
def Part.onItemJob (p : Part) (f : LineFields) (g : Part → Nat → Part) : Part :=
  match f.label with
  | some n => g p n
  | none => p

/-- A LINE record is written (R100). -/
def Part.lineWritten (p : Part) (n : Nat) (f : LineFields) : Part :=
  ((p.updateOrder n (fun o => o.withLineState f.index .active)).onItemJob f
    (fun q k => q.releaseJob .item k)).settleClosing n

/-- The append of a LINE record has failed (R101). -/
def Part.lineFailed (p : Part) (n : Nat) (f : LineFields) : Part :=
  let q := p.updateOrder n (fun o =>
    { o with lines := removeFirst (fun l => l.fields.index == f.index) o.lines, total := o.total - f.linePrice })
  ((q.onItemJob f (fun q k => q.deleteJob .item k)).markStoreError f.station).settleClosing n

/-- A CLOSE record is written (R108): the order of the pool is accumulated, its TOTAL job released, its ticket SERVED and
its slot freed. -/
def Part.closeWritten (p : Part) (n owner total : Nat) (totalLabel : Option Nat) : Part :=
  match p.order n with
  | none => p
  | some o =>
    (((p.onAccumulators (fun a => a.addClose owner total totalLabel o.activeLines o.voidedLines)).onTotalJob o
      (fun q k => q.releaseJob .total k)).endServed o.ticket).freeOrder n

/-- A VOID_ORDER record is written (R110). -/
def Part.voidOrderWritten (p : Part) (n owner value : Nat) : Part :=
  match p.order n with
  | none => p
  | some o => ((p.onAccumulators (fun a => a.addVoidOrder owner value)).endNoSale o.ticket).freeOrder n

/-- The append of a CLOSE or VOID_ORDER record has failed (R111). -/
def Part.closingFailed (p : Part) (n : Nat) (kind : CloseKind) : Part :=
  match p.order n with
  | none => p
  | some o => p.failClosing o kind

/-- A REPRINT record is written (R144, R174). -/
def Part.reprintWritten (p : Part) (label : Nat) : Part :=
  (p.releaseJob .reprint label).onAccumulators Accumulators.addReprint

/-- The append of a REPRINT record has failed (R144). -/
def Part.reprintFailed (p : Part) (label : Nat) (st : StationNo) : Part :=
  (p.deleteJob .reprint label).markStoreError st

/-! ## READ ORDER (R112) -/

/-- An order in the list of READ ORDER 0. -/
def Order.summary (o : Order) : OrderSummary := ⟨o.number, o.state, o.owner, o.ticket, o.lines.length, o.total⟩

/-- READ ORDER (R112). -/
def readOrder (n : Nat) (p : Part) : Answer :=
  if 9999 < n then .refuse .badValue
  else if n = 0 then
    .done (.orders ((p.om.orders.foldl (fun l o => insertByKey Order.number o l) []).map Order.summary))
  else
    match p.order n with
    | none => .refuse .noSuch
    | some o => .done (.order o)

end Sys2Proof.Machine
end

