-- ==== Sys2Proof/Machine/Operators.lean ====
section
/-! DEFINITION. Operators, sign-on and overrides (chapter 4): the clerk table, the operator stacks, and the way of every key
request through OC. -/

namespace Sys2Proof.Machine

/-! ## Clerk table (R74 to R76) -/

/-- The record of a clerk number in the RAM copy of the table. -/
def Part.clerk (p : Part) (n : Nat) : Option Clerk := lookup Clerk.number n p.oc.clerks

/-- The operator of a stack: entry 1. -/
def Stack.operator : Stack → Option Nat
  | .empty => none
  | .signedOn c => some c
  | .overridden c _ _ => some c

/-- Entry 2 of a stack. -/
def Stack.second : Stack → Option Nat
  | .overridden _ s _ => some s
  | _ => none

/-- The top of a stack: entry 2, or else entry 1. -/
def Stack.top : Stack → Option Nat
  | .empty => none
  | .signedOn c => some c
  | .overridden _ s _ => some s

/-- The stack without entry 2 and its deadline (R85 to R87). -/
def Stack.restored : Stack → Stack
  | .overridden c _ _ => .signedOn c
  | s => s

/-- The stack of a station. -/
def Part.stack (p : Part) (st : StationNo) : Stack := p.oc.stack.get st

/-- The stack of a station replaced. -/
def Part.withStack (p : Part) (st : StationNo) (s : Stack) : Part :=
  { p with oc := { p.oc with stack := p.oc.stack.set st s } }

/-- The override context of a station ends, if it is present (R85 to R87). -/
def Part.endOverride (p : Part) (st : StationNo) : Part := p.withStack st (p.stack st).restored

/-- The station at which a clerk is signed on. -/
def Part.signedOnAt (p : Part) (clerk : Nat) : Option StationNo :=
  StationNo.all.find? (fun st => (p.stack st).operator = some clerk)

/-- Whether a clerk stands in entry 2 of any stack. -/
def Part.inEntry2 (p : Part) (clerk : Nat) : Bool := StationNo.all.any (fun st => (p.stack st).second = some clerk)

/-- The checks of SET CLERK, in their order, with the record to write (R75). -/
def Part.setClerkChecks (p : Part) (number : Nat) (role : Option Role) (name : Text) : Except Reason Clerk := do
  check (within 1 99 number) .badValue
  let r ← need role .badValue
  check (validText 12 name) .badValue
  check ((p.clerk number).isSome || p.oc.clerks.length < Config.maxClerks) .range
  return ⟨number, r, name⟩

/-- SET CLERK (R75). -/
def serveSetClerk (number : Nat) (role : Option Role) (name : Text) (p : Part) : Part × Answer :=
  match p.setClerkChecks number role name with
  | .error r => (p, .refuse r)
  | .ok c => (p, .later (.setClerk c))

/-- The clerk table replaced, in the settings area and in RAM, once its write has ended (R75, R76). -/
def Part.withClerks (p : Part) (clerks : List Clerk) : Part :=
  { p.onSettings (fun s => { s with clerks := clerks }) with oc := { p.oc with clerks := clerks } }

/-- The settings-area write of a SET CLERK ends (R75). -/
def Part.endSetClerk (p : Part) (agrees : Bool) : Part :=
  match p.awaitedWrite with
  | some (.setClerk c) =>
    if agrees then
      let clerks := insertByKey Clerk.number c p.oc.clerks
      (p.withClerks clerks).replyHeld (.done (.clerk c clerks.length))
    else p.failSettings
  | _ => p

/-- The checks of REMOVE CLERK, in their order (R76). -/
def Part.removeClerkChecks (p : Part) (n : Nat) : Except Reason Unit := do
  check (within 1 99 n) .badValue
  check (p.clerk n).isSome .noSuch
  check ((p.signedOnAt n).isNone && !p.inEntry2 n && p.om.orders.all (fun o => o.owner != n)) .busy

/-- REMOVE CLERK (R76). -/
def serveRemoveClerk (n : Nat) (p : Part) : Part × Answer :=
  match p.removeClerkChecks n with
  | .error r => (p, .refuse r)
  | .ok _ => (p, .later (.removeClerk n))

/-- The settings-area write of a REMOVE CLERK ends (R76). -/
def Part.endRemoveClerk (p : Part) (agrees : Bool) : Part :=
  match p.awaitedWrite with
  | some (.removeClerk n) =>
    if agrees then
      let clerks := removeKey Clerk.number n p.oc.clerks
      (p.withClerks clerks).replyHeld (.done (.clerks clerks.length))
    else p.failSettings
  | _ => p

/-- Whether the removal of a clerk waits for its write: a SIGN ON or OVERRIDE that names the clerk is then BUSY (R76). -/
def Part.removing (p : Part) (n : Nat) : Bool := p.awaitedWrite = some (.removeClerk n)

/-- The check that a clerk is in the table, as SIGN ON and OVERRIDE make it (R76, R80, R84). -/
def Part.needClerk (p : Part) (n : Nat) : Except Reason Clerk :=
  if p.removing n then .error .busy else need (p.clerk n) .noSuch

/-! ## Sign-on and sign-off (R80 to R83) -/

/-- SIGN ON at an empty stack (R80). -/
def keySignOn (st : StationNo) (clerk : Nat) (p : Part) : Served := do
  check (within 1 99 clerk) .badValue
  let _ ← p.needClerk clerk
  check (p.signedOnAt clerk).isNone .busy
  return (p.withStack st (.signedOn clerk), .nothing)

/-- The end of a sign-on (R81): the active order, if there is one, is parked, the stack empties and the selection is
cleared. The number of the parked order is given back. -/
def Part.endSignOn (p : Part) (st : StationNo) : Except Reason (Part × Option Nat) := do
  if (p.om.active.get st).isSome then
    let (q, o) ← p.park st
    return ((q.withStack st .empty).clearSelection st, some o.number)
  else return ((p.withStack st .empty).clearSelection st, none)

/-- SIGN OFF (R81). -/
def keySignOff (st : StationNo) (p : Part) : Served := do
  let (q, _) ← p.endSignOn st
  return (q, .nothing)

/-- The checks of SIGN OFF CLERK, in their order, and its effect (R83). -/
def Part.signOffClerk (p : Part) (n : Nat) : Except Reason (Part × StationNo × Option Nat) := do
  check (within 1 99 n) .badValue
  check (p.clerk n).isSome .noSuch
  let st ← need (p.signedOnAt n) .wrongState
  let (q, parked) ← p.endSignOn st
  return (q, st, parked)

/-- SIGN OFF CLERK (R83). -/
def serveSignOffClerk (n : Nat) (p : Part) : Part × Answer :=
  match p.signOffClerk n with
  | .error r => (p, .refuse r)
  | .ok (q, st, parked) => (q, .done (.signedOff st parked))

/-! ## Overrides (R84 to R87) -/

/-- OVERRIDE at a stack that is not empty (R84). -/
def keyOverride (st : StationNo) (supervisor : Nat) (p : Part) : Served := do
  check (within 1 99 supervisor) .badValue
  check ((p.stack st).second).isNone .nestLimit
  let c ← p.needClerk supervisor
  check (c.role = .supervisor) .notAllowed
  let operator ← need (p.stack st).operator .notAllowed
  return (p.withStack st (.overridden operator supervisor (p.now + Config.overrideMs)), .nothing)

/-- END OVERRIDE (R86). -/
def keyEndOverride (st : StationNo) (p : Part) : Served := do
  check ((p.stack st).second).isSome .wrongState
  return (p.endOverride st, .nothing)

/-- The override deadline of a station passes (R87). -/
def Part.overrideDeadline (p : Part) (st : StationNo) : Part :=
  match p.stack st with
  | .overridden _ _ d => (p.reach d).endOverride st
  | _ => p

/-! ## Key requests through OC (R78, R79) -/

/-- The clerk number at the top of a station's stack when its role is SUPERVISOR (R79). -/
def Part.supervisor (p : Part) (st : StationNo) : Option Nat :=
  (p.stack st).top.filter (fun n => (p.clerk n).any (fun c => c.role = .supervisor))

/-- A privileged request: NOT_ALLOWED without a supervisor at the top, and the end of the override context once it is
accepted (R79, R85). -/
def Part.privileged (p : Part) (st : StationNo) (serve : Nat → Part → Served) : Served := do
  let supervisor ← need (p.supervisor st) .notAllowed
  let (q, d) ← serve supervisor p
  return (q.endOverride st, d)

/-- Whether a RESUME is privileged: the order it names has an owner other than the operator (R79). -/
def Part.resumePrivileged (p : Part) (operator n : Nat) : Bool := (p.order n).any (fun o => o.owner != operator)

/-- The three key requests that WC serves at any stack and during the start-up scan (R78). -/
def isWeighingKey : Key → Bool
  | .zero => true
  | .tare => true
  | .clearTare => true
  | _ => false

/-- Whether a SET STATION that disables the station waits for its write (R3). -/
def Part.disabling (p : Part) (st : StationNo) : Bool :=
  match p.awaitedWrite with
  | some (.setStation s c) => s = st && (p.config st).enabled && !c.enabled
  | _ => false

/-- A key request at a stack with an operator (R78). -/
def Part.serveSignedOn (p : Part) (st : StationNo) (operator : Nat) : Key → Served
  | .signOn _ => .error .wrongState
  | .signOff => keySignOff st p
  | .override supervisor => keyOverride st supervisor p
  | .endOverride => keyEndOverride st p
  | .select n => keySelect st n p
  | .quantity count => keyQuantity st count p
  | .repeatEntry => keyRepeat st p
  | .priceOverride price => p.privileged st (fun supervisor => keyPriceOverride st price supervisor)
  | .zero => keyZero st p
  | .tare => keyTare st p
  | .clearTare => keyClearTare st p
  | .addLine => keyAddLine st operator p
  | .openOrder => keyOpenOrder st operator p
  | .park => keyPark st p
  | .resume n =>
    if p.resumePrivileged operator n then p.privileged st (fun _ => keyResume st n) else keyResume st n p
  | .closeOrder => keyCloseOrder st p
  | .voidLine index => p.privileged st (fun supervisor => keyVoidLine st index supervisor)
  | .voidOrder named => p.privileged st (fun _ => keyVoidOrder st named)
  | .reprint index => p.privileged st (fun supervisor => keyReprint st index supervisor)
  | .next => keyNext st p
  | .recall n => keyRecall st n p

/-- A key request at an empty stack (R78). -/
def Part.serveSignedOff (p : Part) (st : StationNo) : Key → Served
  | .signOn clerk => keySignOn st clerk p
  | .zero => keyZero st p
  | .tare => keyTare st p
  | .clearTare => keyClearTare st p
  | _ => .error .notAllowed

/-- A key request as OC judges and serves it (R3, R78). -/
def Part.serveKey (p : Part) (st : StationNo) (k : Key) : Served :=
  if p.disabling st then .error .busy
  else if p.tt.counter = .starting && !isWeighingKey k then .error .busy
  else
    match (p.stack st).operator with
    | none => p.serveSignedOff st k
    | some operator => p.serveSignedOn st operator k

end Sys2Proof.Machine
end

