-- ==== Sys2Proof/Machine/Completions.lean ====
section
/-! DEFINITION. The completions of journal appends and erases (R149 to R155), with what each does in the block that queued the
record (Table 54). -/

namespace Sys2Proof.Machine

/-! ## Records written -/

/-- A completion with a read-back that agrees, of an append whose record the command names: the record is in the journal
and its place free, and then the block that queued it is told (R149). A completion of another record leaves the part as
it is (log entry 1). -/
def Part.appendWritten (p : Part) (report : Record → Option (Part → Part)) : Part :=
  match p.inFlight with
  | none => p
  | some r =>
    match report r with
    | none => p
    | some effect => effect (p.finishAppend r)

/-- Table 54, LINE. -/
def reportLine : Record → Option (Part → Part)
  | .line n _ f => some (fun q => q.lineWritten n f)
  | _ => none

/-- Table 54, VOID_LINE: nothing further (R105). -/
def reportVoidLine : Record → Option (Part → Part)
  | .voidLine _ _ _ => some id
  | _ => none

/-- Table 54, CLOSE. -/
def reportClose : Record → Option (Part → Part)
  | .close n owner _ _ total label _ => some (fun q => q.closeWritten n owner total label)
  | _ => none

/-- Table 54, VOID_ORDER. -/
def reportVoidOrder : Record → Option (Part → Part)
  | .voidOrder n owner _ value => some (fun q => q.voidOrderWritten n owner value)
  | _ => none

/-- Table 54, REPRINT. -/
def reportReprint : Record → Option (Part → Part)
  | .reprint label _ _ => some (fun q => q.reprintWritten label)
  | _ => none

/-- Table 54, PRICE_APPLY. -/
def reportPriceApply : Record → Option (Part → Part)
  | .priceApply g es _ => some (fun q => q.switchTo g es)
  | _ => none

/-- Table 54, PRICE_STORED, and the judgement of R153 and R156. -/
def reportPriceStored : Record → Option (Part → Part)
  | .priceStored _ => some (fun q => q.finishStore.judgeErase)
  | _ => none

/-- Table 54, DAY_CLOSE, and the judgement of R153 and R156: DAY_CLOSED is latched before JOURNAL_LOW (DESIGN CHOICE, log entry
61). -/
def reportDayClose : Record → Option (Part → Part)
  | .dayClose d => some (fun q => (q.endDayClose d).judgeErase)
  | _ => none

/-! ## Failed appends (R150, R151) -/

/-- The failure of a record's append, as the block that queued it takes it (Table 54). -/
def Part.recordFailed (p : Part) : Record → Part
  | .line n _ f => p.lineFailed n f
  | .voidLine _ _ _ => p
  | .close n _ _ _ _ _ _ => p.closingFailed n .sale
  | .voidOrder n _ _ _ => p.closingFailed n .void
  | .reprint label _ st => p.reprintFailed label st
  | .priceApply _ _ _ => p.failApply .storeFault
  | .priceStored _ => p.failStore
  | .dayClose d => p.failDayClose d

/-- Whether a place is held. -/
def Place.isHeld : Place → Bool
  | .held _ _ => true
  | .filled _ => false

/-- The journal goes into FAULT: the failing record, every record in a filled place and the record waiting for a place
are reported as failed in queue order, and the held places, the write position and the sectors are kept (R151). The owners latch
APPLY_DONE and DAY_CLOSED, in queue order, before STORE_FAULT is latched (DESIGN CHOICE, log entry 61). -/
def Part.enterFault (p : Part) : Part :=
  let failed := filledRecords p.tj.queue ++ p.tj.waiting.toList
  let q := { p with tj := { p.tj with
    fault := true
    append := none
    queue := p.tj.queue.filter Place.isHeld
    waiting := none } }
  (failed.foldl Part.recordFailed q).latchStore .journal

/-- The writing sector is marked BAD with the length of its good records (R150). -/
def Part.markBad (p : Part) (i : Nat) : Part :=
  p.onSector i (fun s => { s with mark := .bad, seq := some p.tj.writingSeq, torn := none })

/-- The BAD mark of the writing sector failed its read-back: the sector is BAD and its good records stay in the journal,
and a free value says whether the next survey finds a valid header (R150, log entry 11). -/
def Part.spoilMark (p : Part) (i : Nat) : Part :=
  ((p.markBad i).onSector i (fun s => { s with unreadable := Config.failedMarkUnreadable p.free })).useFree

/-- The record is tried once more at the start of a newly opened sector, or the journal goes into FAULT when none is
ERASED (R150). -/
def Part.retryAppend (p : Part) (bad : Nat) : Part :=
  match p.sectorToOpen with
  | none => p.enterFault
  | some j => (p.openSector j).withAppend (some (.retry bad))

/-- An append fails its read-back (R150): the writing sector is marked BAD, and the record is retried once. -/
def Part.appendFailed (p : Part) (markAgrees : Bool) : Part :=
  match p.tj.append, p.tj.writing with
  | some a, some i =>
    let q := if markAgrees then p.markBad i else p.spoilMark i
    if markAgrees && a = .first then q.retryAppend i else q.enterFault
  | _, _ => p

/-! ## Erases (R153 to R155) -/

/-- The erase in flight ends (R153, R155), and a PRICE_STORED refused with JOURNAL_FULL is offered again (R72). A
suspended erase does not end, and in FAULT an erase is left where it stands (R151). -/
def Part.eraseDone (p : Part) (agrees : Bool) : Part :=
  match p.tj.erase with
  | some e => if e.suspended || p.tj.fault then p else (p.endErase e.sector agrees).offerAgain
  | none => p

/-! ## Commands -/

/-- APPEND_START (R149). -/
def execAppendStart (s : State) : Host.Outcome State Fault Refusal := s.act Part.startAppend

/-- LINE_WRITTEN (R100). -/
def execLineWritten (s : State) : Host.Outcome State Fault Refusal := s.act (fun p => p.appendWritten reportLine)

/-- VOID_LINE_WRITTEN (R105). -/
def execVoidLineWritten (s : State) : Host.Outcome State Fault Refusal := s.act (fun p => p.appendWritten reportVoidLine)

/-- CLOSE_WRITTEN (R108). -/
def execCloseWritten (s : State) : Host.Outcome State Fault Refusal := s.act (fun p => p.appendWritten reportClose)

/-- VOID_ORDER_WRITTEN (R110). -/
def execVoidOrderWritten (s : State) : Host.Outcome State Fault Refusal :=
  s.act (fun p => p.appendWritten reportVoidOrder)

/-- REPRINT_WRITTEN (R144). -/
def execReprintWritten (s : State) : Host.Outcome State Fault Refusal := s.act (fun p => p.appendWritten reportReprint)

/-- PRICE_APPLY_WRITTEN (R66). -/
def execPriceApplyWritten (s : State) : Host.Outcome State Fault Refusal :=
  s.act (fun p => p.appendWritten reportPriceApply)

/-- PRICE_STORED_WRITTEN (R71). -/
def execPriceStoredWritten (s : State) : Host.Outcome State Fault Refusal :=
  s.act (fun p => p.appendWritten reportPriceStored)

/-- DAY_CLOSE_WRITTEN (R178). -/
def execDayCloseWritten (s : State) : Host.Outcome State Fault Refusal := s.act (fun p => p.appendWritten reportDayClose)

/-- APPEND_READBACK_FAIL (R150). -/
def execAppendReadbackFail (markAgrees : Bool) (s : State) : Host.Outcome State Fault Refusal :=
  s.act (fun p => p.appendFailed markAgrees)

/-- ERASE_START (R153). -/
def execEraseStart (s : State) : Host.Outcome State Fault Refusal := s.act Part.startErase

/-- ERASE_RESUME (R154). -/
def execEraseResume (s : State) : Host.Outcome State Fault Refusal := s.act Part.resumeErase

/-- ERASE_DONE (R153, R155). -/
def execEraseDone (agrees : Bool) (s : State) : Host.Outcome State Fault Refusal := s.act (fun p => p.eraseDone agrees)

/-- ARTICLE_AREA_WRITE_DONE (R71, R72). -/
def execArticleAreaWriteDone (agrees generationAgrees : Bool) (s : State) : Host.Outcome State Fault Refusal :=
  s.act (fun p => p.articleAreaWrite agrees generationAgrees)

end Sys2Proof.Machine
end

