-- ==== Sys2Proof/Machine/Calibration.lean ====
section
/-! DEFINITION. Calibration sessions and the audit area (chapter 10). -/

namespace Sys2Proof.Machine

/-! ## Session (R181 to R183) -/

/-- The session replaced. -/
def Part.withSession (p : Part) (s : Option Session) : Part := { p with cc := { p.cc with session := s } }

/-- Whether a CAL COMMIT has passed its checks and its writes run (R183, R187). -/
def Part.committing (p : Part) : Bool :=
  match p.awaitedWrite with
  | some (.calAudit _) => true
  | some (.calRecord _) => true
  | _ => false

/-- A session is over: no session is open, and the last session end takes its cause, station and time, which is unset
while the clock is invalid (log entry 50). -/
def Part.closeSession (p : Part) (cause : EndCause) (st : StationNo) : Part :=
  { p with cc := ⟨none, some ⟨cause, st, p.stamp⟩⟩ }

/-- A session ends without a commit: the channel of its station carries on as it was (R30, R183). -/
def Part.endSession (p : Part) (cause : EndCause) : Part :=
  match p.cc.session with
  | none => p
  | some s => (p.onChannel s.station (fun c => { c with session := false })).closeSession cause s.station

/-- An event that ends an open session, unless a commit runs (R183). -/
def Part.interruptSession (p : Part) (cause : EndCause) : Part := if p.committing then p else p.endSession cause

/-- The loss of a station's link ends a session on it (R183). -/
def Part.staleSession (p : Part) (st : StationNo) : Part :=
  if (p.cc.session.map Session.station) = some st then p.interruptSession .stale else p

/-- The 120 s after the gap mark have passed (R183). -/
def Part.gapExpiry (p : Part) : Part :=
  match p.cc.session with
  | none => p
  | some s => if p.committing then p else (p.reach (s.gapMark + Config.gapMs)).endSession .gap

/-- A step request restarts the gap mark of the open session (section 10.2). -/
def Part.touchGap (p : Part) : Part := p.withSession (p.cc.session.map (fun s => { s with gapMark := p.now }))

/-- Whether nobody is signed on at a station and it has no active order (check 6 of R182). -/
def Part.stationIdle (p : Part) (st : StationNo) : Bool := (p.stack st).operator.isNone && (p.om.active.get st).isNone

/-- The checks of CAL BEGIN, in their order (R182). -/
def Part.calBeginChecks (p : Part) (station : Nat) : Except Reason StationNo := do
  let st ← need (StationNo.ofNumber station) .badValue
  check p.inputs.calibrationSwitch .calLocked
  check p.cc.session.isNone .busy
  check (p.tt.counter ≠ .trading) .wrongState
  check ((p.config st).enabled && p.link st = .present) .stationStale
  check (p.stationIdle st) .busy
  check (p.nv.auditCounter < Config.maxAudit) .auditFull
  return st

/-- CAL BEGIN (R182). -/
def serveCalBegin (station : Nat) (p : Part) : Part × Answer :=
  match p.calBeginChecks station with
  | .error r => (p, .refuse r)
  | .ok st =>
    let old := (p.wc.get st).cal
    ((p.onChannel st (fun c => { c with session := true })).withSession (some ⟨st, old, none, none, none, p.now⟩),
      .done (.calRecord old))

/-- CAL ABORT (R183). -/
def serveCalAbort (p : Part) : Part × Answer :=
  if p.cc.session.isSome then (p.endSession .aborted, .done .nothing) else (p, .refuse .wrongState)

/-! ## Steps (R184 to R186) -/

/-- The result of a step on the open session: a refusal, or the session after the step with the reply. -/
abbrev StepResult := Except Reason (Session × ReplyData)

/-- A step request: WRONG_STATE without a session; otherwise the gap mark restarts, and the step is judged. -/
def serveStep (step : Part → Session → StepResult) (q : Part) : Part × Answer :=
  let p := q.touchGap
  match p.cc.session with
  | none => (p, .refuse .wrongState)
  | some s =>
    match step p s with
    | .error r => (p, .refuse r)
    | .ok (t, d) => (p.withSession (some t), .done d)

/-- The filtered raw count of a raw-stable station, else MOTION (R184). -/
def Part.stableCount (p : Part) (st : StationNo) : Except Reason Int := do
  check (p.wc.get st).rawStable .motion
  need (p.wc.get st).filteredRaw .motion

/-- CAL ZERO (R184). -/
def stepZero (p : Part) (s : Session) : StepResult := do
  let r ← p.stableCount s.station
  return ({ s with newZero := some r, newSpan := none }, .calZero r s.newSpan.isSome)

/-- The Max that a load is judged by: that of the new intervals, or else of the old record (R185). -/
def Session.max (s : Session) : Nat := (s.newIntervals.map Intervals.max).getD s.old.max

/-- Whether a load lies within 10 % to 100 % of a Max, exactly (R185). -/
def loadFits (load max : Nat) : Bool := max ≤ 10 * load && load ≤ max

/-- CAL SPAN (R185). -/
def stepSpan (load : Nat) (p : Part) (s : Session) : StepResult := do
  let z ← need s.newZero .wrongState
  let r ← p.stableCount s.station
  check (within 1000 30000 load && loadFits load s.max) .range
  check (10000 ≤ r - z && r - z ≤ 8000000) .range
  return ({ s with newSpan := some ⟨(r - z).toNat, load⟩ }, .calSpan (r - z).toNat load)

/-- The first group of CAL INTERVALS (R186). -/
def intervalsOk (max b e1 e2 : Nat) : Bool :=
  [1, 2, 5, 10, 20].contains e1 && [1, 2, 5, 10, 20].contains e2
    && (e1 < e2 || (e1 == e2 && b == max))
    && within 3000 30000 max && max % e2 == 0
    && within e1 max b && b % e1 == 0 && b % e2 == 0

/-- The second group of CAL INTERVALS (R186). -/
def Session.loadOk (s : Session) (max : Nat) : Bool :=
  match s.newSpan with
  | some sp => loadFits sp.lcal max
  | none => s.old.lcal ≤ max

/-- CAL INTERVALS (R186). -/
def stepIntervals (max b e1 e2 : Nat) (_ : Part) (s : Session) : StepResult := do
  check (intervalsOk max b e1 e2) .badValue
  check (s.loadOk max) .range
  return ({ s with newIntervals := some ⟨max, b, e1, e2⟩ }, .nothing)

/-! ## Commit (R187, R188) -/

/-- The new record of a session (R187). -/
def Session.newRecord (s : Session) : CalRecord :=
  { zcal := s.newZero.getD s.old.zcal
    scal := (s.newSpan.map Span.scal).getD s.old.scal
    lcal := (s.newSpan.map Span.lcal).getD s.old.lcal
    max := (s.newIntervals.map Intervals.max).getD s.old.max
    b := (s.newIntervals.map Intervals.b).getD s.old.b
    e1 := (s.newIntervals.map Intervals.e1).getD s.old.e1
    e2 := (s.newIntervals.map Intervals.e2).getD s.old.e2
    calibrated := true }

/-- The value of an item of a record. -/
def CalRecord.item (c : CalRecord) : CalItem → Int
  | .zcal => c.zcal
  | .scal => c.scal
  | .lcal => c.lcal
  | .max => c.max
  | .b => c.b
  | .e1 => c.e1
  | .e2 => c.e2

/-- The seven items in the order of Table 63. -/
def CalItem.all : List CalItem := [.zcal, .scal, .lcal, .max, .b, .e1, .e2]

/-- The changed items: those whose new value differs from the old (R187). -/
def changedItems (old new : CalRecord) : List CalItem := CalItem.all.filter (fun i => old.item i ≠ new.item i)

/-- The changed items as one integer, bit 0 for Zcal to bit 6 for e2 (Table 63). -/
def itemBits (items : List CalItem) : Nat :=
  ((CalItem.all.zipIdx).map (fun x => if items.contains x.1 then 2 ^ x.2 else 0)).sum

/-- The six numbers of a time, all 0 when unset (Table 63). -/
def timeNumbers : Option DateTime → List Nat
  | none => [0, 0, 0, 0, 0, 0]
  | some t => [t.date.year, t.date.month, t.date.day, t.time.hour, t.time.minute, t.time.second]

/-- The check of an audit entry over its other fields, each in 4 bytes (Table 63). -/
def auditCheck (number : Nat) (st : StationNo) (items : List CalItem) (old new : CalRecord) (time : Option DateTime) :
    BitVec 16 :=
  crc16 ([number, st.number, itemBits items].flatMap (fun n => bigEndian n 4)
    ++ (CalItem.all.map old.item).flatMap bigEndianSigned ++ bigEndian old.calibrated.toNat 4
    ++ (CalItem.all.map new.item).flatMap bigEndianSigned
    ++ (timeNumbers time).flatMap (fun n => bigEndian n 4))

/-- The audit entry of a commit (Table 63). -/
def Session.auditEntry (s : Session) (number : Nat) (time : Option DateTime) : AuditEntry :=
  { number := number
    station := s.station
    changed := changedItems s.old s.newRecord
    old := s.old
    new := s.newRecord
    time := time
    check := auditCheck number s.station (changedItems s.old s.newRecord) s.old s.newRecord time }

/-- Whether a session holds a new zero, span or intervals (R187). -/
def Session.hasSteps (s : Session) : Bool := s.newZero.isSome || s.newSpan.isSome || s.newIntervals.isSome

/-- CAL COMMIT (R187): the audit counter rises and the entry of that number is written. -/
def serveCalCommit (q : Part) : Part × Answer :=
  let p := q.touchGap
  match p.cc.session with
  | none => (p, .refuse .wrongState)
  | some s =>
    if s.hasSteps then
      let n := p.nv.auditCounter + 1
      ({ p with nv := { p.nv with auditCounter := n } }, .later (.calAudit (s.auditEntry n p.stamp)))
    else (p, .refuse .wrongState)

/-- An entry joins the audit area (R188). -/
def Part.addAudit (p : Part) (a : AuditSlot) : Part := { p with nv := { p.nv with audit := p.nv.audit ++ [a] } }

/-- A commit fails: the session ends with FAILED, STORE_FAULT is latched, and the reply is STORE_FAULT (R187). -/
def Part.failCommit (p : Part) (d : StoreDetail) : Part :=
  ((p.endSession .failed).latchStore d).replyHeld (.refused .storeFault none)

/-- The audit-area write of a commit ends (step 1 of R187). -/
def Part.endCalAudit (p : Part) (agrees : Bool) : Part :=
  match p.ml.serving with
  | some ⟨tag, req, .calAudit e⟩ =>
    if agrees then
      let q := p.addAudit (.written e)
      { q with ml := { q.ml with serving := some ⟨tag, req, .calRecord e⟩ } }
    else (p.addAudit .damaged).failCommit .auditArea
  | _ => p

/-- The settings place of a station takes a new calibration record. -/
def Part.writeRecord (p : Part) (st : StationNo) (r : CalRecord) : Part :=
  p.onSettings (fun s => { s with records := s.records.set st r })

/-- The commit is complete (step 3 of R187): the calibration restart of R31, CALIBRATION_CHANGED, and the reply. -/
def Part.commitDone (p : Part) (e : AuditEntry) : Part :=
  ((((p.writeRecord e.station e.new).onChannel e.station (fun c => c.calRestart e.new)).closeSession .committed
    e.station).latch .calibrationChanged (some (.calibration e.station e.number))).replyHeld
    (.done (.calCommitted e.number e.new))

/-- The settings-area write of a commit ends (steps 2 and 3 of R187). -/
def Part.endCalRecord (p : Part) (agrees : Bool) : Part :=
  match p.awaitedWrite with
  | some (.calRecord e) => if agrees then p.commitDone e else p.failCommit .settingsArea
  | _ => p

/-! ## READ AUDIT (R189) -/

/-- The open session as the summary of READ AUDIT reports it. -/
def Session.report (s : Session) (now : Nat) : SessionReport :=
  ⟨s.station, s.newZero.isSome, s.newSpan.isSome, s.newIntervals.isSome, secondsLeft (s.gapMark + Config.gapMs) now⟩

/-- Whether the check of an audit entry agrees when it is read (R188). -/
def AuditEntry.agrees (e : AuditEntry) : Bool := e.check = auditCheck e.number e.station e.changed e.old e.new e.time

/-- An entry of the audit area as it reads: one whose check fails is DAMAGED and shows no fields (R188). -/
def AuditSlot.shown : AuditSlot → AuditSlot
  | .written e => if e.agrees then .written e else .damaged
  | .damaged => .damaged

/-- The summary of READ AUDIT. -/
def Part.auditReport (p : Part) : AuditReport :=
  { counter := p.nv.auditCounter
    damaged := (p.nv.audit.filter (fun a => a.shown = .damaged)).length
    switch := p.inputs.calibrationSwitch
    session := p.cc.session.map (fun s => s.report p.now)
    lastEnd := p.cc.lastEnd }

/-- READ AUDIT (R189). -/
def readAudit (position : Nat) (p : Part) : Answer :=
  if Config.maxAudit < position then .refuse .badValue
  else if position = 0 then .done (.audit p.auditReport)
  else if p.nv.auditCounter < position then .refuse .noSuch
  else
    match p.nv.audit[position - 1]? with
    | some a => .done (.auditEntry a.shown)
    | none => .refuse .noSuch

/-! ## Commands -/

/-- CAL_BEGIN (R182). -/
def execCalBegin (tag station : Nat) (s : State) : Host.Outcome State Fault Refusal :=
  s.act (fun p => p.dispatch tag (.calBegin station) (serveCalBegin station))

/-- CAL_ABORT (R183). -/
def execCalAbort (tag : Nat) (s : State) : Host.Outcome State Fault Refusal :=
  s.act (fun p => p.dispatch tag .calAbort serveCalAbort)

/-- CAL_ZERO (R184). -/
def execCalZero (tag : Nat) (s : State) : Host.Outcome State Fault Refusal :=
  s.act (fun p => p.dispatch tag .calZero (serveStep stepZero))

/-- CAL_SPAN (R185). -/
def execCalSpan (tag load : Nat) (s : State) : Host.Outcome State Fault Refusal :=
  s.act (fun p => p.dispatch tag (.calSpan load) (serveStep (stepSpan load)))

/-- CAL_INTERVALS (R186). -/
def execCalIntervals (tag max b e1 e2 : Nat) (s : State) : Host.Outcome State Fault Refusal :=
  s.act (fun p => p.dispatch tag (.calIntervals max b e1 e2) (serveStep (stepIntervals max b e1 e2)))

/-- CAL_COMMIT (R187). -/
def execCalCommit (tag : Nat) (s : State) : Host.Outcome State Fault Refusal :=
  s.act (fun p => p.dispatch tag .calCommit serveCalCommit)

/-- CAL_AUDIT_WRITE_DONE (R187). -/
def execCalAuditWriteDone (agrees : Bool) (s : State) : Host.Outcome State Fault Refusal :=
  s.act (fun p => p.endCalAudit agrees)

/-- CAL_RECORD_WRITE_DONE (R187). -/
def execCalRecordWriteDone (agrees : Bool) (s : State) : Host.Outcome State Fault Refusal :=
  s.act (fun p => p.endCalRecord agrees)

/-- CAL_GAP_EXPIRY (R183). -/
def execCalGapExpiry (s : State) : Host.Outcome State Fault Refusal := s.act Part.gapExpiry

/-- The level of the calibration switch, which CC follows at every moment (R181). -/
def Part.setSwitch (p : Part) (asserted : Bool) : Part :=
  { p with inputs := { p.inputs with calibrationSwitch := asserted } }

/-- CALIBRATION_SWITCH_RELEASE (R183). -/
def execCalibrationSwitchRelease (s : State) : Host.Outcome State Fault Refusal :=
  s.always (fun p => Part.unlessHeld (fun q => q.interruptSession .switch) (p.setSwitch false))

/-- CALIBRATION_SWITCH_ASSERT (R181). -/
def execCalibrationSwitchAssert (s : State) : Host.Outcome State Fault Refusal := s.always (fun p => p.setSwitch true)

/-- READ_AUDIT (R189). -/
def execReadAudit (tag position : Nat) (s : State) : Host.Outcome State Fault Refusal :=
  s.act (fun p => p.dispatch tag (.readAudit position) (reading (readAudit position)))

end Sys2Proof.Machine
end

