-- ==== Sys2Proof/Machine/Recovery.lean ====
section
/-! DEFINITION. Resets and the start-up scan (R1, R54, R73, R90, R128, R158 to R163, R172, R192). -/

namespace Sys2Proof.Machine

/-! ## What a reset leaves of the nonvolatile writes in flight -/

/-- A write to a nonvolatile place that the reset cut: a free value says whether the place holds the new content (R1, log
entry 8). -/
def Part.cutWrite (p : Part) (write : Part → Part) : Part :=
  (if Config.cutWriteLanded p.free then write p else p).useFree

/-- The settings- or audit-area write of the dispatched request, if one is in flight (R1, R188). An audit entry whose
write a reset cut counts as written and reads as DAMAGED. -/
def Part.settleHeld (p : Part) : Part :=
  match p.awaitedWrite with
  | none => p
  | some (.setStation st c) => p.cutWrite (fun q => q.onSettings (fun s => { s with configs := s.configs.set st c }))
  | some (.setPrefixes item total) =>
    p.cutWrite (fun q => q.onSettings (fun s => { s with itemPrefix := item, totalPrefix := total }))
  | some (.setClerk c) =>
    p.cutWrite (fun q => q.onSettings (fun s => { s with clerks := insertByKey Clerk.number c s.clerks }))
  | some (.removeClerk n) =>
    p.cutWrite (fun q => q.onSettings (fun s => { s with clerks := removeKey Clerk.number n s.clerks }))
  | some (.calAudit _) => p.addAudit .damaged
  | some (.calRecord e) => p.cutWrite (fun q => q.writeRecord e.station e.new)

/-- The write of the article area generation after the last record (R71). -/
def Part.settleGeneration (p : Part) (g : Nat) : Part :=
  p.cutWrite (fun q => { q with nv := { q.nv with areaGeneration := g } })

/-- The article-area write in flight, if there is one: the record of the first entry still to write, and, after the last
record, the area generation (R71, log entry 8). -/
def Part.settleArticle (p : Part) : Part :=
  match p.art.storeBack with
  | .storing g (.writing []) _ => p.settleGeneration g
  | .storing g (.writing [e]) _ =>
    if Config.cutWriteLanded p.free then (p.storeEntry e).useFree.settleGeneration g else p.useFree
  | .storing _ (.writing (e :: _ :: _)) _ => p.cutWrite (fun q => q.storeEntry e)
  | _ => p

/-- The writing sector after an append that the reset cut (R158, log entry 10): the header of a sector opened for the
record may be valid or not, and a record whose check fails may stand behind the good ones. -/
def Sector.cut (s : Sector) (seq : Nat) (x : Stored) : Config.CutAppend → Sector
  | .nothing => s
  | .tornRecord => if s.mark = .erased then ⟨.inUse, some seq, [], some x, false⟩ else { s with torn := some x }
  | .tornHeader => if s.mark = .erased then ⟨.other, none, [], none, false⟩ else { s with torn := some x }

/-- The append in flight, if there is one. -/
def Part.settleAppend (p : Part) : Part :=
  match p.inFlight, p.tj.writing with
  | some r, some i =>
    (p.onSector i (fun s =>
      s.cut p.tj.writingSeq (.cut r (Config.tornCheck p.free)) (Config.cutAppend p.free))).useFree
  | _, _ => p

/-- CC sets the audit counter to the number of entries that are not blank (R188). -/
def Part.recountAudit (p : Part) : Part := { p with nv := { p.nv with auditCounter := p.nv.audit.length } }

/-- Every nonvolatile write in flight is cut. -/
def Part.cutWrites (p : Part) : Part := p.settleHeld.settleArticle.settleAppend.recountAudit

/-! ## The three resets (R192) -/

/-- A reset of a cause: all RAM state takes the values that each chapter gives for it (R192). -/
def Part.reset (p : Part) (cause : ResetCause) (time : TimeBase) : Part :=
  Part.afterReset cause p.cutWrites.nv p.inputs time p.cutWrites.free

/-- The elapsed-time count starts afresh, and the clock keeps running (R168, R170). -/
def TimeBase.restart (t : TimeBase) : TimeBase := { t with elapsed := 0 }

/-- RESET PART acted on in the receiver: the reply DONE is sent, and the reset begins (R192). -/
def Part.resetPart (p : Part) (tag : Nat) : Part :=
  (p.reset .resetPart p.time.restart).reply tag (.request .resetPart) (.done .nothing)

/-- The reset input released: RESET_LINE (R192). -/
def Part.resetLine (p : Part) : Part :=
  ({ p with inputs := { p.inputs with resetAsserted := false } } : Part).reset .resetLine p.time.restart

/-! ## Reading the journal (R158 to R160) -/

/-- The sectors as the survey takes them: one with other content is BAD with no records (R158). -/
def surveyed (ss : List Sector) : List Sector :=
  ss.map (fun s => if s.mark = .other || s.unreadable then ⟨.bad, none, [], none, false⟩ else s)

/-- What stands in the record area of a sector. -/
def Sector.area (s : Sector) : List Stored := s.records ++ s.torn.toList

/-- Whether the check of every record of a sector agrees. -/
def Sector.whole (s : Sector) : Bool := s.area.all Stored.agrees

/-- A sector with the records that the scan reads from it: those before the first whose check fails (R158). -/
def Sector.scanned (s : Sector) : Sector := { s with records := s.area.takeWhile Stored.agrees, torn := none }

/-- The same of a sector with its index. -/
def Indexed.scanned (s : Indexed) : Indexed := ⟨s.index, s.sector.scanned⟩

/-- What reading the sectors in ascending sequence number has given: the sectors read to their end, the one at whose
failed record the scan ended, with the records read from them, and the sectors passed over. -/
structure Reading where
  read : List Indexed
  failed : Option Indexed
  passedOver : List Indexed
deriving DecidableEq, Repr

/-- Sectors read in order until a record whose check fails (R158). -/
def readSectors : List Indexed → Reading
  | [] => ⟨[], none, []⟩
  | s :: rest =>
    if s.sector.whole then
      ⟨s.scanned :: (readSectors rest).read, (readSectors rest).failed, (readSectors rest).passedOver⟩
    else ⟨[], some s.scanned, rest⟩

/-- The records read. -/
def Reading.records (r : Reading) : List Record := (r.read ++ r.failed.toList).flatMap (fun s => s.sector.journal)

/-- The index of the sector in which the scan ended; 31 when no sector held records, so that sector 0 comes next (R160). A
SEALED or BAD sector of length 0 counts here as one that held records, so its index can be the one (log entry 57). -/
def Reading.endIndex (r : Reading) : Nat := (((r.read ++ r.failed.toList).getLast?).map Indexed.index).getD 31

/-- The early end of the scan (R159). Every sector above the failed record that the journal would read counts as passed over, a
SEALED or BAD one of length 0 too, so that such a sector alone makes an early end (log entry 53). -/
def Reading.early (r : Reading) : Option EarlyEnd :=
  match r.failed with
  | some s => if r.passedOver.isEmpty then none else some ⟨s.seq, r.passedOver.length⟩
  | none => none

/-- A sector after its seal, which keeps the records read from it (R160). A BAD sector stays BAD (log entry 19). -/
def Sector.seal (s : Sector) (records : List Stored) (fails : Bool) : Sector :=
  { s with mark := if fails || s.mark = .bad then .bad else .sealed, records := records, torn := none }

/-- One seal, which can fail its read-back (R160). The BAD mark that then follows is taken as written: it does not fail its own
read-back, and the journal does not go into FAULT (log entry 54). The STORE_FAULT of a failed seal is log entry 23. -/
def Part.sealSector (p : Part) (failedSeals : List Nat) (s : Indexed) (records : List Stored) : Part :=
  let fails := failedSeals.contains s.index && s.sector.mark ≠ .bad
  let q := p.onSector s.index (fun t => t.seal records fails)
  if fails then q.latchStore (.sectorBad s.index) else q

/-- The sector in which the scan ended at a failed record is sealed with the records read from it, and each sector passed
over with none (R160), in ascending sequence number: of several seals that fail, the last gives STORE_FAULT its detail (log entry
23). -/
def Part.sealAll (p : Part) (r : Reading) (failedSeals : List Nat) : Part :=
  match r.failed with
  | none => p
  | some s =>
    r.passedOver.foldl (fun q t => q.sealSector failedSeals t []) (p.sealSector failedSeals s s.sector.records)

/-- The highest sequence number found (R158). -/
def highestSeq (ss : List Sector) : Nat := (ss.filterMap Sector.seq).foldl max 0

/-! ## Starting values (R73, R90, R128, R161, R172) -/

/-- Steps from `base` forward to `n`, counting through 1..`limit` with wrap. -/
def forward (limit base n : Nat) : Nat := if base < n then n - base else n + limit - base

/-- The number farthest forward from `base` among `numbers`, or `base` when there is none (R90, R128). -/
def farthest (limit base : Nat) : List Nat → Nat
  | [] => base
  | n :: rest => rest.foldl (fun best m => if forward limit base best < forward limit base m then m else best) n

/-- The order number of a LINE, VOID_LINE, CLOSE or VOID_ORDER record (R90). -/
def Record.orderNumber? : Record → Option Nat
  | .line n _ _ => some n
  | .voidLine n _ _ => some n
  | .close n _ _ _ _ _ _ => some n
  | .voidOrder n _ _ _ => some n
  | _ => none

/-- The label number of a LINE, CLOSE or REPRINT record, if it carries one (R128). -/
def Record.label? : Record → Option Nat
  | .line _ _ f => f.label
  | .close _ _ _ _ _ label _ => label
  | .reprint label _ _ => some label
  | _ => none

/-- The PRICE_APPLY records without a later PRICE_STORED of their generation, in journal order (R73). -/
def unstored : List Record → List OwedGeneration
  | [] => []
  | .priceApply g es _ :: rest =>
    if rest.any (Record.stores g) then unstored rest else ⟨g, es⟩ :: unstored rest
  | _ :: rest => unstored rest

/-- The generation of a PRICE_APPLY record. -/
def Record.applied? : Record → Option Nat
  | .priceApply g _ _ => some g
  | _ => none

/-- The current generation after a reset: the greater of the article area generation and that of the last PRICE_APPLY
found (R53). -/
def rebuiltGeneration (area : Nat) (rs : List Record) : Nat :=
  max area (((rs.filterMap Record.applied?).getLast?).getD 0)

/-- AT after the scan: the article area rolled forward, with a store-back for each generation rolled forward, in
ascending generation (R73). -/
def Part.rollForward (p : Part) (rs : List Record) : Part :=
  let owed := unstored rs
  let q := { p with art := { p.art with
    table := owed.foldl (fun t o => applyEntries o.generation o.entries t) p.nv.articles
    generation := rebuiltGeneration p.nv.areaGeneration rs } }
  match owed.foldl (fun l o => insertByKey OwedGeneration.generation o l) [] with
  | [] => q
  | o :: later => q.beginStore o later

/-- OM and LU take their numbers (R90, R128). -/
def Part.takeNumbers (p : Part) (close : Option DayClose) (since : List Record) : Part :=
  { p with
    om := { p.om with
      lastNumber := farthest 9999 ((close.map DayClose.lastOrder).getD 0) (since.filterMap Record.orderNumber?) }
    lu := { p.lu with
      lastLabel := farthest Config.max32 ((close.map DayClose.lastLabel).getD 0) (since.filterMap Record.label?) } }

/-- TT takes the day, the grand total and the last close, rebuilds the accumulators, and forms the recovery report (R161,
R162, R172). -/
def Part.takeTotals (p : Part) (close : Option DayClose) (since : List Record) (early : Option EarlyEnd) : Part :=
  let r := rebuild since
  { p with tt := { p.tt with
    counter := .closed
    day := (close.map (fun d => dayAfter d.day)).getD 1
    grandTotal := (close.map DayClose.grandTotalAfter).getD 0
    lastClose := close
    accumulators := r.accumulators
    interrupted := interruptedOf r.interrupted
    report := some ⟨p.ml.cause, early, r.interrupted, false⟩ } }

/-! ## The end of the scan (R161, R192) -/

/-- The number of interrupted orders in the recovery report. -/
def Totals.interruptedOrders (t : Totals) : Nat := ((t.report.map RecoveryReport.orders).getD []).length

/-- Whether RECOVERY_PENDING is latched: an interrupted order, or an early end (R162). -/
def Totals.recoveryPending (t : Totals) : Bool :=
  0 < t.interruptedOrders || (t.report.bind RecoveryReport.early).isSome

/-- RECOVERY_PENDING at the end of the scan (R162). -/
def Part.judgeRecovery (p : Part) : Part :=
  if p.tt.recoveryPending then p.latch .recoveryPending (some (.interrupted p.tt.interruptedOrders)) else p

/-- CLOCK_UNSET at the end of the scan of a POWER_ON (R168). -/
def Part.judgeClock (p : Part) : Part := if p.ml.cause = .powerOn then p.latch .clockUnset none else p

/-- The STARTED notice is sent before any other, and the pending notices follow in the order of Table 67 (R192). -/
def Part.sendStarted (p : Part) : Part :=
  { p with ml := { p.ml with
    notices := Condition.all.filter (fun c => p.ml.notices.contains c)
    sentNotice := some (.started p.ml.cause p.tt.day p.art.generation p.tt.counter p.tt.interruptedOrders) } }

/-- TJ sets its own state: the next sequence number, and the place from which the next sector is looked for (R158,
R160). -/
def Part.takeSectors (p : Part) (ss : List Sector) (r : Reading) (failedSeals : List Nat) : Part :=
  let q := { p with nv := { p.nv with sectors := ss } }
  let t := q.sealAll r failedSeals
  { t with tj := { t.tj with nextSeq := highestSeq ss + 1, openAfter := r.endIndex } }

/-- The valid-from time of the ticket figures is the moment the scan ends (R113). -/
def Part.startFigures (p : Part) : Part := { p with tc := { p.tc with validFrom := p.stamp } }

/-- The start-up scan ends (R158 to R162, R172, R192). -/
def Part.endScan (p : Part) (failedSeals : List Nat) : Part :=
  let ss := surveyed p.nv.sectors
  let r := readSectors (journalSectors ss)
  let d := sinceClose r.records
  let q := (((p.takeSectors ss r failedSeals).rollForward r.records).takeNumbers d.1 d.2).takeTotals d.1 d.2 r.early
  ((q.startFigures.handCallList).judgeErase.judgeRecovery.judgeClock).sendStarted

/-- The start-up scan ends while the counter is STARTING (R164). -/
def Part.scanEnds (p : Part) (failedSeals : List Nat) : Part :=
  if p.tt.counter = .starting then p.endScan failedSeals else p

/-! ## READ RECOVERY (R163) -/

/-- The recovery report is marked as read. -/
def Part.markRead (p : Part) : Part :=
  { p with tt := { p.tt with report := p.tt.report.map (fun r => { r with read := true }) } }

/-- What READ RECOVERY shows of a report at a position: its summary, or an interrupted order. -/
def RecoveryReport.shown (r : RecoveryReport) : Nat → Option ReplyData
  | 0 => some (.recoverySummary r.cause r.early r.orders.length ((r.orders.map InterruptedOrder.value).sum) r.read)
  | n + 1 => r.orders[n]?.map (fun o => .recoveryOrder o r.read)

/-- READ RECOVERY (R163). -/
def serveReadRecovery (position : Nat) (p : Part) : Part × Answer :=
  if 16 < position then (p, .refuse .badValue)
  else
    match p.tt.report.bind (fun r => r.shown position) with
    | none => (p, .refuse .noSuch)
    | some d => (p.markRead, .done d)

/-! ## Commands -/

/-- POWER_ON (R192): the levels of the inputs are what stands outside. -/
def execPowerOn (s : State) : Host.Outcome State Fault Refusal := s.always (fun p => p.reset .powerOn .powerOn)

/-- RESET_LINE (R192). -/
def execResetLine (s : State) : Host.Outcome State Fault Refusal := s.always Part.resetLine

/-- RESET_INPUT_ASSERTED (R192). -/
def execResetInputAsserted (s : State) : Host.Outcome State Fault Refusal :=
  s.always (fun p => { p with inputs := { p.inputs with resetAsserted := true } })

/-- START_UP_SCAN_END (R161). -/
def execStartUpScanEnd (failedSeals : List Nat) (s : State) : Host.Outcome State Fault Refusal :=
  s.act (fun p => p.scanEnds failedSeals)

/-- READ_RECOVERY (R163). -/
def execReadRecovery (tag position : Nat) (s : State) : Host.Outcome State Fault Refusal :=
  s.act (fun p => p.dispatch tag (.readRecovery position) (serveReadRecovery position))

end Sys2Proof.Machine
end

