-- ==== Sys2Proof/Machine/HostPort.lean ====
section
/-! DEFINITION. The host port: frames, notices, HELLO, STATUS, the conditions, and the station settings (R3, R52, R190 to
R195). -/

namespace Sys2Proof.Machine

/-! ## Frames (R190 to R192) -/

/-- The receiver changed. -/
def Part.withReceiver (p : Part) (r : Receiver) : Part := { p with ml := { p.ml with receiver := r } }

/-- The receiver returns to hunting (R190). -/
def Part.hunt (p : Part) : Part := p.withReceiver (.hunting p.now)

/-- The mark that the receiver keeps. -/
def Receiver.mark : Receiver → Nat
  | .hunting t => t
  | .receiving t => t

/-- The check of a frame: over the kind, the tag and the body (Table 65). -/
def frameCheck (f : WireFrame) : BitVec 16 := crc16 (f.kind :: f.tag :: f.body)

/-- Whether the receiver acts on a frame as a RESET PART (R192). -/
def resetsPart (f : Frame) : Bool := f.meaning = .request .resetPart && f.tag != 0

/-- A frame joins the newest end of the input buffer, or is discarded with OVERRUN (R190). -/
def Part.buffer (p : Part) (f : Frame) : Part :=
  if p.ml.buffer.length < Config.maxFrames then { p with ml := { p.ml with buffer := p.ml.buffer ++ [f] } }
  else p.latchLink .overrun

/-- A frame whose check agrees: RESET PART is acted on at once, any other joins the buffer (R190, R192). -/
def Part.acceptFrame (p : Part) (f : Frame) : Part := if resetsPart f then p.resetPart f.tag else p.buffer f

/-- A frame whose start byte came at a mark of the elapsed-time count: the receiver keeps the mark, which does not lie before
the return to hunting (R190, log entry 28). -/
def Part.startFrame (p : Part) (startAt : Nat) : Part := p.withReceiver (.receiving (max startAt p.ml.receiver.mark))

/-- Whether more than 50 ms of the elapsed-time count have passed since the start byte (R170, R190). -/
def Part.frameLate (p : Part) : Bool :=
  match p.ml.receiver with
  | .hunting _ => false
  | .receiving t => t + Config.frameMs < p.now

/-- The end of the reception of a frame (R190): a byte that comes more than 50 ms after the start byte finds the frame
discarded. -/
def Part.receive (p : Part) (f : WireFrame) : Part :=
  if p.frameLate then p.latchLink .timeout
  else if Config.maxBody < f.length.toNat then p.latchLink .overlength
  else if frameCheck f ≠ f.check then p.latchLink .check
  else p.acceptFrame ⟨f.tag.toNat, f.meaning⟩

/-- Whether a dispatched frame is refused with BAD_VALUE before any block sees it: tag 0, a kind that is no host request
kind, or a body that the kind does not take (checks 1 to 3 of R191). -/
def refusable (f : Frame) : Bool :=
  match f.meaning with
  | .request _ => f.tag == 0
  | _ => true

/-- The dispatch of a frame that R191 refuses with BAD_VALUE. -/
def Part.refuseFrame (p : Part) (f : Frame) : Part :=
  match refusable f, p.takeFrame f with
  | true, some q => q.reply f.tag f.meaning (.refused .badValue none)
  | _, _ => p

/-- A whole frame is received. A start byte at a mark that the count has not reached comes now (log entry 4). -/
def Part.takeWireFrame (p : Part) (f : WireFrame) : Part :=
  let q := p.startFrame f.startAt
  ((q.reach q.ml.receiver.mark).receive f).hunt

/-- A frame has not ended 50 ms after its start byte (R170, R190). The command falls at that moment: the start byte came 50 ms
ago, or, when the receiver has not hunted for so long, at its return to hunting, and the 50 ms are then reached (log entries 4
and 28). -/
def Part.frameTimeout (p : Part) : Part :=
  let q := p.startFrame (p.now - Config.frameMs)
  ((q.reach (q.ml.receiver.mark + Config.frameMs)).latchLink .timeout).hunt

/-- HOST_FRAME (R190). -/
def execHostFrame (f : WireFrame) (s : State) : Host.Outcome State Fault Refusal :=
  s.act (fun p => p.takeWireFrame f)

/-- HOST_FRAME_TIMEOUT (R190). -/
def execHostFrameTimeout (s : State) : Host.Outcome State Fault Refusal := s.act Part.frameTimeout

/-- NOT_A_HOST_REQUEST (R191). -/
def execNotAHostRequest (f : Frame) (s : State) : Host.Outcome State Fault Refusal := s.act (fun p => p.refuseFrame f)

/-- BAUD_STRAP_CHANGE (R190): the strap is read at the end of the next reset. -/
def execBaudStrapChange (rate : BaudRate) (s : State) : Host.Outcome State Fault Refusal :=
  s.always (fun p => { p with inputs := { p.inputs with baudStrap := rate } })

/-- RESET_PART (R192): with tag 0 it is taken as any other frame. -/
def execResetPart (tag : Nat) (s : State) : Host.Outcome State Fault Refusal :=
  s.act (fun p => p.acceptFrame ⟨tag, .request .resetPart⟩)

/-! ## Notices (R192, R194) -/

/-- The oldest pending notice is sent, with its detail as it stands; none before STARTED (R192, R194). -/
def Part.sendNotice (p : Part) : Part :=
  match p.tt.counter, p.ml.notices with
  | .starting, _ => p
  | _, [] => p
  | _, c :: rest =>
    { p with ml := { p.ml with
      notices := rest
      sentNotice := some (.condition c (p.ml.latches.get c).detail) } }

/-- NOTICE (R194). -/
def execNotice (s : State) : Host.Outcome State Fault Refusal := s.act Part.sendNotice

/-! ## HELLO and STATUS (R193) -/

/-- Whether the start-up scan has ended. -/
def Part.scanEnded (p : Part) : Bool := p.tt.counter ≠ .starting

/-- The reply of HELLO. -/
def helloReport (p : Part) : Answer :=
  .done (.hello
    { vendor := "Eptilan"
      part := "Gerjal GC-840"
      firmware := Config.firmwareVersion
      cause := p.ml.cause
      baud := p.ml.baud
      scanEnded := p.scanEnded
      elapsedSeconds := min Config.max32 (p.now / 1000) })

/-- A value that is unknown until the scan has rebuilt it (R193). -/
def Part.known {α : Type} (p : Part) (x : α) : Option α := if p.scanEnded then some x else none

/-- The reply of STATUS. -/
def statusReport (p : Part) : Answer :=
  .done (.status
    { counter := p.tt.counter
      conditions := p.setConditions
      frames := p.ml.buffer.length
      links := p.ml.stations.map StationLink.link
      enabled := p.wc.map (fun c => c.config.enabled)
      printers := ⟨p.lu.printers.p1.state, p.lu.printers.p2.state, p.lu.printers.p3.state, p.lu.printers.p4.state⟩
      journalFault := p.known p.tj.fault
      erasedSectors := p.known p.erasedCount
      changeSet := p.art.changeSet.phase
      storeBack := p.known p.art.storeBack.phase
      session := p.cc.session.map Session.station
      calibrationSwitch := p.inputs.calibrationSwitch
      clockValid := p.time.valid })

/-- HELLO (R193). -/
def execHello (tag : Nat) (s : State) : Host.Outcome State Fault Refusal :=
  s.act (fun p => p.dispatch tag .hello (reading helloReport))

/-- STATUS (R193). -/
def execStatus (tag : Nat) (s : State) : Host.Outcome State Fault Refusal :=
  s.act (fun p => p.dispatch tag .status (reading statusReport))

/-! ## Conditions (R195) -/

/-- SET NOTICES. -/
def serveSetNotices (e : Enables) (p : Part) : Part × Answer := (p.setEnables (enablesOf e), .done .nothing)

/-- READ CONDITIONS. -/
def conditionsReport (p : Part) : Answer :=
  .done (.conditions (Condition.all.map (fun c => (c, p.ml.latches.get c, p.ml.enables.get c))))

/-- CLEAR CONDITIONS: `none` stands for a value that is not a condition. -/
def serveClearConditions (named : List (Option Condition)) (p : Part) : Part × Answer :=
  if named.isEmpty || named.any Option.isNone then (p, .refuse .badValue)
  else ((named.filterMap id).foldl Part.clear p, .done .nothing)

/-- SET_NOTICES (R195). -/
def execSetNotices (tag : Nat) (e : Enables) (s : State) : Host.Outcome State Fault Refusal :=
  s.act (fun p => p.dispatch tag (.setNotices e) (serveSetNotices e))

/-- READ_CONDITIONS (R195). -/
def execReadConditions (tag : Nat) (s : State) : Host.Outcome State Fault Refusal :=
  s.act (fun p => p.dispatch tag .readConditions (reading conditionsReport))

/-- CLEAR_CONDITIONS (R195). -/
def execClearConditions (tag : Nat) (named : List (Option Condition)) (s : State) : Host.Outcome State Fault Refusal :=
  s.act (fun p => p.dispatch tag (.clearConditions named) (serveClearConditions named))

/-! ## SET STATION and READ STATION (R3, R10, R25, R52) -/

/-- The depth code written for a depth code 0..7 (R10). -/
def clampDepth (d : Nat) : Nat := max 2 (min 5 d)

/-- The configuration that a SET STATION writes, after check 1 (R3, R10). -/
def configOf (f : StationFields) : Option StationConfig :=
  match PrinterNo.ofNumber f.printer, f.labelMode with
  | some pr, some m =>
    if f.depthCode ≤ 7 then some ⟨f.enabled, pr, clampDepth f.depthCode, f.tareAutoClear, m⟩ else none
  | _, _ => none

/-- Check 2 of SET STATION: a station that would be disabled must have an empty stack and no session (R3). -/
def Part.mayConfigure (p : Part) (st : StationNo) (c : StationConfig) : Bool :=
  !((p.config st).enabled && !c.enabled)
    || ((p.stack st).operator.isNone && (p.cc.session.map Session.station) ≠ some st)

/-- The checks of SET STATION for a station, in their order (R3). -/
def Part.setStationChecks (p : Part) (number : Nat) (f : StationFields) : Except Reason (StationNo × StationConfig) := do
  let st ← need (StationNo.ofNumber number) .badValue
  let c ← need (configOf f) .badValue
  check (p.mayConfigure st c) .busy
  return (st, c)

/-- Whether the two prefixes can be written (R52). -/
def prefixesOk (item total : Nat) : Bool := within 20 29 item && within 20 29 total && item != total

/-- SET STATION (R3, R52). -/
def serveSetStation (body : SetStationBody) (p : Part) : Part × Answer :=
  match body with
  | .prefixes item total => if prefixesOk item total then (p, .later (.setPrefixes item total)) else (p, .refuse .badValue)
  | .station number f =>
    match p.setStationChecks number f with
    | .error r => (p, .refuse r)
    | .ok (st, c) => (p, .later (.setStation st c))

/-- ML stops polling a station that has been disabled: its link is ABSENT, its kept key tag and last reply are gone, and AT
drops its confirmed generation (R25, R69, R197). A wait for the station's poll reply ends here, so that the next station can
be polled at once: R196 ends it by the 2 ms or the end of a reply alone (log entry 55). -/
def Part.disableStation (p : Part) (st : StationNo) : Part :=
  let q := (p.onLink st (fun l => { l with link := .absent, lastReply := none, keptTag := none })).confirm st none
  { q with ml := { q.ml with awaited := q.ml.awaited.filter (fun a => a.station ≠ st) } }

/-- A completed SET STATION (R1, R10, R25). -/
def Part.configureStation (p : Part) (st : StationNo) (c : StationConfig) : Part :=
  let q := (p.onSettings (fun s => { s with configs := s.configs.set st c })).onChannel st (fun x => x.configure c)
  if (p.config st).enabled && !c.enabled then q.disableStation st else q

/-- The settings-area write of a SET STATION ends (R3, R52). -/
def Part.endSetStation (p : Part) (agrees : Bool) : Part :=
  match p.awaitedWrite with
  | some (.setStation st c) =>
    if agrees then (p.configureStation st c).replyHeld (.done (.stationSettings st c)) else p.failSettings
  | some (.setPrefixes item total) =>
    if agrees then
      let q := p.onSettings (fun s => { s with itemPrefix := item, totalPrefix := total })
      Part.replyHeld { q with art := { q.art with itemPrefix := item, totalPrefix := total } }
        (.done (.prefixes item total))
    else p.failSettings
  | _ => p

/-- An entry of a stack as READ STATION reports it (R88). -/
def Part.operatorReport (p : Part) (n : Nat) : OperatorReport := ⟨n, p.clerk n⟩

/-- Whole seconds left before the override deadline (R88). -/
def Part.overrideLeft (p : Part) (st : StationNo) : Option Nat :=
  match p.stack st with
  | .overridden _ _ d => some (secondsLeft d p.now)
  | _ => none

/-- The report of READ STATION for a station (R3, R29, R88, R91, R127). -/
def Part.stationReport (p : Part) (st : StationNo) : StationReport :=
  { config := p.config st
    weighing := (p.wc.get st).weighReport (p.link st)
    entry1 := (p.stack st).operator.map p.operatorReport
    entry2 := (p.stack st).second.map p.operatorReport
    overrideSeconds := p.overrideLeft st
    activeOrder := (p.activeOrder st).map (fun o => (o.number, o.state, o.total))
    calledTicket := (p.tc.called.get st).map (fun c => (c.ticket.number, c.callTime)) }

/-- READ STATION (R3, R52). -/
def readStation (number : Nat) (p : Part) : Answer :=
  if number = 0 then .done (.prefixes p.art.itemPrefix p.art.totalPrefix)
  else
    match StationNo.ofNumber number with
    | none => .refuse .badValue
    | some st => .done (.station (p.stationReport st))

/-- SET_STATION (R3). -/
def execSetStation (tag : Nat) (body : SetStationBody) (s : State) : Host.Outcome State Fault Refusal :=
  s.act (fun p => p.dispatch tag (.setStation body) (serveSetStation body))

/-- SET_STATION_WRITE_DONE (R3). -/
def execSetStationWriteDone (agrees : Bool) (s : State) : Host.Outcome State Fault Refusal :=
  s.act (fun p => p.endSetStation agrees)

/-- READ_STATION (R3). -/
def execReadStation (tag station : Nat) (s : State) : Host.Outcome State Fault Refusal :=
  s.act (fun p => p.dispatch tag (.readStation station) (reading (readStation station)))

end Sys2Proof.Machine
end

