-- ==== Sys2Proof/Machine/HostRequests.lean ====
section
/-! DEFINITION. The commands of the host requests of AT, OC, OM, TC, LU, TJ and TT, and of the ends and deadlines that belong
to them: each dispatches its request to the block that owns it. -/

namespace Sys2Proof.Machine

/-! ## Articles and generations -/

/-- READ_ARTICLE (R36). -/
def execReadArticle (tag number : Nat) (direction : Option Direction) (s : State) : Host.Outcome State Fault Refusal :=
  s.act (fun p => p.dispatch tag (.readArticle number direction) (reading (readArticle number direction)))

/-- BEGIN_CHANGE (R55). -/
def execBeginChange (tag base : Nat) (s : State) : Host.Outcome State Fault Refusal :=
  s.act (fun p => p.dispatch tag (.beginChange base) (serveBeginChange base))

/-- STAGE_PUT (R57). -/
def execStagePut (tag : Nat) (f : ArticleFields) (s : State) : Host.Outcome State Fault Refusal :=
  s.act (fun p => p.dispatch tag (.stagePut f) (serveStagePut f))

/-- STAGE_DELETE (R58). -/
def execStageDelete (tag number : Nat) (s : State) : Host.Outcome State Fault Refusal :=
  s.act (fun p => p.dispatch tag (.stageDelete number) (serveStage (.delete number)))

/-- STAGE_HOLD (R58). -/
def execStageHold (tag number : Nat) (s : State) : Host.Outcome State Fault Refusal :=
  s.act (fun p => p.dispatch tag (.stageHold number) (serveStage (.hold number)))

/-- STAGE_RELEASE (R58). -/
def execStageRelease (tag number : Nat) (s : State) : Host.Outcome State Fault Refusal :=
  s.act (fun p => p.dispatch tag (.stageRelease number) (serveStage (.release number)))

/-- DISCARD_CHANGE (R60). -/
def execDiscardChange (tag : Nat) (s : State) : Host.Outcome State Fault Refusal :=
  s.act (fun p => p.dispatch tag .discardChange serveDiscardChange)

/-- CHANGE_STATUS (R61). -/
def execChangeStatus (tag : Nat) (s : State) : Host.Outcome State Fault Refusal :=
  s.act (fun p => p.dispatch tag .changeStatus serveChangeStatus)

/-- APPLY_NOW (R62). -/
def execApplyNow (tag : Nat) (s : State) : Host.Outcome State Fault Refusal :=
  s.act (fun p => p.dispatch tag .applyNow serveApplyNow)

/-- APPLY_AT (R63). -/
def execApplyAt (tag hour minute second : Nat) (s : State) : Host.Outcome State Fault Refusal :=
  s.act (fun p => p.dispatch tag (.applyAt hour minute second) (serveApplyAt hour minute second))

/-- CHANGE_SET_EXPIRY (R59). -/
def execChangeSetExpiry (s : State) : Host.Outcome State Fault Refusal := s.act Part.expireChangeSet

/-- SCHEDULED_TIME_REACHED (R64, R171). -/
def execScheduledTimeReached (s : State) : Host.Outcome State Fault Refusal := s.act Part.scheduledTime

/-! ## Operators -/

/-- SET_CLERK (R75). -/
def execSetClerk (tag number : Nat) (role : Option Role) (name : Text) (s : State) : Host.Outcome State Fault Refusal :=
  s.act (fun p => p.dispatch tag (.setClerk number role name) (serveSetClerk number role name))

/-- SET_CLERK_WRITE_DONE (R75). -/
def execSetClerkWriteDone (agrees : Bool) (s : State) : Host.Outcome State Fault Refusal :=
  s.act (fun p => p.endSetClerk agrees)

/-- REMOVE_CLERK (R76). -/
def execRemoveClerk (tag number : Nat) (s : State) : Host.Outcome State Fault Refusal :=
  s.act (fun p => p.dispatch tag (.removeClerk number) (serveRemoveClerk number))

/-- REMOVE_CLERK_WRITE_DONE (R76). -/
def execRemoveClerkWriteDone (agrees : Bool) (s : State) : Host.Outcome State Fault Refusal :=
  s.act (fun p => p.endRemoveClerk agrees)

/-- SIGN_OFF_CLERK (R83). -/
def execSignOffClerk (tag number : Nat) (s : State) : Host.Outcome State Fault Refusal :=
  s.act (fun p => p.dispatch tag (.signOffClerk number) (serveSignOffClerk number))

/-! ## Orders, tickets, printers, journal -/

/-- READ_ORDER (R112). -/
def execReadOrder (tag number : Nat) (s : State) : Host.Outcome State Fault Refusal :=
  s.act (fun p => p.dispatch tag (.readOrder number) (reading (readOrder number)))

/-- HOST_VOID_ORDER (R109). -/
def execHostVoidOrder (tag number : Nat) (s : State) : Host.Outcome State Fault Refusal :=
  s.act (fun p => p.dispatch tag (.voidOrder number) (serveVoidOrder number))

/-- READ_QUEUE (R126). -/
def execReadQueue (tag : Nat) (part : Option QueuePart) (s : State) : Host.Outcome State Fault Refusal :=
  s.act (fun p => p.dispatch tag (.readQueue part) (reading (readQueue part)))

/-- MOVE_JOBS (R140). -/
def execMoveJobs (tag source target : Nat) (s : State) : Host.Outcome State Fault Refusal :=
  s.act (fun p => p.dispatch tag (.moveJobs source target) (serveMoveJobs source target))

/-- CANCEL_JOBS (R141). -/
def execCancelJobs (tag printer : Nat) (s : State) : Host.Outcome State Fault Refusal :=
  s.act (fun p => p.dispatch tag (.cancelJobs printer) (serveCancelJobs printer))

/-- READ_PRINTERS (R142). -/
def execReadPrinters (tag : Nat) (part : Option PrintersPart) (s : State) : Host.Outcome State Fault Refusal :=
  s.act (fun p => p.dispatch tag (.readPrinters part) (reading (readPrinters part)))

/-- READ_JOURNAL (R157). -/
def execReadJournal (tag index : Nat) (entry : Option Nat) (s : State) : Host.Outcome State Fault Refusal :=
  s.act (fun p => p.dispatch tag (.readJournal index entry) (reading (readJournal index entry)))

/-! ## Counter, clock and totals -/

/-- OPEN_COUNTER (R165). -/
def execOpenCounter (tag : Nat) (s : State) : Host.Outcome State Fault Refusal :=
  s.act (fun p => p.dispatch tag .openCounter serveOpenCounter)

/-- PAUSE_COUNTER (R166). -/
def execPauseCounter (tag : Nat) (s : State) : Host.Outcome State Fault Refusal :=
  s.act (fun p => p.dispatch tag .pauseCounter servePauseCounter)

/-- CLOSE_COUNTER (R167). -/
def execCloseCounter (tag : Nat) (s : State) : Host.Outcome State Fault Refusal :=
  s.act (fun p => p.dispatch tag .closeCounter serveCloseCounter)

/-- SET_CLOCK (R169). -/
def execSetClock (tag year month day hour minute second : Nat) (s : State) : Host.Outcome State Fault Refusal :=
  s.act (fun p => p.dispatch tag (.setClock year month day hour minute second)
    (serveSetClock year month day hour minute second))

/-- READ_TOTALS (R176). -/
def execReadTotals (tag : Nat) (part : Option TotalsPart) (s : State) : Host.Outcome State Fault Refusal :=
  s.act (fun p => p.dispatch tag (.readTotals part) (reading (readTotals part)))

/-- DAY_CLOSE (R177). -/
def execDayClose (tag : Nat) (s : State) : Host.Outcome State Fault Refusal :=
  s.act (fun p => p.dispatch tag .dayClose serveDayClose)

/-- READ_CLOSE (R180). -/
def execReadClose (tag : Nat) (s : State) : Host.Outcome State Fault Refusal :=
  s.act (fun p => p.dispatch tag .readClose (reading readClose))

end Sys2Proof.Machine
end

