-- ==== Sys2Proof/Machine/StationBus.lean ====
section
/-! DEFINITION. The station bus: polls, replies, key requests and link changes (R196 to R198). -/

namespace Sys2Proof.Machine

/-! ## Polls (R196, R198) -/

/-- The stations in the order in which the next poll is looked for: those after the station last polled, then the others
in ascending number (R196). -/
def pollOrder (last : Option StationNo) : List StationNo :=
  match last with
  | none => StationNo.all
  | some s =>
    StationNo.all.filter (fun t => s.number < t.number) ++ StationNo.all.filter (fun t => t.number ≤ s.number)

/-- The station polled next: the first enabled one. -/
def Part.nextPolled (p : Part) : Option StationNo := (pollOrder p.ml.lastPolled).find? (fun st => (p.config st).enabled)

/-- The message code of a poll (R198). -/
def Part.messageCode (p : Part) (st : StationNo) : MessageCode :=
  if (p.ml.stations.get st).storeError then .storeFault
  else
    match p.tt.counter with
    | .starting => .starting
    | .paused => .paused
    | .closed => .closed
    | .closedClosing => .closed
    | .trading => .none

/-- The price preview of a station: blank without a selection (R48). -/
def Part.preview (p : Part) (st : StationNo) : Preview :=
  match p.selected st with
  | none => .blank
  | some a => previewOf a (p.art.selections.get st) ((p.wc.get st).weightField (p.link st))

/-- The content of a poll, composed from WC, AT and ML as they stand (Table 68). Stability is no in NO_LINK (R22). -/
def Part.poll (p : Part) (st : StationNo) : Poll :=
  { weight := (p.wc.get st).weightField (p.link st)
    stable := p.link st = .present && (p.wc.get st).stable
    net := (p.wc.get st).netMark (p.link st)
    zero := (p.wc.get st).zeroMark (p.link st)
    name := (p.selected st).map Article.name
    unitPrice := (p.selected st).map Article.unitPrice
    preview := p.preview st
    overrideMark := (p.art.selections.get st).override.isSome
    generation := p.art.generation
    code := p.messageCode st
    sequence := (p.ml.stations.get st).sequence
    outcomes := (p.ml.stations.get st).outcomes }

/-- The next enabled station is polled, when no reply is awaited (R196). -/
def Part.sendPoll (p : Part) : Part :=
  match p.ml.awaited, p.nextPolled with
  | none, some st =>
    { p with ml := { p.ml with
      sentPoll := some (st, p.poll st)
      lastPolled := some st
      awaited := some ⟨st, p.now⟩ } }
  | _, _ => p

/-- STATION_POLL (R196). -/
def execStationPoll (s : State) : Host.Outcome State Fault Refusal := s.act Part.sendPoll

/-! ## Key requests (R197, R198) -/

/-- The outcome of a key request as the list carries it, with the part after it: a refusal changes nothing. -/
def Part.keyOutcome (p : Part) (tag : Nat) (r : Served) : Part × KeyOutcome :=
  match r with
  | .ok (q, d) => (q, ⟨tag, .accepted d⟩)
  | .error e => (p, ⟨tag, .refused e⟩)

/-- One key request of a reply (R197): a retransmission is not served; any other is handed to OC, and its tag kept. The
outcomes so far are carried along. -/
def takeKey (st : StationNo) (acc : Part × List KeyOutcome) (tag : Nat) (k : Key) : Part × List KeyOutcome :=
  if (acc.1.ml.stations.get st).keptTag = some tag then acc
  else
    let p := acc.1.onLink st (fun l => { l with keptTag := some tag })
    ((p.keyOutcome tag (p.serveKey st k)).1, acc.2 ++ [(p.keyOutcome tag (p.serveKey st k)).2])

/-- The outcome list is replaced by the outcomes of the requests served, when there is one: the sequence rises and the store
error mark becomes no (R198). A retransmission beside a new request gives none, and its earlier outcome leaves the list (log
entry 58). -/
def Part.replaceOutcomes (p : Part) (st : StationNo) (outcomes : List KeyOutcome) : Part :=
  if outcomes.isEmpty then p
  else p.onLink st (fun l =>
    { l with sequence := (l.sequence + 1) % 256, outcomes := outcomes, storeError := false })

/-- The key requests of a reply, one after another (R197, R198). -/
def Part.takeKeys (p : Part) (st : StationNo) (keys : List (Nat × Key)) : Part :=
  let r := keys.foldl (fun acc k => takeKey st acc k.1 k.2) (p, [])
  r.1.replaceOutcomes st r.2

/-- A key request of a station on its own: it travels in a valid reply, so the link is PRESENT (R22, log entry 13). -/
def Part.keyRequest (p : Part) (st : StationNo) (tag : Nat) (k : Key) : Part :=
  if p.link st = .present && within 1 255 tag then p.takeKeys st [(tag, k)] else p

/-! ## Replies (R23, R69, R196, R197) -/

/-- Whether the key tags are 1..255 and none stands twice (Table 69, R196). -/
def keyTagsOk (keys : List KeyRequest) : Bool :=
  keys.all (fun k => within 1 255 k.tag) && (keys.map KeyRequest.tag).Nodup

/-- Whether the content of a reply keeps Tables 69 and 70 (R196). -/
def replyContentOk (r : StationReply) : Bool :=
  r.samples.length ≤ 4 && r.samples.all (fun x => -8388608 ≤ x && x ≤ 8388607) && r.displayedGeneration ≤ Config.max32
    && r.keys.length ≤ 2 && keyTagsOk r.keys && r.keys.all (fun k => k.key.isSome)

/-- The station whose valid reply this is: the one polled, in time, with a check that agrees (R196). -/
def Part.replyingStation (p : Part) (r : StationReply) : Option StationNo :=
  match p.ml.awaited with
  | none => none
  | some a =>
    if r.address = a.station.number && r.checkAgrees && replyContentOk r && p.now ≤ a.sentAt + Config.replyMs
    then some a.station else none

/-- The link becomes PRESENT, if it was not: from ABSENT the channel starts from its reset contents (R23). -/
def Part.linkPresent (p : Part) (st : StationNo) : Part :=
  let q := if p.link st = .absent then p.onChannel st Channel.restart else p
  q.onLink st (fun l => { l with link := .present, lastReply := some p.now })

/-- The samples of a reply, in the order it lists them (R6). -/
def Part.takeSamples (p : Part) (st : StationNo) (samples : List Int) : Part :=
  p.onChannel st (fun c => samples.foldl (fun c x => c.takeSample p.now x) c)

/-- The key requests of a reply that keeps Table 70. -/
def namedKeys (keys : List KeyRequest) : List (Nat × Key) := keys.filterMap (fun k => k.key.map (fun x => (k.tag, x)))

/-- A valid reply is taken: the link, the displayed generation, the samples, and then the key requests (R197). -/
def Part.takeReply (p : Part) (st : StationNo) (r : StationReply) : Part :=
  (((p.linkPresent st).confirm st (some r.displayedGeneration)).takeSamples st r.samples).takeKeys st (namedKeys r.keys)

/-- No reply is awaited any more: the next station can be polled (R196). -/
def Part.endAwait (p : Part) : Part := { p with ml := { p.ml with awaited := none } }

/-- A reply on the station bus has ended, so that no reply is awaited any more. One that is not valid is discarded and
changes nothing else (R196). -/
def Part.stationReply (p : Part) (r : StationReply) : Part :=
  match p.replyingStation r with
  | none => p.endAwait
  | some st => p.endAwait.takeReply st r

/-- STATION_REPLY (R197). -/
def execStationReply (r : StationReply) (s : State) : Host.Outcome State Fault Refusal :=
  s.act (fun p => p.stationReply r)

/-- No reply within 2 ms of the poll: the next station can be polled (R196). -/
def Part.replyTimeout (p : Part) : Part :=
  match p.ml.awaited with
  | none => p
  | some a => (p.reach (a.sentAt + Config.replyMs)).endAwait

/-- STATION_REPLY_TIMEOUT (R196). -/
def execStationReplyTimeout (s : State) : Host.Outcome State Fault Refusal := s.act Part.replyTimeout

/-- 500 ms without a valid reply: the PRESENT link becomes STALE, STATION_LOST is latched, and WC, AT, OC and CC are told
(R24, R69, R87, R183, R196). -/
def Part.stale (p : Part) (st : StationNo) : Part :=
  match p.link st, (p.ml.stations.get st).lastReply with
  | .present, some t =>
    let q := ((p.reach (t + Config.staleMs)).onLink st (fun l => { l with link := .stale })).latch .stationLost
      (some (.station st))
    ((((q.onChannel st Channel.filterRestart).confirm st none).endOverride st).staleSession st)
  | _, _ => p

/-- STATION_STALE (R196). -/
def execStationStale (st : StationNo) (s : State) : Host.Outcome State Fault Refusal := s.act (fun p => p.stale st)

/-! ## The key requests of Table 70, one by one -/

/-- SIGN_ON (R80). -/
def execSignOn (st : StationNo) (tag clerk : Nat) (s : State) : Host.Outcome State Fault Refusal :=
  s.act (fun p => p.keyRequest st tag (.signOn clerk))

/-- SIGN_OFF (R81). -/
def execSignOff (st : StationNo) (tag : Nat) (s : State) : Host.Outcome State Fault Refusal :=
  s.act (fun p => p.keyRequest st tag .signOff)

/-- OVERRIDE (R84). -/
def execOverride (st : StationNo) (tag supervisor : Nat) (s : State) : Host.Outcome State Fault Refusal :=
  s.act (fun p => p.keyRequest st tag (.override supervisor))

/-- END_OVERRIDE (R86). -/
def execEndOverride (st : StationNo) (tag : Nat) (s : State) : Host.Outcome State Fault Refusal :=
  s.act (fun p => p.keyRequest st tag .endOverride)

/-- OVERRIDE_DEADLINE (R87). -/
def execOverrideDeadline (st : StationNo) (s : State) : Host.Outcome State Fault Refusal :=
  s.act (fun p => p.overrideDeadline st)

/-- SELECT (R38). -/
def execSelect (st : StationNo) (tag article : Nat) (s : State) : Host.Outcome State Fault Refusal :=
  s.act (fun p => p.keyRequest st tag (.select article))

/-- QUANTITY (R39). -/
def execQuantity (st : StationNo) (tag count : Nat) (s : State) : Host.Outcome State Fault Refusal :=
  s.act (fun p => p.keyRequest st tag (.quantity count))

/-- REPEAT (R40). -/
def execRepeatEntry (st : StationNo) (tag : Nat) (s : State) : Host.Outcome State Fault Refusal :=
  s.act (fun p => p.keyRequest st tag .repeatEntry)

/-- PRICE_OVERRIDE (R46). -/
def execPriceOverride (st : StationNo) (tag price : Nat) (s : State) : Host.Outcome State Fault Refusal :=
  s.act (fun p => p.keyRequest st tag (.priceOverride price))

/-- ZERO (R14, R15). -/
def execZero (st : StationNo) (tag : Nat) (s : State) : Host.Outcome State Fault Refusal :=
  s.act (fun p => p.keyRequest st tag .zero)

/-- TARE (R19). -/
def execTare (st : StationNo) (tag : Nat) (s : State) : Host.Outcome State Fault Refusal :=
  s.act (fun p => p.keyRequest st tag .tare)

/-- CLEAR_TARE (R21). -/
def execClearTare (st : StationNo) (tag : Nat) (s : State) : Host.Outcome State Fault Refusal :=
  s.act (fun p => p.keyRequest st tag .clearTare)

/-- ADD_LINE (R96, R99). -/
def execAddLine (st : StationNo) (tag : Nat) (s : State) : Host.Outcome State Fault Refusal :=
  s.act (fun p => p.keyRequest st tag .addLine)

/-- OPEN_ORDER (R94). -/
def execOpenOrder (st : StationNo) (tag : Nat) (s : State) : Host.Outcome State Fault Refusal :=
  s.act (fun p => p.keyRequest st tag .openOrder)

/-- PARK (R103). -/
def execPark (st : StationNo) (tag : Nat) (s : State) : Host.Outcome State Fault Refusal :=
  s.act (fun p => p.keyRequest st tag .park)

/-- RESUME (R104). -/
def execResume (st : StationNo) (tag order : Nat) (s : State) : Host.Outcome State Fault Refusal :=
  s.act (fun p => p.keyRequest st tag (.resume order))

/-- CLOSE_ORDER (R106). -/
def execCloseOrder (st : StationNo) (tag : Nat) (s : State) : Host.Outcome State Fault Refusal :=
  s.act (fun p => p.keyRequest st tag .closeOrder)

/-- VOID_LINE (R105). -/
def execVoidLine (st : StationNo) (tag index : Nat) (s : State) : Host.Outcome State Fault Refusal :=
  s.act (fun p => p.keyRequest st tag (.voidLine index))

/-- VOID_ORDER at a station (R109). -/
def execVoidOrder (st : StationNo) (tag : Nat) (order : Option Nat) (s : State) : Host.Outcome State Fault Refusal :=
  s.act (fun p => p.keyRequest st tag (.voidOrder order))

/-- REPRINT (R143). -/
def execReprint (st : StationNo) (tag index : Nat) (s : State) : Host.Outcome State Fault Refusal :=
  s.act (fun p => p.keyRequest st tag (.reprint index))

/-- NEXT (R116). -/
def execNext (st : StationNo) (tag : Nat) (s : State) : Host.Outcome State Fault Refusal :=
  s.act (fun p => p.keyRequest st tag .next)

/-- RECALL (R117). -/
def execRecall (st : StationNo) (tag ticket : Nat) (s : State) : Host.Outcome State Fault Refusal :=
  s.act (fun p => p.keyRequest st tag (.recall ticket))

end Sys2Proof.Machine
end

