-- ==== Sys2Proof/Machine/Peripherals.lean ====
section
/-! DEFINITION. The dispenser, call display and printer ports (R118, R135 to R139, R199, R200). -/

namespace Sys2Proof.Machine

/-- A TAKE on a dispenser port: one whose check fails is discarded, and a take tag lies within 1..255 (section 11.6,
R199). -/
def Part.receiveTake (p : Part) (d : DispenserNo) (tag : Nat) (checkAgrees : Bool) : Part :=
  if checkAgrees && within 1 255 tag then p.take d tag else p

/-- The oldest call list handed over is sent to the display (R200). -/
def Part.sendCalls (p : Part) : Part :=
  match p.ml.display with
  | [] => p
  | calls :: rest => { p with ml := { p.ml with display := rest, sentCalls := some calls } }

/-- A reply on a printer port: one whose check fails is discarded and counts as no reply (R136). -/
def Part.receivePrinter (p : Part) (pr : PrinterNo) (status : PrinterStatus) (checkAgrees : Bool) : Part :=
  if checkAgrees then p.printerReply pr status else p

/-- TAKE (R114, R199). -/
def execTake (d : DispenserNo) (tag : Nat) (checkAgrees : Bool) (s : State) : Host.Outcome State Fault Refusal :=
  s.act (fun p => p.receiveTake d tag checkAgrees)

/-- MISSED_TICKET_EXPIRY (R118). -/
def execMissedTicketExpiry (ticket : Nat) (s : State) : Host.Outcome State Fault Refusal :=
  s.act (fun p => p.expireMissed ticket)

/-- CALLS (R200). -/
def execCalls (s : State) : Host.Outcome State Fault Refusal := s.act Part.sendCalls

/-- PRINTER_STATUS_SEND (R136). -/
def execPrinterStatusSend (pr : PrinterNo) (s : State) : Host.Outcome State Fault Refusal :=
  s.act (fun p => p.sendStatus pr)

/-- LABEL_SEND (R135). -/
def execLabelSend (pr : PrinterNo) (s : State) : Host.Outcome State Fault Refusal := s.act (fun p => p.sendLabel pr)

/-- PRINTER_REPLY (R137). -/
def execPrinterReply (pr : PrinterNo) (status : PrinterStatus) (checkAgrees : Bool) (s : State) :
    Host.Outcome State Fault Refusal :=
  s.act (fun p => p.receivePrinter pr status checkAgrees)

/-- PRINTER_MESSAGE_GIVE_UP (R136). -/
def execPrinterMessageGiveUp (pr : PrinterNo) (s : State) : Host.Outcome State Fault Refusal :=
  s.act (fun p => p.giveUp pr)

/-- PRINTER_OFFLINE (R136). -/
def execPrinterOffline (pr : PrinterNo) (s : State) : Host.Outcome State Fault Refusal :=
  s.act (fun p => p.printerOffline pr)

end Sys2Proof.Machine
end

