-- ==== Sys2Proof/Machine/Dispatch.lean ====
section
/-! DEFINITION. The meaning of every command: one arm for each constructor of Instr. -/

namespace Sys2Proof.Machine

def exec (i : Instr) (s : State) : Host.Outcome State Fault Refusal :=
  match i with
  | .powerOn => Sys2Proof.Machine.execPowerOn s
  | .resetLine => Sys2Proof.Machine.execResetLine s
  | .resetPart tag => Sys2Proof.Machine.execResetPart tag s
  | .startUpScanEnd failedSeals => Sys2Proof.Machine.execStartUpScanEnd failedSeals s
  | .hostFrame f => Sys2Proof.Machine.execHostFrame f s
  | .hostFrameTimeout => Sys2Proof.Machine.execHostFrameTimeout s
  | .notAHostRequest f => Sys2Proof.Machine.execNotAHostRequest f s
  | .baudStrapChange rate => Sys2Proof.Machine.execBaudStrapChange rate s
  | .notice => Sys2Proof.Machine.execNotice s
  | .hello tag => Sys2Proof.Machine.execHello tag s
  | .status tag => Sys2Proof.Machine.execStatus tag s
  | .setNotices tag e => Sys2Proof.Machine.execSetNotices tag e s
  | .readConditions tag => Sys2Proof.Machine.execReadConditions tag s
  | .clearConditions tag named => Sys2Proof.Machine.execClearConditions tag named s
  | .setStation tag body => Sys2Proof.Machine.execSetStation tag body s
  | .setStationWriteDone agrees => Sys2Proof.Machine.execSetStationWriteDone agrees s
  | .readStation tag station => Sys2Proof.Machine.execReadStation tag station s
  | .readArticle tag number direction => Sys2Proof.Machine.execReadArticle tag number direction s
  | .beginChange tag base => Sys2Proof.Machine.execBeginChange tag base s
  | .stagePut tag f => Sys2Proof.Machine.execStagePut tag f s
  | .stageDelete tag number => Sys2Proof.Machine.execStageDelete tag number s
  | .stageHold tag number => Sys2Proof.Machine.execStageHold tag number s
  | .stageRelease tag number => Sys2Proof.Machine.execStageRelease tag number s
  | .discardChange tag => Sys2Proof.Machine.execDiscardChange tag s
  | .changeStatus tag => Sys2Proof.Machine.execChangeStatus tag s
  | .applyNow tag => Sys2Proof.Machine.execApplyNow tag s
  | .applyAt tag hour minute second => Sys2Proof.Machine.execApplyAt tag hour minute second s
  | .changeSetExpiry => Sys2Proof.Machine.execChangeSetExpiry s
  | .scheduledTimeReached => Sys2Proof.Machine.execScheduledTimeReached s
  | .setClerk tag number role name => Sys2Proof.Machine.execSetClerk tag number role name s
  | .setClerkWriteDone agrees => Sys2Proof.Machine.execSetClerkWriteDone agrees s
  | .removeClerk tag number => Sys2Proof.Machine.execRemoveClerk tag number s
  | .removeClerkWriteDone agrees => Sys2Proof.Machine.execRemoveClerkWriteDone agrees s
  | .signOffClerk tag number => Sys2Proof.Machine.execSignOffClerk tag number s
  | .readOrder tag number => Sys2Proof.Machine.execReadOrder tag number s
  | .hostVoidOrder tag number => Sys2Proof.Machine.execHostVoidOrder tag number s
  | .readQueue tag part => Sys2Proof.Machine.execReadQueue tag part s
  | .moveJobs tag source target => Sys2Proof.Machine.execMoveJobs tag source target s
  | .cancelJobs tag printer => Sys2Proof.Machine.execCancelJobs tag printer s
  | .readPrinters tag part => Sys2Proof.Machine.execReadPrinters tag part s
  | .readJournal tag index entry => Sys2Proof.Machine.execReadJournal tag index entry s
  | .readRecovery tag position => Sys2Proof.Machine.execReadRecovery tag position s
  | .openCounter tag => Sys2Proof.Machine.execOpenCounter tag s
  | .pauseCounter tag => Sys2Proof.Machine.execPauseCounter tag s
  | .closeCounter tag => Sys2Proof.Machine.execCloseCounter tag s
  | .setClock tag year month day hour minute second => Sys2Proof.Machine.execSetClock tag year month day hour minute second s
  | .readTotals tag part => Sys2Proof.Machine.execReadTotals tag part s
  | .dayClose tag => Sys2Proof.Machine.execDayClose tag s
  | .readClose tag => Sys2Proof.Machine.execReadClose tag s
  | .calBegin tag station => Sys2Proof.Machine.execCalBegin tag station s
  | .calAbort tag => Sys2Proof.Machine.execCalAbort tag s
  | .calZero tag => Sys2Proof.Machine.execCalZero tag s
  | .calSpan tag load => Sys2Proof.Machine.execCalSpan tag load s
  | .calIntervals tag max b e1 e2 => Sys2Proof.Machine.execCalIntervals tag max b e1 e2 s
  | .calCommit tag => Sys2Proof.Machine.execCalCommit tag s
  | .calAuditWriteDone agrees => Sys2Proof.Machine.execCalAuditWriteDone agrees s
  | .calRecordWriteDone agrees => Sys2Proof.Machine.execCalRecordWriteDone agrees s
  | .calGapExpiry => Sys2Proof.Machine.execCalGapExpiry s
  | .calibrationSwitchRelease => Sys2Proof.Machine.execCalibrationSwitchRelease s
  | .calibrationSwitchAssert => Sys2Proof.Machine.execCalibrationSwitchAssert s
  | .readAudit tag position => Sys2Proof.Machine.execReadAudit tag position s
  | .stationPoll => Sys2Proof.Machine.execStationPoll s
  | .stationReply reply => Sys2Proof.Machine.execStationReply reply s
  | .stationReplyTimeout => Sys2Proof.Machine.execStationReplyTimeout s
  | .stationStale station => Sys2Proof.Machine.execStationStale station s
  | .signOn station keyTag clerk => Sys2Proof.Machine.execSignOn station keyTag clerk s
  | .signOff station keyTag => Sys2Proof.Machine.execSignOff station keyTag s
  | .override station keyTag supervisor => Sys2Proof.Machine.execOverride station keyTag supervisor s
  | .endOverride station keyTag => Sys2Proof.Machine.execEndOverride station keyTag s
  | .overrideDeadline station => Sys2Proof.Machine.execOverrideDeadline station s
  | .select station keyTag article => Sys2Proof.Machine.execSelect station keyTag article s
  | .quantity station keyTag count => Sys2Proof.Machine.execQuantity station keyTag count s
  | .repeatEntry station keyTag => Sys2Proof.Machine.execRepeatEntry station keyTag s
  | .priceOverride station keyTag price => Sys2Proof.Machine.execPriceOverride station keyTag price s
  | .zero station keyTag => Sys2Proof.Machine.execZero station keyTag s
  | .tare station keyTag => Sys2Proof.Machine.execTare station keyTag s
  | .clearTare station keyTag => Sys2Proof.Machine.execClearTare station keyTag s
  | .addLine station keyTag => Sys2Proof.Machine.execAddLine station keyTag s
  | .openOrder station keyTag => Sys2Proof.Machine.execOpenOrder station keyTag s
  | .park station keyTag => Sys2Proof.Machine.execPark station keyTag s
  | .resume station keyTag order => Sys2Proof.Machine.execResume station keyTag order s
  | .closeOrder station keyTag => Sys2Proof.Machine.execCloseOrder station keyTag s
  | .voidLine station keyTag index => Sys2Proof.Machine.execVoidLine station keyTag index s
  | .voidOrder station keyTag order => Sys2Proof.Machine.execVoidOrder station keyTag order s
  | .reprint station keyTag index => Sys2Proof.Machine.execReprint station keyTag index s
  | .next station keyTag => Sys2Proof.Machine.execNext station keyTag s
  | .recall station keyTag ticket => Sys2Proof.Machine.execRecall station keyTag ticket s
  | .missedTicketExpiry ticket => Sys2Proof.Machine.execMissedTicketExpiry ticket s
  | .take dispenser takeTag checkAgrees => Sys2Proof.Machine.execTake dispenser takeTag checkAgrees s
  | .calls => Sys2Proof.Machine.execCalls s
  | .printerStatusSend printer => Sys2Proof.Machine.execPrinterStatusSend printer s
  | .labelSend printer => Sys2Proof.Machine.execLabelSend printer s
  | .printerReply printer status checkAgrees => Sys2Proof.Machine.execPrinterReply printer status checkAgrees s
  | .printerMessageGiveUp printer => Sys2Proof.Machine.execPrinterMessageGiveUp printer s
  | .printerOffline printer => Sys2Proof.Machine.execPrinterOffline printer s
  | .appendStart => Sys2Proof.Machine.execAppendStart s
  | .lineWritten => Sys2Proof.Machine.execLineWritten s
  | .voidLineWritten => Sys2Proof.Machine.execVoidLineWritten s
  | .closeWritten => Sys2Proof.Machine.execCloseWritten s
  | .voidOrderWritten => Sys2Proof.Machine.execVoidOrderWritten s
  | .reprintWritten => Sys2Proof.Machine.execReprintWritten s
  | .priceApplyWritten => Sys2Proof.Machine.execPriceApplyWritten s
  | .articleAreaWriteDone agrees generationAgrees => Sys2Proof.Machine.execArticleAreaWriteDone agrees generationAgrees s
  | .priceStoredWritten => Sys2Proof.Machine.execPriceStoredWritten s
  | .dayCloseWritten => Sys2Proof.Machine.execDayCloseWritten s
  | .appendReadbackFail markAgrees => Sys2Proof.Machine.execAppendReadbackFail markAgrees s
  | .eraseStart => Sys2Proof.Machine.execEraseStart s
  | .eraseResume => Sys2Proof.Machine.execEraseResume s
  | .eraseDone agrees => Sys2Proof.Machine.execEraseDone agrees s
  | .resetInputAsserted => Sys2Proof.Machine.execResetInputAsserted s

end Sys2Proof.Machine
end

