-- ==== Sys2Proof/Safety.lean ====
section
/-! DEFINITION. The terms in which the statements speak: which commands are host requests and key requests, when the part takes
one, what a reply and an outcome leave, and the laws that the manual says the part keeps. -/

namespace Sys2Proof

/-- The tag and the request of a command that is a host request. RESET PART is acted on in the receiver (R192). -/
def Instr.hostRequest? : Instr → Option (Nat × HostRequest)
  | .hello tag => some (tag, .hello)
  | .status tag => some (tag, .status)
  | .setNotices tag enables => some (tag, .setNotices enables)
  | .readConditions tag => some (tag, .readConditions)
  | .clearConditions tag named => some (tag, .clearConditions named)
  | .setStation tag body => some (tag, .setStation body)
  | .readStation tag station => some (tag, .readStation station)
  | .readArticle tag number direction => some (tag, .readArticle number direction)
  | .beginChange tag base => some (tag, .beginChange base)
  | .stagePut tag fields => some (tag, .stagePut fields)
  | .stageDelete tag number => some (tag, .stageDelete number)
  | .stageHold tag number => some (tag, .stageHold number)
  | .stageRelease tag number => some (tag, .stageRelease number)
  | .discardChange tag => some (tag, .discardChange)
  | .changeStatus tag => some (tag, .changeStatus)
  | .applyNow tag => some (tag, .applyNow)
  | .applyAt tag hour minute second => some (tag, .applyAt hour minute second)
  | .setClerk tag number role name => some (tag, .setClerk number role name)
  | .removeClerk tag number => some (tag, .removeClerk number)
  | .signOffClerk tag number => some (tag, .signOffClerk number)
  | .readOrder tag number => some (tag, .readOrder number)
  | .hostVoidOrder tag number => some (tag, .voidOrder number)
  | .readQueue tag part => some (tag, .readQueue part)
  | .moveJobs tag source target => some (tag, .moveJobs source target)
  | .cancelJobs tag printer => some (tag, .cancelJobs printer)
  | .readPrinters tag part => some (tag, .readPrinters part)
  | .readJournal tag index entry => some (tag, .readJournal index entry)
  | .readRecovery tag position => some (tag, .readRecovery position)
  | .openCounter tag => some (tag, .openCounter)
  | .pauseCounter tag => some (tag, .pauseCounter)
  | .closeCounter tag => some (tag, .closeCounter)
  | .setClock tag year month day hour minute second => some (tag, .setClock year month day hour minute second)
  | .readTotals tag part => some (tag, .readTotals part)
  | .dayClose tag => some (tag, .dayClose)
  | .readClose tag => some (tag, .readClose)
  | .calBegin tag station => some (tag, .calBegin station)
  | .calAbort tag => some (tag, .calAbort)
  | .calZero tag => some (tag, .calZero)
  | .calSpan tag load => some (tag, .calSpan load)
  | .calIntervals tag max b e1 e2 => some (tag, .calIntervals max b e1 e2)
  | .calCommit tag => some (tag, .calCommit)
  | .readAudit tag position => some (tag, .readAudit position)
  | .powerOn => none
  | .resetLine => none
  | .resetPart _ => none
  | .startUpScanEnd _ => none
  | .hostFrame _ => none
  | .hostFrameTimeout => none
  | .notAHostRequest _ => none
  | .baudStrapChange _ => none
  | .notice => none
  | .setStationWriteDone _ => none
  | .changeSetExpiry => none
  | .scheduledTimeReached => none
  | .setClerkWriteDone _ => none
  | .removeClerkWriteDone _ => none
  | .calAuditWriteDone _ => none
  | .calRecordWriteDone _ => none
  | .calGapExpiry => none
  | .calibrationSwitchRelease => none
  | .calibrationSwitchAssert => none
  | .stationPoll => none
  | .stationReply _ => none
  | .stationReplyTimeout => none
  | .stationStale _ => none
  | .signOn _ _ _ => none
  | .signOff _ _ => none
  | .override _ _ _ => none
  | .endOverride _ _ => none
  | .overrideDeadline _ => none
  | .select _ _ _ => none
  | .quantity _ _ _ => none
  | .repeatEntry _ _ => none
  | .priceOverride _ _ _ => none
  | .zero _ _ => none
  | .tare _ _ => none
  | .clearTare _ _ => none
  | .addLine _ _ => none
  | .openOrder _ _ => none
  | .park _ _ => none
  | .resume _ _ _ => none
  | .closeOrder _ _ => none
  | .voidLine _ _ _ => none
  | .voidOrder _ _ _ => none
  | .reprint _ _ _ => none
  | .next _ _ => none
  | .recall _ _ _ => none
  | .missedTicketExpiry _ => none
  | .take _ _ _ => none
  | .calls => none
  | .printerStatusSend _ => none
  | .labelSend _ => none
  | .printerReply _ _ _ => none
  | .printerMessageGiveUp _ => none
  | .printerOffline _ => none
  | .appendStart => none
  | .lineWritten => none
  | .voidLineWritten => none
  | .closeWritten => none
  | .voidOrderWritten => none
  | .reprintWritten => none
  | .priceApplyWritten => none
  | .articleAreaWriteDone _ _ => none
  | .priceStoredWritten => none
  | .dayCloseWritten => none
  | .appendReadbackFail _ => none
  | .eraseStart => none
  | .eraseResume => none
  | .eraseDone _ => none
  | .resetInputAsserted => none

/-- The station, the key tag and the request of a command that is a key request (Table 70). -/
def Instr.keyRequest? : Instr → Option (StationNo × Nat × Key)
  | .signOn station keyTag clerk => some (station, keyTag, .signOn clerk)
  | .signOff station keyTag => some (station, keyTag, .signOff)
  | .override station keyTag supervisor => some (station, keyTag, .override supervisor)
  | .endOverride station keyTag => some (station, keyTag, .endOverride)
  | .select station keyTag article => some (station, keyTag, .select article)
  | .quantity station keyTag count => some (station, keyTag, .quantity count)
  | .repeatEntry station keyTag => some (station, keyTag, .repeatEntry)
  | .priceOverride station keyTag price => some (station, keyTag, .priceOverride price)
  | .zero station keyTag => some (station, keyTag, .zero)
  | .tare station keyTag => some (station, keyTag, .tare)
  | .clearTare station keyTag => some (station, keyTag, .clearTare)
  | .addLine station keyTag => some (station, keyTag, .addLine)
  | .openOrder station keyTag => some (station, keyTag, .openOrder)
  | .park station keyTag => some (station, keyTag, .park)
  | .resume station keyTag order => some (station, keyTag, .resume order)
  | .closeOrder station keyTag => some (station, keyTag, .closeOrder)
  | .voidLine station keyTag index => some (station, keyTag, .voidLine index)
  | .voidOrder station keyTag order => some (station, keyTag, .voidOrder order)
  | .reprint station keyTag index => some (station, keyTag, .reprint index)
  | .next station keyTag => some (station, keyTag, .next)
  | .recall station keyTag ticket => some (station, keyTag, .recall ticket)
  | .powerOn => none
  | .resetLine => none
  | .resetPart _ => none
  | .startUpScanEnd _ => none
  | .hostFrame _ => none
  | .hostFrameTimeout => none
  | .notAHostRequest _ => none
  | .baudStrapChange _ => none
  | .notice => none
  | .hello _ => none
  | .status _ => none
  | .setNotices _ _ => none
  | .readConditions _ => none
  | .clearConditions _ _ => none
  | .setStation _ _ => none
  | .setStationWriteDone _ => none
  | .readStation _ _ => none
  | .readArticle _ _ _ => none
  | .beginChange _ _ => none
  | .stagePut _ _ => none
  | .stageDelete _ _ => none
  | .stageHold _ _ => none
  | .stageRelease _ _ => none
  | .discardChange _ => none
  | .changeStatus _ => none
  | .applyNow _ => none
  | .applyAt _ _ _ _ => none
  | .changeSetExpiry => none
  | .scheduledTimeReached => none
  | .setClerk _ _ _ _ => none
  | .setClerkWriteDone _ => none
  | .removeClerk _ _ => none
  | .removeClerkWriteDone _ => none
  | .signOffClerk _ _ => none
  | .readOrder _ _ => none
  | .hostVoidOrder _ _ => none
  | .readQueue _ _ => none
  | .moveJobs _ _ _ => none
  | .cancelJobs _ _ => none
  | .readPrinters _ _ => none
  | .readJournal _ _ _ => none
  | .readRecovery _ _ => none
  | .openCounter _ => none
  | .pauseCounter _ => none
  | .closeCounter _ => none
  | .setClock _ _ _ _ _ _ _ => none
  | .readTotals _ _ => none
  | .dayClose _ => none
  | .readClose _ => none
  | .calBegin _ _ => none
  | .calAbort _ => none
  | .calZero _ => none
  | .calSpan _ _ => none
  | .calIntervals _ _ _ _ _ => none
  | .calCommit _ => none
  | .calAuditWriteDone _ => none
  | .calRecordWriteDone _ => none
  | .calGapExpiry => none
  | .calibrationSwitchRelease => none
  | .calibrationSwitchAssert => none
  | .readAudit _ _ => none
  | .stationPoll => none
  | .stationReply _ => none
  | .stationReplyTimeout => none
  | .stationStale _ => none
  | .overrideDeadline _ => none
  | .missedTicketExpiry _ => none
  | .take _ _ _ => none
  | .calls => none
  | .printerStatusSend _ => none
  | .labelSend _ => none
  | .printerReply _ _ _ => none
  | .printerMessageGiveUp _ => none
  | .printerOffline _ => none
  | .appendStart => none
  | .lineWritten => none
  | .voidLineWritten => none
  | .closeWritten => none
  | .voidOrderWritten => none
  | .reprintWritten => none
  | .priceApplyWritten => none
  | .articleAreaWriteDone _ _ => none
  | .priceStoredWritten => none
  | .dayCloseWritten => none
  | .appendReadbackFail _ => none
  | .eraseStart => none
  | .eraseResume => none
  | .eraseDone _ => none
  | .resetInputAsserted => none

end Sys2Proof

namespace Sys2Proof.Machine

/-! ## When the part takes a request -/

/-- The part is not held in reset (R192). -/
def State.runs (s : State) : Prop := s.part.inputs.resetAsserted = false

/-- A host request is dispatched: no reply is owed to an earlier request, and its frame is the oldest of the input buffer,
or comes with the command (R191, log entry 13). -/
def State.dispatches (s : State) (tag : Nat) (req : HostRequest) : Prop :=
  s.runs ∧ s.part.ml.serving = none
    ∧ (s.part.ml.buffer = [] ∨ s.part.ml.buffer.head? = some ⟨tag, .request req⟩)

/-- A host request passes the checks of R191 and reaches its block. -/
def State.serves (s : State) (tag : Nat) (req : HostRequest) : Prop :=
  s.dispatches tag req ∧ tag ≠ 0 ∧ s.part.tt.counter ≠ .starting

/-- The part once the frame of a dispatched request has left the buffer (R191). -/
def Part.taken (p : Part) : Part := { p with ml := { p.ml with buffer := p.ml.buffer.tail } }

/-- The state after a part has sent the reply of a request. -/
def State.replied (s : State) (p : Part) (tag : Nat) (req : HostRequest) (body : ReplyBody) : State :=
  { s with part := p.reply tag (.request req) body }

/-- The state after a dispatched request has begun the nonvolatile write that its reply waits for. -/
def State.writing (s : State) (p : Part) (tag : Nat) (req : HostRequest) (w : HeldWrite) : State :=
  { s with part := { p with ml := { p.ml with serving := some ⟨tag, req, w⟩ } } }

/-- A key request reaches OC: the link is PRESENT, its tag is not the one kept, no disabling SET STATION waits for its
write, and the counter is not STARTING (R3, R78, R197). -/
def State.takesKey (s : State) (st : StationNo) (tag : Nat) : Prop :=
  s.runs ∧ s.part.link st = .present ∧ 1 ≤ tag ∧ tag ≤ 255 ∧ (s.part.ml.stations.get st).keptTag ≠ some tag
    ∧ s.part.disabling st = false ∧ s.part.tt.counter ≠ .starting

/-- A key request is taken from a station, whatever its stack and the counter state: the link is PRESENT, its tag is not the one
kept, and no disabling SET STATION waits for its write (R3, R197). -/
def State.hearsKey (s : State) (st : StationNo) (tag : Nat) : Prop :=
  s.runs ∧ s.part.link st = .present ∧ 1 ≤ tag ∧ tag ≤ 255 ∧ (s.part.ml.stations.get st).keptTag ≠ some tag
    ∧ s.part.disabling st = false

/-- A key request reaches OC at a station with an operator. -/
def State.takesKeyOf (s : State) (st : StationNo) (tag operator : Nat) : Prop :=
  s.takesKey st tag ∧ (s.part.stack st).operator = some operator

/-- The part once a key tag has become the one kept (R197). -/
def Part.keyTaken (p : Part) (st : StationNo) (tag : Nat) : Part := p.onLink st (fun l => { l with keptTag := some tag })

/-- The state after the outcome of one key request has replaced the outcome list (R198). -/
def State.outcome (s : State) (p : Part) (st : StationNo) (tag : Nat) (r : KeyResult) : State :=
  { s with part := p.onLink st (fun l =>
      { l with sequence := (l.sequence + 1) % 256, outcomes := [⟨tag, r⟩], storeError := false }) }

/-- The state after a key request that its block accepts, or refuses from the part `p` (R198). -/
def State.keyAnswer (s : State) (p : Part) (st : StationNo) (tag : Nat) : Served → State
  | .ok (q, d) => s.outcome q st tag (.accepted d)
  | .error e => s.outcome p st tag (.refused e)

/-- No nonvolatile write is in flight. -/
def Part.quiet (p : Part) : Prop :=
  p.ml.serving = none ∧ p.tj.append = none ∧ (∀ g todo later, p.art.storeBack ≠ .storing g (.writing todo) later)

/-- What every reset leaves in RAM, whatever was in flight (R2, R52, R54, R77, R89, R113, R132, R136, R147, R151, R164,
R181, R190, R192, R199): the part after it, with the nonvolatile memory that it then has. -/
structure Part.FreshRam (p : Part) (cause : ResetCause) : Prop where
  channels : ∀ st, p.wc.get st = Channel.initial (p.nv.settings.records.get st) (p.nv.settings.configs.get st)
  links : ∀ st, (p.ml.stations.get st).link = .absent ∧ (p.ml.stations.get st).keptTag = none
    ∧ (p.ml.stations.get st).sequence = 0 ∧ (p.ml.stations.get st).outcomes = []
    ∧ (p.ml.stations.get st).storeError = false
  selections : ∀ st, p.art.selections.get st = ⟨none, 1, none, none⟩ ∧ p.art.confirmed.get st = none
  changeSet : p.art.changeSet = .none
  prefixes : p.art.itemPrefix = p.nv.settings.itemPrefix ∧ p.art.totalPrefix = p.nv.settings.totalPrefix
  operators : ∀ st, p.oc.stack.get st = .empty
  clerks : p.oc.clerks = p.nv.settings.clerks
  slots : p.om.pool.length = Config.orderSlots ∧ ∀ slot ∈ p.om.pool, slot = none
  active : ∀ st, p.om.active.get st = none
  tickets : p.tc.waiting = [] ∧ p.tc.missed = [] ∧ p.tc.serving = [] ∧ p.tc.callList = [] ∧ p.tc.lastIssued = 0
    ∧ p.tc.figures = ⟨0, 0, 0, 0, 0, 0, 0⟩
  called : ∀ st, p.tc.called.get st = none
  printing : p.lu.queue = [] ∧ p.lu.cancelled = 0
    ∧ ∀ pr, (p.lu.printers.get pr).state = .offline ∧ (p.lu.printers.get pr).waiting = none
  journal : p.tj.queue = [] ∧ p.tj.waiting = none ∧ p.tj.fault = false ∧ p.tj.writing = none ∧ p.tj.append = none
    ∧ p.tj.erase = none
  counter : p.tt.counter = .starting ∧ p.tt.scheduled = none
  calibration : p.cc.session = none ∧ p.cc.lastEnd = none
  port : p.ml.receiver = .hunting 0 ∧ p.ml.buffer = [] ∧ p.ml.serving = none ∧ p.ml.notices = [] ∧ p.ml.cause = cause
    ∧ p.ml.baud = p.inputs.baudStrap
  takes : ∀ d, p.ml.takes.get d = none
  conditions : ∀ c, p.ml.latches.get c = ⟨false, none⟩ ∧ p.ml.enables.get c = true
  elapsed : p.time.elapsed = 0

/-- An erase in flight beside a write queue in which a place has just been taken or filled, or has just become free: a filled
place at the front suspends it (R154). -/
def suspendedBy (queue : List Place) (erase : Option Erase) : Option Erase :=
  match queue with
  | .filled _ :: _ => erase.map (fun e => { e with suspended := true })
  | _ => erase

/-- The journal once a place has been taken at the end of its write queue (R147): a filled place that arrives at the front
suspends an erase in flight (R154). -/
def Journal.taking (j : Journal) (x : Place) : Journal :=
  { j with
    queue := j.queue ++ [x]
    erase := match j.queue with
      | [] => suspendedBy [x] j.erase
      | _ :: _ => j.erase }

/-- What a committed line `f` of article `a` leaves, from the part in which order `o` is the station's active order (steps 2
to 7 of R99). -/
structure Part.LineAdded (p q : Part) (o : Order) (f : LineFields) (a : Article) : Prop where
  order : q.om = { p.om with
    pool := updatePool o.number
      (fun x => some { x with lines := x.lines ++ [⟨f, .pending⟩], total := x.total + f.linePrice }) p.om.pool }
  record : q.tj = p.tj.taking (.filled (.line o.number o.owner f))
  noLabel : f.label = none → q.lu = p.lu
  label : ∀ n, f.label = some n → q.lu = { p.lu with
    lastLabel := n
    queue := p.lu.queue ++ [⟨.item, n, (p.config f.station).printer, false, false,
      lineContent .item n p.art.itemPrefix o.number o.owner f (some a)⟩] }
  capture : q.wc = if f.measure.isWeighed then
    p.wc.set f.station { p.wc.get f.station with interlock := .set, autoClearPending := true } else p.wc
  selection : q.art = { p.art with
    selections := p.art.selections.set f.station
      { p.art.selections.get f.station with quantity := 1, override := none, repeatEntry := some f.article } }
  rest : q.nv = p.nv ∧ q.oc = p.oc ∧ q.tc = p.tc ∧ q.tt = p.tt ∧ q.cc = p.cc ∧ q.time = p.time ∧ q.inputs = p.inputs

/-- What the end of a sign-on leaves (R81, R103): the stack is empty, the selection cleared, a preset tare gone, and the active
order, if there was one, PARKED. -/
structure Part.SignedOff (p q : Part) (st : StationNo) : Prop where
  stack : q.oc = { p.oc with stack := p.oc.stack.set st .empty }
  selection : q.art = { p.art with selections := p.art.selections.set st ⟨none, 1, none, none⟩ }
  tare : q.wc = p.wc.set st { p.wc.get st with
    tare := if (p.wc.get st).tare.kind = .preset then ⟨.none, 0⟩ else (p.wc.get st).tare }
  noOrder : p.om.active.get st = none → q.om = p.om
  parked : ∀ o, p.activeOrder st = some o → q.om = { p.om with
    pool := updatePool o.number (fun x => some { x with state := .parked }) p.om.pool
    active := p.om.active.map (fun x => if x = some o.number then none else x) }
  rest : q.nv = p.nv ∧ q.tc = p.tc ∧ q.lu = p.lu ∧ q.tj = p.tj ∧ q.tt = p.tt ∧ q.cc = p.cc ∧ q.ml = p.ml ∧ q.time = p.time

/-- What the end of a close with the outcome NO_SALE leaves in TC (R95, R121): the order's ticket, if it has one, leaves its
SERVING tickets and raises the no-sale figure by one. -/
structure Part.EndsNoSale (p q : Part) (ticket : Option Nat) : Prop where
  without : ticket = none → q.tc = p.tc
  left : ∀ before t after, ticket = some t.ticket.number → p.tc.serving = before ++ t :: after →
    (∀ x ∈ before, x.ticket.number ≠ t.ticket.number) → q.tc = { p.tc with
      serving := before ++ after
      figures := { p.tc.figures with noSale := min 65535 (p.tc.figures.noSale + 1) } }

/-- What the end of a sale close leaves in TC (R120, R121): the order's ticket, if it has one, leaves its SERVING tickets, raises
the served and the served-with-wait figure by one, and adds its wait, from issue to latest call, to the wait sum (across the
return of the clock log entry 43). -/
structure Part.EndsServed (p q : Part) (ticket : Option Nat) : Prop where
  without : ticket = none → q.tc = p.tc
  left : ∀ before t after, ticket = some t.ticket.number → p.tc.serving = before ++ t :: after →
    (∀ x ∈ before, x.ticket.number ≠ t.ticket.number) → q.tc = { p.tc with
      serving := before ++ after
      figures := { p.tc.figures with
        served := min 65535 (p.tc.figures.served + 1)
        servedWithWait := min 65535 (p.tc.figures.servedWithWait + 1)
        waitSum := min 4294967295
          (p.tc.figures.waitSum + min 65535 (t.callTime.seconds - t.ticket.issued.seconds)) } }

/-- What the void close of an order leaves: no label is made or changed (R109, R110). -/
structure Part.Voided (p q : Part) (o : Order) : Prop where
  unbound : ∀ st, p.om.active.get st = some o.number → q.om.active.get st = none
  outcome : o.lines = [] → p.EndsNoSale q o.ticket
  freed : o.lines = [] → q.om.pool = updatePool o.number (fun _ => none) p.om.pool ∧ q.tj = p.tj
  waiting : o.lines ≠ [] → o.hasPending = true →
    q.om.pool = updatePool o.number (fun x => some { x with state := .closing .void .waiting }) p.om.pool
    ∧ q.tj = p.tj.taking (.held o.number .void) ∧ q.tc = p.tc
  queued : o.lines ≠ [] → o.hasPending = false →
    q.om.pool = updatePool o.number (fun x => some { x with state := .closing .void .queued }) p.om.pool
    ∧ q.tj = p.tj.taking (.filled (.voidOrder o.number o.owner o.ticket o.total)) ∧ q.tc = p.tc
  labels : q.lu = p.lu
  rest : q.nv = p.nv ∧ q.wc = p.wc ∧ q.art = p.art ∧ q.tt = p.tt ∧ q.cc = p.cc ∧ q.time = p.time ∧ q.ml = p.ml

/-- The content of a poll (Table 68): the weight field by Table 11 and its marks (R22, R29), the selection and the price preview by
Table 18 (R48), the current generation, and what ML keeps for the station (R198). -/
structure Part.Polled (p : Part) (st : StationNo) (c : Poll) : Prop where
  dashes : p.link st ≠ .present ∨ (p.wc.get st).session = true ∨ (p.wc.get st).rail = true
      ∨ (p.wc.get st).phase = .settling ∨ (p.wc.get st).filtered = none → c.weight = .dashes
  weight : ∀ f, p.link st = .present → (p.wc.get st).session = false → (p.wc.get st).rail = false →
    (p.wc.get st).phase ≠ .settling → (p.wc.get st).filtered = some f →
    let k := (p.wc.get st).cal
    let g := f - (p.wc.get st).zo
    let net := g - 10 * ((p.wc.get st).tare.value : Int)
    let d := if net ≤ 10 * (k.b : Int) then k.e1 else k.e2
    c.weight = if 10 * (k.max : Int) + 90 * k.e2 < g then .ol
      else if g < -(200 * (k.e1 : Int)) then .ul
      else .grams (divRound net (10 * d) * d)
  stable : c.stable = true ↔ p.link st = .present ∧ (p.wc.get st).stable = true
  net : c.net = true ↔ (∃ w, c.weight = .grams w) ∧ (p.wc.get st).tare.kind ≠ .none
  zero : c.zero = true ↔ (∃ w, c.weight = .grams w) ∧ (p.wc.get st).tare.kind = .none
    ∧ ∃ f, (p.wc.get st).filtered = some f ∧ 4 * (f - (p.wc.get st).zo).natAbs ≤ 10 * (p.wc.get st).cal.e1
  unselected : (p.art.selections.get st).article.bind p.article = none →
    c.name = none ∧ c.unitPrice = none ∧ c.preview = .blank
  selected : ∀ a, (p.art.selections.get st).article.bind p.article = some a →
    c.name = some a.name ∧ c.unitPrice = some a.unitPrice
  blank : ∀ a, (p.art.selections.get st).article.bind p.article = some a → a.kind = .weighed →
    (∀ w : Int, c.weight = .grams w → w ≤ 0) → c.preview = .blank
  preview : ∀ a list, (p.art.selections.get st).article.bind p.article = some a →
    (a.kind = .weighed ∧ (∃ w : Nat, 0 < w ∧ c.weight = .grams w ∧ list = weighedPrice a.rounding w a.unitPrice a.step))
      ∨ (a.kind = .counted ∧ list = (p.art.selections.get st).quantity * a.unitPrice)
      ∨ (a.kind = .fixed ∧ list = a.unitPrice) →
    (list = 0 ∨ 99999 < list → c.preview = .limit)
    ∧ (1 ≤ list → list ≤ 99999 → c.preview = match (p.art.selections.get st).override with
      | none => .price list
      | some o => if o.price ≤ list then .price o.price else .price list)
  overrideMark : c.overrideMark = (p.art.selections.get st).override.isSome
  generation : c.generation = p.art.generation
  code : c.code = if (p.ml.stations.get st).storeError = true then .storeFault else match p.tt.counter with
    | .starting => .starting
    | .paused => .paused
    | .closed => .closed
    | .closedClosing => .closed
    | .trading => .none
  sequence : c.sequence = (p.ml.stations.get st).sequence
  outcomes : c.outcomes = (p.ml.stations.get st).outcomes

/-- What the end of an append leaves in the journal (R146, R149, R150): the record stands with its check behind those of the
writing sector, its place is free or taken by the record that waited for one, a filled place that is then at the front suspends
an erase in flight (R154), and STORE_FAULT is latched with the BAD sector
exactly when the record was written on its retry. -/
structure Part.Appended (p q : Part) (r : Record) : Prop where
  stored : ∀ i, p.tj.writing = some i → q.nv = { p.nv with
    sectors := p.nv.sectors.modify i
      (fun x => { x with
        mark := .inUse
        seq := some p.tj.writingSeq
        records := x.records ++ [⟨r, crc16 (Config.recordContent r)⟩] }) }
  place : p.tj.waiting = none → q.tj.queue = dropFirstRecord p.tj.queue ∧ q.tj.waiting = none
  waited : ∀ w, p.tj.waiting = some w → p.tj.queue.length ≤ 8 →
    q.tj.queue = dropFirstRecord p.tj.queue ++ [.filled w] ∧ q.tj.waiting = none
  erase : q.tj.erase = suspendedBy q.tj.queue p.tj.erase
  ended : q.tj = { p.tj with queue := q.tj.queue, waiting := q.tj.waiting, append := none, erase := q.tj.erase }
  retried : ∀ bad, p.tj.append = some (.retry bad) →
    q.ml.latches.get .storeFault = ⟨true, some (.store (.sectorBad bad))⟩
  atOnce : p.tj.append = some .first → q.ml.latches.get .storeFault = p.ml.latches.get .storeFault

/-- What AT does with a SCHEDULED set when TT reports that its moment has been reached (R64): in FAULT or without space the set
returns to OPEN and APPLY_DONE says FAILED; otherwise it enters APPLYING, and its PRICE_APPLY record takes a place or waits for
the first that frees. -/
structure Part.ScheduleReported (p q : Part) (base : Nat) (es : List ChangeEntry) (t : TimeOfDay) : Prop where
  fault : p.tj.fault = true → q = Part.latch
    { p with art := { p.art with changeSet := .opened base es p.time.elapsed } } .applyDone (some (.applyFailed .storeFault))
  full : p.tj.fault = false → p.hasSpace (64 + 49 * es.length) 2 = false → q = Part.latch
    { p with art := { p.art with changeSet := .opened base es p.time.elapsed } } .applyDone (some (.applyFailed .journalFull))
  applies : p.tj.fault = false → p.hasSpace (64 + 49 * es.length) 2 = true →
    q.art = { p.art with changeSet := .applying base es (some t) }
    ∧ (p.hasPlace = true → q.tj = p.tj.taking (.filled (.priceApply (p.art.generation + 1) es p.stamp)))
    ∧ (p.hasPlace = false → q.tj = { p.tj with waiting := some (.priceApply (p.art.generation + 1) es p.stamp) })
    ∧ q.nv = p.nv ∧ q.wc = p.wc ∧ q.oc = p.oc ∧ q.om = p.om ∧ q.tc = p.tc ∧ q.lu = p.lu ∧ q.tt = p.tt ∧ q.cc = p.cc
    ∧ q.ml = p.ml ∧ q.time = p.time

/-- A print queue after the job at a printer, if there is one, has returned to its place (R138). -/
def Returned (pr : PrinterNo) (queue back : List Job) : Prop :=
  (back = queue ∧ ∀ j ∈ queue, j.target = pr → j.atPrinter = false)
  ∨ ∃ before j after, queue = before ++ j :: after ∧ (∀ x ∈ before, x.target = pr → x.atPrinter = false)
    ∧ j.target = pr ∧ j.atPrinter = true ∧ back = before ++ { j with atPrinter := false } :: after

/-- A session ends without a commit (R30, R183): its channel carries on, and the last session end takes the cause. -/
def Part.sessionEnded (p : Part) (x : Session) (cause : EndCause) : Part :=
  { p with
    wc := p.wc.set x.station { p.wc.get x.station with session := false }
    cc := ⟨none, some ⟨cause, x.station, p.stamp⟩⟩ }

/-! ## The clock (R168) -/

/-- The days of a month in the years 2000 to 2099, in which every year divisible by 4 is a leap year (R168). -/
def daysOfMonth (year month : Nat) : Nat :=
  if month = 2 then if year % 4 = 0 then 29 else 28
  else if month = 4 ∨ month = 6 ∨ month = 9 ∨ month = 11 then 30
  else 31

/-- A reading that the clock can have (Table 56). -/
structure DateTime.OnClock (t : DateTime) : Prop where
  year : 2000 ≤ t.date.year ∧ t.date.year ≤ 2099
  month : 1 ≤ t.date.month ∧ t.date.month ≤ 12
  day : 1 ≤ t.date.day ∧ t.date.day ≤ daysOfMonth t.date.year t.date.month
  time : t.time.hour ≤ 23 ∧ t.time.minute ≤ 59 ∧ t.time.second ≤ 59

/-- The reading `d` is one second after `c` (R168): the date is carried forward at 23:59:59, and 2099-12-31 is followed by
2000-01-01. -/
structure OneSecondLater (c d : DateTime) : Prop where
  second : c.time.second < 59 → d = ⟨c.date, ⟨c.time.hour, c.time.minute, c.time.second + 1⟩⟩
  minute : c.time.second = 59 → c.time.minute < 59 → d = ⟨c.date, ⟨c.time.hour, c.time.minute + 1, 0⟩⟩
  hour : c.time.second = 59 → c.time.minute = 59 → c.time.hour < 23 → d = ⟨c.date, ⟨c.time.hour + 1, 0, 0⟩⟩
  midnight : c.time = ⟨23, 59, 59⟩ → d.time = ⟨0, 0, 0⟩
  day : c.time = ⟨23, 59, 59⟩ → c.date.day < daysOfMonth c.date.year c.date.month →
    d.date = ⟨c.date.year, c.date.month, c.date.day + 1⟩
  month : c.time = ⟨23, 59, 59⟩ → c.date.day = daysOfMonth c.date.year c.date.month → c.date.month < 12 →
    d.date = ⟨c.date.year, c.date.month + 1, 1⟩
  year : c.time = ⟨23, 59, 59⟩ → c.date.day = 31 → c.date.month = 12 → c.date.year < 2099 →
    d.date = ⟨c.date.year + 1, 1, 1⟩
  wrap : c = ⟨⟨2099, 12, 31⟩, ⟨23, 59, 59⟩⟩ → d.date = ⟨2000, 1, 1⟩

/-- The clock reads a date and a time of day, and the position inside the present second (log entry 4) lies within it. -/
structure TimeBase.Runs (t : TimeBase) : Prop where
  clock : t.clock.OnClock
  phase : t.phase < 1000

/-! ## The entries of a PRICE_APPLY (R66) -/

/-- What one entry of a PRICE_APPLY of generation `g` makes of an article table (R66): a PUT inserts its record or replaces that
of the same number, a DELETE removes it, a HOLD and a RELEASE set the held field, each with the new generation, and every
other article stays as it was. -/
structure EntryApplied (g : Nat) (e : ChangeEntry) (before after : List Article) : Prop where
  ascending : (after.map Article.number).Pairwise (· < ·)
  others : ∀ n, n ≠ e.number → lookup Article.number n after = lookup Article.number n before
  entry : lookup Article.number e.number after = match e with
    | .put a => some { a with generation := g }
    | .delete _ => none
    | .hold n => (lookup Article.number n before).map (fun a => { a with held := true, generation := g })
    | .release n => (lookup Article.number n before).map (fun a => { a with held := false, generation := g })

/-- What the entries of a PRICE_APPLY make of an article table, one after the other (R66). -/
def EntriesApplied (g : Nat) : List ChangeEntry → List Article → List Article → Prop
  | [], before, after => after = before
  | e :: es, before, after => ∃ mid, EntryApplied g e before mid ∧ EntriesApplied g es mid after

/-- What the PRICE_APPLY records to roll forward make of the article area (R73). -/
def RolledForward : List OwedGeneration → List Article → List Article → Prop
  | [], before, after => after = before
  | o :: os, before, after => ∃ mid, EntriesApplied o.generation o.entries before mid ∧ RolledForward os mid after

/-! ## The day accumulators (R173, R174) -/

/-- What a line adds to a weight sum and to a quantity sum (R173): the weight of a WEIGHED line, the quantity of a COUNTED line,
and 1 for a FIXED one (R45). -/
def LineFields.sums (f : LineFields) : Nat × Nat :=
  match f.measure with
  | .weighed grams _ => (grams, 0)
  | .counted quantity => (0, quantity)
  | .fixed => (0, 1)

/-- What a line that is not VOIDED adds to the day accumulators (R173): to the entry of its article, to a new entry while the map
holds fewer than 2,048, or to OTHER; to its department and its station; and to the counter-wide lines and overrides. -/
structure Accumulators.LineAdded (a b : Accumulators) (f : LineFields) : Prop where
  ascending : (a.articles.map ArticleEntry.article).Pairwise (· < ·) →
    (b.articles.map ArticleEntry.article).Pairwise (· < ·)
  others : ∀ n, n ≠ f.article → lookup ArticleEntry.article n b.articles = lookup ArticleEntry.article n a.articles
  article : ∀ e, lookup ArticleEntry.article f.article a.articles = some e → b.other = a.other
    ∧ lookup ArticleEntry.article f.article b.articles = some ⟨f.article, e.figures.lines + 1,
        e.figures.weight + f.sums.1, e.figures.quantity + f.sums.2, e.figures.value + f.linePrice⟩
  created : lookup ArticleEntry.article f.article a.articles = none → a.articles.length < 2048 → b.other = a.other
    ∧ lookup ArticleEntry.article f.article b.articles = some ⟨f.article, 1, f.sums.1, f.sums.2, f.linePrice⟩
  other : lookup ArticleEntry.article f.article a.articles = none → 2048 ≤ a.articles.length → b.articles = a.articles
    ∧ b.other = ⟨a.other.lines + 1, a.other.weight + f.sums.1, a.other.quantity + f.sums.2, a.other.value + f.linePrice⟩
  departments : 1 ≤ f.department → ∀ i, b.departments[i]? = (a.departments[i]?).map (fun l =>
    if i + 1 = f.department then ⟨l.lines + 1, l.value + f.linePrice⟩ else l)
  station : b.stations.get f.station
    = ⟨(a.stations.get f.station).lines + 1, (a.stations.get f.station).value + f.linePrice⟩
  stations : ∀ st, st ≠ f.station → b.stations.get st = a.stations.get st
  clerks : b.clerks = a.clerks ∧ b.otherClerks = a.otherClerks
  plain : f.overriddenBy = none → b.counter = { a.counter with lines := a.counter.lines + 1 }
  override : f.overriddenBy ≠ none → b.counter = { a.counter with
    lines := a.counter.lines + 1
    overrideCount := a.counter.overrideCount + 1
    overrideDifference := a.counter.overrideDifference + (f.listPrice - f.linePrice) }

/-- What the lines of an order add, one after the other (R173). -/
def Accumulators.LinesAdded : List LineFields → Accumulators → Accumulators → Prop
  | [], a, b => b = a
  | f :: fs, a, b => ∃ m, a.LineAdded m f ∧ Accumulators.LinesAdded fs m b

/-- The figures of an owner change in the owner's clerk entry, in a new entry while fewer than 32 exist, or in OTHER CLERKS
(R173, R174). -/
structure Accumulators.OwnerCharged (a b : Accumulators) (owner : Nat) (change : ClerkFigures → ClerkFigures) : Prop where
  ascending : (a.clerks.map ClerkEntry.clerk).Pairwise (· < ·) → (b.clerks.map ClerkEntry.clerk).Pairwise (· < ·)
  others : ∀ n, n ≠ owner → lookup ClerkEntry.clerk n b.clerks = lookup ClerkEntry.clerk n a.clerks
  entry : ∀ e, lookup ClerkEntry.clerk owner a.clerks = some e → b.otherClerks = a.otherClerks
    ∧ lookup ClerkEntry.clerk owner b.clerks = some ⟨owner, change e.figures⟩
  created : lookup ClerkEntry.clerk owner a.clerks = none → a.clerks.length < 32 → b.otherClerks = a.otherClerks
    ∧ lookup ClerkEntry.clerk owner b.clerks = some ⟨owner, change ⟨0, 0, 0, 0⟩⟩
  other : lookup ClerkEntry.clerk owner a.clerks = none → 32 ≤ a.clerks.length → b.clerks = a.clerks
    ∧ b.otherClerks = change a.otherClerks

/-- What a CLOSE record adds with the lines of its order (R173): each line that is not VOIDED as `LineAdded` says; each VOIDED one
to the voided lines and their value; the order and its total to the counter-wide figures and to its owner; and the labels of
all its lines and of its total to the labels made. -/
structure Accumulators.Closed (a b : Accumulators) (owner total : Nat) (totalLabel : Option Nat)
    (active voided : List LineFields) : Prop where
  lines : ∃ m, Accumulators.LinesAdded active a m
    ∧ b.articles = m.articles ∧ b.other = m.other ∧ b.departments = m.departments ∧ b.stations = m.stations
    ∧ b.counter = { m.counter with
        ordersClosed := m.counter.ordersClosed + 1
        value := m.counter.value + total
        voidedLines := m.counter.voidedLines + voided.length
        voidedLineValue := m.counter.voidedLineValue + (voided.map LineFields.linePrice).sum
        labelsMade := m.counter.labelsMade + ((active ++ voided).filterMap LineFields.label).length
          + (if totalLabel = none then 0 else 1) }
  owner : a.OwnerCharged b owner (fun f => ⟨f.orders + 1, f.value + total, f.voidOrders, f.voidValue⟩)

/-- What a VOID_ORDER record adds (R174): its voided value to the void orders of the counter and of its owner, and nothing to
an article, a department, a station or the voided lines. -/
structure Accumulators.OrderVoided (a b : Accumulators) (owner value : Nat) : Prop where
  counter : b = { a with
    clerks := b.clerks
    otherClerks := b.otherClerks
    counter := { a.counter with
      voidOrders := a.counter.voidOrders + 1
      voidOrderValue := a.counter.voidOrderValue + value } }
  owner : a.OwnerCharged b owner (fun f => ⟨f.orders, f.value, f.voidOrders + 1, f.voidValue + value⟩)

/-! ## Checks (Tables 59, 63 and 65) -/

/-- One bit taken by the 16-bit check with polynomial 1021h. -/
def checkBit (check : BitVec 16) (bit : Bool) : BitVec 16 :=
  if check.msb = bit then check <<< 1 else (check <<< 1) ^^^ 0x1021#16

/-- The bits of a byte, most significant first. -/
def bitsOf (b : Byte) : List Bool := (List.range 8).reverse.map b.getLsbD

/-- The 16-bit check over bytes: polynomial 1021h, initial value FFFFh, most significant bit first. -/
def checkOver (bytes : List Byte) : BitVec 16 := (bytes.flatMap bitsOf).foldl checkBit 0xFFFF#16

/-- A number as an unsigned integer of `width` bytes, most significant byte first. -/
def bytesOf (width n : Nat) : List Byte := (List.range width).reverse.map (fun k => BitVec.ofNat 8 (n / 256 ^ k))

/-- The digest of Table 59 over the accumulators, with its totals check over the figures of the five parts of READ TOTALS, each in
8 bytes. -/
def digestOver (a : Accumulators) (i : Interrupted) : Digest :=
  let c := a.counter
  let ofLines (l : LineFigures) : List Nat := [l.lines, l.value]
  let ofClerk (n : Nat) (f : ClerkFigures) : List Nat := [n, f.orders, f.value, f.voidOrders, f.voidValue]
  let ofArticle (n : Nat) (f : ArticleFigures) : List Nat := [n, f.lines, f.weight, f.quantity, f.value]
  let s := a.stations
  { dayValue := c.value, ordersClosed := c.ordersClosed, lines := c.lines, voidOrders := c.voidOrders
    voidOrderValue := c.voidOrderValue, voidedLineValue := c.voidedLineValue, overrideDifference := c.overrideDifference
    labelsMade := c.labelsMade, reprints := c.reprints
    check := checkOver ((
      [c.ordersClosed, c.lines, c.value, c.voidedLines, c.voidedLineValue, c.voidOrders, c.voidOrderValue,
        c.overrideCount, c.overrideDifference, c.labelsMade, c.reprints, i.value, i.lines]
      ++ a.departments.flatMap ofLines
      ++ [s.s1, s.s2, s.s3, s.s4, s.s5, s.s6, s.s7, s.s8].flatMap ofLines
      ++ a.clerks.flatMap (fun e => ofClerk e.clerk e.figures) ++ ofClerk 0 a.otherClerks
      ++ a.articles.flatMap (fun e => ofArticle e.article e.figures) ++ ofArticle 0 a.other).flatMap (bytesOf 8)) }

/-- The check of Table 63 over the other fields of an audit entry, each number in 4 bytes: Zcal in two's complement, the changed
items as bits 0 to 6, a calibrated mark as 1 or 0, and a time that is unset as six numbers 0. -/
def AuditEntry.checkOf (e : AuditEntry) : BitVec 16 :=
  let bit (x : CalItem) (n : Nat) : Nat := if x ∈ e.changed then n else 0
  let items := bit .zcal 1 + bit .scal 2 + bit .lcal 4 + bit .max 8 + bit .b 16 + bit .e1 32 + bit .e2 64
  let signed (z : Int) : Nat := (z % 4294967296).toNat
  let seven (c : CalRecord) : List Nat := [signed c.zcal, c.scal, c.lcal, c.max, c.b, c.e1, c.e2]
  let time : List Nat := match e.time with
    | none => [0, 0, 0, 0, 0, 0]
    | some t => [t.date.year, t.date.month, t.date.day, t.time.hour, t.time.minute, t.time.second]
  checkOver (([e.number, e.station.number, items] ++ seven e.old ++ [if e.old.calibrated then 1 else 0]
    ++ seven e.new ++ time).flatMap (bytesOf 4))

/-! ## Laws of the part -/

/-- The collections keep their capacities (Table 3): all of that table but those that a type of State fixes (the stations,
printers, dispensers and stack entries), the lines of an order and the orders of a clerk, which are in `Part.Bound`, and
the article table, which is `Part.TableFits`. -/
structure Part.Fits (p : Part) : Prop where
  clerks : p.oc.clerks.length ≤ Config.maxClerks ∧ p.nv.settings.clerks.length ≤ Config.maxClerks
  changes : ∀ base es, p.art.changeSet.content = some (base, es) → es.length ≤ Config.maxStaged
  sectors : p.nv.sectors.length = Config.sectors
  articleMap : p.tt.accumulators.articles.length ≤ Config.maxArticleEntries
  clerkEntries : p.tt.accumulators.clerks.length ≤ Config.maxClerkEntries
  audit : p.nv.auditCounter ≤ Config.maxAudit ∧ p.nv.audit.length ≤ Config.maxAudit
  waiting : p.tc.waiting.length ≤ Config.maxWaiting
  missed : p.tc.missed.length ≤ Config.maxMissed
  calls : p.tc.callList.length ≤ Config.maxCalls
  lists : ∀ l ∈ p.ml.display, l.length ≤ Config.maxCalls
  jobs : p.lu.queue.length ≤ Config.maxJobs
  places : p.tj.queue.length ≤ Config.queuePlaces
  frames : p.ml.buffer.length ≤ Config.maxFrames
  slots : p.om.pool.length = Config.orderSlots

/-- No label is at a printer before the journal record that carries its number has been written: a job at a printer is
RELEASED (R133). -/
def Part.Released (p : Part) : Prop := ∀ j ∈ p.lu.queue, j.atPrinter = true → j.released = true

/-- The audit counter is the number of entries, with the one whose write is in flight (R188). -/
def Part.Audited (p : Part) : Prop :=
  p.nv.auditCounter =
    match p.awaitedWrite with
    | some (.calAudit _) => p.nv.audit.length + 1
    | _ => p.nv.audit.length

/-- While a day close is in flight every slot of the order pool is FREE (R93, R177). -/
def Part.ClosesEmpty (p : Part) : Prop := p.tt.counter = .closedClosing → ∀ slot ∈ p.om.pool, slot = none

/-- The lists that are kept in ascending order hold each number once: the clerk table, the same in both places (R74), the
entries of the change set (R56), the article map and the clerk entries (R173). -/
structure Part.Ordered (p : Part) : Prop where
  clerks : (p.oc.clerks.map Clerk.number).Pairwise (· < ·) ∧ p.oc.clerks = p.nv.settings.clerks
  changes : ∀ base es, p.art.changeSet.content = some (base, es) → (es.map ChangeEntry.number).Pairwise (· < ·)
  articleMap : (p.tt.accumulators.articles.map ArticleEntry.article).Pairwise (· < ·)
  clerkEntries : (p.tt.accumulators.clerks.map ClerkEntry.clerk).Pairwise (· < ·)

/-- What has been accepted has its room: a SET CLERK whose write is in flight (R75), and the commit of an open session
(R182). -/
structure Part.Granted (p : Part) : Prop where
  clerk : ∀ c, p.awaitedWrite = some (.setClerk c) →
    (p.clerk c.number).isSome = true ∨ p.oc.clerks.length < Config.maxClerks
  commit : p.cc.session.isSome = true → p.committing = false → p.nv.auditCounter < Config.maxAudit

/-- The laws that every step keeps. -/
structure Part.Inv (p : Part) : Prop where
  fits : p.Fits
  ordered : p.Ordered
  granted : p.Granted
  released : p.Released
  audited : p.Audited
  closesEmpty : p.ClosesEmpty

/-- The order that a place of the write queue closes: it is held for its closing record, or filled by it. -/
def Place.closes? : Place → Option Nat
  | .held n _ => some n
  | .filled (.close n _ _ _ _ _ _) => some n
  | .filled (.voidOrder n _ _ _) => some n
  | .filled _ => none

/-- The order numbers of the pool are all different, the active-order references and the station fields of the OPEN orders
name each other (R90, R91), and a place is held or filled for a close only once for each order, which is then in CLOSING:
WAITING while the place is held, QUEUED once it is filled (R106, R107, R109, R110). An order holds at most 24 lines, their
indices ascending within 1..24 (R98), and a clerk owns at most 3 orders in OPEN or PARKED (R92). -/
structure Part.Bound (p : Part) : Prop where
  distinct : (p.om.orders.map Order.number).Nodup
  bound : ∀ st n, p.om.active.get st = some n ↔ ∃ o ∈ p.om.orders, o.number = n ∧ o.state = .opened st
  once : (p.tj.queue.filterMap Place.closes?).Nodup
  held : ∀ n k, .held n k ∈ p.tj.queue → ∃ o ∈ p.om.orders, o.number = n ∧ o.state = .closing k .waiting
  filled : ∀ r n, .filled r ∈ p.tj.queue → (Place.filled r).closes? = some n →
    ∃ o ∈ p.om.orders, o.number = n ∧ ∃ k, o.state = .closing k .queued
  waits : ∀ r, p.tj.waiting = some r → (Place.filled r).closes? = none
  lines : ∀ o ∈ p.om.orders, o.lines.length ≤ Config.maxLines
    ∧ (o.lines.map (fun l => l.fields.index)).Pairwise (· < ·)
    ∧ ∀ l ∈ o.lines, 1 ≤ l.fields.index ∧ l.fields.index ≤ Config.maxLines
  owned : ∀ clerk, p.ownedBy clerk ≤ Config.maxClerkOrders

/-- The tickets (R115, R119, R123): no number is held by two live tickets, every number lies within 1..99, a SERVING ticket and
an order name each other, so that there are at most 16, and the call list holds each ticket once. -/
structure Part.Ticketed (p : Part) : Prop where
  distinct : p.tc.live.Nodup
  range : ∀ n ∈ p.tc.live, 1 ≤ n ∧ n ≤ 99
  last : p.tc.lastIssued ≤ 99
  bound : ∀ n k, (∃ t ∈ p.tc.serving, t.ticket.number = n ∧ t.order = k)
    ↔ ∃ o ∈ p.om.orders, o.number = k ∧ o.ticket = some n
  serving : p.tc.serving.length ≤ Config.orderSlots
  calls : (p.tc.callList.map Call.ticket).Nodup

/-- The order and the line index of a place filled by a LINE record. -/
def Place.line? : Place → Option (Nat × Nat)
  | .filled (.line n _ f) => some (n, f.index)
  | _ => none

/-- Whether a record is one that may wait for a place (R64, R71). -/
def Record.mayWait : Record → Bool
  | .priceApply _ _ _ => true
  | .priceStored _ => true
  | _ => false

/-- An order's total is the sum of the prices of its lines that are not VOIDED (R102), each LINE record in the write queue is
that of a PENDING line, and each closing record there carries what its order still holds, which has no PENDING line
(R99, R101, R107, R110). -/
structure Part.Priced (p : Part) : Prop where
  totals : ∀ o ∈ p.om.orders, o.total = (o.activeLines.map LineFields.linePrice).sum
  lines : ∀ n owner f, .filled (.line n owner f) ∈ p.tj.queue →
    ∃ o ∈ p.om.orders, o.number = n ∧ o.owner = owner ∧ ⟨f, .pending⟩ ∈ o.lines
  once : (p.tj.queue.filterMap Place.line?).Nodup
  waits : ∀ r, p.tj.waiting = some r → r.mayWait = true
  settled : ∀ o ∈ p.om.orders, ∀ kind r, o.state = .closing kind r → r ≠ .waiting → o.hasPending = false
  closes : ∀ n owner ticket count total label wait,
    .filled (.close n owner ticket count total label wait) ∈ p.tj.queue →
      ∃ o ∈ p.om.orders, o.number = n ∧ o.owner = owner ∧ o.ticket = ticket ∧ o.activeLines.length = count
        ∧ o.total = total ∧ o.totalLabel = label
  voids : ∀ n owner ticket value, .filled (.voidOrder n owner ticket value) ∈ p.tj.queue →
    ∃ o ∈ p.om.orders, o.number = n ∧ o.owner = owner ∧ o.ticket = ticket ∧ o.total = value

/-- The label number that a LINE or CLOSE record carries. -/
def Record.newLabel? : Record → Option Nat
  | .line _ _ f => f.label
  | .close _ _ _ _ _ label _ => label
  | _ => none

/-- The label number of a place filled by a LINE record. -/
def Place.lineLabel? : Place → Option Nat
  | .filled (.line _ _ f) => f.label
  | _ => none

/-- The label numbers of the LINE and CLOSE records: those in the sectors, those of the LINE records in the write queue, and those
of the orders whose CLOSE record carries a TOTAL label, formed or not. -/
def Part.recordLabels (p : Part) : List Nat :=
  (p.nv.sectors.flatMap Sector.journal).filterMap Record.newLabel? ++ p.tj.queue.filterMap Place.lineLabel?
    ++ p.om.orders.filterMap Order.totalLabel

/-- The label numbers of the ITEM and TOTAL jobs; a REPRINT job carries the number of its line (R143). -/
def Part.jobLabels (p : Part) : List Nat :=
  (p.lu.queue.filter (fun j => decide (j.kind ≠ .reprint))).map Job.label

/-- No two LINE or CLOSE records carry one label number, and no two ITEM or TOTAL jobs; outside the start-up scan every such
number has been taken (R128, R133). -/
structure Part.Labelled (p : Part) : Prop where
  records : p.recordLabels.Nodup
  jobs : p.jobLabels.Nodup
  taken : p.tt.counter ≠ .starting → ∀ n, n ∈ p.recordLabels ∨ n ∈ p.jobLabels → 1 ≤ n ∧ n ≤ p.lu.lastLabel

/-- The article map with OTHER, the departments, the clerks with OTHER CLERKS and the stations each sum to the day's sales
value (R175). -/
structure Accumulators.Balanced (a : Accumulators) : Prop where
  articles : (a.articles.map (fun e => e.figures.value)).sum + a.other.value = a.counter.value
  departments : a.departments.length = 16 ∧ (a.departments.map LineFigures.value).sum = a.counter.value
  clerks : (a.clerks.map (fun e => e.figures.value)).sum + a.otherClerks.value = a.counter.value
  stations : (a.stations.toList.map LineFigures.value).sum = a.counter.value

/-- Whether a department lies within 1..16 (Table 15). -/
def departmentOk (n : Nat) : Prop := 1 ≤ n ∧ n ≤ 16

/-- The entries of a change set or of a PRICE_APPLY put articles of the departments 1..16 only (R33). -/
def departmentsOk (es : List ChangeEntry) : Prop := ∀ a, .put a ∈ es → departmentOk a.department

/-- The day accumulators are balanced, and every line that can still join them is of a department that they have. -/
structure Part.Balanced (p : Part) : Prop where
  sums : p.tt.accumulators.Balanced
  lines : ∀ o ∈ p.om.orders, ∀ l ∈ o.lines, departmentOk l.fields.department
  table : ∀ a ∈ p.art.table, departmentOk a.department
  changes : ∀ base es, p.art.changeSet.content = some (base, es) → departmentsOk es
  applies : ∀ g es t, .filled (.priceApply g es t) ∈ p.tj.queue ∨ p.tj.waiting = some (.priceApply g es t) →
    departmentsOk es

/-- The generation and the entries of a PRICE_APPLY record. -/
def Record.apply? : Record → Option (Nat × List ChangeEntry)
  | .priceApply g es _ => some (g, es)
  | _ => none

/-- The PRICE_APPLY records in the write queue or waiting for a place. -/
def Part.queuedApplies (p : Part) : List (Nat × List ChangeEntry) :=
  (filledRecords p.tj.queue ++ p.tj.waiting.toList).filterMap Record.apply?

/-- The PRICE_APPLY that a change set has queued: in APPLYING one, of the current generation plus 1 with the entries of the
set (R53, R62, R64). -/
def ChangeSet.applies (generation : Nat) : ChangeSet → List (Nat × List ChangeEntry)
  | .applying _ es _ => [(generation + 1, es)]
  | _ => []

/-- A change set is of the current generation, stands beside no store-back and not during the start-up scan, and in APPLYING,
and only then, one PRICE_APPLY is queued, of the current generation plus 1 (R53 to R55, R62, R64). -/
structure Part.Switching (p : Part) : Prop where
  base : ∀ base es, p.art.changeSet.content = some (base, es) → base = p.art.generation
  alone : p.art.changeSet ≠ .none → p.art.storeBack = .idle
  scanning : p.tt.counter = .starting → p.art.changeSet = .none
  applies : p.queuedApplies = p.art.changeSet.applies p.art.generation

/-- The article table holds at most 2,000 records, and will after the change set has been applied (R32, R34). -/
structure Part.TableFits (p : Part) : Prop where
  table : p.art.table.length ≤ Config.maxArticles
  changes : ∀ base es, p.art.changeSet.content = some (base, es) → p.roomCount es ≤ Config.maxArticles

/-- The command that the next step takes, if there is one, is not the end of the start-up scan, which rebuilds the table and
the accumulators from whatever the journal holds. -/
def State.notScanEnd (s : State) : Prop := ∀ x, s.pending.head? ≠ some (.startUpScanEnd x)

/-- The moments at which TJ judges whether an erase can begin (R153, R156), as a command from `s` to `t`: a sector is opened
for the first try of a record or for its retry, a DAY_CLOSE or PRICE_STORED is written, an erase ends, or the start-up scan
ends. -/
def State.judgesErase (s : State) (c : Instr) (t : State) : Prop :=
  s.runs ∧
    ((c = .appendStart ∧ s.part.tj.append = none ∧ t.part.tj.append ≠ none ∧ t.part.tj.nextSeq ≠ s.part.tj.nextSeq)
    ∨ (c = .appendReadbackFail true ∧ s.part.tj.append = some .first ∧ t.part.tj.nextSeq ≠ s.part.tj.nextSeq)
    ∨ (c = .dayCloseWritten ∧ ∃ d, s.part.inFlight = some (.dayClose d))
    ∨ (c = .priceStoredWritten ∧ ∃ g, s.part.inFlight = some (.priceStored g))
    ∨ (∃ agrees i, c = .eraseDone agrees ∧ s.part.tj.erase = some ⟨i, false⟩ ∧ s.part.tj.fault = false)
    ∨ ∃ failed, c = .startUpScanEnd failed ∧ s.part.tt.counter = .starting)

/-- The article table and the article area are in ascending article number, each number once (R32). -/
structure Part.Ascending (p : Part) : Prop where
  table : (p.art.table.map Article.number).Pairwise (· < ·)
  area : (p.nv.articles.map Article.number).Pairwise (· < ·)

end Sys2Proof.Machine
end

