-- ==== Sys2Proof/WellFormed.lean ====
section
/-! DEFINITION. Which commands can reach the part: the limits that the frame forms and the encodings of the manual put on
the operands. What the owning rules judge (ranges, states, reasons) is not here. -/

namespace Sys2Proof

/-- A tag fits the tag byte of a host frame (Table 65). Tag 0 reaches the part and is refused by R191. -/
def tagOk (tag : Nat) : Bool := tag ≤ 255

/-- A key tag or take tag lies within 1..255 (Table 69, R199). -/
def keyTagOk (tag : Nat) : Bool := 1 ≤ tag && tag ≤ 255

/-- Sector indices, each once. -/
def sectorsOk (sectors : List Nat) : Bool := sectors.all (fun i => i < Config.sectors) && sectors.Nodup

/-- The kind byte that a meaning names is that of the frame. -/
def FrameMeaning.kindIs (kind : Byte) : FrameMeaning → Bool
  | .request _ => true
  | .wrongBody k => k == kind
  | .wrongResetBody => true
  | .notARequest k => k == kind

/-- The body has the length of the length byte, when that is at most 240, and the meaning is that of the frame's kind
(Table 65). -/
def WireFrame.wellFormed (f : WireFrame) : Bool :=
  (Config.maxBody < f.length.toNat || f.body.length == f.length.toNat) && f.meaning.kindIs f.kind

/-- The frame is one that R191 refuses before any block sees it. -/
def Frame.refused (f : Frame) : Bool :=
  tagOk f.tag &&
    match f.meaning with
    | .request _ => f.tag == 0
    | .wrongBody _ => true
    | .wrongResetBody => true
    | .notARequest _ => true

/-- Station 0 carries the two prefixes and no station fields (R3, R52). -/
def SetStationBody.wellFormed : SetStationBody → Bool
  | .prefixes _ _ => true
  | .station number _ => number != 0

/-- The station number and the key tags fit their bytes (Table 69). A reply that breaks Table 69 or 70 in another way reaches
the part and is discarded by R196. -/
def StationReply.wellFormed (r : StationReply) : Bool := tagOk r.address && r.keys.all (fun k => tagOk k.tag)

/-- DONE carries a label number (Table 50, R128). -/
def PrinterStatus.wellFormed : PrinterStatus → Bool
  | .idle => true
  | .busy => true
  | .done label => 1 ≤ label && label ≤ Config.max32
  | .stockOut => true
  | .coverOpen => true

/-- Whether a command can reach the part. -/
def Instr.wellFormed : Instr → Bool
  | .powerOn => true
  | .resetLine => true
  | .resetPart tag => tagOk tag
  | .startUpScanEnd failedSeals => sectorsOk failedSeals
  | .hostFrame frame => frame.wellFormed
  | .hostFrameTimeout => true
  | .notAHostRequest frame => frame.refused
  | .baudStrapChange _ => true
  | .notice => true
  | .hello tag => tagOk tag
  | .status tag => tagOk tag
  | .setNotices tag _ => tagOk tag
  | .readConditions tag => tagOk tag
  | .clearConditions tag _ => tagOk tag
  | .setStation tag body => tagOk tag && body.wellFormed
  | .setStationWriteDone _ => true
  | .readStation tag _ => tagOk tag
  | .readArticle tag _ _ => tagOk tag
  | .beginChange tag _ => tagOk tag
  | .stagePut tag _ => tagOk tag
  | .stageDelete tag _ => tagOk tag
  | .stageHold tag _ => tagOk tag
  | .stageRelease tag _ => tagOk tag
  | .discardChange tag => tagOk tag
  | .changeStatus tag => tagOk tag
  | .applyNow tag => tagOk tag
  | .applyAt tag _ _ _ => tagOk tag
  | .changeSetExpiry => true
  | .scheduledTimeReached => true
  | .setClerk tag _ _ _ => tagOk tag
  | .setClerkWriteDone _ => true
  | .removeClerk tag _ => tagOk tag
  | .removeClerkWriteDone _ => true
  | .signOffClerk tag _ => tagOk tag
  | .readOrder tag _ => tagOk tag
  | .hostVoidOrder tag _ => tagOk tag
  | .readQueue tag _ => tagOk tag
  | .moveJobs tag _ _ => tagOk tag
  | .cancelJobs tag _ => tagOk tag
  | .readPrinters tag _ => tagOk tag
  | .readJournal tag _ _ => tagOk tag
  | .readRecovery tag _ => tagOk tag
  | .openCounter tag => tagOk tag
  | .pauseCounter tag => tagOk tag
  | .closeCounter tag => tagOk tag
  | .setClock tag _ _ _ _ _ _ => tagOk tag
  | .readTotals tag _ => tagOk tag
  | .dayClose tag => tagOk tag
  | .readClose tag => tagOk tag
  | .calBegin tag _ => tagOk tag
  | .calAbort tag => tagOk tag
  | .calZero tag => tagOk tag
  | .calSpan tag _ => tagOk tag
  | .calIntervals tag _ _ _ _ => tagOk tag
  | .calCommit tag => tagOk tag
  | .calAuditWriteDone _ => true
  | .calRecordWriteDone _ => true
  | .calGapExpiry => true
  | .calibrationSwitchRelease => true
  | .calibrationSwitchAssert => true
  | .readAudit tag _ => tagOk tag
  | .stationPoll => true
  | .stationReply reply => reply.wellFormed
  | .stationReplyTimeout => true
  | .stationStale _ => true
  | .signOn _ keyTag _ => keyTagOk keyTag
  | .signOff _ keyTag => keyTagOk keyTag
  | .override _ keyTag _ => keyTagOk keyTag
  | .endOverride _ keyTag => keyTagOk keyTag
  | .overrideDeadline _ => true
  | .select _ keyTag _ => keyTagOk keyTag
  | .quantity _ keyTag _ => keyTagOk keyTag
  | .repeatEntry _ keyTag => keyTagOk keyTag
  | .priceOverride _ keyTag _ => keyTagOk keyTag
  | .zero _ keyTag => keyTagOk keyTag
  | .tare _ keyTag => keyTagOk keyTag
  | .clearTare _ keyTag => keyTagOk keyTag
  | .addLine _ keyTag => keyTagOk keyTag
  | .openOrder _ keyTag => keyTagOk keyTag
  | .park _ keyTag => keyTagOk keyTag
  | .resume _ keyTag _ => keyTagOk keyTag
  | .closeOrder _ keyTag => keyTagOk keyTag
  | .voidLine _ keyTag _ => keyTagOk keyTag
  | .voidOrder _ keyTag _ => keyTagOk keyTag
  | .reprint _ keyTag _ => keyTagOk keyTag
  | .next _ keyTag => keyTagOk keyTag
  | .recall _ keyTag _ => keyTagOk keyTag
  | .missedTicketExpiry ticket => 1 ≤ ticket && ticket ≤ 99
  | .take _ takeTag _ => keyTagOk takeTag
  | .calls => true
  | .printerStatusSend _ => true
  | .labelSend _ => true
  | .printerReply _ ps _ => ps.wellFormed
  | .printerMessageGiveUp _ => true
  | .printerOffline _ => true
  | .appendStart => true
  | .lineWritten => true
  | .voidLineWritten => true
  | .closeWritten => true
  | .voidOrderWritten => true
  | .reprintWritten => true
  | .priceApplyWritten => true
  | .articleAreaWriteDone _ _ => true
  | .priceStoredWritten => true
  | .dayCloseWritten => true
  | .appendReadbackFail _ => true
  | .eraseStart => true
  | .eraseResume => true
  | .eraseDone _ => true
  | .resetInputAsserted => true

end Sys2Proof
end

