-- ==== Sys2Proof/Certificates/Slice0/Obligations.lean ====
section
/-! DEFINITION. The statements for the provers. Each says in its docstring which rule or section it follows; one that rests
on a choice of the model names the log entry. -/

open Sys2Proof Sys2Proof.Machine

/-! ## The part as a whole -/

/-- A step runs the command at the front of the queue on the state with the queue's rest; with none waiting, one
millisecond passes (log entry 4). What the passing of time does is said by Obligations.ScheduledTimeAndSetClock. -/
def Obligations.StepRunsFrontCommand : Prop :=
  (∀ (c : Instr) (p : Part) (rest : List Instr), step ⟨p, c :: rest⟩ = exec c ⟨p, rest⟩)
  ∧ ∀ p : Part, step ⟨p, []⟩ = .next ⟨{ p with time := p.time.advance 1 }, []⟩

/-- While the reset input is asserted the part is held in reset and nothing is sent or received on any port (R192): every
command leaves the state as it is, but for the resets and the levels of the inputs. The levels of the baud strap, of the
calibration switch and of the reset input are taken in every state, and nothing else changes at once (R181, R190, R192). -/
def Obligations.ResetInputAndLevels : Prop :=
  (∀ (c : Instr) (s : State), s.part.inputs.resetAsserted = true →
    c ≠ .powerOn → c ≠ .resetLine → c ≠ .resetInputAsserted → c ≠ .calibrationSwitchAssert →
    c ≠ .calibrationSwitchRelease → (∀ r, c ≠ .baudStrapChange r) → exec c s = .next s)
  ∧ ∀ (s : State) (r : BaudRate),
    exec (.baudStrapChange r) s
        = .next { s with part := { s.part with inputs := { s.part.inputs with baudStrap := r } } }
    ∧ exec .calibrationSwitchAssert s
        = .next { s with part := { s.part with inputs := { s.part.inputs with calibrationSwitch := true } } }
    ∧ exec .resetInputAsserted s
        = .next { s with part := { s.part with inputs := { s.part.inputs with resetAsserted := true } } }

/-- Each of the three resets runs, from every state that can take it, and starts the RAM afresh, the ticket figures, the printer
messages, the copies of the two prefixes and the baud rate of the strap among it (R52, R113, R136, R190); POWER_ON sets the
clock to 2000-01-01 00:00:00 and invalid, and the other two keep it (R168, R192). The levels of the inputs stay as they are, but
for the reset input that RESET_LINE releases. RESET PART is answered DONE. A reset that cuts no
nonvolatile write keeps the four areas; CC counts the audit entries again (R1, R188). -/
def Obligations.ResetsStartTheRamAfresh : Prop :=
  (∀ (s : State) (tag : Nat),
    (∃ t, exec .powerOn s = .next t ∧ t.pending = s.pending ∧ t.part.FreshRam .powerOn
      ∧ t.part.time.clock = ⟨⟨2000, 1, 1⟩, ⟨0, 0, 0⟩⟩ ∧ t.part.time.valid = false ∧ t.part.inputs = s.part.inputs)
    ∧ (∃ t, exec .resetLine s = .next t ∧ t.pending = s.pending ∧ t.part.FreshRam .resetLine
      ∧ t.part.time.clock = s.part.time.clock ∧ t.part.time.valid = s.part.time.valid
      ∧ t.part.inputs = { s.part.inputs with resetAsserted := false })
    ∧ (s.runs → tag ≠ 0 →
      ∃ t, exec (.resetPart tag) s = .next t ∧ t.pending = s.pending ∧ t.part.FreshRam .resetPart
        ∧ t.part.time.clock = s.part.time.clock ∧ t.part.time.valid = s.part.time.valid
        ∧ t.part.ml.sentReply = some ⟨tag, .request .resetPart, .done .nothing⟩ ∧ t.part.inputs = s.part.inputs))
  ∧ ∀ (s : State) (tag : Nat), s.part.quiet →
    ∀ c t, (c = .powerOn ∨ c = .resetLine ∨ (c = .resetPart tag ∧ tag ≠ 0 ∧ s.runs)) → exec c s = .next t →
      t.part.nv = { s.part.nv with auditCounter := s.part.nv.audit.length }

/-- The start-up scan ends in CLOSED with the values that the records read give (R53, R73, R90, R128, R161, R164, R172), and
STARTED is the notice sent (R192). The scan ends at a failed record; that sector is sealed with the records before it, and
each sector passed over with none (R159, R160; log entries 19, 23 and 54). Sectors of length 0 are among those passed over
(log entry 53), and the scan can end in one for where the next record opens (log entry 57). What the survey, the walk through
the records and the numbers farthest forward are (one equal to the base is a full turn ahead: the model's choice, log entry
34) is said by Obligations.RecordsReadGiveTheStartingValues. The recovery report carries the cause, an early end and the
interrupted orders, and latches RECOVERY_PENDING (R162); POWER_ON latches CLOCK_UNSET (R168). Each PRICE_APPLY without its
PRICE_STORED is applied to the article area, entry by entry as R66 gives, and begins a store-back (R73). A sector is read up to
the first record whose check fails (R146, R158). A seal that fails latches STORE_FAULT with SECTOR_BAD and its sector; that it
does, and that of several the last one sealed gives the detail, is the model's choice (log entry 23). The notices pending after
STARTED, those of the conditions latched during the start-up, stand in the order of Table 67, each once (R192, R194). -/
def Obligations.StartUpScanRebuildsTheDay : Prop :=
  (∀ (s : State) (failed : List Nat), s.runs → s.part.tt.counter = .starting →
    let ss := surveyed s.part.nv.sectors
    let reading := readSectors (journalSectors ss)
    let found := sinceClose reading.records
    let orders := (rebuild found.2).interrupted
    let owed := unstored reading.records
    let early : Option EarlyEnd := match reading.failed with
      | some x => if reading.passedOver = [] then none else some ⟨x.seq, reading.passedOver.length⟩
      | none => none
    let toSeal : List Indexed := match reading.failed with
      | some x => x :: reading.passedOver
      | none => []
    let sealed (records : List Stored) (i : Nat) (x : Sector) : Sector :=
      { x with mark := if i ∈ failed ∨ x.mark = .bad then .bad else .sealed, records := records, torn := none }
    ∃ t, exec (.startUpScanEnd failed) s = .next t
      ∧ t.part.tt.counter = .closed
      ∧ t.part.tt.day = (match found.1 with
          | some d => if d.day < 65535 then d.day + 1 else 1
          | none => 1)
      ∧ t.part.tt.grandTotal = (match found.1 with
          | some d => d.grandTotalAfter
          | none => 0)
      ∧ t.part.tt.lastClose = found.1
      ∧ t.part.tt.accumulators = (rebuild found.2).accumulators
      ∧ t.part.tt.interrupted = ⟨(orders.map InterruptedOrder.value).sum, (orders.map (fun o => o.lines.length)).sum⟩
      ∧ t.part.tt.report = some ⟨s.part.ml.cause, early, orders, false⟩
      ∧ t.part.ml.latches.get .recoveryPending = (if orders ≠ [] ∨ early ≠ none
          then ⟨true, some (.interrupted orders.length)⟩ else s.part.ml.latches.get .recoveryPending)
      ∧ t.part.ml.latches.get .clockUnset = (if s.part.ml.cause = .powerOn
          then ⟨true, none⟩ else s.part.ml.latches.get .clockUnset)
      ∧ t.part.art.generation = rebuiltGeneration s.part.nv.areaGeneration reading.records
      ∧ t.part.art.table = owed.foldl (fun table o => o.entries.foldl (applyEntry o.generation) table) s.part.nv.articles
      ∧ (s.part.Ascending → RolledForward owed s.part.nv.articles t.part.art.table)
      ∧ (owed = [] → t.part.art.storeBack = s.part.art.storeBack)
      ∧ (∀ o later, owed.foldl (fun l o => insertByKey OwedGeneration.generation o l) [] = o :: later →
          t.part.art.storeBack = .storing o.generation (.writing o.entries) later)
      ∧ (reading.failed = none → t.part.nv.sectors = ss)
      ∧ (∀ x, reading.failed = some x → (∀ y ∈ reading.passedOver, y.index ≠ x.index) →
        ∀ i : Nat, t.part.nv.sectors[i]? = (ss[i]?).map (fun y =>
          if i = x.index then sealed x.sector.records i y
          else if ∃ z ∈ reading.passedOver, z.index = i then sealed [] i y
          else y))
      ∧ t.part.tj = { s.part.tj with nextSeq := (ss.filterMap Sector.seq).foldl max 0 + 1, openAfter := reading.endIndex }
      ∧ t.part.om.lastNumber
          = farthest 9999 ((found.1.map DayClose.lastOrder).getD 0) (found.2.filterMap Record.orderNumber?)
      ∧ t.part.lu.lastLabel
          = farthest 4294967295 ((found.1.map DayClose.lastLabel).getD 0) (found.2.filterMap Record.label?)
      ∧ t.part.tc.validFrom = s.part.stamp
      ∧ t.part.ml.sentNotice = some (.started s.part.ml.cause t.part.tt.day t.part.art.generation .closed orders.length)
      ∧ t.part.ml.latches.get .storeFault =
          (match (toSeal.filter (fun y => decide (y.index ∈ failed ∧ y.sector.mark ≠ .bad))).getLast? with
          | some y => ⟨true, some (.store (.sectorBad y.index))⟩
          | none => s.part.ml.latches.get .storeFault)
      ∧ (∀ c, c ≠ .storeFault → c ≠ .journalLow → c ≠ .recoveryPending → c ≠ .clockUnset →
          t.part.ml.latches.get c = s.part.ml.latches.get c)
      ∧ t.part.ml.enables = s.part.ml.enables
      ∧ t.part.ml.notices.Sublist [.stationLost, .printerAttention, .printQueueHigh, .journalLow, .storeFault,
          .stagingExpired, .applyDone, .dayClosed, .ticketsFull, .linkError, .recoveryPending, .calibrationChanged, .clockUnset]
      ∧ ∀ c, c ∈ t.part.ml.notices ↔ c ∈ s.part.ml.notices ∨ (s.part.ml.enables.get c = true
          ∧ (s.part.ml.latches.get c).flag = false ∧ (t.part.ml.latches.get c).flag = true))
  ∧ ∀ (x : Indexed) (rest : List Indexed) (good : List Stored),
    (∀ y ∈ good, y.check = crc16 (Config.recordContent y.record)) →
    (x.sector.records ++ x.sector.torn.toList = good → readSectors (x :: rest) =
      ⟨⟨x.index, { x.sector with records := good, torn := none }⟩ :: (readSectors rest).read, (readSectors rest).failed,
        (readSectors rest).passedOver⟩)
    ∧ ∀ bad behind, x.sector.records ++ x.sector.torn.toList = good ++ bad :: behind →
      bad.check ≠ crc16 (Config.recordContent bad.record) →
      readSectors (x :: rest) = ⟨[], some ⟨x.index, { x.sector with records := good, torn := none }⟩, rest⟩

/-- What the scan takes from the journal. A sector with content that is no valid header is BAD without records (R158). The
values come from the latest DAY_CLOSE record and the records after it (R161). The PRICE_APPLY records to roll forward are
those without a later PRICE_STORED of their generation, in journal order (R73, R161), and the generation is the greater of the
area's and that of the last PRICE_APPLY (R53). The number farthest forward is the last one met when counting from the base
through 1..limit with wrap, or the base without any (R90, R128); that a number equal to the base counts as a full turn ahead
is the model's choice (log entry 34). The lines of an order are those of its LINE records since its previous closing record,
marked where a VOID_LINE follows, and each closing record accumulates them (R161, R172), as R173 and R174 say for each line, its
article, department and station, the owner and the counter-wide figures. So the accumulators rebuilt from the
records read are those that writing the same records gave: where both agree before a record is written, and the order of a
closing record holds the lines read of it, they agree after it (R172). An order is interrupted while it has a line without a
VOID_LINE, and it is listed with the owner of one of its LINE records (R162); which, where they differ, is the model's choice
(log entry 60). -/
def Obligations.RecordsReadGiveTheStartingValues : Prop :=
  let linesOf (rs : List Record) (n : Nat) : List (LineFields × Bool) := ((rebuild rs).group n 0).lines
  let kept (rs : List Record) (n : Nat) : List LineFields := ((linesOf rs n).filter (fun x => !x.2)).map Prod.fst
  let voided (rs : List Record) (n : Nat) : List LineFields := ((linesOf rs n).filter (fun x => x.2)).map Prod.fst
  (∀ ss : List Sector, (surveyed ss).length = ss.length ∧ ∀ (i : Nat) (x : Sector), ss[i]? = some x → (surveyed ss)[i]?
    = some (if x.mark = .other ∨ x.unreadable = true then ⟨.bad, none, [], none, false⟩ else x))
  ∧ (∀ (before after : List Record) (d : DayClose), (∀ x, .dayClose x ∉ after) →
    sinceClose after = (none, after) ∧ sinceClose (before ++ .dayClose d :: after) = (some d, after))
  ∧ (∀ (rs : List Record) (o : OwedGeneration), o ∈ unstored rs ↔ ∃ before after t,
      rs = before ++ .priceApply o.generation o.entries t :: after ∧ .priceStored o.generation ∉ after)
  ∧ (∀ a b : List Record, unstored (a ++ b)
      = (unstored a).filter (fun o => decide (.priceStored o.generation ∉ b)) ++ unstored b)
  ∧ (∀ (area g : Nat) (es : List ChangeEntry) (t : Option DateTime) (before after : List Record),
    (∀ g es t, .priceApply g es t ∉ after) →
      rebuiltGeneration area after = area
      ∧ rebuiltGeneration area (before ++ .priceApply g es t :: after) = max area g)
  ∧ (∀ (limit base : Nat) (numbers : List Nat), base ≤ limit → (∀ n ∈ numbers, 1 ≤ n ∧ n ≤ limit) →
    let ahead (k : Nat) : Nat := (base + k - 1) % limit + 1
    (numbers = [] → farthest limit base numbers = base)
    ∧ (numbers ≠ [] → ∃ k, 1 ≤ k ∧ k ≤ limit ∧ farthest limit base numbers = ahead k ∧ ahead k ∈ numbers
      ∧ ∀ n ∈ numbers, ∃ j, 1 ≤ j ∧ j ≤ k ∧ n = ahead j))
  ∧ (rebuild []).accumulators = .zero ∧ (∀ n, linesOf [] n = [])
  ∧ (∀ (rs : List Record) (r : Record) (n : Nat),
    linesOf (rs ++ [r]) n = (match r with
      | .line m _ f => if m = n then linesOf rs n ++ [(f, false)] else linesOf rs n
      | .voidLine m index _ =>
        if m = n then (linesOf rs n).map (fun x => (x.1, x.2 || x.1.index == index)) else linesOf rs n
      | .close m _ _ _ _ _ _ => if m = n then [] else linesOf rs n
      | .voidOrder m _ _ _ => if m = n then [] else linesOf rs n
      | _ => linesOf rs n)
    ∧ (rebuild (rs ++ [r])).accumulators = (match r with
      | .close m owner _ _ total label _ =>
        (rebuild rs).accumulators.addClose owner total label (kept rs m) (voided rs m)
      | .voidOrder _ owner _ value => (rebuild rs).accumulators.addVoidOrder owner value
      | .reprint _ _ _ => (rebuild rs).accumulators.addReprint
      | _ => (rebuild rs).accumulators)
    ∧ (match r with
      | .close m owner _ _ total label _ =>
        (rebuild rs).accumulators.Closed (rebuild (rs ++ [r])).accumulators owner total label (kept rs m) (voided rs m)
      | .voidOrder _ owner _ value =>
        (rebuild rs).accumulators.OrderVoided (rebuild (rs ++ [r])).accumulators owner value
      | .reprint _ _ _ => (rebuild (rs ++ [r])).accumulators = { (rebuild rs).accumulators with
          counter := { (rebuild rs).accumulators.counter with reprints := (rebuild rs).accumulators.counter.reprints + 1 } }
      | _ => (rebuild (rs ++ [r])).accumulators = (rebuild rs).accumulators))
  ∧ (∀ rs : List Record, ((rebuild rs).interrupted.map InterruptedOrder.order).Nodup
    ∧ (∀ n, kept rs n ≠ [] ↔ ∃ o ∈ (rebuild rs).interrupted, o.order = n)
    ∧ ∀ o ∈ (rebuild rs).interrupted,
      o.lines = (kept rs o.order).map (fun f =>
        (⟨f.index, f.station, f.article, f.linePrice, f.label, f.label.isSome⟩ : InterruptedLine))
      ∧ o.value = ((kept rs o.order).map LineFields.linePrice).sum ∧ ∃ f, .line o.order o.owner f ∈ rs)
  ∧ ∀ (s : State) (rs : List Record) (r : Record) (c : Instr), s.runs → s.part.inFlight = some r →
    (rebuild rs).accumulators = s.part.tt.accumulators →
    (match r with
      | .line _ _ _ => c = .lineWritten
      | .voidLine _ _ _ => c = .voidLineWritten
      | .close n _ _ _ _ _ _ => c = .closeWritten ∧ ∃ o, s.part.order n = some o
          ∧ o.lines.map (fun l => (l.fields, decide (l.state = .voided))) = linesOf rs n
      | .voidOrder n _ _ _ => c = .voidOrderWritten ∧ ∃ o, s.part.order n = some o
      | .reprint _ _ _ => c = .reprintWritten
      | .priceApply _ _ _ => c = .priceApplyWritten
      | .priceStored _ => c = .priceStoredWritten
      | .dayClose _ => False) →
    ∃ t, exec c s = .next t ∧ (rebuild (rs ++ [r])).accumulators = t.part.tt.accumulators

/-! ## Host port -/

/-- A frame on the host line: the five ways in which it is discarded with LINK_ERROR, its place at the newest end of the
buffer, and RESET PART acted on at once (R190, R192). The 50 ms from its start byte are measured on the elapsed-time count
(R170), from a mark not before the receiver's return to hunting: a byte that comes later, and a frame that has not ended when
they have passed, give TIMEOUT. Each command falls at or after its moment, which it reaches (log entries 4 and 28).
Dispatch (R191). Every dispatched frame gets one reply, which carries its tag; a frame with tag 0, with a kind that is no
host request kind, or with a body that the kind does not take is refused with BAD_VALUE and changes nothing else (checks 1 to
3). While the counter is STARTING every host request but HELLO and STATUS is refused with BUSY, and nothing else changes;
while the reply to an earlier request waits for its write, a host request is not dispatched. The 16-bit check is that of Table 65,
taken bit by bit. -/
def Obligations.HostFramesAreReceivedAndJudged : Prop :=
  (∀ bytes, crc16 bytes = checkOver bytes)
  ∧ (∀ (s : State) (f : WireFrame), s.runs →
    let mark := max f.startAt s.part.ml.receiver.mark
    let p : Part := { s.part with time := s.part.time.advance (mark - s.part.time.elapsed) }
    let hunts (q : Part) : State :=
      { s with part := { q with ml := { q.ml with receiver := .hunting p.time.elapsed } } }
    (mark + 50 < p.time.elapsed → exec (.hostFrame f) s = .next (hunts (p.latchLink .timeout)))
    ∧ (p.time.elapsed ≤ mark + 50 →
      (240 < f.length.toNat → exec (.hostFrame f) s = .next (hunts (p.latchLink .overlength)))
      ∧ (f.length.toNat ≤ 240 → crc16 (f.kind :: f.tag :: f.body) ≠ f.check →
          exec (.hostFrame f) s = .next (hunts (p.latchLink .check)))
      ∧ (f.length.toNat ≤ 240 → crc16 (f.kind :: f.tag :: f.body) = f.check →
          (f.meaning = .request .resetPart ∧ f.tag ≠ 0 →
            exec (.hostFrame f) s = exec (.resetPart f.tag.toNat) { s with part := p })
          ∧ (f.meaning ≠ .request .resetPart ∨ f.tag = 0 →
              (p.ml.buffer.length < 4 → exec (.hostFrame f) s = .next (hunts { p with ml :=
                { p.ml with buffer := p.ml.buffer ++ [⟨f.tag.toNat, f.meaning⟩] } }))
              ∧ (4 ≤ p.ml.buffer.length → exec (.hostFrame f) s = .next (hunts (p.latchLink .overrun)))))))
  ∧ (∀ s : State, s.runs → ∃ q : Part,
      q = { s.part with time := s.part.time.advance (s.part.ml.receiver.mark + 50 - s.part.time.elapsed) }
      ∧ exec .hostFrameTimeout s = .next { s with part :=
          { q.latchLink .timeout with ml := { (q.latchLink .timeout).ml with receiver := .hunting q.time.elapsed } } }
      ∧ s.part.ml.receiver.mark + 50 ≤ q.time.elapsed)
  ∧ (∀ (s : State) (f : Frame), s.runs → s.part.ml.serving = none →
    (s.part.ml.buffer = [] ∨ s.part.ml.buffer.head? = some f) →
    ((∃ k, f.meaning = .notARequest k) ∨ (∃ k, f.meaning = .wrongBody k) ∨ f.meaning = .wrongResetBody ∨ f.tag = 0) →
    exec (.notAHostRequest f) s
      = .next { s with part := s.part.taken.reply f.tag f.meaning (.refused .badValue none) })
  ∧ ∀ (s : State) (c : Instr) (tag : Nat) (req : HostRequest), c.hostRequest? = some (tag, req) →
    (s.dispatches tag req → tag ≠ 0 → s.part.tt.counter = .starting → req ≠ .hello → req ≠ .status →
      exec c s = .next (s.replied s.part.taken tag req (.refused .busy none)))
    ∧ (s.part.ml.serving ≠ none → exec c s = .next s)

/-- The oldest pending notice is sent with the detail of its condition as it stands at the moment of sending (R194); none
before STARTED (R192). A latch sets the flag and takes the new detail, and makes one notice pending when the flag was clear,
the notice is enabled and none is pending for the condition; no other condition changes (R194). SET NOTICES replaces every
enable and withdraws the pending notices it disables; READ CONDITIONS reports all 13 and changes nothing; CLEAR CONDITIONS
clears the flag and detail of each condition it names and withdraws its notice, and is refused with BAD_VALUE when it names
none or a value that is no condition (R195). -/
def Obligations.ConditionsAndNotices : Prop :=
  ((∀ (s : State) (c : Condition) (rest : List Condition), s.runs → s.part.ml.notices = c :: rest →
    (s.part.tt.counter ≠ .starting → exec .notice s = .next { s with part := { s.part with ml := { s.part.ml with
        notices := rest, sentNotice := some (.condition c (s.part.ml.latches.get c).detail) } } })
    ∧ (s.part.tt.counter = .starting → exec .notice s = .next s))
  ∧ ∀ (p : Part) (c : Condition) (x : Option Detail),
    (p.latch c x).ml.latches.get c = ⟨true, x⟩
    ∧ (∀ d, d ≠ c → (p.latch c x).ml.latches.get d = p.ml.latches.get d)
    ∧ ((p.ml.latches.get c).flag = false → p.ml.enables.get c = true → c ∉ p.ml.notices →
        (p.latch c x).ml.notices = p.ml.notices ++ [c])
    ∧ ((p.ml.latches.get c).flag = true ∨ p.ml.enables.get c = false ∨ c ∈ p.ml.notices →
        (p.latch c x).ml.notices = p.ml.notices))
  ∧ ∀ (s : State) (tag : Nat),
    (∀ e, s.serves tag (.setNotices e) → exec (.setNotices tag e) s = .next (s.replied
        { s.part.taken with ml := { s.part.taken.ml with
            enables := enablesOf e
            notices := s.part.ml.notices.filter (fun c => (enablesOf e).get c) } }
        tag (.setNotices e) (.done .nothing)))
    ∧ (s.serves tag .readConditions → exec (.readConditions tag) s = .next (s.replied s.part.taken tag .readConditions
        (.done (.conditions (Condition.all.map (fun c => (c, s.part.ml.latches.get c, s.part.ml.enables.get c)))))))
    ∧ (∀ named, s.serves tag (.clearConditions named) → (named = [] ∨ none ∈ named) →
        exec (.clearConditions tag named) s
          = .next (s.replied s.part.taken tag (.clearConditions named) (.refused .badValue none)))
    ∧ (∀ named : List Condition, s.serves tag (.clearConditions (named.map some)) → named ≠ [] →
        ∃ q, exec (.clearConditions tag (named.map some)) s
            = .next (s.replied q tag (.clearConditions (named.map some)) (.done .nothing))
          ∧ (∀ c, q.ml.latches.get c = if c ∈ named then ⟨false, none⟩ else s.part.ml.latches.get c)
          ∧ q.ml.notices = s.part.ml.notices.filter (fun c => c ∉ named)
          ∧ q.ml.enables = s.part.ml.enables)

/-- HELLO and STATUS are answered in every counter state and change nothing; the elapsed seconds are rounded down, and what
the scan has not rebuilt is unknown (R193). The firmware version is log entry 12, and the texts of the vendor and the part are
the model's choice, log entry 38. -/
def Obligations.HelloAndStatusAnswerAlways : Prop :=
  ∀ (s : State) (tag : Nat), tag ≠ 0 →
    let p := s.part
    (s.dispatches tag .hello → exec (.hello tag) s = .next (s.replied p.taken tag .hello (.done (.hello
      { vendor := "Eptilan", part := "Gerjal GC-840", firmware := Config.firmwareVersion, cause := p.ml.cause
        baud := p.ml.baud, scanEnded := decide (p.tt.counter ≠ .starting)
        elapsedSeconds := min 4294967295 (p.time.elapsed / 1000) }))))
    ∧ (s.dispatches tag .status → ∃ r : StatusReport,
      exec (.status tag) s = .next (s.replied p.taken tag .status (.done (.status r)))
      ∧ r.counter = p.tt.counter ∧ (∀ c, c ∈ r.conditions ↔ (p.ml.latches.get c).flag = true)
      ∧ r.frames = p.ml.buffer.tail.length
      ∧ (∀ st, r.links.get st = (p.ml.stations.get st).link ∧ r.enabled.get st = (p.wc.get st).config.enabled)
      ∧ (∀ pr, r.printers.get pr = (p.lu.printers.get pr).state)
      ∧ r.journalFault = (if p.tt.counter = .starting then none else some p.tj.fault)
      ∧ r.erasedSectors = (if p.tt.counter = .starting then none else some p.erasedCount)
      ∧ r.changeSet = p.art.changeSet.phase
      ∧ r.storeBack = (if p.tt.counter = .starting then none else some p.art.storeBack.phase)
      ∧ r.session = p.cc.session.map Session.station
      ∧ r.calibrationSwitch = p.inputs.calibrationSwitch ∧ r.clockValid = p.time.valid)

/-! ## Settings and reading -/

/-- SET STATION (R3, R10, R52): a value out of its range is refused with BAD_VALUE; a station that would be disabled with an
operator or a session is BUSY; otherwise its write begins, with the depth code clamped to 2..5. Station 0 carries the two
prefixes. At the end of the write (R1, R3, R10, R25, R52) the settings area and the copy in RAM take the values; a changed
depth code restarts the filter; a disabled station returns to its reset contents with its link ABSENT; a failed read-back
changes neither, latches STORE_FAULT and is answered STORE_FAULT. -/
def Obligations.SetStationWritesItsPlace : Prop :=
  (∀ (s : State) (tag number : Nat) (f : StationFields) (item total : Nat),
    (s.serves tag (.setStation (.station number f)) →
      ((StationNo.ofNumber number = none ∨ PrinterNo.ofNumber f.printer = none ∨ 7 < f.depthCode ∨ f.labelMode = none) →
        exec (.setStation tag (.station number f)) s
          = .next (s.replied s.part.taken tag (.setStation (.station number f)) (.refused .badValue none)))
      ∧ ∀ st pr m, StationNo.ofNumber number = some st → PrinterNo.ofNumber f.printer = some pr → f.depthCode ≤ 7 →
        f.labelMode = some m →
        let occupied := (s.part.stack st).operator ≠ none ∨ s.part.cc.session.map Session.station = some st
        ((s.part.config st).enabled = true ∧ f.enabled = false ∧ occupied →
          exec (.setStation tag (.station number f)) s
            = .next (s.replied s.part.taken tag (.setStation (.station number f)) (.refused .busy none)))
        ∧ ((s.part.config st).enabled = false ∨ f.enabled = true ∨ ¬ occupied →
          exec (.setStation tag (.station number f)) s
            = .next (s.writing s.part.taken tag (.setStation (.station number f))
                (.setStation st ⟨f.enabled, pr, max 2 (min 5 f.depthCode), f.tareAutoClear, m⟩))))
    ∧ (s.serves tag (.setStation (.prefixes item total)) →
      (20 ≤ item ∧ item ≤ 29 ∧ 20 ≤ total ∧ total ≤ 29 ∧ item ≠ total →
        exec (.setStation tag (.prefixes item total)) s
          = .next (s.writing s.part.taken tag (.setStation (.prefixes item total)) (.setPrefixes item total)))
      ∧ (¬ (20 ≤ item ∧ item ≤ 29 ∧ 20 ≤ total ∧ total ≤ 29 ∧ item ≠ total) →
        exec (.setStation tag (.prefixes item total)) s
          = .next (s.replied s.part.taken tag (.setStation (.prefixes item total)) (.refused .badValue none)))))
  ∧ ∀ (s : State) (tag : Nat) (req : HostRequest), s.runs →
    (∀ st c, s.part.ml.serving = some ⟨tag, req, .setStation st c⟩ →
      let old := s.part.wc.get st
      ∃ t, exec (.setStationWriteDone true) s = .next t
        ∧ t.part.nv = { s.part.nv with settings := { s.part.nv.settings with
            configs := s.part.nv.settings.configs.set st c } }
        ∧ t.part.ml.serving = none ∧ t.part.ml.sentReply = some ⟨tag, .request req, .done (.stationSettings st c)⟩
        ∧ (∀ x, x ≠ st → t.part.wc.get x = s.part.wc.get x ∧ t.part.ml.stations.get x = s.part.ml.stations.get x
          ∧ t.part.art.confirmed.get x = s.part.art.confirmed.get x)
        ∧ (old.config.enabled = true ∧ c.enabled = false →
            t.part.wc.get st = Channel.initial old.cal c ∧ (t.part.ml.stations.get st).link = .absent
            ∧ (t.part.ml.stations.get st).keptTag = none ∧ t.part.art.confirmed.get st = none)
        ∧ (old.config.enabled = false ∨ c.enabled = true →
            t.part.ml.stations.get st = s.part.ml.stations.get st ∧ t.part.art = s.part.art
            ∧ (old.config.depthCode = c.depthCode → t.part.wc.get st = { old with config := c })
            ∧ (old.config.depthCode ≠ c.depthCode → t.part.wc.get st = { old with
                config := c
                window := []
                filtered := none
                filteredRaw := none
                stability := []
                rawHistory := []
                rail := false }))
        ∧ t.part.om = s.part.om ∧ t.part.oc = s.part.oc ∧ t.part.tc = s.part.tc ∧ t.part.lu = s.part.lu
        ∧ t.part.tj = s.part.tj ∧ t.part.tt = s.part.tt ∧ t.part.cc = s.part.cc ∧ t.part.time = s.part.time)
    ∧ (∀ item total, s.part.ml.serving = some ⟨tag, req, .setPrefixes item total⟩ →
      exec (.setStationWriteDone true) s = .next { s with part := { s.part with
        nv := { s.part.nv with settings := { s.part.nv.settings with itemPrefix := item, totalPrefix := total } }
        art := { s.part.art with itemPrefix := item, totalPrefix := total }
        ml := { s.part.ml with
          serving := none
          sentReply := some ⟨tag, .request req, .done (.prefixes item total)⟩ } } })
    ∧ (∀ w, s.part.ml.serving = some ⟨tag, req, w⟩ →
        ((∃ st c, w = .setStation st c) ∨ ∃ item total, w = .setPrefixes item total) →
        exec (.setStationWriteDone false) s
          = .next (State.replied s { s.part.latch .storeFault (some (.store .settingsArea)) with
              ml := { (s.part.latch .storeFault (some (.store .settingsArea))).ml with serving := none } }
              tag req (.refused .storeFault none)))

/-- READ STATION reports the settings, the weighing, the stack, the active order and the CALLED ticket of a station, or the
two prefixes (R3, R29, R52, R88, R91, R127). READ ARTICLE (R36), over a table in ascending article number: EXACT gives the
record of the number; NEXT gives the record of the lowest article number above it; NO_SUCH when there is none, BAD_VALUE out
of range or for a direction that is neither. -/
def Obligations.StationAndArticleReplies : Prop :=
  (∀ (s : State) (tag number : Nat), s.serves tag (.readStation number) →
    let p := s.part
    (number = 0 → exec (.readStation tag number) s
      = .next (s.replied p.taken tag (.readStation number) (.done (.prefixes p.art.itemPrefix p.art.totalPrefix))))
    ∧ (8 < number → exec (.readStation tag number) s
      = .next (s.replied p.taken tag (.readStation number) (.refused .badValue none)))
    ∧ ∀ st, StationNo.ofNumber number = some st → ∃ r : StationReport,
      exec (.readStation tag number) s = .next (s.replied p.taken tag (.readStation number) (.done (.station r)))
      ∧ r.config = p.config st
      ∧ r.weighing.state = (p.wc.get st).state (p.link st) ∧ r.weighing.stable = (p.wc.get st).stable
      ∧ r.weighing.gross = (p.wc.get st).filtered.map (fun g => g - (p.wc.get st).zo)
      ∧ r.weighing.net = r.weighing.gross.map (fun g : Int => g - 10 * ((p.wc.get st).tare.value : Int))
      ∧ r.weighing.division = r.weighing.net.map (fun n : Int =>
          if n ≤ 10 * ((p.wc.get st).cal.b : Int) then (p.wc.get st).cal.e1 else (p.wc.get st).cal.e2)
      ∧ (∀ (n : Int) (d : Nat), r.weighing.net = some n → r.weighing.division = some d →
          r.weighing.saleWeight = some (divRound n (10 * d) * d))
      ∧ (r.weighing.net = none → r.weighing.saleWeight = none)
      ∧ r.weighing.tare = (p.wc.get st).tare ∧ r.weighing.phase = (p.wc.get st).phase
      ∧ r.weighing.zo = (p.wc.get st).zo ∧ r.weighing.zpu = (p.wc.get st).zpu
      ∧ r.weighing.interlock = (p.wc.get st).interlock ∧ r.weighing.autoClearPending = (p.wc.get st).autoClearPending
      ∧ r.weighing.cal = (p.wc.get st).cal
      ∧ r.entry1 = (match p.oc.stack.get st with
          | .empty => none
          | .signedOn c => some ⟨c, p.clerk c⟩
          | .overridden c _ _ => some ⟨c, p.clerk c⟩)
      ∧ r.entry2 = (match p.oc.stack.get st with
          | .overridden _ x _ => some ⟨x, p.clerk x⟩
          | _ => none)
      ∧ (∀ c x d, p.oc.stack.get st = .overridden c x d → r.overrideSeconds = some ((d - p.time.elapsed) / 1000))
      ∧ ((∀ c x d, p.oc.stack.get st ≠ .overridden c x d) → r.overrideSeconds = none)
      ∧ r.activeOrder = (p.activeOrder st).map (fun o => (o.number, o.state, o.total))
      ∧ r.calledTicket = (p.tc.called.get st).map (fun c => (c.ticket.number, c.callTime)))
  ∧ ∀ (s : State) (tag n : Nat), (s.part.art.table.map Article.number).Pairwise (· < ·) →
    let p := s.part
    (s.serves tag (.readArticle n (some .exact)) →
      (∀ a ∈ p.art.table, a.number = n → 1 ≤ n → n ≤ 99999 → exec (.readArticle tag n (some .exact)) s
        = .next (s.replied p.taken tag (.readArticle n (some .exact))
            (.done (.article a p.art.generation p.art.table.length))))
      ∧ ((∀ a ∈ p.art.table, a.number ≠ n) → 1 ≤ n → n ≤ 99999 → exec (.readArticle tag n (some .exact)) s
        = .next (s.replied p.taken tag (.readArticle n (some .exact)) (.refused .noSuch none)))
      ∧ (n = 0 ∨ 99999 < n → exec (.readArticle tag n (some .exact)) s
        = .next (s.replied p.taken tag (.readArticle n (some .exact)) (.refused .badValue none))))
    ∧ (s.serves tag (.readArticle n (some .following)) →
      (∀ a ∈ p.art.table, n < a.number → (∀ b ∈ p.art.table, n < b.number → a.number ≤ b.number) → n ≤ 99999 →
        exec (.readArticle tag n (some .following)) s
          = .next (s.replied p.taken tag (.readArticle n (some .following))
              (.done (.article a p.art.generation p.art.table.length))))
      ∧ ((∀ a ∈ p.art.table, a.number ≤ n) → n ≤ 99999 → exec (.readArticle tag n (some .following)) s
        = .next (s.replied p.taken tag (.readArticle n (some .following)) (.refused .noSuch none)))
      ∧ (99999 < n → exec (.readArticle tag n (some .following)) s
        = .next (s.replied p.taken tag (.readArticle n (some .following)) (.refused .badValue none))))
    ∧ (s.serves tag (.readArticle n none) → exec (.readArticle tag n none) s
        = .next (s.replied p.taken tag (.readArticle n none) (.refused .badValue none)))

/-- The replies of READ ORDER, READ QUEUE, READ PRINTERS, READ TOTALS and READ JOURNAL (R112, R126, R142, R157, R176). The
order of the SERVING tickets in SUMMARY is log entry 44, OTHER among the 20 entries of ARTICLES log entry 49; a PRICE_APPLY
without an entry position is log entry 17, the refusal of a position before the record is looked for log entry 48, the
reply without entries to a position beyond the last entry log entry 52, and that the records since the latest DAY_CLOSE are
all of the journal's while it holds none log entry 56. READ RECOVERY marks the report as read whenever it shows a part of it,
and the reply says whether it had been read before (R163). READ AUDIT gives the entry of a number up to the audit counter, as
DAMAGED when its check does not agree, and its summary counts the DAMAGED ones and shows the open session with its station,
its steps and the whole seconds before its gap ends (R188, R189). The requests that only read are answered from the part as it
stands and change nothing (R3, R36, R112, R126, R142, R157, R176, R180, R189, R193, R195). -/
def Obligations.ReadRepliesCarry : Prop :=
  (∀ (s : State) (c : Instr) (tag : Nat) (req : HostRequest), c.hostRequest? = some (tag, req) → s.serves tag req →
    (match req with
      | .hello | .status | .readConditions | .readStation _ | .readArticle _ _ | .readOrder _ | .readQueue _
      | .readPrinters _ | .readJournal _ _ | .readTotals _ | .readClose | .readAudit _ => True
      | _ => False) →
    ∃ body, exec c s = .next (s.replied s.part.taken tag req body))
  ∧ (∀ (s : State) (tag n : Nat),
    let p := s.part
    (s.serves tag (.readOrder n) →
      (1 ≤ n → n ≤ 9999 → exec (.readOrder tag n) s = .next (s.replied p.taken tag (.readOrder n) (match p.order n with
          | some o => .done (.order o)
          | none => .refused .noSuch none)))
      ∧ (9999 < n → exec (.readOrder tag n) s
          = .next (s.replied p.taken tag (.readOrder n) (.refused .badValue none)))
      ∧ (n = 0 → (p.om.orders.map Order.number).Nodup → ∃ l : List OrderSummary,
          exec (.readOrder tag n) s = .next (s.replied p.taken tag (.readOrder n) (.done (.orders l)))
          ∧ (l.map OrderSummary.number).Pairwise (· < ·)
          ∧ ∀ x, x ∈ l ↔ ∃ o ∈ p.om.orders, x = ⟨o.number, o.state, o.owner, o.ticket, o.lines.length, o.total⟩))
    ∧ (s.serves tag (.readQueue (some (.waiting n))) →
      (1 ≤ n → n ≤ 64 → exec (.readQueue tag (some (.waiting n))) s
        = .next (s.replied p.taken tag (.readQueue (some (.waiting n)))
            (.done (.waitingTickets ((p.tc.waiting.drop (n - 1)).take 32) p.tc.waiting.length))))
      ∧ (n = 0 ∨ 64 < n → exec (.readQueue tag (some (.waiting n))) s
        = .next (s.replied p.taken tag (.readQueue (some (.waiting n))) (.refused .badValue none))))
    ∧ (s.serves tag (.readQueue (some .summary)) → exec (.readQueue tag (some .summary)) s
      = .next (s.replied p.taken tag (.readQueue (some .summary)) (.done (.queue
          { lastIssued := p.tc.lastIssued
            waiting := p.tc.waiting.length
            called := p.tc.called
            missed := p.tc.missed.map (fun m =>
              (m.ticket.number, m.callTime, (m.missedAt + 600000 - p.time.elapsed) / 1000))
            serving := p.tc.serving.map (fun t => (t.ticket.number, t.order, t.station))
            callList := p.tc.callList
            figures := p.tc.figures
            validFrom := p.tc.validFrom }))))
    ∧ (s.serves tag (.readQueue none) → exec (.readQueue tag none) s
        = .next (s.replied p.taken tag (.readQueue none) (.refused .badValue none)))
    ∧ (s.serves tag (.readPrinters (some (.jobs n))) →
      (1 ≤ n → n ≤ 32 → exec (.readPrinters tag (some (.jobs n))) s
        = .next (s.replied p.taken tag (.readPrinters (some (.jobs n)))
            (.done (.jobs (((p.lu.queue.drop (n - 1)).take 16).map
              (fun j => ⟨j.kind, j.label, j.target, j.released, j.atPrinter⟩)) p.lu.queue.length))))
      ∧ (n = 0 ∨ 32 < n → exec (.readPrinters tag (some (.jobs n))) s
        = .next (s.replied p.taken tag (.readPrinters (some (.jobs n))) (.refused .badValue none))))
    ∧ (s.serves tag (.readPrinters (some .summary)) → ∃ r : PerPrinter PrinterReport,
      exec (.readPrinters tag (some .summary)) s = .next (s.replied p.taken tag (.readPrinters (some .summary))
          (.done (.printers r p.lu.queue.length p.lu.lastLabel p.lu.cancelled)))
      ∧ ∀ pr, (r.get pr).state = (p.lu.printers.get pr).state
        ∧ (r.get pr).job = (p.lu.queue.find? (fun j => j.target = pr && j.atPrinter)).map (fun j => (j.label, j.kind))
        ∧ (r.get pr).held = (p.lu.queue.filter (fun j => j.target = pr && !j.released)).length
        ∧ (r.get pr).released = (p.lu.queue.filter (fun j => j.target = pr && j.released)).length)
    ∧ (s.serves tag (.readPrinters none) → exec (.readPrinters tag none) s
        = .next (s.replied p.taken tag (.readPrinters none) (.refused .badValue none)))
    ∧ (∀ part, s.serves tag (.readTotals part) →
      let a := p.tt.accumulators
      let r : TotalsReport := ⟨p.tt.counter, p.tt.day, p.tt.grandTotal, p.time.clock, p.time.valid, p.tt.scheduled.isSome⟩
      let gives (d : TotalsData) : Prop :=
        exec (.readTotals tag part) s = .next (s.replied p.taken tag (.readTotals part) (.done (.totals d r)))
      (part = some .counter → gives (.counter a.counter p.tt.interrupted))
      ∧ (part = some .departments → gives (.departments a.departments))
      ∧ (part = some .stations → gives (.stations a.stations))
      ∧ (part = some .clerks → gives (.clerks a.clerks a.otherClerks))
      ∧ (part = some (.articles n) → 1 ≤ n → n ≤ 2049 →
        (n + 19 ≤ a.articles.length → gives (.articles ((a.articles.drop (n - 1)).take 20) none a.articles.length))
        ∧ (n ≤ a.articles.length + 1 → a.articles.length < n + 19 →
            gives (.articles (a.articles.drop (n - 1)) (some a.other) a.articles.length))
        ∧ (a.articles.length + 1 < n → gives (.articles [] none a.articles.length)))
      ∧ (part = none ∨ (∃ k, part = some (.articles k) ∧ (k = 0 ∨ 2049 < k)) → exec (.readTotals tag part) s
          = .next (s.replied p.taken tag (.readTotals part) (.refusedTotals .badValue r))))
    ∧ (∀ entry, s.serves tag (.readJournal n entry) → ∃ r : JournalReport,
      let rs := journalRecords p.nv.sectors
      let gives (x : RecordReport) : Prop := exec (.readJournal tag n entry) s
          = .next (s.replied p.taken tag (.readJournal n entry) (.done (.journal x r)))
      let refused (e : Reason) : Prop := exec (.readJournal tag n entry) s
          = .next (s.replied p.taken tag (.readJournal n entry) (.refusedJournal e r))
      let shows (x : Record) : Prop := (∀ g es t, x ≠ .priceApply g es t) ∧ gives ⟨x, none⟩
        ∨ ∃ g es t, x = .priceApply g es t
          ∧ gives ⟨.priceApply g ((es.drop (entry.getD 1 - 1)).take 3) t, some es.length⟩
      let walk (since : List Record) : Prop :=
        (∀ k, n = k + 1 → (∀ x, since[k]? = some x → shows x) ∧ (since.length ≤ k → refused .noSuch))
        ∧ r.recordsSinceClose = since.length
      let noClose (l : List Record) : Prop := ∀ d, .dayClose d ∉ l
      r.day = p.tt.day ∧ r.erased = p.erasedCount ∧ r.bad = p.badCount ∧ r.fault = p.tj.fault
      ∧ r.erasing = p.tj.erase.isSome ∧ r.placesInUse = p.tj.queue.length
      ∧ (65535 < n ∨ entry = some 0 ∨ (∃ e, entry = some e ∧ 64 < e) → refused .badValue)
      ∧ (n ≤ 65535 → (∀ e, entry = some e → 1 ≤ e ∧ e ≤ 64) →
        (noClose rs → walk rs ∧ (n = 0 → refused .noSuch))
        ∧ ∀ before d since, rs = before ++ .dayClose d :: since → noClose since →
          walk since ∧ (n = 0 → gives ⟨.dayClose d, none⟩))))
  ∧ ∀ (s : State) (tag n : Nat),
    (∀ r, s.serves tag (.readRecovery n) → s.part.tt.report = some r →
      (n = 0 → exec (.readRecovery tag n) s = .next (s.replied
          { s.part.taken with tt := { s.part.tt with report := some { r with read := true } } } tag (.readRecovery n)
          (.done (.recoverySummary r.cause r.early r.orders.length ((r.orders.map InterruptedOrder.value).sum) r.read))))
      ∧ (∀ o, 1 ≤ n → n ≤ 16 → r.orders[n - 1]? = some o → exec (.readRecovery tag n) s = .next (s.replied
          { s.part.taken with tt := { s.part.tt with report := some { r with read := true } } } tag (.readRecovery n)
          (.done (.recoveryOrder o r.read))))
      ∧ (1 ≤ n → n ≤ 16 → r.orders.length < n → exec (.readRecovery tag n) s
          = .next (s.replied s.part.taken tag (.readRecovery n) (.refused .noSuch none))))
    ∧ (s.serves tag (.readRecovery n) → 16 < n → exec (.readRecovery tag n) s
        = .next (s.replied s.part.taken tag (.readRecovery n) (.refused .badValue none)))
    ∧ (s.serves tag (.readAudit n) →
      let reads (a : AuditSlot) : AuditSlot := match a with
        | .written e =>
          if e.check = e.checkOf then .written e else .damaged
        | .damaged => .damaged
      (∀ a, 1 ≤ n → n ≤ 128 → n ≤ s.part.nv.auditCounter → s.part.nv.audit[n - 1]? = some a →
        exec (.readAudit tag n) s = .next (s.replied s.part.taken tag (.readAudit n) (.done (.auditEntry (reads a)))))
      ∧ (n = 0 → ∃ r : AuditReport,
        exec (.readAudit tag n) s = .next (s.replied s.part.taken tag (.readAudit n) (.done (.audit r)))
        ∧ r.counter = s.part.nv.auditCounter
        ∧ r.damaged = (s.part.nv.audit.filter (fun a => decide (reads a = .damaged))).length
        ∧ r.switch = s.part.inputs.calibrationSwitch ∧ r.lastEnd = s.part.cc.lastEnd
        ∧ (s.part.cc.session = none → r.session = none)
        ∧ ∀ x, s.part.cc.session = some x → ∃ y, r.session = some y ∧ y.station = x.station
          ∧ (y.hasZero = true ↔ x.newZero ≠ none) ∧ (y.hasSpan = true ↔ x.newSpan ≠ none)
          ∧ (y.hasIntervals = true ↔ x.newIntervals ≠ none)
          ∧ y.secondsLeft = (x.gapMark + 120000 - s.part.time.elapsed) / 1000)
      ∧ (s.part.nv.auditCounter < n → n ≤ 128 → exec (.readAudit tag n) s
          = .next (s.replied s.part.taken tag (.readAudit n) (.refused .noSuch none)))
      ∧ (128 < n → exec (.readAudit tag n) s
          = .next (s.replied s.part.taken tag (.readAudit n) (.refused .badValue none))))

/-- READ CLOSE answers with the last close, or with NO_SUCH, and changes nothing (R180). -/
def Obligations.ReadCloseGivesTheLastClose : Prop :=
  ∀ (s : State) (tag : Nat), s.serves tag .readClose → exec (.readClose tag) s
    = .next (s.replied s.part.taken tag .readClose (match s.part.tt.lastClose with
        | some d => .done (.lastClose d)
        | none => .refused .noSuch none))

/-! ## Price generations -/

/-- BEGIN CHANGE in its order of checks (R55): an open set, or a store-back that runs, is BUSY; a store-back OWED is
STORE_FAULT; another base generation is GENERATION_MISMATCH with the current one; otherwise the set is OPEN and empty. The
present time becomes the last-message time of an OPEN set, even where the request is refused (R59). -/
def Obligations.BeginChangeOpensTheSet : Prop :=
  ∀ (s : State) (tag base : Nat), s.serves tag (.beginChange base) →
    let p := s.part.taken
    (p.art.changeSet ≠ .none → exec (.beginChange tag base) s
      = .next (s.replied p.touchChange tag (.beginChange base) (.refused .busy none)))
    ∧ (p.art.changeSet = .none → (∃ g stage later, p.art.storeBack = .storing g stage later) →
        exec (.beginChange tag base) s = .next (s.replied p tag (.beginChange base) (.refused .busy none)))
    ∧ (p.art.changeSet = .none → (∃ g, p.art.storeBack = .owed g) →
        exec (.beginChange tag base) s = .next (s.replied p tag (.beginChange base) (.refused .storeFault none)))
    ∧ (p.art.changeSet = .none → p.art.storeBack = .idle → base ≠ p.art.generation → exec (.beginChange tag base) s
        = .next (s.replied p tag (.beginChange base) (.refused .generationMismatch (some p.art.generation))))
    ∧ (p.art.changeSet = .none → p.art.storeBack = .idle → base = p.art.generation → exec (.beginChange tag base) s
        = .next (s.replied { p with art := { p.art with changeSet := .opened base [] p.time.elapsed } }
            tag (.beginChange base) (.done (.generation p.art.generation))))

/-- The staged requests (R34, R56 to R59). On an OPEN set each is judged in its order of checks: BAD_VALUE for the fields of a
PUT or an article number out of range; NO_SUCH for a DELETE, HOLD or RELEASE of an article that is not in the table; STAGE_FULL
for a 65th article, whichever request it is; RANGE for a PUT that would leave no room in the table. Otherwise its entry joins
in ascending article number or replaces that of its article, and the reply carries the number of entries. The last-message
time is now, whatever the answer. Without a set they are refused with WRONG_STATE, and in SCHEDULED and APPLYING with BUSY.
The record of a PUT that passes, and the fields that make it fail, are those of R33: a COUNTED or FIXED record takes the rounding
mode, price step and preset tare that R33 stores, and the generation stays 0 until the switch sets it (R32). CHANGE STATUS reports
the set in every phase and restarts the expiry of an OPEN one (R59, R61; that the seconds left then read 60 is log entry 25); 60 s
after the last-message time the set is gone, with STAGING_EXPIRED (R59). The deadline is reached by the command (log
entry 4). -/
def Obligations.StagedRequestsAndTheirExpiry : Prop :=
  (∀ (s : State) (tag base last : Nat) (es : List ChangeEntry), s.part.art.changeSet = .opened base es last →
    let p := s.part.taken
    let staged (e : ChangeEntry) : Part :=
      { p with art := { p.art with
          changeSet := .opened base (insertByKey ChangeEntry.number e es) p.time.elapsed } }
    let reply (e : ChangeEntry) : ReplyBody := .done (.staged (insertByKey ChangeEntry.number e es).length)
    let touched : Part := { p with art := { p.art with changeSet := .opened base es p.time.elapsed } }
    let joins (n : Nat) : Prop := (∃ e ∈ es, e.number = n) ∨ es.length < 64
    let inTable (n : Nat) : Prop := ∃ b ∈ p.art.table, b.number = n
    let count : Nat :=
      p.art.table.length + (es.filter (fun e => e.isPut && decide (∀ b ∈ p.art.table, b.number ≠ e.number))).length
    let room (n : Nat) : Prop :=
      inTable n ∨ (∃ b, lookup ChangeEntry.number n es = some (.put b)) ∨ count < 2000
    (∀ f, s.serves tag (.stagePut f) →
      (articleOf f = none →
        exec (.stagePut tag f) s = .next (s.replied touched tag (.stagePut f) (.refused .badValue none)))
      ∧ ∀ a, articleOf f = some a →
        (¬ joins a.number →
          exec (.stagePut tag f) s = .next (s.replied touched tag (.stagePut f) (.refused .stageFull none)))
        ∧ (joins a.number → ¬ room a.number →
          exec (.stagePut tag f) s = .next (s.replied touched tag (.stagePut f) (.refused .range none)))
        ∧ (joins a.number → room a.number →
          exec (.stagePut tag f) s = .next (s.replied (staged (.put a)) tag (.stagePut f) (reply (.put a)))))
    ∧ ∀ (n : Nat) (c : Instr) (req : HostRequest) (e : ChangeEntry),
      (c = .stageDelete tag n ∧ req = .stageDelete n ∧ e = .delete n)
        ∨ (c = .stageHold tag n ∧ req = .stageHold n ∧ e = .hold n)
        ∨ (c = .stageRelease tag n ∧ req = .stageRelease n ∧ e = .release n) →
      s.serves tag req →
      (n = 0 ∨ 99999 < n → exec c s = .next (s.replied touched tag req (.refused .badValue none)))
      ∧ (1 ≤ n → n ≤ 99999 →
        (¬ inTable n → exec c s = .next (s.replied touched tag req (.refused .noSuch none)))
        ∧ (inTable n → ¬ joins n → exec c s = .next (s.replied touched tag req (.refused .stageFull none)))
        ∧ (inTable n → joins n → exec c s = .next (s.replied (staged e) tag req (reply e)))))
  ∧ (∀ (s : State) (c : Instr) (tag : Nat) (req : HostRequest), c.hostRequest? = some (tag, req) → s.serves tag req →
    ((∃ f, req = .stagePut f) ∨ ∃ n, req = .stageDelete n ∨ req = .stageHold n ∨ req = .stageRelease n) →
    (s.part.art.changeSet = .none → exec c s = .next (s.replied s.part.taken tag req (.refused .wrongState none)))
    ∧ (s.part.art.changeSet.phase = .scheduled ∨ s.part.art.changeSet.phase = .applying →
      exec c s = .next (s.replied s.part.taken tag req (.refused .busy none))))
  ∧ (∀ (f : ArticleFields) (k : ArticleKind),
    let common : Prop := 1 ≤ f.number ∧ f.number ≤ 99999 ∧ 1 ≤ f.unitPrice ∧ f.unitPrice ≤ 99999 ∧ 1 ≤ f.department
      ∧ f.department ≤ 16 ∧ 1 ≤ f.name.length ∧ f.name.length ≤ 24 ∧ (∀ c ∈ f.name, 0x20 ≤ c.toNat ∧ c.toNat ≤ 0x7E)
      ∧ ∀ days, f.shelfLife = some days → 1 ≤ days ∧ days ≤ 99
    let weighed : Prop := (f.step = 1 ∨ f.step = 2 ∨ f.step = 5 ∨ f.step = 10) ∧ ∀ v, f.presetTare = some v → v ≤ 99999
    (f.kind = none ∨ ¬ common → articleOf f = none)
    ∧ (common → f.kind = some k → k ≠ .weighed → articleOf f
        = some ⟨f.number, k, f.unitPrice, .nearest, 1, none, f.department, f.name, f.shelfLife, f.held, 0⟩)
    ∧ (common → f.kind = some .weighed →
      (∀ mode, f.rounding = some mode → weighed → articleOf f = some
        ⟨f.number, .weighed, f.unitPrice, mode, f.step, f.presetTare, f.department, f.name, f.shelfLife, f.held, 0⟩)
      ∧ (f.rounding = none ∨ ¬ weighed → articleOf f = none)))
  ∧ (∀ (s : State) (tag : Nat), s.serves tag .changeStatus → (∀ b es t, s.part.art.changeSet ≠ .opened b es t) →
    let p := s.part
    ∃ r : ChangeReport, exec (.changeStatus tag) s
        = .next (s.replied p.taken tag .changeStatus (.done (.changeStatus r)))
      ∧ (p.art.changeSet = .none → r.phase = .none ∧ r.base = none ∧ r.entries = none ∧ r.scheduledTime = none)
      ∧ (∀ b es t, p.art.changeSet = .scheduled b es t →
        r.phase = .scheduled ∧ r.base = some b ∧ r.entries = some es.length ∧ r.scheduledTime = some t)
      ∧ (∀ b es t, p.art.changeSet = .applying b es t →
        r.phase = .applying ∧ r.base = some b ∧ r.entries = some es.length ∧ r.scheduledTime = none)
      ∧ r.secondsLeft = none ∧ r.generation = p.art.generation ∧ r.records = p.art.table.length
      ∧ r.storeBack = (match p.art.storeBack with
          | .idle => .idle
          | .storing g _ _ => .storing g
          | .owed g => .owed g)
      ∧ r.areaGeneration = p.nv.areaGeneration ∧ r.confirmed = p.art.confirmed)
  ∧ ∀ (s : State) (tag base last : Nat) (es : List ChangeEntry), s.part.art.changeSet = .opened base es last →
    let p := s.part.taken
    (s.serves tag .changeStatus → ∃ r : ChangeReport,
      exec (.changeStatus tag) s = .next (s.replied
        { p with art := { p.art with changeSet := .opened base es p.time.elapsed } } tag .changeStatus
        (.done (.changeStatus r)))
      ∧ r.phase = .opened ∧ r.base = some base ∧ r.entries = some es.length ∧ r.secondsLeft = some 60
      ∧ r.scheduledTime = none ∧ r.generation = p.art.generation ∧ r.records = p.art.table.length
      ∧ r.storeBack = p.art.storeBack.phase ∧ r.areaGeneration = p.nv.areaGeneration ∧ r.confirmed = p.art.confirmed)
    ∧ (s.runs → ∃ q : Part, exec .changeSetExpiry s
        = .next { s with part := q.latch .stagingExpired (some (.staging base es.length)) }
      ∧ q = { s.part with
          art := { s.part.art with changeSet := .none }
          time := s.part.time.advance (last + 60000 - s.part.time.elapsed) }
      ∧ (s.part.time.elapsed ≤ last + 60000 → q.time.elapsed = last + 60000))

/-- DISCARD CHANGE (R60). -/
def Obligations.DiscardChangeEndsTheSet : Prop :=
  ∀ (s : State) (tag : Nat), s.serves tag .discardChange →
    let p := s.part.taken
    (∀ b es t, p.art.changeSet = .opened b es t → exec (.discardChange tag) s = .next (s.replied
        { p with art := { p.art with changeSet := .none } } tag .discardChange (.done .nothing)))
    ∧ (∀ b es t, p.art.changeSet = .scheduled b es t → exec (.discardChange tag) s = .next (s.replied
        { p with art := { p.art with changeSet := .none }, tt := { p.tt with scheduled := none } }
        tag .discardChange (.done .nothing)))
    ∧ (∀ b es t, p.art.changeSet = .applying b es t →
        exec (.discardChange tag) s = .next (s.replied p tag .discardChange (.refused .busy none)))
    ∧ (p.art.changeSet = .none →
        exec (.discardChange tag) s = .next (s.replied p tag .discardChange (.refused .wrongState none)))

/-- APPLY NOW queues the PRICE_APPLY record with the next generation and is ACCEPTED; APPLY AT schedules the set; both in the
order of checks of R62 and R63. The moment that APPLY AT fixes is that of R171, and each accepted one stays pending until
SCHEDULED_TIME_REACHED: that this is so for the present second too, which R171 lets fall at once, is the model's choice (log
entry 33), as is the moment after the return of the clock (log entry 18). -/
def Obligations.AppliesCompareTheGeneration : Prop :=
  (∀ (s : State) (tag base last h m x : Nat) (es : List ChangeEntry), s.part.art.changeSet = .opened base es last →
    let p := s.part.taken
    let touched : Part := { p with art := { p.art with changeSet := .opened base es p.time.elapsed } }
    let r : Record := .priceApply (p.art.generation + 1) es p.stamp
    (s.serves tag .applyNow →
      let refused (e : Reason) (g : Option Nat) : Prop :=
        exec (.applyNow tag) s = .next (s.replied touched tag .applyNow (.refused e g))
      (es = [] → refused .wrongState none)
      ∧ (es ≠ [] → base ≠ p.art.generation → refused .generationMismatch (some p.art.generation))
      ∧ (es ≠ [] → base = p.art.generation → 4294967295 ≤ p.art.generation → refused .range none)
      ∧ (es ≠ [] → base = p.art.generation → p.art.generation < 4294967295 →
        (∀ e, p.journalCheck (64 + 49 * es.length) 2 = .error e → refused e none)
        ∧ (p.journalCheck (64 + 49 * es.length) 2 = .ok () →
          ∃ q, exec (.applyNow tag) s = .next (s.replied q tag .applyNow .accepted)
            ∧ q.tj = p.tj.taking (.filled r) ∧ q.art = { p.art with changeSet := .applying base es none }
            ∧ q.nv = p.nv ∧ q.om = p.om ∧ q.wc = p.wc ∧ q.tt = p.tt ∧ q.lu = p.lu ∧ q.ml = p.ml ∧ q.time = p.time)))
    ∧ (s.serves tag (.applyAt h m x) →
      let refused (e : Reason) (g : Option Nat) : Prop :=
        exec (.applyAt tag h m x) s = .next (s.replied touched tag (.applyAt h m x) (.refused e g))
      let timeOk := h ≤ 23 ∧ m ≤ 59 ∧ x ≤ 59
      (es = [] → refused .wrongState none)
      ∧ (es ≠ [] → ¬ timeOk → refused .badValue none)
      ∧ (es ≠ [] → timeOk → p.time.valid = false → refused .clockUnset none)
      ∧ (es ≠ [] → timeOk → p.time.valid = true →
        (base ≠ p.art.generation → refused .generationMismatch (some p.art.generation))
        ∧ (base = p.art.generation → 4294967295 ≤ p.art.generation → refused .range none)
        ∧ (base = p.art.generation → p.art.generation < 4294967295 →
          ∃ date : Date, exec (.applyAt tag h m x) s = .next (s.replied
            { p with
              art := { p.art with changeSet := .scheduled base es ⟨h, m, x⟩ }
              tt := { p.tt with scheduled := some ⟨date, ⟨h, m, x⟩⟩ } }
            tag (.applyAt h m x) .accepted)
          ∧ (p.time.clock.time.seconds ≤ (⟨h, m, x⟩ : TimeOfDay).seconds → date = p.time.clock.date)
          ∧ ((⟨h, m, x⟩ : TimeOfDay).seconds < p.time.clock.time.seconds →
              date = p.time.clock.date.clockFollowing)))))
  ∧ ∀ (s : State) (c : Instr) (tag : Nat) (req : HostRequest), c.hostRequest? = some (tag, req) → s.serves tag req →
    (req = .applyNow ∨ ∃ h m x, req = .applyAt h m x) →
    (s.part.art.changeSet = .none → exec c s = .next (s.replied s.part.taken tag req (.refused .wrongState none)))
    ∧ (s.part.art.changeSet.phase = .scheduled ∨ s.part.art.changeSet.phase = .applying →
      exec c s = .next (s.replied s.part.taken tag req (.refused .busy none)))

/-- The scheduled time is reached (R64, R171): in FAULT or without space the set returns to OPEN and APPLY_DONE says FAILED;
otherwise the PRICE_APPLY record takes a place of the write queue, or waits for the first that frees. A report that finds no
SCHEDULED set is ignored (R64). SET CLOCK sets the clock and makes it valid (R168, R169); it refuses a date that is none with
BAD_VALUE; with a scheduled moment at or before the new time the moment is reported to AT in the same step, with the same
outcomes (R64, R171). That a moment on 2000-01-01 fixed on 2099-12-31 lies ahead of the clock, and that SET CLOCK compares the
moment and the new reading as dates and times, is the model's choice (log entry 18). The moment is reached by the command, and
the new second begins at SET CLOCK (log entry 4). The passing of time raises the elapsed-time count and keeps the validity, and
each 1,000 ms the clock advances by one second, by the calendar at 23:59:59 (R168, R170); it goes on from where it stands,
however the time is cut into pieces. -/
def Obligations.ScheduledTimeAndSetClock : Prop :=
  (∀ (t : TimeBase) (m n : Nat),
    (t.advance m).elapsed = t.elapsed + m ∧ (t.advance m).valid = t.valid ∧ (t.advance m).phase = (t.phase + m) % 1000
    ∧ t.advance (m + n) = (t.advance m).advance n
    ∧ (t.phase + m < 1000 → (t.advance m).clock = t.clock)
    ∧ (t.clock.OnClock → 1000 ≤ t.phase + m → t.phase + m < 2000 → OneSecondLater t.clock (t.advance m).clock)
    ∧ (t.Runs → OneSecondLater t.clock (t.advance 1000).clock ∧ (t.advance 1000).phase = t.phase))
  ∧ (∀ (s : State) (base : Nat) (es : List ChangeEntry) (t : TimeOfDay) (moment : DateTime), s.runs →
    s.part.art.changeSet = .scheduled base es t → s.part.tt.scheduled = some moment →
    let q : Part := { s.part with
      tt := { s.part.tt with scheduled := none }
      time := s.part.time.advance (secondsUntil s.part.time.clock moment * 1000 - s.part.time.phase) }
    ∃ u, exec .scheduledTimeReached s = .next { s with part := u } ∧ q.ScheduleReported u base es t)
  ∧ ∀ (s : State) (tag y mo d h mi x : Nat), s.serves tag (.setClock y mo d h mi x) →
    let p := s.part.taken
    let t : DateTime := ⟨⟨y, mo, d⟩, ⟨h, mi, x⟩⟩
    let valid := 2000 ≤ y ∧ y ≤ 2099 ∧ 1 ≤ mo ∧ mo ≤ 12 ∧ 1 ≤ d ∧ d ≤ daysOfMonth y mo ∧ h ≤ 23 ∧ mi ≤ 59 ∧ x ≤ 59
    (¬ valid → exec (.setClock tag y mo d h mi x) s
      = .next (s.replied p tag (.setClock y mo d h mi x) (.refused .badValue none)))
    ∧ (valid →
      let done (q : Part) : Prop := exec (.setClock tag y mo d h mi x) s
        = .next (s.replied q tag (.setClock y mo d h mi x) (.done .nothing))
      let q : Part := { p with time := { p.time with clock := t, valid := true, phase := 0 } }
      let reported : Part := { q with tt := { p.tt with scheduled := none } }
      ((p.tt.scheduled = none ∨ ∃ m, p.tt.scheduled = some m ∧ t.seconds < m.seconds) → done q)
      ∧ ∀ m, p.tt.scheduled = some m → m.seconds ≤ t.seconds →
        ((∀ b es tm, p.art.changeSet ≠ .scheduled b es tm) → done reported)
        ∧ ∀ b es tm, p.art.changeSet = .scheduled b es tm → ∃ u, done u ∧ reported.ScheduleReported u b es tm)

/-! ## Operators -/

/-- SET CLERK and REMOVE CLERK: their checks in order, the write they wait for, and what its end changes (R75, R76). SET CLERK
is BAD_VALUE for a number outside 1 to 99, without a role of the two, or for a name that is empty, longer than 12 characters
or holds a character outside 20h to 7Eh; REMOVE CLERK is BAD_VALUE for a number outside 1 to 99. -/
def Obligations.ClerkTableWrites : Prop :=
  ∀ (s : State) (tag : Nat),
    let p := s.part
    (∀ (n : Nat) (role : Option Role) (name : Text), s.serves tag (.setClerk n role name) →
      n = 0 ∨ 99 < n ∨ role = none ∨ name = [] ∨ 12 < name.length ∨ (∃ c ∈ name, c.toNat < 0x20 ∨ 0x7E < c.toNat) →
      exec (.setClerk tag n role name) s
        = .next (s.replied p.taken tag (.setClerk n role name) (.refused .badValue none)))
    ∧ (∀ n, s.serves tag (.removeClerk n) → n = 0 ∨ 99 < n → exec (.removeClerk tag n) s
        = .next (s.replied p.taken tag (.removeClerk n) (.refused .badValue none)))
    ∧ ∀ (n : Nat) (role : Role) (name : Text), 1 ≤ n → n ≤ 99 →
      let inTable := ∃ c ∈ p.oc.clerks, c.number = n
      (s.serves tag (.setClerk n (some role) name) → 1 ≤ name.length → name.length ≤ 12 →
        (∀ c ∈ name, 0x20 ≤ c.toNat ∧ c.toNat ≤ 0x7E) →
        (inTable ∨ p.oc.clerks.length < 32 → exec (.setClerk tag n (some role) name) s
          = .next (s.writing p.taken tag (.setClerk n (some role) name) (.setClerk ⟨n, role, name⟩)))
        ∧ (¬ inTable → 32 ≤ p.oc.clerks.length → exec (.setClerk tag n (some role) name) s
          = .next (s.replied p.taken tag (.setClerk n (some role) name) (.refused .range none))))
      ∧ (s.serves tag (.removeClerk n) →
        let used := (∃ st, (p.stack st).operator = some n ∨ (p.stack st).second = some n) ∨ ∃ o ∈ p.om.orders, o.owner = n
        (¬ inTable → exec (.removeClerk tag n) s
          = .next (s.replied p.taken tag (.removeClerk n) (.refused .noSuch none)))
        ∧ (inTable → used → exec (.removeClerk tag n) s
          = .next (s.replied p.taken tag (.removeClerk n) (.refused .busy none)))
        ∧ (inTable → ¬ used → exec (.removeClerk tag n) s
          = .next (s.writing p.taken tag (.removeClerk n) (.removeClerk n))))
      ∧ (∀ req c, s.runs → p.ml.serving = some ⟨tag, req, .setClerk c⟩ →
        let new := insertByKey Clerk.number c p.oc.clerks
        exec (.setClerkWriteDone true) s = .next (s.replied
          { p with
            nv := { p.nv with settings := { p.nv.settings with clerks := new } }
            oc := { p.oc with clerks := new }
            ml := { p.ml with serving := none } } tag req (.done (.clerk c new.length)))
        ∧ exec (.setClerkWriteDone false) s = .next (s.replied
          { p.latch .storeFault (some (.store .settingsArea)) with
            ml := { (p.latch .storeFault (some (.store .settingsArea))).ml with serving := none } } tag req
          (.refused .storeFault none)))
      ∧ (∀ req, s.runs → p.ml.serving = some ⟨tag, req, .removeClerk n⟩ →
        let new := p.oc.clerks.filter (fun c => c.number != n)
        exec (.removeClerkWriteDone true) s = .next (s.replied
          { p with
            nv := { p.nv with settings := { p.nv.settings with clerks := new } }
            oc := { p.oc with clerks := new }
            ml := { p.ml with serving := none } } tag req (.done (.clerks new.length)))
        ∧ exec (.removeClerkWriteDone false) s = .next (s.replied
          { p.latch .storeFault (some (.store .settingsArea)) with
            ml := { (p.latch .storeFault (some (.store .settingsArea))).ml with serving := none } } tag req
          (.refused .storeFault none)))

/-- SIGN ON takes the clerk as entry 1 of an empty stack, once at one station (R80); while the write that removes the clerk is
in flight it is BUSY, in place of its check that the clerk is in the table (R76). On a stack that is not empty it is
WRONG_STATE (R78). SIGN OFF and SIGN OFF CLERK empty the stack, clear the selection, drop a preset tare, and park the active
order (R81, R83, R103). SIGN OFF CLERK is BAD_VALUE outside 1 to 99, NO_SUCH for a clerk not in the table, and WRONG_STATE for
a clerk who is signed on nowhere (R83). -/
def Obligations.SignOnAndOff : Prop :=
  ∀ (s : State) (st : StationNo) (tag n : Nat),
    let p := s.part.keyTaken st tag
    (s.takesKey st tag → p.oc.stack.get st = .empty → 1 ≤ n → n ≤ 99 → (∃ c ∈ p.oc.clerks, c.number = n) →
      s.part.removing n = false →
      ((∀ x, (p.stack x).operator ≠ some n) → exec (.signOn st tag n) s
        = .next (s.outcome { p with oc := { p.oc with stack := p.oc.stack.set st (.signedOn n) } } st tag
            (.accepted .nothing)))
      ∧ ((∃ x, (p.stack x).operator = some n) → exec (.signOn st tag n) s
        = .next (s.outcome p st tag (.refused .busy))))
    ∧ (s.takesKey st tag → p.oc.stack.get st = .empty →
      (n = 0 ∨ 99 < n → exec (.signOn st tag n) s = .next (s.outcome p st tag (.refused .badValue)))
      ∧ (1 ≤ n → n ≤ 99 →
        (∀ hostTag req, s.part.ml.serving = some ⟨hostTag, req, .removeClerk n⟩ →
          exec (.signOn st tag n) s = .next (s.outcome p st tag (.refused .busy)))
        ∧ ((∀ hostTag req, s.part.ml.serving ≠ some ⟨hostTag, req, .removeClerk n⟩) →
          (∀ c ∈ p.oc.clerks, c.number ≠ n) →
          exec (.signOn st tag n) s = .next (s.outcome p st tag (.refused .noSuch)))))
    ∧ (∀ operator, s.takesKeyOf st tag operator →
      exec (.signOn st tag n) s = .next (s.outcome p st tag (.refused .wrongState)))
    ∧ (s.takesKeyOf st tag n → (p.om.active.get st = none ∨ ∃ o, p.activeOrder st = some o) →
      ∃ q, exec (.signOff st tag) s = .next (s.outcome q st tag (.accepted .nothing)) ∧ p.SignedOff q st)
    ∧ (∀ req, req = .signOffClerk n → s.serves tag req →
      (n = 0 ∨ 99 < n →
        exec (.signOffClerk tag n) s = .next (s.replied s.part.taken tag req (.refused .badValue none)))
      ∧ (1 ≤ n → n ≤ 99 → (∀ c ∈ s.part.oc.clerks, c.number ≠ n) →
        exec (.signOffClerk tag n) s = .next (s.replied s.part.taken tag req (.refused .noSuch none))))
    ∧ (∀ req, req = .signOffClerk n → s.serves tag req → 1 ≤ n → n ≤ 99 → (∃ c ∈ s.part.oc.clerks, c.number = n) →
      ((∀ x, (s.part.stack x).operator ≠ some n) →
        exec (.signOffClerk tag n) s = .next (s.replied s.part.taken tag req (.refused .wrongState none)))
      ∧ ((s.part.stack st).operator = some n → (∀ x, x ≠ st → (s.part.stack x).operator ≠ some n) →
        (s.part.om.active.get st = none ∨ ∃ o, s.part.activeOrder st = some o) →
        ∃ q, exec (.signOffClerk tag n) s = .next (s.replied q tag req
            (.done (.signedOff st ((s.part.activeOrder st).map Order.number))))
          ∧ s.part.taken.SignedOff q st))

/-- OVERRIDE puts a supervisor over the operator for 30 s, at most two deep (R84); while the write that removes that clerk is
in flight it is BUSY, in place of its check that the clerk is in the table (R76). END OVERRIDE (R86) and the deadline take the
entry away again (R87). The deadline is reached by the command (log entry 4). -/
def Obligations.OverridesLastThirtySeconds : Prop :=
  ∀ (s : State) (st : StationNo) (tag operator n : Nat),
    let p := s.part.keyTaken st tag
    (∀ c, s.takesKey st tag → p.oc.stack.get st = .signedOn operator → p.clerk n = some c → s.part.removing n = false →
      1 ≤ n → n ≤ 99 →
      (c.role = .supervisor → exec (.override st tag n) s = .next (s.outcome
        { p with oc := { p.oc with stack := p.oc.stack.set st (.overridden operator n (p.time.elapsed + 30000)) } } st tag
        (.accepted .nothing)))
      ∧ (c.role = .clerk → exec (.override st tag n) s = .next (s.outcome p st tag (.refused .notAllowed))))
    ∧ (∀ x d, s.takesKey st tag → p.oc.stack.get st = .overridden operator x d → 1 ≤ n → n ≤ 99 →
        exec (.override st tag n) s = .next (s.outcome p st tag (.refused .nestLimit)))
    ∧ (s.takesKeyOf st tag operator → n = 0 ∨ 99 < n →
        exec (.override st tag n) s = .next (s.outcome p st tag (.refused .badValue)))
    ∧ (s.takesKey st tag → p.oc.stack.get st = .signedOn operator → 1 ≤ n → n ≤ 99 →
      (∀ hostTag req, s.part.ml.serving = some ⟨hostTag, req, .removeClerk n⟩ →
        exec (.override st tag n) s = .next (s.outcome p st tag (.refused .busy)))
      ∧ ((∀ hostTag req, s.part.ml.serving ≠ some ⟨hostTag, req, .removeClerk n⟩) → p.clerk n = none →
        exec (.override st tag n) s = .next (s.outcome p st tag (.refused .noSuch))))
    ∧ (∀ x d, s.takesKey st tag → p.oc.stack.get st = .overridden operator x d → exec (.endOverride st tag) s
        = .next (s.outcome { p with oc := { p.oc with stack := p.oc.stack.set st (.signedOn operator) } } st tag
          (.accepted .nothing)))
    ∧ (s.takesKey st tag → p.oc.stack.get st = .signedOn operator →
        exec (.endOverride st tag) s = .next (s.outcome p st tag (.refused .wrongState)))
    ∧ (∀ x d, s.runs → s.part.oc.stack.get st = .overridden operator x d →
        exec (.overrideDeadline st) s = .next { s with part := { s.part with
          oc := { s.part.oc with stack := s.part.oc.stack.set st (.signedOn operator) }
          time := s.part.time.advance (d - s.part.time.elapsed) } })

/-- While the counter is STARTING a key request other than ZERO, TARE and CLEAR TARE is refused with BUSY; on an empty stack
every key request but SIGN ON and those three is refused with NOT_ALLOWED; both reach no other block (R78). While the write of a
SET STATION that disables the station is in flight, every key request of the station is refused with BUSY and reaches no other
block (R3). A key request whose tag is the one kept is not served again (R197). -/
def Obligations.KeyRequestsNeedAnOperator : Prop :=
  ∀ (s : State) (c : Instr) (st : StationNo) (tag : Nat) (k : Key), c.keyRequest? = some (st, tag, k) →
    let weighing := k = .zero ∨ k = .tare ∨ k = .clearTare
    (s.runs → s.part.link st = .present → 1 ≤ tag → tag ≤ 255 → (s.part.ml.stations.get st).keptTag ≠ some tag →
      s.part.disabling st = false → s.part.tt.counter = .starting → ¬ weighing →
      exec c s = .next (s.outcome (s.part.keyTaken st tag) st tag (.refused .busy)))
    ∧ (s.takesKey st tag → s.part.oc.stack.get st = .empty → ¬ weighing → (∀ n, k ≠ .signOn n) →
      exec c s = .next (s.outcome (s.part.keyTaken st tag) st tag (.refused .notAllowed)))
    ∧ (s.part.disabling st = true ↔ ∃ hostTag req x, s.part.ml.serving = some ⟨hostTag, req, .setStation st x⟩
        ∧ (s.part.config st).enabled = true ∧ x.enabled = false)
    ∧ (∀ hostTag req x, s.runs → s.part.link st = .present → 1 ≤ tag → tag ≤ 255 →
      (s.part.ml.stations.get st).keptTag ≠ some tag → s.part.ml.serving = some ⟨hostTag, req, .setStation st x⟩ →
      (s.part.config st).enabled = true → x.enabled = false →
      exec c s = .next (s.outcome (s.part.keyTaken st tag) st tag (.refused .busy)))
    ∧ ((s.part.ml.stations.get st).keptTag = some tag → exec c s = .next s)

/-! ## Selection and weighing -/

/-- SELECT and REPEAT choose an article, with the quantity 1, no override, and its preset tare when it fits the station's Max
and no weighed tare is present (R20, R38, R40); without one that fits, a preset tare is gone and any other tare is as it was
(R20); a held article is HELD, one not in the table NO_SUCH. QUANTITY in its order of checks (R39), and PRICE OVERRIDE, which
takes the price with the supervisor at the top of the stack and ends the override context (R46, R79, R85). -/
def Obligations.SelectionKeys : Prop :=
  (∀ (s : State) (st : StationNo) (tag operator n : Nat), s.takesKeyOf st tag operator →
    let p := s.part.keyTaken st tag
    (∀ c, (c = .select st tag n ∧ 1 ≤ n ∧ n ≤ 99999)
        ∨ (c = .repeatEntry st tag ∧ (p.art.selections.get st).repeatEntry = some n) →
      (p.article n = none → exec c s = .next (s.outcome p st tag (.refused .noSuch)))
      ∧ (∀ a, p.article n = some a → a.held = true → exec c s = .next (s.outcome p st tag (.refused .held)))
      ∧ (∀ a, p.article n = some a → a.held = false → ∃ q, exec c s = .next (s.outcome q st tag (.accepted .nothing))
        ∧ q.art = { p.art with
            selections := p.art.selections.set st
              { p.art.selections.get st with article := some a.number, quantity := 1, override := none } }
        ∧ (∀ x, x ≠ st → q.wc.get x = p.wc.get x)
        ∧ q.wc.get st = { p.wc.get st with tare := (q.wc.get st).tare }
        ∧ ((p.wc.get st).tare.kind = .weighed → (q.wc.get st).tare = (p.wc.get st).tare)
        ∧ ((p.wc.get st).tare.kind ≠ .weighed → (∀ v, a.presetTare = some v → v = 0 ∨ (p.wc.get st).cal.max < v) →
            ((p.wc.get st).tare.kind = .preset → (q.wc.get st).tare = ⟨.none, 0⟩)
            ∧ ((p.wc.get st).tare.kind = .none → (q.wc.get st).tare = (p.wc.get st).tare))
        ∧ (∀ v, (p.wc.get st).tare.kind ≠ .weighed → a.presetTare = some v → 0 < v → v ≤ (p.wc.get st).cal.max →
            (q.wc.get st).tare = ⟨.preset, v⟩)
        ∧ q.nv = p.nv ∧ q.oc = p.oc ∧ q.om = p.om ∧ q.tc = p.tc ∧ q.lu = p.lu ∧ q.tj = p.tj ∧ q.tt = p.tt ∧ q.cc = p.cc
        ∧ q.time = p.time ∧ q.ml = p.ml))
    ∧ (n = 0 ∨ 99999 < n → exec (.select st tag n) s = .next (s.outcome p st tag (.refused .badValue)))
    ∧ ((p.art.selections.get st).repeatEntry = none →
        exec (.repeatEntry st tag) s = .next (s.outcome p st tag (.refused .noSuch))))
  ∧ ∀ (s : State) (st : StationNo) (tag operator n count price : Nat), s.takesKeyOf st tag operator →
    let p := s.part.keyTaken st tag
    let sel := p.art.selections.get st
    (sel.article = none → exec (.quantity st tag count) s = .next (s.outcome p st tag (.refused .noSelection)))
    ∧ (∀ a, sel.article = some n → p.article n = some a →
      (a.kind ≠ .counted → exec (.quantity st tag count) s = .next (s.outcome p st tag (.refused .wrongState)))
      ∧ (a.kind = .counted → count = 0 ∨ 99 < count →
          exec (.quantity st tag count) s = .next (s.outcome p st tag (.refused .badValue)))
      ∧ (a.kind = .counted → 1 ≤ count → count ≤ 99 → exec (.quantity st tag count) s = .next (s.outcome
          { p with art := { p.art with selections := p.art.selections.set st { sel with quantity := count } } } st tag
          (.accepted .nothing))))
    ∧ (∀ supervisor, p.supervisor st = some supervisor →
      (sel.article = none → exec (.priceOverride st tag price) s = .next (s.outcome p st tag (.refused .noSelection)))
      ∧ (sel.article ≠ none → price = 0 ∨ 99999 < price →
          exec (.priceOverride st tag price) s = .next (s.outcome p st tag (.refused .badValue)))
      ∧ (sel.article = some n → 1 ≤ price → price ≤ 99999 → exec (.priceOverride st tag price) s = .next (s.outcome
          { p with
            art := { p.art with selections := p.art.selections.set st { sel with override := some ⟨price, supervisor⟩ } }
            oc := { p.oc with stack := p.oc.stack.set st (.signedOn operator) } } st tag (.accepted .nothing))))
    ∧ (p.supervisor st = none →
        exec (.priceOverride st tag price) s = .next (s.outcome p st tag (.refused .notAllowed)))

/-- ZERO, TARE and CLEAR TARE in their order of checks (R14, R15, R19, R21), on any stack and in every counter state (R78): the
zero takes the filtered value within 2 % of Max of the power-up zero, or within 10 % of Max of the calibration zero while none
is set; the tare takes the rounded gross; a refusal changes nothing, and no other channel or block changes. -/
def Obligations.ZeroAndTareKeys : Prop :=
  ∀ (s : State) (st : StationNo) (tag : Nat) (g : Int), s.hearsKey st tag →
    let p := s.part.keyTaken st tag
    let c := p.wc.get st
    let becomes (k : Instr) (x : Channel) : Prop :=
      exec k s = .next (s.outcome { p with wc := p.wc.set st x } st tag (.accepted .nothing))
    let refused (k : Instr) (e : Reason) : Prop := exec k s = .next (s.outcome p st tag (.refused e))
    let steady := c.stable = true ∧ c.phase ≠ .settling
    let zero : Instr := .zero st tag
    let tare : Instr := .tare st tag
    (c.session = true → refused zero .calibrating)
    ∧ (c.session = false → c.rail = true → refused zero .rail)
    ∧ (c.session = false → c.rail = false →
      (¬ steady → refused zero .motion)
      ∧ (steady → c.tare.kind ≠ .none → refused zero .tareSet)
      ∧ (steady → c.tare.kind = .none → c.filtered = some g →
        (∀ z, c.phase = .zeroed → c.zpu = some z →
          (100 * (g - z).natAbs ≤ 20 * c.cal.max → becomes zero { c with zo := g, lastZeroChange := some p.time.elapsed })
          ∧ (20 * c.cal.max < 100 * (g - z).natAbs → refused zero .zeroRange))
        ∧ (c.phase = .zeroPending →
          (100 * g.natAbs ≤ 100 * c.cal.max → becomes zero
            { c with zpu := some g, zo := g, phase := .zeroed, lastZeroChange := some p.time.elapsed })
          ∧ (100 * c.cal.max < 100 * g.natAbs → refused zero .zeroRange))))
    ∧ (c.state (p.link st) = .calibrating → refused tare .calibrating)
    ∧ (c.state (p.link st) = .rail → refused tare .rail)
    ∧ (c.state (p.link st) = .zeroPending → refused tare .zeroPending)
    ∧ (c.state (p.link st) = .overload → refused tare .overload)
    ∧ (c.state (p.link st) = .underload → refused tare .underload)
    ∧ (c.state (p.link st) = .settling → refused tare .motion)
    ∧ (c.state (p.link st) = .ready ∨ c.state (p.link st) = .uncalibrated →
      (c.filtered = none ∨ c.stable = false → refused tare .motion)
      ∧ (c.filtered = some g → c.stable = true →
        let t := divRound (g - c.zo) (10 * c.cal.e1) * c.cal.e1
        (c.tare.kind ≠ .none → refused tare .tareSet)
        ∧ (c.tare.kind = .none → c.cal.e1 ≤ t → t ≤ c.cal.max → becomes tare { c with tare := ⟨.weighed, t.toNat⟩ })
        ∧ (c.tare.kind = .none → t < c.cal.e1 ∨ c.cal.max < t → refused tare .range)))
    ∧ (c.session = false → becomes (.clearTare st tag) { c with tare := ⟨.none, 0⟩ })
    ∧ (c.session = true → refused (.clearTare st tag) .calibrating)

/-- One sample of a valid reply at a channel (R6). A rail sample empties the filter and sets the rail mark (R7). Any other is
converted exactly and rounded half away from zero (R8), joins the window of the configured length, and the filtered values
join the histories (R9); the station is stable when 8 filtered values lie within 5 e1 (R11). Then come the power-up zero
(R13), the tracking (R16), and the release of the interlock with auto-clear (R28), with the gross of R12. That the power-up
zero and the release go on while the channel has its session mark is the model's choice (log entry 22), and so is that the
release is made in UNDERLOAD too, where R17 keeps the values (log entry 59). -/
def Obligations.SamplesMoveTheChannel : Prop :=
  (∀ (x : Int) (d : Nat), 0 < d → 2 * (x - divRound x d * d).natAbs ≤ d
    ∧ (2 * (x - divRound x d * d).natAbs = d → x.natAbs ≤ (divRound x d * d).natAbs))
  ∧ (∀ c : Channel, c.stable = true ↔ c.stability.length = 8 ∧ ∀ x ∈ c.stability, ∀ y ∈ c.stability,
      x - y ≤ 5 * (c.cal.e1 : Int))
  ∧ ∀ (c : Channel) (now : Nat) (raw : Int),
    let t := c.takeSample now raw
    let n := if c.config.depthCode = 2 then 4 else if c.config.depthCode = 3 then 8
      else if c.config.depthCode = 4 then 16 else 32
    let joined : List Sample := c.window ++ [⟨raw, divRound ((raw - c.cal.zcal) * c.cal.lcal * 10) c.cal.scal⟩]
    let window := joined.drop (joined.length - n)
    let g := divRound (window.map Sample.fine).sum window.length
    let r := divRound (window.map Sample.raw).sum window.length
    let f : Channel := { c with
      window := window
      filtered := some g
      filteredRaw := some r
      stability := (c.stability ++ [g]).drop (c.stability.length - 7)
      rawHistory := (c.rawHistory ++ [r]).drop (c.rawHistory.length - 7)
      rail := false }
    let gross := g - t.zo
    let tracks (zpu : Int) : Prop := (f.state .present = .ready ∨ f.state .present = .uncalibrated) ∧ f.stable = true
      ∧ c.tare.kind = .none ∧ g ≠ c.zo ∧ 4 * (g - c.zo).natAbs ≤ 10 * c.cal.e1
      ∧ (∃ m, c.lastZeroChange = some m ∧ m + 1000 ≤ now) ∧ 100 * (g - zpu).natAbs ≤ 20 * c.cal.max
    (raw = -8388608 ∨ raw = 8388607 → t = { c with
        window := []
        filtered := none
        filteredRaw := none
        stability := []
        rawHistory := []
        rail := true })
    ∧ (raw ≠ -8388608 → raw ≠ 8388607 →
      t = { f with
        phase := t.phase
        zpu := t.zpu
        zo := t.zo
        lastZeroChange := t.lastZeroChange
        tare := t.tare
        interlock := t.interlock
        autoClearPending := t.autoClearPending }
      ∧ (c.phase = .settling → f.stable = true → 100 * g.natAbs ≤ 100 * c.cal.max →
          t.phase = .zeroed ∧ t.zpu = some g ∧ t.zo = g ∧ t.lastZeroChange = some now)
      ∧ (c.phase = .settling → f.stable = true → 100 * c.cal.max < 100 * g.natAbs →
          t.phase = .zeroPending ∧ t.zpu = c.zpu ∧ t.zo = c.zo ∧ t.lastZeroChange = c.lastZeroChange)
      ∧ (c.phase = .zeroPending ∨ c.phase = .settling ∧ f.stable = false →
          t.phase = c.phase ∧ t.zpu = c.zpu ∧ t.zo = c.zo ∧ t.lastZeroChange = c.lastZeroChange)
      ∧ (∀ zpu, c.phase = .zeroed → c.zpu = some zpu → t.phase = .zeroed ∧ t.zpu = some zpu
          ∧ (tracks zpu → t.zo = g ∧ t.lastZeroChange = some now)
          ∧ (¬ tracks zpu → t.zo = c.zo ∧ t.lastZeroChange = c.lastZeroChange))
      ∧ (gross < 200 * (c.cal.e1 : Int) → t.interlock = .released ∧ t.autoClearPending = false
          ∧ t.tare = if c.autoClearPending = true ∧ c.config.tareAutoClear = true then ⟨.none, 0⟩ else c.tare)
      ∧ (200 * (c.cal.e1 : Int) ≤ gross → t.interlock = c.interlock ∧ t.autoClearPending = c.autoClearPending
          ∧ t.tare = c.tare))

/-- The capture test (R26) in its order of checks, with the net weight, the division and the sale weight of R18, and the
weighing states of Table 9 (R4); a passing test changes nothing. It is check 5 of ADD LINE for a WEIGHED article, which is
refused with its reason (R96); the quantity of a COUNTED article is that of the station (R39, R42). -/
def Obligations.CaptureTestJudgesTheWeight : Prop :=
  (∀ (c : Channel) (link : Link),
    c.captureTest link =
      if link ≠ .present then .error .stationStale
      else if c.session = true then .error .calibrating
      else if c.rail = true then .error .rail
      else if c.phase = .settling then .error .motion
      else if c.phase = .zeroPending then .error .zeroPending
      else match c.filtered with
        | none => if c.cal.calibrated = true then .error .motion else .error .uncalibrated
        | some f =>
          let g := f - c.zo
          let net := g - 10 * (c.tare.value : Int)
          let d := if net ≤ 10 * (c.cal.b : Int) then c.cal.e1 else c.cal.e2
          let w := divRound net (10 * d) * d
          if 10 * (c.cal.max : Int) + 90 * c.cal.e2 < g then .error .overload
          else if g < -(200 * (c.cal.e1 : Int)) then .error .underload
          else if c.cal.calibrated = false then .error .uncalibrated
          else if c.stable = false then .error .motion
          else if net < 200 * (c.cal.e1 : Int) then .error .underMin
          else if (c.cal.max : Int) < w then .error .overload
          else if c.interlock = .set then .error .notCleared
          else .ok ⟨w.toNat, d, c.tare⟩)
  ∧ ∀ (s : State) (st : StationNo) (tag operator n : Nat) (a : Article), s.takesKeyOf st tag operator →
    let p := s.part.keyTaken st tag
    (∀ x, a.kind = .weighed → (p.wc.get st).captureTest .present = .ok x → p.measure st a = .ok (.weighed x.grams x.tare))
    ∧ (a.kind = .counted → p.measure st a = .ok (.counted (p.art.selections.get st).quantity))
    ∧ (a.kind = .fixed → p.measure st a = .ok .fixed)
    ∧ (∀ e, p.tt.counter = .trading → p.art.confirmed.get st = some p.art.generation →
      (p.art.selections.get st).article = some n → p.article n = some a → a.held = false → a.kind = .weighed →
      (p.wc.get st).captureTest .present = .error e →
        exec (.addLine st tag) s = .next (s.outcome p st tag (.refused e)))

/-! ## Orders -/

/-- OPEN ORDER (R94, R95, R119): the order takes the lowest FREE slot and the next number, and a CALLED ticket of the station
becomes SERVING, bound to it. A new order takes the first number after the last assigned one, counting through 1..9,999 with wrap,
that no slot holds (R90), and a new ticket takes one from 1 to 99 that no live ticket holds (R115), in every part within its
capacities. -/
def Obligations.OpenOrderTakesASlot : Prop :=
  (∀ (s : State) (st : StationNo) (tag operator : Nat), s.takesKeyOf st tag operator →
    let p := s.part.keyTaken st tag
    (p.tt.counter = .paused → exec (.openOrder st tag) s = .next (s.outcome p st tag (.refused .paused)))
    ∧ (p.tt.counter = .closed ∨ p.tt.counter = .closedClosing →
        exec (.openOrder st tag) s = .next (s.outcome p st tag (.refused .closed)))
    ∧ (p.tt.counter = .trading → p.om.active.get st ≠ none →
        exec (.openOrder st tag) s = .next (s.outcome p st tag (.refused .wrongState)))
    ∧ (p.tt.counter = .trading → p.om.active.get st = none → (∀ slot ∈ p.om.pool, slot ≠ none) →
        exec (.openOrder st tag) s = .next (s.outcome p st tag (.refused .noOrderSlot)))
    ∧ (∀ before after, p.tt.counter = .trading → p.om.active.get st = none → p.om.pool = before ++ none :: after →
      (∀ slot ∈ before, slot ≠ none) →
      (3 ≤ p.ownedBy operator → exec (.openOrder st tag) s = .next (s.outcome p st tag (.refused .clerkLimit)))
      ∧ (p.ownedBy operator < 3 →
        let called := p.tc.called.get st
        let o : Order := ⟨p.nextOrder, operator, .opened st, called.map (fun c => c.ticket.number),
          (p.config st).labelMode, [], 0, none, p.stamp⟩
        exec (.openOrder st tag) s = .next (s.outcome
          { p with
            om := ⟨before ++ some o :: after, p.om.active.set st (some p.nextOrder), p.nextOrder⟩
            tc := (match called with
              | none => p.tc
              | some c => { p.tc with
                  called := p.tc.called.set st none
                  serving := p.tc.serving ++ [⟨c.ticket, c.callTime, st, p.nextOrder⟩] }) } st tag
          (.accepted ⟨some p.nextOrder, none, none, some 0, none, none⟩)))))
  ∧ ∀ p : Part,
    (p.om.pool.length = 16 → none ∈ p.om.pool → p.om.lastNumber ≤ 9999 →
      let after (k : Nat) : Nat := (p.om.lastNumber + k - 1) % 9999 + 1
      1 ≤ p.nextOrder ∧ p.nextOrder ≤ 9999 ∧ (∀ o ∈ p.om.orders, o.number ≠ p.nextOrder)
      ∧ ∃ k, 1 ≤ k ∧ k ≤ 16 ∧ p.nextOrder = after k ∧ ∀ j, 1 ≤ j → j < k → ∃ o ∈ p.om.orders, o.number = after j)
    ∧ (p.tc.waiting.length < 64 → p.tc.missed.length ≤ 8 → p.tc.serving.length ≤ 16 → p.tc.lastIssued ≤ 99 →
      let n := freeTicket p.tc.live 99 p.tc.lastIssued
      1 ≤ n ∧ n ≤ 99 ∧ n ∉ p.tc.live)

/-- ADD LINE (R96, R99). When its ten checks pass, the line joins the active order, or the order it opens, with every effect of
R99; its label goes to the printer of the station as it stands, also in an order that was opened before SET STATION changed it (log
entry 51). Otherwise the first failing check of Table 37 gives the reason, and nothing changes: in particular no line is committed
at a station whose confirmed generation differs from the current one (R70). The list price and the line price are those of R43 to
R45 and R47, and the label mode is that of the active order or of the station's configuration (R96). -/
def Obligations.AddLineCommits : Prop :=
  (∀ (s : State) (st : StationNo) (tag operator : Nat), s.takesKeyOf st tag operator →
    let p := s.part.keyTaken st tag
    let sel := p.art.selections.get st
    let refused (e : Reason) : Prop := exec (.addLine st tag) s = .next (s.outcome p st tag (.refused e))
    (p.tt.counter = .paused → refused .paused)
    ∧ (p.tt.counter = .closed ∨ p.tt.counter = .closedClosing → refused .closed)
    ∧ (p.tt.counter = .trading → p.art.confirmed.get st ≠ some p.art.generation → refused .staleDisplay)
    ∧ (p.tt.counter = .trading → p.art.confirmed.get st = some p.art.generation →
      (sel.article = none → refused .noSelection)
      ∧ ∀ n, sel.article = some n →
        (p.article n = none → refused .noSuch)
        ∧ ∀ a, p.article n = some a →
          (a.held = true → refused .held)
          ∧ (a.held = false → ∀ e, p.measure st a = .error e → refused e)
          ∧ ∀ m, a.held = false → p.measure st a = .ok m →
            let list := a.priceOf m
            let line (price : Nat) (overrider : Option Nat) (mode : LabelMode) (index : Nat) : LineFields :=
              { index := index, station := st, article := a.number, measure := m, department := a.department,
                unitPrice := a.unitPrice, generation := p.art.generation, listPrice := list, linePrice := price,
                overriddenBy := overrider, label := if mode = .total then none else some p.lu.nextLabel, time := p.stamp }
            (list = 0 ∨ 99999 < list → refused .limit)
            ∧ (∀ o, 1 ≤ list → list ≤ 99999 → sel.override = some o → list < o.price → refused .limit)
            ∧ ∀ price overrider, 1 ≤ list → list ≤ 99999 →
              (sel.override = none ∧ price = list ∧ overrider = none
                ∨ ∃ o, sel.override = some o ∧ o.price ≤ list ∧ price = o.price ∧ overrider = some o.supervisor) →
              (∀ o, p.activeOrder st = some o →
                (24 ≤ o.lastIndex → refused .orderFull)
                ∧ (o.lastIndex < 24 → 999999 < o.total + price → refused .limit)
                ∧ (o.lastIndex < 24 → o.total + price ≤ 999999 →
                  (o.labelMode ≠ .total → 32 ≤ p.lu.queue.length → refused .queueFull)
                  ∧ (o.labelMode = .total ∨ p.lu.queue.length < 32 →
                    (∀ e, p.journalCheck 56 2 = .error e → refused e)
                    ∧ (p.journalCheck 56 2 = .ok () → ∃ q, exec (.addLine st tag) s = .next (s.outcome q st tag
                        (.accepted ⟨some o.number, some (o.lastIndex + 1), some price, some (o.total + price), none, none⟩))
                      ∧ p.LineAdded q o (line price overrider o.labelMode (o.lastIndex + 1)) a))))
              ∧ (p.om.active.get st = none →
                let mode := (p.config st).labelMode
                ((∀ slot ∈ p.om.pool, slot ≠ none) → refused .noOrderSlot)
                ∧ (none ∈ p.om.pool → 3 ≤ p.ownedBy operator → refused .clerkLimit)
                ∧ (none ∈ p.om.pool → p.ownedBy operator < 3 → price ≤ 999999 →
                  (mode ≠ .total → 32 ≤ p.lu.queue.length → refused .queueFull)
                  ∧ (mode = .total ∨ p.lu.queue.length < 32 →
                    (∀ e, p.journalCheck 56 2 = .error e → refused e)
                    ∧ (p.journalCheck 56 2 = .ok () → (∀ o ∈ p.om.orders, o.number ≠ p.nextOrder) →
                      ∃ q o, exec (.addLine st tag) s = .next (s.outcome q st tag
                          (.accepted ⟨some p.nextOrder, some 1, some price, some price, none, none⟩))
                        ∧ (p.openOrder st operator).activeOrder st = some o ∧ o.number = p.nextOrder
                        ∧ (p.openOrder st operator).LineAdded q o (line price overrider mode 1) a))))))
  ∧ ∀ (a : Article) (grams count : Nat) (tare : Tare),
    (a.kind = .weighed → a.priceOf (.weighed grams tare) = weighedPrice a.rounding grams a.unitPrice a.step)
    ∧ (a.kind = .counted → a.priceOf (.counted count) = count * a.unitPrice)
    ∧ (a.kind = .fixed → a.priceOf .fixed = a.unitPrice)

/-- PARK and RESUME move the order between its station and PARKED, whatever the counter does; only the order and the
references change (R93, R103, R104). RESUME of another clerk's order needs a supervisor at the top of the stack, leaves the
owner as it was, and ends the override context (R79, R85, R104). RESUME is refused in the order of R104: BAD_VALUE outside 1
to 9,999, WRONG_STATE with an active order at the station, NO_SUCH, and WRONG_STATE of an order that is not PARKED. For
another clerk's order NOT_ALLOWED without a supervisor comes before these checks (R79). -/
def Obligations.ParkAndResumeMoveTheOrder : Prop :=
  ∀ (s : State) (st : StationNo) (tag operator n : Nat) (o : Order), s.takesKeyOf st tag operator →
    let p := s.part.keyTaken st tag
    (p.activeOrder st = some o → exec (.park st tag) s = .next (s.outcome
      { p with om := { p.om with
          pool := updatePool o.number (fun x => some { x with state := .parked }) p.om.pool
          active := p.om.active.map (fun x => if x = some o.number then none else x) } } st tag
      (.accepted ⟨some o.number, none, none, some o.total, none, none⟩)))
    ∧ (p.om.active.get st = none → exec (.park st tag) s = .next (s.outcome p st tag (.refused .wrongState)))
    ∧ (p.om.active.get st = none → p.order n = some o → o.state = .parked → 1 ≤ n → n ≤ 9999 → o.owner = operator →
      exec (.resume st tag n) s = .next (s.outcome
        { p with om := { p.om with
            pool := updatePool n (fun x => some { x with state := .opened st }) p.om.pool
            active := p.om.active.set st (some n) } } st tag (.accepted ⟨some n, none, none, some o.total, none, none⟩)))
    ∧ (∀ supervisor, p.om.active.get st = none → p.order n = some o → o.state = .parked → 1 ≤ n → n ≤ 9999 →
      o.owner ≠ operator → p.supervisor st = some supervisor →
      exec (.resume st tag n) s = .next (s.outcome
        { p with
          om := { p.om with
            pool := updatePool n (fun x => some { x with state := .opened st }) p.om.pool
            active := p.om.active.set st (some n) }
          oc := { p.oc with stack := p.oc.stack.set st (.signedOn operator) } } st tag
        (.accepted ⟨some n, none, none, some o.total, none, none⟩)))
    ∧ (p.order n = some o → o.owner ≠ operator → p.supervisor st = none →
        exec (.resume st tag n) s = .next (s.outcome p st tag (.refused .notAllowed)))
    ∧ ((∀ x, p.order n = some x → x.owner = operator) ∨ p.supervisor st ≠ none →
      let refused (e : Reason) : Prop := exec (.resume st tag n) s = .next (s.outcome p st tag (.refused e))
      (n = 0 ∨ 9999 < n → refused .badValue)
      ∧ (1 ≤ n → n ≤ 9999 →
        (p.om.active.get st ≠ none → refused .wrongState)
        ∧ (p.om.active.get st = none →
          (p.order n = none → refused .noSuch)
          ∧ (p.order n = some o → o.state ≠ .parked → refused .wrongState))))

/-- CLOSE ORDER (R106, R107): an order without a line that is not VOIDED is FREE at once, and its ticket leaves with NO_SALE
(R95, R121). Any other enters CLOSING, and its CLOSE record takes a place, formed at once when no line is PENDING, with the
wait of the order's ticket from issue to latest call (R120; across the return of the clock log entry 43). Where the mode makes
a TOTAL label, its HELD job goes to the printer of the closing station as it stands (log entry 51), and its content is
completed when the record is formed (R130). The checks of R106 come in their order. -/
def Obligations.CloseOrderQueuesItsRecord : Prop :=
  (∀ (s : State) (st : StationNo) (tag operator : Nat), s.takesKeyOf st tag operator →
    let p := s.part.keyTaken st tag
    (p.om.active.get st = none → exec (.closeOrder st tag) s = .next (s.outcome p st tag (.refused .wrongState)))
    ∧ ∀ o, p.activeOrder st = some o →
      (o.activeLines = [] → ∃ q, exec (.closeOrder st tag) s
          = .next (s.outcome q st tag (.accepted ⟨some o.number, none, none, some 0, none, none⟩))
        ∧ q.om.pool = updatePool o.number (fun _ => none) p.om.pool ∧ q.om.active.get st = none ∧ p.EndsNoSale q o.ticket
        ∧ q.tj = p.tj ∧ q.lu = p.lu ∧ q.nv = p.nv ∧ q.wc = p.wc ∧ q.art = p.art ∧ q.oc = p.oc ∧ q.tt = p.tt)
      ∧ (o.activeLines ≠ [] → o.labelMode ≠ .item → 32 ≤ p.lu.queue.length →
          exec (.closeOrder st tag) s = .next (s.outcome p st tag (.refused .queueFull)))
      ∧ (∀ e, o.activeLines ≠ [] → o.labelMode = .item ∨ p.lu.queue.length < 32 → p.journalCheck 40 2 = .error e →
          exec (.closeOrder st tag) s = .next (s.outcome p st tag (.refused e)))
      ∧ (o.activeLines ≠ [] → o.labelMode = .item ∨ p.lu.queue.length < 32 → p.journalCheck 40 2 = .ok () →
        (∀ k, Place.held o.number k ∉ p.tj.queue) →
        let label := if o.labelMode = .item then none else some p.lu.nextLabel
        let draft := totalDraft p.lu.nextLabel o.number o.owner o.ticket st
        ∃ q, exec (.closeOrder st tag) s
            = .next (s.outcome q st tag (.accepted ⟨some o.number, none, none, some o.total, none, none⟩))
          ∧ (∃ x, q.order o.number = some x ∧ x.lines = o.lines ∧ x.total = o.total ∧ x.totalLabel = label.or o.totalLabel
            ∧ x.state = .closing .sale (if o.hasPending then .waiting else .queued))
          ∧ q.om.active.get st = none
          ∧ (o.hasPending = true → q.tj = p.tj.taking (.held o.number .sale))
          ∧ (o.hasPending = false → o.totalLabel = none → q.tj = p.tj.taking (.filled (.close o.number o.owner
              o.ticket o.activeLines.length o.total label (p.waitOf o.ticket))))
          ∧ (∀ j ∈ p.lu.queue, ∃ x ∈ q.lu.queue, x.kind = j.kind ∧ x.label = j.label ∧ x.target = j.target
            ∧ x.released = j.released ∧ x.atPrinter = j.atPrinter)
          ∧ (o.labelMode ≠ .item → q.lu.lastLabel = p.lu.nextLabel ∧ ∃ x ∈ q.lu.queue, x.kind = .total
            ∧ x.label = p.lu.nextLabel ∧ x.target = (p.config st).printer ∧ x.released = false)
          ∧ (o.labelMode ≠ .item → (∀ j ∈ p.lu.queue, j.kind = .total → j.label ≠ p.lu.nextLabel) → q.lu = { p.lu with
              lastLabel := p.lu.nextLabel
              queue := p.lu.queue ++ [⟨.total, p.lu.nextLabel, (p.config st).printer, false, false,
                if o.hasPending then draft
                else draft.complete p.stamp p.art.totalPrefix o.activeLines.length o.total⟩] })
          ∧ (o.labelMode = .item → o.totalLabel = none → q.lu = p.lu)
          ∧ q.nv = p.nv ∧ q.wc = p.wc ∧ q.art = p.art ∧ q.oc = p.oc ∧ q.tc = p.tc ∧ q.tt = p.tt ∧ q.time = p.time))
  ∧ ∀ (p : Part),
    p.waitOf none = none
    ∧ ∀ before t after, p.tc.serving = before ++ t :: after → (∀ x ∈ before, x.ticket.number ≠ t.ticket.number) →
      p.waitOf (some t.ticket.number) = some (min 65535 (t.callTime.seconds - t.ticket.issued.seconds))

/-- VOID LINE and REPRINT are refused with NOT_ALLOWED without a supervisor at the top of the stack (R79). Under one they go
through the checks of R105 and R143 in their order: WRONG_STATE without an active order, BAD_VALUE outside 1 to 24, NO_SUCH for a
line that the order does not hold, WRONG_STATE for a line that is not ACTIVE, for REPRINT WRONG_STATE without a label number and
QUEUE_FULL at 32 jobs, and the journal's refusals. A refused request changes nothing. An accepted one ends the override context
(R85). The label of a REPRINT is composed from the line, with the name and the shelf life of the article table and the item prefix
as they stand (R131), and goes to the printer of the station as it stands (log entry 51). -/
def Obligations.VoidLineAndReprint : Prop :=
  ∀ (s : State) (st : StationNo) (tag operator index : Nat), s.takesKeyOf st tag operator →
    let p := s.part.keyTaken st tag
    let refused (c : Instr) (e : Reason) : Prop := exec c s = .next (s.outcome p st tag (.refused e))
    let bothRefused (e : Reason) : Prop := refused (.voidLine st tag index) e ∧ refused (.reprint st tag index) e
    (p.supervisor st = none → bothRefused .notAllowed)
    ∧ ∀ supervisor, p.supervisor st = some supervisor →
      (p.om.active.get st = none → bothRefused .wrongState)
      ∧ ∀ o, p.activeOrder st = some o →
        (index = 0 ∨ 24 < index → bothRefused .badValue)
        ∧ (1 ≤ index → index ≤ 24 → o.line index = none → bothRefused .noSuch)
        ∧ ∀ l, 1 ≤ index → index ≤ 24 → o.line index = some l →
          (l.state ≠ .active → bothRefused .wrongState)
          ∧ (l.state = .active →
            (∀ e, p.journalCheck 24 2 = .error e → refused (.voidLine st tag index) e)
            ∧ (p.journalCheck 24 2 = .ok () → ∃ q, exec (.voidLine st tag index) s = .next (s.outcome q st tag
                (.accepted ⟨some o.number, none, none, some (o.total - l.fields.linePrice), none, none⟩))
              ∧ q.om = { p.om with
                  pool := updatePool o.number (fun x => some { x.withLineState index .voided with
                    total := x.total - l.fields.linePrice }) p.om.pool }
              ∧ q.tj = p.tj.taking (.filled (.voidLine o.number index supervisor))
              ∧ q.oc = { p.oc with stack := p.oc.stack.set st (.signedOn operator) }
              ∧ q.nv = p.nv ∧ q.wc = p.wc ∧ q.art = p.art ∧ q.lu = p.lu ∧ q.tc = p.tc ∧ q.tt = p.tt ∧ q.ml = p.ml)
            ∧ (l.fields.label = none → refused (.reprint st tag index) .wrongState)
            ∧ ∀ label, l.fields.label = some label →
              (32 ≤ p.lu.queue.length → refused (.reprint st tag index) .queueFull)
              ∧ (p.lu.queue.length < 32 →
                (∀ e, p.journalCheck 24 2 = .error e → refused (.reprint st tag index) e)
                ∧ (p.journalCheck 24 2 = .ok () → ∃ q, exec (.reprint st tag index) s
                    = .next (s.outcome q st tag (.accepted ⟨some o.number, none, none, some o.total, none, some label⟩))
                  ∧ q.lu = { p.lu with
                      queue := p.lu.queue ++ [⟨.reprint, label, (p.config st).printer, false, false, lineContent .reprint label
                        p.art.itemPrefix o.number o.owner l.fields (p.article l.fields.article)⟩] }
                  ∧ q.tj = p.tj.taking (.filled (.reprint label supervisor st))
                  ∧ q.oc = { p.oc with stack := p.oc.stack.set st (.signedOn operator) }
                  ∧ q.nv = p.nv ∧ q.wc = p.wc ∧ q.art = p.art ∧ q.om = p.om ∧ q.tc = p.tc ∧ q.tt = p.tt)))

/-- VOID ORDER of the active order or of a PARKED order of a number at a station under a supervisor, and of a PARKED order
from the host (R79, R85, R109, R110): an order without lines is FREE at once, and its ticket leaves with NO_SALE (R121); any
other enters CLOSING and its VOID_ORDER record takes a place, or the journal refuses it and nothing changes. The host's
request is BAD_VALUE outside 1 to 9,999. -/
def Obligations.VoidOrderQueuesItsRecord : Prop :=
  ∀ (s : State) (st : StationNo) (tag operator supervisor n : Nat) (o : Order),
    (s.takesKeyOf st tag operator →
      let p := s.part.keyTaken st tag
      p.supervisor st = some supervisor →
      (p.activeOrder st = some o → (o.lines = [] ∨ p.journalCheck 32 1 = .ok () ∧ ∀ k, .held o.number k ∉ p.tj.queue) →
        ∃ q, exec (.voidOrder st tag none) s
            = .next (s.outcome q st tag (.accepted ⟨some o.number, none, none, some o.total, none, none⟩))
          ∧ p.Voided q o ∧ q.oc = { p.oc with stack := p.oc.stack.set st (.signedOn operator) })
      ∧ (∀ e, o.lines ≠ [] → p.journalCheck 32 1 = .error e →
        (p.activeOrder st = some o → exec (.voidOrder st tag none) s = .next (s.outcome p st tag (.refused e)))
        ∧ (p.order n = some o → o.state = .parked →
          exec (.voidOrder st tag (some n)) s = .next (s.outcome p st tag (.refused e))))
      ∧ (p.om.active.get st = none →
        exec (.voidOrder st tag none) s = .next (s.outcome p st tag (.refused .wrongState)))
      ∧ (p.order n = none → exec (.voidOrder st tag (some n)) s = .next (s.outcome p st tag (.refused .noSuch)))
      ∧ (p.order n = some o → o.state ≠ .parked →
        exec (.voidOrder st tag (some n)) s = .next (s.outcome p st tag (.refused .wrongState)))
      ∧ (p.order n = some o → o.state = .parked →
        (o.lines = [] ∨ p.journalCheck 32 1 = .ok () ∧ ∀ k, .held o.number k ∉ p.tj.queue) →
        ∃ q, exec (.voidOrder st tag (some n)) s
            = .next (s.outcome q st tag (.accepted ⟨some o.number, none, none, some o.total, none, none⟩))
          ∧ p.Voided q o ∧ q.oc = { p.oc with stack := p.oc.stack.set st (.signedOn operator) }))
    ∧ (s.takesKeyOf st tag operator → (s.part.keyTaken st tag).supervisor st = none → ∀ named,
      exec (.voidOrder st tag named) s = .next (s.outcome (s.part.keyTaken st tag) st tag (.refused .notAllowed)))
    ∧ (∀ req, req = .voidOrder n → s.serves tag req → n = 0 ∨ 9999 < n →
      exec (.hostVoidOrder tag n) s = .next (s.replied s.part.taken tag req (.refused .badValue none)))
    ∧ (∀ req, req = .voidOrder n → s.serves tag req → 1 ≤ n → n ≤ 9999 →
      let p := s.part.taken
      (p.order n = none → exec (.hostVoidOrder tag n) s = .next (s.replied p tag req (.refused .noSuch none)))
      ∧ (p.order n = some o → o.state ≠ .parked →
          exec (.hostVoidOrder tag n) s = .next (s.replied p tag req (.refused .wrongState none)))
      ∧ (∀ e, p.order n = some o → o.state = .parked → o.lines ≠ [] → p.journalCheck 32 1 = .error e →
          exec (.hostVoidOrder tag n) s = .next (s.replied p tag req (.refused e none)))
      ∧ (p.order n = some o → o.state = .parked →
        (o.lines = [] ∨ p.journalCheck 32 1 = .ok () ∧ ∀ k, .held o.number k ∉ p.tj.queue) →
        ∃ q, exec (.hostVoidOrder tag n) s = .next (s.replied q tag req (.done (.orderTotal o.total)))
          ∧ p.Voided q o ∧ q.oc = p.oc))

/-! ## Tickets -/

/-- NEXT calls the oldest waiting ticket and RECALL one of the missed list, each at a station without an active order while the
counter is TRADING; otherwise both are refused with PAUSED, CLOSED or WRONG_STATE and change nothing. The ticket CALLED there
before becomes MISSED, and the call stands first in the call list (R116, R117, R123). -/
def Obligations.NextAndRecallCallATicket : Prop :=
  ∀ (s : State) (st : StationNo) (tag operator : Nat) (t : Ticket), s.takesKeyOf st tag operator →
    let p := s.part.keyTaken st tag
    (∀ c, c = .next st tag ∨ c = .recall st tag t.number →
      (p.tt.counter = .paused → exec c s = .next (s.outcome p st tag (.refused .paused)))
      ∧ (p.tt.counter = .closed ∨ p.tt.counter = .closedClosing → exec c s = .next (s.outcome p st tag (.refused .closed)))
      ∧ (p.tt.counter = .trading → p.om.active.get st ≠ none →
        exec c s = .next (s.outcome p st tag (.refused .wrongState)))) ∧
    (p.tt.counter = .trading → p.om.active.get st = none →
    let calls := (⟨t.number, st⟩ :: p.tc.callList.filter (fun c => c.ticket != t.number)).take 4
    let result : ResultData := { ResultData.nothing with ticket := some t.number }
    (p.tc.waiting = [] → exec (.next st tag) s = .next (s.outcome p st tag (.refused .ticketsEmpty)))
    ∧ (∀ rest, p.tc.waiting = t :: rest → ∃ q, exec (.next st tag) s = .next (s.outcome q st tag (.accepted result))
      ∧ q.tc.waiting = rest ∧ q.tc.called = p.tc.called.set st (some ⟨t, p.time.clock⟩) ∧ q.tc.callList = calls
      ∧ q.ml.display = p.ml.display ++ [calls]
      ∧ (p.tc.called.get st = none → q.tc.missed = p.tc.missed ∧ q.tc.figures = p.tc.figures)
      ∧ (∀ c, p.tc.called.get st = some c → p.tc.missed.length < 8 →
          q.tc.missed = p.tc.missed ++ [⟨c.ticket, c.callTime, p.time.elapsed⟩]
          ∧ q.tc.figures = { p.tc.figures with expired := min 65535 p.tc.figures.expired })
      ∧ (∀ c x xs, p.tc.called.get st = some c → p.tc.missed = x :: xs → xs.length = 7 →
          q.tc.missed = xs ++ [⟨c.ticket, c.callTime, p.time.elapsed⟩]
          ∧ q.tc.figures.expired = min 65535 (p.tc.figures.expired + 1))
      ∧ q.tc.serving = p.tc.serving ∧ q.tc.lastIssued = p.tc.lastIssued
      ∧ q.om = p.om ∧ q.oc = p.oc ∧ q.wc = p.wc ∧ q.art = p.art ∧ q.lu = p.lu ∧ q.tj = p.tj ∧ q.tt = p.tt ∧ q.nv = p.nv)
    ∧ (t.number = 0 ∨ 99 < t.number → exec (.recall st tag t.number) s = .next (s.outcome p st tag (.refused .badValue)))
    ∧ (1 ≤ t.number → t.number ≤ 99 → (∀ x ∈ p.tc.missed, x.ticket.number ≠ t.number) →
        exec (.recall st tag t.number) s = .next (s.outcome p st tag (.refused .noSuch)))
    ∧ (∀ before after call mark, 1 ≤ t.number → t.number ≤ 99 → p.tc.missed = before ++ ⟨t, call, mark⟩ :: after →
      (∀ x ∈ before, x.ticket.number ≠ t.number) →
      ∃ q, exec (.recall st tag t.number) s = .next (s.outcome q st tag (.accepted result))
        ∧ (p.tc.called.get st = none → q.tc.missed = before ++ after ∧ q.tc.figures = p.tc.figures)
        ∧ (∀ c, p.tc.called.get st = some c → p.tc.missed.length ≤ 8 →
            q.tc.missed = before ++ after ++ [⟨c.ticket, c.callTime, p.time.elapsed⟩]
            ∧ q.tc.figures = { p.tc.figures with expired := min 65535 p.tc.figures.expired })
        ∧ q.tc.called = p.tc.called.set st (some ⟨t, p.time.clock⟩)
        ∧ q.tc.callList = calls ∧ q.tc.waiting = p.tc.waiting ∧ q.tc.serving = p.tc.serving
        ∧ q.tc.lastIssued = p.tc.lastIssued ∧ q.ml.display = p.ml.display ++ [calls]
        ∧ q.om = p.om ∧ q.oc = p.oc ∧ q.wc = p.wc ∧ q.art = p.art ∧ q.lu = p.lu ∧ q.tj = p.tj ∧ q.tt = p.tt
        ∧ q.nv = p.nv))

/-- TAKE issues the next number while the counter is TRADING or PAUSED, FULL at 64 waiting tickets and CLOSED otherwise. In
every part within its capacities that number is the first one after the last issued, counting through 1..99 with wrap, that no
live ticket holds (R114, R115). A repeated take tag is answered again and changes nothing (R114, R199). A MISSED ticket leaves
600 s after its miss (R118; log entry 4), and CALLS sends the oldest call list handed over (R200). -/
def Obligations.TakeExpiryAndCalls : Prop :=
  (∀ (s : State) (d : DispenserNo) (tag : Nat), s.runs → 1 ≤ tag → tag ≤ 255 →
    let p := s.part
    let kept (q : Part) (answer : TakeAnswer) : State :=
      { s with part := { q with ml := { q.ml with takes := q.ml.takes.set d (some ⟨tag, answer⟩) } } }
    let number := freeTicket p.tc.live 99 p.tc.lastIssued
    ((p.ml.takes.get d).map KeptTake.tag = some tag → exec (.take d tag true) s = .next s)
    ∧ exec (.take d tag false) s = .next s
    ∧ ((p.ml.takes.get d).map KeptTake.tag ≠ some tag →
      (p.tt.counter = .trading ∨ p.tt.counter = .paused →
        (p.tc.waiting.length < 64 → exec (.take d tag true) s = .next (kept
          { p with tc := { p.tc with
              waiting := p.tc.waiting ++ [⟨number, d, p.time.clock⟩]
              lastIssued := number
              figures := { p.tc.figures with issued := min 65535 (p.tc.figures.issued + 1) } } }
          (.issued number p.time.clock p.tc.waiting.length)))
        ∧ (64 ≤ p.tc.waiting.length → exec (.take d tag true) s
            = .next (kept (p.latch .ticketsFull (some (.dispenser d))) .full)))
      ∧ (p.tt.counter ≠ .trading → p.tt.counter ≠ .paused → exec (.take d tag true) s = .next (kept p .closed)))
    ∧ (∀ before after t, p.tc.missed = before ++ t :: after → (∀ x ∈ before, x.ticket.number ≠ t.ticket.number) →
      exec (.missedTicketExpiry t.ticket.number) s = .next { s with part := { p with
        tc := { p.tc with
          missed := before ++ after
          figures := { p.tc.figures with expired := min 65535 (p.tc.figures.expired + 1) } }
        time := p.time.advance (t.missedAt + 600000 - p.time.elapsed) } })
    ∧ (∀ calls rest, p.ml.display = calls :: rest → exec .calls s = .next { s with part := { p with
        ml := { p.ml with
          display := rest
          sentCalls := some calls } } }))
  ∧ ∀ p : Part, p.tc.waiting.length < 64 → p.tc.missed.length ≤ 8 → p.tc.serving.length ≤ 16 → p.tc.lastIssued ≤ 99 →
    let after (k : Nat) : Nat := (p.tc.lastIssued + k - 1) % 99 + 1
    ∃ k, 1 ≤ k ∧ k ≤ 96 ∧ freeTicket p.tc.live 99 p.tc.lastIssued = after k ∧ after k ∉ p.tc.live
      ∧ ∀ j, 1 ≤ j → j < k → after j ∈ p.tc.live

/-! ## Printers -/

/-- STATUS is sent to a printer with no message waiting; the next job of a READY printer is sent when it is RELEASED, and the
printer is then PRINTING; a message without a valid reply for 250 ms is given up (R135, R136; log entry 4). MOVE JOBS gives a
new target to every job of a printer that is not at it, and CANCEL JOBS removes them; both answer with their number, and
refuse a printer out of range with BAD_VALUE (R140, R141). -/
def Obligations.PrinterMessagesAndJobRequests : Prop :=
  (∀ (s : State) (pr : PrinterNo), s.runs →
    let p := s.part
    let r := p.lu.printers.get pr
    let after (q : Part) (x : Printer) (queue : List Job) : State :=
      { s with part := { q with lu := { p.lu with queue := queue, printers := p.lu.printers.set pr x } } }
    (r.waiting = none → exec (.printerStatusSend pr) s = .next (after p
        { r with waiting := some ⟨.status, p.time.elapsed⟩, lastStatus := some p.time.elapsed } p.lu.queue))
    ∧ (r.waiting ≠ none → exec (.printerStatusSend pr) s = .next s ∧ exec (.labelSend pr) s = .next s)
    ∧ (∀ before j behind, p.lu.queue = before ++ j :: behind →
      (∀ x ∈ before, x.target = pr → x.atPrinter = true) → j.target = pr → j.atPrinter = false →
      (r.state = .ready → r.waiting = none → j.released = true → exec (.labelSend pr) s = .next (after p
          { r with state := .printing, waiting := some ⟨.label j.content, p.time.elapsed⟩ }
          (before ++ { j with atPrinter := true } :: behind)))
      ∧ (r.state ≠ .ready ∨ j.released = false → exec (.labelSend pr) s = .next s))
    ∧ (∀ m, r.waiting = some m → exec (.printerMessageGiveUp pr) s
        = .next (after { p with time := p.time.advance (m.sentAt + 250 - p.time.elapsed) } { r with waiting := none }
            p.lu.queue)))
  ∧ ∀ (s : State) (tag a b : Nat),
    let p := s.part.taken
    let mine (x : PrinterNo) (j : Job) : Bool := decide (j.target = x) && !j.atPrinter
    (s.serves tag (.moveJobs a b) →
      (∀ x y, PrinterNo.ofNumber a = some x → PrinterNo.ofNumber b = some y → a ≠ b →
        exec (.moveJobs tag a b) s = .next (s.replied
          { p with lu := { p.lu with queue := p.lu.queue.map (fun j => if mine x j then { j with target := y } else j) } }
          tag (.moveJobs a b) (.done (.moved (p.lu.queue.filter (mine x)).length))))
      ∧ (a = b ∨ a = 0 ∨ 4 < a ∨ b = 0 ∨ 4 < b → exec (.moveJobs tag a b) s
          = .next (s.replied p tag (.moveJobs a b) (.refused .badValue none))))
    ∧ (s.serves tag (.cancelJobs a) →
      (∀ x, PrinterNo.ofNumber a = some x → exec (.cancelJobs tag a) s = .next (s.replied
          { p with lu := { p.lu with
              queue := p.lu.queue.filter (fun j => !mine x j)
              cancelled := min 65535 (p.lu.cancelled + (p.lu.queue.filter (mine x)).length) } }
          tag (.cancelJobs a) (.done (.cancelled (p.lu.queue.filter (mine x)).length))))
      ∧ (a = 0 ∨ 4 < a → exec (.cancelJobs tag a) s
          = .next (s.replied p tag (.cancelJobs a) (.refused .badValue none))))

/-- A valid reply sets the printer's state and settles the job at the printer by Table 50 (R137, R138); a DONE of another
number also removes the oldest job of that number in the printer's share (R137); OUT_OF_STOCK, HEAD_OPEN
and OFFLINE latch PRINTER_ATTENTION when they are entered (R139); 2 s without a valid reply make a printer OFFLINE (R136; log
entry 4). That a valid reply ends the wait of the message that waits now, also when it comes late for one that was given up, is
the model's choice (log entry 45), and so is that it acts when no message waits (log entry 39). -/
def Obligations.PrinterRepliesSettleTheJob : Prop :=
  ∀ (s : State) (pr : PrinterNo) (back : List Job), s.runs → Returned pr s.part.lu.queue back →
    let p := s.part
    let r := p.lu.printers.get pr
    let replied (x : PrinterState) (queue : List Job) : Part := { p with lu := { p.lu with
      queue := queue
      printers := p.lu.printers.set pr { r with state := x, waiting := none, lastReply := some p.time.elapsed } } }
    let entered (q : Part) (x : PrinterState) : State :=
      { s with part := if r.state = x then q else q.latch .printerAttention (some (.printer pr x)) }
    (∀ status, exec (.printerReply pr status false) s = .next s)
    ∧ exec (.printerReply pr .busy true) s = .next { s with part := replied .printing p.lu.queue }
    ∧ exec (.printerReply pr .idle true) s = .next { s with part := replied .ready back }
    ∧ exec (.printerReply pr .stockOut true) s = .next (entered (replied .outOfStock back) .outOfStock)
    ∧ exec (.printerReply pr .coverOpen true) s = .next (entered (replied .headOpen back) .headOpen)
    ∧ (∀ before j behind, p.lu.queue = before ++ j :: behind → (∀ x ∈ before, x.target = pr → x.atPrinter = false) →
      j.target = pr → j.atPrinter = true →
        exec (.printerReply pr (.done j.label) true) s = .next { s with part := replied .ready (before ++ behind) })
    ∧ (∀ n, (∀ x ∈ p.lu.queue, x.target = pr → x.label ≠ n) →
        exec (.printerReply pr (.done n) true) s = .next { s with part := replied .ready back })
    ∧ (∀ before j behind home, p.lu.queue = before ++ j :: behind → j.target = pr → j.atPrinter = false →
      (∀ x ∈ before, x.target = pr → x.atPrinter = false → x.label ≠ j.label) →
      (∀ x ∈ p.lu.queue, x.target = pr → x.atPrinter = true → x.label ≠ j.label) →
      Returned pr (before ++ behind) home →
        exec (.printerReply pr (.done j.label) true) s = .next { s with part := replied .ready home })
    ∧ (∀ t, r.state ≠ .offline → r.lastReply = some t → exec (.printerOffline pr) s = .next (entered
        { p with
          time := p.time.advance (t + 2000 - p.time.elapsed)
          lu := { p.lu with queue := back, printers := p.lu.printers.set pr { r with state := .offline } } } .offline))

/-! ## Counter and day close -/

/-- OPEN COUNTER, PAUSE COUNTER and CLOSE COUNTER in every state (R165, R166, R167); the close ends every ticket that is not
SERVING (R122). -/
def Obligations.CounterRequests : Prop :=
  ∀ (s : State) (tag : Nat),
    let p := s.part.taken
    let counter (c : CounterState) : Part := { p with tt := { p.tt with counter := c } }
    let refused (req : HostRequest) (e : Reason) : State := s.replied p tag req (.refused e none)
    (s.serves tag .openCounter →
      (p.tt.counter = .trading → exec (.openCounter tag) s = .next (refused .openCounter .wrongState))
      ∧ (p.tt.counter = .closedClosing → exec (.openCounter tag) s = .next (refused .openCounter .busy))
      ∧ (p.tt.counter = .paused ∨ p.tt.counter = .closed →
        (p.time.valid = false → exec (.openCounter tag) s = .next (refused .openCounter .clockUnset))
        ∧ (p.time.valid = true → p.cc.session ≠ none →
            exec (.openCounter tag) s = .next (refused .openCounter .calibrating))
        ∧ (p.time.valid = true → p.cc.session = none → exec (.openCounter tag) s
            = .next (s.replied (counter .trading) tag .openCounter (.done .nothing)))))
    ∧ (s.serves tag .pauseCounter →
      (p.tt.counter = .trading → exec (.pauseCounter tag) s
          = .next (s.replied (counter .paused) tag .pauseCounter (.done .nothing)))
      ∧ (p.tt.counter = .closedClosing → exec (.pauseCounter tag) s = .next (refused .pauseCounter .busy))
      ∧ (p.tt.counter = .paused ∨ p.tt.counter = .closed →
          exec (.pauseCounter tag) s = .next (refused .pauseCounter .wrongState)))
    ∧ (s.serves tag .closeCounter →
      (p.tt.counter = .closed → exec (.closeCounter tag) s = .next (refused .closeCounter .wrongState))
      ∧ (p.tt.counter = .closedClosing → exec (.closeCounter tag) s = .next (refused .closeCounter .busy))
      ∧ (p.tt.counter = .trading ∨ p.tt.counter = .paused → ∃ q,
        exec (.closeCounter tag) s = .next (s.replied q tag .closeCounter (.done .nothing))
        ∧ q.tt = { p.tt with counter := .closed }
        ∧ q.tc = { p.tc with
            waiting := []
            called := .all none
            missed := []
            callList := []
            figures := { p.tc.figures with abandoned := min 65535 (p.tc.figures.abandoned + (p.tc.waiting.length
              + (StationNo.all.filter (fun st => (p.tc.called.get st).isSome)).length + p.tc.missed.length)) } }
        ∧ q.ml.display = p.ml.display ++ [[]]
        ∧ q.om = p.om ∧ q.oc = p.oc ∧ q.wc = p.wc ∧ q.art = p.art ∧ q.lu = p.lu ∧ q.tj = p.tj ∧ q.nv = p.nv))

/-- DAY CLOSE in its order of checks, the journal's refusals last, with the record that it forms and the digest of Table 59 in it
(R177); when that record is written the figures are zeroed, the ticket numbers restart, the day advances and the counter is
CLOSED (R125, R141, R178). -/
def Obligations.DayCloseEndsTheDay : Prop :=
  ∀ (s : State) (tag : Nat) (d : DayClose),
    let p := s.part.taken
    let r := s.part
    (s.serves tag .dayClose →
      (p.tt.counter = .closedClosing →
        exec (.dayClose tag) s = .next (s.replied p tag .dayClose (.refused .busy none)))
      ∧ (p.tt.counter = .trading ∨ p.tt.counter = .paused →
        exec (.dayClose tag) s = .next (s.replied p tag .dayClose (.refused .wrongState none)))
      ∧ (p.tt.counter = .closed → (∃ slot ∈ p.om.pool, slot ≠ none) →
        exec (.dayClose tag) s = .next (s.replied p tag .dayClose (.refused .ordersOpen none)))
      ∧ (∀ e, p.tt.counter = .closed → (∀ slot ∈ p.om.pool, slot = none) → p.journalCheck 64 0 = .error e →
        exec (.dayClose tag) s = .next (s.replied p tag .dayClose (.refused e none)))
      ∧ (p.tt.counter = .closed → (∀ slot ∈ p.om.pool, slot = none) → p.journalCheck 64 0 = .ok () → ∃ q,
        exec (.dayClose tag) s = .next (s.replied q tag .dayClose .accepted)
        ∧ q.tj = p.tj.taking (.filled (.dayClose ⟨p.tt.day, digestOver p.tt.accumulators p.tt.interrupted,
            (p.tt.grandTotal + p.tt.accumulators.counter.value) % 1000000000000000, p.lu.lastLabel, p.om.lastNumber,
            p.stamp⟩))
        ∧ q.tt = { p.tt with counter := .closedClosing }
        ∧ q.om = p.om ∧ q.oc = p.oc ∧ q.wc = p.wc ∧ q.art = p.art ∧ q.tc = p.tc ∧ q.lu = p.lu ∧ q.nv = p.nv
        ∧ q.ml = p.ml))
    ∧ (s.runs → r.inFlight = some (.dayClose d) → ∃ q, exec .dayCloseWritten s = .next { s with part := q }
      ∧ r.Appended q (.dayClose d)
      ∧ q.tt = { r.tt with
          accumulators := .zero
          interrupted := ⟨0, 0⟩
          grandTotal := d.grandTotalAfter
          day := if r.tt.day < 65535 then r.tt.day + 1 else 1
          lastClose := some d
          counter := .closed }
      ∧ q.tc = { r.tc with figures := .zero, validFrom := d.time, lastIssued := 0 } ∧ q.lu = { r.lu with cancelled := 0 }
      ∧ q.ml.latches.get .dayClosed = ⟨true, some (.dayDone d.day)⟩
      ∧ q.om = r.om ∧ q.oc = r.oc ∧ q.wc = r.wc ∧ q.art = r.art ∧ q.cc = r.cc ∧ q.time = r.time)

/-! ## Calibration -/

/-- CAL BEGIN in its order of checks (R182), and the ends of a session without a commit: CAL ABORT, the gap of 120 s (log
entry 4) and the release of the calibration switch (R30, R183); while the write of a commit is in flight neither of the last two
ends it. The time of a session end is the present one; that it is unset while the clock is invalid is the model's choice (log
entry 50). -/
def Obligations.CalibrationSessions : Prop :=
  ∀ (s : State) (tag n : Nat) (st : StationNo),
    let p := s.part.taken
    let r := s.part
    let refused (e : Reason) : State := s.replied p tag (.calBegin n) (.refused e none)
    let ended (q : Part) (x : Session) (cause : EndCause) : State := { s with part := q.sessionEnded x cause }
    (s.serves tag (.calBegin n) →
      (n = 0 ∨ 8 < n → exec (.calBegin tag n) s = .next (refused .badValue))
      ∧ (StationNo.ofNumber n = some st →
        (p.inputs.calibrationSwitch = false → exec (.calBegin tag n) s = .next (refused .calLocked))
        ∧ (p.inputs.calibrationSwitch = true →
          (p.cc.session ≠ none → exec (.calBegin tag n) s = .next (refused .busy))
          ∧ (p.cc.session = none → p.tt.counter = .trading → exec (.calBegin tag n) s = .next (refused .wrongState))
          ∧ (p.cc.session = none → p.tt.counter ≠ .trading →
            ((p.config st).enabled = false ∨ p.link st ≠ .present →
              exec (.calBegin tag n) s = .next (refused .stationStale))
            ∧ ((p.config st).enabled = true → p.link st = .present →
              ((p.stack st).operator ≠ none ∨ p.om.active.get st ≠ none →
                exec (.calBegin tag n) s = .next (refused .busy))
              ∧ ((p.stack st).operator = none → p.om.active.get st = none →
                (128 ≤ p.nv.auditCounter → exec (.calBegin tag n) s = .next (refused .auditFull))
                ∧ (p.nv.auditCounter < 128 → exec (.calBegin tag n) s = .next (s.replied
                    { p with
                      wc := p.wc.set st { p.wc.get st with session := true }
                      cc := { p.cc with session := some ⟨st, (p.wc.get st).cal, none, none, none, p.time.elapsed⟩ } }
                    tag (.calBegin n) (.done (.calRecord (p.wc.get st).cal))))))))))
    ∧ (s.serves tag .calAbort →
      (∀ x, p.cc.session = some x → exec (.calAbort tag) s
        = .next (s.replied (p.sessionEnded x .aborted) tag .calAbort (.done .nothing)))
      ∧ (p.cc.session = none → exec (.calAbort tag) s
        = .next (s.replied p tag .calAbort (.refused .wrongState none))))
    ∧ (∀ x, s.runs → r.cc.session = some x → (∀ y, r.ml.serving = some y →
        (∀ e, y.write ≠ .calAudit e) ∧ ∀ e, y.write ≠ .calRecord e) →
      exec .calGapExpiry s = .next (ended
        { r with time := r.time.advance (x.gapMark + 120000 - r.time.elapsed) } x .gap)
      ∧ exec .calibrationSwitchRelease s = .next (ended
        { r with inputs := { r.inputs with calibrationSwitch := false } } x .switch))
    ∧ (∀ x e, s.runs → r.cc.session = some x →
      (∃ y, r.ml.serving = some y ∧ (y.write = .calAudit e ∨ y.write = .calRecord e)) →
      exec .calGapExpiry s = .next s
      ∧ exec .calibrationSwitchRelease s = .next { s with part :=
          { r with inputs := { r.inputs with calibrationSwitch := false } } })
    ∧ (r.cc.session = none → exec .calibrationSwitchRelease s = .next { s with part :=
        { r with inputs := { r.inputs with calibrationSwitch := false } } })

/-- CAL ZERO, CAL SPAN and CAL INTERVALS on the open session (R184, R185, R186). Each restarts the gap, whatever it is
answered; without a session it is WRONG_STATE. -/
def Obligations.CalibrationSteps : Prop :=
  ∀ (s : State) (tag load max b e1 e2 : Nat),
    let p := s.part.taken
    let session (x : Option Session) : Part := { p with cc := { p.cc with session := x } }
    (p.cc.session = none →
      (s.serves tag .calZero → exec (.calZero tag) s = .next (s.replied p tag .calZero (.refused .wrongState none)))
      ∧ (s.serves tag (.calSpan load) → exec (.calSpan tag load) s
          = .next (s.replied p tag (.calSpan load) (.refused .wrongState none)))
      ∧ (s.serves tag (.calIntervals max b e1 e2) → exec (.calIntervals tag max b e1 e2) s
          = .next (s.replied p tag (.calIntervals max b e1 e2) (.refused .wrongState none))))
    ∧ ∀ y, p.cc.session = some y →
      let x : Session := { y with gapMark := p.time.elapsed }
      let c := p.wc.get y.station
      let stable := c.rawHistory.length = 8 ∧ ∀ u ∈ c.rawHistory, ∀ v ∈ c.rawHistory, u - v ≤ 64
      (s.serves tag .calZero →
        (∀ r, stable → c.filteredRaw = some r → exec (.calZero tag) s = .next (s.replied
            (session (some { x with newZero := some r, newSpan := none })) tag .calZero
            (.done (.calZero r y.newSpan.isSome))))
        ∧ (¬ stable → exec (.calZero tag) s = .next (s.replied (session (some x)) tag .calZero (.refused .motion none))))
      ∧ (s.serves tag (.calSpan load) →
        let top := (y.newIntervals.map Intervals.max).getD y.old.max
        (y.newZero = none → exec (.calSpan tag load) s
          = .next (s.replied (session (some x)) tag (.calSpan load) (.refused .wrongState none)))
        ∧ (y.newZero ≠ none → ¬ stable → exec (.calSpan tag load) s
          = .next (s.replied (session (some x)) tag (.calSpan load) (.refused .motion none)))
        ∧ ∀ z r, y.newZero = some z → stable → c.filteredRaw = some r →
          let fits := 1000 ≤ load ∧ load ≤ 30000 ∧ top ≤ 10 * load ∧ load ≤ top ∧ 10000 ≤ r - z ∧ r - z ≤ 8000000
          (fits → exec (.calSpan tag load) s = .next (s.replied
              (session (some { x with newSpan := some ⟨(r - z).toNat, load⟩ })) tag (.calSpan load)
              (.done (.calSpan (r - z).toNat load))))
          ∧ (¬ fits → exec (.calSpan tag load) s
              = .next (s.replied (session (some x)) tag (.calSpan load) (.refused .range none))))
      ∧ (s.serves tag (.calIntervals max b e1 e2) →
        let steps := [1, 2, 5, 10, 20]
        let ok := e1 ∈ steps ∧ e2 ∈ steps ∧ (e1 < e2 ∨ e1 = e2 ∧ b = max) ∧ 3000 ≤ max ∧ max ≤ 30000 ∧ e2 ∣ max
          ∧ e1 ≤ b ∧ b ≤ max ∧ e1 ∣ b ∧ e2 ∣ b
        let loads := match y.newSpan with
          | some sp => max ≤ 10 * sp.lcal ∧ sp.lcal ≤ max
          | none => y.old.lcal ≤ max
        (¬ ok → exec (.calIntervals tag max b e1 e2) s
          = .next (s.replied (session (some x)) tag (.calIntervals max b e1 e2) (.refused .badValue none)))
        ∧ (ok → ¬ loads → exec (.calIntervals tag max b e1 e2) s
          = .next (s.replied (session (some x)) tag (.calIntervals max b e1 e2) (.refused .range none)))
        ∧ (ok → loads → exec (.calIntervals tag max b e1 e2) s
          = .next (s.replied (session (some { x with newIntervals := some ⟨max, b, e1, e2⟩ })) tag
              (.calIntervals max b e1 e2) (.done .nothing))))

/-- CAL COMMIT consumes the next audit number and waits for its writes; the audit entry is written first, then the record of
the station, and only then the channel restarts with it (R31, R187, R188). The entry carries the check of Table 63 over its other
fields. A failed write ends the session FAILED, with
STORE_FAULT, and changes no calibration record. Without a session CAL COMMIT is WRONG_STATE. The time of the session end is the
present one; that it is unset while the clock is invalid is the model's choice (log entry 50). -/
def Obligations.CalibrationCommit : Prop :=
  ∀ (s : State) (tag : Nat) (req : HostRequest) (x : Session) (e : AuditEntry),
    let p := s.part.taken
    let r := s.part
    let failed (d : StoreDetail) (q : Part) : State := s.replied
      { (q.sessionEnded x .failed).latch .storeFault (some (.store d)) with
        ml := { ((q.sessionEnded x .failed).latch .storeFault (some (.store d))).ml with serving := none } } tag req
      (.refused .storeFault none)
    (s.serves tag .calCommit → p.cc.session = none →
      exec (.calCommit tag) s = .next (s.replied p tag .calCommit (.refused .wrongState none)))
    ∧ (s.serves tag .calCommit → p.cc.session = some x →
      (x.newZero = none → x.newSpan = none → x.newIntervals = none → ∃ q,
        exec (.calCommit tag) s = .next (s.replied q tag .calCommit (.refused .wrongState none)) ∧ q.nv = p.nv)
      ∧ (x.newZero ≠ none ∨ x.newSpan ≠ none ∨ x.newIntervals ≠ none → ∃ f : AuditEntry,
        exec (.calCommit tag) s = .next (s.writing
          { p with
            nv := { p.nv with auditCounter := p.nv.auditCounter + 1 }
            cc := { p.cc with session := some { x with gapMark := p.time.elapsed } } } tag .calCommit (.calAudit f))
        ∧ f.number = p.nv.auditCounter + 1 ∧ f.station = x.station ∧ f.old = x.old ∧ f.time = p.stamp
        ∧ f.new = { zcal := x.newZero.getD x.old.zcal
                    scal := (x.newSpan.map Span.scal).getD x.old.scal
                    lcal := (x.newSpan.map Span.lcal).getD x.old.lcal
                    max := (x.newIntervals.map Intervals.max).getD x.old.max
                    b := (x.newIntervals.map Intervals.b).getD x.old.b
                    e1 := (x.newIntervals.map Intervals.e1).getD x.old.e1
                    e2 := (x.newIntervals.map Intervals.e2).getD x.old.e2
                    calibrated := true }
        ∧ (CalItem.zcal ∈ f.changed ↔ f.old.zcal ≠ f.new.zcal) ∧ (CalItem.scal ∈ f.changed ↔ f.old.scal ≠ f.new.scal)
        ∧ (CalItem.lcal ∈ f.changed ↔ f.old.lcal ≠ f.new.lcal) ∧ (CalItem.max ∈ f.changed ↔ f.old.max ≠ f.new.max)
        ∧ (CalItem.b ∈ f.changed ↔ f.old.b ≠ f.new.b) ∧ (CalItem.e1 ∈ f.changed ↔ f.old.e1 ≠ f.new.e1)
        ∧ (CalItem.e2 ∈ f.changed ↔ f.old.e2 ≠ f.new.e2)
        ∧ f.changed.Sublist [.zcal, .scal, .lcal, .max, .b, .e1, .e2] ∧ f.check = f.checkOf))
    ∧ (s.runs → r.ml.serving = some ⟨tag, req, .calAudit e⟩ →
      exec (.calAuditWriteDone true) s = .next { s with part := { r with
          nv := { r.nv with audit := r.nv.audit ++ [.written e] }
          ml := { r.ml with serving := some ⟨tag, req, .calRecord e⟩ } } }
      ∧ (r.cc.session = some x → exec (.calAuditWriteDone false) s
          = .next (failed .auditArea { r with nv := { r.nv with audit := r.nv.audit ++ [.damaged] } })))
    ∧ (s.runs → r.ml.serving = some ⟨tag, req, .calRecord e⟩ →
      (∃ q, exec (.calRecordWriteDone true) s
          = .next (s.replied q tag req (.done (.calCommitted e.number e.new)))
        ∧ q.nv = { r.nv with settings := { r.nv.settings with records := r.nv.settings.records.set e.station e.new } }
        ∧ q.wc = r.wc.set e.station
            { Channel.initial e.new (r.config e.station) with interlock := (r.wc.get e.station).interlock }
        ∧ q.cc = ⟨none, some ⟨.committed, e.station, r.stamp⟩⟩
        ∧ q.ml.latches.get .calibrationChanged = ⟨true, some (.calibration e.station e.number)⟩ ∧ q.ml.serving = none
        ∧ q.om = r.om ∧ q.oc = r.oc ∧ q.art = r.art ∧ q.tc = r.tc ∧ q.lu = r.lu ∧ q.tj = r.tj ∧ q.tt = r.tt)
      ∧ (r.cc.session = some x → exec (.calRecordWriteDone false) s = .next (failed .settingsArea r)))

/-! ## Journal -/

/-- The start of an append (R145, R149). That an append whose record does not fit waits while no sector is ERASED is the
model's choice (log entry 16): the step then changes nothing. The rest is an append whose read-back fails (R150, R151): the
writing sector is BAD with its good records, and the record is retried once in a newly opened sector; a second failure, the
lack of an ERASED sector or a failed mark puts the journal into FAULT. The failing record, every record in a filled place and
the record that waits for a place are then reported as failed in queue order, the held places, the write position and the
erase are kept, and STORE_FAULT is latched with the detail JOURNAL; that this latch comes after those of the owners told, which
sets the order of their notices, is the model's choice (log entry 61). What the header of a sector with a failed mark holds at
the next survey is a free value (log entry 11). -/
def Obligations.AppendsStartAndFail : Prop :=
  ∀ (s : State) (r : Record) (a : Append) (i : Nat), s.runs →
    let p := s.part
    let marked (spoilt : Bool) : Part := { p with
      nv := { p.nv with
        sectors := p.nv.sectors.modify i (fun x =>
          { x with
            mark := .bad
            seq := some p.tj.writingSeq
            torn := none
            unreadable := if spoilt then Config.failedMarkUnreadable p.free else x.unreadable }) }
      free := if spoilt then p.free + 1 else p.free }
    let faulted (q : Part) : State :=
      { s with part := (Part.latch
          ((filledRecords p.tj.queue ++ p.tj.waiting.toList).foldl Part.recordFailed
            { q with tj := { p.tj with
                fault := true
                append := none
                queue := p.tj.queue.filter Place.isHeld
                waiting := none } }) .storeFault (some (.store .journal))) }
    (p.tj.fault = true ∨ p.tj.append ≠ none ∨ (∀ x, Place.filled x ∉ p.tj.queue) → exec .appendStart s = .next s)
    ∧ (p.tj.fault = false → p.tj.append = none → firstRecord p.tj.queue = some r →
      (r.length ≤ p.room → exec .appendStart s = .next { s with part :=
          { p with tj := { p.tj with append := some .first } } })
      ∧ (p.room < r.length → p.sectorToOpen = none → exec .appendStart s = .next s)
      ∧ (∀ j, p.room < r.length → p.sectorToOpen = some j → ∃ q, exec .appendStart s = .next { s with part := q }
        ∧ q.tj = { p.tj with
            writing := some j
            writingSeq := p.tj.nextSeq
            nextSeq := p.tj.nextSeq + 1
            openAfter := j
            append := some .first }
        ∧ q.nv = p.nv ∧ q.om = p.om ∧ q.lu = p.lu ∧ q.tt = p.tt))
    ∧ (p.tj.append = some a → p.tj.writing = some i →
      (∀ j, a = .first → (marked false).sectorToOpen = some j → ∃ q,
        exec (.appendReadbackFail true) s = .next { s with part := q }
        ∧ q.nv = (marked false).nv
        ∧ q.tj = { p.tj with
            writing := some j
            writingSeq := p.tj.nextSeq
            nextSeq := p.tj.nextSeq + 1
            openAfter := j
            append := some (.retry i) }
        ∧ q.om = p.om ∧ q.lu = p.lu ∧ q.tt = p.tt ∧ q.art = p.art)
      ∧ (a ≠ .first ∨ (marked false).sectorToOpen = none →
        exec (.appendReadbackFail true) s = .next (faulted (marked false)))
      ∧ exec (.appendReadbackFail false) s = .next (faulted (marked true)))

/-- What each block does with a record that TJ reports as failed (Table 54): LINE is removed with its price and its HELD job,
and marks the store error of its station (R101), and the last PENDING line of a close that waits lets it end: FREE with
NO_SALE where no line is left to record, and otherwise FAILED at once in FAULT; either way the HELD TOTAL job is deleted and
the held place frees (R107, R110, R111, R151); a VOID_LINE stays VOIDED; CLOSE and VOID_ORDER leave the order in CLOSING with
its record FAILED, and the HELD TOTAL job is deleted (R111); the REPRINT job is removed, with the store error mark (R144); a
PRICE_APPLY returns the set to OPEN with APPLY_DONE FAILED (R65); a PRICE_STORED leaves the store-back OWED (R72); a DAY_CLOSE
leaves the counter CLOSED with DAY_CLOSED FAILED (R179). -/
def Obligations.FailedRecordsTellTheirBlocks : Prop :=
  ∀ (p : Part) (n owner : Nat) (o : Order),
    let deleted (kind : LabelKind) (k : Option Nat) : LabelUnit := match k with
      | none => p.lu
      | some k => { p.lu with queue := removeFirst (Job.isHeld kind k) p.lu.queue }
    let storeError (st : StationNo) : Links := { p.ml with
      stations := p.ml.stations.set st { p.ml.stations.get st with storeError := true } }
    (∀ before f behind, p.order n = some o → o.lines = before ++ ⟨f, .pending⟩ :: behind →
      (∀ x ∈ before, x.fields.index ≠ f.index) →
      let left := before ++ behind
      ((∀ kind, o.state ≠ .closing kind .waiting) ∨ (∃ x ∈ left, x.state = .pending) →
        p.recordFailed (.line n owner f) = { p with
          om := { p.om with pool := updatePool n (fun x => some { x with
              lines := removeFirst (fun l => l.fields.index == f.index) x.lines
              total := x.total - f.linePrice }) p.om.pool }
          lu := deleted .item f.label
          ml := storeError f.station })
      ∧ ∀ kind, o.state = .closing kind .waiting → (∀ x ∈ left, x.state ≠ .pending) →
        let q := p.recordFailed (.line n owner f)
        let withoutTotal : LabelUnit := match o.totalLabel with
          | none => deleted .item f.label
          | some k => { p.lu with queue := removeFirst (Job.isHeld .total k) (deleted .item f.label).queue }
        (left = [] ∨ (kind = .sale ∧ ∀ x ∈ left, x.state = .voided) →
          q.om.pool = updatePool n (fun _ => none) p.om.pool ∧ q.order n = none ∧ p.EndsNoSale q o.ticket
          ∧ q.lu = withoutTotal ∧ q.tt = p.tt)
        ∧ (left ≠ [] → (kind = .sale → ∃ x ∈ left, x.state = .active) → p.tj.fault = true →
          ∃ x, q.order n = some x
          ∧ x.state = .closing kind .failed ∧ x.lines = left ∧ x.total = o.total - f.linePrice
          ∧ q.lu = withoutTotal ∧ q.tc = p.tc ∧ q.tt = p.tt)
        ∧ (p.tj.waiting = none → p.tj.fault = true → q.tj.queue = dropHeld n p.tj.queue
          ∧ ((∀ x, Place.filled x ∉ p.tj.queue) → q.tj = { p.tj with queue := dropHeld n p.tj.queue }))
        ∧ q.ml = storeError f.station ∧ q.nv = p.nv ∧ q.art = p.art ∧ q.wc = p.wc ∧ q.oc = p.oc)
    ∧ (∀ index supervisor, p.recordFailed (.voidLine n index supervisor) = p)
    ∧ (∀ kind r, p.order n = some o →
      (∃ ticket count total label wait, kind = .sale ∧ r = .close n owner ticket count total label wait)
        ∨ (∃ ticket value, kind = .void ∧ r = .voidOrder n owner ticket value) →
      p.recordFailed r = { p with
        om := { p.om with pool := updatePool n (fun x => some { x with state := .closing kind .failed }) p.om.pool }
        lu := deleted .total o.totalLabel })
    ∧ (∀ label supervisor st, p.recordFailed (.reprint label supervisor st) = { p with
        lu := deleted .reprint (some label)
        ml := storeError st })
    ∧ (∀ g es t base entries, p.art.changeSet.content = some (base, entries) → p.recordFailed (.priceApply g es t)
        = Part.latch { p with art := { p.art with changeSet := .opened base entries p.time.elapsed } } .applyDone
            (some (.applyFailed .storeFault)))
    ∧ (∀ g h stage later, p.art.storeBack = .storing g stage later → p.recordFailed (.priceStored h)
        = { p with art := { p.art with storeBack := .owed g } })
    ∧ ∀ d, p.recordFailed (.dayClose d)
        = Part.latch { p with tt := { p.tt with counter := .closed } } .dayClosed (some (.dayFailed d.day))

/-- The completion of an append tells the block that queued the record (Table 54, R149): a LINE becomes ACTIVE and its label
is released whatever the order's state (R100), and the last PENDING line of a close that waits lets its CLOSE or VOID_ORDER
record take the held place, with the content of the TOTAL label of a sale completed (R107, R110, R130); VOID_LINE changes
nothing further (R105); a REPRINT is released and counted (R144); CLOSE accumulates the order, line by line, and VOID_ORDER its
voided value (R173, R174), both free the slot, and the order's ticket leaves as SERVED with its wait or with NO_SALE (R108, R110,
R121). A record written on its retry latches STORE_FAULT with the BAD sector (R150). -/
def Obligations.RecordsWrittenTellTheirBlocks : Prop :=
  ∀ (s : State) (n owner : Nat) (o : Order), s.runs →
    let p := s.part
    let released (kind : LabelKind) (k : Nat) : LabelUnit :=
      { p.lu with queue := changeFirst (Job.isHeld kind k) (fun j => { j with released := true }) p.lu.queue }
    (∀ f l, p.inFlight = some (.line n owner f) → p.order n = some o → o.line f.index = some l →
      let now := o.withLineState f.index .active
      let lu := match f.label with
        | none => p.lu
        | some k => released .item k
      ((∀ kind, o.state ≠ .closing kind .waiting) ∨ now.hasPending = true →
        ∃ q, exec .lineWritten s = .next { s with part := q }
        ∧ p.Appended q (.line n owner f)
        ∧ q.om = { p.om with
            pool := updatePool n (fun x => some (x.withLineState f.index .active)) p.om.pool }
        ∧ q.lu = lu
        ∧ q.wc = p.wc ∧ q.art = p.art ∧ q.oc = p.oc ∧ q.tc = p.tc ∧ q.tt = p.tt ∧ q.cc = p.cc ∧ q.time = p.time)
      ∧ (∀ kind, o.state = .closing kind .waiting → now.hasPending = false → p.tj.fault = false →
        let count := now.activeLines.length
        let r : Record := match kind with
          | .sale => .close n o.owner o.ticket count o.total o.totalLabel (p.waitOf o.ticket)
          | .void => .voidOrder n o.owner o.ticket o.total
        ∃ appended q : Part, exec .lineWritten s = .next { s with part := q }
        ∧ p.Appended appended (.line n owner f) ∧ q.nv = appended.nv ∧ q.ml = appended.ml
        ∧ (∀ before k behind, appended.tj.queue = before ++ .held n k :: behind → (∀ x, Place.held n x ∉ before) →
          q.tj = { appended.tj with
            queue := before ++ .filled r :: behind
            erase := suspendedBy (before ++ .filled r :: behind) appended.tj.erase })
        ∧ q.order n = some { now with state := .closing kind .queued }
        ∧ q.om = { p.om with
            pool := updatePool n (fun x =>
              some { x.withLineState f.index .active with state := .closing kind .queued }) p.om.pool }
        ∧ (kind = .void ∨ o.totalLabel = none → q.lu = lu)
        ∧ (∀ k, kind = .sale → o.totalLabel = some k → q.lu = { lu with
            queue := changeFirst (Job.isHeld .total k) (fun j =>
              { j with content := j.content.complete p.stamp p.art.totalPrefix count o.total }) lu.queue })
        ∧ q.wc = p.wc ∧ q.art = p.art ∧ q.oc = p.oc ∧ q.tc = p.tc ∧ q.tt = p.tt ∧ q.cc = p.cc ∧ q.time = p.time))
    ∧ (∀ index supervisor, p.inFlight = some (.voidLine n index supervisor) → ∃ q,
      exec .voidLineWritten s = .next { s with part := q } ∧ p.Appended q (.voidLine n index supervisor)
      ∧ q.om = p.om ∧ q.lu = p.lu ∧ q.tt = p.tt ∧ q.tc = p.tc ∧ q.art = p.art ∧ q.wc = p.wc ∧ q.oc = p.oc)
    ∧ (∀ label supervisor st, p.inFlight = some (.reprint label supervisor st) → ∃ q,
      exec .reprintWritten s = .next { s with part := q } ∧ p.Appended q (.reprint label supervisor st)
      ∧ q.lu = released .reprint label
      ∧ q.tt = { p.tt with accumulators := { p.tt.accumulators with counter :=
          { p.tt.accumulators.counter with reprints := p.tt.accumulators.counter.reprints + 1 } } }
      ∧ q.om = p.om ∧ q.tc = p.tc ∧ q.art = p.art ∧ q.wc = p.wc ∧ q.oc = p.oc)
    ∧ (∀ ticket count total label wait, p.inFlight = some (.close n owner ticket count total label wait) →
      p.order n = some o → ∃ q, exec .closeWritten s = .next { s with part := q }
        ∧ p.Appended q (.close n owner ticket count total label wait)
        ∧ q.om.pool = updatePool n (fun _ => none) p.om.pool
        ∧ q.tt = { p.tt with
            accumulators := p.tt.accumulators.addClose owner total label o.activeLines o.voidedLines }
        ∧ p.tt.accumulators.Closed q.tt.accumulators owner total label o.activeLines o.voidedLines
        ∧ q.tt.accumulators.counter.ordersClosed = p.tt.accumulators.counter.ordersClosed + 1
        ∧ q.tt.accumulators.counter.value = p.tt.accumulators.counter.value + total
        ∧ q.tt.accumulators.counter.lines = p.tt.accumulators.counter.lines + o.activeLines.length
        ∧ q.lu = (match o.totalLabel with
            | none => p.lu
            | some k => released .total k)
        ∧ p.EndsServed q o.ticket
        ∧ q.wc = p.wc ∧ q.art = p.art ∧ q.oc = p.oc)
    ∧ (∀ ticket value, p.inFlight = some (.voidOrder n owner ticket value) → p.order n = some o → ∃ q,
      exec .voidOrderWritten s = .next { s with part := q } ∧ p.Appended q (.voidOrder n owner ticket value)
      ∧ q.om.pool = updatePool n (fun _ => none) p.om.pool
      ∧ q.tt = { p.tt with accumulators := p.tt.accumulators.addVoidOrder owner value }
      ∧ p.tt.accumulators.OrderVoided q.tt.accumulators owner value
      ∧ q.tt.accumulators.counter.voidOrders = p.tt.accumulators.counter.voidOrders + 1
      ∧ q.tt.accumulators.counter.voidOrderValue = p.tt.accumulators.counter.voidOrderValue + value
      ∧ q.lu = p.lu ∧ p.EndsNoSale q o.ticket ∧ q.wc = p.wc ∧ q.art = p.art ∧ q.oc = p.oc)

/-- The switch on a written PRICE_APPLY: the table, in which each entry has the effect of its kind, the generation, the selection
and the tare of every station and the store-back (R20, R66, R67, R71); the writes of the store-back and of the area generation
after its last record (R71); the PRICE_STORED record, which takes a place, waits for the first that frees, is refused without
space and offered again, or ends in OWED in FAULT (R71, R72); and the end in OWED of a write that failed (R72). That the write of
the area generation can fail too, and is then OWED with the generation unchanged, is log entry 27; that a refusal in FAULT
latches nothing anew is log entry 35. -/
def Obligations.PriceSwitchAndStoreBack : Prop :=
  ∀ (s : State) (g : Nat) (es : List ChangeEntry) (e e' : ChangeEntry) (later : List OwedGeneration), s.runs →
    let p := s.part
    let stored : Part := p.storeEntry e
    (∀ t, p.inFlight = some (.priceApply g es t) → ∃ q, exec .priceApplyWritten s = .next { s with part := q }
      ∧ p.Appended q (.priceApply g es t)
      ∧ q.art.generation = g ∧ q.art.table = es.foldl (applyEntry g) p.art.table ∧ q.art.changeSet = .none
      ∧ (p.Ascending → EntriesApplied g es p.art.table q.art.table)
      ∧ q.art.storeBack = .storing g (.writing es) [] ∧ q.art.confirmed = p.art.confirmed
      ∧ (∀ st,
        let old := p.art.selections.get st
        let new := q.art.selections.get st
        let c := p.wc.get st
        let bare : Tare := if c.tare.kind = .preset then ⟨.none, 0⟩ else c.tare
        let withTare (x : Tare) : Prop := q.wc.get st = { c with tare := x }
        (old.article = none → new = { old with repeatEntry := none, override := none } ∧ q.wc.get st = c)
        ∧ ∀ n, old.article = some n →
          (lookup Article.number n q.art.table = none → new = ⟨none, 1, none, none⟩ ∧ withTare bare)
          ∧ ∀ a, lookup Article.number n q.art.table = some a →
            (a.held = true → new = ⟨none, 1, none, none⟩ ∧ withTare bare)
            ∧ (a.held = false → (∃ b, lookup ChangeEntry.number n es = some (.put b)) → new = ⟨some n, 1, none, none⟩
              ∧ (∀ v, a.presetTare = some v → 0 < v → v ≤ c.cal.max → bare.kind = .none → withTare ⟨.preset, v⟩)
              ∧ (a.presetTare = none ∨ (∃ v, a.presetTare = some v ∧ (v = 0 ∨ c.cal.max < v)) ∨ bare.kind ≠ .none →
                  withTare bare))
            ∧ (a.held = false → (∀ b, lookup ChangeEntry.number n es ≠ some (.put b)) →
                new = { old with repeatEntry := none, override := none } ∧ q.wc.get st = c))
      ∧ q.ml.latches.get .applyDone = ⟨true, some (.switched g)⟩
      ∧ q.om = p.om ∧ q.oc = p.oc ∧ q.tc = p.tc ∧ q.lu = p.lu ∧ q.tt = p.tt ∧ q.cc = p.cc)
    ∧ (∀ n, e = .delete n → stored.nv.articles = p.nv.articles.filter (fun a => a.number != n))
    ∧ (∀ a, e ≠ .delete e.number → p.article e.number = some a →
        stored.nv.articles = insertByKey Article.number a p.nv.articles)
    ∧ (∀ rest x, p.art.storeBack = .storing g (.writing (e :: e' :: rest)) later →
      exec (.articleAreaWriteDone true x) s = .next { s with part := { stored with
        art := { p.art with storeBack := .storing g (.writing (e' :: rest)) later } } })
    ∧ (p.art.storeBack = .storing g (.writing [e]) later → p.tj.fault = false → p.hasSpace 24 1 = true →
      p.hasPlace = true → ∃ q, exec (.articleAreaWriteDone true true) s = .next { s with part := q }
        ∧ q.nv = { stored.nv with areaGeneration := g } ∧ q.tj = p.tj.taking (.filled (.priceStored g))
        ∧ q.art = { p.art with storeBack := .storing g .queued later } ∧ q.om = p.om ∧ q.lu = p.lu ∧ q.tt = p.tt)
    ∧ (p.art.storeBack = .storing g (.writing [e]) later →
      let area : Part := { stored with nv := { stored.nv with areaGeneration := g } }
      let storeBack (x : StoreBack) : Part := { area with art := { p.art with storeBack := x } }
      (p.tj.fault = true →
        exec (.articleAreaWriteDone true true) s = .next { s with part := storeBack (.owed g) })
      ∧ (p.tj.fault = false → p.hasSpace 24 1 = false →
        exec (.articleAreaWriteDone true true) s = .next { s with part := storeBack (.storing g .refused later) })
      ∧ (p.tj.fault = false → p.hasSpace 24 1 = true → p.hasPlace = false →
        exec (.articleAreaWriteDone true true) s = .next { s with part :=
          { storeBack (.storing g .queued later) with tj := { p.tj with waiting := some (.priceStored g) } } })
      ∧ ∃ q, exec (.articleAreaWriteDone true false) s = .next { s with part := q } ∧ q.nv = stored.nv
        ∧ q.art = { p.art with storeBack := .owed g } ∧ q.tj = p.tj ∧ q.om = p.om ∧ q.lu = p.lu ∧ q.tt = p.tt
        ∧ q.ml.latches.get .storeFault = ⟨true, some (.store .articleArea)⟩)
    ∧ (∀ rest x, p.art.storeBack = .storing g (.writing (e :: rest)) later → ∃ q,
      exec (.articleAreaWriteDone false x) s = .next { s with part := q } ∧ q.art = { p.art with storeBack := .owed g }
      ∧ q.nv.areaGeneration = p.nv.areaGeneration ∧ q.tj = p.tj
      ∧ q.ml.latches.get .storeFault = ⟨true, some (.store .articleArea)⟩)
    ∧ (∀ h, p.inFlight = some (.priceStored h) →
      (p.art.storeBack = .storing g .queued [] → ∃ q, exec .priceStoredWritten s = .next { s with part := q }
        ∧ p.Appended q (.priceStored h) ∧ q.art = { p.art with storeBack := .idle })
      ∧ (∀ o, p.art.storeBack = .storing g .queued (o :: later) → ∃ q,
        exec .priceStoredWritten s = .next { s with part := q } ∧ p.Appended q (.priceStored h)
        ∧ q.art = { p.art with storeBack := .storing o.generation (.writing o.entries) later }))

/-- An erase begins by R153 on the sector with the ERASE_BEGUN mark, or on the candidate while fewer than 4 sectors are
ERASED; it resumes once no filled place remains (R154); it ends with the sector ERASED, or, when it fails, BAD with no records
and STORE_FAULT, and the journal does not go into FAULT (R155); a PRICE_STORED that was refused with JOURNAL_FULL is then
offered again (R72; at a failed erase too, log entry 36). In FAULT no erase begins, and one in flight or suspended is left
where it stands (R151). What suspends an erase is said of the commands that fill a place, in Journal.taking and Part.Appended
(R154). That an erase which begins while a filled place stands at the front of the write queue is not suspended is the model's
choice (log entry 24), and so is that the BAD mark of a failed erase is taken as written (log entry 54). -/
def Obligations.ErasesBeginAndEnd : Prop :=
  (∀ s : State, s.runs → s.part.tj.fault = true →
    exec .eraseStart s = .next s ∧ exec .eraseResume s = .next s ∧ ∀ agrees, exec (.eraseDone agrees) s = .next s)
  ∧ ∀ (s : State) (i : Nat), s.runs → s.part.tt.counter ≠ .starting → s.part.tj.fault = false →
    let p := s.part
    let began : Part := { p with
      nv := { p.nv with
        sectors := p.nv.sectors.modify i (fun x => { x with mark := .eraseBegun, records := [], torn := none }) }
      tj := { p.tj with erase := some ⟨i, false⟩ } }
    (p.tj.erase = none →
      (p.begun = some i → exec .eraseStart s = .next { s with part := began })
      ∧ (p.begun = none → p.erasedCount < 4 → p.candidate = some i → exec .eraseStart s = .next { s with part := began })
      ∧ (p.begun = none → 4 ≤ p.erasedCount ∨ p.candidate = none → exec .eraseStart s = .next s))
    ∧ (p.tj.erase ≠ none → exec .eraseStart s = .next s)
    ∧ (p.tj.erase = some ⟨i, true⟩ →
      ((∀ x, Place.filled x ∉ p.tj.queue) → exec .eraseResume s = .next { s with part :=
          { p with tj := { p.tj with erase := some ⟨i, false⟩ } } })
      ∧ (∀ x, Place.filled x ∈ p.tj.queue → exec .eraseResume s = .next s)
      ∧ ∀ agrees, exec (.eraseDone agrees) s = .next s)
    ∧ (p.tj.erase = some ⟨i, false⟩ → (∀ g later, p.art.storeBack ≠ .storing g .refused later) →
      (∃ q, exec (.eraseDone true) s = .next { s with part := q }
        ∧ q.nv = { p.nv with sectors := p.nv.sectors.modify i (fun _ => ⟨.erased, none, [], none, false⟩) }
        ∧ q.tj = { p.tj with erase := none } ∧ q.om = p.om ∧ q.lu = p.lu ∧ q.tt = p.tt ∧ q.art = p.art)
      ∧ ∃ q, exec (.eraseDone false) s = .next { s with part := q }
        ∧ q.nv = { p.nv with sectors := p.nv.sectors.modify i (fun x =>
            { x with mark := .bad, records := [], torn := none }) }
        ∧ q.tj = { p.tj with erase := none } ∧ q.ml.latches.get .storeFault = ⟨true, some (.store (.sectorBad i))⟩
        ∧ q.om = p.om ∧ q.lu = p.lu ∧ q.tt = p.tt ∧ q.art = p.art)
    ∧ (∀ g later agrees, p.tj.erase = some ⟨i, false⟩ → p.art.storeBack = .storing g .refused later →
      let ended : Part := { p with
        nv := { p.nv with sectors := p.nv.sectors.modify i (fun x => if agrees then ⟨.erased, none, [], none, false⟩ else
          { x with mark := .bad, records := [], torn := none }) }
        tj := { p.tj with erase := none } }
      ∃ q, exec (.eraseDone agrees) s = .next { s with part := q } ∧ q.nv = ended.nv
        ∧ q.om = p.om ∧ q.lu = p.lu ∧ q.tt = p.tt
        ∧ (ended.hasSpace 24 1 = false → q.tj = ended.tj ∧ q.art = p.art)
        ∧ (ended.hasSpace 24 1 = true → q.art = { p.art with storeBack := .storing g .queued later }
          ∧ (p.hasPlace = true → q.tj = { ended.tj with queue := p.tj.queue ++ [.filled (.priceStored g)] })
          ∧ (p.hasPlace = false → q.tj = { ended.tj with waiting := some (.priceStored g) })))

/-- The room of the journal (R145 to R148): records are laid out in queue order, from what is left of the writing sector, with a
closing record of full length for each held place and the waiting record before the new one; each record that does not fit
begins a fresh sector, and the fresh sectors leave the ERASED ones that the kind of the new record must keep. The checks of a
request that queues a record come in the order FAULT, space, place (R147). The erase candidate (R152): the FULL sector with the
lowest sequence number, when it is erasable and every BAD sector below it is too; a sector is erasable without records, or when
a later sector holds a DAY_CLOSE and each of its PRICE_APPLY records is followed by the PRICE_STORED of its generation. A dead
BAD sector is no part of the journal (R152, R158; that it needs a live sector is log entry 15, and when its records go log entry
47). -/
def Obligations.JournalRoomAndErasableSectors : Prop :=
  (∀ (room : Nat) (lens : List Nat), (∀ x ∈ lens, x ≤ 4064) → ∃ (first : List Nat) (fresh : List (List Nat)),
    lens = first ++ fresh.flatten ∧ first.sum ≤ room ∧ (∀ x ∈ fresh, x ≠ [] ∧ x.sum ≤ 4064)
    ∧ (∀ len rest more, fresh = (len :: rest) :: more → room < first.sum + len)
    ∧ (∀ less x len rest more, fresh = less ++ x :: (len :: rest) :: more → 4064 < x.sum + len)
    ∧ freshSectors room lens = fresh.length)
  ∧ (∀ (p : Part) (length reserve : Nat),
    let taken (x : Place) : Nat := match x with
      | .held _ .sale => 40
      | .held _ .void => 32
      | .filled r => r.length
    let n := freshSectors p.room (p.tj.queue.map taken ++ (p.tj.waiting.map Record.length).toList ++ [length])
    (p.tj.writing = none → p.room = 0)
    ∧ (∀ i x, p.tj.writing = some i → p.nv.sectors[i]? = some x →
        p.room = 4064 - ((x.records.map Stored.record).map Record.length).sum)
    ∧ p.erasedCount = ((List.range 32).filter (fun i =>
        decide (p.tj.writing ≠ some i ∧ (p.nv.sectors[i]?).map Sector.mark = some .erased))).length
    ∧ (p.hasSpace length reserve = true ↔ n = 0 ∨ n + reserve ≤ p.erasedCount)
    ∧ (p.hasPlace = true ↔ p.tj.waiting = none ∧ p.tj.queue.length < 8)
    ∧ p.journalCheck length reserve = (if p.tj.fault = true then .error .storeFault
        else if p.hasSpace length reserve = false then .error .journalFull
        else if p.hasPlace = false then .error .storeBusy
        else .ok ()))
  ∧ (∀ (n owner : Nat) (f : LineFields) (index supervisor count total value label : Nat) (ticket mark wait : Option Nat)
      (st : StationNo) (g : Nat) (es : List ChangeEntry) (t : Option DateTime) (d : DayClose),
    (Record.line n owner f).length = 56 ∧ (Record.voidLine n index supervisor).length = 24
    ∧ (Record.close n owner ticket count total mark wait).length = 40
    ∧ (Record.voidOrder n owner ticket value).length = 32 ∧ (Record.reprint label supervisor st).length = 24
    ∧ (Record.priceApply g es t).length = 64 + 49 * es.length ∧ (Record.priceStored g).length = 24
    ∧ (Record.dayClose d).length = 64)
  ∧ (∀ (ss : List Sector) (x : Indexed),
    let js := journalSectors ss
    let live (y : Sector) : Prop := y.mark = .inUse ∨ y.mark = .sealed
    let readable (y : Sector) : Prop := (live y ∨ y.mark = .bad) ∧ y.seq ≠ none
    let dead (y : Sector) : Prop := y.mark = .bad ∧ (∃ z ∈ ss, live z) ∧ ∀ z ∈ ss, live z → y.seq.getD 0 < z.seq.getD 0
    (js.map Indexed.seq).Pairwise (· < ·)
    ∧ (x ∈ js → ss[x.index]? = some x.sector ∧ readable x.sector ∧ ¬ dead x.sector)
    ∧ (ss[x.index]? = some x.sector → readable x.sector → ¬ dead x.sector →
        (∀ j y, ss[j]? = some y → readable y → y.seq = x.sector.seq → j = x.index) → x ∈ js)
    ∧ (erasable ss x = true ↔ x.sector.records = []
        ∨ (∃ y ∈ js, x.seq < y.seq ∧ ∃ d, .dayClose d ∈ y.sector.journal)
          ∧ ∀ before g es t behind, x.sector.journal = before ++ .priceApply g es t :: behind →
            .priceStored g ∈ behind ∨ ∃ y ∈ js, x.seq < y.seq ∧ .priceStored g ∈ y.sector.journal))
  ∧ ∀ (p : Part) (i : Nat),
    let ss := p.nv.sectors
    let full (y : Indexed) : Prop := ss[y.index]? = some y.sector ∧ (y.sector.mark = .inUse ∨ y.sector.mark = .sealed)
      ∧ p.tj.writing ≠ some y.index
    let mayGo (y : Indexed) : Prop := erasable ss y = true
      ∧ ∀ j z, ss[j]? = some z → z.mark = .bad → z.seq.getD 0 < y.seq → erasable ss ⟨j, z⟩ = true
    (p.candidate = some i → ∃ y, y.index = i ∧ full y ∧ mayGo y ∧ ∀ z, full z → y.seq ≤ z.seq)
    ∧ (∀ y, y.index = i → full y → mayGo y → (∀ z, full z → z.index ≠ i → y.seq < z.seq) → p.candidate = some i)

/-- JOURNAL_LOW is judged when a sector is opened, when a DAY_CLOSE or PRICE_STORED is written, when an erase ends and when the
start-up scan ends: it is latched with the number of ERASED sectors when these are fewer than 4, no erase is in flight and
none can begin (R153, R156), and it is set at no other moment. PRINT_QUEUE_HIGH is latched when a job joins and the queue then
holds 24 jobs or more, with their number and the printer of the station (R132). -/
def Obligations.LowJournalAndLongQueueAreLatched : Prop :=
  (∀ (s t : State) (c : Instr), exec c s = .next t →
    let low := t.part.erasedCount < 4 ∧ t.part.tj.erase = none ∧ t.part.begun = none ∧ t.part.candidate = none
    (s.judgesErase c t →
      (low → t.part.ml.latches.get .journalLow = ⟨true, some (.erasedSectors t.part.erasedCount)⟩)
      ∧ (¬ low → t.part.ml.latches.get .journalLow = s.part.ml.latches.get .journalLow))
    ∧ (¬ s.judgesErase c t → (t.part.ml.latches.get .journalLow).flag = true →
        t.part.ml.latches.get .journalLow = s.part.ml.latches.get .journalLow))
  ∧ ∀ (s t : State) (c : Instr) (st : StationNo) (tag : Nat),
    (c = .addLine st tag ∨ c = .closeOrder st tag ∨ ∃ index, c = .reprint st tag index) → exec c s = .next t →
    let jobs := t.part.lu.queue.length
    (jobs = s.part.lu.queue.length + 1 → 24 ≤ jobs →
      t.part.ml.latches.get .printQueueHigh = ⟨true, some (.printQueue jobs (s.part.config st).printer)⟩)
    ∧ (jobs = s.part.lu.queue.length ∨ jobs < 24 →
      t.part.ml.latches.get .printQueueHigh = s.part.ml.latches.get .printQueueHigh)

/-! ## Station bus -/

/-- The next enabled station above the one polled last is polled, or else the lowest one, which is also the first one after a
reset (R196; log entry 6), with the content of Table 68 (R29, R48, R198); a valid reply makes the link PRESENT, confirms a
generation and gives its samples to the channel (R23, R69, R196, R197); a reply that is not valid, with two key requests of
one tag or a value outside Table 69 among the reasons, ends the wait for a reply and changes nothing else; without a reply
that wait ends after 2 ms, and 500 ms without a valid reply make a link STALE (R24, R69, R87, R183, R196; log entries 4 and
6). -/
def Obligations.StationBusPollsAndListens : Prop :=
  ∀ (s : State) (st : StationNo), s.runs →
    let p := s.part
    let polled (c : Poll) : State := { s with part := { p with ml := { p.ml with
      sentPoll := some (st, c)
      lastPolled := some st
      awaited := some ⟨st, p.time.elapsed⟩ } } }
    (p.ml.awaited ≠ none → exec .stationPoll s = .next s)
    ∧ (∀ last, p.ml.awaited = none → p.ml.lastPolled = some last → (p.config st).enabled = true →
      (last.number < st.number ∧ (∀ x, last.number < x.number → x.number < st.number → (p.config x).enabled = false)
        ∨ (∀ x, last.number < x.number → (p.config x).enabled = false)
          ∧ (∀ x, x.number < st.number → (p.config x).enabled = false)) →
      ∃ c : Poll, exec .stationPoll s = .next (polled c) ∧ p.Polled st c)
    ∧ (p.ml.awaited = none → p.ml.lastPolled = none → (p.config st).enabled = true →
      (∀ x, x.number < st.number → (p.config x).enabled = false) →
      ∃ c : Poll, exec .stationPoll s = .next (polled c) ∧ p.Polled st c)
    ∧ (∀ t r, p.ml.awaited = some ⟨st, t⟩ →
      (r.address = st.number → r.checkAgrees = true → r.samples.length ≤ 4 →
        (∀ x ∈ r.samples, -8388608 ≤ x ∧ x ≤ 8388607) → r.displayedGeneration ≤ 4294967295 → r.keys = [] →
        p.time.elapsed ≤ t + 2 → exec (.stationReply r) s = .next { s with part := { p with
          wc := p.wc.set st (r.samples.foldl (fun c x => c.takeSample p.time.elapsed x)
            (if p.link st = .absent then Channel.initial (p.wc.get st).cal (p.wc.get st).config else p.wc.get st))
          art := { p.art with confirmed := p.art.confirmed.set st (some r.displayedGeneration) }
          ml := { p.ml with
            stations := p.ml.stations.set st
              { p.ml.stations.get st with link := .present, lastReply := some p.time.elapsed }
            awaited := none } } })
      ∧ (r.address ≠ st.number ∨ r.checkAgrees = false ∨ 4 < r.samples.length
          ∨ (∃ x ∈ r.samples, x < -8388608 ∨ 8388607 < x) ∨ 4294967295 < r.displayedGeneration ∨ 2 < r.keys.length
          ∨ (∃ k ∈ r.keys, k.tag = 0 ∨ 255 < k.tag ∨ k.key = none) ∨ (∃ k1 k2, r.keys = [k1, k2] ∧ k1.tag = k2.tag)
          ∨ t + 2 < p.time.elapsed →
        exec (.stationReply r) s = .next { s with part := { p with ml := { p.ml with awaited := none } } })
      ∧ exec .stationReplyTimeout s = .next { s with part := { p with
          time := p.time.advance (t + 2 - p.time.elapsed)
          ml := { p.ml with awaited := none } } })
    ∧ (∀ t, p.link st = .present → (p.ml.stations.get st).lastReply = some t → ∃ q,
      exec (.stationStale st) s = .next { s with part := q }
      ∧ q.time = p.time.advance (t + 500 - p.time.elapsed)
      ∧ q.ml.stations = p.ml.stations.set st { p.ml.stations.get st with link := .stale }
      ∧ q.ml.latches.get .stationLost = ⟨true, some (.station st)⟩
      ∧ q.art = { p.art with confirmed := p.art.confirmed.set st none }
      ∧ (∀ x, q.oc.stack.get x = if x = st then (match p.oc.stack.get st with
          | .overridden c _ _ => .signedOn c
          | k => k) else p.oc.stack.get x)
      ∧ (∀ x, x ≠ st → q.wc.get x = p.wc.get x)
      ∧ q.wc.get st = { p.wc.get st with
          window := []
          filtered := none
          filteredRaw := none
          stability := []
          rawHistory := []
          rail := false
          session := (q.wc.get st).session }
      ∧ (∀ x, p.cc.session = some x → x.station = st → (∀ y, p.ml.serving = some y →
          (∀ e, y.write ≠ .calAudit e) ∧ ∀ e, y.write ≠ .calRecord e) → q.cc.session = none
          ∧ q.cc.lastEnd.map SessionEnd.cause = some .stale ∧ (q.wc.get st).session = false)
      ∧ (p.cc.session.map Session.station ≠ some st
          ∨ (∃ y e, p.ml.serving = some y ∧ (y.write = .calAudit e ∨ y.write = .calRecord e)) →
          q.cc = p.cc ∧ (q.wc.get st).session = (p.wc.get st).session)
      ∧ q.nv = p.nv ∧ q.om = p.om ∧ q.tc = p.tc ∧ q.lu = p.lu ∧ q.tj = p.tj ∧ q.tt = p.tt)

/-- The key requests of a valid reply are served in their order against the part as the rest of the reply left it, which is
the reply without them (R197). One key request does what its own command does. Of two, a first one that is a retransmission is
not served; otherwise both are served, each with its tag as the one kept, and the outcome list is replaced once by their two
outcomes, the sequence rises once, and the store error mark becomes no (R197, R198). That after a retransmission and a
new request the list holds the outcome of the new one alone is the model's choice (log entry 58). -/
def Obligations.StationRepliesServeTheirKeys : Prop :=
  ∀ (s : State) (st : StationNo) (t : Nat) (r : StationReply) (k1 k2 : Key) (t1 t2 : Nat), s.runs →
    s.part.ml.awaited = some ⟨st, t⟩ → r.address = st.number → r.checkAgrees = true → r.samples.length ≤ 4 →
    (∀ x ∈ r.samples, -8388608 ≤ x ∧ x ≤ 8388607) → r.displayedGeneration ≤ 4294967295 → s.part.time.elapsed ≤ t + 2 →
    1 ≤ t1 → t1 ≤ 255 → 1 ≤ t2 → t2 ≤ 255 → t1 ≠ t2 →
    ∃ p : Part, exec (.stationReply { r with keys := [] }) s = .next { s with part := p }
      ∧ p.link st = .present
      ∧ (r.keys = [⟨t1, some k1⟩] → ∀ c : Instr, c.keyRequest? = some (st, t1, k1) →
        exec (.stationReply r) s = exec c { s with part := p })
      ∧ (r.keys = [⟨t1, some k1⟩, ⟨t2, some k2⟩] →
        ((p.ml.stations.get st).keptTag = some t1 → ∀ c : Instr, c.keyRequest? = some (st, t2, k2) →
          exec (.stationReply r) s = exec c { s with part := p })
        ∧ ((p.ml.stations.get st).keptTag ≠ some t1 →
          let result (a : Served) : KeyResult := match a with
            | .ok x => .accepted x.2
            | .error e => .refused e
          let after (q : Part) (a : Served) : Part := match a with
            | .ok x => x.1
            | .error _ => q
          let served1 := (p.keyTaken st t1).serveKey st k1
          let p2 := (after (p.keyTaken st t1) served1).keyTaken st t2
          let served2 := p2.serveKey st k2
          let q := after p2 served2
          exec (.stationReply r) s = .next { s with part := q.onLink st (fun l =>
            { l with
              sequence := (l.sequence + 1) % 256
              outcomes := [⟨t1, result served1⟩, ⟨t2, result served2⟩]
              storeError := false }) }))

/-! ## Labels, prices and laws of the part -/

/-- What a label carries (Table 47). An ITEM or REPRINT label is composed from its line (R129, R131): its weight and tare, or
its quantity, by the kind of the line; the list price of an overridden line; the name and the sell-by date of the article
record it is given. A TOTAL label begins without total, count, time and code (R130), and takes them when its CLOSE record is
formed. The item and the total code are twelve digits, which read as the prefix, the article or order number, and the price or
total, and their check digit (R49, R50). The sell-by date lies as many days after the date of the label as the shelf life
says, by the calendar (R129); that 2100 is no leap year for a date that falls in it is the model's choice (log entry 30). -/
def Obligations.LabelsCarryTheirContent : Prop :=
  (∀ (kind : LabelKind) (label itemPrefix order owner : Nat) (f : LineFields) (a : Option Article),
    let x := lineContent kind label itemPrefix order owner f a
    x.kind = kind ∧ x.label = label ∧ x.stamp = f.time ∧ x.articleName = a.map Article.name ∧ x.article = some f.article
    ∧ x.unitPrice = some f.unitPrice ∧ x.linePrice = some f.linePrice ∧ x.order = order ∧ x.lineIndex = some f.index
    ∧ x.lineCount = none ∧ x.total = none ∧ x.ticket = none ∧ x.clerk = owner ∧ x.station = f.station
    ∧ x.code = itemCode itemPrefix f.article f.linePrice
    ∧ (∀ g t, f.measure = .weighed g t → x.weight = some g ∧ x.quantity = none ∧ x.perKilogram = true
        ∧ (t.value = 0 → x.tare = none) ∧ (0 < t.value → x.tare = some t.value))
    ∧ (∀ n, f.measure = .counted n → x.weight = none ∧ x.tare = none ∧ x.quantity = some n ∧ x.perKilogram = false)
    ∧ (f.measure = .fixed → x.weight = none ∧ x.tare = none ∧ x.quantity = some 1 ∧ x.perKilogram = false)
    ∧ (f.overriddenBy = none → x.wasPrice = none)
    ∧ (∀ n, f.overriddenBy = some n → x.wasPrice = some f.listPrice)
    ∧ (f.time = none ∨ a.bind Article.shelfLife = none → x.sellBy = none)
    ∧ (∀ t days, f.time = some t → a.bind Article.shelfLife = some days → x.sellBy = some (t.date.plusDays days)))
  ∧ (∀ (label order owner totalPrefix count total : Nat) (ticket : Option Nat) (st : StationNo) (stamp : Option DateTime),
    let draft := totalDraft label order owner ticket st
    let x := draft.complete stamp totalPrefix count total
    draft.total = none ∧ draft.lineCount = none ∧ draft.stamp = none ∧ draft.code = []
    ∧ x.kind = .total ∧ x.label = label ∧ x.order = order ∧ x.clerk = owner ∧ x.ticket = ticket ∧ x.station = st
    ∧ x.stamp = stamp ∧ x.lineCount = some count ∧ x.total = some total ∧ x.code = totalCode totalPrefix order total
    ∧ x.articleName = none ∧ x.article = none ∧ x.weight = none ∧ x.tare = none ∧ x.quantity = none ∧ x.unitPrice = none
    ∧ x.linePrice = none ∧ x.wasPrice = none ∧ x.sellBy = none ∧ x.lineIndex = none)
  ∧ (∀ front number cents : Nat, front ≤ 99 →
    let reads (code : List Nat) (value : Nat) : Prop := ∃ digits : List Nat, code = digits ++ [checkDigit digits]
      ∧ digits.length = 12 ∧ (∀ d ∈ digits, d ≤ 9) ∧ digits.foldl (fun n d => 10 * n + d) 0 = value
    (number ≤ 99999 → cents ≤ 99999 →
      reads (itemCode front number cents) (front * 10000000000 + number * 100000 + cents))
    ∧ (number ≤ 9999 → cents ≤ 999999 →
      reads (totalCode front number cents) (front * 10000000000 + number * 1000000 + cents)))
  ∧ ∀ (d : Date) (days : Nat), 2000 ≤ d.year → d.year ≤ 2099 → 1 ≤ d.month → d.month ≤ 12 → 1 ≤ d.day →
    d.day ≤ monthLength d.year d.month → days ≤ 99 →
    let e := d.plusDays days
    e.dayNumber = d.dayNumber + days ∧ d.year ≤ e.year ∧ 1 ≤ e.month ∧ e.month ≤ 12 ∧ 1 ≤ e.day
    ∧ e.day ≤ monthLength e.year e.month

/-- The list price of a WEIGHED line is the rounded quotient of the exact product, times the step (R43), and the check digit of
twelve digits weighs them 1, 3, 1, 3 and so on from digit 1 (R51). -/
def Obligations.PricesAndCheckDigit : Prop :=
  (∀ w u s : Nat, 1 ≤ s →
    (∃ q, weighedPrice .nearest w u s = q * s ∧ 2 * (q * (1000 * s)) ≤ 2 * (w * u) + 1000 * s
      ∧ 2 * (w * u) < 2 * (q * (1000 * s)) + 1000 * s)
    ∧ (∃ q, weighedPrice .down w u s = q * s ∧ q * (1000 * s) ≤ w * u ∧ w * u < (q + 1) * (1000 * s))
    ∧ (∃ q, weighedPrice .up w u s = q * s ∧ w * u ≤ q * (1000 * s) ∧ q * (1000 * s) < w * u + 1000 * s))
  ∧ ∀ d1 d2 d3 d4 d5 d6 d7 d8 d9 d10 d11 d12 : Nat,
    checkDigit [d1, d2, d3, d4, d5, d6, d7, d8, d9, d10, d11, d12]
      = (10 - (d1 + 3 * d2 + d3 + 3 * d4 + d5 + 3 * d6 + d7 + 3 * d8 + d9 + 3 * d10 + d11 + 3 * d12) % 10) % 10

/-- The state right after reset keeps the laws of the part (Tables 3, 34 and 56, R32, R53, R102, R115, R128, R133, R168, R175,
R188). -/
def Obligations.LawsHoldAtReset : Prop :=
  State.reset.part.Inv ∧ State.reset.part.Bound ∧ State.reset.part.Ascending ∧ State.reset.part.Ticketed
  ∧ State.reset.part.Priced ∧ State.reset.part.Balanced ∧ State.reset.part.Switching ∧ State.reset.part.TableFits
  ∧ State.reset.part.Labelled ∧ State.reset.part.time.Runs

/-- Every step keeps these capacities of Table 3: the clerk table, the order pool, the change set, the waiting queue, the missed
list, the call list, the print queue, the journal ring, the write queue, the article accumulator map, the audit area and the
host input buffer, with the clerk entries of R173 and the ascending order of the lists that hold each number once. It never puts
a job at a printer before its record is written (R133), keeps the audit counter in step with the entries (R182, R188), and
keeps the pool empty while a day close is in flight (R93, R177). Every step keeps the clock on a date and a time of day that it
can read (Table 56, R168, R169), and the position inside the present second within it (log entry 4). -/
def Obligations.StepKeepsTheLaws : Prop :=
  (∀ s t : State, s.part.Inv → step s = .next t → t.part.Inv)
  ∧ ∀ s t : State, s.part.time.Runs → step s = .next t → t.part.time.Runs

/-- Every step keeps the order numbers different, the active-order references and the OPEN orders bound to each other, one place
of the write queue for each close, at most 24 lines in an order with ascending indices, and at most 3 orders of a clerk in OPEN
or PARKED (Table 3, R90, R91, R92, R98, R106, R107, R109, R110). -/
def Obligations.StepKeepsOrdersBound : Prop :=
  ∀ s t : State, s.part.Inv → s.part.Bound → step s = .next t → t.part.Bound

/-- Every step keeps the numbers of the live tickets different and within 1..99, each SERVING ticket and an order naming each
other, and each ticket once in the call list (R115, R119, R121, R123). With them a new ticket always finds a free number. -/
def Obligations.StepKeepsTicketsDistinct : Prop :=
  (∀ s t : State, s.part.Inv → s.part.Bound → s.part.Ticketed → step s = .next t → t.part.Ticketed)
  ∧ ∀ p : Part, p.Inv → p.Ticketed → p.tc.waiting.length < 64 →
    freeTicket p.tc.live 99 p.tc.lastIssued ∉ p.tc.live

/-- No two LINE or CLOSE records carry one label number, nor do two ITEM or TOTAL jobs (R128, R133): every step keeps this over
the records in the sectors, those in the write queue and the labels of closes still to be recorded. A step of a counter that is
not STARTING also keeps every such number at or below the last number taken, so that the next label takes a new one. Numbers are
followed up to the wrap after 4,294,967,295: the step starts at least two below it, since a reply can carry two requests that
each take a number. The end of the start-up scan brings the law back, when the journal found has not passed the wrap: the records
read after its latest DAY_CLOSE carry label numbers above that of the DAY_CLOSE, and every other number in the sectors is at or
below it. -/
def Obligations.StepKeepsLabelsDistinct : Prop :=
  (∀ s t : State, s.part.Inv → s.part.Bound → s.part.Priced → s.part.Labelled → s.part.lu.lastLabel + 2 ≤ 4294967295 →
    step s = .next t →
    t.part.recordLabels.Nodup ∧ t.part.jobLabels.Nodup ∧ (s.part.tt.counter ≠ .starting → t.part.Labelled))
  ∧ ∀ (s t : State) (failed : List Nat) (rest : List Instr), s.pending = .startUpScanEnd failed :: rest → s.part.Labelled →
    let found := sinceClose (readSectors (journalSectors (surveyed s.part.nv.sectors))).records
    let base := (found.1.map DayClose.lastLabel).getD 0
    base ≤ 4294967295 → (∀ n ∈ found.2.filterMap Record.label?, base < n ∧ n ≤ 4294967295) →
    (∀ n, n ∈ s.part.recordLabels ∨ n ∈ s.part.jobLabels →
      1 ≤ n ∧ (n ≤ base ∨ n ∈ found.2.filterMap Record.label?)) →
    step s = .next t → t.part.Labelled

/-- Every step keeps an order's total at the sum of the prices of its lines that are not VOIDED, and its records in the write
queue in agreement with it (R99, R101, R102, R105, R107, R110). Every step but the end of the start-up scan keeps the article
map with OTHER, the departments, the clerks and the stations each at the sum of the day's sales value (R173, R175). -/
def Obligations.StepKeepsTotals : Prop :=
  (∀ s t : State, s.part.Inv → s.part.Bound → s.part.Priced → step s = .next t → t.part.Priced)
  ∧ ∀ s t : State, s.part.Inv → s.part.Bound → s.part.Priced → s.part.Balanced → s.notScanEnd → step s = .next t →
    t.part.Balanced

/-- Every step keeps a change set at the current generation, beside no store-back, with one PRICE_APPLY of the current
generation plus 1 queued in APPLYING and none otherwise, so that the switch raises the generation by exactly one (R53, R55,
R62, R64). Every step but the end of the start-up scan keeps the article table within 2,000 records (Table 3, R34). -/
def Obligations.StepKeepsTheNextGeneration : Prop :=
  (∀ s t : State, s.part.Switching → step s = .next t → t.part.Switching)
  ∧ (∀ s t : State, s.part.Switching → exec .priceApplyWritten s = .next t →
      t.part.art.generation = s.part.art.generation ∨ t.part.art.generation = s.part.art.generation + 1)
  ∧ ∀ s t : State, s.part.Inv → s.part.Ascending → s.part.Switching → s.part.TableFits → s.notScanEnd →
    step s = .next t → t.part.TableFits

/-- Every step keeps the article table and the article area in ascending article number, each number once (R32, R66, R71). -/
def Obligations.StepKeepsArticlesAscending : Prop :=
  ∀ s t : State, s.part.Ascending → step s = .next t → t.part.Ascending

/-- The current generation changes only when a PRICE_APPLY record is written, at the end of the start-up scan, and at a reset
(R53). No step alters or removes an audit entry, and in a part that keeps its laws none lowers the audit counter (R188). -/
def Obligations.GenerationAndAuditAreGuarded : Prop :=
  (∀ (s t : State) (c : Instr), exec c s = .next t → t.part.art.generation ≠ s.part.art.generation →
    c = .priceApplyWritten ∨ (∃ x, c = .startUpScanEnd x) ∨ c = .powerOn ∨ c = .resetLine ∨ (∃ x, c = .resetPart x)
    ∨ ∃ f : WireFrame, c = .hostFrame f ∧ f.meaning = .request .resetPart)
  ∧ ∀ (s t : State) (c : Instr), exec c s = .next t →
    s.part.nv.audit <+: t.part.nv.audit ∧ (s.part.Inv → s.part.nv.auditCounter ≤ t.part.nv.auditCounter)
end

