-- ==== Sys2Proof/Laws/State.lean ====
section
/-! SUPPORT. The small lemmas of the state: reading a value after writing it, and each field of the part after each update,
all true by definition, so that no later proof unfolds a record update. -/

namespace Sys2Proof.Machine

/-! ## One value for each station, printer, dispenser, condition -/

@[simp] theorem PerStation.get_set_same {α : Type} (v : PerStation α) (i : StationNo) (x : α) : (v.set i x).get i = x := by
  cases i <;> rfl

theorem PerStation.get_set_other {α : Type} (v : PerStation α) {i j : StationNo} (x : α) (h : j ≠ i) : (v.set i x).get j = v.get j := by
  cases i <;> cases j <;> first | rfl | exact absurd rfl h

theorem PerStation.get_set {α : Type} (v : PerStation α) (i j : StationNo) (x : α) :
    (v.set i x).get j = if j = i then x else v.get j := by
  split
  · rename_i h; subst h; simp
  · rename_i h; exact PerStation.get_set_other v x h

@[simp] theorem PerStation.set_get {α : Type} (v : PerStation α) (i : StationNo) : v.set i (v.get i) = v := by
  cases i <;> rfl

@[simp] theorem PerStation.set_set {α : Type} (v : PerStation α) (i : StationNo) (x y : α) : (v.set i x).set i y = v.set i y := by
  cases i <;> rfl

theorem PerStation.ext_get {α : Type} {v w : PerStation α} (h : ∀ i, v.get i = w.get i) : v = w := by
  cases v; cases w; simp only [PerStation.mk.injEq]
  exact ⟨h .s1, h .s2, h .s3, h .s4, h .s5, h .s6, h .s7, h .s8⟩

@[simp] theorem PerPrinter.get_set_same {α : Type} (v : PerPrinter α) (i : PrinterNo) (x : α) : (v.set i x).get i = x := by
  cases i <;> rfl

theorem PerPrinter.get_set_other {α : Type} (v : PerPrinter α) {i j : PrinterNo} (x : α) (h : j ≠ i) : (v.set i x).get j = v.get j := by
  cases i <;> cases j <;> first | rfl | exact absurd rfl h

theorem PerPrinter.get_set {α : Type} (v : PerPrinter α) (i j : PrinterNo) (x : α) :
    (v.set i x).get j = if j = i then x else v.get j := by
  split
  · rename_i h; subst h; simp
  · rename_i h; exact PerPrinter.get_set_other v x h

@[simp] theorem PerPrinter.set_get {α : Type} (v : PerPrinter α) (i : PrinterNo) : v.set i (v.get i) = v := by
  cases i <;> rfl

@[simp] theorem PerPrinter.set_set {α : Type} (v : PerPrinter α) (i : PrinterNo) (x y : α) : (v.set i x).set i y = v.set i y := by
  cases i <;> rfl

theorem PerPrinter.ext_get {α : Type} {v w : PerPrinter α} (h : ∀ i, v.get i = w.get i) : v = w := by
  cases v; cases w; simp only [PerPrinter.mk.injEq]
  exact ⟨h .p1, h .p2, h .p3, h .p4⟩

@[simp] theorem PerDispenser.get_set_same {α : Type} (v : PerDispenser α) (i : DispenserNo) (x : α) : (v.set i x).get i = x := by
  cases i <;> rfl

theorem PerDispenser.get_set_other {α : Type} (v : PerDispenser α) {i j : DispenserNo} (x : α) (h : j ≠ i) : (v.set i x).get j = v.get j := by
  cases i <;> cases j <;> first | rfl | exact absurd rfl h

theorem PerDispenser.get_set {α : Type} (v : PerDispenser α) (i j : DispenserNo) (x : α) :
    (v.set i x).get j = if j = i then x else v.get j := by
  split
  · rename_i h; subst h; simp
  · rename_i h; exact PerDispenser.get_set_other v x h

@[simp] theorem PerDispenser.set_get {α : Type} (v : PerDispenser α) (i : DispenserNo) : v.set i (v.get i) = v := by
  cases i <;> rfl

@[simp] theorem PerDispenser.set_set {α : Type} (v : PerDispenser α) (i : DispenserNo) (x y : α) : (v.set i x).set i y = v.set i y := by
  cases i <;> rfl

theorem PerDispenser.ext_get {α : Type} {v w : PerDispenser α} (h : ∀ i, v.get i = w.get i) : v = w := by
  cases v; cases w; simp only [PerDispenser.mk.injEq]
  exact ⟨h .d1, h .d2⟩

@[simp] theorem PerCondition.get_set_same {α : Type} (v : PerCondition α) (i : Condition) (x : α) : (v.set i x).get i = x := by
  cases i <;> rfl

theorem PerCondition.get_set_other {α : Type} (v : PerCondition α) {i j : Condition} (x : α) (h : j ≠ i) : (v.set i x).get j = v.get j := by
  cases i <;> cases j <;> first | rfl | exact absurd rfl h

theorem PerCondition.get_set {α : Type} (v : PerCondition α) (i j : Condition) (x : α) :
    (v.set i x).get j = if j = i then x else v.get j := by
  split
  · rename_i h; subst h; simp
  · rename_i h; exact PerCondition.get_set_other v x h

@[simp] theorem PerCondition.set_get {α : Type} (v : PerCondition α) (i : Condition) : v.set i (v.get i) = v := by
  cases i <;> rfl

@[simp] theorem PerCondition.set_set {α : Type} (v : PerCondition α) (i : Condition) (x y : α) : (v.set i x).set i y = v.set i y := by
  cases i <;> rfl

theorem PerCondition.ext_get {α : Type} {v w : PerCondition α} (h : ∀ i, v.get i = w.get i) : v = w := by
  cases v; cases w; simp only [PerCondition.mk.injEq]
  exact ⟨h .stationLost, h .printerAttention, h .printQueueHigh, h .journalLow, h .storeFault, h .stagingExpired, h .applyDone, h .dayClosed, h .ticketsFull, h .linkError, h .recoveryPending, h .calibrationChanged, h .clockUnset⟩

@[simp] theorem PerStation.get_all {α : Type} (x : α) (i : StationNo) : (PerStation.all x).get i = x := by
  cases i <;> rfl

@[simp] theorem PerPrinter.get_all {α : Type} (x : α) (i : PrinterNo) : (PerPrinter.all x).get i = x := by
  cases i <;> rfl

@[simp] theorem PerCondition.get_all {α : Type} (x : α) (c : Condition) : (PerCondition.all x).get c = x := by
  cases c <;> rfl

@[simp] theorem PerStation.get_map {α β : Type} (f : α → β) (v : PerStation α) (i : StationNo) :
    (v.map f).get i = f (v.get i) := by
  cases i <;> rfl

theorem StationNo.mem_all (st : StationNo) : st ∈ StationNo.all := by
  cases st <;> decide

theorem PrinterNo.mem_all (pr : PrinterNo) : pr ∈ PrinterNo.all := by
  cases pr <;> decide

/-! ## The fields of the part after each update -/

@[simp] theorem Part.advance_nv (p : Part) (ms : Nat) :
    (p.advance ms).nv = p.nv := rfl
@[simp] theorem Part.advance_inputs (p : Part) (ms : Nat) :
    (p.advance ms).inputs = p.inputs := rfl
@[simp] theorem Part.advance_time (p : Part) (ms : Nat) :
    (p.advance ms).time = p.time.advance ms := rfl
@[simp] theorem Part.advance_wc (p : Part) (ms : Nat) :
    (p.advance ms).wc = p.wc := rfl
@[simp] theorem Part.advance_art (p : Part) (ms : Nat) :
    (p.advance ms).art = p.art := rfl
@[simp] theorem Part.advance_oc (p : Part) (ms : Nat) :
    (p.advance ms).oc = p.oc := rfl
@[simp] theorem Part.advance_om (p : Part) (ms : Nat) :
    (p.advance ms).om = p.om := rfl
@[simp] theorem Part.advance_tc (p : Part) (ms : Nat) :
    (p.advance ms).tc = p.tc := rfl
@[simp] theorem Part.advance_lu (p : Part) (ms : Nat) :
    (p.advance ms).lu = p.lu := rfl
@[simp] theorem Part.advance_tj (p : Part) (ms : Nat) :
    (p.advance ms).tj = p.tj := rfl
@[simp] theorem Part.advance_tt (p : Part) (ms : Nat) :
    (p.advance ms).tt = p.tt := rfl
@[simp] theorem Part.advance_cc (p : Part) (ms : Nat) :
    (p.advance ms).cc = p.cc := rfl
@[simp] theorem Part.advance_ml (p : Part) (ms : Nat) :
    (p.advance ms).ml = p.ml := rfl
@[simp] theorem Part.advance_free (p : Part) (ms : Nat) :
    (p.advance ms).free = p.free := rfl

@[simp] theorem Part.reach_nv (p : Part) (m : Nat) :
    (p.reach m).nv = p.nv := rfl
@[simp] theorem Part.reach_inputs (p : Part) (m : Nat) :
    (p.reach m).inputs = p.inputs := rfl
@[simp] theorem Part.reach_time (p : Part) (m : Nat) :
    (p.reach m).time = p.time.advance (m - p.time.elapsed) := rfl
@[simp] theorem Part.reach_wc (p : Part) (m : Nat) :
    (p.reach m).wc = p.wc := rfl
@[simp] theorem Part.reach_art (p : Part) (m : Nat) :
    (p.reach m).art = p.art := rfl
@[simp] theorem Part.reach_oc (p : Part) (m : Nat) :
    (p.reach m).oc = p.oc := rfl
@[simp] theorem Part.reach_om (p : Part) (m : Nat) :
    (p.reach m).om = p.om := rfl
@[simp] theorem Part.reach_tc (p : Part) (m : Nat) :
    (p.reach m).tc = p.tc := rfl
@[simp] theorem Part.reach_lu (p : Part) (m : Nat) :
    (p.reach m).lu = p.lu := rfl
@[simp] theorem Part.reach_tj (p : Part) (m : Nat) :
    (p.reach m).tj = p.tj := rfl
@[simp] theorem Part.reach_tt (p : Part) (m : Nat) :
    (p.reach m).tt = p.tt := rfl
@[simp] theorem Part.reach_cc (p : Part) (m : Nat) :
    (p.reach m).cc = p.cc := rfl
@[simp] theorem Part.reach_ml (p : Part) (m : Nat) :
    (p.reach m).ml = p.ml := rfl
@[simp] theorem Part.reach_free (p : Part) (m : Nat) :
    (p.reach m).free = p.free := rfl

@[simp] theorem Part.useFree_nv (p : Part) :
    (p.useFree).nv = p.nv := rfl
@[simp] theorem Part.useFree_inputs (p : Part) :
    (p.useFree).inputs = p.inputs := rfl
@[simp] theorem Part.useFree_time (p : Part) :
    (p.useFree).time = p.time := rfl
@[simp] theorem Part.useFree_wc (p : Part) :
    (p.useFree).wc = p.wc := rfl
@[simp] theorem Part.useFree_art (p : Part) :
    (p.useFree).art = p.art := rfl
@[simp] theorem Part.useFree_oc (p : Part) :
    (p.useFree).oc = p.oc := rfl
@[simp] theorem Part.useFree_om (p : Part) :
    (p.useFree).om = p.om := rfl
@[simp] theorem Part.useFree_tc (p : Part) :
    (p.useFree).tc = p.tc := rfl
@[simp] theorem Part.useFree_lu (p : Part) :
    (p.useFree).lu = p.lu := rfl
@[simp] theorem Part.useFree_tj (p : Part) :
    (p.useFree).tj = p.tj := rfl
@[simp] theorem Part.useFree_tt (p : Part) :
    (p.useFree).tt = p.tt := rfl
@[simp] theorem Part.useFree_cc (p : Part) :
    (p.useFree).cc = p.cc := rfl
@[simp] theorem Part.useFree_ml (p : Part) :
    (p.useFree).ml = p.ml := rfl
@[simp] theorem Part.useFree_free (p : Part) :
    (p.useFree).free = p.free + 1 := rfl

@[simp] theorem Part.reply_nv (p : Part) (tag : Nat) (f : FrameMeaning) (b : ReplyBody) :
    (p.reply tag f b).nv = p.nv := rfl
@[simp] theorem Part.reply_inputs (p : Part) (tag : Nat) (f : FrameMeaning) (b : ReplyBody) :
    (p.reply tag f b).inputs = p.inputs := rfl
@[simp] theorem Part.reply_time (p : Part) (tag : Nat) (f : FrameMeaning) (b : ReplyBody) :
    (p.reply tag f b).time = p.time := rfl
@[simp] theorem Part.reply_wc (p : Part) (tag : Nat) (f : FrameMeaning) (b : ReplyBody) :
    (p.reply tag f b).wc = p.wc := rfl
@[simp] theorem Part.reply_art (p : Part) (tag : Nat) (f : FrameMeaning) (b : ReplyBody) :
    (p.reply tag f b).art = p.art := rfl
@[simp] theorem Part.reply_oc (p : Part) (tag : Nat) (f : FrameMeaning) (b : ReplyBody) :
    (p.reply tag f b).oc = p.oc := rfl
@[simp] theorem Part.reply_om (p : Part) (tag : Nat) (f : FrameMeaning) (b : ReplyBody) :
    (p.reply tag f b).om = p.om := rfl
@[simp] theorem Part.reply_tc (p : Part) (tag : Nat) (f : FrameMeaning) (b : ReplyBody) :
    (p.reply tag f b).tc = p.tc := rfl
@[simp] theorem Part.reply_lu (p : Part) (tag : Nat) (f : FrameMeaning) (b : ReplyBody) :
    (p.reply tag f b).lu = p.lu := rfl
@[simp] theorem Part.reply_tj (p : Part) (tag : Nat) (f : FrameMeaning) (b : ReplyBody) :
    (p.reply tag f b).tj = p.tj := rfl
@[simp] theorem Part.reply_tt (p : Part) (tag : Nat) (f : FrameMeaning) (b : ReplyBody) :
    (p.reply tag f b).tt = p.tt := rfl
@[simp] theorem Part.reply_cc (p : Part) (tag : Nat) (f : FrameMeaning) (b : ReplyBody) :
    (p.reply tag f b).cc = p.cc := rfl
@[simp] theorem Part.reply_ml (p : Part) (tag : Nat) (f : FrameMeaning) (b : ReplyBody) :
    (p.reply tag f b).ml = { p.ml with sentReply := some ⟨tag, f, b⟩ } := rfl
@[simp] theorem Part.reply_free (p : Part) (tag : Nat) (f : FrameMeaning) (b : ReplyBody) :
    (p.reply tag f b).free = p.free := rfl

@[simp] theorem Part.latch_nv (p : Part) (c : Condition) (d : Option Detail) :
    (p.latch c d).nv = p.nv := rfl
@[simp] theorem Part.latch_inputs (p : Part) (c : Condition) (d : Option Detail) :
    (p.latch c d).inputs = p.inputs := rfl
@[simp] theorem Part.latch_time (p : Part) (c : Condition) (d : Option Detail) :
    (p.latch c d).time = p.time := rfl
@[simp] theorem Part.latch_wc (p : Part) (c : Condition) (d : Option Detail) :
    (p.latch c d).wc = p.wc := rfl
@[simp] theorem Part.latch_art (p : Part) (c : Condition) (d : Option Detail) :
    (p.latch c d).art = p.art := rfl
@[simp] theorem Part.latch_oc (p : Part) (c : Condition) (d : Option Detail) :
    (p.latch c d).oc = p.oc := rfl
@[simp] theorem Part.latch_om (p : Part) (c : Condition) (d : Option Detail) :
    (p.latch c d).om = p.om := rfl
@[simp] theorem Part.latch_tc (p : Part) (c : Condition) (d : Option Detail) :
    (p.latch c d).tc = p.tc := rfl
@[simp] theorem Part.latch_lu (p : Part) (c : Condition) (d : Option Detail) :
    (p.latch c d).lu = p.lu := rfl
@[simp] theorem Part.latch_tj (p : Part) (c : Condition) (d : Option Detail) :
    (p.latch c d).tj = p.tj := rfl
@[simp] theorem Part.latch_tt (p : Part) (c : Condition) (d : Option Detail) :
    (p.latch c d).tt = p.tt := rfl
@[simp] theorem Part.latch_cc (p : Part) (c : Condition) (d : Option Detail) :
    (p.latch c d).cc = p.cc := rfl
@[simp] theorem Part.latch_free (p : Part) (c : Condition) (d : Option Detail) :
    (p.latch c d).free = p.free := rfl

@[simp] theorem Part.latchStore_nv (p : Part) (d : StoreDetail) :
    (p.latchStore d).nv = p.nv := rfl
@[simp] theorem Part.latchStore_inputs (p : Part) (d : StoreDetail) :
    (p.latchStore d).inputs = p.inputs := rfl
@[simp] theorem Part.latchStore_time (p : Part) (d : StoreDetail) :
    (p.latchStore d).time = p.time := rfl
@[simp] theorem Part.latchStore_wc (p : Part) (d : StoreDetail) :
    (p.latchStore d).wc = p.wc := rfl
@[simp] theorem Part.latchStore_art (p : Part) (d : StoreDetail) :
    (p.latchStore d).art = p.art := rfl
@[simp] theorem Part.latchStore_oc (p : Part) (d : StoreDetail) :
    (p.latchStore d).oc = p.oc := rfl
@[simp] theorem Part.latchStore_om (p : Part) (d : StoreDetail) :
    (p.latchStore d).om = p.om := rfl
@[simp] theorem Part.latchStore_tc (p : Part) (d : StoreDetail) :
    (p.latchStore d).tc = p.tc := rfl
@[simp] theorem Part.latchStore_lu (p : Part) (d : StoreDetail) :
    (p.latchStore d).lu = p.lu := rfl
@[simp] theorem Part.latchStore_tj (p : Part) (d : StoreDetail) :
    (p.latchStore d).tj = p.tj := rfl
@[simp] theorem Part.latchStore_tt (p : Part) (d : StoreDetail) :
    (p.latchStore d).tt = p.tt := rfl
@[simp] theorem Part.latchStore_cc (p : Part) (d : StoreDetail) :
    (p.latchStore d).cc = p.cc := rfl
@[simp] theorem Part.latchStore_free (p : Part) (d : StoreDetail) :
    (p.latchStore d).free = p.free := rfl

@[simp] theorem Part.latchLink_nv (p : Part) (d : LinkDetail) :
    (p.latchLink d).nv = p.nv := rfl
@[simp] theorem Part.latchLink_inputs (p : Part) (d : LinkDetail) :
    (p.latchLink d).inputs = p.inputs := rfl
@[simp] theorem Part.latchLink_time (p : Part) (d : LinkDetail) :
    (p.latchLink d).time = p.time := rfl
@[simp] theorem Part.latchLink_wc (p : Part) (d : LinkDetail) :
    (p.latchLink d).wc = p.wc := rfl
@[simp] theorem Part.latchLink_art (p : Part) (d : LinkDetail) :
    (p.latchLink d).art = p.art := rfl
@[simp] theorem Part.latchLink_oc (p : Part) (d : LinkDetail) :
    (p.latchLink d).oc = p.oc := rfl
@[simp] theorem Part.latchLink_om (p : Part) (d : LinkDetail) :
    (p.latchLink d).om = p.om := rfl
@[simp] theorem Part.latchLink_tc (p : Part) (d : LinkDetail) :
    (p.latchLink d).tc = p.tc := rfl
@[simp] theorem Part.latchLink_lu (p : Part) (d : LinkDetail) :
    (p.latchLink d).lu = p.lu := rfl
@[simp] theorem Part.latchLink_tj (p : Part) (d : LinkDetail) :
    (p.latchLink d).tj = p.tj := rfl
@[simp] theorem Part.latchLink_tt (p : Part) (d : LinkDetail) :
    (p.latchLink d).tt = p.tt := rfl
@[simp] theorem Part.latchLink_cc (p : Part) (d : LinkDetail) :
    (p.latchLink d).cc = p.cc := rfl
@[simp] theorem Part.latchLink_free (p : Part) (d : LinkDetail) :
    (p.latchLink d).free = p.free := rfl

@[simp] theorem Part.clear_nv (p : Part) (c : Condition) :
    (p.clear c).nv = p.nv := rfl
@[simp] theorem Part.clear_inputs (p : Part) (c : Condition) :
    (p.clear c).inputs = p.inputs := rfl
@[simp] theorem Part.clear_time (p : Part) (c : Condition) :
    (p.clear c).time = p.time := rfl
@[simp] theorem Part.clear_wc (p : Part) (c : Condition) :
    (p.clear c).wc = p.wc := rfl
@[simp] theorem Part.clear_art (p : Part) (c : Condition) :
    (p.clear c).art = p.art := rfl
@[simp] theorem Part.clear_oc (p : Part) (c : Condition) :
    (p.clear c).oc = p.oc := rfl
@[simp] theorem Part.clear_om (p : Part) (c : Condition) :
    (p.clear c).om = p.om := rfl
@[simp] theorem Part.clear_tc (p : Part) (c : Condition) :
    (p.clear c).tc = p.tc := rfl
@[simp] theorem Part.clear_lu (p : Part) (c : Condition) :
    (p.clear c).lu = p.lu := rfl
@[simp] theorem Part.clear_tj (p : Part) (c : Condition) :
    (p.clear c).tj = p.tj := rfl
@[simp] theorem Part.clear_tt (p : Part) (c : Condition) :
    (p.clear c).tt = p.tt := rfl
@[simp] theorem Part.clear_cc (p : Part) (c : Condition) :
    (p.clear c).cc = p.cc := rfl
@[simp] theorem Part.clear_free (p : Part) (c : Condition) :
    (p.clear c).free = p.free := rfl

@[simp] theorem Part.setEnables_nv (p : Part) (e : PerCondition Bool) :
    (p.setEnables e).nv = p.nv := rfl
@[simp] theorem Part.setEnables_inputs (p : Part) (e : PerCondition Bool) :
    (p.setEnables e).inputs = p.inputs := rfl
@[simp] theorem Part.setEnables_time (p : Part) (e : PerCondition Bool) :
    (p.setEnables e).time = p.time := rfl
@[simp] theorem Part.setEnables_wc (p : Part) (e : PerCondition Bool) :
    (p.setEnables e).wc = p.wc := rfl
@[simp] theorem Part.setEnables_art (p : Part) (e : PerCondition Bool) :
    (p.setEnables e).art = p.art := rfl
@[simp] theorem Part.setEnables_oc (p : Part) (e : PerCondition Bool) :
    (p.setEnables e).oc = p.oc := rfl
@[simp] theorem Part.setEnables_om (p : Part) (e : PerCondition Bool) :
    (p.setEnables e).om = p.om := rfl
@[simp] theorem Part.setEnables_tc (p : Part) (e : PerCondition Bool) :
    (p.setEnables e).tc = p.tc := rfl
@[simp] theorem Part.setEnables_lu (p : Part) (e : PerCondition Bool) :
    (p.setEnables e).lu = p.lu := rfl
@[simp] theorem Part.setEnables_tj (p : Part) (e : PerCondition Bool) :
    (p.setEnables e).tj = p.tj := rfl
@[simp] theorem Part.setEnables_tt (p : Part) (e : PerCondition Bool) :
    (p.setEnables e).tt = p.tt := rfl
@[simp] theorem Part.setEnables_cc (p : Part) (e : PerCondition Bool) :
    (p.setEnables e).cc = p.cc := rfl
@[simp] theorem Part.setEnables_free (p : Part) (e : PerCondition Bool) :
    (p.setEnables e).free = p.free := rfl

@[simp] theorem Part.onSettings_nv (p : Part) (f : Settings → Settings) :
    (p.onSettings f).nv = { p.nv with settings := f p.nv.settings } := rfl
@[simp] theorem Part.onSettings_inputs (p : Part) (f : Settings → Settings) :
    (p.onSettings f).inputs = p.inputs := rfl
@[simp] theorem Part.onSettings_time (p : Part) (f : Settings → Settings) :
    (p.onSettings f).time = p.time := rfl
@[simp] theorem Part.onSettings_wc (p : Part) (f : Settings → Settings) :
    (p.onSettings f).wc = p.wc := rfl
@[simp] theorem Part.onSettings_art (p : Part) (f : Settings → Settings) :
    (p.onSettings f).art = p.art := rfl
@[simp] theorem Part.onSettings_oc (p : Part) (f : Settings → Settings) :
    (p.onSettings f).oc = p.oc := rfl
@[simp] theorem Part.onSettings_om (p : Part) (f : Settings → Settings) :
    (p.onSettings f).om = p.om := rfl
@[simp] theorem Part.onSettings_tc (p : Part) (f : Settings → Settings) :
    (p.onSettings f).tc = p.tc := rfl
@[simp] theorem Part.onSettings_lu (p : Part) (f : Settings → Settings) :
    (p.onSettings f).lu = p.lu := rfl
@[simp] theorem Part.onSettings_tj (p : Part) (f : Settings → Settings) :
    (p.onSettings f).tj = p.tj := rfl
@[simp] theorem Part.onSettings_tt (p : Part) (f : Settings → Settings) :
    (p.onSettings f).tt = p.tt := rfl
@[simp] theorem Part.onSettings_cc (p : Part) (f : Settings → Settings) :
    (p.onSettings f).cc = p.cc := rfl
@[simp] theorem Part.onSettings_ml (p : Part) (f : Settings → Settings) :
    (p.onSettings f).ml = p.ml := rfl
@[simp] theorem Part.onSettings_free (p : Part) (f : Settings → Settings) :
    (p.onSettings f).free = p.free := rfl

@[simp] theorem Part.onChannel_nv (p : Part) (st : StationNo) (f : Channel → Channel) :
    (p.onChannel st f).nv = p.nv := rfl
@[simp] theorem Part.onChannel_inputs (p : Part) (st : StationNo) (f : Channel → Channel) :
    (p.onChannel st f).inputs = p.inputs := rfl
@[simp] theorem Part.onChannel_time (p : Part) (st : StationNo) (f : Channel → Channel) :
    (p.onChannel st f).time = p.time := rfl
@[simp] theorem Part.onChannel_wc (p : Part) (st : StationNo) (f : Channel → Channel) :
    (p.onChannel st f).wc = p.wc.set st (f (p.wc.get st)) := rfl
@[simp] theorem Part.onChannel_art (p : Part) (st : StationNo) (f : Channel → Channel) :
    (p.onChannel st f).art = p.art := rfl
@[simp] theorem Part.onChannel_oc (p : Part) (st : StationNo) (f : Channel → Channel) :
    (p.onChannel st f).oc = p.oc := rfl
@[simp] theorem Part.onChannel_om (p : Part) (st : StationNo) (f : Channel → Channel) :
    (p.onChannel st f).om = p.om := rfl
@[simp] theorem Part.onChannel_tc (p : Part) (st : StationNo) (f : Channel → Channel) :
    (p.onChannel st f).tc = p.tc := rfl
@[simp] theorem Part.onChannel_lu (p : Part) (st : StationNo) (f : Channel → Channel) :
    (p.onChannel st f).lu = p.lu := rfl
@[simp] theorem Part.onChannel_tj (p : Part) (st : StationNo) (f : Channel → Channel) :
    (p.onChannel st f).tj = p.tj := rfl
@[simp] theorem Part.onChannel_tt (p : Part) (st : StationNo) (f : Channel → Channel) :
    (p.onChannel st f).tt = p.tt := rfl
@[simp] theorem Part.onChannel_cc (p : Part) (st : StationNo) (f : Channel → Channel) :
    (p.onChannel st f).cc = p.cc := rfl
@[simp] theorem Part.onChannel_ml (p : Part) (st : StationNo) (f : Channel → Channel) :
    (p.onChannel st f).ml = p.ml := rfl
@[simp] theorem Part.onChannel_free (p : Part) (st : StationNo) (f : Channel → Channel) :
    (p.onChannel st f).free = p.free := rfl

@[simp] theorem Part.onLink_nv (p : Part) (st : StationNo) (f : StationLink → StationLink) :
    (p.onLink st f).nv = p.nv := rfl
@[simp] theorem Part.onLink_inputs (p : Part) (st : StationNo) (f : StationLink → StationLink) :
    (p.onLink st f).inputs = p.inputs := rfl
@[simp] theorem Part.onLink_time (p : Part) (st : StationNo) (f : StationLink → StationLink) :
    (p.onLink st f).time = p.time := rfl
@[simp] theorem Part.onLink_wc (p : Part) (st : StationNo) (f : StationLink → StationLink) :
    (p.onLink st f).wc = p.wc := rfl
@[simp] theorem Part.onLink_art (p : Part) (st : StationNo) (f : StationLink → StationLink) :
    (p.onLink st f).art = p.art := rfl
@[simp] theorem Part.onLink_oc (p : Part) (st : StationNo) (f : StationLink → StationLink) :
    (p.onLink st f).oc = p.oc := rfl
@[simp] theorem Part.onLink_om (p : Part) (st : StationNo) (f : StationLink → StationLink) :
    (p.onLink st f).om = p.om := rfl
@[simp] theorem Part.onLink_tc (p : Part) (st : StationNo) (f : StationLink → StationLink) :
    (p.onLink st f).tc = p.tc := rfl
@[simp] theorem Part.onLink_lu (p : Part) (st : StationNo) (f : StationLink → StationLink) :
    (p.onLink st f).lu = p.lu := rfl
@[simp] theorem Part.onLink_tj (p : Part) (st : StationNo) (f : StationLink → StationLink) :
    (p.onLink st f).tj = p.tj := rfl
@[simp] theorem Part.onLink_tt (p : Part) (st : StationNo) (f : StationLink → StationLink) :
    (p.onLink st f).tt = p.tt := rfl
@[simp] theorem Part.onLink_cc (p : Part) (st : StationNo) (f : StationLink → StationLink) :
    (p.onLink st f).cc = p.cc := rfl
@[simp] theorem Part.onLink_ml (p : Part) (st : StationNo) (f : StationLink → StationLink) :
    (p.onLink st f).ml = { p.ml with stations := p.ml.stations.set st (f (p.ml.stations.get st)) } := rfl
@[simp] theorem Part.onLink_free (p : Part) (st : StationNo) (f : StationLink → StationLink) :
    (p.onLink st f).free = p.free := rfl

@[simp] theorem Part.onSelection_nv (p : Part) (st : StationNo) (f : Selection → Selection) :
    (p.onSelection st f).nv = p.nv := rfl
@[simp] theorem Part.onSelection_inputs (p : Part) (st : StationNo) (f : Selection → Selection) :
    (p.onSelection st f).inputs = p.inputs := rfl
@[simp] theorem Part.onSelection_time (p : Part) (st : StationNo) (f : Selection → Selection) :
    (p.onSelection st f).time = p.time := rfl
@[simp] theorem Part.onSelection_wc (p : Part) (st : StationNo) (f : Selection → Selection) :
    (p.onSelection st f).wc = p.wc := rfl
@[simp] theorem Part.onSelection_art (p : Part) (st : StationNo) (f : Selection → Selection) :
    (p.onSelection st f).art = { p.art with selections := p.art.selections.set st (f (p.art.selections.get st)) } := rfl
@[simp] theorem Part.onSelection_oc (p : Part) (st : StationNo) (f : Selection → Selection) :
    (p.onSelection st f).oc = p.oc := rfl
@[simp] theorem Part.onSelection_om (p : Part) (st : StationNo) (f : Selection → Selection) :
    (p.onSelection st f).om = p.om := rfl
@[simp] theorem Part.onSelection_tc (p : Part) (st : StationNo) (f : Selection → Selection) :
    (p.onSelection st f).tc = p.tc := rfl
@[simp] theorem Part.onSelection_lu (p : Part) (st : StationNo) (f : Selection → Selection) :
    (p.onSelection st f).lu = p.lu := rfl
@[simp] theorem Part.onSelection_tj (p : Part) (st : StationNo) (f : Selection → Selection) :
    (p.onSelection st f).tj = p.tj := rfl
@[simp] theorem Part.onSelection_tt (p : Part) (st : StationNo) (f : Selection → Selection) :
    (p.onSelection st f).tt = p.tt := rfl
@[simp] theorem Part.onSelection_cc (p : Part) (st : StationNo) (f : Selection → Selection) :
    (p.onSelection st f).cc = p.cc := rfl
@[simp] theorem Part.onSelection_ml (p : Part) (st : StationNo) (f : Selection → Selection) :
    (p.onSelection st f).ml = p.ml := rfl
@[simp] theorem Part.onSelection_free (p : Part) (st : StationNo) (f : Selection → Selection) :
    (p.onSelection st f).free = p.free := rfl

@[simp] theorem Part.reportSelection_nv (p : Part) (st : StationNo) (r : SelectionReport) :
    (p.reportSelection st r).nv = p.nv := rfl
@[simp] theorem Part.reportSelection_inputs (p : Part) (st : StationNo) (r : SelectionReport) :
    (p.reportSelection st r).inputs = p.inputs := rfl
@[simp] theorem Part.reportSelection_time (p : Part) (st : StationNo) (r : SelectionReport) :
    (p.reportSelection st r).time = p.time := rfl
@[simp] theorem Part.reportSelection_wc (p : Part) (st : StationNo) (r : SelectionReport) :
    (p.reportSelection st r).wc = p.wc.set st ((p.wc.get st).report r) := rfl
@[simp] theorem Part.reportSelection_art (p : Part) (st : StationNo) (r : SelectionReport) :
    (p.reportSelection st r).art = p.art := rfl
@[simp] theorem Part.reportSelection_oc (p : Part) (st : StationNo) (r : SelectionReport) :
    (p.reportSelection st r).oc = p.oc := rfl
@[simp] theorem Part.reportSelection_om (p : Part) (st : StationNo) (r : SelectionReport) :
    (p.reportSelection st r).om = p.om := rfl
@[simp] theorem Part.reportSelection_tc (p : Part) (st : StationNo) (r : SelectionReport) :
    (p.reportSelection st r).tc = p.tc := rfl
@[simp] theorem Part.reportSelection_lu (p : Part) (st : StationNo) (r : SelectionReport) :
    (p.reportSelection st r).lu = p.lu := rfl
@[simp] theorem Part.reportSelection_tj (p : Part) (st : StationNo) (r : SelectionReport) :
    (p.reportSelection st r).tj = p.tj := rfl
@[simp] theorem Part.reportSelection_tt (p : Part) (st : StationNo) (r : SelectionReport) :
    (p.reportSelection st r).tt = p.tt := rfl
@[simp] theorem Part.reportSelection_cc (p : Part) (st : StationNo) (r : SelectionReport) :
    (p.reportSelection st r).cc = p.cc := rfl
@[simp] theorem Part.reportSelection_ml (p : Part) (st : StationNo) (r : SelectionReport) :
    (p.reportSelection st r).ml = p.ml := rfl
@[simp] theorem Part.reportSelection_free (p : Part) (st : StationNo) (r : SelectionReport) :
    (p.reportSelection st r).free = p.free := rfl

@[simp] theorem Part.onFigures_nv (p : Part) (f : TicketFigures → TicketFigures) :
    (p.onFigures f).nv = p.nv := rfl
@[simp] theorem Part.onFigures_inputs (p : Part) (f : TicketFigures → TicketFigures) :
    (p.onFigures f).inputs = p.inputs := rfl
@[simp] theorem Part.onFigures_time (p : Part) (f : TicketFigures → TicketFigures) :
    (p.onFigures f).time = p.time := rfl
@[simp] theorem Part.onFigures_wc (p : Part) (f : TicketFigures → TicketFigures) :
    (p.onFigures f).wc = p.wc := rfl
@[simp] theorem Part.onFigures_art (p : Part) (f : TicketFigures → TicketFigures) :
    (p.onFigures f).art = p.art := rfl
@[simp] theorem Part.onFigures_oc (p : Part) (f : TicketFigures → TicketFigures) :
    (p.onFigures f).oc = p.oc := rfl
@[simp] theorem Part.onFigures_om (p : Part) (f : TicketFigures → TicketFigures) :
    (p.onFigures f).om = p.om := rfl
@[simp] theorem Part.onFigures_tc (p : Part) (f : TicketFigures → TicketFigures) :
    (p.onFigures f).tc = { p.tc with figures := f p.tc.figures } := rfl
@[simp] theorem Part.onFigures_lu (p : Part) (f : TicketFigures → TicketFigures) :
    (p.onFigures f).lu = p.lu := rfl
@[simp] theorem Part.onFigures_tj (p : Part) (f : TicketFigures → TicketFigures) :
    (p.onFigures f).tj = p.tj := rfl
@[simp] theorem Part.onFigures_tt (p : Part) (f : TicketFigures → TicketFigures) :
    (p.onFigures f).tt = p.tt := rfl
@[simp] theorem Part.onFigures_cc (p : Part) (f : TicketFigures → TicketFigures) :
    (p.onFigures f).cc = p.cc := rfl
@[simp] theorem Part.onFigures_ml (p : Part) (f : TicketFigures → TicketFigures) :
    (p.onFigures f).ml = p.ml := rfl
@[simp] theorem Part.onFigures_free (p : Part) (f : TicketFigures → TicketFigures) :
    (p.onFigures f).free = p.free := rfl

@[simp] theorem Part.handCallList_nv (p : Part) :
    (p.handCallList).nv = p.nv := rfl
@[simp] theorem Part.handCallList_inputs (p : Part) :
    (p.handCallList).inputs = p.inputs := rfl
@[simp] theorem Part.handCallList_time (p : Part) :
    (p.handCallList).time = p.time := rfl
@[simp] theorem Part.handCallList_wc (p : Part) :
    (p.handCallList).wc = p.wc := rfl
@[simp] theorem Part.handCallList_art (p : Part) :
    (p.handCallList).art = p.art := rfl
@[simp] theorem Part.handCallList_oc (p : Part) :
    (p.handCallList).oc = p.oc := rfl
@[simp] theorem Part.handCallList_om (p : Part) :
    (p.handCallList).om = p.om := rfl
@[simp] theorem Part.handCallList_tc (p : Part) :
    (p.handCallList).tc = p.tc := rfl
@[simp] theorem Part.handCallList_lu (p : Part) :
    (p.handCallList).lu = p.lu := rfl
@[simp] theorem Part.handCallList_tj (p : Part) :
    (p.handCallList).tj = p.tj := rfl
@[simp] theorem Part.handCallList_tt (p : Part) :
    (p.handCallList).tt = p.tt := rfl
@[simp] theorem Part.handCallList_cc (p : Part) :
    (p.handCallList).cc = p.cc := rfl
@[simp] theorem Part.handCallList_ml (p : Part) :
    (p.handCallList).ml = { p.ml with display := p.ml.display ++ [p.tc.callList] } := rfl
@[simp] theorem Part.handCallList_free (p : Part) :
    (p.handCallList).free = p.free := rfl

@[simp] theorem Part.onLabels_nv (p : Part) (f : LabelUnit → LabelUnit) :
    (p.onLabels f).nv = p.nv := rfl
@[simp] theorem Part.onLabels_inputs (p : Part) (f : LabelUnit → LabelUnit) :
    (p.onLabels f).inputs = p.inputs := rfl
@[simp] theorem Part.onLabels_time (p : Part) (f : LabelUnit → LabelUnit) :
    (p.onLabels f).time = p.time := rfl
@[simp] theorem Part.onLabels_wc (p : Part) (f : LabelUnit → LabelUnit) :
    (p.onLabels f).wc = p.wc := rfl
@[simp] theorem Part.onLabels_art (p : Part) (f : LabelUnit → LabelUnit) :
    (p.onLabels f).art = p.art := rfl
@[simp] theorem Part.onLabels_oc (p : Part) (f : LabelUnit → LabelUnit) :
    (p.onLabels f).oc = p.oc := rfl
@[simp] theorem Part.onLabels_om (p : Part) (f : LabelUnit → LabelUnit) :
    (p.onLabels f).om = p.om := rfl
@[simp] theorem Part.onLabels_tc (p : Part) (f : LabelUnit → LabelUnit) :
    (p.onLabels f).tc = p.tc := rfl
@[simp] theorem Part.onLabels_lu (p : Part) (f : LabelUnit → LabelUnit) :
    (p.onLabels f).lu = f p.lu := rfl
@[simp] theorem Part.onLabels_tj (p : Part) (f : LabelUnit → LabelUnit) :
    (p.onLabels f).tj = p.tj := rfl
@[simp] theorem Part.onLabels_tt (p : Part) (f : LabelUnit → LabelUnit) :
    (p.onLabels f).tt = p.tt := rfl
@[simp] theorem Part.onLabels_cc (p : Part) (f : LabelUnit → LabelUnit) :
    (p.onLabels f).cc = p.cc := rfl
@[simp] theorem Part.onLabels_ml (p : Part) (f : LabelUnit → LabelUnit) :
    (p.onLabels f).ml = p.ml := rfl
@[simp] theorem Part.onLabels_free (p : Part) (f : LabelUnit → LabelUnit) :
    (p.onLabels f).free = p.free := rfl

@[simp] theorem Part.onPrinter_nv (p : Part) (pr : PrinterNo) (f : Printer → Printer) :
    (p.onPrinter pr f).nv = p.nv := rfl
@[simp] theorem Part.onPrinter_inputs (p : Part) (pr : PrinterNo) (f : Printer → Printer) :
    (p.onPrinter pr f).inputs = p.inputs := rfl
@[simp] theorem Part.onPrinter_time (p : Part) (pr : PrinterNo) (f : Printer → Printer) :
    (p.onPrinter pr f).time = p.time := rfl
@[simp] theorem Part.onPrinter_wc (p : Part) (pr : PrinterNo) (f : Printer → Printer) :
    (p.onPrinter pr f).wc = p.wc := rfl
@[simp] theorem Part.onPrinter_art (p : Part) (pr : PrinterNo) (f : Printer → Printer) :
    (p.onPrinter pr f).art = p.art := rfl
@[simp] theorem Part.onPrinter_oc (p : Part) (pr : PrinterNo) (f : Printer → Printer) :
    (p.onPrinter pr f).oc = p.oc := rfl
@[simp] theorem Part.onPrinter_om (p : Part) (pr : PrinterNo) (f : Printer → Printer) :
    (p.onPrinter pr f).om = p.om := rfl
@[simp] theorem Part.onPrinter_tc (p : Part) (pr : PrinterNo) (f : Printer → Printer) :
    (p.onPrinter pr f).tc = p.tc := rfl
@[simp] theorem Part.onPrinter_lu (p : Part) (pr : PrinterNo) (f : Printer → Printer) :
    (p.onPrinter pr f).lu = { p.lu with printers := p.lu.printers.set pr (f (p.lu.printers.get pr)) } := rfl
@[simp] theorem Part.onPrinter_tj (p : Part) (pr : PrinterNo) (f : Printer → Printer) :
    (p.onPrinter pr f).tj = p.tj := rfl
@[simp] theorem Part.onPrinter_tt (p : Part) (pr : PrinterNo) (f : Printer → Printer) :
    (p.onPrinter pr f).tt = p.tt := rfl
@[simp] theorem Part.onPrinter_cc (p : Part) (pr : PrinterNo) (f : Printer → Printer) :
    (p.onPrinter pr f).cc = p.cc := rfl
@[simp] theorem Part.onPrinter_ml (p : Part) (pr : PrinterNo) (f : Printer → Printer) :
    (p.onPrinter pr f).ml = p.ml := rfl
@[simp] theorem Part.onPrinter_free (p : Part) (pr : PrinterNo) (f : Printer → Printer) :
    (p.onPrinter pr f).free = p.free := rfl

@[simp] theorem Part.takeLabel_nv (p : Part) :
    (p.takeLabel).nv = p.nv := rfl
@[simp] theorem Part.takeLabel_inputs (p : Part) :
    (p.takeLabel).inputs = p.inputs := rfl
@[simp] theorem Part.takeLabel_time (p : Part) :
    (p.takeLabel).time = p.time := rfl
@[simp] theorem Part.takeLabel_wc (p : Part) :
    (p.takeLabel).wc = p.wc := rfl
@[simp] theorem Part.takeLabel_art (p : Part) :
    (p.takeLabel).art = p.art := rfl
@[simp] theorem Part.takeLabel_oc (p : Part) :
    (p.takeLabel).oc = p.oc := rfl
@[simp] theorem Part.takeLabel_om (p : Part) :
    (p.takeLabel).om = p.om := rfl
@[simp] theorem Part.takeLabel_tc (p : Part) :
    (p.takeLabel).tc = p.tc := rfl
@[simp] theorem Part.takeLabel_lu (p : Part) :
    (p.takeLabel).lu = { p.lu with lastLabel := p.lu.nextLabel } := rfl
@[simp] theorem Part.takeLabel_tj (p : Part) :
    (p.takeLabel).tj = p.tj := rfl
@[simp] theorem Part.takeLabel_tt (p : Part) :
    (p.takeLabel).tt = p.tt := rfl
@[simp] theorem Part.takeLabel_cc (p : Part) :
    (p.takeLabel).cc = p.cc := rfl
@[simp] theorem Part.takeLabel_ml (p : Part) :
    (p.takeLabel).ml = p.ml := rfl
@[simp] theorem Part.takeLabel_free (p : Part) :
    (p.takeLabel).free = p.free := rfl

@[simp] theorem Part.onSector_nv (p : Part) (i : Nat) (f : Sector → Sector) :
    (p.onSector i f).nv = { p.nv with sectors := p.nv.sectors.modify i f } := rfl
@[simp] theorem Part.onSector_inputs (p : Part) (i : Nat) (f : Sector → Sector) :
    (p.onSector i f).inputs = p.inputs := rfl
@[simp] theorem Part.onSector_time (p : Part) (i : Nat) (f : Sector → Sector) :
    (p.onSector i f).time = p.time := rfl
@[simp] theorem Part.onSector_wc (p : Part) (i : Nat) (f : Sector → Sector) :
    (p.onSector i f).wc = p.wc := rfl
@[simp] theorem Part.onSector_art (p : Part) (i : Nat) (f : Sector → Sector) :
    (p.onSector i f).art = p.art := rfl
@[simp] theorem Part.onSector_oc (p : Part) (i : Nat) (f : Sector → Sector) :
    (p.onSector i f).oc = p.oc := rfl
@[simp] theorem Part.onSector_om (p : Part) (i : Nat) (f : Sector → Sector) :
    (p.onSector i f).om = p.om := rfl
@[simp] theorem Part.onSector_tc (p : Part) (i : Nat) (f : Sector → Sector) :
    (p.onSector i f).tc = p.tc := rfl
@[simp] theorem Part.onSector_lu (p : Part) (i : Nat) (f : Sector → Sector) :
    (p.onSector i f).lu = p.lu := rfl
@[simp] theorem Part.onSector_tj (p : Part) (i : Nat) (f : Sector → Sector) :
    (p.onSector i f).tj = p.tj := rfl
@[simp] theorem Part.onSector_tt (p : Part) (i : Nat) (f : Sector → Sector) :
    (p.onSector i f).tt = p.tt := rfl
@[simp] theorem Part.onSector_cc (p : Part) (i : Nat) (f : Sector → Sector) :
    (p.onSector i f).cc = p.cc := rfl
@[simp] theorem Part.onSector_ml (p : Part) (i : Nat) (f : Sector → Sector) :
    (p.onSector i f).ml = p.ml := rfl
@[simp] theorem Part.onSector_free (p : Part) (i : Nat) (f : Sector → Sector) :
    (p.onSector i f).free = p.free := rfl

@[simp] theorem Part.withQueue_nv (p : Part) (q : List Place) (b : Bool) :
    (p.withQueue q b).nv = p.nv := rfl
@[simp] theorem Part.withQueue_inputs (p : Part) (q : List Place) (b : Bool) :
    (p.withQueue q b).inputs = p.inputs := rfl
@[simp] theorem Part.withQueue_time (p : Part) (q : List Place) (b : Bool) :
    (p.withQueue q b).time = p.time := rfl
@[simp] theorem Part.withQueue_wc (p : Part) (q : List Place) (b : Bool) :
    (p.withQueue q b).wc = p.wc := rfl
@[simp] theorem Part.withQueue_art (p : Part) (q : List Place) (b : Bool) :
    (p.withQueue q b).art = p.art := rfl
@[simp] theorem Part.withQueue_oc (p : Part) (q : List Place) (b : Bool) :
    (p.withQueue q b).oc = p.oc := rfl
@[simp] theorem Part.withQueue_om (p : Part) (q : List Place) (b : Bool) :
    (p.withQueue q b).om = p.om := rfl
@[simp] theorem Part.withQueue_tc (p : Part) (q : List Place) (b : Bool) :
    (p.withQueue q b).tc = p.tc := rfl
@[simp] theorem Part.withQueue_lu (p : Part) (q : List Place) (b : Bool) :
    (p.withQueue q b).lu = p.lu := rfl
@[simp] theorem Part.withQueue_tt (p : Part) (q : List Place) (b : Bool) :
    (p.withQueue q b).tt = p.tt := rfl
@[simp] theorem Part.withQueue_cc (p : Part) (q : List Place) (b : Bool) :
    (p.withQueue q b).cc = p.cc := rfl
@[simp] theorem Part.withQueue_ml (p : Part) (q : List Place) (b : Bool) :
    (p.withQueue q b).ml = p.ml := rfl
@[simp] theorem Part.withQueue_free (p : Part) (q : List Place) (b : Bool) :
    (p.withQueue q b).free = p.free := rfl

@[simp] theorem Part.withAppend_nv (p : Part) (a : Option Append) :
    (p.withAppend a).nv = p.nv := rfl
@[simp] theorem Part.withAppend_inputs (p : Part) (a : Option Append) :
    (p.withAppend a).inputs = p.inputs := rfl
@[simp] theorem Part.withAppend_time (p : Part) (a : Option Append) :
    (p.withAppend a).time = p.time := rfl
@[simp] theorem Part.withAppend_wc (p : Part) (a : Option Append) :
    (p.withAppend a).wc = p.wc := rfl
@[simp] theorem Part.withAppend_art (p : Part) (a : Option Append) :
    (p.withAppend a).art = p.art := rfl
@[simp] theorem Part.withAppend_oc (p : Part) (a : Option Append) :
    (p.withAppend a).oc = p.oc := rfl
@[simp] theorem Part.withAppend_om (p : Part) (a : Option Append) :
    (p.withAppend a).om = p.om := rfl
@[simp] theorem Part.withAppend_tc (p : Part) (a : Option Append) :
    (p.withAppend a).tc = p.tc := rfl
@[simp] theorem Part.withAppend_lu (p : Part) (a : Option Append) :
    (p.withAppend a).lu = p.lu := rfl
@[simp] theorem Part.withAppend_tj (p : Part) (a : Option Append) :
    (p.withAppend a).tj = { p.tj with append := a } := rfl
@[simp] theorem Part.withAppend_tt (p : Part) (a : Option Append) :
    (p.withAppend a).tt = p.tt := rfl
@[simp] theorem Part.withAppend_cc (p : Part) (a : Option Append) :
    (p.withAppend a).cc = p.cc := rfl
@[simp] theorem Part.withAppend_ml (p : Part) (a : Option Append) :
    (p.withAppend a).ml = p.ml := rfl
@[simp] theorem Part.withAppend_free (p : Part) (a : Option Append) :
    (p.withAppend a).free = p.free := rfl

@[simp] theorem Part.withCounter_nv (p : Part) (c : CounterState) :
    (p.withCounter c).nv = p.nv := rfl
@[simp] theorem Part.withCounter_inputs (p : Part) (c : CounterState) :
    (p.withCounter c).inputs = p.inputs := rfl
@[simp] theorem Part.withCounter_time (p : Part) (c : CounterState) :
    (p.withCounter c).time = p.time := rfl
@[simp] theorem Part.withCounter_wc (p : Part) (c : CounterState) :
    (p.withCounter c).wc = p.wc := rfl
@[simp] theorem Part.withCounter_art (p : Part) (c : CounterState) :
    (p.withCounter c).art = p.art := rfl
@[simp] theorem Part.withCounter_oc (p : Part) (c : CounterState) :
    (p.withCounter c).oc = p.oc := rfl
@[simp] theorem Part.withCounter_om (p : Part) (c : CounterState) :
    (p.withCounter c).om = p.om := rfl
@[simp] theorem Part.withCounter_tc (p : Part) (c : CounterState) :
    (p.withCounter c).tc = p.tc := rfl
@[simp] theorem Part.withCounter_lu (p : Part) (c : CounterState) :
    (p.withCounter c).lu = p.lu := rfl
@[simp] theorem Part.withCounter_tj (p : Part) (c : CounterState) :
    (p.withCounter c).tj = p.tj := rfl
@[simp] theorem Part.withCounter_tt (p : Part) (c : CounterState) :
    (p.withCounter c).tt = { p.tt with counter := c } := rfl
@[simp] theorem Part.withCounter_cc (p : Part) (c : CounterState) :
    (p.withCounter c).cc = p.cc := rfl
@[simp] theorem Part.withCounter_ml (p : Part) (c : CounterState) :
    (p.withCounter c).ml = p.ml := rfl
@[simp] theorem Part.withCounter_free (p : Part) (c : CounterState) :
    (p.withCounter c).free = p.free := rfl

@[simp] theorem Part.onAccumulators_nv (p : Part) (f : Accumulators → Accumulators) :
    (p.onAccumulators f).nv = p.nv := rfl
@[simp] theorem Part.onAccumulators_inputs (p : Part) (f : Accumulators → Accumulators) :
    (p.onAccumulators f).inputs = p.inputs := rfl
@[simp] theorem Part.onAccumulators_time (p : Part) (f : Accumulators → Accumulators) :
    (p.onAccumulators f).time = p.time := rfl
@[simp] theorem Part.onAccumulators_wc (p : Part) (f : Accumulators → Accumulators) :
    (p.onAccumulators f).wc = p.wc := rfl
@[simp] theorem Part.onAccumulators_art (p : Part) (f : Accumulators → Accumulators) :
    (p.onAccumulators f).art = p.art := rfl
@[simp] theorem Part.onAccumulators_oc (p : Part) (f : Accumulators → Accumulators) :
    (p.onAccumulators f).oc = p.oc := rfl
@[simp] theorem Part.onAccumulators_om (p : Part) (f : Accumulators → Accumulators) :
    (p.onAccumulators f).om = p.om := rfl
@[simp] theorem Part.onAccumulators_tc (p : Part) (f : Accumulators → Accumulators) :
    (p.onAccumulators f).tc = p.tc := rfl
@[simp] theorem Part.onAccumulators_lu (p : Part) (f : Accumulators → Accumulators) :
    (p.onAccumulators f).lu = p.lu := rfl
@[simp] theorem Part.onAccumulators_tj (p : Part) (f : Accumulators → Accumulators) :
    (p.onAccumulators f).tj = p.tj := rfl
@[simp] theorem Part.onAccumulators_tt (p : Part) (f : Accumulators → Accumulators) :
    (p.onAccumulators f).tt = { p.tt with accumulators := f p.tt.accumulators } := rfl
@[simp] theorem Part.onAccumulators_cc (p : Part) (f : Accumulators → Accumulators) :
    (p.onAccumulators f).cc = p.cc := rfl
@[simp] theorem Part.onAccumulators_ml (p : Part) (f : Accumulators → Accumulators) :
    (p.onAccumulators f).ml = p.ml := rfl
@[simp] theorem Part.onAccumulators_free (p : Part) (f : Accumulators → Accumulators) :
    (p.onAccumulators f).free = p.free := rfl

@[simp] theorem Part.withChangeSet_nv (p : Part) (c : ChangeSet) :
    (p.withChangeSet c).nv = p.nv := rfl
@[simp] theorem Part.withChangeSet_inputs (p : Part) (c : ChangeSet) :
    (p.withChangeSet c).inputs = p.inputs := rfl
@[simp] theorem Part.withChangeSet_time (p : Part) (c : ChangeSet) :
    (p.withChangeSet c).time = p.time := rfl
@[simp] theorem Part.withChangeSet_wc (p : Part) (c : ChangeSet) :
    (p.withChangeSet c).wc = p.wc := rfl
@[simp] theorem Part.withChangeSet_art (p : Part) (c : ChangeSet) :
    (p.withChangeSet c).art = { p.art with changeSet := c } := rfl
@[simp] theorem Part.withChangeSet_oc (p : Part) (c : ChangeSet) :
    (p.withChangeSet c).oc = p.oc := rfl
@[simp] theorem Part.withChangeSet_om (p : Part) (c : ChangeSet) :
    (p.withChangeSet c).om = p.om := rfl
@[simp] theorem Part.withChangeSet_tc (p : Part) (c : ChangeSet) :
    (p.withChangeSet c).tc = p.tc := rfl
@[simp] theorem Part.withChangeSet_lu (p : Part) (c : ChangeSet) :
    (p.withChangeSet c).lu = p.lu := rfl
@[simp] theorem Part.withChangeSet_tj (p : Part) (c : ChangeSet) :
    (p.withChangeSet c).tj = p.tj := rfl
@[simp] theorem Part.withChangeSet_tt (p : Part) (c : ChangeSet) :
    (p.withChangeSet c).tt = p.tt := rfl
@[simp] theorem Part.withChangeSet_cc (p : Part) (c : ChangeSet) :
    (p.withChangeSet c).cc = p.cc := rfl
@[simp] theorem Part.withChangeSet_ml (p : Part) (c : ChangeSet) :
    (p.withChangeSet c).ml = p.ml := rfl
@[simp] theorem Part.withChangeSet_free (p : Part) (c : ChangeSet) :
    (p.withChangeSet c).free = p.free := rfl

@[simp] theorem Part.withStoreBack_nv (p : Part) (b : StoreBack) :
    (p.withStoreBack b).nv = p.nv := rfl
@[simp] theorem Part.withStoreBack_inputs (p : Part) (b : StoreBack) :
    (p.withStoreBack b).inputs = p.inputs := rfl
@[simp] theorem Part.withStoreBack_time (p : Part) (b : StoreBack) :
    (p.withStoreBack b).time = p.time := rfl
@[simp] theorem Part.withStoreBack_wc (p : Part) (b : StoreBack) :
    (p.withStoreBack b).wc = p.wc := rfl
@[simp] theorem Part.withStoreBack_art (p : Part) (b : StoreBack) :
    (p.withStoreBack b).art = { p.art with storeBack := b } := rfl
@[simp] theorem Part.withStoreBack_oc (p : Part) (b : StoreBack) :
    (p.withStoreBack b).oc = p.oc := rfl
@[simp] theorem Part.withStoreBack_om (p : Part) (b : StoreBack) :
    (p.withStoreBack b).om = p.om := rfl
@[simp] theorem Part.withStoreBack_tc (p : Part) (b : StoreBack) :
    (p.withStoreBack b).tc = p.tc := rfl
@[simp] theorem Part.withStoreBack_lu (p : Part) (b : StoreBack) :
    (p.withStoreBack b).lu = p.lu := rfl
@[simp] theorem Part.withStoreBack_tj (p : Part) (b : StoreBack) :
    (p.withStoreBack b).tj = p.tj := rfl
@[simp] theorem Part.withStoreBack_tt (p : Part) (b : StoreBack) :
    (p.withStoreBack b).tt = p.tt := rfl
@[simp] theorem Part.withStoreBack_cc (p : Part) (b : StoreBack) :
    (p.withStoreBack b).cc = p.cc := rfl
@[simp] theorem Part.withStoreBack_ml (p : Part) (b : StoreBack) :
    (p.withStoreBack b).ml = p.ml := rfl
@[simp] theorem Part.withStoreBack_free (p : Part) (b : StoreBack) :
    (p.withStoreBack b).free = p.free := rfl

@[simp] theorem Part.confirm_nv (p : Part) (st : StationNo) (g : Option Nat) :
    (p.confirm st g).nv = p.nv := rfl
@[simp] theorem Part.confirm_inputs (p : Part) (st : StationNo) (g : Option Nat) :
    (p.confirm st g).inputs = p.inputs := rfl
@[simp] theorem Part.confirm_time (p : Part) (st : StationNo) (g : Option Nat) :
    (p.confirm st g).time = p.time := rfl
@[simp] theorem Part.confirm_wc (p : Part) (st : StationNo) (g : Option Nat) :
    (p.confirm st g).wc = p.wc := rfl
@[simp] theorem Part.confirm_art (p : Part) (st : StationNo) (g : Option Nat) :
    (p.confirm st g).art = { p.art with confirmed := p.art.confirmed.set st g } := rfl
@[simp] theorem Part.confirm_oc (p : Part) (st : StationNo) (g : Option Nat) :
    (p.confirm st g).oc = p.oc := rfl
@[simp] theorem Part.confirm_om (p : Part) (st : StationNo) (g : Option Nat) :
    (p.confirm st g).om = p.om := rfl
@[simp] theorem Part.confirm_tc (p : Part) (st : StationNo) (g : Option Nat) :
    (p.confirm st g).tc = p.tc := rfl
@[simp] theorem Part.confirm_lu (p : Part) (st : StationNo) (g : Option Nat) :
    (p.confirm st g).lu = p.lu := rfl
@[simp] theorem Part.confirm_tj (p : Part) (st : StationNo) (g : Option Nat) :
    (p.confirm st g).tj = p.tj := rfl
@[simp] theorem Part.confirm_tt (p : Part) (st : StationNo) (g : Option Nat) :
    (p.confirm st g).tt = p.tt := rfl
@[simp] theorem Part.confirm_cc (p : Part) (st : StationNo) (g : Option Nat) :
    (p.confirm st g).cc = p.cc := rfl
@[simp] theorem Part.confirm_ml (p : Part) (st : StationNo) (g : Option Nat) :
    (p.confirm st g).ml = p.ml := rfl
@[simp] theorem Part.confirm_free (p : Part) (st : StationNo) (g : Option Nat) :
    (p.confirm st g).free = p.free := rfl

@[simp] theorem Part.updateOrder_nv (p : Part) (n : Nat) (f : Order → Order) :
    (p.updateOrder n f).nv = p.nv := rfl
@[simp] theorem Part.updateOrder_inputs (p : Part) (n : Nat) (f : Order → Order) :
    (p.updateOrder n f).inputs = p.inputs := rfl
@[simp] theorem Part.updateOrder_time (p : Part) (n : Nat) (f : Order → Order) :
    (p.updateOrder n f).time = p.time := rfl
@[simp] theorem Part.updateOrder_wc (p : Part) (n : Nat) (f : Order → Order) :
    (p.updateOrder n f).wc = p.wc := rfl
@[simp] theorem Part.updateOrder_art (p : Part) (n : Nat) (f : Order → Order) :
    (p.updateOrder n f).art = p.art := rfl
@[simp] theorem Part.updateOrder_oc (p : Part) (n : Nat) (f : Order → Order) :
    (p.updateOrder n f).oc = p.oc := rfl
@[simp] theorem Part.updateOrder_om (p : Part) (n : Nat) (f : Order → Order) :
    (p.updateOrder n f).om = { p.om with pool := updatePool n (fun o => some (f o)) p.om.pool } := rfl
@[simp] theorem Part.updateOrder_tc (p : Part) (n : Nat) (f : Order → Order) :
    (p.updateOrder n f).tc = p.tc := rfl
@[simp] theorem Part.updateOrder_lu (p : Part) (n : Nat) (f : Order → Order) :
    (p.updateOrder n f).lu = p.lu := rfl
@[simp] theorem Part.updateOrder_tj (p : Part) (n : Nat) (f : Order → Order) :
    (p.updateOrder n f).tj = p.tj := rfl
@[simp] theorem Part.updateOrder_tt (p : Part) (n : Nat) (f : Order → Order) :
    (p.updateOrder n f).tt = p.tt := rfl
@[simp] theorem Part.updateOrder_cc (p : Part) (n : Nat) (f : Order → Order) :
    (p.updateOrder n f).cc = p.cc := rfl
@[simp] theorem Part.updateOrder_ml (p : Part) (n : Nat) (f : Order → Order) :
    (p.updateOrder n f).ml = p.ml := rfl
@[simp] theorem Part.updateOrder_free (p : Part) (n : Nat) (f : Order → Order) :
    (p.updateOrder n f).free = p.free := rfl

@[simp] theorem Part.unbind_nv (p : Part) (n : Nat) :
    (p.unbind n).nv = p.nv := rfl
@[simp] theorem Part.unbind_inputs (p : Part) (n : Nat) :
    (p.unbind n).inputs = p.inputs := rfl
@[simp] theorem Part.unbind_time (p : Part) (n : Nat) :
    (p.unbind n).time = p.time := rfl
@[simp] theorem Part.unbind_wc (p : Part) (n : Nat) :
    (p.unbind n).wc = p.wc := rfl
@[simp] theorem Part.unbind_art (p : Part) (n : Nat) :
    (p.unbind n).art = p.art := rfl
@[simp] theorem Part.unbind_oc (p : Part) (n : Nat) :
    (p.unbind n).oc = p.oc := rfl
@[simp] theorem Part.unbind_om (p : Part) (n : Nat) :
    (p.unbind n).om = { p.om with active := p.om.active.map (fun a => if a = some n then none else a) } := rfl
@[simp] theorem Part.unbind_tc (p : Part) (n : Nat) :
    (p.unbind n).tc = p.tc := rfl
@[simp] theorem Part.unbind_lu (p : Part) (n : Nat) :
    (p.unbind n).lu = p.lu := rfl
@[simp] theorem Part.unbind_tj (p : Part) (n : Nat) :
    (p.unbind n).tj = p.tj := rfl
@[simp] theorem Part.unbind_tt (p : Part) (n : Nat) :
    (p.unbind n).tt = p.tt := rfl
@[simp] theorem Part.unbind_cc (p : Part) (n : Nat) :
    (p.unbind n).cc = p.cc := rfl
@[simp] theorem Part.unbind_ml (p : Part) (n : Nat) :
    (p.unbind n).ml = p.ml := rfl
@[simp] theorem Part.unbind_free (p : Part) (n : Nat) :
    (p.unbind n).free = p.free := rfl

@[simp] theorem Part.withStack_nv (p : Part) (st : StationNo) (k : Stack) :
    (p.withStack st k).nv = p.nv := rfl
@[simp] theorem Part.withStack_inputs (p : Part) (st : StationNo) (k : Stack) :
    (p.withStack st k).inputs = p.inputs := rfl
@[simp] theorem Part.withStack_time (p : Part) (st : StationNo) (k : Stack) :
    (p.withStack st k).time = p.time := rfl
@[simp] theorem Part.withStack_wc (p : Part) (st : StationNo) (k : Stack) :
    (p.withStack st k).wc = p.wc := rfl
@[simp] theorem Part.withStack_art (p : Part) (st : StationNo) (k : Stack) :
    (p.withStack st k).art = p.art := rfl
@[simp] theorem Part.withStack_oc (p : Part) (st : StationNo) (k : Stack) :
    (p.withStack st k).oc = { p.oc with stack := p.oc.stack.set st k } := rfl
@[simp] theorem Part.withStack_om (p : Part) (st : StationNo) (k : Stack) :
    (p.withStack st k).om = p.om := rfl
@[simp] theorem Part.withStack_tc (p : Part) (st : StationNo) (k : Stack) :
    (p.withStack st k).tc = p.tc := rfl
@[simp] theorem Part.withStack_lu (p : Part) (st : StationNo) (k : Stack) :
    (p.withStack st k).lu = p.lu := rfl
@[simp] theorem Part.withStack_tj (p : Part) (st : StationNo) (k : Stack) :
    (p.withStack st k).tj = p.tj := rfl
@[simp] theorem Part.withStack_tt (p : Part) (st : StationNo) (k : Stack) :
    (p.withStack st k).tt = p.tt := rfl
@[simp] theorem Part.withStack_cc (p : Part) (st : StationNo) (k : Stack) :
    (p.withStack st k).cc = p.cc := rfl
@[simp] theorem Part.withStack_ml (p : Part) (st : StationNo) (k : Stack) :
    (p.withStack st k).ml = p.ml := rfl
@[simp] theorem Part.withStack_free (p : Part) (st : StationNo) (k : Stack) :
    (p.withStack st k).free = p.free := rfl

@[simp] theorem Part.endOverride_nv (p : Part) (st : StationNo) :
    (p.endOverride st).nv = p.nv := rfl
@[simp] theorem Part.endOverride_inputs (p : Part) (st : StationNo) :
    (p.endOverride st).inputs = p.inputs := rfl
@[simp] theorem Part.endOverride_time (p : Part) (st : StationNo) :
    (p.endOverride st).time = p.time := rfl
@[simp] theorem Part.endOverride_wc (p : Part) (st : StationNo) :
    (p.endOverride st).wc = p.wc := rfl
@[simp] theorem Part.endOverride_art (p : Part) (st : StationNo) :
    (p.endOverride st).art = p.art := rfl
@[simp] theorem Part.endOverride_oc (p : Part) (st : StationNo) :
    (p.endOverride st).oc = { p.oc with stack := p.oc.stack.set st (p.oc.stack.get st).restored } := rfl
@[simp] theorem Part.endOverride_om (p : Part) (st : StationNo) :
    (p.endOverride st).om = p.om := rfl
@[simp] theorem Part.endOverride_tc (p : Part) (st : StationNo) :
    (p.endOverride st).tc = p.tc := rfl
@[simp] theorem Part.endOverride_lu (p : Part) (st : StationNo) :
    (p.endOverride st).lu = p.lu := rfl
@[simp] theorem Part.endOverride_tj (p : Part) (st : StationNo) :
    (p.endOverride st).tj = p.tj := rfl
@[simp] theorem Part.endOverride_tt (p : Part) (st : StationNo) :
    (p.endOverride st).tt = p.tt := rfl
@[simp] theorem Part.endOverride_cc (p : Part) (st : StationNo) :
    (p.endOverride st).cc = p.cc := rfl
@[simp] theorem Part.endOverride_ml (p : Part) (st : StationNo) :
    (p.endOverride st).ml = p.ml := rfl
@[simp] theorem Part.endOverride_free (p : Part) (st : StationNo) :
    (p.endOverride st).free = p.free := rfl

@[simp] theorem Part.withSession_nv (p : Part) (x : Option Session) :
    (p.withSession x).nv = p.nv := rfl
@[simp] theorem Part.withSession_inputs (p : Part) (x : Option Session) :
    (p.withSession x).inputs = p.inputs := rfl
@[simp] theorem Part.withSession_time (p : Part) (x : Option Session) :
    (p.withSession x).time = p.time := rfl
@[simp] theorem Part.withSession_wc (p : Part) (x : Option Session) :
    (p.withSession x).wc = p.wc := rfl
@[simp] theorem Part.withSession_art (p : Part) (x : Option Session) :
    (p.withSession x).art = p.art := rfl
@[simp] theorem Part.withSession_oc (p : Part) (x : Option Session) :
    (p.withSession x).oc = p.oc := rfl
@[simp] theorem Part.withSession_om (p : Part) (x : Option Session) :
    (p.withSession x).om = p.om := rfl
@[simp] theorem Part.withSession_tc (p : Part) (x : Option Session) :
    (p.withSession x).tc = p.tc := rfl
@[simp] theorem Part.withSession_lu (p : Part) (x : Option Session) :
    (p.withSession x).lu = p.lu := rfl
@[simp] theorem Part.withSession_tj (p : Part) (x : Option Session) :
    (p.withSession x).tj = p.tj := rfl
@[simp] theorem Part.withSession_tt (p : Part) (x : Option Session) :
    (p.withSession x).tt = p.tt := rfl
@[simp] theorem Part.withSession_cc (p : Part) (x : Option Session) :
    (p.withSession x).cc = { p.cc with session := x } := rfl
@[simp] theorem Part.withSession_ml (p : Part) (x : Option Session) :
    (p.withSession x).ml = p.ml := rfl
@[simp] theorem Part.withSession_free (p : Part) (x : Option Session) :
    (p.withSession x).free = p.free := rfl

@[simp] theorem Part.addAudit_nv (p : Part) (a : AuditSlot) :
    (p.addAudit a).nv = { p.nv with audit := p.nv.audit ++ [a] } := rfl
@[simp] theorem Part.addAudit_inputs (p : Part) (a : AuditSlot) :
    (p.addAudit a).inputs = p.inputs := rfl
@[simp] theorem Part.addAudit_time (p : Part) (a : AuditSlot) :
    (p.addAudit a).time = p.time := rfl
@[simp] theorem Part.addAudit_wc (p : Part) (a : AuditSlot) :
    (p.addAudit a).wc = p.wc := rfl
@[simp] theorem Part.addAudit_art (p : Part) (a : AuditSlot) :
    (p.addAudit a).art = p.art := rfl
@[simp] theorem Part.addAudit_oc (p : Part) (a : AuditSlot) :
    (p.addAudit a).oc = p.oc := rfl
@[simp] theorem Part.addAudit_om (p : Part) (a : AuditSlot) :
    (p.addAudit a).om = p.om := rfl
@[simp] theorem Part.addAudit_tc (p : Part) (a : AuditSlot) :
    (p.addAudit a).tc = p.tc := rfl
@[simp] theorem Part.addAudit_lu (p : Part) (a : AuditSlot) :
    (p.addAudit a).lu = p.lu := rfl
@[simp] theorem Part.addAudit_tj (p : Part) (a : AuditSlot) :
    (p.addAudit a).tj = p.tj := rfl
@[simp] theorem Part.addAudit_tt (p : Part) (a : AuditSlot) :
    (p.addAudit a).tt = p.tt := rfl
@[simp] theorem Part.addAudit_cc (p : Part) (a : AuditSlot) :
    (p.addAudit a).cc = p.cc := rfl
@[simp] theorem Part.addAudit_ml (p : Part) (a : AuditSlot) :
    (p.addAudit a).ml = p.ml := rfl
@[simp] theorem Part.addAudit_free (p : Part) (a : AuditSlot) :
    (p.addAudit a).free = p.free := rfl

@[simp] theorem Part.setSwitch_nv (p : Part) (b : Bool) :
    (p.setSwitch b).nv = p.nv := rfl
@[simp] theorem Part.setSwitch_inputs (p : Part) (b : Bool) :
    (p.setSwitch b).inputs = { p.inputs with calibrationSwitch := b } := rfl
@[simp] theorem Part.setSwitch_time (p : Part) (b : Bool) :
    (p.setSwitch b).time = p.time := rfl
@[simp] theorem Part.setSwitch_wc (p : Part) (b : Bool) :
    (p.setSwitch b).wc = p.wc := rfl
@[simp] theorem Part.setSwitch_art (p : Part) (b : Bool) :
    (p.setSwitch b).art = p.art := rfl
@[simp] theorem Part.setSwitch_oc (p : Part) (b : Bool) :
    (p.setSwitch b).oc = p.oc := rfl
@[simp] theorem Part.setSwitch_om (p : Part) (b : Bool) :
    (p.setSwitch b).om = p.om := rfl
@[simp] theorem Part.setSwitch_tc (p : Part) (b : Bool) :
    (p.setSwitch b).tc = p.tc := rfl
@[simp] theorem Part.setSwitch_lu (p : Part) (b : Bool) :
    (p.setSwitch b).lu = p.lu := rfl
@[simp] theorem Part.setSwitch_tj (p : Part) (b : Bool) :
    (p.setSwitch b).tj = p.tj := rfl
@[simp] theorem Part.setSwitch_tt (p : Part) (b : Bool) :
    (p.setSwitch b).tt = p.tt := rfl
@[simp] theorem Part.setSwitch_cc (p : Part) (b : Bool) :
    (p.setSwitch b).cc = p.cc := rfl
@[simp] theorem Part.setSwitch_ml (p : Part) (b : Bool) :
    (p.setSwitch b).ml = p.ml := rfl
@[simp] theorem Part.setSwitch_free (p : Part) (b : Bool) :
    (p.setSwitch b).free = p.free := rfl

@[simp] theorem Part.endAwait_nv (p : Part) :
    (p.endAwait).nv = p.nv := rfl
@[simp] theorem Part.endAwait_inputs (p : Part) :
    (p.endAwait).inputs = p.inputs := rfl
@[simp] theorem Part.endAwait_time (p : Part) :
    (p.endAwait).time = p.time := rfl
@[simp] theorem Part.endAwait_wc (p : Part) :
    (p.endAwait).wc = p.wc := rfl
@[simp] theorem Part.endAwait_art (p : Part) :
    (p.endAwait).art = p.art := rfl
@[simp] theorem Part.endAwait_oc (p : Part) :
    (p.endAwait).oc = p.oc := rfl
@[simp] theorem Part.endAwait_om (p : Part) :
    (p.endAwait).om = p.om := rfl
@[simp] theorem Part.endAwait_tc (p : Part) :
    (p.endAwait).tc = p.tc := rfl
@[simp] theorem Part.endAwait_lu (p : Part) :
    (p.endAwait).lu = p.lu := rfl
@[simp] theorem Part.endAwait_tj (p : Part) :
    (p.endAwait).tj = p.tj := rfl
@[simp] theorem Part.endAwait_tt (p : Part) :
    (p.endAwait).tt = p.tt := rfl
@[simp] theorem Part.endAwait_cc (p : Part) :
    (p.endAwait).cc = p.cc := rfl
@[simp] theorem Part.endAwait_ml (p : Part) :
    (p.endAwait).ml = { p.ml with awaited := none } := rfl
@[simp] theorem Part.endAwait_free (p : Part) :
    (p.endAwait).free = p.free := rfl

@[simp] theorem Part.hunt_nv (p : Part) :
    (p.hunt).nv = p.nv := rfl
@[simp] theorem Part.hunt_inputs (p : Part) :
    (p.hunt).inputs = p.inputs := rfl
@[simp] theorem Part.hunt_time (p : Part) :
    (p.hunt).time = p.time := rfl
@[simp] theorem Part.hunt_wc (p : Part) :
    (p.hunt).wc = p.wc := rfl
@[simp] theorem Part.hunt_art (p : Part) :
    (p.hunt).art = p.art := rfl
@[simp] theorem Part.hunt_oc (p : Part) :
    (p.hunt).oc = p.oc := rfl
@[simp] theorem Part.hunt_om (p : Part) :
    (p.hunt).om = p.om := rfl
@[simp] theorem Part.hunt_tc (p : Part) :
    (p.hunt).tc = p.tc := rfl
@[simp] theorem Part.hunt_lu (p : Part) :
    (p.hunt).lu = p.lu := rfl
@[simp] theorem Part.hunt_tj (p : Part) :
    (p.hunt).tj = p.tj := rfl
@[simp] theorem Part.hunt_tt (p : Part) :
    (p.hunt).tt = p.tt := rfl
@[simp] theorem Part.hunt_cc (p : Part) :
    (p.hunt).cc = p.cc := rfl
@[simp] theorem Part.hunt_ml (p : Part) :
    (p.hunt).ml = { p.ml with receiver := .hunting p.time.elapsed } := rfl
@[simp] theorem Part.hunt_free (p : Part) :
    (p.hunt).free = p.free := rfl

@[simp] theorem Part.startFrame_nv (p : Part) (n : Nat) :
    (p.startFrame n).nv = p.nv := rfl
@[simp] theorem Part.startFrame_inputs (p : Part) (n : Nat) :
    (p.startFrame n).inputs = p.inputs := rfl
@[simp] theorem Part.startFrame_wc (p : Part) (n : Nat) :
    (p.startFrame n).wc = p.wc := rfl
@[simp] theorem Part.startFrame_art (p : Part) (n : Nat) :
    (p.startFrame n).art = p.art := rfl
@[simp] theorem Part.startFrame_oc (p : Part) (n : Nat) :
    (p.startFrame n).oc = p.oc := rfl
@[simp] theorem Part.startFrame_om (p : Part) (n : Nat) :
    (p.startFrame n).om = p.om := rfl
@[simp] theorem Part.startFrame_tc (p : Part) (n : Nat) :
    (p.startFrame n).tc = p.tc := rfl
@[simp] theorem Part.startFrame_lu (p : Part) (n : Nat) :
    (p.startFrame n).lu = p.lu := rfl
@[simp] theorem Part.startFrame_tj (p : Part) (n : Nat) :
    (p.startFrame n).tj = p.tj := rfl
@[simp] theorem Part.startFrame_tt (p : Part) (n : Nat) :
    (p.startFrame n).tt = p.tt := rfl
@[simp] theorem Part.startFrame_cc (p : Part) (n : Nat) :
    (p.startFrame n).cc = p.cc := rfl
@[simp] theorem Part.startFrame_free (p : Part) (n : Nat) :
    (p.startFrame n).free = p.free := rfl
@[simp] theorem Part.startFrame_time (p : Part) (n : Nat) :
    (p.startFrame n).time = p.time := rfl
@[simp] theorem Part.startFrame_ml (p : Part) (n : Nat) :
    (p.startFrame n).ml = { p.ml with receiver := .receiving (max n p.ml.receiver.mark) } := rfl
@[simp] theorem Part.withReceiver_nv (p : Part) (r : Receiver) :
    (p.withReceiver r).nv = p.nv := rfl
@[simp] theorem Part.withReceiver_inputs (p : Part) (r : Receiver) :
    (p.withReceiver r).inputs = p.inputs := rfl
@[simp] theorem Part.withReceiver_time (p : Part) (r : Receiver) :
    (p.withReceiver r).time = p.time := rfl
@[simp] theorem Part.withReceiver_wc (p : Part) (r : Receiver) :
    (p.withReceiver r).wc = p.wc := rfl
@[simp] theorem Part.withReceiver_art (p : Part) (r : Receiver) :
    (p.withReceiver r).art = p.art := rfl
@[simp] theorem Part.withReceiver_oc (p : Part) (r : Receiver) :
    (p.withReceiver r).oc = p.oc := rfl
@[simp] theorem Part.withReceiver_om (p : Part) (r : Receiver) :
    (p.withReceiver r).om = p.om := rfl
@[simp] theorem Part.withReceiver_tc (p : Part) (r : Receiver) :
    (p.withReceiver r).tc = p.tc := rfl
@[simp] theorem Part.withReceiver_lu (p : Part) (r : Receiver) :
    (p.withReceiver r).lu = p.lu := rfl
@[simp] theorem Part.withReceiver_tj (p : Part) (r : Receiver) :
    (p.withReceiver r).tj = p.tj := rfl
@[simp] theorem Part.withReceiver_tt (p : Part) (r : Receiver) :
    (p.withReceiver r).tt = p.tt := rfl
@[simp] theorem Part.withReceiver_cc (p : Part) (r : Receiver) :
    (p.withReceiver r).cc = p.cc := rfl
@[simp] theorem Part.withReceiver_free (p : Part) (r : Receiver) :
    (p.withReceiver r).free = p.free := rfl
@[simp] theorem Part.withReceiver_ml (p : Part) (r : Receiver) :
    (p.withReceiver r).ml = { p.ml with receiver := r } := rfl

end Sys2Proof.Machine
end

