-- ==== Sys2Proof/Laws/Ops.lean ====
section
/-! SUPPORT. One lemma for each shared operation that says once what it can do: acting on the part, dispatching a host
request, serving a key request, a privileged one, latching a condition, completing an append, and taking a place of the write
queue. -/

namespace Sys2Proof.Machine

/-! ## Acting on the part -/

theorem State.act_runs {s : State} (h : s.runs) (f : Part → Part) : s.act f = .next { s with part := f s.part } := by
  have h' : s.part.inputs.resetAsserted = false := h
  simp [State.act, State.always, Part.unlessHeld, h']

theorem State.act_held {s : State} (h : s.part.inputs.resetAsserted = true) (f : Part → Part) : s.act f = .next s := by
  simp [State.act, State.always, Part.unlessHeld, h]

/-! ## Dispatch of a host request (R191) -/

theorem Part.takeFrame_taken {s : State} {tag : Nat} {req : HostRequest} (h : s.dispatches tag req) :
    s.part.takeFrame ⟨tag, .request req⟩ = some s.part.taken := by
  obtain ⟨-, hs, hb⟩ := h
  unfold Part.takeFrame
  rcases hb with hb | hb
  · have : s.part.taken = s.part := by
      unfold Part.taken
      rw [hb, List.tail_nil, ← hb]
    rw [this]
    simp [hs, hb]
  · cases e : s.part.ml.buffer with
    | nil => rw [e] at hb; cases hb
    | cons g rest =>
      rw [e] at hb
      simp at hb
      simp [hs, hb, Part.taken, e]

theorem Part.dispatch_serves {s : State} {tag : Nat} {req : HostRequest} (h : s.serves tag req)
    (serve : Part → Part × Answer) :
    s.part.dispatch tag req serve = (serve s.part.taken).1.answer tag req (serve s.part.taken).2 := by
  obtain ⟨hd, ht, hc⟩ := h
  have hc' : s.part.taken.tt.counter ≠ .starting := hc
  simp [Part.dispatch, Part.takeFrame_taken hd, ht, hc']

/-- During the start-up scan a request is served only when R191 lets it through. -/
theorem Part.dispatch_starting {s : State} {tag : Nat} {req : HostRequest} (h : s.dispatches tag req) (ht : tag ≠ 0)
    (hc : s.part.tt.counter = .starting) (serve : Part → Part × Answer) :
    s.part.dispatch tag req serve =
      if servedDuringScan req then (serve s.part.taken).1.answer tag req (serve s.part.taken).2
      else s.part.taken.reply tag (.request req) (.refused .busy none) := by
  have hc' : s.part.taken.tt.counter = .starting := hc
  cases e : servedDuringScan req <;> simp [Part.dispatch, Part.takeFrame_taken h, ht, hc', e]

theorem State.serve_now {s : State} {tag : Nat} {req : HostRequest} (h : s.serves tag req)
    {serve : Part → Part × Answer} {q : Part} {body : ReplyBody} (hq : serve s.part.taken = (q, .now body)) :
    s.act (fun p => p.dispatch tag req serve) = .next (s.replied q tag req body) := by
  rw [State.act_runs h.1.1, Part.dispatch_serves h, hq]
  rfl

theorem State.serve_later {s : State} {tag : Nat} {req : HostRequest} (h : s.serves tag req)
    {serve : Part → Part × Answer} {q : Part} {w : HeldWrite} (hq : serve s.part.taken = (q, .later w)) :
    s.act (fun p => p.dispatch tag req serve) = .next (s.writing q tag req w) := by
  rw [State.act_runs h.1.1, Part.dispatch_serves h, hq]
  rfl

/-! ## Key requests (R78, R197, R198) -/

theorem State.key_served {s : State} {st : StationNo} {tag : Nat} (h : s.takesKey st tag) (k : Key) :
    s.act (fun p => p.keyRequest st tag k) =
      .next (s.keyAnswer (s.part.keyTaken st tag) st tag ((s.part.keyTaken st tag).serveKey st k)) := by
  obtain ⟨hr0, hl, h1, h255, hk, -, -⟩ := h
  rw [State.act_runs hr0]
  have hw : within 1 255 tag = true := by simp [within, h1, h255]
  simp only [Part.keyRequest, hl, hw, decide_true, Bool.and_self, if_true, Part.takeKeys, List.foldl, takeKey, hk,
    if_false]
  have e : (s.part.onLink st (fun l => { l with keptTag := some tag })) = s.part.keyTaken st tag := rfl
  rw [e]
  cases (s.part.keyTaken st tag).serveKey st k with
  | error e => rfl
  | ok x => cases x; rfl

theorem State.key_accepted {s : State} {st : StationNo} {tag : Nat} (h : s.takesKey st tag) {k : Key} {q : Part}
    {d : ResultData} (hr : (s.part.keyTaken st tag).serveKey st k = .ok (q, d)) :
    s.act (fun p => p.keyRequest st tag k) = .next (s.outcome q st tag (.accepted d)) := by
  rw [State.key_served h, hr]
  rfl

theorem State.key_refused {s : State} {st : StationNo} {tag : Nat} (h : s.takesKey st tag) {k : Key} {e : Reason}
    (hr : (s.part.keyTaken st tag).serveKey st k = .error e) :
    s.act (fun p => p.keyRequest st tag k) =
      .next (s.outcome (s.part.keyTaken st tag) st tag (.refused e)) := by
  rw [State.key_served h, hr]
  rfl

theorem Part.serveKey_operator {s : State} {st : StationNo} {tag operator : Nat} (h : s.takesKeyOf st tag operator)
    (k : Key) :
    (s.part.keyTaken st tag).serveKey st k = (s.part.keyTaken st tag).serveSignedOn st operator k := by
  obtain ⟨⟨-, -, -, -, -, hd, hc⟩, ho⟩ := h
  have hd' : (s.part.keyTaken st tag).disabling st = false := hd
  have hc' : (s.part.keyTaken st tag).tt.counter ≠ .starting := hc
  have ho' : ((s.part.keyTaken st tag).stack st).operator = some operator := ho
  simp [Part.serveKey, hd', hc', ho']

theorem Part.serveKey_empty {s : State} {st : StationNo} {tag : Nat} (h : s.takesKey st tag)
    (ho : (s.part.stack st).operator = none) (k : Key) :
    (s.part.keyTaken st tag).serveKey st k = (s.part.keyTaken st tag).serveSignedOff st k := by
  obtain ⟨-, -, -, -, -, hd, hc⟩ := h
  have hd' : (s.part.keyTaken st tag).disabling st = false := hd
  have hc' : (s.part.keyTaken st tag).tt.counter ≠ .starting := hc
  have ho' : ((s.part.keyTaken st tag).stack st).operator = none := ho
  simp [Part.serveKey, hd', hc', ho']

/-! ## Conditions (R194) -/

theorem Part.latch_get (p : Part) (c d : Condition) (x : Option Detail) :
    (p.latch c x).ml.latches.get d = if d = c then ⟨true, x⟩ else p.ml.latches.get d :=
  PerCondition.get_set _ _ _ _

/-- A latch touches nothing of ML but the condition's flag and detail and the pending notices. -/
theorem Part.latch_frame (p : Part) (c : Condition) (x : Option Detail) :
    { (p.latch c x).ml with latches := p.ml.latches, notices := p.ml.notices } = p.ml := rfl

/-! ## Records by key -/

theorem mem_insertByKey {α : Type} {key : α → Nat} {x y : α} {l : List α} (h : y ∈ insertByKey key x l) :
    y = x ∨ y ∈ l := by
  induction l with
  | nil => simpa [insertByKey] using h
  | cons z zs ih =>
    simp only [insertByKey] at h
    split at h
    · simpa using h
    · split at h
      · rcases List.mem_cons.1 h with h | h
        · exact .inl h
        · exact .inr (List.mem_cons_of_mem _ h)
      · rcases List.mem_cons.1 h with h | h
        · exact .inr (h ▸ List.mem_cons_self)
        · rcases ih h with h | h
          · exact .inl h
          · exact .inr (List.mem_cons_of_mem _ h)

theorem length_removeFirst_le {α : Type} (f : α → Bool) (l : List α) : (removeFirst f l).length ≤ l.length := by
  induction l with
  | nil => simp [removeFirst]
  | cons x xs ih =>
    simp only [removeFirst]
    split
    · simp
    · simpa using ih

@[simp] theorem length_changeFirst {α : Type} (f : α → Bool) (g : α → α) (l : List α) :
    (changeFirst f g l).length = l.length := by
  induction l with
  | nil => simp [changeFirst]
  | cons x xs ih =>
    simp only [changeFirst]
    split
    · simp
    · simpa using ih

/-! ## The write queue (R147) -/

@[simp] theorem length_fillHeld (n : Nat) (r : Record) (q : List Place) : (fillHeld n r q).length = q.length := by
  induction q with
  | nil => rfl
  | cons x xs ih =>
    cases x with
    | held o k =>
      simp only [fillHeld]
      split
      · rfl
      · simp [ih]
    | filled r' => simp [fillHeld, ih]

theorem length_dropHeld_le (n : Nat) (q : List Place) : (dropHeld n q).length ≤ q.length := by
  induction q with
  | nil => simp [dropHeld]
  | cons x xs ih =>
    cases x with
    | held o k =>
      simp only [dropHeld]
      split
      · simp
      · simpa using ih
    | filled r' => simpa [dropHeld] using ih

theorem length_dropFirstRecord_le (q : List Place) : (dropFirstRecord q).length ≤ q.length := by
  induction q with
  | nil => simp [dropFirstRecord]
  | cons x xs ih =>
    cases x with
    | held o k => simpa [dropFirstRecord] using ih
    | filled r' => simp [dropFirstRecord]

/-- When the journal admits a record, it is not in FAULT, has space for it, and a place is free with no record waiting
(R147). -/
theorem Part.journalCheck_ok {p : Part} {length reserve : Nat} :
    p.journalCheck length reserve = .ok () ↔
      p.tj.fault = false ∧ p.hasSpace length reserve = true ∧ p.hasPlace = true := by
  unfold Part.journalCheck
  cases p.tj.fault <;> cases p.hasSpace length reserve <;> cases p.hasPlace <;> simp

/-! ## Records as they stand in a sector (R146, R158) -/

@[simp] theorem Stored.of_record (r : Record) : (Stored.of r).record = r := rfl

@[simp] theorem Stored.of_agrees (r : Record) : (Stored.of r).agrees = true := by simp [Stored.agrees, Stored.of]

/-- The check of a record that was cut does not agree. -/
@[simp] theorem Stored.cut_disagrees (r : Record) (c : BitVec 16) : (Stored.cut r c).agrees = false := by
  unfold Stored.agrees Stored.cut
  by_cases h : c = r.check
  · have : ~~~r.check ≠ r.check := fun e => by
      have := congrArg (fun x : BitVec 16 => x.getLsbD 0) e
      simp at this
    simp [h, this]
  · simp [h]

theorem Sector.whole_iff (s : Sector) :
    s.whole = true ↔ (∀ x ∈ s.records, x.agrees = true) ∧ ∀ x ∈ s.torn, x.agrees = true := by
  cases h : s.torn <;> simp [Sector.whole, Sector.area, h]

/-- A record that was cut ends the reading of its sector, and the records before it are read. -/
theorem Sector.scanned_cut {s : Sector} {r : Record} {c : BitVec 16} (h : ∀ x ∈ s.records, x.agrees = true)
    (ht : s.torn = some (.cut r c)) : s.whole = false ∧ s.scanned.records = s.records := by
  constructor
  · simp [Sector.whole, Sector.area, ht]
  · simp [Sector.scanned, Sector.area, ht, List.takeWhile_append_of_pos h]

/-! ## Audit entries (R188) -/

theorem AuditSlot.shown_agrees {e : AuditEntry} (h : e.agrees = true) : (AuditSlot.written e).shown = .written e := by
  simp [AuditSlot.shown, h]

theorem AuditSlot.shown_fails {e : AuditEntry} (h : e.agrees = false) : (AuditSlot.written e).shown = .damaged := by
  simp [AuditSlot.shown, h]

/-- The entry that a commit writes agrees with its check. -/
@[simp] theorem Session.auditEntry_agrees (x : Session) (n : Nat) (t : Option DateTime) :
    (x.auditEntry n t).agrees = true := by simp [AuditEntry.agrees, Session.auditEntry]

/-! ## Privileged requests (R79, R85, R105, R143) -/

/-- Without a supervisor at the top a privileged request is refused; under one it is its own request, and the override context
ends with an accepted one. -/
theorem Part.privileged_eq (p : Part) (st : StationNo) (serve : Nat → Part → Served) :
    p.privileged st serve = match p.supervisor st with
      | none => .error .notAllowed
      | some supervisor => (serve supervisor p).map (fun r => (r.1.endOverride st, r.2)) := by
  unfold Part.privileged
  cases p.supervisor st with
  | none => rfl
  | some supervisor => cases h : serve supervisor p <;> simp [need, bind, Except.bind, pure, Except.pure, Except.map, h]

/-- The line that VOID LINE and REPRINT act on is there exactly when their first four checks pass. -/
theorem Part.activeLine_ok {p : Part} {st : StationNo} {index : Nat} {o : Order} {f : LineFields} :
    p.activeLine st index = .ok (o, f) ↔ p.activeOrder st = some o ∧ 1 ≤ index ∧ index ≤ 24
      ∧ o.line index = some ⟨f, .active⟩ := by
  unfold Part.activeLine
  cases p.activeOrder st with
  | none => simp [need, bind, Except.bind]
  | some x =>
    by_cases hw : 1 ≤ index ∧ index ≤ 24
    · cases hl : x.line index with
      | none =>
        simp only [need, check, within, bind, Except.bind, hw, hl, decide_true, Bool.and_self, if_true]
        constructor
        · intro h; cases h
        · rintro ⟨ho, -, -, h⟩; cases ho; rw [hl] at h; cases h
      | some l =>
        obtain ⟨g, ls⟩ := l
        by_cases ha : ls = .active
        · subst ha
          simp only [need, check, within, bind, Except.bind, pure, Except.pure, hw, hl, decide_true, Bool.and_self, if_true]
          constructor
          · intro h; cases h; exact ⟨rfl, trivial, trivial, hl⟩
          · rintro ⟨ho, -, -, h⟩; cases ho; rw [hl] at h; cases h; rfl
        · simp only [need, check, within, bind, Except.bind, hw, hl, ha, decide_true, decide_false, Bool.and_self, if_true,
            Bool.false_eq_true, if_false]
          constructor
          · intro h; cases h
          · rintro ⟨ho, -, -, h⟩; cases ho; rw [hl] at h; cases h; exact absurd rfl ha
    · have : within 1 24 index = false := by
        simp only [within, Bool.and_eq_false_iff, decide_eq_false_iff_not]; omega
      simp only [need, check, bind, Except.bind, this, Bool.false_eq_true, if_false]
      constructor
      · intro h; cases h
      · rintro ⟨-, h1, h2, -⟩; exact absurd ⟨h1, h2⟩ hw

/-! ## Appends (R149) -/

theorem Part.appendWritten_of {p : Part} {r : Record} {report : Record → Option (Part → Part)} {f : Part → Part}
    (hr : p.inFlight = some r) (hf : report r = some f) : p.appendWritten report = f (p.finishAppend r) := by
  simp [Part.appendWritten, hr, hf]

/-! ## Taking a place of the write queue (R147, R154) -/

theorem Part.takePlace_tj (p : Part) (x : Place) : (p.takePlace x).tj = p.tj.taking x := by
  unfold Part.takePlace Part.withQueue Journal.taking
  cases p.tj.queue with
  | nil => cases x <;> rfl
  | cons y ys => cases y <;> simp [frontFilled]

theorem Part.queueRecord_tj (p : Part) (r : Record) : (p.queueRecord r).tj = p.tj.taking (.filled r) :=
  p.takePlace_tj (.filled r)

/-- The write queue becomes another one whose front place, if filled, has just arrived there. -/
theorem Part.withQueue_tj (p : Part) (q : List Place) :
    (p.withQueue q true).tj = { p.tj with queue := q, erase := suspendedBy q p.tj.erase } := by
  unfold Part.withQueue suspendedBy frontFilled
  cases q with
  | nil => rfl
  | cons x xs => cases x <;> rfl

end Sys2Proof.Machine
end

