-- ==== Sys2Proof/Laws/Checks.lean ====
section
/-! SUPPORT. The 16-bit check taken byte by byte is the one taken bit by bit, numbers stand in their bytes, and the digest and the
audit check are those of Tables 59 and 63. -/

namespace Sys2Proof.Machine

theorem crcShift_xor (a b : BitVec 16) : crcShift (a ^^^ b) = crcShift a ^^^ crcShift b := by
  unfold crcShift
  cases ha : a.msb <;> cases hb : b.msb <;> simp [BitVec.msb_xor, ha, hb, BitVec.shiftLeft_xor_distrib] <;>
    ext i <;> simp <;> grind

theorem crcShifts_xor (n : Nat) (a b : BitVec 16) : crcShifts n (a ^^^ b) = crcShifts n a ^^^ crcShifts n b := by
  induction n generalizing a b with
  | zero => rfl
  | succ n ih => simp [crcShifts, crcShift_xor, ih]

theorem checkBit_eq (c : BitVec 16) (bit : Bool) :
    checkBit c bit = crcShift c ^^^ (if bit then 0x1021#16 else 0#16) := by
  cases bit <;> cases h : c.msb <;> simp [checkBit, crcShift, h]

/-- Bits shift what stands in the check by as many places, and add what they give alone. -/
theorem foldl_checkBit (bits : List Bool) (c d : BitVec 16) :
    bits.foldl checkBit (c ^^^ d) = crcShifts bits.length c ^^^ bits.foldl checkBit d := by
  induction bits generalizing c d with
  | nil => rfl
  | cons b bs ih =>
    simp only [List.foldl, List.length_cons, crcShifts]
    rw [← ih, checkBit_eq, checkBit_eq, crcShift_xor, BitVec.xor_assoc]

theorem crcShifts_byte : ∀ b : Byte, crcShifts 8 (b.setWidth 16 <<< 8) = (bitsOf b).foldl checkBit 0#16 := by decide

theorem crcByte_eq (c : BitVec 16) (b : Byte) : crcByte c b = (bitsOf b).foldl checkBit c := by
  have := foldl_checkBit (bitsOf b) c 0#16
  rw [BitVec.xor_zero] at this
  rw [this, crcByte, crcShifts_xor, crcShifts_byte]
  rfl

theorem crc16_eq (bytes : List Byte) : crc16 bytes = checkOver bytes := by
  unfold crc16 checkOver
  generalize 0xFFFF#16 = c
  induction bytes generalizing c with
  | nil => rfl
  | cons b bs ih => simp [crcByte_eq, ih]

theorem bigEndian_eq (n width : Nat) : bigEndian n width = bytesOf width n := by
  induction width with
  | zero => rfl
  | succ k ih => simp [bigEndian, bytesOf, ih, List.range_succ]

theorem bigEndianSigned_eq (z : Int) : bigEndianSigned z = bytesOf 4 (z % 4294967296).toNat := by
  rw [bigEndianSigned, bigEndian_eq, BitVec.toNat_ofInt]
  rfl

theorem bytesOf_mod (n : Nat) : bytesOf 4 (n % 4294967296) = bytesOf 4 n := by
  simp only [bytesOf, List.range_succ, List.range_zero]
  simp
  refine ⟨?_, ?_, ?_, ?_⟩ <;> apply BitVec.eq_of_toNat_eq <;> simp <;> omega

theorem bigEndianSigned_nat (n : Nat) : bigEndianSigned (n : Int) = bytesOf 4 n := by
  rw [bigEndianSigned_eq, show ((n : Int) % 4294967296).toNat = n % 4294967296 by omega, bytesOf_mod]

theorem digestOf_eq (a : Accumulators) (i : Interrupted) : digestOf a i = digestOver a i := by
  simp only [digestOf, digestOver, totalsCheck, crc16_eq, bigEndian_eq]
  rfl

theorem auditCheck_eq (e : AuditEntry) : auditCheck e.number e.station e.changed e.old e.new e.time = e.checkOf := by
  have hc : ∀ b : Bool, b.toNat = if b = true then 1 else 0 := by decide
  have ht : timeNumbers e.time = (match e.time with
    | none => [0, 0, 0, 0, 0, 0]
    | some t => [t.date.year, t.date.month, t.date.day, t.time.hour, t.time.minute, t.time.second]) := rfl
  unfold auditCheck AuditEntry.checkOf
  rw [crc16_eq]
  congr 1
  simp only [bigEndian_eq, CalItem.all, CalRecord.item, itemBits, List.map, List.flatMap_append, List.flatMap_cons,
    bigEndianSigned_nat, List.flatMap_nil]
  rw [← bigEndianSigned_eq, ← bigEndianSigned_eq, hc, ht]
  cases e.time <;> simp [List.zipIdx, List.append_assoc, Nat.add_assoc]

/-- The entry that a commit writes carries the check of Table 63. -/
theorem Session.auditEntry_check (x : Session) (n : Nat) (t : Option DateTime) :
    (x.auditEntry n t).check = (x.auditEntry n t).checkOf := by
  have h := x.auditEntry_agrees n t
  rw [← auditCheck_eq]
  exact of_decide_eq_true h

end Sys2Proof.Machine
end

