-- ==== Sys2Proof/Laws/Clock.lean ====
section
/-! SUPPORT. What the passing of time does to the clock (R168): it can be cut into pieces, each second carries the reading
forward by the calendar, and the clock stays on a date and a time of day that it can read. -/

namespace Sys2Proof.Machine

@[simp] theorem TimeOfDay.seconds_ofSeconds (n : Nat) : (TimeOfDay.ofSeconds n).seconds = n := by
  simp only [TimeOfDay.ofSeconds, TimeOfDay.seconds]
  omega

theorem Date.clockPlusDays_add (m n : Nat) (d : Date) : d.clockPlusDays (m + n) = (d.clockPlusDays m).clockPlusDays n := by
  induction m generalizing d with
  | zero => simp [Date.clockPlusDays]
  | succ m ih => rw [Nat.succ_add]; exact ih _

theorem DateTime.clockPlus_add (t : DateTime) (a b : Nat) : t.clockPlus (a + b) = (t.clockPlus a).clockPlus b := by
  by_cases ha : a = 0
  · simp [ha, DateTime.clockPlus]
  by_cases hb : b = 0
  · simp [hb, DateTime.clockPlus]
  simp only [DateTime.clockPlus, ha, hb, if_false, TimeOfDay.seconds_ofSeconds, ← Date.clockPlusDays_add]
  rw [if_neg (by omega)]
  congr 2 <;> omega

theorem TimeBase.advance_add (t : TimeBase) (m n : Nat) : t.advance (m + n) = (t.advance m).advance n := by
  simp only [TimeBase.advance, ← DateTime.clockPlus_add]
  congr 1
  · omega
  · congr 1; omega
  · omega

/-- In the years of the clock the two calendars agree. -/
theorem monthLength_eq (y m : Nat) (h : y ≤ 2099) : monthLength y m = daysOfMonth y m := by
  unfold monthLength daysOfMonth isLeap
  split <;> grind

theorem daysOfMonth_ge (y m : Nat) : 28 ≤ daysOfMonth y m := by
  unfold daysOfMonth
  split <;> (try split) <;> omega

/-- Within a day only the time of day advances. -/
theorem DateTime.clockPlus_within (c : DateTime) (h : c.time.seconds + 1 < 86400) :
    c.clockPlus 1 = ⟨c.date, TimeOfDay.ofSeconds (c.time.seconds + 1)⟩ := by
  have h1 : (c.time.seconds + 1) / 86400 = 0 := by omega
  have h2 : (c.time.seconds + 1) % 86400 = c.time.seconds + 1 := by omega
  simp [DateTime.clockPlus, h1, h2, Date.clockPlusDays]

/-- At 23:59:59 the date is carried forward. -/
theorem DateTime.clockPlus_midnight (c : DateTime) (h : c.time = ⟨23, 59, 59⟩) :
    c.clockPlus 1 = ⟨c.date.clockFollowing, ⟨0, 0, 0⟩⟩ := by
  have hs : c.time.seconds = 86399 := by rw [h]; rfl
  simp [DateTime.clockPlus, hs, Date.clockPlusDays, TimeOfDay.ofSeconds]

/-- The clock's next reading is the one that R168 gives. -/
theorem DateTime.clockPlus_one (c : DateTime) (h : c.OnClock) : OneSecondLater c (c.clockPlus 1) := by
  obtain ⟨hy, hm, hd, ht⟩ := h
  have sec : c.time.seconds = c.time.hour * 3600 + c.time.minute * 60 + c.time.second := rfl
  have within := c.clockPlus_within
  have last := c.clockPlus_midnight
  have ml := monthLength_eq c.date.year c.date.month hy.2
  obtain ⟨⟨y, mo, d⟩, ⟨hh, mi, ss⟩⟩ := c
  simp only at *
  have ne : d < daysOfMonth y mo ∨ mo < 12 ∨ y < 2099 → (⟨y, mo, d⟩ : Date) ≠ ⟨2099, 12, 31⟩ := by
    intro h e
    cases e
    simp [daysOfMonth] at h
  constructor
  · intro h
    simp only at h
    rw [within (by omega), sec]
    simp [TimeOfDay.ofSeconds]
    omega
  · intro h h'
    simp only at h h'
    rw [within (by omega), sec]
    simp [TimeOfDay.ofSeconds]
    omega
  · intro h h' h''
    simp only at h h' h''
    rw [within (by omega), sec]
    simp [TimeOfDay.ofSeconds]
    omega
  · intro h
    rw [last h]
  · intro h h'
    rw [last h]
    simp only at h' ⊢
    unfold Date.clockFollowing
    rw [if_neg (ne (.inl h'))]
    simp [Date.following, ml, h']
  · intro h h' h''
    rw [last h]
    simp only at h' h'' ⊢
    unfold Date.clockFollowing
    rw [if_neg (ne (.inr (.inl h'')))]
    simp [Date.following, ml, h', h'']
  · intro h h' h'' h3
    rw [last h]
    simp only at h' h'' h3 ⊢
    subst h' h''
    simp [Date.clockFollowing, Date.following, ml, daysOfMonth]
    omega
  · intro h
    rw [last (by cases h; rfl)]
    cases h
    rfl

theorem TimeBase.advance_clock_same (t : TimeBase) {m : Nat} (h : t.phase + m < 1000) : (t.advance m).clock = t.clock := by
  simp only [TimeBase.advance]
  rw [show (t.phase + m) / 1000 = 0 by omega]
  rfl

theorem TimeBase.advance_clock_one (t : TimeBase) {m : Nat} (h : 1000 ≤ t.phase + m) (h' : t.phase + m < 2000) :
    (t.advance m).clock = t.clock.clockPlus 1 := by
  simp only [TimeBase.advance]
  rw [show (t.phase + m) / 1000 = 1 by omega]

theorem Date.clockFollowing_onClock (d : Date) (t : TimeOfDay) (h : (⟨d, t⟩ : DateTime).OnClock) :
    (⟨d.clockFollowing, t⟩ : DateTime).OnClock := by
  obtain ⟨hy, hm, hd, ht⟩ := h
  simp only at *
  unfold Date.clockFollowing Date.following
  rw [monthLength_eq _ _ hy.2]
  split
  · exact ⟨by simp, by simp, by simp [daysOfMonth], ht⟩
  · split
    · exact ⟨hy, hm, by simp only; omega, ht⟩
    · split
      · exact ⟨hy, by simp only; omega, ⟨by simp, by have := daysOfMonth_ge d.year (d.month + 1); simp only; omega⟩, ht⟩
      · refine ⟨?_, by simp, ⟨by simp, by have := daysOfMonth_ge (d.year + 1) 1; simp only; omega⟩, ht⟩
        simp only
        have : d.month = 12 := by omega
        rcases d with ⟨y, m, dd⟩
        simp only [daysOfMonth] at *
        subst this
        simp at *
        omega

theorem Date.clockPlusDays_onClock (n : Nat) (d : Date) (t : TimeOfDay) (h : (⟨d, t⟩ : DateTime).OnClock) :
    (⟨d.clockPlusDays n, t⟩ : DateTime).OnClock := by
  induction n generalizing d with
  | zero => exact h
  | succ n ih => exact ih _ (Date.clockFollowing_onClock d t h)

/-- The passing of time keeps the clock on a reading that it can have. -/
theorem TimeBase.advance_runs (t : TimeBase) (m : Nat) (h : t.Runs) : (t.advance m).Runs := by
  refine ⟨?_, Nat.mod_lt _ (by decide)⟩
  simp only [TimeBase.advance, DateTime.clockPlus]
  split
  · exact h.clock
  · have := Date.clockPlusDays_onClock ((t.clock.time.seconds + (t.phase + m) / 1000) / 86400) _ _ h.clock
    refine ⟨this.year, this.month, this.day, ?_⟩
    simp only [TimeOfDay.ofSeconds]
    omega

theorem TimeBase.powerOn_runs : TimeBase.powerOn.Runs :=
  ⟨⟨by decide, by decide, by decide, by decide⟩, by decide⟩

end Sys2Proof.Machine
end

