-- ==== Sys2Proof/Laws/Keyed.lean ====
section
/-! SUPPORT. What the operations on the lists that are kept by number do, said once: a look-up after each; the entries of a
PRICE_APPLY (R66, R73); and what a CLOSE and a VOID_ORDER record add to the day accumulators (R173, R174). -/

namespace Sys2Proof.Machine

/-! ## Lists kept by number -/

theorem lookup_insertByKey {α : Type} (key : α → Nat) (n : Nat) (x : α) (l : List α) :
    lookup key n (insertByKey key x l) = if key x = n then some x else lookup key n l := by
  induction l with
  | nil => by_cases h : key x = n <;> simp [insertByKey, lookup, List.find?, h]
  | cons y ys ih =>
    simp only [lookup] at ih ⊢
    simp only [insertByKey]
    split
    · simp only [List.find?_cons]
      split <;> simp_all
    · split
      · simp only [List.find?_cons]
        split <;> simp_all
        grind
      · simp only [List.find?_cons, ih]
        split <;> simp_all

theorem lookup_removeKey {α : Type} (key : α → Nat) (n m : Nat) (l : List α) :
    lookup key m (removeKey key n l) = if m = n then none else lookup key m l := by
  induction l with
  | nil => simp [removeKey, lookup]
  | cons y ys ih =>
    simp only [lookup, removeKey] at ih ⊢
    simp only [List.filter_cons, List.find?_cons]
    grind

theorem lookup_changeFirst {α : Type} (key : α → Nat) (n m : Nat) (f : α → α) (hf : ∀ x, key (f x) = key x) (l : List α) :
    lookup key m (changeFirst (fun x => key x == n) f l)
      = if m = n then (lookup key n l).map f else lookup key m l := by
  induction l with
  | nil => simp [changeFirst, lookup]
  | cons y ys ih =>
    simp only [lookup] at ih ⊢
    simp only [changeFirst]
    split <;> simp only [List.find?_cons, hf, ih] <;> grind

theorem ascending_insertByKey {α : Type} (key : α → Nat) (x : α) (l : List α) (h : (l.map key).Pairwise (· < ·)) :
    ((insertByKey key x l).map key).Pairwise (· < ·) := by
  induction l with
  | nil => simp [insertByKey]
  | cons y ys ih =>
    simp only [List.map_cons, List.pairwise_cons] at h
    simp only [insertByKey]
    split
    · simp only [List.map_cons, List.pairwise_cons]
      refine ⟨fun a ha => ?_, h⟩
      rcases List.mem_cons.1 ha with rfl | ha
      · assumption
      · have := h.1 a ha
        omega
    · split
      · rename_i he
        simpa only [List.map_cons, List.pairwise_cons, he] using h
      · simp only [List.map_cons, List.pairwise_cons]
        refine ⟨fun a ha => ?_, ih h.2⟩
        obtain ⟨b, hb, rfl⟩ := List.mem_map.1 ha
        rcases mem_insertByKey hb with rfl | hb
        · omega
        · exact h.1 _ (List.mem_map.2 ⟨b, hb, rfl⟩)

theorem ascending_removeKey {α : Type} (key : α → Nat) (n : Nat) (l : List α) (h : (l.map key).Pairwise (· < ·)) :
    ((removeKey key n l).map key).Pairwise (· < ·) :=
  h.sublist (List.filter_sublist.map _)

theorem map_changeFirst {α : Type} (key : α → Nat) (p : α → Bool) (f : α → α) (hf : ∀ x, key (f x) = key x) (l : List α) :
    (changeFirst p f l).map key = l.map key := by
  induction l with
  | nil => rfl
  | cons y ys ih =>
    simp only [changeFirst]
    split <;> simp [hf, ih]

/-! ## The entries of a PRICE_APPLY -/

/-- One entry does to the article table what R66 says. -/
theorem applyEntry_applied (g : Nat) (e : ChangeEntry) (table : List Article)
    (h : (table.map Article.number).Pairwise (· < ·)) : EntryApplied g e table (applyEntry g table e) := by
  have mark (held : Bool) (n : Nat) := lookup_changeFirst Article.number n (f := fun a => a.setHeld held g) (hf := fun _ => rfl)
  have keys (held : Bool) (p : Article → Bool) := map_changeFirst Article.number p (fun a => a.setHeld held g) (fun _ => rfl)
  cases e with
  | put a =>
    refine ⟨ascending_insertByKey _ _ _ h, fun n hn => ?_, ?_⟩
    · simp only [applyEntry, lookup_insertByKey]
      exact if_neg fun x => hn x.symm
    · simp [applyEntry, lookup_insertByKey, ChangeEntry.number]
  | delete n =>
    refine ⟨ascending_removeKey _ _ _ h, fun m hm => ?_, ?_⟩
    · simp only [applyEntry, lookup_removeKey]
      exact if_neg hm
    · simp [applyEntry, lookup_removeKey, ChangeEntry.number]
  | hold n =>
    refine ⟨by simpa [applyEntry, keys] using h, fun m hm => ?_, ?_⟩
    · simp only [applyEntry, mark]
      exact if_neg hm
    · simp only [applyEntry, mark, ChangeEntry.number, if_pos]
      rfl
  | release n =>
    refine ⟨by simpa [applyEntry, keys] using h, fun m hm => ?_, ?_⟩
    · simp only [applyEntry, mark]
      exact if_neg hm
    · simp only [applyEntry, mark, ChangeEntry.number, if_pos]
      rfl

/-- Entries applied one after the other. -/
theorem applyEntries_applied (g : Nat) (es : List ChangeEntry) (table : List Article)
    (h : (table.map Article.number).Pairwise (· < ·)) :
    EntriesApplied g es table (es.foldl (applyEntry g) table)
      ∧ ((es.foldl (applyEntry g) table).map Article.number).Pairwise (· < ·) := by
  induction es generalizing table with
  | nil => exact ⟨rfl, h⟩
  | cons e es ih =>
    have first := applyEntry_applied g e table h
    have rest := ih _ first.ascending
    exact ⟨⟨_, first, rest.1⟩, rest.2⟩

/-- What a restart applies to the article area, record after record (R73). -/
theorem rollForward_applied (os : List OwedGeneration) (table : List Article)
    (h : (table.map Article.number).Pairwise (· < ·)) :
    RolledForward os table (os.foldl (fun table o => o.entries.foldl (applyEntry o.generation) table) table) := by
  induction os generalizing table with
  | nil => rfl
  | cons o os ih =>
    have first := applyEntries_applied o.generation o.entries table h
    exact ⟨_, first.1, ih _ first.2⟩

/-! ## The day accumulators -/

theorem LineFields.sums_eq (f : LineFields) : f.sums = (f.measure.grams, f.measure.items) := by
  unfold LineFields.sums
  cases f.measure <;> rfl

/-- Everything that `addArticle` does: the entry of the article, a new one while there is room, or OTHER. -/
theorem Accumulators.addArticle_cases (a : Accumulators) (f : LineFields) :
    (∃ e, lookup ArticleEntry.article f.article a.articles = some e
        ∧ a.addArticle f = { a with articles := insertByKey ArticleEntry.article ⟨f.article, e.figures.add f⟩ a.articles })
    ∨ (lookup ArticleEntry.article f.article a.articles = none ∧ a.articles.length < 2048
        ∧ a.addArticle f = { a with
            articles := insertByKey ArticleEntry.article ⟨f.article, ArticleFigures.add ⟨0, 0, 0, 0⟩ f⟩ a.articles })
    ∨ (lookup ArticleEntry.article f.article a.articles = none ∧ 2048 ≤ a.articles.length
        ∧ a.addArticle f = { a with other := a.other.add f }) := by
  unfold Accumulators.addArticle
  cases hl : lookup ArticleEntry.article f.article a.articles with
  | some e => exact .inl ⟨e, rfl, rfl⟩
  | none =>
    by_cases hc : a.articles.length < 2048
    · exact .inr (.inl ⟨rfl, hc, if_pos hc⟩)
    · exact .inr (.inr ⟨rfl, by omega, if_neg hc⟩)

/-- One line adds to the accumulators what R173 says. -/
theorem Accumulators.addLine_added (a : Accumulators) (f : LineFields) : a.LineAdded (a.addLine f) f := by
  have shape : a.addLine f = { a with
      articles := (a.addArticle f).articles
      other := (a.addArticle f).other
      departments := a.departments.modify (f.department - 1) (fun l => l.add f)
      stations := a.stations.set f.station ((a.stations.get f.station).add f)
      counter := { a.counter with lines := a.counter.lines + 1 }.addOverride f } := by
    unfold Accumulators.addLine
    obtain ⟨e, -, h⟩ | ⟨-, -, h⟩ | ⟨-, -, h⟩ := a.addArticle_cases f <;> rw [h]
  have added (g : ArticleFigures) : g.add f = ⟨g.lines + 1, g.weight + f.sums.1, g.quantity + f.sums.2, g.value + f.linePrice⟩ := by
    rw [LineFields.sums_eq]
    rfl
  rw [shape]
  constructor
  case ascending =>
    obtain ⟨e, -, h⟩ | ⟨-, -, h⟩ | ⟨-, -, h⟩ := a.addArticle_cases f <;> rw [h] <;>
      first | exact ascending_insertByKey _ _ _ | exact id
  case others =>
    intro n hn
    obtain ⟨e, -, h⟩ | ⟨-, -, h⟩ | ⟨-, -, h⟩ := a.addArticle_cases f <;> rw [h] <;> simp [lookup_insertByKey, hn.symm]
  case article =>
    intro e he
    obtain ⟨e', he', h⟩ | ⟨he', -, h⟩ | ⟨he', -, h⟩ := a.addArticle_cases f <;> cases he.symm.trans he'
    simp [h, lookup_insertByKey, added]
  case created =>
    intro hn hc
    obtain ⟨e', he', h⟩ | ⟨he', -, h⟩ | ⟨-, hc', h⟩ := a.addArticle_cases f
    · cases hn.symm.trans he'
    · simp [h, lookup_insertByKey, added]
    · omega
  case other =>
    intro hn hc
    obtain ⟨e', he', h⟩ | ⟨-, hc', h⟩ | ⟨-, -, h⟩ := a.addArticle_cases f
    · cases hn.symm.trans he'
    · omega
    · simp [h, added]
  case departments =>
    intro h1 i
    simp only [List.getElem?_modify]
    cases a.departments[i]? with
    | none => rfl
    | some l => by_cases h : f.department - 1 = i <;> simp [LineFigures.add] <;> grind
  case station => exact PerStation.get_set_same _ _ _
  case stations => exact fun st h => PerStation.get_set_other _ _ h
  case clerks => exact ⟨rfl, rfl⟩
  case plain => intro h; simp [CounterFigures.addOverride, h]
  case override => intro h; simp [CounterFigures.addOverride, Option.isSome_iff_ne_none.2 h]

theorem Accumulators.addLines_added (fs : List LineFields) (a : Accumulators) :
    Accumulators.LinesAdded fs a (fs.foldl Accumulators.addLine a) := by
  induction fs generalizing a with
  | nil => rfl
  | cons f fs ih => exact ⟨_, a.addLine_added f, ih _⟩

theorem Accumulators.LinesAdded.clerks {fs : List LineFields} {a b : Accumulators} (h : Accumulators.LinesAdded fs a b) :
    b.clerks = a.clerks ∧ b.otherClerks = a.otherClerks := by
  induction fs generalizing a with
  | nil => cases h; exact ⟨rfl, rfl⟩
  | cons f fs ih =>
    obtain ⟨m, hm, h⟩ := h
    exact ⟨(ih h).1.trans hm.clerks.1, (ih h).2.trans hm.clerks.2⟩

/-- The VOIDED lines of an order add to the voided figures alone. -/
theorem Accumulators.addVoideds (fs : List LineFields) (a : Accumulators) :
    fs.foldl Accumulators.addVoided a = { a with counter := { a.counter with
      voidedLines := a.counter.voidedLines + fs.length
      voidedLineValue := a.counter.voidedLineValue + (fs.map LineFields.linePrice).sum } } := by
  induction fs generalizing a with
  | nil => rfl
  | cons f fs ih =>
    simp only [List.foldl, ih, Accumulators.addVoided, List.length_cons, List.map_cons, List.sum_cons]
    congr 2 <;> omega

/-- Everything that `onClerk` does: the entry of the owner, a new one while there is room, or OTHER CLERKS. -/
theorem Accumulators.onClerk_cases (a : Accumulators) (owner : Nat) (g : ClerkFigures → ClerkFigures) :
    (∃ e, lookup ClerkEntry.clerk owner a.clerks = some e
        ∧ a.onClerk owner g = { a with clerks := insertByKey ClerkEntry.clerk ⟨owner, g e.figures⟩ a.clerks })
    ∨ (lookup ClerkEntry.clerk owner a.clerks = none ∧ a.clerks.length < 32
        ∧ a.onClerk owner g = { a with clerks := insertByKey ClerkEntry.clerk ⟨owner, g ⟨0, 0, 0, 0⟩⟩ a.clerks })
    ∨ (lookup ClerkEntry.clerk owner a.clerks = none ∧ 32 ≤ a.clerks.length
        ∧ a.onClerk owner g = { a with otherClerks := g a.otherClerks }) := by
  unfold Accumulators.onClerk
  cases hl : lookup ClerkEntry.clerk owner a.clerks with
  | some e => exact .inl ⟨e, rfl, rfl⟩
  | none =>
    by_cases hc : a.clerks.length < 32
    · exact .inr (.inl ⟨rfl, hc, if_pos hc⟩)
    · exact .inr (.inr ⟨rfl, by omega, if_neg hc⟩)

theorem Accumulators.onClerk_rest (a : Accumulators) (owner : Nat) (g : ClerkFigures → ClerkFigures) :
    a.onClerk owner g
      = { a with clerks := (a.onClerk owner g).clerks, otherClerks := (a.onClerk owner g).otherClerks } := by
  obtain ⟨e, -, h⟩ | ⟨-, -, h⟩ | ⟨-, -, h⟩ := a.onClerk_cases owner g <;> rw [h]

/-- The figures of an owner go where R173 says, whatever else is accumulated beside them. -/
theorem Accumulators.onClerk_charged {a m b : Accumulators} {owner : Nat} (g : ClerkFigures → ClerkFigures)
    (hm : m.clerks = a.clerks ∧ m.otherClerks = a.otherClerks)
    (hb : b.clerks = (m.onClerk owner g).clerks ∧ b.otherClerks = (m.onClerk owner g).otherClerks) :
    a.OwnerCharged b owner g := by
  have cases := m.onClerk_cases owner g
  rw [hm.1] at cases
  constructor
  case ascending =>
    rw [hb.1]
    obtain ⟨e, -, h⟩ | ⟨-, -, h⟩ | ⟨-, -, h⟩ := cases <;> rw [h] <;>
      first | exact ascending_insertByKey _ _ _ | (rw [← hm.1]; exact id)
  case others =>
    intro n hn
    rw [hb.1]
    obtain ⟨e, -, h⟩ | ⟨-, -, h⟩ | ⟨-, -, h⟩ := cases <;> rw [h] <;> simp [lookup_insertByKey, hn.symm]
  case entry =>
    intro e he
    obtain ⟨e', he', h⟩ | ⟨he', -, h⟩ | ⟨he', -, h⟩ := cases <;> cases he.symm.trans he'
    simp [hb.1, hb.2, h, lookup_insertByKey, hm.2]
  case created =>
    intro hn hc
    obtain ⟨e', he', h⟩ | ⟨-, -, h⟩ | ⟨-, hc', h⟩ := cases
    · cases hn.symm.trans he'
    · simp [hb.1, hb.2, h, lookup_insertByKey, hm.2]
    · omega
  case other =>
    intro hn hc
    obtain ⟨e', he', h⟩ | ⟨-, hc', h⟩ | ⟨-, -, h⟩ := cases
    · cases hn.symm.trans he'
    · omega
    · simp [hb.1, hb.2, h, hm]

/-- The labels of the lines, counted. -/
theorem length_labels (fs : List LineFields) :
    (fs.filterMap LineFields.label).length = (fs.filter (fun f => f.label.isSome)).length := by
  induction fs with
  | nil => rfl
  | cons f fs ih => cases hf : f.label <;> simp [hf, ih]

/-- A CLOSE record adds to the accumulators what R173 says. -/
theorem Accumulators.addClose_closed (a : Accumulators) (owner total : Nat) (label : Option Nat)
    (active voided : List LineFields) : a.Closed (a.addClose owner total label active voided) owner total label active voided := by
  have added := addLines_added active a
  have ht : (if label = none then 0 else 1) = label.toList.length := by cases label <;> rfl
  unfold Accumulators.addClose
  rw [addVoideds]
  refine ⟨⟨_, added, ?_⟩, onClerk_charged _ (by exact added.clerks) ⟨rfl, rfl⟩⟩
  dsimp only
  rw [onClerk_rest]
  exact ⟨rfl, rfl, rfl, rfl, by rw [length_labels, ht]⟩

/-- A VOID_ORDER record adds to the accumulators what R174 says. -/
theorem Accumulators.addVoidOrder_voided (a : Accumulators) (owner value : Nat) :
    a.OrderVoided (a.addVoidOrder owner value) owner value := by
  unfold Accumulators.addVoidOrder
  refine ⟨?_, onClerk_charged _ ⟨rfl, rfl⟩ ⟨rfl, rfl⟩⟩
  conv_lhs => rw [onClerk_rest]

end Sys2Proof.Machine
end

