-- ==== Sys2Proof/Laws/Scan.lean ====
section
/-! SUPPORT. What the conditions and their notices are after the seals and the judgements at the end of the start-up scan (R160,
R162, R168, R192, R194). -/

namespace Sys2Proof.Machine

/-- From `p` to `q` conditions are latched and none is cleared, and each one that becomes latched while its notice is enabled
leaves that notice pending (R194). -/
structure Latching (p q : Part) : Prop where
  enables : q.ml.enables = p.ml.enables
  kept : ∀ c, (p.ml.latches.get c).flag = true → (q.ml.latches.get c).flag = true
  notices : ∀ c, c ∈ q.ml.notices ↔ c ∈ p.ml.notices ∨ (p.ml.enables.get c = true
    ∧ (p.ml.latches.get c).flag = false ∧ (q.ml.latches.get c).flag = true)

theorem Latching.of_ml {p q : Part} (enables : q.ml.enables = p.ml.enables) (latches : q.ml.latches = p.ml.latches)
    (notices : q.ml.notices = p.ml.notices) : Latching p q :=
  ⟨enables, fun c => by simp [latches], fun c => by rw [latches, notices]; cases (p.ml.latches.get c).flag <;> simp⟩

theorem Latching.trans {p q r : Part} (h : Latching p q) (k : Latching q r) : Latching p r := by
  refine ⟨k.enables.trans h.enables, fun c x => k.kept c (h.kept c x), fun c => ?_⟩
  rw [k.notices, h.notices, h.enables]
  have := h.kept c
  have := k.kept c
  cases h1 : (p.ml.latches.get c).flag <;> cases h2 : (q.ml.latches.get c).flag <;>
    cases h3 : (r.ml.latches.get c).flag <;> simp_all

theorem Latching.latch (p : Part) (c : Condition) (x : Option Detail) : Latching p (p.latch c x) := by
  refine ⟨rfl, fun d h => ?_, fun d => ?_⟩
  · rw [Part.latch_get]
    split <;> simp_all
  · rw [Part.latch_get]
    simp only [Part.latch]
    by_cases hd : d = c
    · subst hd
      split <;> simp_all
    · split <;> simp [hd]

theorem Latching.sealSector (p : Part) (failed : List Nat) (s : Indexed) (records : List Stored) :
    Latching p (p.sealSector failed s records) := by
  unfold Part.sealSector
  dsimp only
  split
  · exact (Latching.of_ml rfl rfl rfl : Latching p (p.onSector _ _)).trans (Latching.latch _ _ _)
  · exact Latching.of_ml rfl rfl rfl

theorem Latching.sealAll (p : Part) (r : Reading) (failed : List Nat) : Latching p (p.sealAll r failed) := by
  have passed (l : List Indexed) (q : Part) : Latching q (l.foldl (fun q t => q.sealSector failed t []) q) := by
    induction l generalizing q with
    | nil => exact Latching.of_ml rfl rfl rfl
    | cons a l ih => exact (Latching.sealSector _ _ _ _).trans (ih _)
  unfold Part.sealAll
  split
  · exact Latching.of_ml rfl rfl rfl
  · exact (Latching.sealSector _ _ _ _).trans (passed _ _)

theorem Latching.judgeErase (p : Part) : Latching p p.judgeErase := by
  unfold Part.judgeErase
  split
  · exact Latching.latch _ _ _
  · exact Latching.of_ml rfl rfl rfl

theorem Latching.judgeRecovery (p : Part) : Latching p p.judgeRecovery := by
  unfold Part.judgeRecovery
  split
  · exact Latching.latch _ _ _
  · exact Latching.of_ml rfl rfl rfl

theorem Latching.judgeClock (p : Part) : Latching p p.judgeClock := by
  unfold Part.judgeClock
  split
  · exact Latching.latch _ _ _
  · exact Latching.of_ml rfl rfl rfl

/-- The three judgements at the end of the scan touch their own conditions alone. -/
theorem Part.judges_get (p : Part) (c : Condition) (low : c ≠ .journalLow) (pending : c ≠ .recoveryPending)
    (unset : c ≠ .clockUnset) : (p.judgeErase.judgeRecovery.judgeClock).ml.latches.get c = p.ml.latches.get c := by
  have h1 (q : Part) : q.judgeErase.ml.latches.get c = q.ml.latches.get c := by
    unfold Part.judgeErase
    split
    · rw [Part.latch_get, if_neg low]
    · rfl
  have h2 (q : Part) : q.judgeRecovery.ml.latches.get c = q.ml.latches.get c := by
    unfold Part.judgeRecovery
    split
    · rw [Part.latch_get, if_neg pending]
    · rfl
  have h3 (q : Part) : q.judgeClock.ml.latches.get c = q.ml.latches.get c := by
    unfold Part.judgeClock
    split
    · rw [Part.latch_get, if_neg unset]
    · rfl
  rw [h3, h2, h1]

/-- A seal latches STORE_FAULT with its sector exactly when it fails on a sector that is not BAD (log entry 23). -/
theorem Part.sealSector_get (p : Part) (failed : List Nat) (s : Indexed) (records : List Stored) (c : Condition) :
    (p.sealSector failed s records).ml.latches.get c
      = if c = .storeFault ∧ decide (s.index ∈ failed ∧ s.sector.mark ≠ .bad) = true
          then ⟨true, some (.store (.sectorBad s.index))⟩ else p.ml.latches.get c := by
  have e : (failed.contains s.index && decide (s.sector.mark ≠ .bad)) = decide (s.index ∈ failed ∧ s.sector.mark ≠ .bad) := by
    simp
  unfold Part.sealSector
  dsimp only
  rw [e]
  cases decide (s.index ∈ failed ∧ s.sector.mark ≠ .bad)
  · simp [Part.onSector]
  · simp only [if_true, Part.latchStore, Part.latch_get, and_true]
    rfl

/-- Seals one after the other: the last one that fails gives STORE_FAULT its detail (log entry 23). -/
theorem Part.seals_get (failed : List Nat) (l : List Indexed) (p : Part) (c : Condition) :
    (l.foldl (fun q t => q.sealSector failed t []) p).ml.latches.get c = if c = .storeFault then
      (match (l.filter (fun y => decide (y.index ∈ failed ∧ y.sector.mark ≠ SectorMark.bad))).getLast? with
        | some y => ⟨true, some (.store (.sectorBad y.index))⟩
        | none => p.ml.latches.get c) else p.ml.latches.get c := by
  induction l generalizing p with
  | nil => simp
  | cons a l ih =>
    simp only [List.foldl, ih, Part.sealSector_get, List.filter_cons]
    by_cases hc : c = .storeFault
    · subst hc
      cases decide (a.index ∈ failed ∧ a.sector.mark ≠ .bad)
      · simp
      · simp only [if_true, List.getLast?_cons, true_and]
        generalize (List.filter _ l).getLast? = o
        cases o <;> simp
    · simp [hc]

/-- The sectors that the end of the scan seals, in the order of their seals (R160). -/
def Reading.toSeal (r : Reading) : List Indexed :=
  match r.failed with
  | some s => s :: r.passedOver
  | none => []

/-- What the seals of the scan latch. -/
theorem Part.sealAll_get (p : Part) (r : Reading) (failed : List Nat) (c : Condition) :
    (p.sealAll r failed).ml.latches.get c = if c = .storeFault then
      (match (r.toSeal.filter (fun y => decide (y.index ∈ failed ∧ y.sector.mark ≠ SectorMark.bad))).getLast? with
        | some y => ⟨true, some (.store (.sectorBad y.index))⟩
        | none => p.ml.latches.get c) else p.ml.latches.get c := by
  unfold Part.sealAll Reading.toSeal
  cases r.failed with
  | none => simp
  | some s =>
    have e (a : Indexed) (records : List Stored) :
        (p.sealSector failed a records).ml.latches.get c = (p.sealSector failed a []).ml.latches.get c := by
      rw [Part.sealSector_get, Part.sealSector_get]
    have whole := Part.seals_get failed (s :: r.passedOver) p c
    simp only [List.foldl] at whole
    rw [← whole, Part.seals_get, Part.seals_get, e]

/-- Every condition stands in the order of Table 67. -/
theorem Condition.mem_all (c : Condition) : c ∈ Condition.all := by cases c <;> decide

/-- STARTED puts the pending notices in the order of Table 67 and loses none (R192). -/
theorem Latching.sendStarted (p : Part) : Latching p p.sendStarted := by
  refine ⟨rfl, fun c h => h, fun c => ?_⟩
  simp only [Part.sendStarted, List.mem_filter, Condition.mem_all, true_and, List.contains_iff_mem]
  cases (p.ml.latches.get c).flag <;> simp

@[simp] theorem Part.sendStarted_latches (p : Part) : p.sendStarted.ml.latches = p.ml.latches := rfl

theorem Part.rollForward_ml (p : Part) (rs : List Record) : (p.rollForward rs).ml = p.ml := by
  unfold Part.rollForward
  dsimp only
  split <;> rfl

/-- The part at the end of the scan but for the judgements and STARTED. -/
def Part.scanned (p : Part) (failed : List Nat) : Part :=
  let ss := surveyed p.nv.sectors
  let r := readSectors (journalSectors ss)
  let d := sinceClose r.records
  ((((p.takeSectors ss r failed).rollForward r.records).takeNumbers d.1 d.2).takeTotals d.1 d.2 r.early).startFigures.handCallList

theorem Part.endScan_eq (p : Part) (failed : List Nat) :
    p.endScan failed = ((p.scanned failed).judgeErase.judgeRecovery.judgeClock).sendStarted := rfl

/-- The values that the scan rebuilds touch no condition; its seals do. -/
theorem Part.scanned_ml (p : Part) (failed : List Nat) :
    let q : Part := { p with nv := { p.nv with sectors := surveyed p.nv.sectors } }
    (p.scanned failed).ml = { (q.sealAll (readSectors (journalSectors (surveyed p.nv.sectors))) failed).ml with
      display := (p.scanned failed).ml.display } := by
  simp only [Part.scanned, Part.handCallList, Part.startFigures, Part.takeTotals, Part.takeNumbers, Part.rollForward_ml,
    Part.takeSectors]

/-- The conditions and the notices after the start-up scan. -/
theorem Part.endScan_latching (p : Part) (failed : List Nat) : Latching p (p.endScan failed) := by
  have ml := p.scanned_ml failed
  have start := Latching.sealAll { p with nv := { p.nv with sectors := surveyed p.nv.sectors } }
    (readSectors (journalSectors (surveyed p.nv.sectors))) failed
  have scanned : Latching p (p.scanned failed) :=
    (Latching.of_ml rfl rfl rfl : Latching p { p with nv := { p.nv with sectors := surveyed p.nv.sectors } }).trans
      (start.trans (Latching.of_ml (by rw [ml]) (by rw [ml]) (by rw [ml])))
  exact (((scanned.trans (Latching.judgeErase _)).trans (Latching.judgeRecovery _)).trans (Latching.judgeClock _)).trans
    (Latching.sendStarted _)

/-- What the start-up scan leaves of a condition that it does not judge: only a failed seal latches one. -/
theorem Part.endScan_get (p : Part) (failed : List Nat) (c : Condition) (low : c ≠ .journalLow)
    (pending : c ≠ .recoveryPending) (unset : c ≠ .clockUnset) :
    (p.endScan failed).ml.latches.get c = if c = .storeFault then
      (match ((readSectors (journalSectors (surveyed p.nv.sectors))).toSeal.filter
          (fun y => decide (y.index ∈ failed ∧ y.sector.mark ≠ SectorMark.bad))).getLast? with
        | some y => ⟨true, some (.store (.sectorBad y.index))⟩
        | none => p.ml.latches.get c) else p.ml.latches.get c := by
  rw [Part.endScan_eq, Part.sendStarted_latches, Part.judges_get _ _ low pending unset, p.scanned_ml failed]
  dsimp only
  rw [Part.sealAll_get]

end Sys2Proof.Machine
end

