-- ==== Sys2Proof/Tests/Slice0.lean ====
section
/-! SUPPORT. The model's own tests: an ill-formed term for each check of WellFormed, the worked examples of the manual, a few
commands, and, for each statement with hypotheses, a state and operands that meet them. -/

namespace Sys2Proof.Tests

open Sys2Proof Sys2Proof.Machine

/-! ## WellFormed refuses an ill-formed term for each check -/

theorem test_wf_tag : (Instr.hello 256).wellFormed = false ∧ (Instr.hello 255).wellFormed = true := by decide
theorem test_wf_key_tag : (Instr.park .s1 0).wellFormed = false ∧ (Instr.park .s1 256).wellFormed = false
    ∧ (Instr.park .s1 1).wellFormed = true := by decide
theorem test_wf_take_tag : (Instr.take .d1 0 true).wellFormed = false := by decide
theorem test_wf_sectors : (Instr.startUpScanEnd [32]).wellFormed = false
    ∧ (Instr.startUpScanEnd [3, 3]).wellFormed = false ∧ (Instr.startUpScanEnd [31, 0]).wellFormed = true := by decide
theorem test_wf_frame_length :
    (Instr.hostFrame ⟨2, 9, 1, [0], 0, .notARequest 9, 0⟩).wellFormed = false
    ∧ (Instr.hostFrame ⟨1, 9, 1, [0], 0, .notARequest 8, 0⟩).wellFormed = false
    ∧ (Instr.hostFrame ⟨1, 9, 1, [0], 0, .notARequest 9, 0⟩).wellFormed = true := by decide
theorem test_wf_refused_frame : (Instr.notAHostRequest ⟨1, .request .hello⟩).wellFormed = false
    ∧ (Instr.notAHostRequest ⟨0, .request .hello⟩).wellFormed = true := by decide
theorem test_wf_station_zero :
    (Instr.setStation 1 (.station 0 ⟨true, 1, 3, true, none⟩)).wellFormed = false := by decide
theorem test_wf_reply : (Instr.stationReply ⟨256, true, 0, [], []⟩).wellFormed = false
    ∧ (Instr.stationReply ⟨1, true, 0, [], [⟨256, none⟩]⟩).wellFormed = false := by decide
theorem test_wf_done : (Instr.printerReply .p1 (.done 0) true).wellFormed = false := by decide
theorem test_wf_ticket : (Instr.missedTicketExpiry 0).wellFormed = false
    ∧ (Instr.missedTicketExpiry 100).wellFormed = false := by decide

/-! ## Worked examples of the manual -/

/-- The item code of section 2.7. -/
theorem test_item_code : itemCode 27 4821 2965 = [2, 7, 0, 4, 8, 2, 1, 0, 2, 9, 6, 5, 0] := by decide
/-- The total code of section 2.7. -/
theorem test_total_code : totalCode 28 57 12345 = [2, 8, 0, 0, 5, 7, 0, 1, 2, 3, 4, 5, 5] := by decide
/-- The conversions of R8. -/
theorem test_conversion :
    let c : Channel := Channel.initial ⟨120000, 2000000, 10000, 15000, 6000, 2, 5, true⟩ ⟨true, .p1, 3, true, .item⟩
    c.convert 368660 = 12433 ∧ c.convert 120013 = 1 ∧ c.convert 119990 = -1 := by decide
/-- The limits of R17 for Max 15,000 g, e1 = 2 g and e2 = 5 g. -/
theorem test_limits :
    let c : Channel := Channel.initial ⟨0, 2000000, 10000, 15000, 6000, 2, 5, true⟩ ⟨true, .p1, 3, true, .item⟩
    c.overloadLimit = 150450 ∧ c.underloadLimit = -400 := by decide
/-- The tare of R19: a gross of 183 fine units gives 18 g, and 190 gives 20 g. -/
theorem test_tare_rounding : divRound 183 20 * 2 = 18 ∧ divRound 190 20 * 2 = 20 := by decide
/-- The prices of Table 20. -/
theorem test_prices : weighedPrice .nearest 1236 2399 1 = 2965 ∧ weighedPrice .down 1236 2399 5 = 2965
    ∧ weighedPrice .up 1236 2399 10 = 2970 ∧ weighedPrice .nearest 1236 2399 10 = 2970 := by decide
/-- The calendar of R168. -/
theorem test_calendar : (⟨2024, 2, 28⟩ : Date).plusDays 2 = ⟨2024, 3, 1⟩
    ∧ (⟨⟨2099, 12, 31⟩, ⟨23, 59, 59⟩⟩ : DateTime).clockPlus 1 = ⟨⟨2000, 1, 1⟩, ⟨0, 0, 0⟩⟩ := by decide

/-! ## Small states -/

/-- The state of a part with no command waiting. -/
def st (p : Part) : State := ⟨p, []⟩

/-- Three articles: weighed, counted, and a fixed one that is held. -/
def tea : Article := ⟨3107, .counted, 899, .nearest, 1, none, 4, [0x54], none, false, 1⟩
def ham : Article := ⟨4821, .weighed, 2399, .nearest, 5, some 8, 3, [0x48], some 3, false, 1⟩
def egg : Article := ⟨5000, .fixed, 100, .nearest, 1, none, 5, [0x45], none, true, 1⟩

/-- A counter in TRADING with three articles, two clerks, and every station present. -/
def trading : Part :=
  { State.reset.part with
    time := { State.reset.part.time with valid := true, elapsed := 5000 }
    art := { State.reset.part.art with table := [tea, ham, egg], generation := 1, confirmed := .all (some 1) }
    oc := ⟨[⟨3, .supervisor, [0x53]⟩, ⟨14, .clerk, [0x43]⟩], .all .empty⟩
    tt := { State.reset.part.tt with counter := .trading }
    ml := { State.reset.part.ml with stations := .all ⟨.present, some 4900, none, 0, [], false⟩ } }

/-- Clerk 14 at station 1, with the tea selected there. -/
def manned : Part :=
  { trading with
    oc := { trading.oc with stack := trading.oc.stack.set .s1 (.signedOn 14) }
    art := { trading.art with selections := trading.art.selections.set .s1 ⟨some 3107, 1, some 3107, none⟩ } }

/-- The same with supervisor 3 over the clerk. -/
def overridden : Part :=
  { manned with oc := { manned.oc with stack := manned.oc.stack.set .s1 (.overridden 14 3 35000) } }

/-- A line of the tea with an item label. -/
def line1 : LineFields := ⟨1, .s1, 3107, .counted 1, 4, 899, 1, 899, 899, none, some 1, none⟩

/-- An order with that line in a state. -/
def order1 (s : OrderState) (l : LineState) : Order := ⟨1, 14, s, none, .item, [⟨line1, l⟩], 899, none, none⟩

/-- A part with one order in slot 1, active at station 1 when it is OPEN there. -/
def withOrder (p : Part) (o : Order) : Part :=
  { p with om := { p.om with
      pool := some o :: List.replicate 15 none
      active := if o.state = .opened .s1 then p.om.active.set .s1 (some o.number) else p.om.active
      lastNumber := 1 } }

/-- A part whose journal is in FAULT. -/
def faultJournal (p : Part) : Part := { p with tj := { p.tj with fault := true } }

/-- A part whose writing sector is sector 0, with an append of a record in flight. -/
def appending (p : Part) (r : Record) : Part :=
  { p with tj := { p.tj with writing := some 0, writingSeq := 1, queue := [.filled r], append := some .first } }

/-- The host request of a tag reaches its block in a part that waits for nothing. -/
theorem serves_of {p : Part} (tag : Nat) (req : HostRequest)
    (h : p.inputs.resetAsserted = false ∧ p.ml.serving = none ∧ p.ml.buffer = [] ∧ p.tt.counter ≠ .starting)
    (ht : tag ≠ 0) : (st p).serves tag req :=
  ⟨⟨h.1, h.2.1, .inl h.2.2.1⟩, ht, h.2.2.2⟩

/-- A key request reaches OC in a part whose station is present, with an operator there. -/
theorem takes_of {p : Part} (x : StationNo) (tag operator : Nat)
    (h : p.inputs.resetAsserted = false ∧ p.link x = .present ∧ 1 ≤ tag ∧ tag ≤ 255
      ∧ (p.ml.stations.get x).keptTag ≠ some tag ∧ p.disabling x = false ∧ p.tt.counter ≠ .starting)
    (ho : (p.stack x).operator = some operator) : (st p).takesKeyOf x tag operator :=
  ⟨h, ho⟩

theorem trading_serves (tag : Nat) (req : HostRequest) (ht : tag ≠ 0) : (st trading).serves tag req :=
  serves_of tag req (by decide) ht

theorem manned_takes : (st manned).takesKeyOf .s1 255 14 := takes_of .s1 255 14 (by decide) (by decide)

theorem overridden_takes : (st overridden).takesKeyOf .s1 255 14 := takes_of .s1 255 14 (by decide) (by decide)

/-! ## Witnesses: the part as a whole -/

/-- The state of a part at the end of POWER_ON, with the reset input asserted. -/
def heldInReset : State :=
  st { State.reset.part with inputs := { State.reset.part.inputs with resetAsserted := true } }

theorem witness_reset_input : heldInReset.part.inputs.resetAsserted = true ∧ Instr.hello 1 ≠ .powerOn
    ∧ Instr.hello 1 ≠ .resetLine ∧ Instr.hello 1 ≠ .resetInputAsserted ∧ Instr.hello 1 ≠ .calibrationSwitchAssert
    ∧ Instr.hello 1 ≠ .calibrationSwitchRelease ∧ ∀ r, Instr.hello 1 ≠ .baudStrapChange r :=
  ⟨rfl, by decide, by decide, by decide, by decide, by decide, fun r => by cases r <;> decide⟩

theorem witness_resets : (st trading).runs ∧ (255 : Nat) ≠ 0 ∧ trading.quiet
    ∧ (∃ t, exec .powerOn (st trading) = .next t) ∧ (∃ t, exec .resetLine (st trading) = .next t)
    ∧ ∃ t, exec (.resetPart 255) (st trading) = .next t :=
  ⟨rfl, by decide, ⟨rfl, rfl, fun g todo later h => by cases h⟩, ⟨_, rfl⟩, ⟨_, rfl⟩, ⟨_, rfl⟩⟩

/-- A record of a line, and a day close. -/
def lineRecord : Record := .line 1 14 line1
def dayOne : DayClose := ⟨1, digestOf .zero ⟨0, 0⟩, 0, 0, 0, none⟩

/-- A sector with a day close and a PRICE_APPLY, and behind them a record whose check fails; and the sector that is then passed
over. -/
def readSector : Sector :=
  ⟨.inUse, some 1, [.of (.dayClose dayOne), .of (.priceApply 2 [.hold 3107] none)], some (.cut lineRecord 0), false⟩
def passedSector : Sector := ⟨.sealed, some 2, [.of lineRecord], none, false⟩

/-- The part before the end of a start-up scan that finds them. -/
def surveying : Part :=
  { State.reset.part with nv := { State.reset.part.nv with
      sectors := readSector :: passedSector :: List.replicate 30 .blank } }

theorem reads_early : readSectors (journalSectors (surveyed surveying.nv.sectors))
    = ⟨[], some ⟨0, { readSector with torn := none }⟩, [⟨1, passedSector⟩]⟩ := by
  have h : journalSectors (surveyed surveying.nv.sectors) = [⟨0, readSector⟩, ⟨1, passedSector⟩] := rfl
  have good : ∀ x ∈ readSector.records, x.agrees = true := by simp [readSector]
  have cut := Sector.scanned_cut (s := readSector) good rfl
  rw [h, readSectors]
  simp only [cut.1, Indexed.scanned]
  have : readSector.scanned = { readSector with torn := none } := by
    have := cut.2
    unfold Sector.scanned at this ⊢
    simp only at this
    rw [this]
  simp [this]

/-- A scan that ends early, with a PRICE_APPLY to roll forward; and one that finds no record. -/
theorem witness_scan_end : (st surveying).runs ∧ surveying.tt.counter = .starting
    ∧ (readSectors (journalSectors (surveyed surveying.nv.sectors))).failed
      = some ⟨0, { readSector with torn := none }⟩
    ∧ (∀ y ∈ (readSectors (journalSectors (surveyed surveying.nv.sectors))).passedOver, y.index ≠ 0)
    ∧ unstored (readSectors (journalSectors (surveyed surveying.nv.sectors))).records = [⟨2, [.hold 3107]⟩]
    ∧ (readSectors (journalSectors (surveyed State.reset.part.nv.sectors))).failed = none := by
  rw [reads_early]
  exact ⟨rfl, rfl, rfl, by simp, rfl, rfl⟩

/-- Of the two sectors that the scan seals none fails, the second one fails, or both do, when the second, sealed last, gives the
detail. The article area is in ascending number, and no condition is latched before. -/
theorem witness_failed_seals : surveying.Ascending
    ∧ (let toSeal (failed : List Nat) := ((⟨0, { readSector with torn := none }⟩ :: [⟨1, passedSector⟩] : List Indexed).filter
        (fun y => decide (y.index ∈ failed ∧ y.sector.mark ≠ .bad))).getLast?
      toSeal [] = none ∧ toSeal [0] = some ⟨0, { readSector with torn := none }⟩
      ∧ toSeal [1] = some ⟨1, passedSector⟩ ∧ toSeal [0, 1] = some ⟨1, passedSector⟩)
    ∧ (surveying.ml.latches.get .storeFault).flag = false ∧ surveying.ml.enables.get .storeFault = true
    ∧ surveying.ml.notices = [] :=
  ⟨⟨by decide, by decide⟩, ⟨rfl, rfl, rfl, rfl⟩, rfl, rfl, rfl⟩

/-- A sector that is read to its end, and one that is read up to the record whose check fails. -/
theorem witness_scan_reads : (∀ y ∈ readSector.records, y.check = crc16 (Config.recordContent y.record))
    ∧ passedSector.records ++ passedSector.torn.toList = [.of lineRecord]
    ∧ readSector.records ++ readSector.torn.toList = readSector.records ++ .cut lineRecord 0 :: []
    ∧ (Stored.cut lineRecord 0).check ≠ crc16 (Config.recordContent (Stored.cut lineRecord 0).record) := by
  refine ⟨by simp [readSector, Stored.of, Record.check], rfl, rfl, fun h => ?_⟩
  exact of_decide_eq_false (Stored.cut_disagrees lineRecord 0) h

/-- Numbers met on both sides of the wrap, and none; and records without a DAY_CLOSE and without a PRICE_APPLY. -/
theorem witness_farthest : (9998 : Nat) ≤ 9999 ∧ (∀ n ∈ [1, 9999], 1 ≤ n ∧ n ≤ 9999) ∧ farthest 9999 9998 [1, 9999] = 1
    ∧ farthest 9999 9999 [] = 9999 ∧ (∀ x, Record.dayClose x ∉ [lineRecord])
    ∧ ∀ g es t, Record.priceApply g es t ∉ [lineRecord] :=
  ⟨by decide, by decide, by decide, by decide, by simp [lineRecord], by simp [lineRecord]⟩

/-! ## Witnesses: host port -/

/-- The check of the bytes 9 and 1. -/
def goodCheck : BitVec 16 := crc16 [9, 1]

/-- A frame whose check agrees, of a length and a meaning. -/
def frame (n : Byte) (m : FrameMeaning) : WireFrame := ⟨n, 9, 1, [], goodCheck, m, 4950⟩

/-- A part with a number of frames in its input buffer. -/
def buffered (n : Nat) : Part :=
  { trading with ml := { trading.ml with buffer := List.replicate n ⟨1, .request .hello⟩ } }

/-- A frame whose check does not agree. -/
def badFrame : WireFrame := { frame 240 (.request .hello) with check := goodCheck + 1 }

theorem check_differs (x : BitVec 16) : x ≠ x + 1 := by bv_omega

theorem frame_body (n : Byte) (m : FrameMeaning) : (frame n m).body = [] := by simp only [frame]
theorem frame_check (n : Byte) (m : FrameMeaning) : (frame n m).check = goodCheck := by simp only [frame]

theorem witness_frame_check (m : FrameMeaning) : crc16 (9 :: 1 :: (frame 240 m).body) = (frame 240 m).check := by
  rw [frame_body, frame_check, goodCheck]

theorem badFrame_body : badFrame.body = [] := by simp only [badFrame, frame]
theorem badFrame_check : badFrame.check = goodCheck + 1 := by simp only [badFrame]

theorem witness_frame_bad_check : crc16 (9 :: 1 :: badFrame.body) ≠ badFrame.check := by
  rw [badFrame_body, badFrame_check, ← goodCheck]
  exact check_differs goodCheck

theorem witness_frames : (st (buffered 3)).runs ∧ 240 < (frame 241 (.request .hello)).length.toNat
    ∧ (frame 240 (.request .hello)).length.toNat ≤ 240 ∧ badFrame.length.toNat ≤ 240
    ∧ (frame 240 (.request .resetPart)).meaning = .request .resetPart
    ∧ (frame 240 (.request .hello)).meaning ≠ .request .resetPart
    ∧ (buffered 3).ml.buffer.length < 4 ∧ 4 ≤ (buffered 4).ml.buffer.length := ⟨rfl, by decide⟩

/-- A frame whose start byte came 50 ms ago, and one a millisecond before; and a receiver that hunts since 5 s or since now. -/
theorem witness_frame_times : max (frame 240 (.request .hello)).startAt trading.ml.receiver.mark + 50 = trading.time.elapsed
    ∧ trading.time.elapsed ≤ max 4950 trading.ml.receiver.mark + 50
    ∧ max 4949 trading.ml.receiver.mark + 50 < trading.time.elapsed
    ∧ trading.ml.receiver.mark + 50 < trading.time.elapsed ∧ (Part.hunt trading).ml.receiver.mark = trading.time.elapsed := by
  decide

theorem witness_bad_frames : (st trading).runs ∧ trading.ml.serving = none ∧ trading.ml.buffer = []
    ∧ (buffered 4).ml.buffer.head? = some ⟨1, .request .hello⟩
    ∧ ((⟨0, .request .hello⟩ : Frame).tag = 0) ∧ (⟨1, .notARequest 9⟩ : Frame).meaning = .notARequest 9
    ∧ (⟨1, .wrongBody 9⟩ : Frame).meaning = .wrongBody 9 ∧ (⟨1, .wrongResetBody⟩ : Frame).meaning = .wrongResetBody :=
  ⟨rfl, by decide⟩

/-- A part in which the reply to a request waits for its settings-area write. -/
def writing (w : HeldWrite) : Part := { trading with ml := { trading.ml with serving := some ⟨7, .readClose, w⟩ } }

theorem witness_busy_requests : (Instr.readClose 1).hostRequest? = some (1, .readClose)
    ∧ State.reset.dispatches 1 .readClose ∧ State.reset.part.tt.counter = .starting
    ∧ HostRequest.readClose ≠ .hello ∧ HostRequest.readClose ≠ .status
    ∧ (writing (.removeClerk 14)).ml.serving ≠ none :=
  ⟨rfl, ⟨rfl, rfl, .inl rfl⟩, rfl, by decide, by decide, by decide⟩

/-- A part with a latched condition whose notice waits. -/
def noticed : Part := Part.latch trading .dayClosed (some (.dayDone 1))

theorem witness_notices : (st noticed).runs ∧ noticed.ml.notices = [.dayClosed] ∧ noticed.tt.counter ≠ .starting
    ∧ (Part.latch State.reset.part .dayClosed none).ml.notices = [.dayClosed]
    ∧ (trading.ml.latches.get .dayClosed).flag = false ∧ trading.ml.enables.get .dayClosed = true
    ∧ Condition.dayClosed ∉ trading.ml.notices ∧ (noticed.ml.latches.get .dayClosed).flag = true
    ∧ Condition.stationLost ≠ .dayClosed := ⟨rfl, by decide⟩

theorem witness_hello_status : State.reset.dispatches 1 .hello ∧ State.reset.dispatches 1 .status
    ∧ (st trading).dispatches 1 .status :=
  ⟨⟨rfl, rfl, .inl rfl⟩, ⟨rfl, rfl, .inl rfl⟩, ⟨rfl, rfl, .inl rfl⟩⟩

theorem witness_conditions : (∀ r, (st trading).serves 1 r) ∧ ([none] : List (Option Condition)).contains none
    ∧ [Condition.dayClosed] ≠ [] := ⟨fun r => trading_serves 1 r (by decide), by decide, by decide⟩

/-! ## Witnesses: settings and reading -/

theorem witness_set_station : (∀ r, (st trading).serves 255 r) ∧ StationNo.ofNumber 9 = none
    ∧ StationNo.ofNumber 0 = none ∧ StationNo.ofNumber 8 = some .s8 ∧ PrinterNo.ofNumber 5 = none
    ∧ PrinterNo.ofNumber 4 = some .p4 ∧ (manned.config .s1).enabled = true
    ∧ ((st manned).part.stack .s1).operator ≠ none ∧ ((st trading).part.stack .s1).operator = none
    ∧ (20 ≤ 20 ∧ 29 ≤ 29 ∧ (20 : Nat) ≠ 29) ∧ ¬ (20 ≤ 19) :=
  ⟨fun r => trading_serves 255 r (by decide), by decide, by decide, by decide, by decide, by decide, by decide, by decide,
    by decide, by decide, by decide⟩

/-- The same station's configuration with the depth code 2, or disabled. -/
def shallow : StationConfig := ⟨true, .p1, 2, true, .item⟩
def disabled : StationConfig := ⟨false, .p1, 3, true, .item⟩

theorem witness_set_station_end :
    (writing (.setStation .s1 shallow)).ml.serving = some ⟨7, .readClose, .setStation .s1 shallow⟩
    ∧ (writing (.setStation .s1 disabled)).ml.serving = some ⟨7, .readClose, .setStation .s1 disabled⟩
    ∧ (trading.wc.get .s1).config.enabled = true ∧ disabled.enabled = false ∧ shallow.enabled = true
    ∧ (trading.wc.get .s1).config.depthCode ≠ shallow.depthCode
    ∧ (trading.wc.get .s1).config.depthCode = disabled.depthCode
    ∧ (writing (.setPrefixes 20 29)).ml.serving = some ⟨7, .readClose, .setPrefixes 20 29⟩ := by decide

theorem witness_reads : (Instr.readAudit 1 128).hostRequest? = some (1, .readAudit 128)
    ∧ (st trading).serves 1 (.readAudit 128) := ⟨rfl, trading_serves 1 _ (by decide)⟩

theorem witness_read_station : (st overridden).serves 1 (.readStation 1) ∧ StationNo.ofNumber 1 = some .s1
    ∧ StationNo.ofNumber 8 = some .s8 ∧ overridden.oc.stack.get .s1 = .overridden 14 3 35000
    ∧ (∀ c x d, overridden.oc.stack.get .s2 ≠ .overridden c x d) :=
  ⟨serves_of 1 _ (by decide) (by decide), by decide, by decide, by decide, fun _ _ _ h => nomatch h⟩

theorem witness_read_article : (trading.art.table.map Article.number).Pairwise (· < ·)
    ∧ (∀ r, (st trading).serves 1 r) ∧ tea ∈ trading.art.table ∧ egg ∈ trading.art.table
    ∧ (∀ a ∈ trading.art.table, a.number ≠ 99999) ∧ (∀ a ∈ trading.art.table, a.number ≤ 99999)
    ∧ (st trading).serves 255 (.readArticle 99999 none)
    ∧ 0 < tea.number ∧ ∀ b ∈ trading.art.table, 0 < b.number → tea.number ≤ b.number :=
  ⟨by decide, fun r => trading_serves 1 r (by decide), by decide, by decide, by decide, by decide,
    trading_serves 255 _ (by decide), by decide, by decide⟩

/-- An audit entry of station 8. -/
def entry1 : AuditEntry := ⟨1, .s8, [.zcal], .default, { CalRecord.default with zcal := 120000 }, none, 0⟩

/-- A part with a day close in its journal, a recovery report and two audit entries, one of them DAMAGED. -/
def recovered : Part :=
  { trading with
    nv := { trading.nv with
      sectors := ⟨.inUse, some 1, [.of (.dayClose dayOne)], none, false⟩ :: List.replicate 31 .blank
      audit := [.damaged, .written entry1]
      auditCounter := 2 }
    tt := { trading.tt with report := some ⟨.powerOn, none, [⟨1, 14, [], 0⟩], false⟩ } }

theorem witness_replies : (∀ r, (st recovered).serves 1 r)
    ∧ (sinceClose (journalRecords recovered.nv.sectors)).1 = some dayOne
    ∧ recovered.tt.report = some ⟨.powerOn, none, [⟨1, 14, [], 0⟩], false⟩
    ∧ recovered.nv.audit[1 - 1]? = some .damaged ∧ recovered.nv.audit[2 - 1]? = some (.written entry1)
    ∧ 2 ≤ recovered.nv.auditCounter ∧ recovered.nv.auditCounter < 3 ∧ 2049 < (2050 : Nat) :=
  ⟨fun r => serves_of 1 r (by decide) (by decide), by rfl, rfl, rfl, rfl, by decide, by decide, by decide⟩

/-- A journal without a day close, and one that goes on after a day close with a PRICE_APPLY and a line. -/
def unclosed : List Sector := ⟨.inUse, some 1, [.of lineRecord], none, false⟩ :: List.replicate 31 .blank
def walked : Part :=
  { trading with nv := { trading.nv with sectors :=
      ⟨.inUse, some 1, [.of lineRecord, .of (.dayClose dayOne), .of (.priceApply 2 [.hold 3107] none)], none, false⟩
        :: ⟨.inUse, some 2, [.of lineRecord], none, false⟩ :: List.replicate 30 .blank } }

theorem witness_journal_walk : (∀ i e, (st walked).serves 1 (.readJournal i e))
    ∧ journalRecords unclosed = [lineRecord] ∧ (∀ d, Record.dayClose d ∉ [lineRecord])
    ∧ journalRecords walked.nv.sectors = [lineRecord] ++ .dayClose dayOne :: [.priceApply 2 [.hold 3107] none, lineRecord]
    ∧ (∀ d, Record.dayClose d ∉ [Record.priceApply 2 [.hold 3107] none, lineRecord])
    ∧ (∀ e, (some 64 : Option Nat) = some e → 1 ≤ e ∧ e ≤ 64) ∧ (∀ e, (none : Option Nat) = some e → 1 ≤ e ∧ e ≤ 64) :=
  ⟨fun _ _ => serves_of 1 _ ⟨rfl, rfl, rfl, fun h => nomatch h⟩ (by decide), rfl, by simp [lineRecord], rfl,
    by simp [lineRecord], by simp, by simp⟩

/-- Two orders in descending order of number, and the positions of ARTICLES at the end of a map of 20. -/
theorem witness_lists : ([{ order1 .parked .active with number := 9999 }, order1 .parked .active].map Order.number).Nodup
    ∧ (1 : Nat) + 19 ≤ 20 ∧ ((21 : Nat) ≤ 20 + 1 ∧ 20 < (21 : Nat) + 19) ∧ 20 + 1 < (22 : Nat) := by decide

theorem witness_read_close : (st trading).serves 1 .readClose := trading_serves 1 _ (by decide)

/-! ## Witnesses: price generations -/

/-- A part whose change set is in a phase. -/
def withSet (c : ChangeSet) (scheduled : Option DateTime) : Part :=
  { trading with
    art := { trading.art with changeSet := c }
    tt := { trading.tt with scheduled := scheduled } }

/-- An OPEN set on a base generation. -/
def editing (base : Nat) (es : List ChangeEntry) : Part := withSet (.opened base es 4000) none

/-- A part whose store-back is in a phase. -/
def storing (b : StoreBack) : Part := { trading with art := { trading.art with storeBack := b } }

theorem editing_serves (base : Nat) (es : List ChangeEntry) (r : HostRequest) : (st (editing base es)).serves 1 r :=
  serves_of 1 r ⟨rfl, rfl, rfl, fun h => nomatch h⟩ (by decide)

theorem storing_serves (b : StoreBack) (r : HostRequest) : (st (storing b)).serves 1 r :=
  serves_of 1 r ⟨rfl, rfl, rfl, fun h => nomatch h⟩ (by decide)

theorem witness_begin_change : (∀ b r, (st (storing b)).serves 1 r) ∧ (∀ r, (st (editing 1 [])).serves 1 r)
    ∧ (editing 1 []).art.changeSet ≠ .none ∧ (storing (.owed 1)).art.storeBack = .owed 1
    ∧ (storing (.storing 1 .queued [])).art.storeBack = .storing 1 .queued []
    ∧ (storing .idle).art.changeSet = .none ∧ (storing .idle).art.storeBack = .idle ∧ (storing .idle).art.generation = 1
    ∧ (2 : Nat) ≠ 1 :=
  ⟨storing_serves, editing_serves 1 [], by decide⟩

/-- The fields of a new weighed article, and the same with the price 0. -/
def newFields : ArticleFields := ⟨99999, some .weighed, 99999, some .up, 10, some 1, 16, [0x7E], some 99, false⟩
def badFields : ArticleFields := { newFields with unitPrice := 0 }

/-- A set with 64 entries. -/
def fullSet : List ChangeEntry := (List.range 64).map (fun n => .delete (n + 10000))

/-- An OPEN set beside a table of 2,000 records. -/
def fullTable : Part := { editing 1 [] with art := { (editing 1 []).art with table := List.replicate 2000 tea } }

theorem fullTable_count : (fullTable.art.table.length + ([] : List ChangeEntry).length) = 2000 := by
  simp only [fullTable, List.length_replicate, List.length_nil]

theorem fullTable_numbers : ¬ ∃ b ∈ fullTable.art.table, b.number = 99999 := by
  rintro ⟨b, hb, h⟩
  rw [List.eq_of_mem_replicate hb] at h
  exact absurd h (by decide)

/-- Room and no room in the set and in the table, for an article of the table and for one that is not there. -/
theorem witness_staged : (∀ es, (editing 1 es).art.changeSet = .opened 1 es 4000)
    ∧ (∀ es r, (st (editing 1 es)).serves 1 r) ∧ (articleOf newFields).map Article.number = some 99999
    ∧ articleOf badFields = none ∧ (∃ b ∈ (editing 1 []).art.table, b.number = 3107)
    ∧ (¬ ∃ b ∈ (editing 1 []).art.table, b.number = 99999) ∧ (editing 1 []).art.table.length < 2000
    ∧ fullSet.length = 64 ∧ (∀ e ∈ fullSet, e.number ≠ 3107) ∧ (∀ e ∈ fullSet, e.number ≠ 99999)
    ∧ (∀ r, (st fullTable).serves 1 r) :=
  ⟨fun _ => rfl, editing_serves 1, by decide, by decide, by decide, by decide, by decide, by decide, by decide, by decide,
    fun _ => serves_of 1 _ ⟨rfl, rfl, rfl, fun h => nomatch h⟩ (by decide)⟩

/-- A staged request in each phase that is not OPEN. -/
theorem witness_staged_phases : (Instr.stageHold 1 3107).hostRequest? = some (1, .stageHold 3107)
    ∧ (∀ c m, (st (withSet c m)).serves 1 (.stageHold 3107)) ∧ (withSet .none none).art.changeSet = .none
    ∧ (withSet (.scheduled 1 [.hold 3107] ⟨9, 0, 0⟩) none).art.changeSet.phase = .scheduled
    ∧ (withSet (.applying 1 [.hold 3107] none) none).art.changeSet.phase = .applying :=
  ⟨rfl, fun _ _ => serves_of 1 _ ⟨rfl, rfl, rfl, fun h => nomatch h⟩ (by decide), rfl, rfl, rfl⟩

/-- The fields of a WEIGHED and of a COUNTED record, and one field out of its range each. -/
theorem test_article_fields :
    articleOf newFields = some ⟨99999, .weighed, 99999, .up, 10, some 1, 16, [0x7E], some 99, false, 0⟩
    ∧ articleOf { newFields with kind := some .counted, step := 3, presetTare := some 100000 }
      = some ⟨99999, .counted, 99999, .nearest, 1, none, 16, [0x7E], some 99, false, 0⟩
    ∧ articleOf { newFields with step := 3 } = none ∧ articleOf { newFields with presetTare := some 100000 } = none
    ∧ articleOf { newFields with rounding := none } = none ∧ articleOf { newFields with shelfLife := some 100 } = none
    ∧ articleOf { newFields with name := [0x7F] } = none ∧ articleOf { newFields with department := 17 } = none := by decide

theorem witness_discard : (∀ c m, (st (withSet c m)).serves 1 .discardChange)
    ∧ (withSet (.opened 1 [] 4000) none).art.changeSet = .opened 1 [] 4000
    ∧ (withSet (.scheduled 1 [.hold 3107] ⟨9, 0, 0⟩) none).art.changeSet = .scheduled 1 [.hold 3107] ⟨9, 0, 0⟩
    ∧ (withSet (.applying 1 [.hold 3107] none) none).art.changeSet = .applying 1 [.hold 3107] none
    ∧ (withSet .none none).art.changeSet = .none :=
  ⟨fun _ _ => serves_of 1 _ ⟨rfl, rfl, rfl, fun h => nomatch h⟩ (by decide), rfl, rfl, rfl, rfl⟩

theorem witness_change_status_phases : (∀ c m, (st (withSet c m)).serves 1 .changeStatus)
    ∧ (∀ b es t, (withSet .none none).art.changeSet ≠ .opened b es t)
    ∧ (∀ b es t, (withSet (.scheduled 1 [.hold 3107] ⟨9, 0, 0⟩) none).art.changeSet ≠ .opened b es t)
    ∧ ∀ b es t, (withSet (.applying 1 [.hold 3107] none) none).art.changeSet ≠ .opened b es t :=
  ⟨fun _ _ => serves_of 1 _ ⟨rfl, rfl, rfl, fun h => nomatch h⟩ (by decide), (fun _ _ _ h => nomatch h),
    (fun _ _ _ h => nomatch h), fun _ _ _ h => nomatch h⟩

theorem witness_change_status : (editing 1 [.hold 3107]).art.changeSet = .opened 1 [.hold 3107] 4000
    ∧ (st (editing 1 [.hold 3107])).serves 1 .changeStatus ∧ (st (editing 1 [.hold 3107])).runs
    ∧ (editing 1 [.hold 3107]).time.elapsed ≤ 4000 + 60000 :=
  ⟨rfl, editing_serves 1 _ _, rfl, by decide⟩

/-- The same with the clock not set. -/
def unset : Part := { editing 1 [.hold 3107] with time := { trading.time with valid := false } }

theorem witness_applies : (∀ b, (editing b [.hold 3107]).art.changeSet = .opened b [.hold 3107] 4000)
    ∧ (∀ b r, (st (editing b [.hold 3107])).serves 1 r) ∧ [ChangeEntry.hold 3107] ≠ [] ∧ (2 : Nat) ≠ trading.art.generation
    ∧ 1 = trading.art.generation ∧ (editing 1 [.hold 3107]).journalCheck (64 + 49 * 1) 2 = .ok ()
    ∧ (st unset).serves 1 (.applyAt 23 59 59) ∧ unset.time.valid = false ∧ trading.time.valid = true :=
  ⟨fun _ => rfl, fun b r => editing_serves b _ r, by decide, by decide, rfl, rfl,
    serves_of 1 _ (by decide) (by decide), rfl, rfl⟩

/-- An OPEN set at the last generation, and one whose journal is in FAULT. -/
def lastGeneration : Part :=
  { editing 4294967295 [.hold 3107] with art := { (editing 4294967295 [.hold 3107]).art with generation := 4294967295 } }
def faultyJournal : Part := { editing 1 [.hold 3107] with tj := { trading.tj with fault := true } }

theorem witness_apply_refusals : (∀ r, (st lastGeneration).serves 1 r) ∧ 4294967295 ≤ lastGeneration.art.generation
    ∧ lastGeneration.art.changeSet = .opened lastGeneration.art.generation [.hold 3107] 4000
    ∧ (∀ r, (st faultyJournal).serves 1 r) ∧ faultyJournal.journalCheck (64 + 49 * 1) 2 = .error .storeFault
    ∧ (editing 1 []).art.changeSet = .opened 1 [] 4000 ∧ ¬ ((24 : Nat) ≤ 23)
    ∧ (∀ c m r, (st (withSet c m)).serves 1 r) ∧ (withSet (.applying 1 [] none) none).art.changeSet.phase = .applying
    ∧ (Instr.applyAt 1 23 59 59).hostRequest? = some (1, .applyAt 23 59 59)
    ∧ (Instr.applyNow 1).hostRequest? = some (1, .applyNow) :=
  ⟨fun r => serves_of 1 r (by decide) (by decide), by decide, rfl, fun r => serves_of 1 r (by decide) (by decide), rfl, rfl,
    by decide, fun _ _ _ => serves_of 1 _ ⟨rfl, rfl, rfl, fun h => nomatch h⟩ (by decide), rfl, rfl, rfl⟩

/-- A scheduled set, with the journal in a state. -/
def scheduled (j : Journal → Journal) : Part :=
  { withSet (.scheduled 1 [.hold 3107] ⟨9, 0, 0⟩) (some ⟨⟨2000, 1, 1⟩, ⟨9, 0, 0⟩⟩) with tj := j trading.tj }

/-- A write queue whose eight places are held. -/
def eightHeld : List Place := List.replicate 8 (.held 1 .sale)

/-- The sectors of a part whose journal has no ERASED sector. -/
def fullSectors : List Sector := (List.range 32).map (fun n => ⟨.inUse, some (n + 1), [], none, false⟩)

/-- A scheduled set with no ERASED sector. -/
def crowded : Part := { scheduled id with nv := { trading.nv with sectors := fullSectors } }

theorem witness_scheduled : (∀ j, (st (scheduled j)).runs)
    ∧ (∀ j, (scheduled j).art.changeSet = .scheduled 1 [.hold 3107] ⟨9, 0, 0⟩)
    ∧ (∀ j, (scheduled j).tt.scheduled = some ⟨⟨2000, 1, 1⟩, ⟨9, 0, 0⟩⟩)
    ∧ (scheduled (fun j => { j with fault := true })).tj.fault = true
    ∧ crowded.tj.fault = false ∧ crowded.hasSpace (64 + 49 * 1) 2 = false ∧ (scheduled id).hasPlace = true
    ∧ (scheduled id).hasSpace (64 + 49 * 1) 2 = true
    ∧ (scheduled (fun j => { j with queue := eightHeld })).hasSpace (64 + 49 * 1) 2 = true
    ∧ (scheduled (fun j => { j with queue := eightHeld })).hasPlace = false :=
  ⟨fun _ => rfl, fun _ => rfl, fun _ => rfl, rfl, rfl, by decide, by decide, by decide, by decide, by decide⟩

theorem witness_set_clock : (∀ r, (st (scheduled id)).serves 1 r)
    ∧ validDateTime 2099 12 31 23 59 59 = true ∧ validDateTime 2000 1 1 0 0 0 = true ∧ validDateTime 2001 2 29 0 0 0 = false
    ∧ (⟨⟨2000, 1, 1⟩, ⟨9, 0, 0⟩⟩ : DateTime).seconds ≤ (⟨⟨2099, 12, 31⟩, ⟨23, 59, 59⟩⟩ : DateTime).seconds
    ∧ (⟨⟨2000, 1, 1⟩, ⟨0, 0, 0⟩⟩ : DateTime).seconds < (⟨⟨2000, 1, 1⟩, ⟨9, 0, 0⟩⟩ : DateTime).seconds
    ∧ (scheduled id).art.changeSet = .scheduled 1 [.hold 3107] ⟨9, 0, 0⟩ :=
  ⟨fun r => serves_of 1 r (by decide) (by decide), by decide⟩

/-- A clock at each edge of its carry, the position inside the present second at either end. -/
def clockAt (y mo d h mi s phase : Nat) : TimeBase := ⟨5000, ⟨⟨y, mo, d⟩, ⟨h, mi, s⟩⟩, true, phase⟩

theorem witness_clock : (∀ x ∈ [clockAt 2000 1 1 0 0 0 0, clockAt 2000 1 1 0 0 58 999, clockAt 2000 1 1 0 58 59 0,
      clockAt 2000 1 1 22 59 59 0, clockAt 2096 2 28 23 59 59 0, clockAt 2096 2 29 23 59 59 0, clockAt 2097 2 28 23 59 59 0,
      clockAt 2000 11 30 23 59 59 0, clockAt 2098 12 31 23 59 59 999, clockAt 2099 12 31 23 59 59 0],
      1 ≤ x.clock.date.day ∧ x.clock.date.day ≤ daysOfMonth x.clock.date.year x.clock.date.month)
    ∧ (clockAt 2099 12 31 23 59 59 999).Runs ∧ (clockAt 2096 2 29 23 59 59 0).Runs ∧ (clockAt 2000 1 1 0 0 0 0).Runs
    ∧ 999 + 0 < 1000 ∧ 1000 ≤ 999 + 1 ∧ 999 + 1000 < 2000 ∧ 0 + 999 < 1000 ∧ 1000 ≤ 0 + 1000 :=
  ⟨by decide, ⟨⟨by decide, by decide, by decide, by decide⟩, by decide⟩, ⟨⟨by decide, by decide, by decide, by decide⟩, by decide⟩,
    ⟨⟨by decide, by decide, by decide, by decide⟩, by decide⟩, by decide⟩

/-- Leap years are those divisible by 4, and 2099 is followed by 2000 (R168). -/
theorem test_clock_dates : ((clockAt 2096 2 28 23 59 59 999).advance 1).clock = ⟨⟨2096, 2, 29⟩, ⟨0, 0, 0⟩⟩
    ∧ ((clockAt 2097 2 28 23 59 59 999).advance 1).clock = ⟨⟨2097, 3, 1⟩, ⟨0, 0, 0⟩⟩
    ∧ ((clockAt 2099 12 31 23 59 59 0).advance 1000).clock = ⟨⟨2000, 1, 1⟩, ⟨0, 0, 0⟩⟩ := by decide

/-- A moment that is fixed while no set is SCHEDULED. -/
def unscheduled : Part := { scheduled id with art := trading.art }

/-- SET CLOCK past the moment in FAULT, without space, with a place, with none free, and with no SCHEDULED set. -/
theorem witness_set_clock_reports : (∀ j r, (st (scheduled j)).serves 1 r) ∧ (∀ r, (st crowded).serves 1 r)
    ∧ (scheduled (fun j => { j with fault := true })).taken.tj.fault = true
    ∧ crowded.taken.tj.fault = false ∧ crowded.taken.hasSpace (64 + 49 * 1) 2 = false
    ∧ (scheduled id).taken.tj.fault = false ∧ (scheduled id).taken.hasSpace (64 + 49 * 1) 2 = true
    ∧ (scheduled id).taken.hasPlace = true
    ∧ (scheduled (fun j => { j with queue := eightHeld })).taken.hasSpace (64 + 49 * 1) 2 = true
    ∧ (scheduled (fun j => { j with queue := eightHeld })).taken.hasPlace = false
    ∧ (∀ r, (st unscheduled).serves 1 r) ∧ unscheduled.taken.tt.scheduled = some ⟨⟨2000, 1, 1⟩, ⟨9, 0, 0⟩⟩
    ∧ ∀ b es m, unscheduled.taken.art.changeSet ≠ .scheduled b es m :=
  ⟨fun _ _ => serves_of 1 _ ⟨rfl, rfl, rfl, fun h => nomatch h⟩ (by decide),
    fun _ => serves_of 1 _ ⟨rfl, rfl, rfl, fun h => nomatch h⟩ (by decide), rfl, rfl, by decide, rfl, by decide, by decide,
    by decide, by decide, fun _ => serves_of 1 _ ⟨rfl, rfl, rfl, fun h => nomatch h⟩ (by decide), rfl, fun _ _ _ h => nomatch h⟩

/-! ## Witnesses: operators -/

/-- A part with 32 clerks, numbers 1 to 32, and nobody signed on. -/
def crew : Part :=
  { trading with oc := ⟨(List.range 32).map (fun n => ⟨n + 1, .clerk, [0x41]⟩), .all .empty⟩ }

theorem witness_clerk_table : (∀ r, (st trading).serves 1 r) ∧ (∀ r, (st crew).serves 1 r)
    ∧ (∀ r, (st manned).serves 1 r) ∧ (∃ c ∈ trading.oc.clerks, c.number = 14)
    ∧ (¬ ∃ c ∈ trading.oc.clerks, c.number = 99) ∧ trading.oc.clerks.length < 32 ∧ 32 ≤ crew.oc.clerks.length
    ∧ (¬ ∃ c ∈ crew.oc.clerks, c.number = 99) ∧ (manned.stack .s1).operator = some 14
    ∧ (∀ st, (trading.stack st).operator = none) ∧ trading.om.orders = []
    ∧ (writing (.setClerk ⟨99, .clerk, [0x41]⟩)).ml.serving = some ⟨7, .readClose, .setClerk ⟨99, .clerk, [0x41]⟩⟩
    ∧ (writing (.removeClerk 14)).ml.serving = some ⟨7, .readClose, .removeClerk 14⟩ :=
  ⟨fun r => trading_serves 1 r (by decide), fun r => serves_of 1 r (by decide) (by decide),
    fun r => serves_of 1 r (by decide) (by decide), by decide, by decide, by decide, by decide, by decide, by decide,
    fun x => by cases x <;> rfl, rfl, rfl, rfl⟩

/-- Each BAD_VALUE of the clerk requests at its boundary, with everything else in range. -/
theorem witness_clerk_values : (∀ r, (st trading).serves 255 r) ∧ (99 : Nat) < 100 ∧ 12 < (List.replicate 13 (0x7E : Byte)).length
    ∧ (∃ c ∈ ([0x1F] : Text), c.toNat < 0x20 ∨ 0x7E < c.toNat) ∧ (∃ c ∈ ([0x7F] : Text), c.toNat < 0x20 ∨ 0x7E < c.toNat)
    ∧ (∀ c ∈ ([0x20, 0x7E] : Text), ¬ (c.toNat < 0x20 ∨ 0x7E < c.toNat)) :=
  ⟨fun r => trading_serves 255 r (by decide), by decide, by decide, by decide, by decide, by decide⟩

/-- The state of `manned` with an order of clerk 14 in slot 1. -/
def selling : Part := withOrder manned (order1 (.opened .s1) .active)
/-- The same under supervisor 3. -/
def supervised : Part := withOrder overridden (order1 (.opened .s1) .active)

theorem selling_takes : (st selling).takesKeyOf .s1 255 14 := takes_of .s1 255 14 (by decide) (by decide)
theorem supervised_takes : (st supervised).takesKeyOf .s1 255 14 := takes_of .s1 255 14 (by decide) (by decide)

theorem witness_sign_on : (st manned).takesKey .s2 1 ∧ manned.oc.stack.get .s2 = .empty
    ∧ (∃ c ∈ manned.oc.clerks, c.number = 3) ∧ manned.removing 3 = false ∧ (∀ x, (manned.stack x).operator ≠ some 3)
    ∧ (manned.stack .s1).operator = some 14 ∧ (∃ c ∈ manned.oc.clerks, c.number = 14) ∧ manned.removing 14 = false
    ∧ (st selling).takesKeyOf .s1 255 14 ∧ selling.activeOrder .s1 = some (order1 (.opened .s1) .active)
    ∧ manned.om.active.get .s1 = none ∧ (∀ r, (st selling).serves 1 r)
    ∧ ∀ x, x ≠ .s1 → (selling.stack x).operator ≠ some 14 :=
  ⟨⟨rfl, by decide⟩, by decide, by decide, by decide, fun x => by cases x <;> decide, by decide, by decide, by decide,
    selling_takes, by decide, by decide, fun r => serves_of 1 r (by decide) (by decide),
    fun x => by cases x <;> decide⟩

/-- SIGN ON at a stack with an operator, and SIGN OFF CLERK of a number out of range and of a clerk that is not in the table. -/
theorem witness_sign_refusals : (st manned).takesKeyOf .s1 255 14 ∧ (st overridden).takesKeyOf .s1 255 14
    ∧ (∀ r, (st manned).serves 1 r) ∧ (99 : Nat) < 100 ∧ (∀ c ∈ manned.oc.clerks, c.number ≠ 1)
    ∧ (∀ c ∈ manned.oc.clerks, c.number ≠ 99) :=
  ⟨manned_takes, overridden_takes, fun r => serves_of 1 r (by decide) (by decide), by decide, by decide, by decide⟩

theorem witness_override : (st manned).takesKey .s1 255 ∧ manned.oc.stack.get .s1 = .signedOn 14
    ∧ manned.clerk 3 = some ⟨3, .supervisor, [0x53]⟩ ∧ manned.clerk 14 = some ⟨14, .clerk, [0x43]⟩
    ∧ manned.removing 3 = false ∧ manned.removing 14 = false ∧ (st overridden).takesKey .s1 255
    ∧ overridden.oc.stack.get .s1 = .overridden 14 3 35000 :=
  ⟨manned_takes.1, by decide, by decide, by decide, by decide, by decide, overridden_takes.1, by decide⟩

theorem witness_end_override : (st overridden).takesKey .s1 255 ∧ overridden.oc.stack.get .s1 = .overridden 14 3 35000
    ∧ (st manned).takesKey .s1 255 ∧ manned.oc.stack.get .s1 = .signedOn 14 :=
  ⟨overridden_takes.1, by decide, manned_takes.1, by decide⟩

/-- Clerk 14 at station 1 while the write that removes a clerk is in flight, and a part where nobody is signed on. -/
def removingBesides (n : Nat) : Part :=
  { manned with ml := { manned.ml with serving := some ⟨7, .removeClerk n, .removeClerk n⟩ } }

theorem witness_removal : (∀ n, (st (removingBesides n)).takesKey .s2 1 ∧ (st (removingBesides n)).takesKeyOf .s1 255 14)
    ∧ (∀ n, (removingBesides n).oc.stack.get .s2 = .empty ∧ (removingBesides n).oc.stack.get .s1 = .signedOn 14
      ∧ (removingBesides n).ml.serving = some ⟨7, .removeClerk n, .removeClerk n⟩)
    ∧ (∀ c ∈ manned.oc.clerks, c.number ≠ 99) ∧ manned.clerk 99 = none
    ∧ (∀ hostTag req, manned.ml.serving ≠ some ⟨hostTag, req, .removeClerk 99⟩) ∧ (st manned).takesKey .s2 1 :=
  ⟨fun _ => ⟨⟨rfl, rfl, by decide, by decide, (fun h => nomatch h), rfl, (fun h => nomatch h)⟩,
      ⟨rfl, rfl, by decide, by decide, (fun h => nomatch h), rfl, (fun h => nomatch h)⟩, rfl⟩,
    fun _ => ⟨rfl, rfl, rfl⟩, by decide, by decide, (fun _ _ h => nomatch h), rfl, by decide⟩

/-- A part during the start-up scan whose station 1 is present. -/
def scanning : Part := { trading with tt := { trading.tt with counter := .starting } }

theorem witness_key_requests : (Instr.park .s1 255).keyRequest? = some (.s1, 255, .park)
    ∧ (st scanning).runs ∧ scanning.link .s1 = .present ∧ (scanning.ml.stations.get .s1).keptTag ≠ some 255
    ∧ scanning.disabling .s1 = false ∧ scanning.tt.counter = .starting ∧ Key.park ≠ .zero ∧ Key.park ≠ .tare
    ∧ Key.park ≠ .clearTare ∧ (st trading).takesKey .s1 255 ∧ trading.oc.stack.get .s1 = .empty
    ∧ (∀ n, Key.park ≠ .signOn n) ∧ ((manned.keyTaken .s1 255).ml.stations.get .s1).keptTag = some 255 :=
  ⟨rfl, rfl, by decide, by decide, by decide, rfl, by decide, by decide, by decide, ⟨rfl, by decide⟩, by decide,
    (fun _ h => nomatch h), by decide⟩

/-- The write of a SET STATION that disables station 1. -/
theorem witness_disabling : (st (writing (.setStation .s1 disabled))).runs
    ∧ (writing (.setStation .s1 disabled)).link .s1 = .present
    ∧ ((writing (.setStation .s1 disabled)).ml.stations.get .s1).keptTag ≠ some 255
    ∧ ((writing (.setStation .s1 disabled)).config .s1).enabled = true ∧ disabled.enabled = false :=
  ⟨rfl, rfl, (fun h => nomatch h), rfl, rfl⟩

/-! ## Witnesses: selection and weighing -/

/-- A part once station 1 has taken the key tag 255. -/
def key (p : Part) : Part := p.keyTaken .s1 255

/-- A key request of tag 255 reaches OC at station 1, where clerk 14 serves. -/
theorem takes_first {p : Part}
    (h : p.inputs.resetAsserted = false ∧ p.link .s1 = .present ∧ (p.ml.stations.get .s1).keptTag ≠ some 255
      ∧ p.disabling .s1 = false ∧ p.tt.counter ≠ .starting)
    (ho : (p.stack .s1).operator = some 14) : (st p).takesKeyOf .s1 255 14 :=
  takes_of .s1 255 14 ⟨h.1, h.2.1, by decide, by decide, h.2.2⟩ ho

/-- Clerk 14 at station 1, with nothing selected. -/
def unselected : Part := { manned with art := trading.art }

/-- The channel of station 1 with a tare. -/
def tared (kind : TareKind) (v : Nat) : Part :=
  { manned with wc := manned.wc.set .s1 { manned.wc.s1 with tare := ⟨kind, v⟩ } }

theorem witness_select : (∀ k v, (st (tared k v)).takesKeyOf .s1 255 14) ∧ (st unselected).takesKeyOf .s1 255 14
    ∧ (key manned).article 99999 = none ∧ (key manned).article 5000 = some egg ∧ egg.held = true
    ∧ (key manned).article 4821 = some ham ∧ ham.held = false ∧ ham.presetTare = some 8
    ∧ (8 : Nat) ≤ ((key manned).wc.get .s1).cal.max ∧ ((key manned).art.selections.get .s1).repeatEntry = some 3107
    ∧ (key manned).article 3107 = some tea ∧ tea.presetTare = none
    ∧ (∀ k v, ((key (tared k v)).wc.get .s1).tare.kind = k) ∧ ((key (tared .none 0)).wc.get .s1).tare.kind = .none
    ∧ (∀ v, tea.presetTare = some v → v = 0 ∨ ((key (tared .none 0)).wc.get .s1).cal.max < v)
    ∧ ((key unselected).art.selections.get .s1).repeatEntry = none :=
  ⟨fun _ _ => takes_first ⟨rfl, rfl, (fun h => nomatch h), rfl, (fun h => nomatch h)⟩ rfl, takes_first (by decide) (by decide),
    by decide, by decide, by decide, by decide, by decide, by decide, by decide, by decide, by decide, by decide,
    fun _ _ => rfl, rfl, (fun _ h => nomatch h), by decide⟩

/-- The ham selected by clerk 14. -/
def cutting : Part :=
  { manned with art := { manned.art with selections := manned.art.selections.set .s1 ⟨some 4821, 1, none, none⟩ } }

/-- Supervisor 3 over clerk 14 with nothing selected. -/
def watched : Part := { overridden with art := trading.art }

theorem witness_quantity : (st unselected).takesKeyOf .s1 255 14 ∧ (st cutting).takesKeyOf .s1 255 14
    ∧ (st overridden).takesKeyOf .s1 255 14 ∧ (st watched).takesKeyOf .s1 255 14
    ∧ ((key unselected).art.selections.get .s1).article = none
    ∧ ((key cutting).art.selections.get .s1).article = some 4821 ∧ (key cutting).article 4821 = some ham
    ∧ ham.kind ≠ .counted ∧ ((key overridden).art.selections.get .s1).article = some 3107
    ∧ (key overridden).article 3107 = some tea ∧ tea.kind = .counted
    ∧ (key overridden).supervisor .s1 = some 3 ∧ (key watched).supervisor .s1 = some 3
    ∧ ((key watched).art.selections.get .s1).article = none ∧ (key cutting).supervisor .s1 = none :=
  ⟨takes_first (by decide) (by decide), takes_first (by decide) (by decide), takes_first (by decide) (by decide),
    takes_first (by decide) (by decide), by decide⟩

/-- A calibrated channel whose eight stable values are `g`, in a phase of the power-up zero. -/
def steady (phase : ZeroPhase) (zpu : Option Int) (g : Int) : Channel :=
  { manned.wc.s1 with
    cal := { manned.wc.s1.cal with calibrated := true }
    filtered := some g
    stability := List.replicate 8 g
    phase := phase
    zpu := zpu }

/-- Clerk 14 at station 1 with a channel there. -/
def onScale (c : Channel) : Part := { manned with wc := manned.wc.set .s1 c }

theorem onScale_takes (c : Channel) : (st (onScale c)).takesKeyOf .s1 255 14 :=
  takes_first ⟨rfl, rfl, (fun h => nomatch h), rfl, (fun h => nomatch h)⟩ rfl

theorem onScale_hears (c : Channel) : (st (onScale c)).hearsKey .s1 255 :=
  ⟨rfl, rfl, by decide, by decide, (fun h => nomatch h), rfl⟩

/-- The keys are heard at an empty stack, and while the start-up scan runs. -/
theorem witness_hears : (st trading).hearsKey .s1 255 ∧ (trading.stack .s1).operator = none
    ∧ (st scanning).hearsKey .s1 1 ∧ scanning.tt.counter = .starting :=
  ⟨⟨rfl, rfl, by decide, by decide, (fun h => nomatch h), rfl⟩, rfl,
    ⟨rfl, rfl, by decide, by decide, (fun h => nomatch h), rfl⟩, rfl⟩

/-- A channel for each refusal of ZERO and TARE. -/
theorem witness_zero_tare_refusals : (∀ c, (st (onScale c)).hearsKey .s1 255)
    ∧ { steady .zeroed (some 0) 0 with rail := true }.rail = true
    ∧ { steady .zeroed (some 0) 0 with tare := ⟨.preset, 1⟩ }.stable = true
    ∧ 100 * (steady .zeroPending none 15001).cal.max < 100 * (15001 : Int).natAbs
    ∧ { steady .zeroed (some 0) 0 with session := true }.state .present = .calibrating
    ∧ { steady .zeroed (some 0) 0 with rail := true }.state .present = .rail
    ∧ (steady .zeroPending none 15001).state .present = .zeroPending
    ∧ (steady .zeroed (some 0) 150451).state .present = .overload ∧ (steady .zeroed (some 0) (-401)).state .present = .underload
    ∧ (steady .settling none 0).state .present = .settling
    ∧ { steady .zeroed (some 0) 0 with cal := CalRecord.default }.state .present = .uncalibrated
    ∧ { steady .zeroed (some 0) 0 with filtered := none }.state .present = .ready :=
  ⟨onScale_hears, by decide⟩

/-- Zeroing at the edge of the band, one fine unit outside it, and while the zero is pending. -/
theorem witness_zero : (∀ c, (st (onScale c)).takesKeyOf .s1 255 14) ∧ (∀ c, (key (onScale c)).wc.get .s1 = c)
    ∧ (steady .zeroed (some 0) 3000).session = false ∧ (steady .zeroed (some 0) 3000).rail = false
    ∧ (steady .zeroed (some 0) 3000).stable = true ∧ (steady .zeroed (some 0) 3000).tare.kind = .none
    ∧ (steady .zeroed (some 0) 3000).filtered = some 3000 ∧ (steady .zeroed (some 0) 3000).zpu = some 0
    ∧ 100 * ((3000 : Int) - 0).natAbs ≤ 20 * (steady .zeroed (some 0) 3000).cal.max
    ∧ (steady .zeroed (some 0) 3001).stable = true
    ∧ 20 * (steady .zeroed (some 0) 3001).cal.max < 100 * ((3001 : Int) - 0).natAbs
    ∧ (steady .zeroPending none (-15000)).phase = .zeroPending ∧ (steady .zeroPending none (-15000)).stable = true
    ∧ 100 * (-15000 : Int).natAbs ≤ 100 * (steady .zeroPending none (-15000)).cal.max
    ∧ manned.wc.s1.stable = false :=
  ⟨onScale_takes, fun _ => rfl, by decide⟩

/-- The tare of one division, of Max, and of neither; and a channel in a session. -/
theorem witness_tare : (steady .zeroed (some 0) 20).state ((key (onScale manned.wc.s1)).link .s1) = .ready
    ∧ (steady .zeroed (some 0) 20).stable = true
    ∧ divRound (20 - (steady .zeroed (some 0) 20).zo) (10 * 2) * 2 = 2 ∧ (steady .zeroed (some 0) 20).cal.e1 = 2
    ∧ divRound (9 - 0) (10 * 2) * 2 < 2 ∧ divRound (150000 - 0) (10 * 2) * 2 = 15000
    ∧ (steady .zeroed (some 0) 150000).state .present = .ready ∧ (steady .zeroed (some 0) 9).state .present = .ready
    ∧ { manned.wc.s1 with session := true }.session = true := by decide

/-- A channel whose window and histories are full of a raw count that is the same count of fine units. -/
def sampled (phase : ZeroPhase) (zpu last : Option Int) (raw : Int) : Channel :=
  { steady phase zpu raw with
    cal := { CalRecord.default with zcal := 0, scal := 100000, lcal := 10000, calibrated := true }
    window := List.replicate 8 ⟨raw, raw⟩
    lastZeroChange := last.map Int.toNat
    autoClearPending := true }

/-- The two rails, both ends of the power-up band, a pending zero, a station that tracks and one that rests, and a gross below
and at the minimum-sale weight. -/
theorem witness_samples : (-8388608 : Int) ≠ 8388607
    ∧ (sampled .settling none none 15000).cal.max = 15000 ∧ 100 * (15000 : Int).natAbs ≤ 100 * 15000
    ∧ ((sampled .settling none none 15000).filter 15000).stable = true
    ∧ ((sampled .settling none none 15000).filter 15000).filtered = some 15000
    ∧ ((sampled .settling none none 15001).filter 15001).stable = true
    ∧ ((sampled .settling none none 15001).filter 15001).filtered = some 15001 ∧ ¬ 100 * (15001 : Int).natAbs ≤ 100 * 15000
    ∧ (sampled .zeroPending none none 0).phase = .zeroPending
    ∧ ({ sampled .settling none none 0 with stability := [] }.filter 0).stable = false
    ∧ ((sampled .zeroed (some 0) (some 4000) 5).filter 5).state .present = .ready
    ∧ ((sampled .zeroed (some 0) (some 4000) 5).filter 5).stable = true ∧ 4 * (5 - 0 : Int).natAbs ≤ 10 * 2
    ∧ (4000 : Nat) + 1000 ≤ 5000 ∧ ¬ (4001 : Nat) + 1000 ≤ 5000 ∧ (399 : Int) - 0 < 200 * 2 ∧ ¬ (400 : Int) - 0 < 200 * 2
    ∧ ((sampled .zeroed (some 0) (some 4000) 5).takeSample 5000 5).zo = 5
    ∧ ((sampled .zeroed (some 0) (some 4001) 5).takeSample 5000 5).zo = 0 := by decide

/-! ## Witnesses: orders -/

/-- Clerk 14 at station 1, the counter in a state. -/
def counterIn (c : CounterState) : Part := { manned with tt := { manned.tt with counter := c } }

/-- A full pool: one order at station 1 and 15 that are in CLOSING. -/
def closingOrder (n : Nat) : Order := ⟨n, 14, .closing .sale .queued, none, .item, [⟨line1, .active⟩], 899, none, none⟩
def parkedOrder (n : Nat) : Order := ⟨n, 14, .parked, none, .item, [⟨line1, .active⟩], 899, none, none⟩
def poolOf (os : List (Option Order)) : Part := { manned with om := { manned.om with pool := os, lastNumber := 16 } }
def fullPool : Part := poolOf ((List.range 16).map (fun n => some (closingOrder (n + 1))))
def threeOrders : Part :=
  poolOf ([some (parkedOrder 1), some (parkedOrder 2), some (parkedOrder 3)] ++ none :: List.replicate 12 none)

/-- A ticket, and the part with it CALLED at station 1. -/
def ticket1 : Ticket := ⟨99, .d2, ⟨⟨2000, 1, 1⟩, ⟨8, 0, 0⟩⟩⟩
def calledAt1 : Part :=
  { manned with tc := { manned.tc with called := manned.tc.called.set .s1 (some ⟨ticket1, ⟨⟨2000, 1, 1⟩, ⟨8, 5, 0⟩⟩⟩) } }

theorem witness_open_order : (∀ c, c ≠ .starting → (st (counterIn c)).takesKeyOf .s1 255 14)
    ∧ (st selling).takesKeyOf .s1 255 14 ∧ (key selling).om.active.get .s1 ≠ none ∧ (key selling).tt.counter = .trading
    ∧ (st fullPool).takesKeyOf .s1 255 14 ∧ (key fullPool).om.active.get .s1 = none
    ∧ (∀ slot ∈ (key fullPool).om.pool, slot ≠ none) ∧ (st threeOrders).takesKeyOf .s1 255 14
    ∧ (key threeOrders).om.pool
      = [some (parkedOrder 1), some (parkedOrder 2), some (parkedOrder 3)] ++ none :: List.replicate 12 none
    ∧ 3 ≤ (key threeOrders).ownedBy 14 ∧ (st calledAt1).takesKeyOf .s1 255 14
    ∧ (key calledAt1).om.pool = [] ++ none :: List.replicate 15 none ∧ (key calledAt1).ownedBy 14 < 3
    ∧ (key calledAt1).tc.called.get .s1 ≠ none :=
  ⟨fun _ h => takes_first ⟨rfl, rfl, (fun h => nomatch h), rfl, h⟩ rfl, selling_takes, by decide, by decide,
    takes_first (by decide) (by decide), by decide, by decide, takes_first (by decide) (by decide), by decide, by decide,
    takes_first (by decide) (by decide), by decide, by decide, by decide⟩

theorem witness_new_numbers : (poolOf (none :: (List.range 15).map (fun n => some (closingOrder (n + 1))))).om.pool.length = 16
    ∧ none ∈ (poolOf (none :: (List.range 15).map (fun n => some (closingOrder (n + 1))))).om.pool
    ∧ manned.om.lastNumber ≤ 9999 ∧ calledAt1.tc.waiting.length < 64 ∧ calledAt1.tc.missed.length ≤ 8
    ∧ calledAt1.tc.serving.length ≤ 16 ∧ calledAt1.tc.lastIssued ≤ 99 := by decide

/-- The last number 9,999 with orders 1 to 3 in the pool, and the last ticket 99 with tickets 1 and 2 live. -/
theorem test_number_wraps : { threeOrders with om := { threeOrders.om with lastNumber := 9999 } }.nextOrder = 4
    ∧ freeTicket [2, 1] 99 99 = 3 ∧ freeTicket [] 99 0 = 1 := by decide

theorem witness_add_line : (st selling).takesKeyOf .s1 255 14 ∧ (key selling).tt.counter = .trading
    ∧ (key selling).art.confirmed.get .s1 = some (key selling).art.generation
    ∧ ((key selling).art.selections.get .s1).article = some 3107 ∧ (key selling).article 3107 = some tea ∧ tea.held = false
    ∧ (key selling).measure .s1 tea = .ok (.counted 1)
    ∧ linePriceOf (tea.priceOf (.counted 1)) ((key selling).art.selections.get .s1).override = .ok (899, none)
    ∧ (key selling).lu.queue.length < 32 ∧ (key selling).journalCheck 56 2 = .ok ()
    ∧ (key selling).activeOrder .s1 = some (order1 (.opened .s1) .active)
    ∧ (order1 (.opened .s1) .active).lastIndex < 24 ∧ (order1 (.opened .s1) .active).total + 899 ≤ 999999
    ∧ (st manned).takesKeyOf .s1 255 14 ∧ (key manned).measure .s1 tea = .ok (.counted 1)
    ∧ (key manned).journalCheck 56 2 = .ok () ∧ (key manned).om.active.get .s1 = none ∧ none ∈ (key manned).om.pool
    ∧ (∀ o ∈ (key manned).om.orders, o.number ≠ (key manned).nextOrder) ∧ (key manned).ownedBy 14 < 3 :=
  ⟨selling_takes, by decide, by decide, by decide, by decide, by decide, rfl, rfl, by decide, rfl, by decide, by decide,
    by decide, manned_takes, rfl, rfl, by decide, by decide, by decide, by decide⟩

/-- A line of the ham at Max on the scale, with the capture interlock released. -/
def weighing : Part :=
  { cutting with wc := cutting.wc.set .s1 { steady .zeroed (some 0) 150000 with interlock := .released } }

theorem witness_add_weighed_line : (key weighing).measure .s1 ham = .ok (.weighed 15000 ⟨.none, 0⟩)
    ∧ linePriceOf (ham.priceOf (.weighed 15000 ⟨.none, 0⟩)) none = .ok (35985, none) := ⟨rfl, rfl⟩

/-- The same with the capture interlock set, with every other check of ADD LINE passed. -/
def unlocking : Part :=
  { cutting with wc := cutting.wc.set .s1 { steady .zeroed (some 0) 150000 with interlock := .set } }

theorem witness_capture : (st weighing).takesKeyOf .s1 255 14 ∧ ham.kind = .weighed ∧ tea.kind = .counted
    ∧ ((key weighing).wc.get .s1).captureTest .present = .ok ⟨15000, 5, ⟨.none, 0⟩⟩ ∧ egg.kind = .fixed
    ∧ (st unlocking).takesKeyOf .s1 255 14 ∧ (key unlocking).tt.counter = .trading
    ∧ (key unlocking).art.confirmed.get .s1 = some (key unlocking).art.generation
    ∧ ((key unlocking).art.selections.get .s1).article = some 4821 ∧ (key unlocking).article 4821 = some ham
    ∧ ham.held = false ∧ ((key unlocking).wc.get .s1).captureTest .present = .error .notCleared :=
  ⟨takes_first (by decide) (by decide), by decide, by decide, rfl, by decide, takes_first (by decide) (by decide), by decide,
    by decide, by decide, by decide, by decide, rfl⟩

/-- A station that has confirmed no generation. -/
def staleDisplay : Part := { manned with art := { manned.art with confirmed := .all none } }

theorem witness_stale_display : (st staleDisplay).takesKeyOf .s1 255 14 ∧ staleDisplay.tt.counter = .trading
    ∧ staleDisplay.art.confirmed.get .s1 ≠ some staleDisplay.art.generation :=
  ⟨takes_first (by decide) (by decide), by decide⟩

/-- Clerk 14 at station 1 with a selection, and with a table that has one article more. -/
def choosing (x : Selection) : Part :=
  { manned with art := { manned.art with
      table := manned.art.table ++ [⟨9999, .counted, 2000, .nearest, 1, none, 1, [0x41], none, false, 1⟩]
      selections := manned.art.selections.set .s1 x } }

theorem choosing_takes (x : Selection) : (st (choosing x)).takesKeyOf .s1 255 14 :=
  takes_first ⟨rfl, rfl, (fun h => nomatch h), rfl, (fun h => nomatch h)⟩ rfl

/-- No selection, an article that is gone, a held one, a price of 0 and one above the limit, an override above the list price and
one at it. -/
theorem witness_add_line_article : (∀ x, (st (choosing x)).takesKeyOf .s1 255 14)
    ∧ (∀ x, (key (choosing x)).tt.counter = .trading
      ∧ (key (choosing x)).art.confirmed.get .s1 = some (key (choosing x)).art.generation
      ∧ (key (choosing x)).art.selections.get .s1 = x)
    ∧ (key (choosing .initial)).article 99999 = none ∧ (key (choosing .initial)).article 5000 = some egg ∧ egg.held = true
    ∧ ((key (choosing .initial)).article 9999).map (fun a => (a.held, a.kind, a.priceOf (.counted 99)))
      = some (false, .counted, 198000)
    ∧ (key (choosing ⟨some 9999, 99, none, none⟩)).measure .s1 ⟨9999, .counted, 2000, .nearest, 1, none, 1, [0x41], none, false, 1⟩
      = .ok (.counted 99)
    ∧ tea.priceOf (.counted 0) = 0 ∧ tea.priceOf (.counted 1) = 899
    ∧ (key (choosing ⟨some 3107, 0, none, none⟩)).measure .s1 tea = .ok (.counted 0)
    ∧ (key (choosing ⟨some 3107, 1, none, some ⟨900, 3⟩⟩)).measure .s1 tea = .ok (.counted 1) :=
  ⟨choosing_takes, fun _ => ⟨rfl, rfl, rfl⟩, by decide, by decide, by decide, by decide, rfl, by decide, by decide, rfl, rfl⟩

/-- Clerk 14 at station 1 with the tea selected and an order there, in a part whose print queue and journal are in a state. -/
def filling (o : Order) (queue : List Job) (fault : Bool) : Part :=
  { withOrder manned o with
    lu := { manned.lu with queue := queue }
    tj := { manned.tj with fault := fault } }

/-- The order of the line in slot 1, of another total, of another last index or of another label mode. -/
def of24 : Order := { order1 (.opened .s1) .active with lines := [⟨{ line1 with index := 24 }, .active⟩] }
def ofTotal (n : Nat) : Order := { order1 (.opened .s1) .active with total := n }
def ofMode (m : LabelMode) : Order := { order1 (.opened .s1) .active with labelMode := m }
def fullQueue : List Job := List.replicate 32 ⟨.total, 7, .p1, true, false, totalDraft 7 1 14 none .s1⟩

/-- A full order, a total at and above the limit, a full print queue in each label mode, and a journal in FAULT. -/
theorem witness_add_line_order : (∀ o q b, (st (filling o q b)).takesKeyOf .s1 255 14)
    ∧ (∀ o q b, o.state = .opened .s1 → (key (filling o q b)).activeOrder .s1 = some o)
    ∧ 24 ≤ of24.lastIndex ∧ (ofTotal 999101).lastIndex < 24 ∧ 999999 < (ofTotal 999101).total + 899
    ∧ (ofTotal 999100).total + 899 ≤ 999999 ∧ (ofMode .item).labelMode ≠ .total ∧ 32 ≤ fullQueue.length
    ∧ (ofMode .total).labelMode = .total ∧ (ofMode .item).total + 899 ≤ 999999
    ∧ (∀ o, (key (filling o [] true)).journalCheck 56 2 = .error .storeFault)
    ∧ ((key fullPool).art.selections.get .s1).article = some 3107 ∧ (key fullPool).measure .s1 tea = .ok (.counted 1)
    ∧ ((key threeOrders).art.selections.get .s1).article = some 3107 ∧ none ∈ (key threeOrders).om.pool
    ∧ (key threeOrders).measure .s1 tea = .ok (.counted 1) ∧ ((key manned).config .s1).labelMode ≠ .total :=
  ⟨fun _ _ _ => takes_first ⟨rfl, rfl, (fun h => nomatch h), rfl, (fun h => nomatch h)⟩ rfl,
    fun o q b h => by
      simp [key, filling, withOrder, h, Part.activeOrder, Part.keyTaken, Part.onLink, Part.order, OrderManager.orders,
        PerStation.get, PerStation.set, lookup],
    by decide, by decide, by decide, by decide, by decide, by decide, by decide, by decide, fun _ => rfl, by decide, rfl,
    by decide, by decide, rfl, by decide⟩

/-- Clerk 14 at station 1 with an order that is not at the station. -/
def besides (o : Order) : Part := withOrder manned o

/-- Station 1 under supervisor 3, with the PARKED order 1 of clerk 3, or of clerk 14. -/
def parkedBesides (owner : Nat) : Part := withOrder overridden { parkedOrder 1 with owner := owner }

theorem witness_resume_supervised : (st (parkedBesides 3)).takesKeyOf .s1 255 14
    ∧ (key (parkedBesides 3)).om.active.get .s1 = none
    ∧ (key (parkedBesides 3)).order 1 = some { parkedOrder 1 with owner := 3 }
    ∧ { parkedOrder 1 with owner := 3 }.state = .parked ∧ (3 : Nat) ≠ 14
    ∧ (key (parkedBesides 3)).supervisor .s1 = some 3 :=
  ⟨takes_first (by decide) (by decide), by decide⟩

theorem witness_park_resume : (st selling).takesKeyOf .s1 255 14
    ∧ (key selling).activeOrder .s1 = some (order1 (.opened .s1) .active) ∧ (st (besides (parkedOrder 1))).takesKeyOf .s1 255 14
    ∧ (key (besides (parkedOrder 1))).om.active.get .s1 = none
    ∧ (key (besides (parkedOrder 1))).order 1 = some (parkedOrder 1)
    ∧ (st (besides { parkedOrder 1 with owner := 3 })).takesKeyOf .s1 255 14
    ∧ (key (besides { parkedOrder 1 with owner := 3 })).order 1 = some { parkedOrder 1 with owner := 3 }
    ∧ (key (besides { parkedOrder 1 with owner := 3 })).supervisor .s1 = none
    ∧ (st (besides (closingOrder 1))).takesKeyOf .s1 255 14
    ∧ (key (besides (closingOrder 1))).order 1 = some (closingOrder 1) ∧ (closingOrder 1).state ≠ .parked :=
  ⟨selling_takes, by decide, takes_first (by decide) (by decide), by decide, by decide,
    takes_first (by decide) (by decide), by decide, by decide, takes_first (by decide) (by decide), by decide⟩

/-- The refusals of RESUME: out of range, an active order, no such order, and an order of another clerk that is not PARKED
under a supervisor. -/
theorem witness_resume_refusals : (st selling).takesKeyOf .s1 255 14 ∧ (key selling).om.active.get .s1 ≠ none
    ∧ (∀ n ∈ [0, 2, 9999, 10000], (key selling).order n = none) ∧ (key selling).supervisor .s1 = none
    ∧ (∀ n ∈ [0, 1, 9999, 10000], (key manned).order n = none) ∧ (key manned).om.active.get .s1 = none
    ∧ (st (withOrder overridden { closingOrder 1 with owner := 3 })).takesKeyOf .s1 255 14
    ∧ (key (withOrder overridden { closingOrder 1 with owner := 3 })).supervisor .s1 = some 3
    ∧ (key (withOrder overridden { closingOrder 1 with owner := 3 })).om.active.get .s1 = none
    ∧ (key (withOrder overridden { closingOrder 1 with owner := 3 })).order 1 = some { closingOrder 1 with owner := 3 }
    ∧ ({ closingOrder 1 with owner := 3 } : Order).state ≠ .parked :=
  ⟨selling_takes, by decide, by decide, by decide, by decide, by decide, takes_first (by decide) (by decide), by decide⟩

/-- Station 1 with an order of a label mode, its line in a state. -/
def closable (m : LabelMode) (l : LineState) : Part := withOrder manned { order1 (.opened .s1) l with labelMode := m }

theorem witness_close_order : (∀ m l, (st (closable m l)).takesKeyOf .s1 255 14)
    ∧ (∀ m l, (key (closable m l)).activeOrder .s1 = some { order1 (.opened .s1) l with labelMode := m })
    ∧ (order1 (.opened .s1) .voided).activeLines = [] ∧ (order1 (.opened .s1) .pending).activeLines ≠ []
    ∧ (order1 (.opened .s1) .pending).hasPending = true ∧ (order1 (.opened .s1) .active).hasPending = false
    ∧ (∀ m l, (key (closable m l)).lu.queue.length < 32 ∧ (key (closable m l)).journalCheck 40 2 = .ok ()
      ∧ ∀ n k, Place.held n k ∉ (key (closable m l)).tj.queue) :=
  ⟨fun _ _ => takes_first ⟨rfl, rfl, (fun h => nomatch h), rfl, (fun h => nomatch h)⟩ rfl, fun _ _ => rfl, by decide,
    by decide, by decide, by decide, fun _ _ => ⟨of_decide_eq_true rfl, rfl, fun _ _ h => nomatch h⟩⟩

/-- No active order, a full print queue in each label mode, a journal in FAULT, and the serving ticket of an order. -/
theorem witness_close_refusals : (key manned).om.active.get .s1 = none ∧ (ofMode .both).labelMode ≠ .item
    ∧ (ofMode .item).labelMode = .item ∧ (ofMode .both).activeLines ≠ [] ∧ 32 ≤ fullQueue.length
    ∧ (∀ o, (key (filling o [] true)).journalCheck 40 2 = .error .storeFault)
    ∧ (∀ j ∈ [(⟨.total, 7, .p1, true, false, totalDraft 7 1 14 none .s1⟩ : Job)], j.kind = .total → j.label ≠ 1)
    ∧ ({ order1 (.opened .s1) .voided with ticket := some 99 } : Order).activeLines = [] :=
  ⟨by decide, by decide, by decide, by decide, by decide, fun _ => rfl, by decide, by decide⟩

/-- The order of station 1 under supervisor 3, its line without a label. -/
def unlabelled : Part :=
  withOrder overridden { order1 (.opened .s1) .active with lines := [⟨{ line1 with label := none }, .active⟩] }

theorem witness_void_line : (st supervised).takesKeyOf .s1 255 14 ∧ (key supervised).supervisor .s1 = some 3
    ∧ (key supervised).activeOrder .s1 = some (order1 (.opened .s1) .active)
    ∧ (order1 (.opened .s1) .active).line 1 = some ⟨line1, .active⟩ ∧ (key supervised).journalCheck 24 2 = .ok ()
    ∧ line1.label = some 1 ∧ (key supervised).lu.queue.length < 32 ∧ (st unlabelled).takesKeyOf .s1 255 14
    ∧ (key unlabelled).supervisor .s1 = some 3 ∧ (key unlabelled).journalCheck 24 2 = .ok ()
    ∧ ((key unlabelled).activeOrder .s1).map (fun o => o.line 1) = some (some ⟨{ line1 with label := none }, .active⟩) :=
  ⟨supervised_takes, by decide, by decide, by decide, rfl, by decide, by decide, takes_first (by decide) (by decide),
    by decide, rfl, by decide⟩

/-- Station 1 under supervisor 3 with an OPEN order whose print queue and journal are in a state. -/
def fillingUnder (o : Order) (queue : List Job) (fault : Bool) : Part :=
  { withOrder overridden o with
    lu := { overridden.lu with queue := queue }
    tj := { overridden.tj with fault := fault } }

theorem fillingUnder_takes (o : Order) (queue : List Job) (fault : Bool) :
    (st (fillingUnder o queue fault)).takesKeyOf .s1 255 14 :=
  takes_first ⟨rfl, rfl, (fun h => nomatch h), rfl, (fun h => nomatch h)⟩ rfl

/-- The refusals of VOID LINE and REPRINT: no supervisor, no active order, an index out of range or without a line, a line that
is not ACTIVE, a full print queue, and a journal in FAULT; and the last line of 24. -/
theorem witness_line_refusals : (key selling).supervisor .s1 = none ∧ (key overridden).supervisor .s1 = some 3
    ∧ (key overridden).om.active.get .s1 = none
    ∧ (∀ o ∈ [order1 (.opened .s1) .active, order1 (.opened .s1) .pending, order1 (.opened .s1) .voided, of24], ∀ b,
      (key (fillingUnder o [] b)).supervisor .s1 = some 3 ∧ (key (fillingUnder o [] b)).activeOrder .s1 = some o)
    ∧ (24 : Nat) < 25 ∧ (order1 (.opened .s1) .active).line 2 = none ∧ (order1 (.opened .s1) .active).line 24 = none
    ∧ (∀ l, (order1 (.opened .s1) l).line 1 = some ⟨line1, l⟩) ∧ LineState.pending ≠ .active ∧ LineState.voided ≠ .active
    ∧ of24.line 24 = some ⟨{ line1 with index := 24 }, .active⟩
    ∧ (∀ o, (key (fillingUnder o [] true)).journalCheck 24 2 = .error .storeFault)
    ∧ (∀ o, 32 ≤ (key (fillingUnder o fullQueue false)).lu.queue.length) :=
  ⟨by decide, by decide, by decide, by decide, by decide, by decide, by decide, fun _ => rfl, by decide, by decide, by decide,
    fun _ => rfl, fun _ => of_decide_eq_true rfl⟩

/-- An order without lines at station 1 under supervisor 3. -/
def emptyOrder : Part := withOrder overridden { order1 (.opened .s1) .active with lines := [], total := 0 }

theorem witness_void_order : (st supervised).takesKeyOf .s1 255 14 ∧ (key supervised).supervisor .s1 = some 3
    ∧ (key supervised).activeOrder .s1 = some (order1 (.opened .s1) .active) ∧ (key supervised).journalCheck 32 1 = .ok ()
    ∧ (∀ n k, Place.held n k ∉ (key supervised).tj.queue) ∧ (st emptyOrder).takesKeyOf .s1 255 14
    ∧ (key emptyOrder).supervisor .s1 = some 3 ∧ ((key emptyOrder).activeOrder .s1).map Order.lines = some []
    ∧ (st overridden).takesKeyOf .s1 255 14 ∧ (key overridden).om.active.get .s1 = none
    ∧ (∀ r, (st (besides (parkedOrder 1))).serves 1 r) ∧ (besides (parkedOrder 1)).taken.order 1 = some (parkedOrder 1)
    ∧ (besides (parkedOrder 1)).taken.order 9999 = none ∧ (besides (parkedOrder 1)).taken.journalCheck 32 1 = .ok ()
    ∧ (∀ k, Place.held 1 k ∉ (besides (parkedOrder 1)).taken.tj.queue) ∧ (∀ r, (st (besides (closingOrder 1))).serves 1 r)
    ∧ (besides (closingOrder 1)).taken.order 1 = some (closingOrder 1) ∧ (closingOrder 1).state ≠ .parked :=
  ⟨supervised_takes, by decide, by decide, rfl, (fun _ _ h => nomatch h), takes_first (by decide) (by decide), by decide,
    by decide, overridden_takes, by decide, fun r => serves_of 1 r (by decide) (by decide), by decide, by decide, rfl,
    (fun _ h => nomatch h), fun r => serves_of 1 r (by decide) (by decide), by decide, by decide⟩

/-- VOID ORDER with a number: no order of it, one that is not PARKED, and one that is; and no supervisor. -/
theorem witness_void_order_number : (st (parkedBesides 14)).takesKeyOf .s1 255 14
    ∧ (key (parkedBesides 14)).supervisor .s1 = some 3 ∧ (key (parkedBesides 14)).order 9999 = none
    ∧ (key (parkedBesides 14)).order 1 = some (parkedOrder 1) ∧ (parkedOrder 1).lines ≠ []
    ∧ (key (parkedBesides 14)).journalCheck 32 1 = .ok () ∧ (∀ k, Place.held 1 k ∉ (key (parkedBesides 14)).tj.queue)
    ∧ (key supervised).order 1 = some (order1 (.opened .s1) .active) ∧ (order1 (.opened .s1) .active).state ≠ .parked
    ∧ (key selling).supervisor .s1 = none :=
  ⟨takes_first (by decide) (by decide), by decide, by decide, by decide, by decide, rfl, (fun _ h => nomatch h), by decide,
    by decide, by decide⟩

/-- VOID ORDER of an order with lines while the journal is in FAULT, at its station, by its number and from the host. -/
theorem witness_void_order_journal : (key (fillingUnder (order1 (.opened .s1) .active) [] true)).journalCheck 32 1
      = .error .storeFault
    ∧ (order1 (.opened .s1) .active).lines ≠ [] ∧ (st (faultJournal (parkedBesides 14))).takesKeyOf .s1 255 14
    ∧ (key (faultJournal (parkedBesides 14))).supervisor .s1 = some 3
    ∧ (key (faultJournal (parkedBesides 14))).order 1 = some (parkedOrder 1)
    ∧ (key (faultJournal (parkedBesides 14))).journalCheck 32 1 = .error .storeFault
    ∧ (∀ r, (st (faultJournal (besides (parkedOrder 1)))).serves 1 r)
    ∧ (faultJournal (besides (parkedOrder 1))).taken.order 1 = some (parkedOrder 1)
    ∧ (faultJournal (besides (parkedOrder 1))).taken.journalCheck 32 1 = .error .storeFault ∧ (9999 : Nat) < 10000 :=
  ⟨rfl, by decide, takes_first (by decide) (by decide), by decide, by decide, rfl,
    fun r => serves_of 1 r (by decide) (by decide), by decide, rfl, by decide⟩

/-- An erase in flight, not suspended: a filled place that comes to the front of the queue suspends it, a held place and a
place behind another do not. -/
theorem witness_suspension : suspendedBy [.filled lineRecord] (some ⟨0, false⟩) = some ⟨0, true⟩
    ∧ suspendedBy [.held 1 .sale] (some ⟨0, false⟩) = some ⟨0, false⟩
    ∧ (∀ p : Part, { p.tj with queue := [], erase := some ⟨0, false⟩ }.taking (.filled lineRecord)
      = { p.tj with queue := [.filled lineRecord], erase := some ⟨0, true⟩ })
    ∧ (∀ p : Part, { p.tj with queue := [.held 1 .sale], erase := some ⟨0, false⟩ }.taking (.filled lineRecord)
      = { p.tj with queue := [.held 1 .sale, .filled lineRecord], erase := some ⟨0, false⟩ }) :=
  ⟨rfl, rfl, fun _ => rfl, fun _ => rfl⟩

/-- ADD LINE while an erase is in flight: its record comes to the front of the empty queue. -/
def erasing : Part := { selling with tj := { selling.tj with erase := some ⟨0, false⟩ } }

theorem witness_add_line_suspends : (st erasing).takesKeyOf .s1 255 14 ∧ (key erasing).journalCheck 56 2 = .ok ()
    ∧ (key erasing).measure .s1 tea = .ok (.counted 1) ∧ (key erasing).tj.erase = some ⟨0, false⟩
    ∧ (key erasing).tj.queue = [] := ⟨takes_first (by decide) (by decide), rfl, rfl, rfl, rfl⟩

/-! ## Witnesses: tickets -/

/-- Clerk 14 at station 1, with a ticket controller. -/
def ticketed (t : TicketController) : Part := { manned with tc := t }
def oneWaiting : TicketController := { manned.tc with waiting := [ticket1] }
def missedOf (n : Nat) : List MissedTicket :=
  (List.range n).map (fun k => ⟨⟨k + 1, .d1, ⟨⟨2000, 1, 1⟩, ⟨8, 0, 0⟩⟩⟩, ⟨⟨2000, 1, 1⟩, ⟨8, 5, 0⟩⟩, 4000⟩)
/-- A ticket CALLED at station 1, another waiting, and `n` missed ones. -/
def crowdOf (n : Nat) : TicketController := { calledAt1.tc with waiting := [{ ticket1 with number := 98 }], missed := missedOf n }

theorem ticketed_takes (t : TicketController) : (st (ticketed t)).takesKeyOf .s1 255 14 :=
  takes_first ⟨rfl, rfl, (fun h => nomatch h), rfl, (fun h => nomatch h)⟩ rfl

theorem witness_next_recall : (∀ t, (st (ticketed t)).takesKeyOf .s1 255 14) ∧ (∀ t, (key (ticketed t)).tc = t)
    ∧ (∀ t, (key (ticketed t)).tt.counter = .trading ∧ (key (ticketed t)).om.active.get .s1 = none)
    ∧ manned.tc.waiting = [] ∧ oneWaiting.waiting = ticket1 :: [] ∧ oneWaiting.called.get .s1 = none
    ∧ (crowdOf 7).waiting = { ticket1 with number := 98 } :: [] ∧ ((crowdOf 7).called.get .s1).isSome = true
    ∧ (crowdOf 7).missed.length < 8 ∧ (crowdOf 8).missed.tail.length = 7 ∧ (crowdOf 8).missed ≠ []
    ∧ 1 ≤ ticket1.number ∧ ticket1.number ≤ 99 ∧ (∀ x ∈ (crowdOf 8).missed, x.ticket.number ≠ ticket1.number)
    ∧ ({ oneWaiting with missed := missedOf 1 } : TicketController).missed
      = [] ++ ⟨⟨1, .d1, ⟨⟨2000, 1, 1⟩, ⟨8, 0, 0⟩⟩⟩, ⟨⟨2000, 1, 1⟩, ⟨8, 5, 0⟩⟩, 4000⟩ :: [] :=
  ⟨ticketed_takes, fun _ => rfl, fun _ => ⟨rfl, rfl⟩, by decide⟩

/-- PAUSED, CLOSED and a day close in flight, an active order, and RECALL where a ticket is CALLED and the missed list is full. -/
theorem witness_call_refusals : (∀ c, c ≠ .starting → (st (counterIn c)).takesKeyOf .s1 255 14
      ∧ (key (counterIn c)).tt.counter = c)
    ∧ (st selling).takesKeyOf .s1 255 14 ∧ (key selling).tt.counter = .trading ∧ (key selling).om.active.get .s1 ≠ none
    ∧ ((crowdOf 8).called.get .s1).isSome = true ∧ (crowdOf 8).missed.length ≤ 8
    ∧ (crowdOf 8).missed = missedOf 7 ++ ⟨⟨8, .d1, ⟨⟨2000, 1, 1⟩, ⟨8, 0, 0⟩⟩⟩, ⟨⟨2000, 1, 1⟩, ⟨8, 5, 0⟩⟩, 4000⟩ :: []
    ∧ (∀ x ∈ missedOf 7, x.ticket.number ≠ 8) :=
  ⟨fun _ h => ⟨takes_first ⟨rfl, rfl, (fun h => nomatch h), rfl, h⟩ rfl, rfl⟩, selling_takes, by decide, by decide, by decide,
    by decide, by decide, by decide⟩

/-- A part with a take tag kept at dispenser 1, and one with 64 tickets waiting. -/
def taken255 : Part := { trading with ml := { trading.ml with takes := ⟨some ⟨255, .full⟩, none⟩ } }
def queueFull : Part := { trading with tc := { trading.tc with waiting := List.replicate 64 ticket1 } }

theorem witness_take : (∀ c, (st (counterIn c)).runs) ∧ (taken255.ml.takes.get .d1).map KeptTake.tag = some 255
    ∧ (taken255.ml.takes.get .d1).map KeptTake.tag ≠ some 1 ∧ (taken255.ml.takes.get .d2).map KeptTake.tag ≠ some 255
    ∧ taken255.tt.counter = .trading ∧ taken255.tc.waiting.length < 64 ∧ 64 ≤ queueFull.tc.waiting.length
    ∧ (queueFull.ml.takes.get .d1).map KeptTake.tag ≠ some 1 ∧ (counterIn .closed).tt.counter ≠ .trading
    ∧ (counterIn .closed).tt.counter ≠ .paused := ⟨fun _ => rfl, by decide⟩

/-- Two call lists to be sent. -/
def calling : Part := { trading with ml := { trading.ml with display := [[⟨99, .s1⟩], []] } }

theorem witness_expiry_calls : (st (ticketed (crowdOf 2))).runs
    ∧ (crowdOf 2).missed = missedOf 1 ++ ⟨⟨2, .d1, ⟨⟨2000, 1, 1⟩, ⟨8, 0, 0⟩⟩⟩, ⟨⟨2000, 1, 1⟩, ⟨8, 5, 0⟩⟩, 4000⟩ :: []
    ∧ (∀ x ∈ missedOf 1, x.ticket.number ≠ 2) ∧ (st calling).runs ∧ calling.ml.display = [⟨99, .s1⟩] :: [[]] :=
  ⟨rfl, by decide, by decide, rfl, by decide⟩

/-! ## Witnesses: printers -/

/-- A job for a printer. -/
def job (n : Nat) (pr : PrinterNo) (released atPrinter : Bool) : Job :=
  ⟨.item, n, pr, released, atPrinter, lineContent .item n 27 1 14 line1 (some tea)⟩

/-- A part whose printer 1 is in a state, with a message that waits for its reply or none, and a print queue. -/
def printing (s : PrinterState) (w : Option SentMessage) (queue : List Job) : Part :=
  { trading with lu := ⟨queue, ⟨⟨s, w, some 4900, some 4900⟩, .initial, .initial, .initial⟩, 9, 0⟩ }

theorem witness_printer_messages : (∀ s w q, (st (printing s w q)).runs)
    ∧ (∀ s w q, ((printing s w q).lu.printers.get .p1).state = s ∧ ((printing s w q).lu.printers.get .p1).waiting = w
      ∧ (printing s w q).lu.queue = q)
    ∧ [job 7 .p1 true true, job 8 .p1 true false] = [job 7 .p1 true true] ++ job 8 .p1 true false :: []
    ∧ (∀ x ∈ [job 7 .p1 true true], x.target = .p1 → x.atPrinter = true) ∧ (job 8 .p1 true false).released = true
    ∧ (job 9 .p1 false false).released = false ∧ PrinterState.headOpen ≠ .ready :=
  ⟨fun _ _ _ => rfl, fun _ _ _ => ⟨rfl, rfl, rfl⟩, by decide, by decide, by decide, by decide, by decide⟩

theorem witness_printer_replies : (st (printing .printing none [job 7 .p1 true true, job 8 .p1 true false])).runs
    ∧ Returned .p1 [job 7 .p1 true true, job 8 .p1 true false] [job 7 .p1 true false, job 8 .p1 true false]
    ∧ Returned .p2 [job 7 .p1 true true] [job 7 .p1 true true]
    ∧ [job 7 .p1 true true, job 8 .p1 true false] = [] ++ job 7 .p1 true true :: [job 8 .p1 true false]
    ∧ (∀ x ∈ [job 7 .p1 true true, job 8 .p1 true false], x.target = .p1 → x.label ≠ 9)
    ∧ ((printing .printing none []).lu.printers.get .p1).state ≠ .offline
    ∧ ((printing .printing none []).lu.printers.get .p1).lastReply = some 4900 :=
  ⟨rfl, .inr ⟨[], job 7 .p1 true true, [job 8 .p1 true false], rfl, by decide, by decide, by decide, rfl⟩,
    .inl ⟨rfl, by decide⟩, rfl, by decide, by decide, by decide⟩

/-- DONE 8 while job 7 is at the printer and job 8 waits in its share. -/
theorem witness_printer_done_other :
    [job 7 .p1 true true, job 8 .p1 true false] = [job 7 .p1 true true] ++ job 8 .p1 true false :: []
    ∧ (∀ x ∈ [job 7 .p1 true true], x.target = .p1 → x.atPrinter = false → x.label ≠ 8)
    ∧ (∀ x ∈ [job 7 .p1 true true, job 8 .p1 true false], x.target = .p1 → x.atPrinter = true → x.label ≠ 8)
    ∧ Returned .p1 ([job 7 .p1 true true] ++ []) [job 7 .p1 true false] :=
  ⟨rfl, by decide, by decide, .inr ⟨[], job 7 .p1 true true, [], rfl, by decide, by decide, by decide, rfl⟩⟩

theorem witness_move_cancel : (∀ r, (st trading).serves 1 r) ∧ PrinterNo.ofNumber 1 = some .p1
    ∧ PrinterNo.ofNumber 4 = some .p4 ∧ (1 : Nat) ≠ 4 ∧ (4 : Nat) < 5 :=
  ⟨fun r => trading_serves 1 r (by decide), by decide⟩

/-! ## Witnesses: counter and day close -/

/-- A part in a counter state, with the clock set or not, and with a calibration session at station 8 or none. -/
def counter (c : CounterState) (valid : Bool) (x : Option Session) : Part :=
  { trading with
    tt := { trading.tt with counter := c }
    time := { trading.time with valid := valid }
    cc := { trading.cc with session := x } }

theorem counter_serves (c : CounterState) (v : Bool) (x : Option Session) (r : HostRequest) (h : c ≠ .starting) :
    (st (counter c v x)).serves 1 r := serves_of 1 r ⟨rfl, rfl, rfl, h⟩ (by decide)

/-- A session at station 8 with a new zero, span and intervals. -/
def session8 : Session := ⟨.s8, .default, some 120000, some ⟨2000000, 10000⟩, some ⟨15000, 6000, 2, 5⟩, 4000⟩

theorem witness_counter : (∀ c v x r, c ≠ .starting → (st (counter c v x)).serves 1 r)
    ∧ (∀ c v x, (counter c v x).tt.counter = c ∧ (counter c v x).time.valid = v ∧ (counter c v x).cc.session = x)
    ∧ some session8 ≠ none ∧ CounterState.closedClosing ≠ .starting ∧ CounterState.closed ≠ .starting
    ∧ CounterState.paused ≠ .starting :=
  ⟨counter_serves, fun _ _ _ => ⟨rfl, rfl, rfl⟩, by decide⟩

/-- An order that is still in the pool when the counter is CLOSED. -/
def leftOver : Part := { withOrder trading (parkedOrder 1) with tt := { trading.tt with counter := .closed } }

/-- A part with an append in flight for a record. -/
def written (r : Record) : Part := appending trading r

theorem written_inFlight (r : Record) : (written r).inFlight = some r := rfl

theorem witness_day_close : (∀ c r, c ≠ .starting → (st (counter c true none)).serves 1 r)
    ∧ (∀ slot ∈ (counter .closed true none).om.pool, slot = none)
    ∧ (counter .closed true none).taken.journalCheck 64 0 = .ok () ∧ (∀ r, (st leftOver).serves 1 r)
    ∧ leftOver.tt.counter = .closed ∧ (∃ slot ∈ leftOver.om.pool, slot ≠ none)
    ∧ (st (written (.dayClose dayOne))).runs ∧ (written (.dayClose dayOne)).inFlight = some (.dayClose dayOne) :=
  ⟨fun c r h => counter_serves c true none r h, by decide, rfl, fun r => serves_of 1 r (by decide) (by decide), by decide,
    by decide, rfl, rfl⟩

/-- DAY CLOSE at a counter that is CLOSED with an empty pool, while the journal is in FAULT. -/
theorem witness_day_close_journal : (st (faultJournal (counter .closed true none))).serves 1 .dayClose
    ∧ (faultJournal (counter .closed true none)).taken.tt.counter = .closed
    ∧ (∀ slot ∈ (faultJournal (counter .closed true none)).taken.om.pool, slot = none)
    ∧ (faultJournal (counter .closed true none)).taken.journalCheck 64 0 = .error .storeFault :=
  ⟨serves_of 1 _ (by decide) (by decide), rfl, by decide, rfl⟩

/-! ## Witnesses: calibration -/

/-- A part that is not trading, with the calibration switch asserted, and no session. -/
def locked : Part := counter .paused true none
def unlocked : Part := { locked with inputs := { locked.inputs with calibrationSwitch := true } }
def unlockedTrading : Part := { trading with inputs := { trading.inputs with calibrationSwitch := true } }
def inSession : Part := { unlocked with cc := { unlocked.cc with session := some session8 } }
def noLink : Part :=
  { unlocked with ml := { unlocked.ml with stations := unlocked.ml.stations.set .s8 .initial } }
def attended : Part := { unlocked with oc := { unlocked.oc with stack := unlocked.oc.stack.set .s8 (.signedOn 14) } }
def auditFull : Part := { unlocked with nv := { unlocked.nv with auditCounter := 128 } }

theorem witness_cal_begin : (∀ r, (st locked).serves 1 r) ∧ (∀ r, (st unlocked).serves 1 r)
    ∧ (∀ r, (st unlockedTrading).serves 1 r) ∧ (∀ r, (st inSession).serves 1 r) ∧ (∀ r, (st noLink).serves 1 r)
    ∧ (∀ r, (st attended).serves 1 r) ∧ (∀ r, (st auditFull).serves 1 r) ∧ StationNo.ofNumber 8 = some .s8
    ∧ locked.inputs.calibrationSwitch = false ∧ unlocked.inputs.calibrationSwitch = true
    ∧ inSession.cc.session ≠ none ∧ unlockedTrading.tt.counter = .trading ∧ unlockedTrading.cc.session = none
    ∧ unlocked.tt.counter ≠ .trading ∧ noLink.link .s8 ≠ .present ∧ (unlocked.config .s8).enabled = true
    ∧ unlocked.link .s8 = .present ∧ (attended.stack .s8).operator ≠ none ∧ (unlocked.stack .s8).operator = none
    ∧ unlocked.om.active.get .s8 = none ∧ 128 ≤ auditFull.nv.auditCounter ∧ unlocked.nv.auditCounter < 128
    ∧ inSession.cc.session = some session8 ∧ inSession.ml.serving = none :=
  ⟨fun r => serves_of 1 r (by decide) (by decide), fun r => serves_of 1 r (by decide) (by decide),
    fun r => serves_of 1 r (by decide) (by decide), fun r => serves_of 1 r (by decide) (by decide),
    fun r => serves_of 1 r (by decide) (by decide), fun r => serves_of 1 r (by decide) (by decide),
    fun r => serves_of 1 r (by decide) (by decide), by decide⟩

/-- The session's station with a raw count that is stable, and one with a spread of 65. -/
def raws (h : List Int) (r : Int) : Part :=
  { inSession with wc := inSession.wc.set .s8 { inSession.wc.s8 with session := true, rawHistory := h, filteredRaw := some r } }

/-- The raw history is stable at a spread of 64 and not at 65; a load at both ends of its range fits or does not. -/
theorem witness_cal_steps : (∀ h r q, (st (raws h r)).serves 1 q) ∧ (∀ h r, (raws h r).cc.session = some session8)
    ∧ (∀ q, (st unlocked).serves 1 q) ∧ unlocked.cc.session = none
    ∧ (∀ u ∈ [64, 0, 0, 0, 0, 0, 0, (0 : Int)], ∀ v ∈ [64, 0, 0, 0, 0, 0, 0, (0 : Int)], u - v ≤ 64)
    ∧ (¬ ∀ u ∈ [65, 0, 0, 0, 0, 0, 0, (0 : Int)], ∀ v ∈ [65, 0, 0, 0, 0, 0, 0, (0 : Int)], u - v ≤ 64)
    ∧ session8.newZero = some 120000 ∧ { session8 with newZero := none }.newZero = none
    ∧ (1500 : Nat) ≤ 15000 ∧ 15000 ≤ 10 * 1500 ∧ (10000 : Int) ≤ 130000 - 120000 ∧ (130000 : Int) - 120000 ≤ 8000000
    ∧ ¬ ((15001 : Nat) ≤ 15000) :=
  ⟨fun _ _ _ => serves_of 1 _ ⟨rfl, rfl, rfl, fun h => nomatch h⟩ (by decide), fun _ _ => rfl,
    fun r => serves_of 1 r (by decide) (by decide), by decide⟩

/-- Intervals that fit, some that do not, and a Max that the span load of the session does not allow. -/
theorem witness_cal_intervals : (2 ∈ [1, 2, 5, 10, 20] ∧ 5 ∈ [1, 2, 5, 10, 20] ∧ (2 : Nat) < 5 ∧ 5 ∣ 15000 ∧ 2 ∣ 6000 ∧ 5 ∣ 6000)
    ∧ ¬ ((3 : Nat) ∈ [1, 2, 5, 10, 20]) ∧ (15000 ≤ 10 * 10000 ∧ 10000 ≤ 15000)
    ∧ session8.newSpan = some ⟨2000000, 10000⟩ ∧ ¬ (10000 ≤ (5000 : Nat)) ∧ 5 ∣ 5000 ∧ (3000 : Nat) ≤ 5000 := by decide

/-- A session that has set nothing. -/
def bare : Part := { unlocked with cc := { unlocked.cc with session := some ⟨.s8, .default, none, none, none, 4000⟩ } }

/-- The session's part while a write of its commit is in flight. -/
def committing (w : HeldWrite) : Part := { inSession with ml := { inSession.ml with serving := some ⟨7, .calCommit, w⟩ } }

theorem witness_cal_commit : (∀ r, (st inSession).serves 1 r) ∧ (∀ r, (st bare).serves 1 r)
    ∧ inSession.taken.cc.session = some session8 ∧ session8.newZero ≠ none
    ∧ bare.taken.cc.session = some ⟨.s8, .default, none, none, none, 4000⟩ ∧ (∀ w, (st (committing w)).runs)
    ∧ (∀ w, (committing w).ml.serving = some ⟨7, .calCommit, w⟩) ∧ (committing (.calAudit entry1)).cc.session = some session8
    ∧ (committing (.calRecord entry1)).cc.session = some session8 :=
  ⟨fun r => serves_of 1 r (by decide) (by decide), fun r => serves_of 1 r (by decide) (by decide), rfl, by decide, rfl,
    fun _ => rfl, fun _ => rfl, rfl, rfl⟩

/-- A session beside the write of another request, and beside each write of its own commit; and no session for a commit. -/
theorem witness_session_writes : (∀ w, (st (committing w)).runs ∧ (committing w).cc.session = some session8)
    ∧ (∀ y, (committing (.setPrefixes 20 29)).ml.serving = some y →
      (∀ e, y.write ≠ .calAudit e) ∧ ∀ e, y.write ≠ .calRecord e)
    ∧ (∃ y, (committing (.calAudit entry1)).ml.serving = some y ∧ y.write = .calAudit entry1)
    ∧ (∃ y, (committing (.calRecord entry1)).ml.serving = some y ∧ y.write = .calRecord entry1)
    ∧ (st unlocked).serves 1 .calCommit ∧ unlocked.taken.cc.session = none :=
  ⟨fun _ => ⟨rfl, rfl⟩, fun y h => by cases h; exact ⟨(fun _ h => nomatch h), (fun _ h => nomatch h)⟩, ⟨_, rfl, rfl⟩,
    ⟨_, rfl, rfl⟩, serves_of 1 _ (by decide) (by decide), rfl⟩

/-! ## Witnesses: journal -/

/-- The journal with a place filled by the line's record, and its sectors. -/
def toAppend (writing : Option Nat) (sectors : List Sector) : Part :=
  { trading with
    nv := { trading.nv with sectors := sectors }
    tj := { trading.tj with writing := writing, queue := [.held 2 .sale, .filled lineRecord] } }

def newSectors : List Sector := List.replicate 32 .blank

theorem witness_append_start : (∀ w x, (st (toAppend w x)).runs) ∧ (∀ w x, (toAppend w x).tj.fault = false
      ∧ (toAppend w x).tj.append = none ∧ firstRecord (toAppend w x).tj.queue = some lineRecord)
    ∧ lineRecord.length ≤ (toAppend (some 0) newSectors).room ∧ (toAppend none newSectors).room < lineRecord.length
    ∧ (toAppend none newSectors).sectorToOpen = some 0 ∧ (toAppend none fullSectors).room < lineRecord.length
    ∧ (toAppend none fullSectors).sectorToOpen = none ∧ (scheduled (fun j => { j with fault := true })).tj.fault = true
    ∧ (∀ x, Place.filled x ∉ trading.tj.queue) :=
  ⟨fun _ _ => rfl, fun _ _ => ⟨rfl, rfl, rfl⟩, by decide, by decide, by decide, by decide, by decide, rfl,
    (fun _ h => nomatch h)⟩

/-- The part after the writing sector 0 has been marked BAD. -/
def markedBad (p : Part) : Part :=
  { p with nv := { p.nv with
      sectors := p.nv.sectors.modify 0 (fun x => { x with mark := .bad, seq := some p.tj.writingSeq, torn := none }) } }

/-- An append in flight in a part with no sector to open. -/
def lastSector (a : Append) : Part :=
  { written lineRecord with
    nv := { trading.nv with sectors := fullSectors }
    tj := { (written lineRecord).tj with append := some a } }

theorem witness_append_fails : (st (written lineRecord)).runs ∧ (written lineRecord).tj.append = some .first
    ∧ (written lineRecord).tj.writing = some 0 ∧ (markedBad (written lineRecord)).sectorToOpen = some 1
    ∧ (lastSector .first).tj.append = some .first ∧ (markedBad (lastSector .first)).sectorToOpen = none
    ∧ (lastSector (.retry 3)).tj.append = some (.retry 3) ∧ Append.retry 3 ≠ .first ∧ (lastSector .first).tj.writing = some 0 :=
  ⟨rfl, by decide⟩

/-- An order in CLOSING whose record waits for its line, with and without a ticket. -/
def waitingOrder : Order := order1 (.closing .sale .waiting) .pending
def ticketOrder : Order := { closingOrder 1 with ticket := some 99 }

/-- An order whose line failed: the only one, or one of two, in OPEN or while its close waits, in FAULT. -/
def twoLines : List Line := [⟨line1, .pending⟩, ⟨{ line1 with index := 2 }, .active⟩]
def faulty (s : OrderState) (ls : List Line) : Part :=
  let p := withOrder manned { order1 s .pending with lines := ls }
  { p with tj := { p.tj with fault := true, queue := [.held 1 .sale] } }

theorem witness_failed_lines : (∀ s ls, (faulty s ls).order 1 = some { order1 s .pending with lines := ls })
    ∧ twoLines = [] ++ ⟨line1, .pending⟩ :: [⟨{ line1 with index := 2 }, .active⟩]
    ∧ (∀ kind, (order1 (.opened .s1) .pending).state ≠ .closing kind .waiting) ∧ waitingOrder.state = .closing .sale .waiting
    ∧ (∀ x ∈ ([] : List Line), x.state ≠ .pending) ∧ (∀ x ∈ [(⟨{ line1 with index := 2 }, .active⟩ : Line)], x.state ≠ .pending)
    ∧ (∃ x ∈ [(⟨{ line1 with index := 2 }, .active⟩ : Line)], x.state = .active)
    ∧ (∀ s ls, (faulty s ls).tj.fault = true ∧ (faulty s ls).tj.waiting = none) :=
  ⟨fun s ls => by
      simp [faulty, withOrder, Part.order, OrderManager.orders, lookup, order1],
    rfl, (fun _ h => nomatch h), rfl, by decide, by decide, by decide, fun _ _ => ⟨rfl, rfl⟩⟩

/-- A waiting sale with a TOTAL label whose failed line was the last PENDING one beside a VOIDED one. -/
def lastVoided : List Line := [⟨line1, .pending⟩, ⟨{ line1 with index := 2 }, .voided⟩]
def voidedLeft : Part :=
  let p := withOrder manned { waitingOrder with lines := lastVoided, totalLabel := some 9 }
  { p with tj := { p.tj with fault := true, queue := [.held 1 .sale] } }

theorem witness_failed_voided : voidedLeft.order 1 = some { waitingOrder with lines := lastVoided, totalLabel := some 9 }
    ∧ lastVoided = [] ++ ⟨line1, .pending⟩ :: [⟨{ line1 with index := 2 }, .voided⟩]
    ∧ (∀ x ∈ [(⟨{ line1 with index := 2 }, .voided⟩ : Line)], x.state = .voided) ∧ voidedLeft.tj.fault = true
    ∧ voidedLeft.tj.waiting = none ∧ (∀ x, Place.filled x ∉ voidedLeft.tj.queue)
    ∧ dropHeld 1 voidedLeft.tj.queue = [] :=
  ⟨by decide, rfl, by decide, rfl, rfl, fun x h => by simp [voidedLeft] at h, by decide⟩

/-- An order in CLOSING, a set in APPLYING, and a store-back whose record is queued. -/
theorem witness_failed_records : (besides (closingOrder 1)).order 1 = some (closingOrder 1)
    ∧ (withSet (.applying 1 [.hold 3107] none) none).art.changeSet.content = some (1, [.hold 3107])
    ∧ (storing (.storing 1 .queued [])).art.storeBack = .storing 1 .queued [] := by decide

/-- An order in slot 1 while the append of a record is in flight. -/
def recorded (o : Order) (r : Record) : Part := appending (withOrder manned o) r

theorem recorded_inFlight (o : Order) (r : Record) : (recorded o r).inFlight = some r := rfl

theorem witness_records_written : (∀ o r, (st (recorded o r)).runs ∧ (recorded o r).inFlight = some r)
    ∧ (∀ o r, o.number = 1 → (recorded o r).order 1 = some o)
    ∧ (order1 (.opened .s1) .pending).line line1.index = some ⟨line1, .pending⟩ ∧ (parkedOrder 1).state = .parked
    ∧ waitingOrder.state = .closing .sale .waiting ∧ waitingOrder.line line1.index = some ⟨line1, .pending⟩
    ∧ (waitingOrder.withLineState line1.index .active).hasPending = false
    ∧ (∀ r, (recorded waitingOrder r).tj.fault = false) ∧ (closingOrder 1).ticket = none ∧ ticketOrder.ticket = some 99
    ∧ [(⟨ticket1, ⟨⟨2000, 1, 1⟩, ⟨8, 5, 0⟩⟩, .s1, 1⟩ : ServingTicket)] = [] ++ ⟨ticket1, ⟨⟨2000, 1, 1⟩, ⟨8, 5, 0⟩⟩, .s1, 1⟩ :: []
    ∧ ticket1.number = 99 :=
  ⟨fun _ _ => ⟨rfl, rfl⟩, fun o r h => by simp [recorded, appending, withOrder, Part.order, OrderManager.orders, lookup, h],
    by decide, by decide, by decide, by decide, by decide, fun _ => rfl, by decide, by decide, rfl, rfl⟩

/-- A close that waits for two PENDING lines, and a void close that waits for one, with its held place behind the record. -/
def waitingFor (kind : CloseKind) (ls : List Line) : Part :=
  let p := recorded { waitingOrder with state := .closing kind .waiting, lines := ls } lineRecord
  { p with tj := { p.tj with queue := [.filled lineRecord, .held 1 kind] } }

theorem witness_line_written_closing : (∀ kind ls, (st (waitingFor kind ls)).runs
      ∧ (waitingFor kind ls).inFlight = some (.line 1 14 line1)
      ∧ (waitingFor kind ls).order 1 = some { waitingOrder with state := .closing kind .waiting, lines := ls }
      ∧ (waitingFor kind ls).tj.fault = false)
    ∧ ({ waitingOrder with lines := [⟨line1, .pending⟩, ⟨{ line1 with index := 2 }, .pending⟩] } : Order).line line1.index
      = some ⟨line1, .pending⟩
    ∧ (({ waitingOrder with lines := [⟨line1, .pending⟩, ⟨{ line1 with index := 2 }, .pending⟩] } : Order).withLineState
      line1.index .active).hasPending = true
    ∧ (({ waitingOrder with lines := [⟨line1, .pending⟩] } : Order).withLineState line1.index .active).hasPending = false
    ∧ (∀ kind, dropFirstRecord (waitingFor kind []).tj.queue = [] ++ .held 1 kind :: [])
    ∧ ∀ n k, Place.held n k ∉ ([] : List Place) :=
  ⟨fun kind ls => ⟨rfl, rfl, by
      simp [waitingFor, recorded, appending, withOrder, Part.order, OrderManager.orders, lookup, waitingOrder, order1], rfl⟩,
    by decide, by decide, by decide, fun _ => rfl, fun _ _ h => nomatch h⟩

/-- A record on its retry; and the last PENDING line of a close that waits, with its held place and a TOTAL label. -/
theorem witness_retried : (∀ r b, (st { written r with tj := { (written r).tj with append := some (.retry b) } }).part.inFlight
      = some r)
    ∧ (written lineRecord).tj.append = some .first ∧ { waitingOrder with totalLabel := some 9 }.state = .closing .sale .waiting
    ∧ Place.held 1 .sale ∈ [Place.filled lineRecord, Place.held 1 .sale] := ⟨fun _ _ => rfl, rfl, rfl, by decide⟩

/-- Each completion with its record in flight where the records read before it are those that were written: none, or the line of
the order that is closed. -/
theorem witness_rebuilt : (∀ r, (st (written r)).runs ∧ (written r).inFlight = some r)
    ∧ (rebuild []).accumulators = trading.tt.accumulators ∧ (rebuild [lineRecord]).accumulators = trading.tt.accumulators
    ∧ (∀ r, (recorded (closingOrder 1) r).inFlight = some r ∧ (recorded (closingOrder 1) r).tt.accumulators = .zero)
    ∧ (∀ r, (recorded (closingOrder 1) r).order 1 = some (closingOrder 1))
    ∧ (closingOrder 1).lines.map (fun l => (l.fields, decide (l.state = .voided))) = ((rebuild [lineRecord]).group 1 0).lines :=
  ⟨fun _ => ⟨rfl, rfl⟩, rfl, by decide, fun _ => ⟨rfl, rfl⟩,
    fun _ => by simp [recorded, appending, withOrder, Part.order, OrderManager.orders, lookup, closingOrder], by decide⟩

/-- Accumulators with an entry of the line's article and of the owner, with neither, and with no room for one. -/
def soldBefore : Accumulators := { Accumulators.zero with articles := [⟨3107, ⟨1, 0, 1, 899⟩⟩], clerks := [⟨14, ⟨1, 899, 0, 0⟩⟩] }
def fullAccumulators : Accumulators :=
  { Accumulators.zero with
    articles := List.replicate 2048 ⟨1, ⟨0, 0, 0, 0⟩⟩
    clerks := List.replicate 32 ⟨1, ⟨0, 0, 0, 0⟩⟩ }

theorem witness_accumulators : lookup ArticleEntry.article line1.article soldBefore.articles = some ⟨3107, ⟨1, 0, 1, 899⟩⟩
    ∧ lookup ClerkEntry.clerk 14 soldBefore.clerks = some ⟨14, ⟨1, 899, 0, 0⟩⟩
    ∧ lookup ArticleEntry.article line1.article Accumulators.zero.articles = none ∧ Accumulators.zero.articles.length < 2048
    ∧ lookup ClerkEntry.clerk 14 Accumulators.zero.clerks = none ∧ Accumulators.zero.clerks.length < 32
    ∧ lookup ArticleEntry.article line1.article fullAccumulators.articles = none ∧ fullAccumulators.articles.length = 2048
    ∧ lookup ClerkEntry.clerk 14 fullAccumulators.clerks = none ∧ fullAccumulators.clerks.length = 32
    ∧ (soldBefore.articles.map ArticleEntry.article).Pairwise (· < ·) ∧ (soldBefore.clerks.map ClerkEntry.clerk).Pairwise (· < ·)
    ∧ line1.overriddenBy = none ∧ { line1 with overriddenBy := some 3 }.overriddenBy ≠ none
    ∧ 1 ≤ { line1 with department := 1 }.department ∧ 1 ≤ { line1 with department := 16 }.department :=
  ⟨by decide, by decide, by decide, by decide, by decide, by decide,
    List.find?_eq_none.2 fun e h => by rw [List.eq_of_mem_replicate h]; decide, List.length_replicate,
    List.find?_eq_none.2 fun e h => by rw [List.eq_of_mem_replicate h]; decide, List.length_replicate,
    by decide, by decide, by decide, by decide, by decide, by decide⟩

/-- A CLOSE adds its line to the article, the department, the station, the owner and the counter-wide figures; a VOIDED line only
to the voided ones (R173). -/
theorem test_close_accumulates :
    let b := soldBefore.addClose 14 899 (some 9) [line1] [{ line1 with index := 2, label := none }]
    b.articles = [⟨3107, ⟨2, 0, 2, 1798⟩⟩] ∧ b.departments[3]? = some ⟨1, 899⟩ ∧ b.stations.get .s1 = ⟨1, 899⟩
    ∧ b.clerks = [⟨14, ⟨2, 1798, 0, 0⟩⟩] ∧ b.counter.voidedLines = 1 ∧ b.counter.voidedLineValue = 899
    ∧ b.counter.labelsMade = 2 := by decide

theorem trading_ascending : trading.Ascending := ⟨by decide, by decide⟩

/-- A part whose store-back has writes to make. -/
def writingBack (es : List ChangeEntry) : Part := storing (.storing 1 (.writing es) [])

theorem witness_price_switch : (∀ g es t, (st (written (.priceApply g es t))).runs
      ∧ (written (.priceApply g es t)).inFlight = some (.priceApply g es t))
    ∧ (manned.art.selections.get .s1).article = some 3107 ∧ (manned.art.selections.get .s2).article = none
    ∧ lookup Article.number 3107 [{ tea with held := true }] = some { tea with held := true }
    ∧ lookup ChangeEntry.number 3107 [ChangeEntry.put tea] = some (.put tea)
    ∧ (∀ b, lookup ChangeEntry.number 3107 [ChangeEntry.release 3107] ≠ some (.put b))
    ∧ (∀ es, (st (writingBack es)).runs ∧ (writingBack es).art.storeBack = .storing 1 (.writing es) [])
    ∧ (writingBack [.hold 3107]).article (ChangeEntry.hold 3107).number = some tea
    ∧ ChangeEntry.hold 3107 ≠ .delete 3107 ∧ (writingBack [.hold 3107]).tj.fault = false
    ∧ (writingBack [.hold 3107]).hasSpace 24 1 = true ∧ (writingBack [.hold 3107]).hasPlace = true
    ∧ ∀ r, (written r).Ascending :=
  ⟨fun _ _ _ => ⟨rfl, rfl⟩, by decide, by decide, by decide, by decide, fun b h => by simp [lookup, ChangeEntry.number] at h,
    fun _ => ⟨rfl, rfl⟩, by decide, by decide, by decide, by decide, by decide,
    fun _ => ⟨trading_ascending.table, trading_ascending.area⟩⟩

/-- A preset tare at Max, and above it; and a PRESET and a WEIGHED tare at the switch. -/
theorem witness_switch_tares : { ham with presetTare := some 15000 }.presetTare = some 15000
    ∧ 15000 ≤ (manned.wc.get .s1).cal.max ∧ (manned.wc.get .s1).cal.max < 15001
    ∧ ((⟨.preset, 8⟩ : Tare).kind = .preset ∧ (⟨.weighed, 8⟩ : Tare).kind ≠ .preset ∧ (manned.wc.get .s1).tare.kind = .none) := by
  decide

/-- A part whose PRICE_STORED record is in flight, with a generation still to be stored or none. -/
def storedBack (later : List OwedGeneration) : Part :=
  { written (.priceStored 1) with art := { trading.art with storeBack := .storing 1 .queued later } }

theorem witness_price_stored : (∀ l, (st (storedBack l)).runs ∧ (storedBack l).inFlight = some (.priceStored 1)
      ∧ (storedBack l).art.storeBack = .storing 1 .queued l) := fun _ => ⟨rfl, rfl, rfl⟩

/-- The last article is stored while the journal is in FAULT, has no space, or has no place free. -/
def lastStored (j : Journal → Journal) : Part :=
  { writingBack [.hold 3107] with tj := j trading.tj }

theorem witness_store_offers : (∀ j, (st (lastStored j)).runs
      ∧ (lastStored j).art.storeBack = .storing 1 (.writing [.hold 3107]) [])
    ∧ (lastStored (fun j => { j with fault := true })).tj.fault = true ∧ (lastStored id).tj.fault = false
    ∧ { lastStored id with nv := { trading.nv with sectors := fullSectors } }.hasSpace 24 1 = false
    ∧ (lastStored (fun j => { j with queue := eightHeld })).hasSpace 24 1 = true
    ∧ (lastStored (fun j => { j with queue := eightHeld })).hasPlace = false :=
  ⟨fun _ => ⟨rfl, rfl⟩, rfl, rfl, by decide, by decide, by decide⟩

/-- A ring of sectors: one with the ERASE_BEGUN mark, or all FULL with a day close in the newest. -/
def begunSectors : List Sector := ⟨.eraseBegun, none, [], none, false⟩ :: List.replicate 31 .blank
def closedSectors : List Sector :=
  (List.range 31).map (fun n => ⟨.inUse, some (n + 1), [⟨lineRecord, 0⟩], none, false⟩)
    ++ [⟨.inUse, some 32, [⟨.dayClose dayOne, 0⟩], none, false⟩]
def ring (sectors : List Sector) (e : Option Erase) (queue : List Place) : Part :=
  { trading with
    nv := { trading.nv with sectors := sectors }
    tj := { trading.tj with erase := e, queue := queue } }

theorem witness_erases : (∀ x e q, (st (ring x e q)).runs ∧ (ring x e q).tt.counter ≠ .starting
      ∧ (ring x e q).tj.fault = false ∧ (ring x e q).tj.erase = e)
    ∧ (ring begunSectors none []).begun = some 0 ∧ (ring closedSectors none []).begun = none
    ∧ (ring closedSectors none []).erasedCount < 4 ∧ (ring closedSectors none []).candidate = some 0
    ∧ (ring newSectors none []).begun = none ∧ 4 ≤ (ring newSectors none []).erasedCount
    ∧ (∀ x, Place.filled x ∉ [Place.held 1 .sale]) ∧ Place.filled lineRecord ∈ [Place.filled lineRecord]
    ∧ (∀ x e q g l, (ring x e q).art.storeBack ≠ .storing g .refused l) :=
  ⟨fun _ _ _ => ⟨rfl, (fun h => nomatch h), rfl, rfl⟩, by decide, by decide, by decide, by decide, by decide, by decide,
    fun x h => by simp at h, by decide, fun _ _ _ _ _ h => nomatch h⟩

/-- A journal in FAULT with no erase, with one in flight, and with one that is suspended. -/
theorem witness_erase_fault : ∀ x e q, (st (faultJournal (ring x e q))).runs
    ∧ (faultJournal (ring x e q)).tj.fault = true ∧ (faultJournal (ring x e q)).tj.erase = e := fun _ _ _ => ⟨rfl, rfl, rfl⟩

/-- All sectors FULL with records of the day. -/
def lowCandidate : Part := ring ((List.range 32).map (fun n => ⟨.inUse, some (n + 1), [⟨lineRecord, 0⟩], none, false⟩)) none []

/-- A PRICE_STORED that was refused, at the end of an erase: with space after it, and without. -/
def refusedRing (sectors : List Sector) (queue : List Place) : Part :=
  { ring sectors (some ⟨0, false⟩) queue with art := { trading.art with storeBack := .storing 1 .refused [] } }

theorem witness_refused_store : (∀ x q, (refusedRing x q).tj.erase = some ⟨0, false⟩
      ∧ (refusedRing x q).art.storeBack = .storing 1 .refused [] ∧ (st (refusedRing x q)).runs)
    ∧ (refusedRing newSectors []).hasSpace 24 1 = true ∧ (refusedRing newSectors []).hasPlace = true
    ∧ (refusedRing newSectors eightHeld).hasSpace 24 1 = true ∧ (refusedRing newSectors eightHeld).hasPlace = false
    ∧ (refusedRing fullSectors []).hasSpace 24 1 = false :=
  ⟨fun _ _ => ⟨rfl, rfl, rfl⟩, by decide⟩

/-- The room of the journal: three records in the writing sector's room and a fresh sector, a record of the whole area, a FULL
sector that is the candidate, and one that is not for its PRICE_APPLY. -/
theorem witness_journal_room : (∀ x ∈ [4064, 1, 4063, (56 : Nat)], x ≤ 4064) ∧ freshSectors 56 [56, 4064] = 1
    ∧ freshSectors 56 [56, 4064, 1] = 2 ∧ freshSectors 0 [4064] = 1 ∧ freshSectors 4064 [4064] = 0
    ∧ (toAppend (some 0) newSectors).tj.writing = some 0 ∧ (toAppend none newSectors).tj.writing = none
    ∧ (ring closedSectors none []).candidate = some 0
    ∧ erasable closedSectors ⟨0, ⟨.inUse, some 1, [⟨lineRecord, 0⟩], none, false⟩⟩ = true
    ∧ erasable closedSectors ⟨0, ⟨.inUse, some 1, [⟨.priceApply 2 [] none, 0⟩], none, false⟩⟩ = false
    ∧ erasable closedSectors ⟨0, ⟨.inUse, some 1, [⟨.priceApply 2 [] none, 0⟩, ⟨.priceStored 2, 0⟩], none, false⟩⟩ = true
    ∧ (ring fullSectors none []).candidate = some 0 ∧ lowCandidate.candidate = none := by decide

/-- The oldest of the FULL sectors. -/
def oldest : Indexed := ⟨0, ⟨.inUse, some 1, [⟨lineRecord, 0⟩], none, false⟩⟩

theorem closed_marks : ∀ z ∈ closedSectors, z.mark = .inUse := by decide
theorem closed_seqs : ∀ j < 32, (closedSectors[j]?).map Sector.seq = some (some (j + 1)) := by decide

theorem closed_at {j : Nat} {z : Sector} (h : closedSectors[j]? = some z) : z.mark = .inUse ∧ z.seq = some (j + 1) := by
  refine ⟨closed_marks z (List.mem_of_getElem? h), ?_⟩
  have hj : j < 32 := (List.getElem?_eq_some_iff.1 h).1
  have := closed_seqs j hj
  rw [h] at this
  exact Option.some.inj this

/-- The oldest FULL sector is the only one with the lowest sequence number, and no sector is BAD. -/
theorem witness_candidate : closedSectors[oldest.index]? = some oldest.sector ∧ oldest.sector.mark = .inUse
    ∧ (ring closedSectors none []).tj.writing ≠ some oldest.index ∧ erasable closedSectors oldest = true
    ∧ (∀ (j : Nat) (z : Sector), closedSectors[j]? = some z → z.mark ≠ .bad)
    ∧ (∀ z : Indexed, closedSectors[z.index]? = some z.sector → z.index ≠ 0 → oldest.seq < z.seq)
    ∧ (∀ (j : Nat) (y : Sector), closedSectors[j]? = some y → y.seq = oldest.sector.seq → j = oldest.index) := by
  refine ⟨rfl, rfl, (fun h => nomatch h), by decide, fun j z h => ?_, fun z h hz => ?_, fun j y h hy => ?_⟩
  · rw [(closed_at h).1]; decide
  · have : z.seq = z.index + 1 := by simp [Indexed.seq, (closed_at h).2]
    have : oldest.seq = 1 := rfl
    omega
  · rw [(closed_at h).2] at hy
    have : j + 1 = 1 := Option.some.inj hy
    have : oldest.index = 0 := rfl
    omega

/-- A ring of sectors with records of the day, and the erase of the last ends: the journal is low. -/
def lowRing : Part :=
  ring ((List.range 32).map (fun n => ⟨.inUse, some (n + 1), [⟨lineRecord, 0⟩], none, false⟩)) (some ⟨31, false⟩) []

theorem witness_low_journal : (∃ t, exec (.eraseDone true) (st lowRing) = .next t
      ∧ (st lowRing).judgesErase (.eraseDone true) t ∧ t.part.erasedCount < 4 ∧ t.part.tj.erase = none
      ∧ t.part.begun = none ∧ t.part.candidate = none)
    ∧ (∃ t, exec .appendStart (st (toAppend none newSectors)) = .next t
      ∧ (st (toAppend none newSectors)).judgesErase .appendStart t ∧ ¬ t.part.erasedCount < 4)
    ∧ ∃ t, exec .appendStart (st (toAppend (some 0) newSectors)) = .next t
      ∧ ¬ (st (toAppend (some 0) newSectors)).judgesErase .appendStart t := by
  refine ⟨⟨_, rfl, ⟨rfl, .inr (.inr (.inr (.inr (.inl ⟨true, 31, rfl, rfl, rfl⟩))))⟩, by decide, by decide, by decide,
    by decide⟩, ⟨_, rfl, ⟨rfl, .inl ⟨rfl, rfl, by decide, by decide⟩⟩, by decide⟩, _, rfl, ?_⟩
  rintro ⟨-, h | h | h | h | h | h⟩
  · exact h.2.2.2 (by decide)
  · cases h.1
  · cases h.1
  · cases h.1
  · obtain ⟨_, _, h, -⟩ := h
    cases h
  · obtain ⟨_, h, -⟩ := h
    cases h

/-- A print queue of 23 jobs, which the job of a line makes 24. -/
def manyJobs : Part := { selling with lu := { selling.lu with queue := List.replicate 23 (job 7 .p1 true false) } }

theorem witness_long_queue : ∃ t, exec (.addLine .s1 255) (st manyJobs) = .next t
    ∧ t.part.lu.queue.length = (st manyJobs).part.lu.queue.length + 1 ∧ 24 ≤ t.part.lu.queue.length :=
  ⟨_, rfl, by decide, by decide⟩

/-! ## Witnesses: station bus -/

/-- A part in which a station was polled last, and the wait for the reply of station 8 runs or not. -/
def polling (last : StationNo) (w : Option AwaitedReply) : Part :=
  { trading with ml := { trading.ml with lastPolled := some last, awaited := w } }

/-- Stations 2 to 7 disabled. -/
def ends : Part :=
  { polling .s1 none with wc := PerStation.set (PerStation.map (fun c => { c with config := disabled }) trading.wc) .s8 trading.wc.s8 }

theorem witness_poll : (∀ l w, (st (polling l w)).runs ∧ (polling l w).ml.awaited = w ∧ (polling l w).ml.lastPolled = some l)
    ∧ (∀ x, ((polling .s1 none).config x).enabled = true) ∧ StationNo.s7.number < StationNo.s8.number
    ∧ (∀ x : StationNo, StationNo.s7.number < x.number → x.number < StationNo.s8.number → False)
    ∧ (∀ x : StationNo, StationNo.s8.number < x.number → False) ∧ (∀ x : StationNo, x.number < StationNo.s1.number → False)
    ∧ (ends.config .s8).enabled = true
    ∧ (∀ x, StationNo.s1.number < x.number → x.number < StationNo.s8.number → (ends.config x).enabled = false)
    ∧ (∀ x, x.number < StationNo.s8.number → (ends.config x).enabled = false) :=
  ⟨fun _ _ => ⟨rfl, rfl, rfl⟩, fun x => by cases x <;> rfl, by decide, fun x => by cases x <;> decide,
    fun x => by cases x <;> decide, fun x => by cases x <;> decide, by decide, fun x => by cases x <;> decide,
    fun x => by cases x <;> decide⟩

/-- No station has been polled since the reset: the lowest enabled one is next. -/
theorem witness_first_poll : (st trading).runs ∧ trading.ml.awaited = none ∧ trading.ml.lastPolled = none
    ∧ (trading.config .s1).enabled = true ∧ (∀ x : StationNo, x.number < StationNo.s1.number → False)
    ∧ { ends with ml := trading.ml }.ml.lastPolled = none ∧ ({ ends with ml := trading.ml }.config .s8).enabled = true
    ∧ ∀ x, x.number < StationNo.s8.number → ({ ends with ml := trading.ml }.config x).enabled = false :=
  ⟨rfl, rfl, rfl, by decide, fun x => by cases x <;> decide, rfl, by decide, fun x => by cases x <;> decide⟩

/-- A valid reply with the extreme samples, at the end of its 2 ms, and replies that are not valid. -/
theorem witness_station_reply : (polling .s8 (some ⟨.s8, 4998⟩)).ml.awaited = some ⟨.s8, 4998⟩
    ∧ (polling .s8 (some ⟨.s8, 4998⟩)).time.elapsed ≤ 4998 + 2
    ∧ (⟨8, true, 4294967295, [-8388608, 8388607], []⟩ : StationReply).address = StationNo.s8.number
    ∧ (∀ x ∈ [(-8388608 : Int), 8388607], -8388608 ≤ x ∧ x ≤ 8388607) ∧ (7 : Nat) ≠ StationNo.s8.number
    ∧ 4 < [(0 : Int), 0, 0, 0, 0].length ∧ (∃ k ∈ [(⟨0, some Key.park⟩ : KeyRequest)], k.tag = 0 ∨ k.key = none)
    ∧ (4997 : Nat) + 2 < (polling .s8 (some ⟨.s8, 4997⟩)).time.elapsed
    ∧ (∃ x ∈ [(8388608 : Int)], x < -8388608 ∨ 8388607 < x) ∧ (∃ x ∈ [(-8388609 : Int)], x < -8388608 ∨ 8388607 < x)
    ∧ (4294967295 : Nat) < 4294967296
    ∧ (∃ k ∈ [(⟨256, some Key.park⟩ : KeyRequest)], k.tag = 0 ∨ 255 < k.tag ∨ k.key = none)
    ∧ (⟨255, some .openOrder⟩ : KeyRequest).tag = (⟨255, some .addLine⟩ : KeyRequest).tag :=
  ⟨rfl, by decide⟩

/-- A part that has polled station 1 and has kept a key tag there. -/
def asked (kept : Nat) : Part :=
  { manned with ml := { manned.ml with
      stations := manned.ml.stations.set .s1 { manned.ml.stations.s1 with keptTag := some kept }
      awaited := some ⟨.s1, 4998⟩ } }

/-- A reply with two key requests whose first is a retransmission, or is not. -/
theorem witness_reply_keys : (∀ k, (st (asked k)).runs ∧ (asked k).ml.awaited = some ⟨.s1, 4998⟩
      ∧ (asked k).time.elapsed ≤ 4998 + 2 ∧ ((asked k).ml.stations.get .s1).keptTag = some k)
    ∧ (⟨1, true, 1, [0], [⟨1, some .openOrder⟩, ⟨255, some .addLine⟩]⟩ : StationReply).address = StationNo.s1.number
    ∧ (Instr.addLine .s1 255).keyRequest? = some (.s1, 255, .addLine)
    ∧ (Instr.openOrder .s1 1).keyRequest? = some (.s1, 1, .openOrder) ∧ (1 : Nat) ≠ 255 :=
  ⟨fun _ => ⟨rfl, rfl, of_decide_eq_true rfl, rfl⟩, rfl, rfl, rfl, by decide⟩

theorem witness_stale : (st inSession).runs ∧ inSession.link .s8 = .present
    ∧ (inSession.ml.stations.get .s8).lastReply = some 4900 ∧ inSession.cc.session = some session8 ∧ session8.station = .s8
    ∧ inSession.ml.serving = none ∧ inSession.cc.session.map Session.station ≠ some .s1 ∧ inSession.link .s1 = .present
    ∧ (committing (.calAudit entry1)).link .s8 = .present :=
  ⟨rfl, by decide⟩

/-! ## Witnesses: laws of the part -/

/-- A part that sells to ticket 99: a PENDING line at station 1 with its HELD job, two labels before the wrap, and a change
set in APPLYING behind it in the write queue. -/
def served : Part :=
  { withOrder manned { order1 (.opened .s1) .pending with ticket := some 99 } with
    tc := { manned.tc with
      serving := [⟨ticket1, ⟨⟨2000, 1, 1⟩, ⟨8, 5, 0⟩⟩, .s1, 1⟩]
      callList := [⟨99, .s1⟩]
      lastIssued := 99 }
    lu := { manned.lu with lastLabel := 4294967293, queue := [job 1 .p1 false false] }
    nv := { manned.nv with settings := { manned.nv.settings with clerks := manned.oc.clerks } }
    art := { manned.art with changeSet := .applying 1 [.hold 3107] none }
    tj := { manned.tj with queue := [.filled lineRecord, .filled (.priceApply 2 [.hold 3107] none)] } }

theorem served_content {base : Nat} {es : List ChangeEntry} (h : served.art.changeSet.content = some (base, es)) :
    base = 1 ∧ es = [.hold 3107] := by
  have : (1, [ChangeEntry.hold 3107]) = (base, es) := Option.some.inj h
  exact ⟨(congrArg Prod.fst this).symm, (congrArg Prod.snd this).symm⟩

/-- The order of ticket 99. -/
def ticketLine : Order := { order1 (.opened .s1) .pending with ticket := some 99 }

theorem served_orders : served.om.orders = [ticketLine] := rfl

theorem served_fits : served.Fits :=
  ⟨by decide, fun _ _ h => by rw [(served_content h).2]; decide, by decide, by decide, by decide, by decide, by decide,
    by decide, by decide, by decide, by decide, by decide, by decide, by decide⟩

theorem served_inv : served.Inv :=
  ⟨served_fits, ⟨by decide, fun _ _ h => by rw [(served_content h).2]; decide, by decide, by decide⟩,
    ⟨(fun _ h => nomatch h), (fun h => nomatch h)⟩,
    (by show ∀ j ∈ [job 1 .p1 false false], _; decide), rfl, fun h => nomatch h⟩

theorem served_runs : served.time.Runs := ⟨⟨by decide, by decide, by decide, by decide⟩, by decide⟩

theorem witness_laws : (st served).part.Inv ∧ (st served).part.time.Runs ∧ ∃ t, step (st served) = .next t :=
  ⟨served_inv, served_runs, _, rfl⟩

theorem served_bound : served.Bound where
  distinct := by decide
  bound := by
    have h1 : served.om.active.get .s1 = some 1 := rfl
    have h2 : ∀ x, x ≠ .s1 → served.om.active.get x = none := fun x => by
      cases x <;> first | exact fun h => absurd rfl h | exact fun _ => rfl
    intro x n
    simp only [served_orders, List.mem_singleton, exists_eq_left, ticketLine, order1, OrderState.opened.injEq]
    by_cases hx : x = .s1
    · subst hx; simp [h1]
    · simp [h2 x hx, Ne.symm hx]
  once := by decide
  held := fun n k h => by simp [served] at h
  filled := fun r n h hc => by
    have : r = lineRecord ∨ r = .priceApply 2 [.hold 3107] none := by simpa [served] using h
    rcases this with rfl | rfl <;> cases hc
  waits := fun _ h => nomatch h
  lines := by decide
  owned := fun clerk => by
    simp only [Part.ownedBy, served_orders]
    exact Nat.le_trans (List.length_filter_le _ _) (by decide)

theorem witness_bound : (st served).part.Inv ∧ (st served).part.Bound := ⟨served_inv, served_bound⟩

theorem served_ticketed : served.Ticketed where
  distinct := by decide
  range := by decide
  last := by decide
  bound := fun n k => by
    simp only [served_orders, List.mem_singleton, exists_eq_left]
    show (∃ t ∈ [_], _) ↔ _
    simp [ticketLine, order1, ticket1]
    omega
  serving := by decide
  calls := by decide

theorem witness_ticketed : (st served).part.Inv ∧ (st served).part.Bound ∧ (st served).part.Ticketed
    ∧ served.tc.waiting.length < 64 := ⟨served_inv, served_bound, served_ticketed, by decide⟩

theorem served_priced : served.Priced where
  totals := by decide
  lines := fun n owner f h => by
    have : n = 1 ∧ owner = 14 ∧ f = line1 := by simpa [served, lineRecord] using h
    obtain ⟨rfl, rfl, rfl⟩ := this
    exact ⟨ticketLine, by decide, by decide, by decide, by decide⟩
  once := by decide
  waits := fun _ h => nomatch h
  settled := fun o ho kind r h => by
    rw [served_orders, List.mem_singleton] at ho
    subst ho
    cases h
  closes := fun _ _ _ _ _ _ _ h => by simp [served, lineRecord] at h
  voids := fun _ _ _ _ h => by simp [served, lineRecord] at h

theorem served_labelled : served.Labelled where
  records := by decide
  jobs := by decide
  taken := fun _ n h => by
    have hr : served.recordLabels = [1] := rfl
    have hj : served.jobLabels = [1] := rfl
    have hl : served.lu.lastLabel = 4294967293 := rfl
    simp only [hr, hj, List.mem_singleton] at h
    omega

theorem witness_labelled : (st served).part.Inv ∧ (st served).part.Bound ∧ (st served).part.Priced ∧ (st served).part.Labelled
    ∧ (st served).part.lu.lastLabel + 2 ≤ 4294967295 ∧ (st served).part.tt.counter ≠ .starting
    ∧ ∃ t, step (st served) = .next t :=
  ⟨served_inv, served_bound, served_priced, served_labelled, by decide, (fun h => nomatch h), _, rfl⟩

/-- The end of a scan whose journal holds a DAY_CLOSE with the last label 5 and a line of label 6. -/
def relabelSector : Sector :=
  ⟨.inUse, some 1, [.of (.dayClose { dayOne with lastLabel := 5 }), .of (.line 1 14 { line1 with label := some 6 })], none, false⟩
def relabelling : State :=
  ⟨{ State.reset.part with nv := { State.reset.part.nv with sectors := relabelSector :: List.replicate 31 .blank } },
    [.startUpScanEnd []]⟩

theorem relabel_reads : (readSectors (journalSectors (surveyed relabelling.part.nv.sectors))).records
    = [.dayClose { dayOne with lastLabel := 5 }, .line 1 14 { line1 with label := some 6 }] := by
  have h : journalSectors (surveyed relabelling.part.nv.sectors) = [⟨0, relabelSector⟩] := rfl
  have good : ∀ x ∈ relabelSector.records, x.agrees = true := by simp [relabelSector]
  have whole : relabelSector.whole = true := (Sector.whole_iff _).2 ⟨good, by simp [relabelSector]⟩
  have area : relabelSector.area.takeWhile Stored.agrees = relabelSector.records :=
    List.takeWhile_eq_self_iff.2 (by simp [Sector.area, relabelSector])
  rw [h, readSectors]
  simp only [whole, if_true, Indexed.scanned, Sector.scanned, area]
  rfl

theorem witness_relabelled : relabelling.pending = [.startUpScanEnd []] ∧ relabelling.part.Labelled
    ∧ sinceClose (readSectors (journalSectors (surveyed relabelling.part.nv.sectors))).records
      = (some { dayOne with lastLabel := 5 }, [.line 1 14 { line1 with label := some 6 }])
    ∧ relabelling.part.recordLabels = [6] ∧ relabelling.part.jobLabels = [] ∧ ∃ t, step relabelling = .next t := by
  refine ⟨rfl, ⟨by decide, by decide, fun h => absurd rfl h⟩, ?_, by decide, by decide, _, rfl⟩
  rw [relabel_reads]; rfl

/-! ## Witnesses: labels and codes -/

/-- The largest prefix, numbers and amounts of a code, and the dates of a label at both ends of the calendar. -/
theorem test_label_limits : itemCode 99 99999 99999 = [9, 9, 9, 9, 9, 9, 9, 9, 9, 9, 9, 9, 4]
    ∧ (⟨2099, 12, 31⟩ : Date).plusDays 9 = ⟨2100, 1, 9⟩ ∧ (⟨2000, 1, 1⟩ : Date).plusDays 0 = ⟨2000, 1, 1⟩ := by decide

/-- The label of a WEIGHED line with a preset tare and a supervisor's price, and that of a COUNTED one. -/
theorem test_label_content :
    let x := lineContent .item 7 27 1 14
      { line1 with measure := .weighed 1000 ⟨.preset, 8⟩, overriddenBy := some 3, time := some ⟨⟨2024, 2, 28⟩, ⟨9, 0, 0⟩⟩ }
      (some ham)
    let y := lineContent .reprint 7 27 1 14 line1 none
    x.weight = some 1000 ∧ x.tare = some 8 ∧ x.quantity = none ∧ x.wasPrice = some 899 ∧ x.sellBy = some ⟨2024, 3, 2⟩
    ∧ y.weight = none ∧ y.quantity = some 1 ∧ y.wasPrice = none ∧ y.sellBy = none ∧ y.articleName = none := by decide

theorem served_balanced : served.Balanced where
  sums := ⟨by decide, by decide, by decide, by decide⟩
  lines := by simp [served_orders, ticketLine, order1, line1, departmentOk]
  table := by simp [served, manned, trading, tea, ham, egg, departmentOk]
  changes := fun _ _ h => by rw [(served_content h).2]; simp [departmentsOk]
  applies := fun g es t h => by
    have : g = 2 ∧ es = [.hold 3107] ∧ t = none := by
      rcases h with h | h
      · simpa [served, lineRecord] using h
      · cases h
    rw [this.2.1]
    simp [departmentsOk]

theorem served_switching : served.Switching where
  base := fun _ _ h => (served_content h).1
  alone := fun _ => rfl
  scanning := fun h => nomatch h
  applies := rfl

theorem served_tableFits : served.TableFits :=
  ⟨by decide, fun _ _ h => by rw [(served_content h).2]; decide⟩

theorem witness_totals : (st served).part.Inv ∧ (st served).part.Bound ∧ (st served).part.Priced
    ∧ (st served).part.Balanced ∧ (st served).notScanEnd ∧ ∃ t, step (st served) = .next t :=
  ⟨served_inv, served_bound, served_priced, served_balanced, (fun _ h => nomatch h), _, rfl⟩

/-- The same change set while its PRICE_APPLY is being appended. -/
def switched : Part :=
  { served with tj :=
      { served.tj with queue := [.filled (.priceApply 2 [.hold 3107] none)], writing := some 0, append := some .first } }

theorem switched_switching : switched.Switching where
  base := fun _ _ h => (served_content h).1
  alone := fun _ => rfl
  scanning := fun h => nomatch h
  applies := rfl

theorem witness_next_generation : (st served).part.Inv ∧ (st served).part.Ascending ∧ (st served).part.Switching
    ∧ (st served).part.TableFits ∧ (st served).notScanEnd ∧ (∃ t, step (st served) = .next t)
    ∧ (st switched).part.Switching
    ∧ ∃ t, exec .priceApplyWritten (st switched) = .next t ∧ t.part.art.generation = 2 :=
  ⟨served_inv, ⟨by decide, by decide⟩, served_switching, served_tableFits, (fun _ h => nomatch h), ⟨_, rfl⟩,
    switched_switching, _, rfl, rfl⟩

theorem witness_ascending : (st trading).part.Ascending ∧ ∃ t, step (st trading) = .next t :=
  ⟨trading_ascending, _, rfl⟩

theorem witness_generation : ∃ t, exec .priceApplyWritten (st (written (.priceApply 2 [] none))) = .next t
    ∧ t.part.art.generation ≠ (st (written (.priceApply 2 [] none))).part.art.generation :=
  ⟨_, rfl, by decide⟩

theorem witness_audit : ∃ t, exec (.calAuditWriteDone true) (st (committing (.calAudit entry1))) = .next t := ⟨_, rfl⟩

/-! ## A few commands, with results worked out by hand from the rules -/

/-- Whether a command ends in a next state of which a test holds. -/
def leads (o : Host.Outcome State Fault Refusal) (f : Part → Bool) : Bool :=
  match o with
  | .next t => f t.part
  | _ => false

/-- R14: ZERO at 300 g above the power-up zero, the edge of ±2 % of Max. -/
theorem test_zero_edge : leads (exec (.zero .s1 255) (st (onScale (steady .zeroed (some 0) 3000)))) (fun p =>
    p.wc.s1.zo = 3000) = true := by decide
/-- R14: one fine unit further is ZERO_RANGE, and the zero stays. -/
theorem test_zero_range : leads (exec (.zero .s1 255) (st (onScale (steady .zeroed (some 0) 3001)))) (fun p =>
    p.wc.s1.zo = 0 && p.ml.stations.s1.outcomes = [⟨255, .refused .zeroRange⟩]) = true := by decide
/-- R170, R190: the 50 ms of a receiver that hunts since 5,000 ms end at 5,050 ms; a byte 51 ms after its start byte is late. -/
theorem test_frame_timeout : leads (exec .hostFrameTimeout (st (Part.hunt trading))) (fun p =>
    p.time.elapsed = 5050 && p.ml.receiver = .hunting 5050
      && p.ml.latches.get .linkError = ⟨true, some (.link .timeout)⟩) = true := by decide
theorem test_frame_late : leads (exec (.hostFrame ⟨1, 9, 1, [], 0, .notARequest 9, 4949⟩) (st trading)) (fun p =>
    p.ml.latches.get .linkError = ⟨true, some (.link .timeout)⟩ && p.ml.buffer = []) = true := by decide
/-- R19: a tare of 183 fine units is 18 g. -/
theorem test_tare : leads (exec (.tare .s1 255) (st (onScale (steady .zeroed (some 0) 183)))) (fun p =>
    p.wc.s1.tare = ⟨.weighed, 18⟩) = true := by decide
/-- R43, R99: 15,000 g at 23.99 per kilogram cost 359.85; the line sets the capture interlock and takes label 1. -/
theorem test_add_weighed_line : leads (exec (.addLine .s1 255) (st weighing)) (fun p =>
    p.wc.s1.interlock = .set && p.lu.lastLabel = 1
      && p.ml.stations.s1.outcomes = [⟨255, .accepted ⟨some 1, some 1, some 35985, some 35985, none, none⟩⟩]) = true := by decide
/-- R115: after ticket 99 comes ticket 1. -/
theorem test_take_wraps : leads (exec (.take .d1 1 true)
    (st { trading with tc := { trading.tc with lastIssued := 99 } })) (fun p => p.tc.lastIssued = 1) = true := by decide
/-- R122: CLOSE COUNTER abandons the waiting, the called and the missed tickets. -/
theorem test_close_counter : leads (exec (.closeCounter 1) (st (ticketed (crowdOf 7)))) (fun p =>
    p.tc.figures.abandoned = 9 && p.tt.counter = .closed) = true := by decide
/-- R66, R67: the switch takes the entries of the record and the generation. -/
theorem test_price_switch : leads (exec .priceApplyWritten (st (written (.priceApply 2 [.delete 3107, .hold 4821] none)))) (fun p =>
    p.art.generation = 2 && p.art.table = [{ ham with held := true, generation := 2 }, egg]) = true := by decide
/-- R155: an erase that fails leaves the sector BAD without records. -/
theorem test_erase_fails : leads (exec (.eraseDone false) (st (ring closedSectors (some ⟨0, false⟩) []))) (fun p =>
    (p.nv.sectors[0]?).map (fun x => (x.mark, x.records)) = some (.bad, []) && p.tj.erase = none && !p.tj.fault) = true := by
  decide
/-- R138: DONE for the job at the printer removes it; the one behind it stays. -/
theorem test_printer_done : leads (exec (.printerReply .p1 (.done 7) true)
    (st (printing .printing none [job 7 .p1 true true, job 8 .p1 true false]))) (fun p =>
    p.lu.queue.map Job.label = [8] && p.lu.printers.p1.state = .ready) = true := by decide
/-- R187, R188: the audit entry is written before the record of the station. -/
theorem test_audit_first : leads (exec (.calAuditWriteDone true) (st (committing (.calAudit entry1)))) (fun p =>
    p.nv.audit = [.written entry1] && p.nv.settings = Settings.new) = true := by decide

end Sys2Proof.Tests
end

