-- ==== Sys2Proof/Proofs/Prices.lean ====
section
/-! The price and check-digit arithmetic of chapter 2 (R43, R51): where the rounded quotient lies in each rounding mode, and
the weighted sum one digit at a time. -/

namespace Sys2Proof.Machine

/-! ## The rounded quotient, one rule for each mode (R43)

Every mode is the floor of a quotient with a shifted numerator, so each rule is the two bounds of a floor, read back without
the shift. -/

/-- DOWN has no shift: the largest integer not above the quotient. -/
theorem roundQuotient_down_bounds (p : Nat) {d : Nat} (hd : 0 < d) :
    roundQuotient .down p d * d ≤ p ∧ p < (roundQuotient .down p d + 1) * d := by
  rw [Nat.succ_mul]
  exact ⟨Nat.div_mul_le_self p d, Nat.lt_div_mul_add hd⟩

/-- UP adds one less than the divisor first: the least integer not below the quotient. -/
theorem roundQuotient_up_bounds (p : Nat) {d : Nat} (hd : 0 < d) :
    p ≤ roundQuotient .up p d * d ∧ roundQuotient .up p d * d < p + d := by
  have hle : roundQuotient .up p d * d ≤ p + (d - 1) := Nat.div_mul_le_self _ d
  have hlt : p + (d - 1) < roundQuotient .up p d * d + d := Nat.lt_div_mul_add hd
  omega

/-- NEAREST adds half the divisor first, with both sides doubled to stay in the integers: within half a divisor of the product,
and above it at the half. -/
theorem roundQuotient_nearest_bounds (p : Nat) {d : Nat} (hd : 0 < d) :
    2 * (roundQuotient .nearest p d * d) ≤ 2 * p + d ∧ 2 * p < 2 * (roundQuotient .nearest p d * d) + d := by
  have hle : roundQuotient .nearest p d * (2 * d) ≤ 2 * p + d := Nat.div_mul_le_self _ (2 * d)
  have hlt : 2 * p + d < roundQuotient .nearest p d * (2 * d) + 2 * d := Nat.lt_div_mul_add (Nat.mul_pos two_pos hd)
  rw [Nat.mul_left_comm] at hle hlt
  omega

/-! ## The weighted sum of a digit string (R51): the weights 1 and 3 follow each other -/

@[simp] theorem weightedSum_nil (w : Nat) : weightedSum w [] = 0 := rfl

@[simp] theorem weightedSum_one_cons (d : Nat) (ds : List Nat) : weightedSum 1 (d :: ds) = d + weightedSum 3 ds := by
  rw [weightedSum, Nat.mul_one]

@[simp] theorem weightedSum_three_cons (d : Nat) (ds : List Nat) :
    weightedSum 3 (d :: ds) = 3 * d + weightedSum 1 ds := by
  rw [weightedSum, Nat.mul_comm]

/-- Settles O51: the list price is the rounded quotient times the step by definition, so the rule of each mode gives its clause;
the check digit is taken of the weighted sum, written out digit by digit. -/
theorem pricesAndCheckDigit : Obligations.PricesAndCheckDigit := by
  refine ⟨fun w u s hs => ?_, fun d1 d2 d3 d4 d5 d6 d7 d8 d9 d10 d11 d12 => ?_⟩
  · have hd : 0 < 1000 * s := Nat.mul_pos (by decide) hs
    exact ⟨⟨_, rfl, roundQuotient_nearest_bounds (w * u) hd⟩, ⟨_, rfl, roundQuotient_down_bounds (w * u) hd⟩,
      ⟨_, rfl, roundQuotient_up_bounds (w * u) hd⟩⟩
  · simp only [checkDigit, weightedSum_one_cons, weightedSum_three_cons, weightedSum_nil, Nat.add_zero, Nat.add_assoc]

end Sys2Proof.Machine
end

