-- ==== Sys2Proof/Proofs/DiscardChange.lean ====
section
/-! DISCARD CHANGE (R60): what AT makes of it in each phase of the change set, and the reply of a state that serves it. -/

namespace Sys2Proof.Machine

/-! ## The service, one rule for each phase -/

section
variable {p : Part} {base : Nat} {es : List ChangeEntry}

theorem serveDiscardChange_none (h : p.art.changeSet = .none) : serveDiscardChange p = (p, .refuse .wrongState) := by
  rw [serveDiscardChange, h]

theorem serveDiscardChange_opened {last : Nat} (h : p.art.changeSet = .opened base es last) :
    serveDiscardChange p = (p.withChangeSet .none, .done .nothing) := by
  rw [serveDiscardChange, h]

theorem serveDiscardChange_scheduled {time : TimeOfDay} (h : p.art.changeSet = .scheduled base es time) :
    serveDiscardChange p = (p.dropChangeSet, .done .nothing) := by
  rw [serveDiscardChange, h]

theorem serveDiscardChange_applying {time : Option TimeOfDay} (h : p.art.changeSet = .applying base es time) :
    serveDiscardChange p = (p, .refuse .busy) := by
  rw [serveDiscardChange, h]

end

/-! ## The command -/

/-- DISCARD CHANGE waits for no write, so what its service answers is replied at once. -/
theorem exec_discardChange_now {s : State} {tag : Nat} (hs : s.serves tag .discardChange) {q : Part} {body : ReplyBody}
    (hq : serveDiscardChange s.part.taken = (q, .now body)) :
    exec (.discardChange tag) s = .next (s.replied q tag .discardChange body) := by
  have harm : exec (.discardChange tag) s = s.act (fun p => p.dispatch tag .discardChange serveDiscardChange) := rfl
  rw [harm, State.serve_now hs hq]

/-- Settles O15, phase by phase: the rule of the phase gives the part and the answer, and the command replies with it. -/
theorem discardChangeEndsTheSet : Obligations.DiscardChangeEndsTheSet := by
  intro s tag hs
  refine ⟨fun _ _ _ hopened => ?opened, fun _ _ _ hscheduled => ?scheduled, fun _ _ _ happlying => ?applying,
    fun hnone => ?none⟩
  case opened => exact exec_discardChange_now hs (serveDiscardChange_opened hopened)
  case scheduled => exact exec_discardChange_now hs (serveDiscardChange_scheduled hscheduled)
  case applying => exact exec_discardChange_now hs (serveDiscardChange_applying happlying)
  case none => exact exec_discardChange_now hs (serveDiscardChange_none hnone)

end Sys2Proof.Machine
end

