-- ==== Sys2Proof/Proofs/ReadClose.lean ====
section
/-! READ CLOSE (R180): what TT reports with and without a last close, and the reply of a state that serves it. A request that
only reads is replied from the part that its frame has left, and that part is kept. -/

namespace Sys2Proof.Machine

/-! ## The report, one rule for each content of TT -/

theorem readClose_of_no_close {p : Part} (h : p.tt.lastClose = none) : readClose p = .refuse .noSuch := by
  rw [readClose, h]

theorem readClose_of_last_close {p : Part} {d : DayClose} (h : p.tt.lastClose = some d) :
    readClose p = .done (.lastClose d) := by
  rw [readClose, h]

/-! ## A request that only reads -/

/-- The frame of the request leaves the buffer, the report is sent, and the part is otherwise kept. -/
theorem State.serve_reading {s : State} {tag : Nat} {req : HostRequest} (hs : s.serves tag req)
    {report : Part → Answer} {body : ReplyBody} (hr : report s.part.taken = .now body) :
    s.act (fun p => p.dispatch tag req (reading report)) = .next (s.replied s.part.taken tag req body) :=
  State.serve_now hs (by rw [reading, hr])

/-! ## The command -/

theorem exec_readClose_now {s : State} {tag : Nat} (hs : s.serves tag .readClose) {body : ReplyBody}
    (hr : readClose s.part.taken = .now body) :
    exec (.readClose tag) s = .next (s.replied s.part.taken tag .readClose body) := by
  have harm : exec (.readClose tag) s = s.act (fun p => p.dispatch tag .readClose (reading readClose)) := rfl
  rw [harm, State.serve_reading hs hr]

/-- Settles O12, by whether there is a last close. The report is made from the part that the frame has left, and taking the
frame keeps TT, so its last close is the one of the state before the command. -/
theorem readCloseGivesTheLastClose : Obligations.ReadCloseGivesTheLastClose := by
  intro s tag hs
  have htt : s.part.taken.tt = s.part.tt := rfl
  rw [← htt]
  cases hlast : s.part.taken.tt.lastClose with
  | none => exact exec_readClose_now hs (readClose_of_no_close hlast)
  | some d => exact exec_readClose_now hs (readClose_of_last_close hlast)

end Sys2Proof.Machine
end

