-- ==== Sys2Proof/Proofs/ResetBasics.lean ====
section
/-! The front of the queue, and the commands while the part is held in reset (R192). -/

namespace Sys2Proof.Machine

/-- Settles O1: both clauses are what `step` says. -/
theorem stepRunsFrontCommand : Obligations.StepRunsFrontCommand :=
  ⟨fun _ _ _ => rfl, fun _ => rfl⟩

/-- Settles O2: a command that is none of the six acts on a part held in reset as nothing does. -/
theorem resetInputAndLevels : Obligations.ResetInputAndLevels := by
  refine ⟨fun c s held h1 h2 h3 h4 h5 h6 => ?_, fun _ _ => ⟨rfl, rfl, rfl⟩⟩
  cases c
  case powerOn => exact absurd rfl h1
  case resetLine => exact absurd rfl h2
  case resetInputAsserted => exact absurd rfl h3
  case calibrationSwitchAssert => exact absurd rfl h4
  case calibrationSwitchRelease => exact absurd rfl h5
  case baudStrapChange r => exact absurd rfl (h6 r)
  all_goals exact State.act_held held _

end Sys2Proof.Machine
end

