-- ==== Sys2Proof/Proofs/Moves.lean ====
section
/-! The moves of the part. The laws of the part see only some of its fields (`Part.seen`), and every command is a short sequence of
the moves listed in `Move`: what a law has to show of a step is that each move keeps it. -/

namespace Sys2Proof.Machine

/-! ## What the laws see -/

/-- The fields of a part that a law of the part speaks of, the clock apart. -/
structure Seen where
  clerkPlaces : List Clerk
  articles : List Article
  sectors : List Sector
  audit : List AuditSlot
  auditCounter : Nat
  table : List Article
  generation : Nat
  changeSet : ChangeSet
  storeBack : StoreBack
  clerks : List Clerk
  om : OrderManager
  waiting : List Ticket
  called : PerStation (Option CalledTicket)
  missed : List MissedTicket
  serving : List ServingTicket
  lastIssued : Nat
  callList : List Call
  jobs : List Job
  lastLabel : Nat
  queue : List Place
  waits : Option Record
  counter : CounterState
  accumulators : Accumulators
  session : Bool
  held : Option HeldRequest
  buffer : List Frame
  display : List (List Call)

/-- What the laws see of a part. -/
def Part.seen (p : Part) : Seen :=
  { clerkPlaces := p.nv.settings.clerks, articles := p.nv.articles, sectors := p.nv.sectors, audit := p.nv.audit
    auditCounter := p.nv.auditCounter, table := p.art.table, generation := p.art.generation
    changeSet := p.art.changeSet, storeBack := p.art.storeBack, clerks := p.oc.clerks, om := p.om
    waiting := p.tc.waiting, called := p.tc.called, missed := p.tc.missed, serving := p.tc.serving
    lastIssued := p.tc.lastIssued, callList := p.tc.callList, jobs := p.lu.queue, lastLabel := p.lu.lastLabel
    queue := p.tj.queue, waits := p.tj.waiting, counter := p.tt.counter, accumulators := p.tt.accumulators
    session := p.cc.session.isSome, held := p.ml.serving, buffer := p.ml.buffer, display := p.ml.display }

section
variable (p : Part)

@[simp] theorem Part.advance_seen (ms : Nat) : (p.advance ms).seen = p.seen := rfl
@[simp] theorem Part.reach_seen (ms : Nat) : (p.reach ms).seen = p.seen := rfl
@[simp] theorem Part.useFree_seen : p.useFree.seen = p.seen := rfl
@[simp] theorem Part.reply_seen (tag : Nat) (a : FrameMeaning) (b : ReplyBody) : (p.reply tag a b).seen = p.seen := rfl
@[simp] theorem Part.latch_seen (c : Condition) (d : Option Detail) : (p.latch c d).seen = p.seen := rfl
@[simp] theorem Part.latchStore_seen (d : StoreDetail) : (p.latchStore d).seen = p.seen := rfl
@[simp] theorem Part.latchLink_seen (d : LinkDetail) : (p.latchLink d).seen = p.seen := rfl
@[simp] theorem Part.clear_seen (c : Condition) : (p.clear c).seen = p.seen := rfl
@[simp] theorem Part.setEnables_seen (e : PerCondition Bool) : (p.setEnables e).seen = p.seen := rfl
@[simp] theorem Part.onChannel_seen (st : StationNo) (f : Channel → Channel) : (p.onChannel st f).seen = p.seen := rfl
@[simp] theorem Part.onLink_seen (st : StationNo) (f : StationLink → StationLink) : (p.onLink st f).seen = p.seen := rfl
@[simp] theorem Part.onSelection_seen (st : StationNo) (f : Selection → Selection) : (p.onSelection st f).seen = p.seen :=
  rfl
@[simp] theorem Part.reportSelection_seen (st : StationNo) (r : SelectionReport) :
    (p.reportSelection st r).seen = p.seen := rfl
@[simp] theorem Part.clearSelection_seen (st : StationNo) : (p.clearSelection st).seen = p.seen := rfl
@[simp] theorem Part.withStack_seen (st : StationNo) (x : Stack) : (p.withStack st x).seen = p.seen := rfl
@[simp] theorem Part.endOverride_seen (st : StationNo) : (p.endOverride st).seen = p.seen := rfl
@[simp] theorem Part.confirm_seen (st : StationNo) (g : Option Nat) : (p.confirm st g).seen = p.seen := rfl
@[simp] theorem Part.setSwitch_seen (b : Bool) : (p.setSwitch b).seen = p.seen := rfl
@[simp] theorem Part.withReceiver_seen (r : Receiver) : (p.withReceiver r).seen = p.seen := rfl
@[simp] theorem Part.hunt_seen : p.hunt.seen = p.seen := rfl
@[simp] theorem Part.startFrame_seen (t : Nat) : (p.startFrame t).seen = p.seen := rfl
@[simp] theorem Part.onPrinter_seen (pr : PrinterNo) (f : Printer → Printer) : (p.onPrinter pr f).seen = p.seen := rfl
@[simp] theorem Part.endAwait_seen : p.endAwait.seen = p.seen := rfl
@[simp] theorem Part.onFigures_seen (f : TicketFigures → TicketFigures) : (p.onFigures f).seen = p.seen := rfl
@[simp] theorem Part.withAppend_seen (a : Option Append) : (p.withAppend a).seen = p.seen := rfl
@[simp] theorem Part.keepTake_seen (d : DispenserNo) (n : Nat) (a : TakeAnswer) : (p.keepTake d n a).seen = p.seen := rfl
@[simp] theorem Part.markRead_seen : p.markRead.seen = p.seen := rfl
@[simp] theorem Part.markStoreError_seen (st : StationNo) : (p.markStoreError st).seen = p.seen := rfl

@[simp] theorem Part.judgeErase_seen : p.judgeErase.seen = p.seen := by unfold Part.judgeErase; split <;> rfl
@[simp] theorem Part.judgeErase_time : p.judgeErase.time = p.time := by unfold Part.judgeErase; split <;> rfl

end

/-! ## The commands that only they can make some moves -/

end Sys2Proof.Machine

namespace Sys2Proof

/-- Whether a command resets the part. -/
def Instr.resets : Instr → Prop
  | .powerOn => True
  | .resetLine => True
  | .resetPart _ => True
  | .hostFrame f => f.meaning = .request .resetPart
  | _ => False

/-- Whether a command can take label numbers. -/
def Instr.takesLabels : Instr → Bool
  | .addLine _ _ => true
  | .closeOrder _ _ => true
  | .stationReply _ => true
  | _ => false

end Sys2Proof

namespace Sys2Proof.Machine

/-- Records that no order, line or generation is told of while they wait in the write queue. -/
def Record.plain : Record → Bool
  | .voidLine _ _ _ => true
  | .reprint _ _ _ => true
  | .priceStored _ => true
  | .dayClose _ => true
  | _ => false

/-- An order that a request can take out of OPEN or PARKED: it is the active order of a station, or PARKED. -/
def Part.standing (p : Part) (o : Order) : Prop := (∃ st, p.om.active.get st = some o.number) ∨ o.state = .parked

/-- Whether a change set is in APPLYING. -/
def ChangeSet.isApplying : ChangeSet → Bool
  | .applying _ _ _ => true
  | _ => false

/-! ## The moves -/

/-- One move of the part within the command `c`, with the number of labels that it takes. -/
inductive Move (c : Instr) : Nat → Part → Part → Prop
  /-- nothing that a law sees changes -/
  | quiet {p q : Part} (seen : q.seen = p.seen) (time : p.time.Runs → q.time.Runs) : Move c 0 p q
  | reset {p : Part} (cause : ResetCause) (time : TimeBase) (command : c.resets) (runs : p.time.Runs → time.Runs) :
    Move c 0 p (p.reset cause time)
  -- the host input buffer and the call display
  | frameTaken {p : Part} (f : Frame) (rest : List Frame) (front : p.ml.buffer = f :: rest) :
    Move c 0 p { p with ml := { p.ml with buffer := rest } }
  | frameJoined {p : Part} (f : Frame) (room : p.ml.buffer.length < Config.maxFrames) :
    Move c 0 p { p with ml := { p.ml with buffer := p.ml.buffer ++ [f] } }
  | callsSent {p : Part} (calls : List Call) (rest : List (List Call)) (front : p.ml.display = calls :: rest) :
    Move c 0 p { p with ml := { p.ml with display := rest } }
  -- the writes that a request waits for, the clerk table, the audit area and the session
  | writeHeld {p : Part} (h : HeldRequest) (free : p.ml.serving = none)
      (kind : ∀ e, h.write ≠ .calAudit e ∧ h.write ≠ .calRecord e)
      (room : ∀ x, h.write = .setClerk x → (p.clerk x.number).isSome = true ∨ p.oc.clerks.length < Config.maxClerks) :
    Move c 0 p { p with ml := { p.ml with serving := some h } }
  | auditHeld {p : Part} (tag : Nat) (req : HostRequest) (e : AuditEntry) (free : p.ml.serving = none)
      (session : p.cc.session.isSome = true) :
    Move c 0 p { p with nv := { p.nv with auditCounter := p.nv.auditCounter + 1 }
                        ml := { p.ml with serving := some ⟨tag, req, .calAudit e⟩ } }
  | writeEnded {p : Part} (quiet : p.committing = false) : Move c 0 p { p with ml := { p.ml with serving := none } }
  | clerkWritten {p : Part} (x : Clerk) (awaited : p.awaitedWrite = some (.setClerk x)) :
    Move c 0 p { p.withClerks (insertByKey Clerk.number x p.oc.clerks) with ml := { p.ml with serving := none } }
  | clerkRemoved {p : Part} (n : Nat) (awaited : p.awaitedWrite = some (.removeClerk n)) :
    Move c 0 p { p.withClerks (removeKey Clerk.number n p.oc.clerks) with ml := { p.ml with serving := none } }
  | auditWritten {p : Part} (tag : Nat) (req : HostRequest) (e : AuditEntry)
      (serving : p.ml.serving = some ⟨tag, req, .calAudit e⟩) :
    Move c 0 p { p.addAudit (.written e) with ml := { p.ml with serving := some ⟨tag, req, .calRecord e⟩ } }
  | auditFailed {p : Part} (e : AuditEntry) (awaited : p.awaitedWrite = some (.calAudit e)) :
    Move c 0 p { p.addAudit .damaged with ml := { p.ml with serving := none }, cc := { p.cc with session := none } }
  | commitEnded {p : Part} (e : AuditEntry) (awaited : p.awaitedWrite = some (.calRecord e)) :
    Move c 0 p { p with ml := { p.ml with serving := none }, cc := { p.cc with session := none } }
  | sessionBegun {p : Part} (x : Session) (room : p.nv.auditCounter < Config.maxAudit) :
    Move c 0 p (p.withSession (some x))
  | sessionEnded {p : Part} : Move c 0 p (p.withSession none)
  -- the change set
  | changeTouched {p : Part} (base : Nat) (es : List ChangeEntry) (last now : Nat)
      (opened : p.art.changeSet = .opened base es last) : Move c 0 p (p.withChangeSet (.opened base es now))
  | changeBegun {p : Part} (now : Nat) (none : p.art.changeSet = .none) (idle : p.art.storeBack = .idle)
      (running : p.tt.counter ≠ .starting) : Move c 0 p (p.withChangeSet (.opened p.art.generation [] now))
  | staged {p : Part} (base : Nat) (es : List ChangeEntry) (last now : Nat) (e : ChangeEntry)
      (opened : p.art.changeSet = .opened base es last) (room : stageRoom es e.number = true)
      (put : ∀ a, e = .put a → p.roomFor es a.number = true ∧ departmentOk a.department) :
    Move c 0 p (p.withChangeSet (.opened base (insertByKey ChangeEntry.number e es) now))
  | changeDropped {p : Part} (phase : p.art.changeSet.isApplying = false) : Move c 0 p (p.withChangeSet .none)
  | changeScheduled {p : Part} (base : Nat) (es : List ChangeEntry) (last : Nat) (time : TimeOfDay)
      (opened : p.art.changeSet = .opened base es last) : Move c 0 p (p.withChangeSet (.scheduled base es time))
  | changeReopened {p : Part} (base : Nat) (es : List ChangeEntry) (time : TimeOfDay) (now : Nat)
      (scheduled : p.art.changeSet = .scheduled base es time) : Move c 0 p (p.withChangeSet (.opened base es now))
  | changeApplied {p : Part} (base : Nat) (es : List ChangeEntry) (time : Option TimeOfDay)
      (content : p.art.changeSet.content = some (base, es)) (phase : p.art.changeSet.isApplying = false) :
    Move c 0 p ((p.queueOrWait (p.applyRecord es)).withChangeSet (.applying base es time))
  -- orders and lines
  | orderOpened {p : Part} (st : StationNo) (operator : Nat) (trading : p.tt.counter = .trading)
      (free : p.om.active.get st = none) (slot : p.om.pool.any Option.isNone = true)
      (limit : p.ownedBy operator < Config.maxClerkOrders) : Move c 0 p (p.openOrder st operator)
  | lineAdded {p : Part} (st : StationNo) (o : Order) (f : LineFields) (a : Article) (command : c.takesLabels = true)
      (trading : p.tt.counter = .trading) (active : p.activeOrder st = some o)
      (room : o.lastIndex < Config.maxLines ∨ ∃ x ∈ p.om.orders, x.number = o.number ∧ x.lines = [])
      (index : f.index = o.lastIndex + 1) (member : a ∈ p.art.table) (department : f.department = a.department)
      (label : f.label = none ∨ (f.label = some p.lu.nextLabel ∧ p.printRoom = true)) (place : p.hasPlace = true) :
    Move c 1 p (p.addLine o f a)
  | orderParked {p : Part} (st : StationNo) (o : Order) (active : p.activeOrder st = some o) :
    Move c 0 p ((p.updateOrder o.number (fun x => { x with state := .parked })).unbind o.number)
  | orderResumed {p : Part} (st : StationNo) (n : Nat) (o : Order) (free : p.om.active.get st = none)
      (order : p.order n = some o) (parked : o.state = .parked) :
    Move c 0 p { p with om := { p.om with
      pool := updatePool n (fun x => some { x with state := .opened st }) p.om.pool
      active := p.om.active.set st (some n) } }
  | orderFreed {p : Part} (o : Order) (order : p.order o.number = some o) (state : p.standing o)
      (empty : o.activeLines = []) : Move c 0 p ((p.freeOrder o.number).endNoSale o.ticket)
  | totalLabelled {p : Part} (st : StationNo) (o : Order) (command : c.takesLabels = true)
      (running : p.tt.counter ≠ .starting) (active : p.activeOrder st = some o)
      (mode : makesTotal o.labelMode = true) (room : p.printRoom = true) : Move c 1 p (p.makeTotalLabel st o)
  | closingBegun {p : Part} (o : Order) (kind : CloseKind) (order : p.order o.number = some o)
      (state : p.standing o) (place : p.hasPlace = true) :
    Move c 0 p (((p.setClosing o.number kind .waiting).unbind o.number).takePlace (.held o.number kind))
  | closingSettled {p : Part} (n : Nat) : Move c 0 p (p.settleClosing n)
  | lineVoided {p : Part} (st : StationNo) (o : Order) (index : Nat) (f : LineFields) (active : p.activeOrder st = some o)
      (line : o.line index = some ⟨f, .active⟩) :
    Move c 0 p (p.updateOrder o.number (fun x => { x.withLineState index .voided with total := x.total - f.linePrice }))
  -- the write queue
  | recordQueued {p : Part} (r : Record) (plain : r.plain = true) (place : p.hasPlace = true) : Move c 0 p (p.queueRecord r)
  | storedQueued {p : Part} (g : Nat) (later : List OwedGeneration) (storing : p.art.storeBack ≠ .idle) :
    Move c 0 p ((p.queueOrWait (.priceStored g)).withStoreBack (.storing g .queued later))
  | dayCloseBegun {p : Part} (d : DayClose) (running : p.tt.counter ≠ .starting)
      (empty : p.om.pool.all Option.isNone = true) (place : p.hasPlace = true) :
    Move c 0 p ((p.queueRecord (.dayClose d)).withCounter .closedClosing)
  -- jobs
  | jobAdded {p : Part} (j : Job) (room : p.printRoom = true) (kind : j.kind = .reprint) (away : j.atPrinter = false) :
    Move c 0 p (p.onLabels (fun l => { l with queue := l.queue ++ [j] }))
  | jobsSettled {p : Part} (queue : List Job) (length : queue.length ≤ p.lu.queue.length)
      (released : p.Released → ∀ j ∈ queue, j.atPrinter = true → j.released = true)
      (labels : ((queue.filter (fun j => decide (j.kind ≠ .reprint))).map Job.label).Sublist p.jobLabels) :
    Move c 0 p (p.onLabels (fun l => { l with queue := queue }))
  -- tickets
  | ticketCalled {p : Part} (st : StationNo) (t : Ticket) (rest : List Ticket) (front : p.tc.waiting = t :: rest) :
    Move c 0 p ((Part.missCalled { p with tc := { p.tc with waiting := rest } } st).callTicket st t)
  | ticketRecalled {p : Part} (st : StationNo) (n : Nat) (m : MissedTicket)
      (missed : p.tc.missed.find? (fun m => m.ticket.number == n) = some m) :
    Move c 0 p ((Part.missCalled { p with tc := { p.tc with
      missed := removeFirst (fun m => m.ticket.number == n) p.tc.missed } } st).callTicket st m.ticket)
  | ticketIssued {p : Part} (d : DispenserNo) (room : p.tc.waiting.length < Config.maxWaiting) : Move c 0 p (p.issue d).1
  | ticketExpired {p : Part} (n : Nat) :
    Move c 0 p { p with tc := { p.tc with missed := removeFirst (fun m => m.ticket.number == n) p.tc.missed } }
  | ticketsAbandoned {p : Part} : Move c 0 p p.abandonTickets
  -- the counter and the day
  | counterSet {p : Part} (x : CounterState) (running : p.tt.counter ≠ .starting) (state : x ≠ .starting)
      (notClosing : x ≠ .closedClosing) : Move c 0 p (p.withCounter x)
  | reprintCounted {p : Part} : Move c 0 p (p.onAccumulators Accumulators.addReprint)
  | dayEnded {p : Part} (d : DayClose) (command : c.takesLabels = false ∧ ¬ c.resets) : Move c 0 p (p.endDayClose d)
  -- appends and erases
  | lineWritten {p : Part} (n owner : Nat) (f : LineFields) (first : firstRecord p.tj.queue = some (.line n owner f)) :
    Move c 0 p ((p.finishAppend (.line n owner f)).updateOrder n (fun o => o.withLineState f.index .active))
  | closeWritten {p : Part} (n owner : Nat) (ticket : Option Nat) (count total : Nat) (label wait : Option Nat)
      (first : firstRecord p.tj.queue = some (.close n owner ticket count total label wait)) :
    Move c 0 p ((p.finishAppend (.close n owner ticket count total label wait)).closeWritten n owner total label)
  | voidWritten {p : Part} (n owner : Nat) (ticket : Option Nat) (value : Nat)
      (first : firstRecord p.tj.queue = some (.voidOrder n owner ticket value)) :
    Move c 0 p ((p.finishAppend (.voidOrder n owner ticket value)).voidOrderWritten n owner value)
  | plainWritten {p : Part} (r : Record) (plain : r.plain = true) (first : firstRecord p.tj.queue = some r) :
    Move c 0 p (p.finishAppend r)
  | switched {p : Part} (g : Nat) (es : List ChangeEntry) (time : Option DateTime) (command : c = .priceApplyWritten)
      (first : firstRecord p.tj.queue = some (.priceApply g es time)) :
    Move c 0 p ((p.finishAppend (.priceApply g es time)).switchTo g es)
  | sectorsCleared {p : Part} (sectors : List Sector) (length : sectors.length = p.nv.sectors.length)
      (records : (sectors.flatMap Sector.journal).Sublist (p.nv.sectors.flatMap Sector.journal)) :
    Move c 0 p { p with nv := { p.nv with sectors := sectors } }
  | faultEntered {p : Part} (command : c.takesLabels = false ∧ ¬ c.resets) : Move c 0 p p.enterFault
  -- the store-back
  | entryStored {p : Part} (e : ChangeEntry) : Move c 0 p (p.storeEntry e)
  | storeBackMoved {p : Part} (x : StoreBack) (storing : p.art.storeBack ≠ .idle) : Move c 0 p (p.withStoreBack x)

/-- A sequence of moves within a command, that takes at most `n` labels. -/
inductive Path (c : Instr) : Nat → Part → Part → Prop
  | nil {n : Nat} (p : Part) : Path c n p p
  | cons {k n : Nat} {p q r : Part} (move : Move c k p q) (rest : Path c n q r) : Path c (k + n) p r

section
variable {c : Instr} {m n : Nat} {p q r : Part}

theorem Path.mono (h : Path c m p q) (hle : m ≤ n) : Path c n p q := by
  induction h generalizing n with
  | nil p => exact .nil p
  | @cons k m p q r move _ ih =>
    obtain ⟨d, rfl⟩ := Nat.le.dest hle
    rw [Nat.add_assoc]
    exact .cons move (ih (Nat.le_add_right m d))

theorem Path.trans (h : Path c m p q) (h' : Path c n q r) : Path c (m + n) p r := by
  induction h with
  | nil p => exact h'.mono (Nat.le_add_left _ _)
  | @cons k m p q _ move _ ih =>
    rw [Nat.add_assoc]
    exact .cons move (ih h')

/-- A sequence without labels before another. -/
theorem Path.then (h : Path c 0 p q) (h' : Path c n q r) : Path c n p r := (h.trans h').mono (by omega)

/-- A sequence without labels behind another. -/
theorem Path.before (h : Path c n p q) (h' : Path c 0 q r) : Path c n p r := h.trans h'

theorem Move.path (h : Move c m p q) : Path c m p q := .cons (n := 0) h (.nil q)

theorem Path.same (seen : q.seen = p.seen) (time : q.time = p.time) : Path c n p q :=
  (Move.quiet seen (by rw [time]; exact id)).path.mono (Nat.zero_le n)

/-- A sequence from a part that the laws cannot tell from the first. -/
theorem Path.upFrom (h : Path c n q r) (seen : q.seen = p.seen) (time : q.time = p.time) : Path c n p r :=
  Path.then (.same seen time) h

theorem Path.passing (ms : Nat) (seen : q.seen = p.seen) (time : q.time = p.time.advance ms) : Path c n p q :=
  (Move.quiet seen (by rw [time]; exact TimeBase.advance_runs _ _)).path.mono (Nat.zero_le n)

/-- A move without a label, as a sequence of at most `n` labels. -/
theorem Move.alone (h : Move c 0 p q) : Path c n p q := h.path.mono (Nat.zero_le n)

/-- A move to a part that the laws cannot tell from the one reached. -/
theorem Move.upTo (h : Move c 0 p q) (seen : r.seen = q.seen) (time : r.time = q.time) : Path c n p r :=
  h.alone.before (.same seen time)

end

end Sys2Proof.Machine
end

