-- ==== Sys2Proof/Proofs/Paths.lean ====
section
/-! What a command can do: each command but the end of the start-up scan is a sequence of moves. -/

namespace Sys2Proof.Machine

/-! ## Checks that have passed -/

theorem bind_ok {ε α β : Type} {m : Except ε α} {k : α → Except ε β} {b : β} :
    (m >>= k) = .ok b ↔ ∃ a, m = .ok a ∧ k a = .ok b := by
  cases m <;> simp [bind, Except.bind]

theorem pure_ok {ε α : Type} {a b : α} : (pure a : Except ε α) = .ok b ↔ a = b := by
  simp [pure, Except.pure]

theorem check_ok {b : Bool} {r : Reason} {u : Unit} : check b r = .ok u ↔ b = true := by
  cases b <;> simp [check]

theorem need_ok {α : Type} {o : Option α} {r : Reason} {a : α} : need o r = .ok a ↔ o = some a := by
  cases o <;> simp [need]

theorem Part.checkTrading_ok {p : Part} {u : Unit} : p.checkTrading = .ok u ↔ p.tt.counter = .trading := by
  unfold Part.checkTrading
  cases p.tt.counter <;> simp

theorem ChangeSet.needOpen_ok {x : ChangeSet} {base : Nat} {es : List ChangeEntry} :
    x.needOpen = .ok (base, es) ↔ ∃ t, x = .opened base es t := by
  cases x <;> simp [ChangeSet.needOpen]

/-- The journal admits a record: what the moves need of it is the free place. -/
theorem Part.hasPlace_of_journalCheck {p : Part} {length reserve : Nat} {u : Unit}
    (h : p.journalCheck length reserve = .ok u) : p.hasPlace = true :=
  (Part.journalCheck_ok.1 h).2.2

/-! ## Host requests -/

section
variable {c : Instr} {n : Nat} {p q : Part}

theorem act_path {s t : State} {f : Part → Part} (h : s.act f = .next t) (hf : ∀ p, Path c n p (f p)) :
    Path c n s.part t.part := by
  simp only [State.act, State.always, Host.Outcome.next.injEq] at h
  subst h
  simp only [Part.unlessHeld]
  split
  · exact .nil _
  · exact hf _

/-- An answer that is sent at once. -/
def Answer.isNow : Answer → Bool
  | .now _ => true
  | .later _ => false

theorem answer_path {a : Answer} (tag : Nat) (req : HostRequest) (h : a.isNow = true) : Path c n p (p.answer tag req a) := by
  cases a with
  | now body => exact .same rfl rfl
  | later w => cases h

theorem takeFrame_path {f : Frame} (h : p.takeFrame f = some q) :
    Path c n p q ∧ q.ml.serving = none ∧ q.tt = p.tt := by
  unfold Part.takeFrame at h
  split at h
  · cases h
  · rename_i hs
    have hs' : p.ml.serving = none := by simpa using hs
    split at h
    · cases h; exact ⟨.nil _, hs', rfl⟩
    · rename_i g rest hb
      split at h
      · cases h
        exact ⟨(Move.frameTaken g rest hb).alone, hs', rfl⟩
      · cases h

theorem dispatch_path {tag : Nat} {req : HostRequest} {serve : Part → Part × Answer}
    (h : ∀ q : Part, q.ml.serving = none → (q.tt.counter = .starting → servedDuringScan req = true) →
      Path c n q ((serve q).1.answer tag req (serve q).2)) : Path c n p (p.dispatch tag req serve) := by
  unfold Part.dispatch
  split
  · exact .nil _
  · rename_i q hq
    obtain ⟨hpath, hserving, -⟩ := takeFrame_path (c := c) (n := 0) hq
    split
    · exact hpath.then (.same rfl rfl)
    · split
      · exact hpath.then (.same rfl rfl)
      · rename_i hscan
        refine hpath.then (h q hserving fun hstarting => ?_)
        simpa [hstarting] using hscan

theorem reading_path {tag : Nat} {req : HostRequest} {report : Part → Answer} (h : ∀ q, (report q).isNow = true) :
    Path c n p (p.dispatch tag req (reading report)) :=
  dispatch_path fun q _ _ => answer_path tag req (h q)

/-- A request that is served outside the start-up scan and answered at once. -/
theorem serving_path {tag : Nat} {req : HostRequest} {serve : Part → Part × Answer} (hscan : servedDuringScan req = false)
    (hnow : ∀ q, (serve q).2.isNow = true) (h : ∀ q : Part, q.tt.counter ≠ .starting → Path c 0 q (serve q).1) :
    Path c n p (p.dispatch tag req serve) := by
  refine dispatch_path fun q _ hq => (h q fun e => ?_).then (answer_path tag req (hnow q))
  rw [hq e] at hscan
  cases hscan

/-! ## Writes that a request waits for -/

theorem replyHeld_path (h : p.committing = false) (body : ReplyBody) : Path c n p (p.replyHeld body) := by
  unfold Part.replyHeld
  split
  · exact .nil _
  · exact (Move.writeEnded h).upTo rfl rfl

theorem failSettings_path (h : p.committing = false) : Path c n p p.failSettings :=
  Path.upFrom (replyHeld_path (p := p.latchStore .settingsArea) h _) rfl rfl

theorem endSetStation_path (agrees : Bool) : Path c n p (p.endSetStation agrees) := by
  unfold Part.endSetStation
  split
  · rename_i st x hw
    have hc : p.committing = false := by simp [Part.committing, hw]
    split
    · have hseen : (p.configureStation st x).seen = p.seen := by
        unfold Part.configureStation Part.disableStation
        dsimp only
        split <;> rfl
      have htime : (p.configureStation st x).time = p.time := by
        unfold Part.configureStation Part.disableStation
        dsimp only
        split <;> rfl
      have hheld : (p.configureStation st x).ml.serving = p.ml.serving := congrArg Seen.held hseen
      refine (Path.same (n := 0) hseen htime).then (replyHeld_path ?_ _)
      simpa [Part.committing, Part.awaitedWrite, hheld] using hc
    · exact failSettings_path hc
  · rename_i item total hw
    have hc : p.committing = false := by simp [Part.committing, hw]
    split
    · refine Path.then (q := { p.onSettings (fun s => { s with itemPrefix := item, totalPrefix := total }) with
          art := { p.art with itemPrefix := item, totalPrefix := total } }) (.same rfl rfl) (replyHeld_path ?_ _)
      exact hc
    · exact failSettings_path hc
  · exact .nil _

theorem replyHeld_of_awaited {w : HeldWrite} (h : p.awaitedWrite = some w) (body : ReplyBody) :
    (p.replyHeld body).seen = ({ p with ml := { p.ml with serving := none } } : Part).seen
      ∧ (p.replyHeld body).time = p.time := by
  unfold Part.replyHeld
  cases hs : p.ml.serving with
  | none => simp [Part.awaitedWrite, hs] at h
  | some x => exact ⟨rfl, rfl⟩

theorem endSetClerk_path (agrees : Bool) : Path c n p (p.endSetClerk agrees) := by
  unfold Part.endSetClerk
  split
  · rename_i x hw
    split
    · obtain ⟨hseen, htime⟩ := replyHeld_of_awaited (p := p.withClerks (insertByKey Clerk.number x p.oc.clerks)) hw
        (.done (.clerk x (insertByKey Clerk.number x p.oc.clerks).length))
      exact (Move.clerkWritten x hw).upTo hseen htime
    · exact failSettings_path (by simp [Part.committing, hw])
  · exact .nil _

theorem endRemoveClerk_path (agrees : Bool) : Path c n p (p.endRemoveClerk agrees) := by
  unfold Part.endRemoveClerk
  split
  · rename_i m hw
    split
    · obtain ⟨hseen, htime⟩ := replyHeld_of_awaited (p := p.withClerks (removeKey Clerk.number m p.oc.clerks)) hw
        (.done (.clerks (removeKey Clerk.number m p.oc.clerks).length))
      exact (Move.clerkRemoved m hw).upTo hseen htime
    · exact failSettings_path (by simp [Part.committing, hw])
  · exact .nil _

/-- A request whose answer can be a write that is no calibration commit. -/
theorem writing_path {tag : Nat} {req : HostRequest} {serve : Part → Part × Answer}
    (hsame : ∀ q, (serve q).1 = q)
    (hlater : ∀ q w, (serve q).2 = .later w → (∀ e, w ≠ .calAudit e ∧ w ≠ .calRecord e)
      ∧ ∀ x, w = .setClerk x → (q.clerk x.number).isSome = true ∨ q.oc.clerks.length < Config.maxClerks) :
    Path c n p (p.dispatch tag req serve) := by
  refine dispatch_path fun q hfree _ => ?_
  rw [hsame q]
  cases ha : (serve q).2 with
  | now body => exact .same rfl rfl
  | later w =>
    obtain ⟨hkind, hroom⟩ := hlater q w ha
    exact (Move.writeHeld ⟨tag, req, w⟩ hfree hkind hroom).alone

/-! ## Sessions -/

theorem endSession_path (cause : EndCause) : Path c n p (p.endSession cause) := by
  unfold Part.endSession
  split
  · exact .nil _
  · exact Move.upTo .sessionEnded rfl rfl

theorem interruptSession_path (cause : EndCause) : Path c n p (p.interruptSession cause) := by
  unfold Part.interruptSession
  split
  · exact .nil _
  · exact endSession_path cause

theorem touchGap_path : Path c n p p.touchGap := by
  refine .same ?_ rfl
  unfold Part.touchGap Part.withSession
  cases hs : p.cc.session <;> simp [Part.seen, hs]

theorem serveStep_path (step : Part → Session → StepResult) : Path c n p (serveStep step p).1 := by
  refine (touchGap_path (n := 0)).then ?_
  unfold serveStep
  dsimp only
  split
  · exact .nil _
  · rename_i x hs
    split
    · exact .nil _
    · refine .same ?_ rfl
      simp [Part.seen, Part.withSession, hs]

theorem serveStep_isNow (step : Part → Session → StepResult) : (serveStep step p).2.isNow = true := by
  unfold serveStep
  dsimp only
  split
  · rfl
  · split <;> rfl

theorem endCalAudit_path (agrees : Bool) : Path c n p (p.endCalAudit agrees) := by
  unfold Part.endCalAudit
  split
  · rename_i tag req e hserving
    have hw : p.awaitedWrite = some (.calAudit e) := by simp [Part.awaitedWrite, hserving]
    split
    · exact (Move.auditWritten tag req e hserving).alone
    · refine Move.upTo (Move.auditFailed e hw) ?_ ?_
      · unfold Part.failCommit Part.endSession
        split <;> rename_i hs <;>
        · have hs' : p.cc.session = _ := hs
          simp [Part.replyHeld, Part.latchStore, Part.latch, Part.addAudit, Part.onChannel, Part.closeSession, Part.reply,
            Part.seen, hserving, hs']
      · unfold Part.failCommit Part.endSession
        split <;>
          simp [Part.replyHeld, Part.latchStore, Part.latch, Part.addAudit, Part.onChannel, Part.closeSession, Part.reply,
            hserving]
  · exact .nil _

theorem endCalRecord_path (agrees : Bool) : Path c n p (p.endCalRecord agrees) := by
  unfold Part.endCalRecord
  split
  · rename_i e hw
    obtain ⟨x, hserving⟩ : ∃ x, p.ml.serving = some x := by
      cases hs : p.ml.serving with
      | none => simp [Part.awaitedWrite, hs] at hw
      | some x => exact ⟨x, rfl⟩
    split
    · refine Move.upTo (Move.commitEnded e hw) ?_ ?_ <;>
        simp [Part.commitDone, Part.replyHeld, Part.latch, Part.onChannel, Part.closeSession, Part.reply,
          Part.seen, Part.writeRecord, Part.onSettings, hserving]
    · refine Move.upTo (Move.commitEnded e hw) ?_ ?_
      · unfold Part.failCommit Part.endSession
        split <;> rename_i hs <;>
          simp [Part.replyHeld, Part.latchStore, Part.latch, Part.onChannel, Part.closeSession, Part.reply,
            Part.seen, hserving, hs]
      · unfold Part.failCommit Part.endSession
        split <;>
          simp [Part.replyHeld, Part.latchStore, Part.latch, Part.onChannel, Part.closeSession, Part.reply, hserving]
  · exact .nil _

theorem serveCalBegin_path (station : Nat) : Path c n p (serveCalBegin station p).1 := by
  unfold serveCalBegin
  split
  · exact .nil _
  · rename_i st hok
    simp only [Part.calBeginChecks, bind_ok, check_ok, need_ok, pure_ok, decide_eq_true_eq] at hok
    obtain ⟨_, -, -, -, -, -, -, -, -, -, -, -, -, hroom, -⟩ := hok
    exact Move.upTo (.sessionBegun ⟨st, (p.wc.get st).cal, none, none, none, p.now⟩ hroom) rfl rfl

theorem serveCalBegin_isNow (station : Nat) : (serveCalBegin station p).2.isNow = true := by
  unfold serveCalBegin
  split <;> rfl

theorem calCommit_path {tag : Nat} : Path c n p (p.dispatch tag .calCommit serveCalCommit) := by
  refine dispatch_path fun q hfree _ => (touchGap_path (n := 0)).then ?_
  unfold serveCalCommit
  dsimp only
  split
  · exact .same rfl rfl
  · rename_i x hs
    split
    · exact (Move.auditHeld (p := q.touchGap) tag .calCommit _ hfree (by rw [hs]; rfl)).alone
    · exact .same rfl rfl

/-! ## The change set and the store-back -/

theorem touchChange_path : Path c n p p.touchChange := by
  unfold Part.touchChange
  split
  · rename_i b es t h
    exact (Move.changeTouched b es t _ h).alone
  · exact .nil _

theorem touchChange_tt : p.touchChange.tt = p.tt := by
  unfold Part.touchChange
  split <;> rfl

theorem serveBeginChange_path (base : Nat) (h : p.tt.counter ≠ .starting) : Path c n p (serveBeginChange base p).1 := by
  refine (touchChange_path (n := 0)).then ?_
  unfold serveBeginChange
  dsimp only
  split
  · exact .nil _
  · rename_i hok
    simp only [Part.beginChecks, bind_ok, check_ok, decide_eq_true_eq] at hok
    obtain ⟨-, hnone, hidle⟩ := hok
    split at hidle
    · rename_i hstore
      obtain rfl := of_decide_eq_true (check_ok.1 hidle)
      exact Move.alone (.changeBegun _ hnone hstore (by rw [touchChange_tt]; exact h))
    all_goals cases hidle

theorem serveBeginChange_isNow (base : Nat) : (serveBeginChange base p).2.isNow = true := by
  unfold serveBeginChange
  dsimp only
  split <;> rfl

theorem articleOf_department {f : ArticleFields} {a : Article} (h : articleOf f = some a) : departmentOk a.department := by
  unfold articleOf at h
  split at h
  · cases h
  · split at h
    · rename_i hok
      simp only [within, Bool.and_eq_true, decide_eq_true_eq] at hok
      have hdep : departmentOk f.department := hok.1.1.2
      split at h
      · split at h
        · cases h; exact hdep
        · cases h
      · cases h
      · cases h; exact hdep
    · cases h

theorem serveStagePut_path (f : ArticleFields) : Path c n p (serveStagePut f p).1 := by
  refine (touchChange_path (n := 0)).then ?_
  unfold serveStagePut
  dsimp only
  split
  · exact .nil _
  · rename_i base es a hok
    simp only [Part.putChecks, bind_ok, check_ok, need_ok, pure_ok, Prod.mk.injEq, Prod.exists] at hok
    obtain ⟨_, _, hopen, _, ha, -, hstage, -, hroom, rfl, rfl, rfl⟩ := hok
    obtain ⟨t, ht⟩ := ChangeSet.needOpen_ok.1 hopen
    refine Move.alone (.staged _ _ t _ _ ht hstage fun b hb => ?_)
    cases hb
    exact ⟨hroom, articleOf_department ha⟩

theorem serveStagePut_isNow (f : ArticleFields) : (serveStagePut f p).2.isNow = true := by
  unfold serveStagePut
  dsimp only
  split <;> rfl

theorem serveStage_path (e : ChangeEntry) (hput : e.isPut = false) : Path c n p (serveStage e p).1 := by
  refine (touchChange_path (n := 0)).then ?_
  unfold serveStage
  dsimp only
  split
  · exact .nil _
  · rename_i base es hok
    simp only [Part.stageChecks, bind_ok, check_ok, pure_ok, Prod.mk.injEq, Prod.exists] at hok
    obtain ⟨_, _, hopen, -, -, -, -, -, hstage, rfl, rfl⟩ := hok
    obtain ⟨t, ht⟩ := ChangeSet.needOpen_ok.1 hopen
    refine Move.alone (.staged _ _ t _ _ ht hstage fun b hb => ?_)
    rw [hb] at hput
    cases hput

theorem serveStage_isNow (e : ChangeEntry) : (serveStage e p).2.isNow = true := by
  unfold serveStage
  dsimp only
  split <;> rfl

theorem serveDiscardChange_path : Path c n p (serveDiscardChange p).1 := by
  unfold serveDiscardChange
  split
  · exact .nil _
  · exact .nil _
  · rename_i h
    exact Move.alone (.changeDropped (by rw [h]; rfl))
  · rename_i h
    exact Move.upTo (.changeDropped (by rw [h]; rfl)) rfl rfl

theorem serveDiscardChange_isNow : (serveDiscardChange p).2.isNow = true := by
  unfold serveDiscardChange
  split <;> rfl

theorem applyChecks_content {time : Except Reason Unit} {base : Nat} {es : List ChangeEntry}
    (h : p.applyChecks time = .ok (base, es)) : ∃ t, p.art.changeSet = .opened base es t := by
  simp only [Part.applyChecks, bind_ok, check_ok, pure_ok, Prod.mk.injEq, Prod.exists] at h
  obtain ⟨_, _, hopen, -, -, -, -, -, -, -, -, rfl, rfl⟩ := h
  exact ChangeSet.needOpen_ok.1 hopen

theorem serveApplyNow_path : Path c n p (serveApplyNow p).1 := by
  refine (touchChange_path (n := 0)).then ?_
  unfold serveApplyNow
  dsimp only
  split
  · exact .nil _
  · rename_i base es hok
    simp only [Part.applyNowChecks, bind_ok, pure_ok, Prod.mk.injEq, Prod.exists] at hok
    obtain ⟨_, _, happly, _, hjournal, rfl, rfl⟩ := hok
    obtain ⟨t, ht⟩ := applyChecks_content happly
    have hplace := Part.hasPlace_of_journalCheck hjournal
    refine Move.upTo (.changeApplied _ _ none (by rw [ht]; rfl) (by rw [ht]; rfl)) ?_ ?_ <;>
      simp only [Part.queueOrWait, hplace, if_true]

theorem serveApplyNow_isNow : (serveApplyNow p).2.isNow = true := by
  unfold serveApplyNow
  dsimp only
  split <;> rfl

theorem serveApplyAt_path (hour minute second : Nat) : Path c n p (serveApplyAt hour minute second p).1 := by
  refine (touchChange_path (n := 0)).then ?_
  unfold serveApplyAt
  dsimp only
  split
  · exact .nil _
  · rename_i base es hok
    obtain ⟨t, ht⟩ := applyChecks_content hok
    exact Move.upTo (.changeScheduled base es t _ ht) rfl rfl

theorem serveApplyAt_isNow (hour minute second : Nat) : (serveApplyAt hour minute second p).2.isNow = true := by
  unfold serveApplyAt
  dsimp only
  split <;> rfl

theorem expireChangeSet_path : Path c n p p.expireChangeSet := by
  unfold Part.expireChangeSet
  split
  · rename_i b es t h
    refine Path.then (q := p.reach (t + Config.stagingMs)) (.passing _ rfl rfl) (Move.upTo (.changeDropped ?_) rfl rfl)
    rw [Part.reach_art, h]
    rfl
  · exact .nil _

theorem scheduledReport_path : Path c n p p.scheduledReport := by
  unfold Part.scheduledReport
  split
  · rename_i base es t h
    have hfail (r : Reason) : Path c n p (p.failApply r) := by
      have hcontent : p.art.changeSet.content = some (base, es) := by rw [h]; rfl
      unfold Part.failApply
      rw [hcontent]
      exact Move.upTo (.changeReopened base es t p.now h) rfl rfl
    split
    · exact hfail _
    · split
      · exact hfail _
      · exact Move.alone (.changeApplied base es (some t) (by rw [h]; rfl) (by rw [h]; rfl))
  · exact .nil _

theorem reportScheduled_path : Path c n p p.reportScheduled := by
  unfold Part.reportScheduled
  exact Path.then (q := { p with tt := { p.tt with scheduled := none } }) (.same rfl rfl) scheduledReport_path

theorem scheduledTime_path : Path c n p p.scheduledTime := by
  unfold Part.scheduledTime
  split
  · exact .nil _
  · rename_i m _
    exact Path.then (q := p.reachMoment m) (.passing _ rfl rfl) reportScheduled_path

theorem onClock_of_validDateTime {year month day hour minute second : Nat}
    (h : validDateTime year month day hour minute second = true) :
    (⟨⟨year, month, day⟩, ⟨hour, minute, second⟩⟩ : DateTime).OnClock := by
  simp only [validDateTime, within, Bool.and_eq_true, decide_eq_true_eq] at h
  obtain ⟨⟨⟨⟨⟨hy, hm⟩, hd⟩, hh⟩, hmin⟩, hs⟩ := h
  rw [monthLength_eq year month hy.2] at hd
  exact ⟨hy, hm, hd, hh, hmin, hs⟩

theorem serveSetClock_path (year month day hour minute second : Nat) :
    Path c n p (serveSetClock year month day hour minute second p).1 := by
  unfold serveSetClock
  split
  · rename_i hvalid
    dsimp only
    have hset : Path c 0 p { p with time := { p.time with
        clock := ⟨⟨year, month, day⟩, ⟨hour, minute, second⟩⟩, valid := true, phase := 0 } } :=
      by
      refine Move.alone (.quiet rfl fun _ => ⟨onClock_of_validDateTime hvalid, Nat.zero_lt_of_ne_zero (by decide)⟩)
    split
    · split
      · exact hset.then reportScheduled_path
      · exact hset.mono (Nat.zero_le n)
    · exact hset.mono (Nat.zero_le n)
  · exact .nil _

theorem serveSetClock_isNow (year month day hour minute second : Nat) :
    (serveSetClock year month day hour minute second p).2.isNow = true := by
  unfold serveSetClock
  dsimp only
  split
  · split
    · split <;> rfl
    · rfl
  · rfl

theorem offerStored_path (g : Nat) (later : List OwedGeneration) (h : p.art.storeBack ≠ .idle) :
    Path c n p (p.offerStored g later) := by
  unfold Part.offerStored
  split
  · exact Move.alone (.storeBackMoved _ h)
  · split
    · exact Move.alone (.storeBackMoved _ h)
    · exact Move.alone (.storedQueued g later h)

theorem offerAgain_path : Path c n p p.offerAgain := by
  unfold Part.offerAgain
  split
  · rename_i h
    exact offerStored_path _ _ (by rw [h]; exact StoreBack.noConfusion)
  · exact .nil _

theorem storeGeneration_path (g : Nat) (later : List OwedGeneration) (agrees : Bool) (h : p.art.storeBack ≠ .idle) :
    Path c n p (p.storeGeneration g later agrees) := by
  unfold Part.storeGeneration
  split
  · exact Path.upFrom (offerStored_path (p := { p with nv := { p.nv with areaGeneration := g } }) g later h) rfl rfl
  · exact Move.upTo (.storeBackMoved (.owed g) h) rfl rfl

theorem articleAreaWrite_path (agrees generationAgrees : Bool) : Path c n p (p.articleAreaWrite agrees generationAgrees) := by
  unfold Part.articleAreaWrite
  split
  · rename_i h
    exact storeGeneration_path _ _ _ (by rw [h]; exact StoreBack.noConfusion)
  · rename_i g e rest later h
    have hstoring : p.art.storeBack ≠ .idle := by rw [h]; exact StoreBack.noConfusion
    have hstored : Path c 0 p (p.storeEntry e) := Move.alone (.entryStored e)
    split
    · have hspoilt : Path c 0 p (p.spoilEntry e) := by
        unfold Part.spoilEntry
        split
        · exact Path.then hstored (.same rfl rfl)
        · exact .same rfl rfl
      refine hspoilt.then (Move.upTo (.storeBackMoved (.owed g) ?_) rfl rfl)
      unfold Part.spoilEntry
      split <;> exact hstoring
    · split
      · exact hstored.then (storeGeneration_path _ _ _ hstoring)
      · exact hstored.then (Move.alone (.storeBackMoved _ hstoring))
  · exact .nil _

end

end Sys2Proof.Machine
end

