-- ==== Sys2Proof/Proofs/KeyPaths.lean ====
section
/-! What the key requests and the requests that concern orders, jobs, tickets and the day can do, as sequences of moves. -/

namespace Sys2Proof.Machine

/-! ## The orders of the pool -/

theorem lookup_key {α : Type} {key : α → Nat} {n : Nat} {l : List α} {x : α} (h : lookup key n l = some x) : key x = n := by
  simpa using List.find?_some h

theorem lookup_mem {α : Type} {key : α → Nat} {n : Nat} {l : List α} {x : α} (h : lookup key n l = some x) : x ∈ l :=
  List.mem_of_find?_eq_some h

theorem Part.order_number {p : Part} {n : Nat} {o : Order} (h : p.order n = some o) : o.number = n := lookup_key h

theorem Part.order_of_active {p : Part} {st : StationNo} {o : Order} (h : p.activeOrder st = some o) :
    p.om.active.get st = some o.number ∧ p.order o.number = some o := by
  obtain ⟨n, hn, ho⟩ := Option.bind_eq_some_iff.1 h
  obtain rfl := Part.order_number ho
  exact ⟨hn, ho⟩

/-- The orders of a pool after the change of the order of a number. -/
theorem filterMap_updatePool (n : Nat) (f : Order → Option Order) (pool : List (Option Order)) :
    (updatePool n f pool).filterMap id = (pool.filterMap id).filterMap (fun o => if o.number = n then f o else some o) := by
  simp only [updatePool, List.filterMap_map, List.filterMap_filterMap]
  rfl

theorem filterMap_updatePool_some (n : Nat) (f : Order → Order) (pool : List (Option Order)) :
    (updatePool n (fun o => some (f o)) pool).filterMap id
      = (pool.filterMap id).map (fun o => if o.number = n then f o else o) := by
  rw [filterMap_updatePool, ← List.filterMap_eq_map]
  congr 1
  funext o
  by_cases h : o.number = n <;> simp [h]

@[simp] theorem Part.updateOrder_orders (p : Part) (n : Nat) (f : Order → Order) :
    (p.updateOrder n f).om.orders = p.om.orders.map (fun o => if o.number = n then f o else o) :=
  filterMap_updatePool_some n f p.om.pool

/-- The order that has been changed is the one that its number finds. -/
theorem Part.order_updateOrder {p : Part} {n : Nat} {o : Order} {f : Order → Order} (hf : ∀ x, (f x).number = x.number)
    (h : p.order n = some o) : (p.updateOrder n f).order n = some (f o) := by
  unfold Part.order lookup at h ⊢
  have hkeep : ((fun x : Order => x.number == n) ∘ fun x => if x.number = n then f x else x)
      = fun x => x.number == n := by
    funext x
    by_cases hx : x.number = n <;> simp [hx, hf]
  rw [Part.updateOrder_orders, List.find?_map, hkeep, h]
  have : o.number = n := lookup_key h
  simp [this]

section
variable {c : Instr} {n : Nat} {p q : Part} {st : StationNo}

theorem reach_path (mark : Nat) : Path c n p (p.reach mark) := .passing _ rfl rfl

/-! ## Jobs -/

theorem jobsSettled_of_sublist {queue : List Job} (h : queue.Sublist p.lu.queue) :
    Path c n p (p.onLabels (fun l => { l with queue := queue })) :=
  Move.alone (.jobsSettled queue h.length_le (fun hr j hj => hr j (h.subset hj)) ((h.filter _).map _))

theorem sublist_removeFirst {α : Type} (f : α → Bool) (l : List α) : (removeFirst f l).Sublist l := by
  induction l with
  | nil => exact .slnil
  | cons x xs ih =>
    simp only [removeFirst]
    split
    · exact List.sublist_cons_self x xs
    · exact ih.cons_cons x

theorem mem_changeFirst {α : Type} {test : α → Bool} {f : α → α} {l : List α} {y : α} (h : y ∈ changeFirst test f l) :
    y ∈ l ∨ ∃ x, l.find? test = some x ∧ y = f x := by
  induction l with
  | nil => cases h
  | cons x xs ih =>
    simp only [changeFirst] at h
    split at h
    · rename_i hx
      rcases List.mem_cons.1 h with rfl | h
      · exact .inr ⟨x, by simp [hx], rfl⟩
      · exact .inl (List.mem_cons_of_mem _ h)
    · rename_i hx
      rcases List.mem_cons.1 h with rfl | h
      · exact .inl List.mem_cons_self
      · rcases ih h with h | ⟨z, hz, rfl⟩
        · exact .inl (List.mem_cons_of_mem _ h)
        · exact .inr ⟨z, by simpa [hx] using hz, rfl⟩

theorem labels_changeFirst (test : Job → Bool) {f : Job → Job} (hk : ∀ j, (f j).kind = j.kind)
    (hl : ∀ j, (f j).label = j.label) (l : List Job) :
    ((changeFirst test f l).filter (fun j => decide (j.kind ≠ .reprint))).map Job.label
      = (l.filter (fun j => decide (j.kind ≠ .reprint))).map Job.label := by
  induction l with
  | nil => rfl
  | cons x xs ih =>
    simp only [changeFirst]
    split
    · simp only [List.filter_cons, hk]
      split <;> simp only [List.map_cons, hl]
    · simp only [List.filter_cons]
      split <;> simp only [List.map_cons, ih]

/-- A queue in which one job has changed, but for its kind and label, and is not at a printer unless it is RELEASED. -/
theorem changeFirst_path {test : Job → Bool} {f : Job → Job} (hk : ∀ j, (f j).kind = j.kind)
    (hl : ∀ j, (f j).label = j.label)
    (hr : ∀ j, p.lu.queue.find? test = some j → (j.atPrinter = true → j.released = true) →
      (f j).atPrinter = true → (f j).released = true) :
    Path c n p (p.onLabels (fun l => { l with queue := changeFirst test f p.lu.queue })) := by
  refine Move.alone (.jobsSettled _ (length_changeFirst test f _).le (fun hrel j hj => ?_) ?_)
  · rcases mem_changeFirst hj with hj | ⟨x, hx, rfl⟩
    · exact hrel j hj
    · exact hr x hx (hrel x (List.mem_of_find?_eq_some hx))
  · rw [labels_changeFirst test hk hl]
    exact List.Sublist.refl _

theorem releaseJob_path (kind : LabelKind) (label : Nat) : Path c n p (p.releaseJob kind label) :=
  changeFirst_path (fun _ => rfl) (fun _ => rfl) (fun _ _ _ _ => rfl)

theorem deleteJob_path (kind : LabelKind) (label : Nat) : Path c n p (p.deleteJob kind label) :=
  jobsSettled_of_sublist (sublist_removeFirst _ _)

theorem onItemJob_release_path (f : LineFields) : Path c n p (p.onItemJob f (fun q k => q.releaseJob .item k)) := by
  unfold Part.onItemJob
  split
  · exact releaseJob_path _ _
  · exact .nil _

theorem returnJob_path (pr : PrinterNo) :
    Path c n p (p.onLabels (fun l => { l with queue := returnJob pr p.lu.queue })) :=
  changeFirst_path (fun _ => rfl) (fun _ => rfl) (fun _ _ _ h => by cases h)

theorem sendLabel_path (pr : PrinterNo) : Path c n p (p.sendLabel pr) := by
  unfold Part.sendLabel
  split
  · exact .nil _
  · rename_i j hj
    split
    · rename_i hready
      simp only [Bool.and_eq_true] at hready
      refine (changeFirst_path (p := p) (test := fun j => j.target = pr && !j.atPrinter)
        (f := fun j => { j with atPrinter := true }) (fun _ => rfl) (fun _ => rfl) fun x hx _ _ => ?_).then (.same rfl rfl)
      have hx' : p.lu.nextJob pr = some x := hx
      rw [hj] at hx'
      cases hx'
      exact hready.2
    · exact .nil _

theorem enterPrinterState_path (pr : PrinterNo) (new : PrinterState) : Path c n p (p.enterPrinterState pr new) := by
  unfold Part.enterPrinterState
  dsimp only
  split <;> exact .same rfl rfl

theorem settleDone_path (pr : PrinterNo) (k : Nat) :
    Path c n p (p.onLabels (fun l => { l with queue := settleDone p.lu pr k })) := by
  unfold settleDone
  split
  · exact jobsSettled_of_sublist (sublist_removeFirst _ _)
  · refine Path.then (q := p.onLabels (fun l => { l with
      queue := removeFirst (fun j => j.label == k && j.target = pr && !j.atPrinter) p.lu.queue }))
      (jobsSettled_of_sublist (sublist_removeFirst _ _)) ?_
    exact returnJob_path (p := p.onLabels (fun l => { l with
      queue := removeFirst (fun j => j.label == k && j.target = pr && !j.atPrinter) p.lu.queue })) pr

theorem settleJobs_path (pr : PrinterNo) (status : PrinterStatus) :
    Path c n p (p.onLabels (fun l => { l with queue := settleJobs p.lu pr status })) := by
  cases status with
  | busy => exact .same rfl rfl
  | done k => exact settleDone_path pr k
  | idle => exact returnJob_path pr
  | stockOut => exact returnJob_path pr
  | coverOpen => exact returnJob_path pr

theorem printerReply_path (pr : PrinterNo) (status : PrinterStatus) : Path c n p (p.printerReply pr status) := by
  unfold Part.printerReply
  refine (settleJobs_path (n := 0) pr status).then (Path.then (.same ?_ ?_) (enterPrinterState_path pr _)) <;> rfl

theorem printerOffline_path (pr : PrinterNo) : Path c n p (p.printerOffline pr) := by
  unfold Part.printerOffline
  split
  · exact .nil _
  · exact .nil _
  · rename_i t _ _
    exact (reach_path (n := 0) (t + Config.printerOfflineMs)).then
      ((returnJob_path (n := 0) pr).then (enterPrinterState_path pr _))

theorem sendStatus_path (pr : PrinterNo) : Path c n p (p.sendStatus pr) := by
  unfold Part.sendStatus
  split
  · exact .nil _
  · exact .same rfl rfl

theorem giveUp_path (pr : PrinterNo) : Path c n p (p.giveUp pr) := by
  unfold Part.giveUp
  split
  · exact .nil _
  · exact .passing _ rfl rfl

theorem serveMoveJobs_path (source target : Nat) : Path c n p (serveMoveJobs source target p).1 := by
  unfold serveMoveJobs
  split
  · rename_i a b _ _
    split
    · exact .nil _
    · refine Move.alone (.jobsSettled _ (by simp) (fun hr j hj => ?_) ?_)
      · obtain ⟨x, hx, rfl⟩ := List.mem_map.1 hj
        have := hr x hx
        split <;> exact this
      · have hlabel : Job.label ∘ (fun j : Job => if j.movable a then { j with target := b } else j) = Job.label := by
          funext x
          simp only [Function.comp]
          split <;> rfl
        have hkind : ((fun j : Job => decide (j.kind ≠ .reprint)) ∘
            fun j : Job => if j.movable a then { j with target := b } else j) = fun j => decide (j.kind ≠ .reprint) := by
          funext x
          simp only [Function.comp]
          split <;> rfl
        rw [List.filter_map, List.map_map, hlabel, hkind]
        exact List.Sublist.refl _
  · exact .nil _

theorem serveMoveJobs_isNow (source target : Nat) : (serveMoveJobs source target p).2.isNow = true := by
  unfold serveMoveJobs
  split
  · split <;> rfl
  · rfl

theorem serveCancelJobs_path (printer : Nat) : Path c n p (serveCancelJobs printer p).1 := by
  unfold serveCancelJobs
  split
  · exact .nil _
  · exact (jobsSettled_of_sublist (n := 0) List.filter_sublist).then (.same rfl rfl)

theorem serveCancelJobs_isNow (printer : Nat) : (serveCancelJobs printer p).2.isNow = true := by
  unfold serveCancelJobs
  split <;> rfl

theorem addJob_reprint_path (label : Nat) (target : PrinterNo) (content : LabelContent) (h : p.printRoom = true) :
    Path c n p (p.addJob .reprint label target content) := by
  refine Move.upTo (.jobAdded ⟨.reprint, label, target, false, false, content⟩ h rfl rfl) ?_ ?_ <;>
  · unfold Part.addJob
    dsimp only
    split <;> rfl

/-! ## Tickets -/

theorem take_path (d : DispenserNo) (tag : Nat) (agrees : Bool) : Path c n p (p.receiveTake d tag agrees) := by
  unfold Part.receiveTake
  split
  · unfold Part.take
    split
    · exact .nil _
    · have hserve : Path c 0 p (p.serveTake d).1 := by
        unfold Part.serveTake
        split
        · exact .nil _
        · exact .nil _
        · exact .nil _
        · split
          · exact .same rfl rfl
          · rename_i hroom
            exact Move.alone (.ticketIssued d (Nat.lt_of_not_le hroom))
      exact hserve.then (.same rfl rfl)
  · exact .nil _

theorem expireMissed_path (k : Nat) : Path c n p (p.expireMissed k) := by
  unfold Part.expireMissed
  split
  · exact .nil _
  · rename_i m _
    exact (reach_path (n := 0) (m.missedAt + Config.missedMs)).then
      (Move.upTo (.ticketExpired k) rfl rfl)

theorem keyNext_path {d : ResultData} (h : keyNext st p = .ok (q, d)) : Path c n p q := by
  simp only [keyNext, bind_ok, check_ok, need_ok, pure_ok, Prod.mk.injEq] at h
  obtain ⟨_, -, _, -, t, hhead, rfl, -⟩ := h
  obtain ⟨rest, hw⟩ := List.head?_eq_some_iff.1 hhead
  have ht : p.tc.waiting.tail = rest := by rw [hw]; rfl
  rw [ht]
  exact Move.alone (.ticketCalled st t rest hw)

theorem keyRecall_path {k : Nat} {d : ResultData} (h : keyRecall st k p = .ok (q, d)) : Path c n p q := by
  simp only [keyRecall, bind_ok, check_ok, need_ok, pure_ok, Prod.mk.injEq] at h
  obtain ⟨_, -, _, -, _, -, m, hm, rfl, -⟩ := h
  exact Move.alone (.ticketRecalled st k m hm)

/-! ## The counter -/

theorem serveOpenCounter_path (h : p.tt.counter ≠ .starting) : Path c n p (serveOpenCounter p).1 := by
  unfold serveOpenCounter
  split
  · exact .nil _
  · exact .nil _
  · split
    · exact .nil _
    · split
      · exact .nil _
      · exact Move.alone (.counterSet .trading h (by decide) (by decide))

theorem serveOpenCounter_isNow : (serveOpenCounter p).2.isNow = true := by
  unfold serveOpenCounter
  split
  · rfl
  · rfl
  · split
    · rfl
    · split <;> rfl

theorem servePauseCounter_path (h : p.tt.counter ≠ .starting) : Path c n p (servePauseCounter p).1 := by
  unfold servePauseCounter
  split
  · exact Move.alone (.counterSet .paused h (by decide) (by decide))
  · exact .nil _
  · exact .nil _

theorem servePauseCounter_isNow : (servePauseCounter p).2.isNow = true := by
  unfold servePauseCounter
  split <;> rfl

theorem serveCloseCounter_path (h : p.tt.counter ≠ .starting) : Path c n p (serveCloseCounter p).1 := by
  have hclose : Path c n p (p.withCounter .closed).abandonTickets :=
    Path.then (Move.alone (.counterSet .closed h (by decide) (by decide))) (Move.alone .ticketsAbandoned)
  unfold serveCloseCounter
  split
  · exact hclose
  · exact hclose
  · exact .nil _
  · exact .nil _

theorem serveCloseCounter_isNow : (serveCloseCounter p).2.isNow = true := by
  unfold serveCloseCounter
  split <;> rfl

theorem serveDayClose_path (h : p.tt.counter ≠ .starting) : Path c n p (serveDayClose p).1 := by
  unfold serveDayClose
  split
  · exact .nil _
  · rename_i hok
    simp only [Part.dayCloseChecks, bind_ok, check_ok] at hok
    obtain ⟨_, -, _, -, _, hempty, hjournal⟩ := hok
    exact Move.alone (.dayCloseBegun _ h hempty (Part.hasPlace_of_journalCheck hjournal))

theorem serveDayClose_isNow : (serveDayClose p).2.isNow = true := by
  unfold serveDayClose
  split <;> rfl

/-! ## Orders -/

theorem keyOpenOrder_path {operator : Nat} {d : ResultData} (h : keyOpenOrder st operator p = .ok (q, d)) :
    Path c n p q := by
  simp only [keyOpenOrder, Part.checkNewOrder, bind_ok, check_ok, pure_ok, Prod.mk.injEq, Part.checkTrading_ok,
    decide_eq_true_eq, Option.isNone_iff_eq_none] at h
  obtain ⟨_, htrading, _, hfree, _, ⟨_, hslot, hlimit⟩, rfl, -⟩ := h
  exact Move.alone (.orderOpened st operator htrading hfree hslot hlimit)

theorem park_path {o : Order} (h : p.park st = .ok (q, o)) : Path c n p q := by
  simp only [Part.park, bind_ok, need_ok, pure_ok, Prod.mk.injEq] at h
  obtain ⟨x, hx, rfl, -⟩ := h
  exact Move.alone (.orderParked st x hx)

theorem keyPark_path {d : ResultData} (h : keyPark st p = .ok (q, d)) : Path c n p q := by
  simp only [keyPark, bind_ok, pure_ok, Prod.mk.injEq, Prod.exists] at h
  obtain ⟨_, _, hpark, rfl, -⟩ := h
  exact park_path hpark

theorem endSignOn_path {x : Option Nat} (h : p.endSignOn st = .ok (q, x)) : Path c n p q := by
  unfold Part.endSignOn at h
  split at h
  · simp only [bind_ok, pure_ok, Prod.mk.injEq, Prod.exists] at h
    obtain ⟨_, _, hpark, rfl, -⟩ := h
    exact (park_path (n := 0) hpark).then (.same rfl rfl)
  · simp only [pure_ok, Prod.mk.injEq] at h
    obtain ⟨rfl, -⟩ := h
    exact .same rfl rfl

theorem keySignOff_path {d : ResultData} (h : keySignOff st p = .ok (q, d)) : Path c n p q := by
  simp only [keySignOff, bind_ok, pure_ok, Prod.mk.injEq, Prod.exists] at h
  obtain ⟨_, _, hend, rfl, -⟩ := h
  exact endSignOn_path hend

theorem serveSignOffClerk_path (k : Nat) : Path c n p (serveSignOffClerk k p).1 := by
  unfold serveSignOffClerk
  split
  · exact .nil _
  · rename_i r _ _ hok
    simp only [Part.signOffClerk, bind_ok, check_ok, need_ok, pure_ok, Prod.mk.injEq, Prod.exists] at hok
    obtain ⟨_, -, _, -, _, -, _, _, hend, rfl, -⟩ := hok
    exact endSignOn_path hend

theorem serveSignOffClerk_isNow (k : Nat) : (serveSignOffClerk k p).2.isNow = true := by
  unfold serveSignOffClerk
  split <;> rfl

theorem keyResume_path {k : Nat} {d : ResultData} (h : keyResume st k p = .ok (q, d)) : Path c n p q := by
  simp only [keyResume, bind_ok, check_ok, need_ok, pure_ok, Prod.mk.injEq, decide_eq_true_eq,
    Option.isNone_iff_eq_none] at h
  obtain ⟨_, -, _, hfree, o, ho, _, hparked, rfl, -⟩ := h
  exact Move.alone (.orderResumed st k o hfree ho hparked)

theorem beginClosing_path {o : Order} {kind : CloseKind} (ho : p.order o.number = some o) (hs : p.standing o)
    (hp : p.hasPlace = true) : Path c n p (p.beginClosing o.number kind) :=
  Path.then (Move.alone (.closingBegun o kind ho hs hp)) (Move.alone (.closingSettled o.number))

theorem makeTotalLabel_frame (o : Order) :
    (p.makeTotalLabel st o).om.active = p.om.active ∧ (p.makeTotalLabel st o).hasPlace = p.hasPlace := by
  unfold Part.makeTotalLabel Part.addJob
  dsimp only
  split
  · split <;> exact ⟨rfl, rfl⟩
  · exact ⟨rfl, rfl⟩

theorem makeTotalLabel_order {o : Order} (h : p.order o.number = some o) :
    ∃ x : Order, x.number = o.number ∧ (p.makeTotalLabel st o).order o.number = some x := by
  unfold Part.makeTotalLabel
  split
  · have hchanged := Part.order_updateOrder (p := p.takeLabel) (n := o.number)
      (f := fun x => { x with totalLabel := some p.lu.nextLabel }) (fun _ => rfl) h
    refine ⟨{ o with totalLabel := some p.lu.nextLabel }, rfl, ?_⟩
    unfold Part.addJob
    dsimp only
    split <;> exact hchanged
  · exact ⟨o, rfl, h⟩

theorem keyCloseOrder_path {d : ResultData} (hc : c.takesLabels = true) (hrun : p.tt.counter ≠ .starting)
    (h : keyCloseOrder st p = .ok (q, d)) : Path c 1 p q := by
  simp only [keyCloseOrder, bind_ok, need_ok] at h
  obtain ⟨o, ho, h⟩ := h
  obtain ⟨hactive, horder⟩ := Part.order_of_active ho
  split at h
  · rename_i hempty
    simp only [pure_ok, Prod.mk.injEq] at h
    obtain ⟨rfl, -⟩ := h
    exact Move.alone (.orderFreed o horder (.inl ⟨st, hactive⟩) (List.isEmpty_iff.1 hempty))
  · simp only [bind_ok, check_ok, pure_ok, Prod.mk.injEq] at h
    obtain ⟨_, hroom, _, hjournal, rfl, -⟩ := h
    have hplace := Part.hasPlace_of_journalCheck hjournal
    have hlabel : Path c 1 p (p.makeTotalLabel st o) := by
      by_cases hmode : makesTotal o.labelMode = true
      · rw [hmode] at hroom
        exact (Move.totalLabelled st o hc hrun ho hmode (by simpa using hroom)).path
      · have : p.makeTotalLabel st o = p := by simp [Part.makeTotalLabel, hmode]
        rw [this]
        exact .nil _
    obtain ⟨x, hx, hfound⟩ := makeTotalLabel_order (st := st) horder
    obtain ⟨hactive', hplace'⟩ := makeTotalLabel_frame (p := p) (st := st) o
    refine hlabel.before ?_
    rw [← hx] at hfound ⊢
    exact beginClosing_path hfound (.inl ⟨st, by rw [hactive', hx]; exact hactive⟩) (by rw [hplace']; exact hplace)

theorem voidOrder_path {o : Order} (ho : p.order o.number = some o) (hs : p.standing o) (h : p.voidOrder o = .ok q) :
    Path c n p q := by
  unfold Part.voidOrder at h
  split at h
  · rename_i hempty
    cases h
    have hlines : o.lines = [] := List.isEmpty_iff.1 hempty
    exact Move.alone (.orderFreed o ho hs (by simp [Order.activeLines, hlines]))
  · split at h
    · cases h
    · rename_i hjournal
      cases h
      exact beginClosing_path ho hs (Part.hasPlace_of_journalCheck hjournal)

theorem keyVoidOrder_path {named : Option Nat} {d : ResultData} (h : keyVoidOrder st named p = .ok (q, d)) :
    Path c n p q := by
  simp only [keyVoidOrder, bind_ok, pure_ok, Prod.mk.injEq] at h
  obtain ⟨o, hnamed, _, hvoid, rfl, -⟩ := h
  cases named with
  | none =>
    obtain ⟨hactive, horder⟩ := Part.order_of_active (need_ok.1 hnamed)
    exact voidOrder_path horder (.inl ⟨st, hactive⟩) hvoid
  | some k =>
    simp only [Part.orderToVoid, bind_ok, need_ok, check_ok, pure_ok, decide_eq_true_eq] at hnamed
    obtain ⟨x, hx, _, hparked, rfl⟩ := hnamed
    obtain rfl := Part.order_number hx
    exact voidOrder_path hx (.inr hparked) hvoid

theorem serveVoidOrder_path (k : Nat) : Path c n p (serveVoidOrder k p).1 := by
  unfold serveVoidOrder
  split
  · exact .nil _
  · rename_i hok
    simp only [Part.hostVoid, bind_ok, need_ok, check_ok, pure_ok, Prod.mk.injEq, decide_eq_true_eq] at hok
    obtain ⟨_, -, x, hx, _, hparked, _, hvoid, rfl, -⟩ := hok
    obtain rfl := Part.order_number hx
    exact voidOrder_path hx (.inr hparked) hvoid

theorem serveVoidOrder_isNow (k : Nat) : (serveVoidOrder k p).2.isNow = true := by
  unfold serveVoidOrder
  split <;> rfl

/-! ## Lines -/

theorem keyVoidLine_path {index supervisor : Nat} {d : ResultData} (h : keyVoidLine st index supervisor p = .ok (q, d)) :
    Path c n p q := by
  simp only [keyVoidLine, bind_ok, pure_ok, Prod.mk.injEq, Prod.exists] at h
  obtain ⟨o, f, hline, _, hjournal, rfl, -⟩ := h
  obtain ⟨hactive, -, -, hl⟩ := Part.activeLine_ok.1 hline
  refine Path.then (Move.alone (.lineVoided st o index f hactive hl)) (Move.alone (.recordQueued _ rfl ?_))
  exact Part.hasPlace_of_journalCheck hjournal

theorem keyReprint_path {index supervisor : Nat} {d : ResultData} (h : keyReprint st index supervisor p = .ok (q, d)) :
    Path c n p q := by
  simp only [keyReprint, bind_ok, check_ok, need_ok, pure_ok, Prod.mk.injEq, Prod.exists] at h
  obtain ⟨o, f, -, k, -, _, hroom, _, hjournal, rfl, -⟩ := h
  refine (addJob_reprint_path (n := 0) _ _ _ hroom).then (Move.alone (.recordQueued _ rfl ?_))
  have := Part.hasPlace_of_journalCheck hjournal
  unfold Part.addJob
  dsimp only
  split <;> exact this

theorem openOrder_frame (operator : Nat) :
    (p.openOrder st operator).tj = p.tj ∧ (p.openOrder st operator).lu = p.lu ∧ (p.openOrder st operator).art = p.art
      ∧ (p.openOrder st operator).tt = p.tt := by
  unfold Part.openOrder Part.bindTicket
  dsimp only
  split <;> exact ⟨rfl, rfl, rfl, rfl⟩

theorem mem_placeOrder {o : Order} {pool : List (Option Order)} (h : pool.any Option.isNone = true) :
    some o ∈ placeOrder o pool := by
  induction pool with
  | nil => cases h
  | cons slot rest ih =>
    cases slot with
    | none => exact List.mem_cons_self
    | some x => exact List.mem_cons_of_mem _ (ih (by simpa using h))

/-- The order that has been opened is in the pool, without lines. -/
theorem opened_mem (operator : Nat) (h : p.om.pool.any Option.isNone = true) :
    ∃ x ∈ (p.openOrder st operator).om.orders, x.number = p.nextOrder ∧ x.lines = [] := by
  have hom : (p.openOrder st operator).om.pool = placeOrder
      { number := p.nextOrder, owner := operator, state := .opened st, ticket := p.calledNumber st,
        labelMode := (p.config st).labelMode, lines := [], total := 0, totalLabel := none, openedAt := p.stamp }
      p.om.pool := by
    unfold Part.openOrder Part.bindTicket
    dsimp only
    split <;> rfl
  refine ⟨_, List.mem_filterMap.2 ⟨_, hom ▸ mem_placeOrder h, rfl⟩, rfl, rfl⟩

theorem opened_active (operator : Nat) : (p.openOrder st operator).om.active.get st = some p.nextOrder := by
  unfold Part.openOrder Part.bindTicket
  dsimp only
  split <;> simp

/-- What the ten checks of ADD LINE leave for the commit. -/
theorem commitChecks_ok {operator : Nat} {x : Commit} (h : p.commitChecks st operator = .ok x) :
    p.tt.counter = .trading ∧ x.article ∈ p.art.table ∧ p.checkLineRoom st operator = .ok ()
      ∧ (makesItem x.labelMode = true → p.printRoom = true) ∧ p.hasPlace = true := by
  simp only [Part.commitChecks, bind_ok, check_ok, need_ok, pure_ok, Part.checkTrading_ok] at h
  obtain ⟨_, htrading, _, -, _, -, n, -, a, ha, _, -, m, -, price, -, _, hroom, _, -, _, hprint, _, hjournal, rfl⟩ := h
  refine ⟨htrading, lookup_mem ha, hroom, fun hmakes => ?_, Part.hasPlace_of_journalCheck hjournal⟩
  have hmakes' : makesItem (p.commitMode st) = true := hmakes
  simpa [hmakes'] using hprint

theorem newLine_label (o : Order) (x : Commit) (h : makesItem x.labelMode = true → p.printRoom = true) :
    (p.newLine st o x).label = none ∨ ((p.newLine st o x).label = some p.lu.nextLabel ∧ p.printRoom = true) := by
  unfold Part.newLine
  dsimp only
  split
  · rename_i hmakes
    exact .inr ⟨rfl, h hmakes⟩
  · exact .inl rfl

theorem keyAddLine_path {operator : Nat} {d : ResultData} (hc : c.takesLabels = true)
    (h : keyAddLine st operator p = .ok (q, d)) : Path c 1 p q := by
  simp only [keyAddLine, bind_ok, need_ok, pure_ok, Prod.mk.injEq] at h
  obtain ⟨x, hx, o, ho, rfl, -⟩ := h
  obtain ⟨htrading, harticle, hroom, hprint, hplace⟩ := commitChecks_ok hx
  cases hactive : p.om.active.get st with
  | some k =>
    have hsame : p.withOrder st operator = p := by simp [Part.withOrder, hactive]
    rw [hsame] at ho ⊢
    simp only [Part.checkLineRoom, hactive, check_ok, ho, Option.any_some, decide_eq_true_eq] at hroom
    exact (Move.lineAdded st o (p.newLine st o x) x.article hc htrading ho (.inl hroom) rfl harticle rfl
      (newLine_label o x hprint) hplace).path
  | none =>
    have hopen : p.withOrder st operator = p.openOrder st operator := by simp [Part.withOrder, hactive]
    rw [hopen] at ho ⊢
    simp only [Part.checkLineRoom, hactive, Part.checkNewOrder, bind_ok, check_ok, decide_eq_true_eq] at hroom
    obtain ⟨_, hslot, hlimit⟩ := hroom
    obtain ⟨htj, hlu, hart, htt⟩ := openOrder_frame (p := p) (st := st) operator
    obtain ⟨hnumber, -⟩ := Part.order_of_active ho
    rw [opened_active operator, Option.some.injEq] at hnumber
    have hprint' : makesItem x.labelMode = true → (p.openOrder st operator).printRoom = true := fun hm => by
      simpa [Part.printRoom, hlu] using hprint hm
    have hempty := opened_mem (st := st) operator hslot
    rw [hnumber] at hempty
    refine (Move.path (.orderOpened st operator htrading hactive hslot hlimit)).then (Move.path ?_)
    exact .lineAdded st o _ x.article hc (by rw [htt]; exact htrading) ho (.inr hempty) rfl (by rw [hart]; exact harticle) rfl
      (newLine_label o x hprint') (by simpa [Part.hasPlace, htj] using hplace)

/-! ## The selection, the stack and the weighing keys -/

theorem onKeyChannel_path {r : Except Reason Channel} {d : ResultData} (h : p.onKeyChannel st r = .ok (q, d)) :
    Path c n p q := by
  unfold Part.onKeyChannel at h
  split at h
  · cases h
  · cases h
    exact .same rfl rfl

theorem keySelect_path {k : Nat} {d : ResultData} (h : keySelect st k p = .ok (q, d)) : Path c n p q := by
  simp only [keySelect, bind_ok, pure_ok, Prod.mk.injEq] at h
  obtain ⟨_, -, _, -, rfl, -⟩ := h
  exact .same rfl rfl

theorem keyRepeat_path {d : ResultData} (h : keyRepeat st p = .ok (q, d)) : Path c n p q := by
  simp only [keyRepeat, bind_ok, pure_ok, Prod.mk.injEq] at h
  obtain ⟨_, -, _, -, rfl, -⟩ := h
  exact .same rfl rfl

theorem keyQuantity_path {k : Nat} {d : ResultData} (h : keyQuantity st k p = .ok (q, d)) : Path c n p q := by
  simp only [keyQuantity, bind_ok, pure_ok, Prod.mk.injEq] at h
  obtain ⟨_, -, _, -, _, -, rfl, -⟩ := h
  exact .same rfl rfl

theorem keyPriceOverride_path {price k : Nat} {d : ResultData} (h : keyPriceOverride st price k p = .ok (q, d)) :
    Path c n p q := by
  simp only [keyPriceOverride, bind_ok, pure_ok, Prod.mk.injEq] at h
  obtain ⟨_, -, _, -, rfl, -⟩ := h
  exact .same rfl rfl

theorem keySignOn_path {k : Nat} {d : ResultData} (h : keySignOn st k p = .ok (q, d)) : Path c n p q := by
  simp only [keySignOn, bind_ok, pure_ok, Prod.mk.injEq] at h
  obtain ⟨_, -, _, -, _, -, rfl, -⟩ := h
  exact .same rfl rfl

theorem keyOverride_path {k : Nat} {d : ResultData} (h : keyOverride st k p = .ok (q, d)) : Path c n p q := by
  simp only [keyOverride, bind_ok, pure_ok, Prod.mk.injEq] at h
  obtain ⟨_, -, _, -, _, -, _, -, _, -, rfl, -⟩ := h
  exact .same rfl rfl

theorem keyEndOverride_path {d : ResultData} (h : keyEndOverride st p = .ok (q, d)) : Path c n p q := by
  simp only [keyEndOverride, bind_ok, pure_ok, Prod.mk.injEq] at h
  obtain ⟨_, -, rfl, -⟩ := h
  exact .same rfl rfl

/-! ## Key requests through OC -/

/-- Whether a key request can take a label number. -/
def Key.labels : Key → Bool
  | .addLine => true
  | .closeOrder => true
  | _ => false

theorem privileged_path {serve : Nat → Part → Served} {d : ResultData}
    (hserve : ∀ k r e, serve k p = .ok (r, e) → Path c n p r) (h : p.privileged st serve = .ok (q, d)) : Path c n p q := by
  rw [Part.privileged_eq] at h
  split at h
  · cases h
  · rename_i k _
    cases hr : serve k p with
    | error e => rw [hr] at h; cases h
    | ok x =>
      rw [hr] at h
      cases h
      exact (hserve k x.1 x.2 hr).before (.same rfl rfl)

theorem serveSignedOn_path {operator : Nat} {k : Key} {d : ResultData} (hc : Key.labels k = true → c.takesLabels = true)
    (hrun : isWeighingKey k = false → p.tt.counter ≠ .starting) (h : p.serveSignedOn st operator k = .ok (q, d)) :
    Path c 1 p q := by
  cases k with
  | signOn _ => cases h
  | signOff => exact keySignOff_path h
  | override _ => exact keyOverride_path h
  | endOverride => exact keyEndOverride_path h
  | select _ => exact keySelect_path h
  | quantity _ => exact keyQuantity_path h
  | repeatEntry => exact keyRepeat_path h
  | priceOverride _ => exact privileged_path (fun _ _ _ => keyPriceOverride_path) h
  | zero => exact onKeyChannel_path h
  | tare => exact onKeyChannel_path h
  | clearTare => exact onKeyChannel_path h
  | addLine => exact keyAddLine_path (hc rfl) h
  | openOrder => exact keyOpenOrder_path h
  | park => exact keyPark_path h
  | resume _ =>
    simp only [Part.serveSignedOn] at h
    split at h
    · exact privileged_path (fun _ _ _ => keyResume_path) h
    · exact keyResume_path h
  | closeOrder => exact keyCloseOrder_path (hc rfl) (hrun rfl) h
  | voidLine _ => exact privileged_path (fun _ _ _ => keyVoidLine_path) h
  | voidOrder _ => exact privileged_path (fun _ _ _ => keyVoidOrder_path) h
  | reprint _ => exact privileged_path (fun _ _ _ => keyReprint_path) h
  | next => exact keyNext_path h
  -- RECALL, whose name is a keyword of Lean
  | _ => exact keyRecall_path h

theorem serveSignedOff_path {k : Key} {d : ResultData} (h : p.serveSignedOff st k = .ok (q, d)) : Path c n p q := by
  cases k <;> first | exact keySignOn_path h | exact onKeyChannel_path h | cases h

theorem serveKey_path {k : Key} {d : ResultData} (hc : Key.labels k = true → c.takesLabels = true)
    (h : p.serveKey st k = .ok (q, d)) : Path c 1 p q := by
  unfold Part.serveKey at h
  split at h
  · cases h
  · split at h
    · cases h
    · rename_i hrun
      split at h
      · exact serveSignedOff_path h
      · refine serveSignedOn_path hc (fun hk e => hrun ?_) h
        simp [e, hk]

theorem takeKey_path {tag : Nat} {k : Key} {acc : List KeyOutcome} (hc : Key.labels k = true → c.takesLabels = true) :
    Path c 1 p (takeKey st (p, acc) tag k).1 := by
  unfold takeKey
  split
  · exact .nil _
  · refine Path.upFrom (q := p.onLink st (fun l => { l with keptTag := some tag })) ?_ rfl rfl
    unfold Part.keyOutcome
    dsimp only
    split
    · rename_i h
      exact serveKey_path hc h
    · exact .nil _

theorem replaceOutcomes_path (outcomes : List KeyOutcome) : Path c n p (p.replaceOutcomes st outcomes) := by
  unfold Part.replaceOutcomes
  split
  · exact .nil _
  · exact .same rfl rfl

theorem takeKeys_path {keys : List (Nat × Key)} (hc : ∀ k ∈ keys, Key.labels k.2 = true → c.takesLabels = true) :
    Path c keys.length p (p.takeKeys st keys) := by
  have hfold : ∀ (keys : List (Nat × Key)) (p : Part) (acc : List KeyOutcome),
      (∀ k ∈ keys, Key.labels k.2 = true → c.takesLabels = true) →
      Path c keys.length p (keys.foldl (fun acc k => takeKey st acc k.1 k.2) (p, acc)).1 := by
    intro keys
    induction keys with
    | nil => exact fun p acc _ => .nil p
    | cons k rest ih =>
      intro p acc hc
      have hfirst : Path c 1 p (takeKey st (p, acc) k.1 k.2).1 := takeKey_path (hc k List.mem_cons_self)
      have hrest := ih (takeKey st (p, acc) k.1 k.2).1 (takeKey st (p, acc) k.1 k.2).2
        (fun x hx => hc x (List.mem_cons_of_mem _ hx))
      exact (hfirst.trans hrest).mono (by simp; omega)
  exact (hfold keys p [] hc).before (replaceOutcomes_path _)

theorem keyRequest_path {tag : Nat} {k : Key} (hc : Key.labels k = true → c.takesLabels = true) :
    Path c 2 p (p.keyRequest st tag k) := by
  unfold Part.keyRequest
  split
  · exact (takeKeys_path (keys := [(tag, k)]) (by simpa using hc)).mono (by simp)
  · exact .nil _

end

end Sys2Proof.Machine
end

