-- ==== Sys2Proof/Proofs/ExecPaths.lean ====
section
/-! Every command but the end of the start-up scan is a sequence of moves that takes at most two labels: the host port, the
station bus, the journal, and then all commands. -/

namespace Sys2Proof.Machine

section
variable {c : Instr} {n : Nat} {p q : Part} {st : StationNo}

/-! ## Resets and frames -/

theorem reset_path (cause : ResetCause) (time : TimeBase) (hc : c.resets) (hr : p.time.Runs → time.Runs) :
    Path c n p (p.reset cause time) := Move.alone (.reset cause time hc hr)

theorem restart_runs {t : TimeBase} (h : t.Runs) : t.restart.Runs := ⟨h.clock, h.phase⟩

theorem resetPart_path (tag : Nat) (hc : c.resets) : Path c n p (p.resetPart tag) :=
  (reset_path (n := 0) .resetPart p.time.restart hc restart_runs).then (.same rfl rfl)

theorem resetLine_path (hc : c.resets) : Path c n p p.resetLine :=
  Path.upFrom (reset_path .resetLine p.time.restart hc restart_runs) rfl rfl

theorem buffer_path (f : Frame) : Path c n p (p.buffer f) := by
  unfold Part.buffer
  split
  · rename_i hroom
    exact Move.alone (.frameJoined f hroom)
  · exact .same rfl rfl

theorem acceptFrame_path (f : Frame) (hc : f.meaning = .request .resetPart → c.resets) : Path c n p (p.acceptFrame f) := by
  unfold Part.acceptFrame
  split
  · rename_i hreset
    simp only [resetsPart, Bool.and_eq_true, decide_eq_true_eq] at hreset
    exact resetPart_path _ (hc hreset.1)
  · exact buffer_path f

theorem receive_path (f : WireFrame) (hc : f.meaning = .request .resetPart → c.resets) : Path c n p (p.receive f) := by
  unfold Part.receive
  split
  · exact .same rfl rfl
  · split
    · exact .same rfl rfl
    · split
      · exact .same rfl rfl
      · exact acceptFrame_path _ hc

theorem takeWireFrame_path (f : WireFrame) (hc : f.meaning = .request .resetPart → c.resets) :
    Path c n p (p.takeWireFrame f) :=
  Path.upFrom (q := p.startFrame f.startAt)
    ((reach_path (n := 0) _).then ((receive_path (n := 0) f hc).then (.same rfl rfl))) rfl rfl

theorem frameTimeout_path : Path c n p p.frameTimeout :=
  Path.upFrom (q := p.startFrame (p.now - Config.frameMs)) ((reach_path (n := 0) _).then (.same rfl rfl)) rfl rfl

theorem refuseFrame_path (f : Frame) : Path c n p (p.refuseFrame f) := by
  unfold Part.refuseFrame
  split
  · rename_i r _ hr
    exact (takeFrame_path (n := 0) hr).1.then (.same rfl rfl)
  · exact .nil _

theorem sendNotice_path : Path c n p p.sendNotice := by
  unfold Part.sendNotice
  split
  · exact .nil _
  · exact .nil _
  · exact .same rfl rfl

theorem serveClearConditions_path (named : List (Option Condition)) : Path c n p (serveClearConditions named p).1 := by
  have hclear : ∀ (l : List Condition) (p : Part), (l.foldl Part.clear p).seen = p.seen ∧ (l.foldl Part.clear p).time = p.time := by
    intro l
    induction l with
    | nil => exact fun p => ⟨rfl, rfl⟩
    | cons x xs ih => exact fun p => ih (p.clear x)
  unfold serveClearConditions
  split
  · exact .nil _
  · exact .same (hclear _ p).1 (hclear _ p).2

theorem serveClearConditions_isNow (named : List (Option Condition)) : (serveClearConditions named p).2.isNow = true := by
  unfold serveClearConditions
  split <;> rfl

theorem serveReadRecovery_path (position : Nat) : Path c n p (serveReadRecovery position p).1 := by
  unfold serveReadRecovery
  split
  · exact .nil _
  · split
    · exact .nil _
    · exact .same rfl rfl

theorem serveReadRecovery_isNow (position : Nat) : (serveReadRecovery position p).2.isNow = true := by
  unfold serveReadRecovery
  split
  · rfl
  · split <;> rfl

theorem serveCalAbort_path : Path c n p (serveCalAbort p).1 := by
  unfold serveCalAbort
  split
  · exact endSession_path _
  · exact .nil _

theorem serveCalAbort_isNow : (serveCalAbort p).2.isNow = true := by
  unfold serveCalAbort
  split <;> rfl

/-! ## Requests that wait for a write -/

theorem setStation_path {tag : Nat} (body : SetStationBody) :
    Path c n p (p.dispatch tag (.setStation body) (serveSetStation body)) := by
  refine writing_path (fun q => ?_) fun q w hw => ?_
  · unfold serveSetStation
    split
    · split <;> rfl
    · split <;> rfl
  · unfold serveSetStation at hw
    split at hw
    · split at hw
      · cases hw; exact ⟨fun _ => ⟨nofun, nofun⟩, nofun⟩
      · cases hw
    · split at hw
      · cases hw
      · cases hw; exact ⟨fun _ => ⟨nofun, nofun⟩, nofun⟩

theorem setClerk_path {tag : Nat} (number : Nat) (role : Option Role) (name : Text) :
    Path c n p (p.dispatch tag (.setClerk number role name) (serveSetClerk number role name)) := by
  refine writing_path (fun q => ?_) fun q w hw => ?_
  · unfold serveSetClerk
    split <;> rfl
  · unfold serveSetClerk at hw
    split at hw
    · cases hw
    · rename_i hok
      cases hw
      refine ⟨fun _ => ⟨nofun, nofun⟩, fun x hx => ?_⟩
      cases hx
      simp only [Part.setClerkChecks, bind_ok, check_ok, need_ok, pure_ok, Bool.or_eq_true, decide_eq_true_eq] at hok
      obtain ⟨_, -, _, -, _, -, _, hroom, rfl⟩ := hok
      exact hroom

theorem removeClerk_path {tag : Nat} (number : Nat) :
    Path c n p (p.dispatch tag (.removeClerk number) (serveRemoveClerk number)) := by
  refine writing_path (fun q => ?_) fun q w hw => ?_
  · unfold serveRemoveClerk
    split <;> rfl
  · unfold serveRemoveClerk at hw
    split at hw
    · cases hw
    · cases hw; exact ⟨fun _ => ⟨nofun, nofun⟩, nofun⟩

/-! ## Requests that only read -/

theorem readStation_isNow (k : Nat) : (readStation k p).isNow = true := by
  unfold readStation
  split
  · rfl
  · split <;> rfl

theorem readArticle_isNow (k : Nat) (d : Option Direction) : (readArticle k d p).isNow = true := by
  have hfound : ∀ o : Option Article, (match o with
      | some a => Answer.done (.article a p.art.generation p.art.table.length)
      | none => .refuse .noSuch).isNow = true := fun o => by cases o <;> rfl
  unfold readArticle
  repeat' split
  all_goals first | exact hfound _ | rfl

theorem readOrder_isNow (k : Nat) : (readOrder k p).isNow = true := by
  unfold readOrder
  repeat' split
  all_goals rfl

theorem readQueue_isNow (part : Option QueuePart) : (readQueue part p).isNow = true := by
  unfold readQueue
  repeat' split
  all_goals rfl

theorem readPrinters_isNow (part : Option PrintersPart) : (readPrinters part p).isNow = true := by
  unfold readPrinters
  repeat' split
  all_goals rfl

theorem readJournal_isNow (index : Nat) (entry : Option Nat) : (readJournal index entry p).isNow = true := by
  unfold readJournal
  split
  · rfl
  · split <;> rfl

theorem readTotals_isNow (part : Option TotalsPart) : (readTotals part p).isNow = true := by
  unfold readTotals
  repeat' split
  all_goals rfl

theorem readClose_isNow : (readClose p).isNow = true := by
  unfold readClose
  split <;> rfl

theorem readAudit_isNow (position : Nat) : (readAudit position p).isNow = true := by
  unfold readAudit
  repeat' split
  all_goals rfl

/-! ## The station bus -/

theorem sendPoll_path : Path c n p p.sendPoll := by
  unfold Part.sendPoll
  split
  · exact .same rfl rfl
  · exact .nil _

theorem linkPresent_path : Path c n p (p.linkPresent st) := by
  unfold Part.linkPresent
  dsimp only
  split <;> exact .same rfl rfl

theorem takeReply_path {keys : List (Nat × Key)} {r : StationReply} (hkeys : keys = namedKeys r.keys)
    (hc : c.takesLabels = true) : Path c keys.length p (p.takeReply st r) := by
  subst hkeys
  unfold Part.takeReply Part.takeSamples
  exact (linkPresent_path (n := 0)).then (Path.upFrom (takeKeys_path fun _ _ _ => hc) rfl rfl)

theorem replyingStation_keys {r : StationReply} (h : p.replyingStation r = some st) : (namedKeys r.keys).length ≤ 2 := by
  unfold Part.replyingStation at h
  split at h
  · cases h
  · split at h
    · rename_i hok
      simp only [replyContentOk, Bool.and_eq_true, decide_eq_true_eq] at hok
      have hlen : r.keys.length ≤ 2 := hok.1.2.1.1.2
      exact (List.length_filterMap_le _ _).trans hlen
    · cases h

theorem stationReply_path (r : StationReply) (hc : c.takesLabels = true) : Path c 2 p (p.stationReply r) := by
  unfold Part.stationReply
  split
  · exact .same rfl rfl
  · rename_i st h
    exact Path.upFrom ((takeReply_path rfl hc).mono (replyingStation_keys h)) rfl rfl

theorem replyTimeout_path : Path c n p p.replyTimeout := by
  unfold Part.replyTimeout
  split
  · exact .nil _
  · exact (reach_path (n := 0) _).then (.same rfl rfl)

theorem staleSession_path : Path c n p (p.staleSession st) := by
  unfold Part.staleSession
  split
  · exact interruptSession_path _
  · exact .nil _

theorem stale_path : Path c n p (p.stale st) := by
  unfold Part.stale
  split
  · exact (reach_path (n := 0) _).then (Path.upFrom staleSession_path rfl rfl)
  · exact .nil _

theorem overrideDeadline_path : Path c n p (p.overrideDeadline st) := by
  unfold Part.overrideDeadline
  split
  · exact (reach_path (n := 0) _).then (.same rfl rfl)
  · exact .nil _

theorem gapExpiry_path : Path c n p p.gapExpiry := by
  unfold Part.gapExpiry
  split
  · exact .nil _
  · split
    · exact .nil _
    · exact (reach_path (n := 0) _).then (endSession_path _)

theorem sendCalls_path : Path c n p p.sendCalls := by
  unfold Part.sendCalls
  split
  · exact .nil _
  · rename_i calls rest h
    exact Move.upTo (.callsSent calls rest h) rfl rfl

theorem receivePrinter_path (pr : PrinterNo) (status : PrinterStatus) (agrees : Bool) :
    Path c n p (p.receivePrinter pr status agrees) := by
  unfold Part.receivePrinter
  split
  · exact printerReply_path pr status
  · exact .nil _

/-! ## The journal -/

theorem openSector_path (i : Nat) : Path c n p (p.openSector i) := .same (by simp [Part.openSector]; rfl) (by simp [Part.openSector])

theorem startAppend_path : Path c n p p.startAppend := by
  unfold Part.startAppend
  split
  · exact .nil _
  · split
    · exact .nil _
    · split
      · exact .same rfl rfl
      · split
        · exact .nil _
        · exact (openSector_path (n := 0) _).then (.same rfl rfl)

theorem firstRecord_of_inFlight {r : Record} (h : p.inFlight = some r) : firstRecord p.tj.queue = some r := by
  unfold Part.inFlight at h
  split at h
  · exact h
  · cases h

theorem appendWritten_path {report : Record → Option (Part → Part)}
    (h : ∀ r effect, firstRecord p.tj.queue = some r → report r = some effect → Path c n p (effect (p.finishAppend r))) :
    Path c n p (p.appendWritten report) := by
  unfold Part.appendWritten
  split
  · exact .nil _
  · rename_i r hr
    split
    · exact .nil _
    · rename_i effect heffect
      exact h r effect (firstRecord_of_inFlight hr) heffect

theorem lineWritten_path : Path c n p (p.appendWritten reportLine) :=
  appendWritten_path fun r effect hfirst hr => by
    cases r <;> cases hr
    exact (Move.alone (.lineWritten _ _ _ hfirst)).then ((onItemJob_release_path (n := 0) _).then
      (Move.alone (.closingSettled _)))

theorem voidLineWritten_path : Path c n p (p.appendWritten reportVoidLine) :=
  appendWritten_path fun r effect hfirst hr => by
    cases r <;> cases hr
    exact Move.alone (.plainWritten _ rfl hfirst)

theorem closeWritten_path : Path c n p (p.appendWritten reportClose) :=
  appendWritten_path fun r effect hfirst hr => by
    cases r <;> cases hr
    exact Move.alone (.closeWritten _ _ _ _ _ _ _ hfirst)

theorem voidOrderWritten_path : Path c n p (p.appendWritten reportVoidOrder) :=
  appendWritten_path fun r effect hfirst hr => by
    cases r <;> cases hr
    exact Move.alone (.voidWritten _ _ _ _ hfirst)

theorem reprintWritten_path : Path c n p (p.appendWritten reportReprint) :=
  appendWritten_path fun r effect hfirst hr => by
    cases r <;> cases hr
    exact (Move.alone (.plainWritten _ rfl hfirst)).then ((releaseJob_path (n := 0) _ _).then
      (Move.alone .reprintCounted))

theorem priceApplyWritten_path (hc : c = .priceApplyWritten) : Path c n p (p.appendWritten reportPriceApply) :=
  appendWritten_path fun r effect hfirst hr => by
    cases r <;> cases hr
    exact Move.alone (.switched _ _ _ hc hfirst)

theorem finishStore_path : Path c n p p.finishStore := by
  unfold Part.finishStore
  split
  · rename_i h
    exact Move.alone (.storeBackMoved _ (by rw [h]; exact StoreBack.noConfusion))
  · rename_i o rest h
    exact Move.alone (.storeBackMoved _ (by rw [h]; exact StoreBack.noConfusion))
  · exact .nil _

theorem judgeErase_path : Path c n p p.judgeErase := .same (by simp) (by simp)

theorem priceStoredWritten_path : Path c n p (p.appendWritten reportPriceStored) :=
  appendWritten_path fun r effect hfirst hr => by
    cases r <;> cases hr
    exact (Move.alone (.plainWritten _ rfl hfirst)).then ((finishStore_path (n := 0)).then judgeErase_path)

theorem dayCloseWritten_path (hc : c.takesLabels = false ∧ ¬ c.resets) : Path c n p (p.appendWritten reportDayClose) :=
  appendWritten_path fun r effect hfirst hr => by
    cases r <;> cases hr
    exact (Move.alone (.plainWritten _ rfl hfirst)).then
      ((Move.alone (n := 0) (.dayEnded _ hc)).then judgeErase_path)

/-- A sector changed that keeps at most the records it has. -/
theorem onSector_path (i : Nat) (f : Sector → Sector) (h : ∀ s, (f s).journal.Sublist s.journal) :
    Path c n p (p.onSector i f) := by
  refine Move.alone (.sectorsCleared _ (by simp) ?_)
  have hmodify : ∀ (l : List Sector) (i : Nat),
      ((l.modify i f).flatMap Sector.journal).Sublist (l.flatMap Sector.journal) := by
    intro l
    induction l with
    | nil => exact fun i => by simp
    | cons s rest ih =>
      intro i
      cases i with
      | zero => simpa using (h s).append_right (rest.flatMap Sector.journal)
      | succ i => simpa using (ih i).append_left s.journal
  exact hmodify _ i

theorem markBad_path (i : Nat) : Path c n p (p.markBad i) := onSector_path i _ fun _ => List.Sublist.refl _

theorem spoilMark_path (i : Nat) : Path c n p (p.spoilMark i) :=
  (markBad_path (n := 0) i).then ((onSector_path (n := 0) i
    (fun s => { s with unreadable := Config.failedMarkUnreadable p.free }) fun _ => List.Sublist.refl _).then (.same rfl rfl))

theorem enterFault_path (hc : c.takesLabels = false ∧ ¬ c.resets) : Path c n p p.enterFault := Move.alone (.faultEntered hc)

theorem retryAppend_path (bad : Nat) (hc : c.takesLabels = false ∧ ¬ c.resets) : Path c n p (p.retryAppend bad) := by
  unfold Part.retryAppend
  split
  · exact enterFault_path hc
  · exact (openSector_path (n := 0) _).then (.same rfl rfl)

theorem appendFailed_path (agrees : Bool) (hc : c.takesLabels = false ∧ ¬ c.resets) : Path c n p (p.appendFailed agrees) := by
  unfold Part.appendFailed
  split
  · rename_i a i _ _
    dsimp only
    have hmark : Path c 0 p (if agrees = true then p.markBad i else p.spoilMark i) := by
      split
      · exact markBad_path i
      · exact spoilMark_path i
    split
    · exact hmark.then (retryAppend_path i hc)
    · exact hmark.then (enterFault_path hc)
  · exact .nil _

theorem startErase_path : Path c n p p.startErase := by
  unfold Part.startErase
  split
  · exact .nil _
  · split
    · exact .nil _
    · exact (onSector_path (n := 0) _ (fun s => { s with mark := .eraseBegun, records := [], torn := none })
        fun s => List.nil_sublist s.journal).then (.same rfl rfl)

theorem resumeErase_path : Path c n p p.resumeErase := by
  unfold Part.resumeErase
  split
  · exact .nil _
  · exact .same rfl rfl

theorem endErase_path (i : Nat) (agrees : Bool) : Path c n p (p.endErase i agrees) := by
  have hsame : Path c 0 p { p with tj := { p.tj with erase := none } } := .same rfl rfl
  unfold Part.endErase
  dsimp only
  split
  · exact hsame.then ((onSector_path (n := 0) i (fun _ => .blank) fun s => List.nil_sublist s.journal).then judgeErase_path)
  · exact hsame.then ((onSector_path (n := 0) i (fun s => { s with mark := .bad, records := [], torn := none })
      fun s => List.nil_sublist s.journal).then (Path.upFrom judgeErase_path rfl rfl))

theorem eraseDone_path (agrees : Bool) : Path c n p (p.eraseDone agrees) := by
  unfold Part.eraseDone
  split
  · split
    · exact .nil _
    · exact (endErase_path (n := 0) _ _).then offerAgain_path
  · exact .nil _

/-! ## All commands -/

theorem serveChangeStatus_path : Path c n p (serveChangeStatus p).1 := touchChange_path

/-- Every command but the end of the start-up scan is a sequence of moves that takes at most two labels. -/
theorem exec_path {s t : State} (h : exec c s = .next t) (hscan : ∀ x, c ≠ .startUpScanEnd x) :
    Path c 2 s.part t.part := by
  cases c with
  | powerOn => cases h; exact reset_path .powerOn .powerOn trivial fun _ => TimeBase.powerOn_runs
  | resetLine => cases h; exact resetLine_path trivial
  | resetPart tag => exact act_path h fun _ => acceptFrame_path _ fun _ => trivial
  | startUpScanEnd failed => exact absurd rfl (hscan failed)
  | hostFrame f => exact act_path h fun _ => takeWireFrame_path f fun hf => hf
  | hostFrameTimeout => exact act_path h fun _ => frameTimeout_path
  | notAHostRequest f => exact act_path h fun _ => refuseFrame_path f
  | baudStrapChange _ => cases h; exact .same rfl rfl
  | notice => exact act_path h fun _ => sendNotice_path
  | hello _ => exact act_path h fun _ => reading_path fun _ => rfl
  | status _ => exact act_path h fun _ => reading_path fun _ => rfl
  | setNotices _ _ => exact act_path h fun _ => serving_path rfl (fun _ => rfl) fun _ _ => .same rfl rfl
  | readConditions _ => exact act_path h fun _ => reading_path fun _ => rfl
  | clearConditions _ named =>
    exact act_path h fun _ =>
      serving_path rfl (fun _ => serveClearConditions_isNow named) fun _ _ => serveClearConditions_path named
  | setStation _ body => exact act_path h fun _ => setStation_path body
  | setStationWriteDone agrees => exact act_path h fun _ => endSetStation_path agrees
  | readStation _ k => exact act_path h fun _ => reading_path fun _ => readStation_isNow k
  | readArticle _ k d => exact act_path h fun _ => reading_path fun _ => readArticle_isNow k d
  | beginChange _ base =>
    exact act_path h fun _ => serving_path rfl (fun _ => serveBeginChange_isNow base) fun _ => serveBeginChange_path base
  | stagePut _ f =>
    exact act_path h fun _ => serving_path rfl (fun _ => serveStagePut_isNow f) fun _ _ => serveStagePut_path f
  | stageDelete _ k =>
    exact act_path h fun _ => serving_path rfl (fun _ => serveStage_isNow (.delete k)) fun _ _ => serveStage_path _ rfl
  | stageHold _ k =>
    exact act_path h fun _ => serving_path rfl (fun _ => serveStage_isNow (.hold k)) fun _ _ => serveStage_path _ rfl
  | stageRelease _ k =>
    exact act_path h fun _ => serving_path rfl (fun _ => serveStage_isNow (.release k)) fun _ _ => serveStage_path _ rfl
  | discardChange _ =>
    exact act_path h fun _ => serving_path rfl (fun _ => serveDiscardChange_isNow) fun _ _ => serveDiscardChange_path
  | changeStatus _ => exact act_path h fun _ => serving_path rfl (fun _ => rfl) fun _ _ => serveChangeStatus_path
  | applyNow _ => exact act_path h fun _ => serving_path rfl (fun _ => serveApplyNow_isNow) fun _ _ => serveApplyNow_path
  | applyAt _ a b d =>
    exact act_path h fun _ => serving_path rfl (fun _ => serveApplyAt_isNow a b d) fun _ _ => serveApplyAt_path a b d
  | changeSetExpiry => exact act_path h fun _ => expireChangeSet_path
  | scheduledTimeReached => exact act_path h fun _ => scheduledTime_path
  | setClerk _ k role name => exact act_path h fun _ => setClerk_path k role name
  | setClerkWriteDone agrees => exact act_path h fun _ => endSetClerk_path agrees
  | removeClerk _ k => exact act_path h fun _ => removeClerk_path k
  | removeClerkWriteDone agrees => exact act_path h fun _ => endRemoveClerk_path agrees
  | signOffClerk _ k =>
    exact act_path h fun _ => serving_path rfl (fun _ => serveSignOffClerk_isNow k) fun _ _ => serveSignOffClerk_path k
  | readOrder _ k => exact act_path h fun _ => reading_path fun _ => readOrder_isNow k
  | hostVoidOrder _ k =>
    exact act_path h fun _ => serving_path rfl (fun _ => serveVoidOrder_isNow k) fun _ _ => serveVoidOrder_path k
  | readQueue _ part => exact act_path h fun _ => reading_path fun _ => readQueue_isNow part
  | moveJobs _ a b =>
    exact act_path h fun _ => serving_path rfl (fun _ => serveMoveJobs_isNow a b) fun _ _ => serveMoveJobs_path a b
  | cancelJobs _ pr =>
    exact act_path h fun _ => serving_path rfl (fun _ => serveCancelJobs_isNow pr) fun _ _ => serveCancelJobs_path pr
  | readPrinters _ part => exact act_path h fun _ => reading_path fun _ => readPrinters_isNow part
  | readJournal _ k entry => exact act_path h fun _ => reading_path fun _ => readJournal_isNow k entry
  | readRecovery _ k =>
    exact act_path h fun _ => serving_path rfl (fun _ => serveReadRecovery_isNow k) fun _ _ => serveReadRecovery_path k
  | openCounter _ =>
    exact act_path h fun _ => serving_path rfl (fun _ => serveOpenCounter_isNow) fun _ => serveOpenCounter_path
  | pauseCounter _ =>
    exact act_path h fun _ => serving_path rfl (fun _ => servePauseCounter_isNow) fun _ => servePauseCounter_path
  | closeCounter _ =>
    exact act_path h fun _ => serving_path rfl (fun _ => serveCloseCounter_isNow) fun _ => serveCloseCounter_path
  | setClock _ a b d e f g =>
    exact act_path h fun _ =>
      serving_path rfl (fun _ => serveSetClock_isNow a b d e f g) fun _ _ => serveSetClock_path a b d e f g
  | readTotals _ part => exact act_path h fun _ => reading_path fun _ => readTotals_isNow part
  | dayClose _ => exact act_path h fun _ => serving_path rfl (fun _ => serveDayClose_isNow) fun _ => serveDayClose_path
  | readClose _ => exact act_path h fun _ => reading_path fun _ => readClose_isNow
  | calBegin _ k =>
    exact act_path h fun _ => serving_path rfl (fun _ => serveCalBegin_isNow k) fun _ _ => serveCalBegin_path k
  | calAbort _ =>
    exact act_path h fun _ => serving_path rfl (fun _ => serveCalAbort_isNow) fun _ _ => serveCalAbort_path
  | calZero _ =>
    exact act_path h fun _ => serving_path rfl (fun _ => serveStep_isNow stepZero) fun _ _ => serveStep_path stepZero
  | calSpan _ load =>
    exact act_path h fun _ =>
      serving_path rfl (fun _ => serveStep_isNow (stepSpan load)) fun _ _ => serveStep_path (stepSpan load)
  | calIntervals _ a b d e =>
    exact act_path h fun _ =>
      serving_path rfl (fun _ => serveStep_isNow (stepIntervals a b d e)) fun _ _ => serveStep_path (stepIntervals a b d e)
  | calCommit _ => exact act_path h fun _ => calCommit_path
  | calAuditWriteDone agrees => exact act_path h fun _ => endCalAudit_path agrees
  | calRecordWriteDone agrees => exact act_path h fun _ => endCalRecord_path agrees
  | calGapExpiry => exact act_path h fun _ => gapExpiry_path
  | calibrationSwitchRelease =>
    cases h
    show Path _ 2 s.part (Part.unlessHeld (fun q => q.interruptSession .switch) (s.part.setSwitch false))
    unfold Part.unlessHeld
    split
    · exact .same rfl rfl
    · exact Path.upFrom (interruptSession_path _) rfl rfl
  | calibrationSwitchAssert => cases h; exact .same rfl rfl
  | readAudit _ k => exact act_path h fun _ => reading_path fun _ => readAudit_isNow k
  | stationPoll => exact act_path h fun _ => sendPoll_path
  | stationReply r => exact act_path h fun _ => stationReply_path r rfl
  | stationReplyTimeout => exact act_path h fun _ => replyTimeout_path
  | stationStale _ => exact act_path h fun _ => stale_path
  | overrideDeadline _ => exact act_path h fun _ => overrideDeadline_path
  | addLine _ _ => exact act_path h fun _ => keyRequest_path fun _ => rfl
  | closeOrder _ _ => exact act_path h fun _ => keyRequest_path fun _ => rfl
  | missedTicketExpiry k => exact act_path h fun _ => expireMissed_path k
  | take d tag agrees => exact act_path h fun _ => take_path d tag agrees
  | calls => exact act_path h fun _ => sendCalls_path
  | printerStatusSend pr => exact act_path h fun _ => sendStatus_path pr
  | labelSend pr => exact act_path h fun _ => sendLabel_path pr
  | printerReply pr status agrees => exact act_path h fun _ => receivePrinter_path pr status agrees
  | printerMessageGiveUp pr => exact act_path h fun _ => giveUp_path pr
  | printerOffline pr => exact act_path h fun _ => printerOffline_path pr
  | appendStart => exact act_path h fun _ => startAppend_path
  | lineWritten => exact act_path h fun _ => lineWritten_path
  | voidLineWritten => exact act_path h fun _ => voidLineWritten_path
  | closeWritten => exact act_path h fun _ => closeWritten_path
  | voidOrderWritten => exact act_path h fun _ => voidOrderWritten_path
  | reprintWritten => exact act_path h fun _ => reprintWritten_path
  | priceApplyWritten => exact act_path h fun _ => priceApplyWritten_path rfl
  | articleAreaWriteDone a b => exact act_path h fun _ => articleAreaWrite_path a b
  | priceStoredWritten => exact act_path h fun _ => priceStoredWritten_path
  | dayCloseWritten => exact act_path h fun _ => dayCloseWritten_path ⟨rfl, id⟩
  | appendReadbackFail agrees => exact act_path h fun _ => appendFailed_path agrees ⟨rfl, id⟩
  | eraseStart => exact act_path h fun _ => startErase_path
  | eraseResume => exact act_path h fun _ => resumeErase_path
  | eraseDone agrees => exact act_path h fun _ => eraseDone_path agrees
  | resetInputAsserted => cases h; exact .same rfl rfl
  -- the key requests that take no label number
  | _ => exact act_path h fun _ => keyRequest_path nofun

theorem scanEnd_cases {s t : State} {x : List Nat} (h : exec (.startUpScanEnd x) s = .next t) :
    t.part = s.part ∨ (s.part.tt.counter = .starting ∧ t.part = s.part.endScan x) := by
  cases h
  show Part.unlessHeld _ s.part = s.part ∨ _
  unfold Part.unlessHeld
  split
  · exact .inl rfl
  · unfold Part.scanEnds
    split
    · rename_i hstarting
      exact .inr ⟨hstarting, by simp [*]⟩
    · exact .inl rfl

end

end Sys2Proof.Machine
end

