-- ==== Sys2Proof/Proofs/Frames.lean ====
section
/-! What the operations that several blocks share leave as it was: one lemma for each, with the blocks that it does not touch. -/

namespace Sys2Proof.Machine

section
variable (p : Part)

@[simp] theorem Part.takePlace_frame (x : Place) :
    (p.takePlace x).nv = p.nv ∧ (p.takePlace x).inputs = p.inputs ∧ (p.takePlace x).time = p.time
      ∧ (p.takePlace x).wc = p.wc ∧ (p.takePlace x).art = p.art ∧ (p.takePlace x).oc = p.oc
      ∧ (p.takePlace x).om = p.om ∧ (p.takePlace x).tc = p.tc ∧ (p.takePlace x).lu = p.lu ∧ (p.takePlace x).tt = p.tt
      ∧ (p.takePlace x).cc = p.cc ∧ (p.takePlace x).ml = p.ml := by
  simp [Part.takePlace]

@[simp] theorem Part.queueRecord_frame (r : Record) :
    (p.queueRecord r).nv = p.nv ∧ (p.queueRecord r).inputs = p.inputs ∧ (p.queueRecord r).time = p.time
      ∧ (p.queueRecord r).wc = p.wc ∧ (p.queueRecord r).art = p.art ∧ (p.queueRecord r).oc = p.oc
      ∧ (p.queueRecord r).om = p.om ∧ (p.queueRecord r).tc = p.tc ∧ (p.queueRecord r).lu = p.lu
      ∧ (p.queueRecord r).tt = p.tt ∧ (p.queueRecord r).cc = p.cc ∧ (p.queueRecord r).ml = p.ml := by
  simp [Part.queueRecord]

@[simp] theorem Part.promote_frame :
    (p.promote).nv = p.nv ∧ (p.promote).inputs = p.inputs ∧ (p.promote).time = p.time ∧ (p.promote).wc = p.wc
      ∧ (p.promote).art = p.art ∧ (p.promote).oc = p.oc ∧ (p.promote).om = p.om ∧ (p.promote).tc = p.tc
      ∧ (p.promote).lu = p.lu ∧ (p.promote).tt = p.tt ∧ (p.promote).cc = p.cc ∧ (p.promote).ml = p.ml := by
  unfold Part.promote
  split
  · simp
  · split <;> simp

@[simp] theorem Part.queueOrWait_frame (r : Record) :
    (p.queueOrWait r).nv = p.nv ∧ (p.queueOrWait r).inputs = p.inputs ∧ (p.queueOrWait r).time = p.time
      ∧ (p.queueOrWait r).wc = p.wc ∧ (p.queueOrWait r).art = p.art ∧ (p.queueOrWait r).oc = p.oc
      ∧ (p.queueOrWait r).om = p.om ∧ (p.queueOrWait r).tc = p.tc ∧ (p.queueOrWait r).lu = p.lu
      ∧ (p.queueOrWait r).tt = p.tt ∧ (p.queueOrWait r).cc = p.cc ∧ (p.queueOrWait r).ml = p.ml := by
  unfold Part.queueOrWait
  split <;> simp

@[simp] theorem Part.fillPlace_frame (n : Nat) (r : Record) :
    (p.fillPlace n r).nv = p.nv ∧ (p.fillPlace n r).inputs = p.inputs ∧ (p.fillPlace n r).time = p.time
      ∧ (p.fillPlace n r).wc = p.wc ∧ (p.fillPlace n r).art = p.art ∧ (p.fillPlace n r).oc = p.oc
      ∧ (p.fillPlace n r).om = p.om ∧ (p.fillPlace n r).tc = p.tc ∧ (p.fillPlace n r).lu = p.lu
      ∧ (p.fillPlace n r).tt = p.tt ∧ (p.fillPlace n r).cc = p.cc ∧ (p.fillPlace n r).ml = p.ml := by
  simp [Part.fillPlace]

@[simp] theorem Part.giveBack_frame (n : Nat) :
    (p.giveBack n).nv = p.nv ∧ (p.giveBack n).inputs = p.inputs ∧ (p.giveBack n).time = p.time
      ∧ (p.giveBack n).wc = p.wc ∧ (p.giveBack n).art = p.art ∧ (p.giveBack n).oc = p.oc ∧ (p.giveBack n).om = p.om
      ∧ (p.giveBack n).tc = p.tc ∧ (p.giveBack n).lu = p.lu ∧ (p.giveBack n).tt = p.tt ∧ (p.giveBack n).cc = p.cc
      ∧ (p.giveBack n).ml = p.ml := by
  simp [Part.giveBack]

@[simp] theorem Part.releaseJob_frame (k : LabelKind) (n : Nat) :
    (p.releaseJob k n).nv = p.nv ∧ (p.releaseJob k n).inputs = p.inputs ∧ (p.releaseJob k n).time = p.time
      ∧ (p.releaseJob k n).wc = p.wc ∧ (p.releaseJob k n).art = p.art ∧ (p.releaseJob k n).oc = p.oc
      ∧ (p.releaseJob k n).om = p.om ∧ (p.releaseJob k n).tc = p.tc ∧ (p.releaseJob k n).tj = p.tj
      ∧ (p.releaseJob k n).tt = p.tt ∧ (p.releaseJob k n).cc = p.cc ∧ (p.releaseJob k n).ml = p.ml
      ∧ (p.releaseJob k n).lu.lastLabel = p.lu.lastLabel := by
  simp [Part.releaseJob]

@[simp] theorem Part.deleteJob_frame (k : LabelKind) (n : Nat) :
    (p.deleteJob k n).nv = p.nv ∧ (p.deleteJob k n).inputs = p.inputs ∧ (p.deleteJob k n).time = p.time
      ∧ (p.deleteJob k n).wc = p.wc ∧ (p.deleteJob k n).art = p.art ∧ (p.deleteJob k n).oc = p.oc
      ∧ (p.deleteJob k n).om = p.om ∧ (p.deleteJob k n).tc = p.tc ∧ (p.deleteJob k n).tj = p.tj
      ∧ (p.deleteJob k n).tt = p.tt ∧ (p.deleteJob k n).cc = p.cc ∧ (p.deleteJob k n).ml = p.ml
      ∧ (p.deleteJob k n).lu.lastLabel = p.lu.lastLabel := by
  simp [Part.deleteJob]

@[simp] theorem Part.completeTotal_frame (n count total : Nat) :
    (p.completeTotal n count total).nv = p.nv ∧ (p.completeTotal n count total).inputs = p.inputs
      ∧ (p.completeTotal n count total).time = p.time ∧ (p.completeTotal n count total).wc = p.wc
      ∧ (p.completeTotal n count total).art = p.art ∧ (p.completeTotal n count total).oc = p.oc
      ∧ (p.completeTotal n count total).om = p.om ∧ (p.completeTotal n count total).tc = p.tc
      ∧ (p.completeTotal n count total).tj = p.tj ∧ (p.completeTotal n count total).tt = p.tt
      ∧ (p.completeTotal n count total).cc = p.cc ∧ (p.completeTotal n count total).ml = p.ml
      ∧ (p.completeTotal n count total).lu.lastLabel = p.lu.lastLabel := by
  simp [Part.completeTotal]

@[simp] theorem Part.addJob_frame (k : LabelKind) (n : Nat) (pr : PrinterNo) (x : LabelContent) :
    (p.addJob k n pr x).nv = p.nv ∧ (p.addJob k n pr x).inputs = p.inputs ∧ (p.addJob k n pr x).time = p.time
      ∧ (p.addJob k n pr x).wc = p.wc ∧ (p.addJob k n pr x).art = p.art ∧ (p.addJob k n pr x).oc = p.oc
      ∧ (p.addJob k n pr x).om = p.om ∧ (p.addJob k n pr x).tc = p.tc ∧ (p.addJob k n pr x).tj = p.tj
      ∧ (p.addJob k n pr x).tt = p.tt ∧ (p.addJob k n pr x).cc = p.cc
      ∧ (p.addJob k n pr x).lu = { p.lu with queue := p.lu.queue ++ [⟨k, n, pr, false, false, x⟩] }
      ∧ (p.addJob k n pr x).ml.serving = p.ml.serving ∧ (p.addJob k n pr x).ml.buffer = p.ml.buffer
      ∧ (p.addJob k n pr x).ml.display = p.ml.display := by
  unfold Part.addJob
  dsimp only
  split <;> simp [Part.latch, Part.onLabels]

@[simp] theorem Part.makeItemLabel_frame (o : Order) (f : LineFields) (a : Article) :
    (p.makeItemLabel o f a).nv = p.nv ∧ (p.makeItemLabel o f a).inputs = p.inputs
      ∧ (p.makeItemLabel o f a).time = p.time ∧ (p.makeItemLabel o f a).wc = p.wc
      ∧ (p.makeItemLabel o f a).art = p.art ∧ (p.makeItemLabel o f a).oc = p.oc ∧ (p.makeItemLabel o f a).om = p.om
      ∧ (p.makeItemLabel o f a).tc = p.tc ∧ (p.makeItemLabel o f a).tj = p.tj ∧ (p.makeItemLabel o f a).tt = p.tt
      ∧ (p.makeItemLabel o f a).cc = p.cc ∧ (p.makeItemLabel o f a).ml.serving = p.ml.serving
      ∧ (p.makeItemLabel o f a).ml.buffer = p.ml.buffer ∧ (p.makeItemLabel o f a).ml.display = p.ml.display := by
  unfold Part.makeItemLabel
  split <;> simp

@[simp] theorem Part.dropServing_frame (n : Nat) :
    (p.dropServing n).nv = p.nv ∧ (p.dropServing n).inputs = p.inputs ∧ (p.dropServing n).time = p.time
      ∧ (p.dropServing n).wc = p.wc ∧ (p.dropServing n).art = p.art ∧ (p.dropServing n).oc = p.oc
      ∧ (p.dropServing n).om = p.om ∧ (p.dropServing n).lu = p.lu ∧ (p.dropServing n).tj = p.tj
      ∧ (p.dropServing n).tt = p.tt ∧ (p.dropServing n).cc = p.cc ∧ (p.dropServing n).ml = p.ml := by
  simp [Part.dropServing]

@[simp] theorem Part.endNoSale_frame (t : Option Nat) :
    (p.endNoSale t).nv = p.nv ∧ (p.endNoSale t).inputs = p.inputs ∧ (p.endNoSale t).time = p.time
      ∧ (p.endNoSale t).wc = p.wc ∧ (p.endNoSale t).art = p.art ∧ (p.endNoSale t).oc = p.oc
      ∧ (p.endNoSale t).om = p.om ∧ (p.endNoSale t).lu = p.lu ∧ (p.endNoSale t).tj = p.tj ∧ (p.endNoSale t).tt = p.tt
      ∧ (p.endNoSale t).cc = p.cc ∧ (p.endNoSale t).ml = p.ml := by
  unfold Part.endNoSale
  split <;> simp

@[simp] theorem Part.endServed_frame (t : Option Nat) :
    (p.endServed t).nv = p.nv ∧ (p.endServed t).inputs = p.inputs ∧ (p.endServed t).time = p.time
      ∧ (p.endServed t).wc = p.wc ∧ (p.endServed t).art = p.art ∧ (p.endServed t).oc = p.oc
      ∧ (p.endServed t).om = p.om ∧ (p.endServed t).lu = p.lu ∧ (p.endServed t).tj = p.tj ∧ (p.endServed t).tt = p.tt
      ∧ (p.endServed t).cc = p.cc ∧ (p.endServed t).ml = p.ml := by
  unfold Part.endServed
  split <;> simp

@[simp] theorem Part.bindTicket_frame (st : StationNo) (n : Nat) :
    (p.bindTicket st n).nv = p.nv ∧ (p.bindTicket st n).inputs = p.inputs ∧ (p.bindTicket st n).time = p.time
      ∧ (p.bindTicket st n).wc = p.wc ∧ (p.bindTicket st n).art = p.art ∧ (p.bindTicket st n).oc = p.oc
      ∧ (p.bindTicket st n).om = p.om ∧ (p.bindTicket st n).lu = p.lu ∧ (p.bindTicket st n).tj = p.tj
      ∧ (p.bindTicket st n).tt = p.tt ∧ (p.bindTicket st n).cc = p.cc ∧ (p.bindTicket st n).ml = p.ml := by
  unfold Part.bindTicket
  split <;> simp

@[simp] theorem Part.missCalled_frame (st : StationNo) :
    (p.missCalled st).nv = p.nv ∧ (p.missCalled st).inputs = p.inputs ∧ (p.missCalled st).time = p.time
      ∧ (p.missCalled st).wc = p.wc ∧ (p.missCalled st).art = p.art ∧ (p.missCalled st).oc = p.oc
      ∧ (p.missCalled st).om = p.om ∧ (p.missCalled st).lu = p.lu ∧ (p.missCalled st).tj = p.tj
      ∧ (p.missCalled st).tt = p.tt ∧ (p.missCalled st).cc = p.cc ∧ (p.missCalled st).ml = p.ml := by
  unfold Part.missCalled
  split <;> simp

@[simp] theorem Part.callTicket_frame (st : StationNo) (t : Ticket) :
    (p.callTicket st t).nv = p.nv ∧ (p.callTicket st t).inputs = p.inputs ∧ (p.callTicket st t).time = p.time
      ∧ (p.callTicket st t).wc = p.wc ∧ (p.callTicket st t).art = p.art ∧ (p.callTicket st t).oc = p.oc
      ∧ (p.callTicket st t).om = p.om ∧ (p.callTicket st t).lu = p.lu ∧ (p.callTicket st t).tj = p.tj
      ∧ (p.callTicket st t).tt = p.tt ∧ (p.callTicket st t).cc = p.cc ∧ (p.callTicket st t).ml.serving = p.ml.serving
      ∧ (p.callTicket st t).ml.buffer = p.ml.buffer := by
  simp [Part.callTicket, Part.addCall]

@[simp] theorem Part.issue_frame (d : DispenserNo) :
    ((p.issue d).1).nv = p.nv ∧ ((p.issue d).1).inputs = p.inputs ∧ ((p.issue d).1).time = p.time
      ∧ ((p.issue d).1).wc = p.wc ∧ ((p.issue d).1).art = p.art ∧ ((p.issue d).1).oc = p.oc
      ∧ ((p.issue d).1).om = p.om ∧ ((p.issue d).1).lu = p.lu ∧ ((p.issue d).1).tj = p.tj ∧ ((p.issue d).1).tt = p.tt
      ∧ ((p.issue d).1).cc = p.cc ∧ ((p.issue d).1).ml = p.ml := by
  simp [Part.issue]

@[simp] theorem Part.abandonTickets_frame :
    (p.abandonTickets).nv = p.nv ∧ (p.abandonTickets).inputs = p.inputs ∧ (p.abandonTickets).time = p.time
      ∧ (p.abandonTickets).wc = p.wc ∧ (p.abandonTickets).art = p.art ∧ (p.abandonTickets).oc = p.oc
      ∧ (p.abandonTickets).om = p.om ∧ (p.abandonTickets).lu = p.lu ∧ (p.abandonTickets).tj = p.tj
      ∧ (p.abandonTickets).tt = p.tt ∧ (p.abandonTickets).cc = p.cc ∧ p.abandonTickets.ml.serving = p.ml.serving
      ∧ p.abandonTickets.ml.buffer = p.ml.buffer := by
  simp [Part.abandonTickets]

@[simp] theorem Part.withClerks_frame (l : List Clerk) :
    (p.withClerks l).inputs = p.inputs ∧ (p.withClerks l).time = p.time ∧ (p.withClerks l).wc = p.wc
      ∧ (p.withClerks l).art = p.art ∧ (p.withClerks l).om = p.om ∧ (p.withClerks l).tc = p.tc
      ∧ (p.withClerks l).lu = p.lu ∧ (p.withClerks l).tj = p.tj ∧ (p.withClerks l).tt = p.tt
      ∧ (p.withClerks l).cc = p.cc ∧ (p.withClerks l).ml = p.ml ∧ (p.withClerks l).nv.articles = p.nv.articles
      ∧ (p.withClerks l).nv.sectors = p.nv.sectors ∧ (p.withClerks l).nv.audit = p.nv.audit
      ∧ (p.withClerks l).nv.auditCounter = p.nv.auditCounter := by
  simp [Part.withClerks]

@[simp] theorem Part.openOrder_frame (st : StationNo) (k : Nat) :
    (p.openOrder st k).nv = p.nv ∧ (p.openOrder st k).inputs = p.inputs ∧ (p.openOrder st k).time = p.time
      ∧ (p.openOrder st k).wc = p.wc ∧ (p.openOrder st k).art = p.art ∧ (p.openOrder st k).oc = p.oc
      ∧ (p.openOrder st k).lu = p.lu ∧ (p.openOrder st k).tj = p.tj ∧ (p.openOrder st k).tt = p.tt
      ∧ (p.openOrder st k).cc = p.cc ∧ (p.openOrder st k).ml = p.ml := by
  simp [Part.openOrder]

@[simp] theorem Part.setClosing_frame (n : Nat) (k : CloseKind) (r : ClosingRecord) :
    (p.setClosing n k r).nv = p.nv ∧ (p.setClosing n k r).inputs = p.inputs ∧ (p.setClosing n k r).time = p.time
      ∧ (p.setClosing n k r).wc = p.wc ∧ (p.setClosing n k r).art = p.art ∧ (p.setClosing n k r).oc = p.oc
      ∧ (p.setClosing n k r).tc = p.tc ∧ (p.setClosing n k r).lu = p.lu ∧ (p.setClosing n k r).tj = p.tj
      ∧ (p.setClosing n k r).tt = p.tt ∧ (p.setClosing n k r).cc = p.cc ∧ (p.setClosing n k r).ml = p.ml
      ∧ (p.setClosing n k r).om.active = p.om.active := by
  simp [Part.setClosing]

@[simp] theorem Part.freeOrder_frame (n : Nat) :
    (p.freeOrder n).nv = p.nv ∧ (p.freeOrder n).inputs = p.inputs ∧ (p.freeOrder n).time = p.time
      ∧ (p.freeOrder n).wc = p.wc ∧ (p.freeOrder n).art = p.art ∧ (p.freeOrder n).oc = p.oc
      ∧ (p.freeOrder n).tc = p.tc ∧ (p.freeOrder n).lu = p.lu ∧ (p.freeOrder n).tj = p.tj ∧ (p.freeOrder n).tt = p.tt
      ∧ (p.freeOrder n).cc = p.cc ∧ (p.freeOrder n).ml = p.ml := by
  simp [Part.freeOrder]

@[simp] theorem Part.makeTotalLabel_frame (st : StationNo) (o : Order) :
    (p.makeTotalLabel st o).nv = p.nv ∧ (p.makeTotalLabel st o).inputs = p.inputs
      ∧ (p.makeTotalLabel st o).time = p.time ∧ (p.makeTotalLabel st o).wc = p.wc
      ∧ (p.makeTotalLabel st o).art = p.art ∧ (p.makeTotalLabel st o).oc = p.oc ∧ (p.makeTotalLabel st o).tc = p.tc
      ∧ (p.makeTotalLabel st o).tj = p.tj ∧ (p.makeTotalLabel st o).tt = p.tt ∧ (p.makeTotalLabel st o).cc = p.cc
      ∧ (p.makeTotalLabel st o).ml.serving = p.ml.serving ∧ (p.makeTotalLabel st o).ml.buffer = p.ml.buffer
      ∧ (p.makeTotalLabel st o).ml.display = p.ml.display := by
  unfold Part.makeTotalLabel
  split <;> simp

@[simp] theorem Part.addLine_frame (o : Order) (f : LineFields) (a : Article) :
    (p.addLine o f a).nv = p.nv ∧ (p.addLine o f a).inputs = p.inputs ∧ (p.addLine o f a).time = p.time
      ∧ (p.addLine o f a).oc = p.oc ∧ (p.addLine o f a).tc = p.tc ∧ (p.addLine o f a).tt = p.tt
      ∧ (p.addLine o f a).cc = p.cc ∧ (p.addLine o f a).art.table = p.art.table
      ∧ (p.addLine o f a).art.generation = p.art.generation ∧ (p.addLine o f a).art.changeSet = p.art.changeSet
      ∧ (p.addLine o f a).art.storeBack = p.art.storeBack ∧ (p.addLine o f a).ml.serving = p.ml.serving
      ∧ (p.addLine o f a).ml.buffer = p.ml.buffer ∧ (p.addLine o f a).ml.display = p.ml.display := by
  unfold Part.addLine Part.confirmLine Part.consumeSelection
  dsimp only
  split <;> simp

@[simp] theorem Part.failClosing_frame (o : Order) (k : CloseKind) :
    (p.failClosing o k).nv = p.nv ∧ (p.failClosing o k).inputs = p.inputs ∧ (p.failClosing o k).time = p.time
      ∧ (p.failClosing o k).wc = p.wc ∧ (p.failClosing o k).art = p.art ∧ (p.failClosing o k).oc = p.oc
      ∧ (p.failClosing o k).tc = p.tc ∧ (p.failClosing o k).tj = p.tj ∧ (p.failClosing o k).tt = p.tt
      ∧ (p.failClosing o k).cc = p.cc ∧ (p.failClosing o k).ml = p.ml
      ∧ (p.failClosing o k).lu.lastLabel = p.lu.lastLabel ∧ (p.failClosing o k).om.active = p.om.active := by
  unfold Part.failClosing Part.onTotalJob
  split <;> simp

@[simp] theorem Part.formClosing_frame (o : Order) (k : CloseKind) :
    (p.formClosing o k).nv = p.nv ∧ (p.formClosing o k).inputs = p.inputs ∧ (p.formClosing o k).time = p.time
      ∧ (p.formClosing o k).wc = p.wc ∧ (p.formClosing o k).art = p.art ∧ (p.formClosing o k).oc = p.oc
      ∧ (p.formClosing o k).tc = p.tc ∧ (p.formClosing o k).tt = p.tt ∧ (p.formClosing o k).cc = p.cc
      ∧ (p.formClosing o k).ml = p.ml ∧ (p.formClosing o k).lu.lastLabel = p.lu.lastLabel := by
  unfold Part.formClosing Part.onTotalJob
  dsimp only
  split <;> cases k <;> dsimp only <;> (try split) <;> simp

@[simp] theorem Part.endEmptyClose_frame (o : Order) :
    (p.endEmptyClose o).nv = p.nv ∧ (p.endEmptyClose o).inputs = p.inputs ∧ (p.endEmptyClose o).time = p.time
      ∧ (p.endEmptyClose o).wc = p.wc ∧ (p.endEmptyClose o).art = p.art ∧ (p.endEmptyClose o).oc = p.oc
      ∧ (p.endEmptyClose o).tt = p.tt ∧ (p.endEmptyClose o).cc = p.cc ∧ (p.endEmptyClose o).ml = p.ml
      ∧ (p.endEmptyClose o).lu.lastLabel = p.lu.lastLabel := by
  unfold Part.endEmptyClose
  dsimp only
  split <;> simp

@[simp] theorem Part.settleClosing_frame (n : Nat) :
    (p.settleClosing n).nv = p.nv ∧ (p.settleClosing n).inputs = p.inputs ∧ (p.settleClosing n).time = p.time
      ∧ (p.settleClosing n).wc = p.wc ∧ (p.settleClosing n).art = p.art ∧ (p.settleClosing n).oc = p.oc
      ∧ (p.settleClosing n).tt = p.tt ∧ (p.settleClosing n).cc = p.cc ∧ (p.settleClosing n).ml = p.ml
      ∧ (p.settleClosing n).lu.lastLabel = p.lu.lastLabel := by
  unfold Part.settleClosing
  split
  · simp
  · split
    · split
      · simp
      · split <;> simp
    · simp

@[simp] theorem Part.endDayClose_frame (d : DayClose) :
    (p.endDayClose d).nv = p.nv ∧ (p.endDayClose d).inputs = p.inputs ∧ (p.endDayClose d).time = p.time
      ∧ (p.endDayClose d).wc = p.wc ∧ (p.endDayClose d).art = p.art ∧ (p.endDayClose d).oc = p.oc
      ∧ (p.endDayClose d).om = p.om ∧ (p.endDayClose d).tj = p.tj ∧ (p.endDayClose d).cc = p.cc
      ∧ (p.endDayClose d).lu.lastLabel = p.lu.lastLabel ∧ (p.endDayClose d).lu.queue = p.lu.queue
      ∧ (p.endDayClose d).ml.serving = p.ml.serving ∧ (p.endDayClose d).ml.buffer = p.ml.buffer
      ∧ (p.endDayClose d).ml.display = p.ml.display := by
  simp [Part.endDayClose, Part.restartTickets, Part.latch]

@[simp] theorem Part.storeRecord_frame (r : Record) :
    (p.storeRecord r).inputs = p.inputs ∧ (p.storeRecord r).time = p.time ∧ (p.storeRecord r).wc = p.wc
      ∧ (p.storeRecord r).art = p.art ∧ (p.storeRecord r).oc = p.oc ∧ (p.storeRecord r).om = p.om
      ∧ (p.storeRecord r).tc = p.tc ∧ (p.storeRecord r).lu = p.lu ∧ (p.storeRecord r).tj = p.tj
      ∧ (p.storeRecord r).tt = p.tt ∧ (p.storeRecord r).cc = p.cc ∧ (p.storeRecord r).ml = p.ml
      ∧ (p.storeRecord r).nv.settings = p.nv.settings ∧ (p.storeRecord r).nv.articles = p.nv.articles
      ∧ (p.storeRecord r).nv.audit = p.nv.audit ∧ (p.storeRecord r).nv.auditCounter = p.nv.auditCounter := by
  unfold Part.storeRecord
  split <;> simp [Part.onSector]

@[simp] theorem Part.reportRetry_frame :
    (p.reportRetry).nv = p.nv ∧ (p.reportRetry).inputs = p.inputs ∧ (p.reportRetry).time = p.time
      ∧ (p.reportRetry).wc = p.wc ∧ (p.reportRetry).art = p.art ∧ (p.reportRetry).oc = p.oc
      ∧ (p.reportRetry).om = p.om ∧ (p.reportRetry).tc = p.tc ∧ (p.reportRetry).lu = p.lu ∧ (p.reportRetry).tj = p.tj
      ∧ (p.reportRetry).tt = p.tt ∧ (p.reportRetry).cc = p.cc ∧ (p.reportRetry).ml.serving = p.ml.serving
      ∧ (p.reportRetry).ml.buffer = p.ml.buffer ∧ (p.reportRetry).ml.display = p.ml.display := by
  unfold Part.reportRetry
  split <;> simp [Part.latchStore, Part.latch]

@[simp] theorem Part.finishAppend_frame (r : Record) :
    (p.finishAppend r).inputs = p.inputs ∧ (p.finishAppend r).time = p.time ∧ (p.finishAppend r).wc = p.wc
      ∧ (p.finishAppend r).art = p.art ∧ (p.finishAppend r).oc = p.oc ∧ (p.finishAppend r).om = p.om
      ∧ (p.finishAppend r).tc = p.tc ∧ (p.finishAppend r).lu = p.lu ∧ (p.finishAppend r).tt = p.tt
      ∧ (p.finishAppend r).cc = p.cc ∧ (p.finishAppend r).nv.settings = p.nv.settings
      ∧ (p.finishAppend r).nv.articles = p.nv.articles ∧ (p.finishAppend r).nv.audit = p.nv.audit
      ∧ (p.finishAppend r).nv.auditCounter = p.nv.auditCounter ∧ (p.finishAppend r).ml.serving = p.ml.serving
      ∧ (p.finishAppend r).ml.buffer = p.ml.buffer ∧ (p.finishAppend r).ml.display = p.ml.display := by
  simp [Part.finishAppend]

@[simp] theorem Part.closeWritten_frame (n owner total : Nat) (label : Option Nat) :
    (p.closeWritten n owner total label).nv = p.nv ∧ (p.closeWritten n owner total label).inputs = p.inputs
      ∧ (p.closeWritten n owner total label).time = p.time ∧ (p.closeWritten n owner total label).wc = p.wc
      ∧ (p.closeWritten n owner total label).art = p.art ∧ (p.closeWritten n owner total label).oc = p.oc
      ∧ (p.closeWritten n owner total label).tj = p.tj ∧ (p.closeWritten n owner total label).cc = p.cc
      ∧ (p.closeWritten n owner total label).ml = p.ml
      ∧ (p.closeWritten n owner total label).lu.lastLabel = p.lu.lastLabel
      ∧ (p.closeWritten n owner total label).tt.counter = p.tt.counter := by
  unfold Part.closeWritten Part.onTotalJob
  split
  · simp
  · dsimp only
    split <;> simp [Part.onAccumulators]

@[simp] theorem Part.voidOrderWritten_frame (n owner value : Nat) :
    (p.voidOrderWritten n owner value).nv = p.nv ∧ (p.voidOrderWritten n owner value).inputs = p.inputs
      ∧ (p.voidOrderWritten n owner value).time = p.time ∧ (p.voidOrderWritten n owner value).wc = p.wc
      ∧ (p.voidOrderWritten n owner value).art = p.art ∧ (p.voidOrderWritten n owner value).oc = p.oc
      ∧ (p.voidOrderWritten n owner value).lu = p.lu ∧ (p.voidOrderWritten n owner value).tj = p.tj
      ∧ (p.voidOrderWritten n owner value).cc = p.cc ∧ (p.voidOrderWritten n owner value).ml = p.ml
      ∧ (p.voidOrderWritten n owner value).tt.counter = p.tt.counter := by
  unfold Part.voidOrderWritten
  split <;> simp [Part.onAccumulators]

@[simp] theorem Part.storeEntry_frame (e : ChangeEntry) :
    (p.storeEntry e).inputs = p.inputs ∧ (p.storeEntry e).time = p.time ∧ (p.storeEntry e).wc = p.wc
      ∧ (p.storeEntry e).art = p.art ∧ (p.storeEntry e).oc = p.oc ∧ (p.storeEntry e).om = p.om
      ∧ (p.storeEntry e).tc = p.tc ∧ (p.storeEntry e).lu = p.lu ∧ (p.storeEntry e).tj = p.tj
      ∧ (p.storeEntry e).tt = p.tt ∧ (p.storeEntry e).cc = p.cc ∧ (p.storeEntry e).ml = p.ml
      ∧ (p.storeEntry e).nv.settings = p.nv.settings ∧ (p.storeEntry e).nv.sectors = p.nv.sectors
      ∧ (p.storeEntry e).nv.audit = p.nv.audit ∧ (p.storeEntry e).nv.auditCounter = p.nv.auditCounter := by
  simp [Part.storeEntry]

end

end Sys2Proof.Machine
end

