-- ==== Sys2Proof/Proofs/Keeps.lean ====
section
/-! How a law of the part is shown of every step: of each move, and of the end of the start-up scan. With it what a switch, the
entry into FAULT, a reset and the end of the scan leave of the part. -/

namespace Sys2Proof.Machine

/-! ## Every step -/

theorem Path.keeps {c : Instr} {n : Nat} {p q : Part} {P : Part → Prop} (h : Path c n p q) (hp : P p)
    (moves : ∀ {k p q}, Move c k p q → P p → P q) : P q := by
  induction h with
  | nil p => exact hp
  | cons move _ ih => exact ih (moves move hp)

/-- A step is a sequence of moves of its command, or it is the end of the start-up scan. -/
theorem step_cases {s t : State} (h : step s = .next t) :
    (∃ c, Path c 2 s.part t.part) ∨ ∃ x, s.pending.head? = some (.startUpScanEnd x) ∧ s.part.tt.counter = .starting
      ∧ t.part = s.part.endScan x := by
  unfold step at h
  split at h
  · cases h
    exact .inl ⟨.calls, .passing 1 rfl rfl⟩
  · rename_i c rest hpending
    by_cases hscan : ∃ x, c = .startUpScanEnd x
    · obtain ⟨x, rfl⟩ := hscan
      rcases scanEnd_cases h with hsame | ⟨hstarting, hend⟩
      · exact .inl ⟨.calls, by rw [hsame]; exact .nil _⟩
      · exact .inr ⟨x, by rw [hpending]; rfl, hstarting, hend⟩
    · exact .inl ⟨c, exec_path (s := { s with pending := rest }) h fun x hx => hscan ⟨x, hx⟩⟩

/-- A property that every move and the end of the scan keep is kept by every step. -/
theorem step_keeps {P : Part → Prop} {s t : State} (h : step s = .next t) (hs : P s.part)
    (moves : ∀ {c k p q}, Move c k p q → P p → P q)
    (scan : ∀ {p : Part} {x : List Nat}, p.tt.counter = .starting → P p → P (p.endScan x)) : P t.part := by
  rcases step_cases h with ⟨c, hpath⟩ | ⟨x, -, hstarting, hend⟩
  · exact hpath.keeps hs moves
  · rw [hend]
    exact scan hstarting hs

section
variable (p : Part)

/-! ## The switch and the entry into FAULT -/

theorem Part.switchStation_seen (es : List ChangeEntry) (st : StationNo) :
    (p.switchStation es st).seen = p.seen ∧ (p.switchStation es st).time = p.time
      ∧ (p.switchStation es st).tj = p.tj := by
  unfold Part.switchStation
  dsimp only
  split <;> exact ⟨rfl, rfl, rfl⟩

theorem Part.switchTo_seen (g : Nat) (es : List ChangeEntry) : (p.switchTo g es).seen = { p.seen with
    table := applyEntries g es p.art.table, generation := g, changeSet := .none, storeBack := .storing g (.writing es) [] }
    ∧ (p.switchTo g es).time = p.time ∧ (p.switchTo g es).tj = p.tj := by
  have hfold : ∀ (l : List StationNo) (q : Part), (l.foldl (Part.switchStation es) q).seen = q.seen
      ∧ (l.foldl (Part.switchStation es) q).time = q.time ∧ (l.foldl (Part.switchStation es) q).tj = q.tj := by
    intro l
    induction l with
    | nil => exact fun q => ⟨rfl, rfl, rfl⟩
    | cons st rest ih =>
      intro q
      obtain ⟨hseen, htime, htj⟩ := ih (q.switchStation es st)
      obtain ⟨hseen', htime', htj'⟩ := q.switchStation_seen es st
      exact ⟨hseen.trans hseen', htime.trans htime', htj.trans htj'⟩
  obtain ⟨hseen, htime⟩ := hfold StationNo.all { p with art := { p.art with
    table := applyEntries g es p.art.table, generation := g, changeSet := .none } }
  refine ⟨?_, htime⟩
  have hstore : (p.switchTo g es).seen = { (StationNo.all.foldl (Part.switchStation es) { p with art := { p.art with
    table := applyEntries g es p.art.table, generation := g, changeSet := .none } }).seen with
      storeBack := .storing g (.writing es) [] } := rfl
  rw [hstore, hseen]
  rfl

@[simp] theorem Part.switchTo_frame (g : Nat) (es : List ChangeEntry) :
    (p.switchTo g es).time = p.time ∧ (p.switchTo g es).tj = p.tj
      ∧ (p.switchTo g es).nv.articles = p.nv.articles ∧ (p.switchTo g es).nv.sectors = p.nv.sectors
      ∧ (p.switchTo g es).nv.audit = p.nv.audit ∧ (p.switchTo g es).nv.auditCounter = p.nv.auditCounter
      ∧ (p.switchTo g es).nv.settings.clerks = p.nv.settings.clerks
      ∧ (p.switchTo g es).art.table = applyEntries g es p.art.table ∧ (p.switchTo g es).art.generation = g
      ∧ (p.switchTo g es).art.changeSet = .none ∧ (p.switchTo g es).art.storeBack = .storing g (.writing es) []
      ∧ (p.switchTo g es).oc.clerks = p.oc.clerks ∧ (p.switchTo g es).om = p.om
      ∧ (p.switchTo g es).tc.waiting = p.tc.waiting ∧ (p.switchTo g es).tc.called = p.tc.called
      ∧ (p.switchTo g es).tc.missed = p.tc.missed ∧ (p.switchTo g es).tc.serving = p.tc.serving
      ∧ (p.switchTo g es).tc.lastIssued = p.tc.lastIssued ∧ (p.switchTo g es).tc.callList = p.tc.callList
      ∧ (p.switchTo g es).lu.queue = p.lu.queue ∧ (p.switchTo g es).lu.lastLabel = p.lu.lastLabel
      ∧ (p.switchTo g es).tt.counter = p.tt.counter ∧ (p.switchTo g es).tt.accumulators = p.tt.accumulators
      ∧ (p.switchTo g es).cc.session.isSome = p.cc.session.isSome
      ∧ (p.switchTo g es).ml.serving = p.ml.serving ∧ (p.switchTo g es).ml.buffer = p.ml.buffer
      ∧ (p.switchTo g es).ml.display = p.ml.display := by
  obtain ⟨h, htime, htj⟩ := p.switchTo_seen g es
  generalize p.switchTo g es = q at h htime htj
  exact ⟨htime, htj, congrArg Seen.articles h, congrArg Seen.sectors h, congrArg Seen.audit h, congrArg Seen.auditCounter h,
    congrArg Seen.clerkPlaces h, congrArg Seen.table h, congrArg Seen.generation h, congrArg Seen.changeSet h,
    congrArg Seen.storeBack h, congrArg Seen.clerks h, congrArg Seen.om h, congrArg Seen.waiting h, congrArg Seen.called h,
    congrArg Seen.missed h, congrArg Seen.serving h, congrArg Seen.lastIssued h, congrArg Seen.callList h,
    congrArg Seen.jobs h, congrArg Seen.lastLabel h, congrArg Seen.counter h, congrArg Seen.accumulators h,
    congrArg Seen.session h, congrArg Seen.held h, congrArg Seen.buffer h, congrArg Seen.display h⟩

/-- What the failure of a record leaves of every block. -/
structure Part.Failing (p q : Part) : Prop where
  nv : q.nv = p.nv
  time : q.time = p.time
  oc : q.oc = p.oc
  cc : q.cc = p.cc
  table : q.art.table = p.art.table
  generation : q.art.generation = p.art.generation
  accumulators : q.tt.accumulators = p.tt.accumulators
  lastLabel : q.lu.lastLabel = p.lu.lastLabel
  held : q.ml.serving = p.ml.serving
  buffer : q.ml.buffer = p.ml.buffer
  display : q.ml.display = p.ml.display

theorem Part.Failing.trans {p q r : Part} (h : p.Failing q) (k : q.Failing r) : p.Failing r :=
  ⟨k.nv.trans h.nv, k.time.trans h.time, k.oc.trans h.oc, k.cc.trans h.cc, k.table.trans h.table,
    k.generation.trans h.generation, k.accumulators.trans h.accumulators, k.lastLabel.trans h.lastLabel, k.held.trans h.held,
    k.buffer.trans h.buffer, k.display.trans h.display⟩

theorem Part.lineFailed_frame (n : Nat) (f : LineFields) : p.Failing (p.lineFailed n f)
    ∧ (p.lineFailed n f).art = p.art ∧ (p.lineFailed n f).tt = p.tt := by
  unfold Part.lineFailed Part.onItemJob Part.markStoreError
  dsimp only
  split <;> exact ⟨by constructor <;> simp [Part.onLink], by simp, by simp⟩

theorem Part.closingFailed_frame (n : Nat) (k : CloseKind) : p.Failing (p.closingFailed n k)
    ∧ (p.closingFailed n k).art = p.art ∧ (p.closingFailed n k).tt = p.tt := by
  unfold Part.closingFailed
  split <;> exact ⟨by constructor <;> simp, by simp, by simp⟩

theorem Part.recordFailed_failing (r : Record) : p.Failing (p.recordFailed r) := by
  cases r with
  | line n owner f => exact (p.lineFailed_frame n f).1
  | voidLine => exact ⟨rfl, rfl, rfl, rfl, rfl, rfl, rfl, rfl, rfl, rfl, rfl⟩
  | close n => exact (p.closingFailed_frame n .sale).1
  | voidOrder n => exact (p.closingFailed_frame n .void).1
  | reprint label _ st =>
    constructor <;> simp [Part.recordFailed, Part.reprintFailed, Part.markStoreError, Part.onLink]
  | priceApply g es t =>
    simp only [Part.recordFailed, Part.failApply]
    split <;> constructor <;> simp [Part.latch]
  | priceStored g =>
    simp only [Part.recordFailed, Part.failStore]
    split <;> constructor <;> simp
  | dayClose d => constructor <;> simp [Part.recordFailed, Part.failDayClose, Part.latch]

theorem foldl_recordFailed_failing (rs : List Record) : p.Failing (rs.foldl Part.recordFailed p) := by
  induction rs generalizing p with
  | nil => exact ⟨rfl, rfl, rfl, rfl, rfl, rfl, rfl, rfl, rfl, rfl, rfl⟩
  | cons r rest ih => exact (p.recordFailed_failing r).trans (ih _)

theorem Part.enterFault_failing : p.Failing p.enterFault := by
  have h := foldl_recordFailed_failing { p with tj := { p.tj with
    fault := true, append := none, queue := p.tj.queue.filter Place.isHeld, waiting := none } }
    (filledRecords p.tj.queue ++ p.tj.waiting.toList)
  exact ⟨h.nv, h.time, h.oc, h.cc, h.table, h.generation, h.accumulators, h.lastLabel, h.held, h.buffer, h.display⟩

/-! ## What a reset leaves of the nonvolatile memory -/

theorem Part.settleHeld_frame : p.settleHeld.nv.articles = p.nv.articles ∧ p.settleHeld.nv.sectors = p.nv.sectors
    ∧ p.settleHeld.art = p.art ∧ p.settleHeld.tj = p.tj := by
  unfold Part.settleHeld Part.cutWrite
  split
  case h_1 => exact ⟨rfl, rfl, rfl, rfl⟩
  case h_6 => exact ⟨rfl, rfl, rfl, rfl⟩
  all_goals split <;> exact ⟨rfl, rfl, rfl, rfl⟩

theorem Part.settleArticle_frame : p.settleArticle.nv.settings = p.nv.settings
    ∧ p.settleArticle.nv.sectors = p.nv.sectors ∧ p.settleArticle.nv.audit = p.nv.audit
    ∧ p.settleArticle.tj = p.tj := by
  unfold Part.settleArticle Part.settleGeneration Part.cutWrite
  split
  case h_2 => split <;> (try split) <;> simp [Part.useFree]
  case h_4 => exact ⟨rfl, rfl, rfl, rfl⟩
  all_goals split <;> simp [Part.useFree]

theorem Part.settleAppend_frame : p.settleAppend.nv.settings = p.nv.settings
    ∧ p.settleAppend.nv.articles = p.nv.articles ∧ p.settleAppend.nv.audit = p.nv.audit := by
  unfold Part.settleAppend
  split <;> exact ⟨rfl, rfl, rfl⟩

theorem Part.cutWrites_nv : p.cutWrites.nv.settings = p.settleHeld.nv.settings
    ∧ p.cutWrites.nv.articles = p.settleHeld.settleArticle.nv.articles
    ∧ p.cutWrites.nv.audit = p.settleHeld.nv.audit ∧ p.cutWrites.nv.auditCounter = p.cutWrites.nv.audit.length
    ∧ p.cutWrites.nv.sectors = p.settleHeld.settleArticle.settleAppend.nv.sectors := by
  obtain ⟨hset, -, haudit, -⟩ := p.settleHeld.settleArticle_frame
  obtain ⟨hset', harticles', haudit'⟩ := p.settleHeld.settleArticle.settleAppend_frame
  exact ⟨hset'.trans hset, harticles', haudit'.trans haudit, rfl, rfl⟩

/-- The audit area gains at most the entry whose write the reset cut. -/
theorem Part.settleHeld_audit : p.settleHeld.nv.audit
    = p.nv.audit ++ (match p.awaitedWrite with | some (.calAudit _) => [.damaged] | _ => []) := by
  unfold Part.settleHeld Part.cutWrite
  split <;> rename_i h <;> rw [h]
  case h_1 => simp
  case h_6 => rfl
  all_goals split <;> simp [Part.useFree, Part.onSettings, Part.writeRecord]

theorem onSector_records {f : Sector → Sector} (i : Nat) (h : ∀ s, (f s).journal.Sublist s.journal) (p : Part) :
    ((p.onSector i f).nv.sectors.flatMap Sector.journal).Sublist (p.nv.sectors.flatMap Sector.journal) := by
  have hmodify : ∀ (l : List Sector) (i : Nat),
      ((l.modify i f).flatMap Sector.journal).Sublist (l.flatMap Sector.journal) := by
    intro l
    induction l with
    | nil => exact fun i => by simp
    | cons s rest ih =>
      intro i
      cases i with
      | zero => simpa using (h s).append_right (rest.flatMap Sector.journal)
      | succ i => simpa using (ih i).append_left s.journal
  exact hmodify _ i

theorem Sector.cut_journal (s : Sector) (seq : Nat) (x : Stored) (k : Config.CutAppend) :
    (s.cut seq x k).journal.Sublist s.journal := by
  unfold Sector.cut
  split
  · exact .refl _
  all_goals
    split
    · exact List.nil_sublist s.journal
    · exact .refl _

theorem Part.cutWrites_sectors : p.cutWrites.nv.sectors.length = p.nv.sectors.length
    ∧ (p.cutWrites.nv.sectors.flatMap Sector.journal).Sublist (p.nv.sectors.flatMap Sector.journal) := by
  have hsame : p.settleHeld.settleArticle.nv.sectors = p.nv.sectors :=
    p.settleHeld.settleArticle_frame.2.1.trans p.settleHeld_frame.2.1
  rw [p.cutWrites_nv.2.2.2.2, ← hsame]
  unfold Part.settleAppend
  split
  · refine ⟨by simp [Part.useFree, Part.onSector], ?_⟩
    exact onSector_records _ (fun s => s.cut_journal _ _ _) _
  · exact ⟨rfl, .refl _⟩

/-! ## What the end of the scan leaves -/

/-- What the start-up scan reads of the sectors. -/
def Part.reading (p : Part) : Reading := readSectors (journalSectors (surveyed p.nv.sectors))

/-- The latest DAY_CLOSE that the scan finds, and the records behind it. -/
def Part.sinceScan (p : Part) : Option DayClose × List Record := sinceClose p.reading.records

/-- The part with other sectors, latches and pending notices: what seals change. -/
def Part.withSeals (p : Part) (sectors : List Sector) (latches : PerCondition Latch) (notices : List Condition) : Part :=
  { p with nv := { p.nv with sectors := sectors }, ml := { p.ml with latches := latches, notices := notices } }

theorem Part.sealSector_eq (failed : List Nat) (s : Indexed) (records : List Stored) :
    ∃ latches notices, p.sealSector failed s records
      = p.withSeals (p.sealSector failed s records).nv.sectors latches notices := by
  unfold Part.sealSector
  dsimp only
  split
  · exact ⟨_, _, rfl⟩
  · exact ⟨_, _, rfl⟩

theorem Part.seals_eq (failed : List Nat) (l : List Indexed) :
    ∃ sectors latches notices, l.foldl (fun q t => q.sealSector failed t []) p = p.withSeals sectors latches notices := by
  induction l generalizing p with
  | nil => exact ⟨p.nv.sectors, p.ml.latches, p.ml.notices, rfl⟩
  | cons a l ih =>
    obtain ⟨latches, notices, h⟩ := p.sealSector_eq failed a []
    obtain ⟨sectors', latches', notices', h'⟩ := ih (p.sealSector failed a [])
    exact ⟨sectors', latches', notices', by rw [List.foldl, h', h]; rfl⟩

theorem Part.sealAll_eq (r : Reading) (failed : List Nat) :
    ∃ sectors latches notices, p.sealAll r failed = p.withSeals sectors latches notices := by
  unfold Part.sealAll
  split
  · exact ⟨p.nv.sectors, p.ml.latches, p.ml.notices, rfl⟩
  · rename_i s _
    obtain ⟨latches, notices, h⟩ := p.sealSector_eq failed s s.sector.records
    obtain ⟨sectors', latches', notices', h'⟩ := (p.sealSector failed s s.sector.records).seals_eq failed r.passedOver
    exact ⟨sectors', latches', notices', by rw [h', h]; rfl⟩

/-- The judgements at the end of the scan and STARTED change the conditions and what is sent alone. -/
theorem Part.judged_seen : (p.judgeErase.judgeRecovery.judgeClock).sendStarted.seen = p.seen
    ∧ (p.judgeErase.judgeRecovery.judgeClock).sendStarted.time = p.time := by
  have hrecovery : ∀ q : Part, q.judgeRecovery.seen = q.seen ∧ q.judgeRecovery.time = q.time := fun q => by
    unfold Part.judgeRecovery
    split <;> exact ⟨rfl, rfl⟩
  have hclock : ∀ q : Part, q.judgeClock.seen = q.seen ∧ q.judgeClock.time = q.time := fun q => by
    unfold Part.judgeClock
    split <;> exact ⟨rfl, rfl⟩
  have hseen : ∀ q : Part, q.sendStarted.seen = q.seen ∧ q.sendStarted.time = q.time := fun q => ⟨rfl, rfl⟩
  rw [(hseen _).1, (hseen _).2, (hclock _).1, (hclock _).2, (hrecovery _).1, (hrecovery _).2]
  exact ⟨p.judgeErase_seen, p.judgeErase_time⟩

/-- What the laws see of the part before the judgements at the end of the scan. -/
theorem Part.scanned_seen (failed : List Nat) : (p.scanned failed).seen = { p.seen with
    sectors := (p.scanned failed).nv.sectors
    table := (unstored p.reading.records).foldl (fun t o => applyEntries o.generation o.entries t) p.nv.articles
    generation := rebuiltGeneration p.nv.areaGeneration p.reading.records
    storeBack := (p.scanned failed).art.storeBack
    om := { p.om with lastNumber := (p.scanned failed).om.lastNumber }
    lastLabel := farthest Config.max32 ((p.sinceScan.1.map DayClose.lastLabel).getD 0)
      (p.sinceScan.2.filterMap Record.label?)
    counter := .closed
    accumulators := (rebuild p.sinceScan.2).accumulators
    display := p.ml.display ++ [p.tc.callList] }
    ∧ (p.scanned failed).time = p.time := by
  obtain ⟨sectors, latches, notices, hseals⟩ := Part.sealAll_eq
    { p with nv := { p.nv with sectors := surveyed p.nv.sectors } } p.reading failed
  have htake : p.takeSectors (surveyed p.nv.sectors) p.reading failed
      = { (p.withSeals sectors latches notices) with
          tj := { p.tj with nextSeq := highestSeq (surveyed p.nv.sectors) + 1, openAfter := p.reading.endIndex } } :=
    congrArg (fun t : Part => ({ t with tj := { t.tj with
      nextSeq := highestSeq (surveyed p.nv.sectors) + 1, openAfter := p.reading.endIndex } } : Part)) hseals
  have hroll : ∀ (q : Part) (rs : List Record), ∃ storeBack, q.rollForward rs = { q with art := { q.art with
      table := (unstored rs).foldl (fun t o => applyEntries o.generation o.entries t) q.nv.articles
      generation := rebuiltGeneration q.nv.areaGeneration rs
      storeBack := storeBack } } := by
    intro q rs
    unfold Part.rollForward
    dsimp only
    split
    · exact ⟨q.art.storeBack, rfl⟩
    · exact ⟨_, rfl⟩
  obtain ⟨storeBack, hback⟩ := hroll (p.takeSectors (surveyed p.nv.sectors) p.reading failed) p.reading.records
  have hscanned : p.scanned failed = (((((p.takeSectors (surveyed p.nv.sectors) p.reading failed).rollForward
    p.reading.records).takeNumbers p.sinceScan.1 p.sinceScan.2).takeTotals p.sinceScan.1 p.sinceScan.2
    p.reading.early).startFigures.handCallList) := rfl
  rw [hscanned, hback, htake]
  exact ⟨rfl, rfl⟩

/-- What the laws see of the part at the end of the scan. -/
theorem Part.endScan_seen (failed : List Nat) : (p.endScan failed).seen = { p.seen with
    sectors := (p.endScan failed).nv.sectors
    table := (unstored p.reading.records).foldl (fun t o => applyEntries o.generation o.entries t) p.nv.articles
    generation := rebuiltGeneration p.nv.areaGeneration p.reading.records
    storeBack := (p.endScan failed).art.storeBack
    om := { p.om with lastNumber := (p.endScan failed).om.lastNumber }
    lastLabel := farthest Config.max32 ((p.sinceScan.1.map DayClose.lastLabel).getD 0)
      (p.sinceScan.2.filterMap Record.label?)
    counter := .closed
    accumulators := (rebuild p.sinceScan.2).accumulators
    display := p.ml.display ++ [p.tc.callList] }
    ∧ (p.endScan failed).time = p.time := by
  obtain ⟨hseen, htime⟩ := (p.scanned failed).judged_seen
  obtain ⟨hscanned, hscannedTime⟩ := p.scanned_seen failed
  have hstored : (p.endScan failed).seen.storeBack = (p.scanned failed).seen.storeBack := congrArg Seen.storeBack hseen
  have hsectors : (p.endScan failed).seen.sectors = (p.scanned failed).seen.sectors := congrArg Seen.sectors hseen
  have hom : (p.endScan failed).seen.om = (p.scanned failed).seen.om := congrArg Seen.om hseen
  refine ⟨?_, htime.trans hscannedTime⟩
  rw [p.endScan_eq, hseen, hscanned]
  simp only [Part.seen] at hstored hsectors hom
  rw [← p.endScan_eq, hstored, hsectors, hom]

@[simp] theorem Part.endScan_frame (x : List Nat) :
    (p.endScan x).time = p.time
      ∧ (p.endScan x).nv.articles = p.nv.articles
      ∧ (p.endScan x).nv.audit = p.nv.audit ∧ (p.endScan x).nv.auditCounter = p.nv.auditCounter
      ∧ (p.endScan x).nv.settings.clerks = p.nv.settings.clerks
      ∧ (p.endScan x).art.table
        = (unstored p.reading.records).foldl (fun t o => applyEntries o.generation o.entries t) p.nv.articles
      ∧ (p.endScan x).art.generation = rebuiltGeneration p.nv.areaGeneration p.reading.records
      ∧ (p.endScan x).art.changeSet = p.art.changeSet
      ∧ (p.endScan x).oc.clerks = p.oc.clerks ∧ (p.endScan x).om.pool = p.om.pool ∧ (p.endScan x).om.active = p.om.active
      ∧ (p.endScan x).tc.waiting = p.tc.waiting ∧ (p.endScan x).tc.called = p.tc.called
      ∧ (p.endScan x).tc.missed = p.tc.missed ∧ (p.endScan x).tc.serving = p.tc.serving
      ∧ (p.endScan x).tc.lastIssued = p.tc.lastIssued ∧ (p.endScan x).tc.callList = p.tc.callList
      ∧ (p.endScan x).lu.queue = p.lu.queue
      ∧ (p.endScan x).lu.lastLabel = farthest Config.max32 ((p.sinceScan.1.map DayClose.lastLabel).getD 0)
        (p.sinceScan.2.filterMap Record.label?)
      ∧ (p.endScan x).tj.queue = p.tj.queue ∧ (p.endScan x).tj.waiting = p.tj.waiting
      ∧ (p.endScan x).tt.counter = .closed ∧ (p.endScan x).tt.accumulators = (rebuild p.sinceScan.2).accumulators
      ∧ (p.endScan x).cc.session.isSome = p.cc.session.isSome
      ∧ (p.endScan x).ml.serving = p.ml.serving ∧ (p.endScan x).ml.buffer = p.ml.buffer
      ∧ (p.endScan x).ml.display = p.ml.display ++ [p.tc.callList] := by
  obtain ⟨h, htime⟩ := p.endScan_seen x
  generalize p.endScan x = q at h htime
  have hom : q.om = { p.om with lastNumber := q.om.lastNumber } := congrArg Seen.om h
  have hpool : q.om.pool = p.om.pool := by rw [hom]
  have hactive : q.om.active = p.om.active := by rw [hom]
  exact ⟨htime, congrArg Seen.articles h, congrArg Seen.audit h, congrArg Seen.auditCounter h,
    congrArg Seen.clerkPlaces h, congrArg Seen.table h, congrArg Seen.generation h, congrArg Seen.changeSet h,
    congrArg Seen.clerks h, hpool, hactive,
    congrArg Seen.waiting h, congrArg Seen.called h,
    congrArg Seen.missed h, congrArg Seen.serving h, congrArg Seen.lastIssued h, congrArg Seen.callList h,
    congrArg Seen.jobs h, congrArg Seen.lastLabel h, congrArg Seen.queue h, congrArg Seen.waits h,
    congrArg Seen.counter h, congrArg Seen.accumulators h,
    congrArg Seen.session h, congrArg Seen.held h, congrArg Seen.buffer h, congrArg Seen.display h⟩

end

end Sys2Proof.Machine
end

