-- ==== Sys2Proof/Proofs/ArticleLists.lean ====
section
/-! The article table and the article area stay in ascending article number (R32); the generation changes only where R53 says, and
the audit area only grows (R188). -/

namespace Sys2Proof.Machine

/-! ## Article lists -/

theorem ascending_applyEntries (g : Nat) (es : List ChangeEntry) {table : List Article}
    (h : (table.map Article.number).Pairwise (· < ·)) : ((applyEntries g es table).map Article.number).Pairwise (· < ·) :=
  (applyEntries_applied g es table h).2

theorem ascending_rollForward (os : List OwedGeneration) {table : List Article}
    (h : (table.map Article.number).Pairwise (· < ·)) :
    ((os.foldl (fun t o => applyEntries o.generation o.entries t) table).map Article.number).Pairwise (· < ·) := by
  induction os generalizing table with
  | nil => exact h
  | cons o os ih => exact ih (ascending_applyEntries o.generation o.entries h)

theorem ascending_storeEntry {p : Part} (e : ChangeEntry) (h : (p.nv.articles.map Article.number).Pairwise (· < ·)) :
    ((p.storeEntry e).nv.articles.map Article.number).Pairwise (· < ·) := by
  unfold Part.storeEntry
  dsimp only
  split
  · exact ascending_removeKey _ _ _ h
  · exact ascending_insertByKey _ _ _ h
  · exact ascending_removeKey _ _ _ h

theorem ascending_settleArticle {p : Part} (h : (p.nv.articles.map Article.number).Pairwise (· < ·)) :
    (p.settleArticle.nv.articles.map Article.number).Pairwise (· < ·) := by
  have hcut : ∀ (q : Part) (g : Nat), (q.settleGeneration g).nv.articles = q.nv.articles := fun q g => by
    unfold Part.settleGeneration Part.cutWrite
    split <;> rfl
  unfold Part.settleArticle
  split
  · rw [hcut]
    exact h
  · rename_i g e later _
    split
    · rw [hcut]
      exact ascending_storeEntry (p := p) e h
    · exact h
  · rename_i e _ _ _ _
    unfold Part.cutWrite
    split
    · exact ascending_storeEntry (p := p) e h
    · exact h
  · exact h

theorem Part.Ascending.of_eq {p q : Part} (h : p.Ascending) (table : q.art.table = p.art.table)
    (area : q.nv.articles = p.nv.articles) : q.Ascending := ⟨by rw [table]; exact h.table, by rw [area]; exact h.area⟩

/-- Every move keeps the article lists in ascending number. -/
theorem ascending_move {c : Instr} {k : Nat} {p q : Part} (m : Move c k p q) (h : p.Ascending) : q.Ascending := by
  cases m with
  | quiet seen => exact h.of_eq (congrArg Seen.table seen) (congrArg Seen.articles seen)
  | reset cause time =>
    refine ⟨List.Pairwise.nil, ?_⟩
    have harea : p.cutWrites.nv.articles = p.settleHeld.settleArticle.nv.articles := p.cutWrites_nv.2.1
    show ((p.cutWrites.nv.articles).map Article.number).Pairwise (· < ·)
    rw [harea]
    exact ascending_settleArticle (by rw [p.settleHeld_frame.1]; exact h.area)
  | switched g es time =>
    exact ⟨by simpa using ascending_applyEntries g es h.table, by simpa using h.area⟩
  | entryStored e => exact ⟨by simpa using h.table, ascending_storeEntry e h.area⟩
  | faultEntered => exact h.of_eq p.enterFault_failing.table (by rw [p.enterFault_failing.nv])
  | _ => exact h.of_eq (by simp) (by simp)

theorem ascending_endScan {p : Part} {x : List Nat} (h : p.Ascending) : (p.endScan x).Ascending :=
  ⟨by simpa using ascending_rollForward (unstored p.reading.records) h.area, by simpa using h.area⟩

/-- Settles O59: each move of a command keeps the lists in order, as does the roll-forward at the end of the scan. -/
theorem stepKeepsArticlesAscending : Obligations.StepKeepsArticlesAscending := fun _ _ hs h =>
  step_keeps h hs ascending_move fun _ => ascending_endScan

/-! ## The generation and the audit area -/

/-- The generation changes only with a reset or with a PRICE_APPLY record that is written. -/
theorem generation_move {c : Instr} {k : Nat} {p q : Part} (m : Move c k p q) :
    q.art.generation = p.art.generation ∨ c.resets ∨ c = .priceApplyWritten := by
  cases m with
  | quiet seen => exact .inl (congrArg Seen.generation seen)
  | reset cause time command => exact .inr (.inl command)
  | switched g es time command => exact .inr (.inr command)
  | faultEntered => exact .inl p.enterFault_failing.generation
  | _ => exact .inl (by simp)

/-- No move removes or alters an audit entry. -/
theorem audit_move {c : Instr} {k : Nat} {p q : Part} (m : Move c k p q) : p.nv.audit <+: q.nv.audit := by
  have hsame : q.nv.audit = p.nv.audit → p.nv.audit <+: q.nv.audit := fun h => by rw [h]
  cases m with
  | quiet seen => exact hsame (congrArg Seen.audit seen)
  | reset cause time =>
    show p.nv.audit <+: p.cutWrites.nv.audit
    rw [p.cutWrites_nv.2.2.1, p.settleHeld_audit]
    exact List.prefix_append _ _
  | auditWritten tag req e => exact List.prefix_append _ _
  | auditFailed e => exact List.prefix_append _ _
  | faultEntered => exact hsame (by rw [p.enterFault_failing.nv])
  | _ => exact hsame (by simp)

end Sys2Proof.Machine
end

