-- ==== Sys2Proof/Proofs/AuditArea.lean ====
section
/-! The audit counter and the audit area at every move (R182, R187, R188), and what no step does to a generation or an audit
entry. -/

namespace Sys2Proof.Machine

/-- The laws of the audit area: the counter within its capacity and in step with the entries, and room for the commit of an open
session. -/
structure Part.AuditLaw (p : Part) : Prop where
  capacity : p.nv.auditCounter ≤ Config.maxAudit
  audited : p.Audited
  commit : p.cc.session.isSome = true → p.committing = false → p.nv.auditCounter < Config.maxAudit

theorem Part.committing_of_held {p q : Part} (h : q.ml.serving = p.ml.serving) : q.committing = p.committing := by
  simp [Part.committing, Part.awaitedWrite, h]

theorem Part.AuditLaw.of_eq {p q : Part} (h : p.AuditLaw) (held : q.ml.serving = p.ml.serving)
    (audit : q.nv.audit = p.nv.audit) (counter : q.nv.auditCounter = p.nv.auditCounter)
    (session : q.cc.session.isSome = true → p.cc.session.isSome = true) : q.AuditLaw := by
  refine ⟨by rw [counter]; exact h.capacity, ?_, fun hs hc => ?_⟩
  · have := h.audited
    simp only [Part.Audited, Part.awaitedWrite, held, audit, counter] at this ⊢
    exact this
  · rw [counter]
    exact h.commit (session hs) (by rw [← Part.committing_of_held held]; exact hc)

/-- Without a calibration commit in flight the counter is the number of entries. -/
theorem Part.AuditLaw.counter_eq {p : Part} (h : p.AuditLaw) (quiet : p.committing = false) :
    p.nv.auditCounter = p.nv.audit.length := by
  have := h.audited
  unfold Part.Audited at this
  unfold Part.committing at quiet
  cases hw : p.awaitedWrite with
  | none => simpa [hw] using this
  | some w => cases w <;> simp_all

theorem Part.AuditLaw.of_quiet {p q : Part} (h : p.AuditLaw) (quiet : p.committing = false) (quiet' : q.committing = false)
    (audit : q.nv.audit = p.nv.audit) (counter : q.nv.auditCounter = p.nv.auditCounter)
    (session : q.cc.session.isSome = true → p.cc.session.isSome = true) : q.AuditLaw := by
  have hcounter := h.counter_eq quiet
  refine ⟨by rw [counter]; exact h.capacity, ?_, fun hs _ => ?_⟩
  · unfold Part.Audited
    unfold Part.committing at quiet'
    rw [counter, audit, hcounter]
    cases hw : q.awaitedWrite with
    | none => rfl
    | some w => cases w <;> simp_all
  · rw [counter]
    exact h.commit (session hs) quiet

/-- After a reset the audit area holds as many entries as the counter said. -/
theorem Part.cutWrites_audit_length {p : Part} (h : p.Audited) : p.cutWrites.nv.audit.length = p.nv.auditCounter := by
  rw [p.cutWrites_nv.2.2.1, p.settleHeld_audit]
  unfold Part.Audited at h
  rw [h]
  cases p.awaitedWrite with
  | none => simp
  | some w => cases w <;> simp

theorem auditLaw_move {c : Instr} {k : Nat} {p q : Part} (m : Move c k p q) (h : p.AuditLaw) : q.AuditLaw := by
  cases m with
  | quiet seen =>
    have hsession : q.cc.session.isSome = p.cc.session.isSome := congrArg Seen.session seen
    exact h.of_eq (congrArg Seen.held seen) (congrArg Seen.audit seen) (congrArg Seen.auditCounter seen) (hsession ▸ id)
  | reset cause time =>
    refine ⟨?_, ?_, nofun⟩
    · show p.cutWrites.nv.auditCounter ≤ _
      rw [p.cutWrites_nv.2.2.2.1, Part.cutWrites_audit_length h.audited]
      exact h.capacity
    · exact p.cutWrites_nv.2.2.2.1
  | writeHeld x free kind =>
    refine h.of_quiet (by simp [Part.committing, Part.awaitedWrite, free]) ?_ rfl rfl id
    unfold Part.committing Part.awaitedWrite
    cases hx : x.write with
    | calAudit e => exact absurd hx (kind e).1
    | calRecord e => exact absurd hx (kind e).2
    | _ => simp [hx]
  | auditHeld tag req e free session =>
    have hquiet : p.committing = false := by simp [Part.committing, Part.awaitedWrite, free]
    refine ⟨h.commit session hquiet, ?_, nofun⟩
    show p.nv.auditCounter + 1 = p.nv.audit.length + 1
    rw [h.counter_eq hquiet]
  | writeEnded quiet => exact h.of_quiet quiet rfl rfl rfl id
  | clerkWritten x awaited => exact h.of_quiet (by simp [Part.committing, awaited]) rfl rfl rfl id
  | clerkRemoved n awaited => exact h.of_quiet (by simp [Part.committing, awaited]) rfl rfl rfl id
  | auditWritten tag req e serving =>
    refine ⟨h.capacity, ?_, nofun⟩
    have := h.audited
    simp only [Part.Audited, Part.awaitedWrite, serving, Option.map_some] at this
    simp [Part.Audited, Part.awaitedWrite, Part.addAudit, this]
  | auditFailed e awaited =>
    refine ⟨h.capacity, ?_, nofun⟩
    have := h.audited
    simp only [Part.Audited, awaited] at this
    simp [Part.Audited, Part.awaitedWrite, Part.addAudit, this]
  | commitEnded e awaited =>
    refine ⟨h.capacity, ?_, nofun⟩
    have := h.audited
    simp only [Part.Audited, awaited] at this
    simp [Part.Audited, Part.awaitedWrite, this]
  | sessionBegun x room => exact ⟨h.capacity, h.audited, fun _ _ => room⟩
  | sessionEnded => exact h.of_eq rfl rfl rfl nofun
  | faultEntered =>
    have hf := p.enterFault_failing
    exact h.of_eq hf.held (by rw [hf.nv]) (by rw [hf.nv]) (by rw [hf.cc]; exact id)
  | _ => exact h.of_eq (by simp) (by simp) (by simp) (by simp)

/-- No move lowers the audit counter. -/
theorem auditCounter_move {c : Instr} {k : Nat} {p q : Part} (m : Move c k p q) (h : p.AuditLaw) :
    p.nv.auditCounter ≤ q.nv.auditCounter := by
  cases m with
  | quiet seen => exact (congrArg Seen.auditCounter seen : q.nv.auditCounter = _).ge
  | reset cause time =>
    show p.nv.auditCounter ≤ p.cutWrites.nv.auditCounter
    rw [p.cutWrites_nv.2.2.2.1, Part.cutWrites_audit_length h.audited]
  | auditHeld => exact Nat.le_succ _
  | faultEntered => rw [p.enterFault_failing.nv]
  | _ => simp

/-- Settles O60: only a reset and a written PRICE_APPLY move the generation, and the audit area only grows. -/
theorem generationAndAuditAreGuarded : Obligations.GenerationAndAuditAreGuarded := by
  refine ⟨fun s t c hexec hne => ?_, fun s t c hexec => ?_⟩
  · by_cases hscan : ∃ x, c = .startUpScanEnd x
    · exact .inr (.inl hscan)
    have hpath := exec_path hexec fun x hx => hscan ⟨x, hx⟩
    have hmoved : t.part.art.generation = s.part.art.generation ∨ c.resets ∨ c = .priceApplyWritten :=
      hpath.keeps (P := fun q => q.art.generation = s.part.art.generation ∨ c.resets ∨ c = .priceApplyWritten)
        (.inl rfl) fun m h => by
          rcases h with h | h
          · rcases generation_move m with hm | hm
            · exact .inl (hm.trans h)
            · exact .inr hm
          · exact .inr h
    rcases hmoved with h | h | h
    · exact absurd h hne
    · cases c <;> first | exact h.elim | simp
      exact h
    · exact .inl h
  · by_cases hscan : ∃ x, c = .startUpScanEnd x
    · obtain ⟨x, rfl⟩ := hscan
      rcases scanEnd_cases hexec with h | ⟨-, h⟩ <;> rw [h] <;> simp
    have hpath := exec_path hexec fun x hx => hscan ⟨x, hx⟩
    refine ⟨hpath.keeps (P := fun q => s.part.nv.audit <+: q.nv.audit) (List.prefix_refl _)
      fun m h => h.trans (audit_move m), fun hinv => ?_⟩
    have hstart : s.part.AuditLaw := ⟨hinv.fits.audit.1, hinv.audited, hinv.granted.commit⟩
    exact (hpath.keeps (P := fun q => q.AuditLaw ∧ s.part.nv.auditCounter ≤ q.nv.auditCounter) ⟨hstart, le_refl _⟩
      fun m h => ⟨auditLaw_move m h.1, h.2.trans (auditCounter_move m h.1)⟩).2

end Sys2Proof.Machine
end

