-- ==== Sys2Proof/Proofs/Capacities.lean ====
section
/-! The capacities of the collections (Table 3), block by block: what each move does to the clerk table, the change set, the
accumulators, the tickets, the print queue, the write queue and the pool. -/

namespace Sys2Proof.Machine

/-- A law that the failure of each record keeps is kept at the entry into FAULT. -/
theorem enterFault_keeps {P : Part → Prop} {p : Part}
    (start : P { p with tj := { p.tj with
      fault := true, append := none, queue := p.tj.queue.filter Place.isHeld, waiting := none } })
    (failed : ∀ (q : Part) (r : Record), P q → P (q.recordFailed r))
    (latched : ∀ (q : Part) (d : StoreDetail), P q → P (q.latchStore d)) : P p.enterFault := by
  refine latched _ _ ?_
  generalize filledRecords p.tj.queue ++ p.tj.waiting.toList = rs
  generalize ({ p with tj := _ } : Part) = q at start
  induction rs generalizing q with
  | nil => exact start
  | cons r rest ih => exact ih _ (failed q r start)

/-! ## The clerk table (R74 to R76) -/

/-- The laws of the clerk table: within its capacity, ascending, the same in both places, with room for an accepted SET CLERK. -/
structure Part.ClerkLaw (p : Part) : Prop where
  capacity : p.oc.clerks.length ≤ Config.maxClerks
  ascending : (p.oc.clerks.map Clerk.number).Pairwise (· < ·)
  same : p.oc.clerks = p.nv.settings.clerks
  granted : ∀ x, p.awaitedWrite = some (.setClerk x) →
    (p.clerk x.number).isSome = true ∨ p.oc.clerks.length < Config.maxClerks

theorem Part.ClerkLaw.of_eq {p q : Part} (h : p.ClerkLaw) (ram : q.oc.clerks = p.oc.clerks)
    (place : q.nv.settings.clerks = p.nv.settings.clerks)
    (held : ∀ x, q.awaitedWrite = some (.setClerk x) → p.awaitedWrite = some (.setClerk x)) : q.ClerkLaw := by
  refine ⟨by rw [ram]; exact h.capacity, by rw [ram]; exact h.ascending, by rw [ram, place]; exact h.same, fun x hx => ?_⟩
  have := h.granted x (held x hx)
  unfold Part.clerk at this ⊢
  rwa [ram]

theorem Part.awaited_of_held {p q : Part} (h : q.ml.serving = p.ml.serving) (w : HeldWrite)
    (hw : q.awaitedWrite = some w) : p.awaitedWrite = some w := by
  rwa [Part.awaitedWrite, h] at hw

theorem length_insertByKey {α : Type} (key : α → Nat) (x : α) (l : List α) :
    (insertByKey key x l).length ≤ l.length + 1 := by
  induction l with
  | nil => simp [insertByKey]
  | cons y ys ih =>
    simp only [insertByKey]
    split
    · simp
    · split
      · simp
      · simpa using ih

/-- A record that replaces one of its number leaves the number of records as it was. -/
theorem length_insertByKey_of_mem {α : Type} {key : α → Nat} {x : α} {l : List α}
    (ascending : (l.map key).Pairwise (· < ·)) (h : (lookup key (key x) l).isSome = true) :
    (insertByKey key x l).length = l.length := by
  induction l with
  | nil => cases h
  | cons y ys ih =>
    simp only [List.map_cons, List.pairwise_cons] at ascending
    obtain ⟨hy, hys⟩ := ascending
    simp only [insertByKey]
    split
    · rename_i hlt
      obtain ⟨z, hz⟩ := Option.isSome_iff_exists.1 h
      have hkey := lookup_key hz
      rcases List.mem_cons.1 (lookup_mem hz) with rfl | hmem
      · omega
      · have := hy _ (List.mem_map_of_mem hmem)
        omega
    · split
      · rfl
      · rename_i hne
        have hne' : (key y == key x) = false := by
          rw [beq_eq_false_iff_ne]
          exact fun e => hne e.symm
        have hrest : (lookup key (key x) ys).isSome = true := by
          simpa [lookup, List.find?_cons, hne'] using h
        simp [ih hys hrest]

theorem clerkLaw_insert {l : List Clerk} {x : Clerk} (ascending : (l.map Clerk.number).Pairwise (· < ·))
    (capacity : l.length ≤ Config.maxClerks)
    (room : (lookup Clerk.number x.number l).isSome = true ∨ l.length < Config.maxClerks) :
    (insertByKey Clerk.number x l).length ≤ Config.maxClerks := by
  rcases room with h | h
  · rw [length_insertByKey_of_mem ascending h]
    exact capacity
  · exact (length_insertByKey _ _ _).trans h

/-- What a reset leaves of the clerk table: a SET CLERK or REMOVE CLERK in flight has been written or not. -/
theorem Part.settleHeld_clerks (p : Part) : p.settleHeld.nv.settings.clerks = p.nv.settings.clerks
    ∨ (∃ x, p.awaitedWrite = some (.setClerk x)
      ∧ p.settleHeld.nv.settings.clerks = insertByKey Clerk.number x p.nv.settings.clerks)
    ∨ ∃ n, p.settleHeld.nv.settings.clerks = removeKey Clerk.number n p.nv.settings.clerks := by
  unfold Part.settleHeld Part.cutWrite
  split
  case h_4 x hx =>
    split
    · exact .inr (.inl ⟨x, hx, rfl⟩)
    · exact .inl rfl
  case h_5 n hn =>
    split
    · exact .inr (.inr ⟨n, rfl⟩)
    · exact .inl rfl
  case h_1 => exact .inl rfl
  case h_6 => exact .inl rfl
  all_goals split <;> exact .inl rfl

theorem clerkLaw_move {c : Instr} {k : Nat} {p q : Part} (m : Move c k p q) (h : p.ClerkLaw) : q.ClerkLaw := by
  cases m with
  | quiet seen =>
    exact h.of_eq (congrArg Seen.clerks seen) (congrArg Seen.clerkPlaces seen)
      fun x => Part.awaited_of_held (congrArg Seen.held seen) _
  | reset cause time =>
    have hclerks : p.cutWrites.nv.settings.clerks = p.settleHeld.nv.settings.clerks := by rw [p.cutWrites_nv.1]
    have hboth : (p.reset cause time).oc.clerks = p.settleHeld.nv.settings.clerks := hclerks
    refine ⟨?_, ?_, rfl, nofun⟩ <;> rw [hboth] <;>
      rcases p.settleHeld_clerks with hs | ⟨x, hx, hs⟩ | ⟨n, hs⟩ <;> rw [hs, ← h.same]
    · exact h.capacity
    · exact clerkLaw_insert h.ascending h.capacity (h.granted x hx)
    · exact (List.length_filter_le _ _).trans h.capacity
    · exact h.ascending
    · exact ascending_insertByKey _ _ _ h.ascending
    · exact ascending_removeKey _ _ _ h.ascending
  | writeHeld x free kind room =>
    refine ⟨h.capacity, h.ascending, h.same, fun y hy => room y ?_⟩
    simpa [Part.awaitedWrite] using hy
  | auditHeld => exact h.of_eq rfl rfl (fun x hx => by simp [Part.awaitedWrite] at hx)
  | writeEnded => exact h.of_eq rfl rfl nofun
  | clerkWritten x awaited =>
    exact ⟨clerkLaw_insert h.ascending h.capacity (h.granted x awaited), ascending_insertByKey _ _ _ h.ascending, rfl, nofun⟩
  | clerkRemoved n =>
    exact ⟨(List.length_filter_le _ _).trans h.capacity, ascending_removeKey _ _ _ h.ascending, rfl, nofun⟩
  | auditWritten => exact h.of_eq rfl rfl (fun x hx => by simp [Part.awaitedWrite] at hx)
  | auditFailed => exact h.of_eq rfl rfl nofun
  | commitEnded => exact h.of_eq rfl rfl nofun
  | faultEntered =>
    have hf := p.enterFault_failing
    exact h.of_eq (by rw [hf.oc]) (by rw [hf.nv]) fun x => Part.awaited_of_held hf.held _
  | switched => exact h.of_eq (by simp) (by simp) fun x => Part.awaited_of_held (by simp) _
  | _ => exact h.of_eq (by simp) (by simp) fun x => Part.awaited_of_held (by simp) _

/-! ## The change set (R56) -/

/-- The laws of the change set: its entries within their capacity and in ascending article number. -/
def Part.ChangeLaw (p : Part) : Prop := ∀ base es, p.art.changeSet.content = some (base, es) →
  es.length ≤ Config.maxStaged ∧ (es.map ChangeEntry.number).Pairwise (· < ·)

theorem Part.ChangeLaw.of_content {p q : Part} (h : p.ChangeLaw)
    (content : q.art.changeSet.content = p.art.changeSet.content) : q.ChangeLaw := fun base es he => h base es (content ▸ he)

theorem ChangeSet.content_opened {base last : Nat} {es : List ChangeEntry} :
    (ChangeSet.opened base es last).content = some (base, es) := rfl

/-- The failure of a record leaves the content of the change set as it was. -/
theorem Part.recordFailed_content (p : Part) (r : Record) :
    (p.recordFailed r).art.changeSet.content = p.art.changeSet.content := by
  cases r with
  | line n owner f => rw [show p.recordFailed (.line n owner f) = p.lineFailed n f from rfl, (p.lineFailed_frame n f).2.1]
  | close n => exact congrArg (fun a => a.changeSet.content) (p.closingFailed_frame n .sale).2.1
  | voidOrder n => exact congrArg (fun a => a.changeSet.content) (p.closingFailed_frame n .void).2.1
  | priceApply =>
    simp only [Part.recordFailed, Part.failApply]
    split
    · rfl
    · rename_i h
      rw [h]
      rfl
  | priceStored =>
    simp only [Part.recordFailed, Part.failStore]
    split <;> simp
  | _ => rfl

theorem Part.enterFault_content (p : Part) : p.enterFault.art.changeSet.content = p.art.changeSet.content :=
  enterFault_keeps (P := fun q => q.art.changeSet.content = p.art.changeSet.content) rfl
    (fun q r h => (q.recordFailed_content r).trans h) fun _ _ h => h

theorem changeLaw_move {c : Instr} {k : Nat} {p q : Part} (m : Move c k p q) (h : p.ChangeLaw) : q.ChangeLaw := by
  cases m with
  | quiet seen => exact h.of_content (congrArg (fun x => x.changeSet.content) seen)
  | reset => exact nofun
  | changeTouched base es last now opened => exact h.of_content (by rw [opened]; rfl)
  | changeBegun now =>
    intro base es he
    cases he
    exact ⟨Nat.zero_le _, List.Pairwise.nil⟩
  | staged base es last now e opened room =>
    intro base' es' he
    cases he
    obtain ⟨hlength, hascending⟩ := h base es (by rw [opened]; rfl)
    refine ⟨?_, ascending_insertByKey _ _ _ hascending⟩
    simp only [stageRoom, hasEntry, Bool.or_eq_true, decide_eq_true_eq] at room
    rcases room with hentry | hroom
    · rw [length_insertByKey_of_mem hascending hentry]
      exact hlength
    · exact (length_insertByKey _ _ _).trans hroom
  | changeDropped => exact nofun
  | changeScheduled base es last time opened => exact h.of_content (by rw [opened]; rfl)
  | changeReopened base es time now scheduled => exact h.of_content (by rw [scheduled]; rfl)
  | changeApplied base es time content => exact h.of_content (by rw [content]; rfl)
  | switched g es =>
    intro base es' he
    simp [ChangeSet.content] at he
  | faultEntered => exact h.of_content p.enterFault_content
  | storedQueued => exact h.of_content (by simp)
  | _ => exact h.of_content (by simp)

end Sys2Proof.Machine
end

