-- ==== Sys2Proof/Proofs/Closings.lean ====
section
/-! What judging a WAITING close, a written record and a failed one do to the pool, the print queue and the write queue (R107, R110,
R133, R147). -/

namespace Sys2Proof.Machine

/-! ## A WAITING close judged -/

/-- A close that is judged stays as it is, ends without a record, or has its record formed. -/
theorem Part.settleClosing_cases (p : Part) (n : Nat) : p.settleClosing n = p ∨ ∃ o kind, p.order n = some o
    ∧ o.state = .closing kind .waiting ∧ o.hasPending = false
    ∧ ((o.nothingToClose kind = true ∧ p.settleClosing n = p.endEmptyClose o)
      ∨ (o.nothingToClose kind = false ∧ p.settleClosing n = p.formClosing o kind)) := by
  unfold Part.settleClosing
  cases ho : p.order n with
  | none => exact .inl rfl
  | some o =>
    dsimp only
    split
    · rename_i kind hstate
      split
      · exact .inl rfl
      · rename_i hpending
        refine .inr ⟨o, kind, rfl, hstate, Bool.eq_false_iff.2 hpending, ?_⟩
        split
        · rename_i hnothing
          exact .inl ⟨hnothing, rfl⟩
        · rename_i hnothing
          exact .inr ⟨Bool.eq_false_iff.2 hnothing, rfl⟩
    · exact .inl rfl

/-! ## The pool -/

/-- The pool after some of the orders of one number have changed or left. -/
def PoolChanged (n : Nat) (before after : List (Option Order)) : Prop := ∃ f, after = updatePool n f before

theorem updatePool_some (n : Nat) (pool : List (Option Order)) : updatePool n some pool = pool := by
  unfold updatePool
  rw [List.map_congr_left (g := id)]
  · simp
  · intro slot _
    cases slot <;> simp

theorem PoolChanged.refl (n : Nat) (pool : List (Option Order)) : PoolChanged n pool pool :=
  ⟨some, (updatePool_some n pool).symm⟩

theorem updatePool_length (n : Nat) (f : Order → Option Order) (pool : List (Option Order)) :
    (updatePool n f pool).length = pool.length := by simp [updatePool]

theorem updatePool_none {n : Nat} {f : Order → Option Order} {pool : List (Option Order)} (h : ∀ slot ∈ pool, slot = none) :
    ∀ slot ∈ updatePool n f pool, slot = none := by
  intro slot hslot
  obtain ⟨x, hx, rfl⟩ := List.mem_map.1 hslot
  rw [h x hx]
  rfl

theorem Part.setClosing_pool (p : Part) (n : Nat) (k : CloseKind) (r : ClosingRecord) :
    (p.setClosing n k r).om.pool = updatePool n (fun o => some { o with state := .closing k r }) p.om.pool := rfl

theorem Part.freeOrder_pool (p : Part) (n : Nat) : (p.freeOrder n).om.pool = updatePool n (fun _ => none) p.om.pool := rfl

theorem Part.onTotalJob_frame (p : Part) (o : Order) (f : Part → Nat → Part) (h : ∀ q k, (f q k).om = q.om ∧ (f q k).tj = q.tj
    ∧ (f q k).tc = q.tc) :
    (p.onTotalJob o f).om = p.om ∧ (p.onTotalJob o f).tj = p.tj ∧ (p.onTotalJob o f).tc = p.tc := by
  unfold Part.onTotalJob
  split
  · exact h _ _
  · exact ⟨rfl, rfl, rfl⟩

theorem Part.failClosing_om (p : Part) (o : Order) (k : CloseKind) :
    (p.failClosing o k).om = (p.setClosing o.number k .failed).om ∧ (p.failClosing o k).tj = p.tj
      ∧ (p.failClosing o k).tc = p.tc := by
  obtain ⟨hom, htj, htc⟩ := (p.setClosing o.number k .failed).onTotalJob_frame o (fun q n => q.deleteJob .total n)
    fun q k => ⟨rfl, rfl, rfl⟩
  exact ⟨hom, htj, htc⟩

/-- The part before the record of a close is formed: the TOTAL job of a sale is completed. -/
def Part.completed (p : Part) (o : Order) : CloseKind → Part
  | .sale => p.onTotalJob o (fun q n => q.completeTotal n o.activeLines.length o.total)
  | .void => p

theorem Part.completed_frame (p : Part) (o : Order) (k : CloseKind) : (p.completed o k).om = p.om
    ∧ (p.completed o k).tj = p.tj ∧ (p.completed o k).tc = p.tc := by
  cases k with
  | sale =>
    exact p.onTotalJob_frame o (fun q n => q.completeTotal n o.activeLines.length o.total) fun _ _ => ⟨rfl, rfl, rfl⟩
  | void => exact ⟨rfl, rfl, rfl⟩

theorem Part.formClosing_eq (p : Part) (o : Order) (k : CloseKind) : p.formClosing o k =
    if p.tj.fault then ((p.completed o k).failClosing o k).giveBack o.number
    else ((p.completed o k).fillPlace o.number (p.closingRecord o k)).setClosing o.number k .queued := by
  cases k <;> rfl

theorem Part.formClosing_om (p : Part) (o : Order) (k : CloseKind) : (p.formClosing o k).om
    = (p.setClosing o.number k (if p.tj.fault then .failed else .queued)).om := by
  rw [p.formClosing_eq]
  have hom := (p.completed_frame o k).1
  split
  · rw [((p.completed o k).failClosing o k).giveBack_frame o.number |>.2.2.2.2.2.2.1, (Part.failClosing_om _ _ _).1]
    simp [Part.setClosing, Part.updateOrder, hom]
  · simp [Part.setClosing, Part.updateOrder, hom]

theorem Part.endEmptyClose_om (p : Part) (o : Order) : (p.endEmptyClose o).om = (p.freeOrder o.number).om
    ∧ (p.endEmptyClose o).tc = (p.endNoSale o.ticket).tc := by
  unfold Part.endEmptyClose
  dsimp only
  have htc : ((p.freeOrder o.number).endNoSale o.ticket).tc = (p.endNoSale o.ticket).tc := by
    simp only [Part.endNoSale]
    have hticket : o.ticket.bind (p.freeOrder o.number).servingTicket = o.ticket.bind p.servingTicket := rfl
    rw [hticket]
    split <;> rfl
  split <;> simp [htc]

theorem Part.settleClosing_pool (p : Part) (n : Nat) : PoolChanged n p.om.pool (p.settleClosing n).om.pool := by
  rcases p.settleClosing_cases n with h | ⟨o, kind, ho, -, -, ⟨-, h⟩ | ⟨-, h⟩⟩ <;> rw [h]
  · exact .refl n _
  · rw [(p.endEmptyClose_om o).1, ← Part.order_number ho]
    exact ⟨_, rfl⟩
  · rw [p.formClosing_om, ← Part.order_number ho]
    exact ⟨_, rfl⟩

/-! ## The print queue -/

/-- The label numbers of the ITEM and TOTAL jobs of a print queue. -/
def newLabels (jobs : List Job) : List Nat := (jobs.filter (fun j => decide (j.kind ≠ .reprint))).map Job.label

/-- A print queue that holds no job but those of another, none of them at a printer before its record is written. -/
structure JobsKept (before after : List Job) : Prop where
  length : after.length ≤ before.length
  released : (∀ j ∈ before, j.atPrinter = true → j.released = true) → ∀ j ∈ after, j.atPrinter = true → j.released = true
  labels : (newLabels after).Sublist (newLabels before)

theorem JobsKept.refl (jobs : List Job) : JobsKept jobs jobs := ⟨le_refl _, id, .refl _⟩

theorem JobsKept.trans {a b d : List Job} (h : JobsKept a b) (k : JobsKept b d) : JobsKept a d :=
  ⟨k.length.trans h.length, fun hr => k.released (h.released hr), k.labels.trans h.labels⟩

theorem JobsKept.removeFirst (test : Job → Bool) (jobs : List Job) : JobsKept jobs (removeFirst test jobs) :=
  have hsub := sublist_removeFirst test jobs
  ⟨hsub.length_le, fun hr j hj => hr j (hsub.subset hj), (hsub.filter _).map _⟩

theorem JobsKept.changeFirst {test : Job → Bool} {f : Job → Job} (jobs : List Job) (hk : ∀ j, (f j).kind = j.kind)
    (hl : ∀ j, (f j).label = j.label)
    (hr : ∀ j, (j.atPrinter = true → j.released = true) → (f j).atPrinter = true → (f j).released = true) :
    JobsKept jobs (changeFirst test f jobs) := by
  refine ⟨(length_changeFirst test f _).le, fun hrel j hj => ?_, ?_⟩
  · rcases mem_changeFirst hj with hj | ⟨x, hx, rfl⟩
    · exact hrel j hj
    · exact hr x (hrel x (List.mem_of_find?_eq_some hx))
  · unfold newLabels
    rw [labels_changeFirst test hk hl]

theorem Part.releaseJob_kept (p : Part) (k : LabelKind) (n : Nat) : JobsKept p.lu.queue (p.releaseJob k n).lu.queue :=
  JobsKept.changeFirst _ (fun _ => rfl) (fun _ => rfl) fun _ _ _ => rfl

theorem Part.deleteJob_kept (p : Part) (k : LabelKind) (n : Nat) : JobsKept p.lu.queue (p.deleteJob k n).lu.queue :=
  JobsKept.removeFirst _ _

theorem Part.completeTotal_kept (p : Part) (n count total : Nat) :
    JobsKept p.lu.queue (p.completeTotal n count total).lu.queue :=
  JobsKept.changeFirst _ (fun _ => rfl) (fun _ => rfl) fun _ h => h

theorem Part.onTotalJob_kept (p : Part) (o : Order) {f : Part → Nat → Part}
    (h : ∀ q k, JobsKept q.lu.queue (f q k).lu.queue) : JobsKept p.lu.queue (p.onTotalJob o f).lu.queue := by
  unfold Part.onTotalJob
  split
  · exact h _ _
  · exact .refl _

theorem Part.failClosing_kept (p : Part) (o : Order) (k : CloseKind) :
    JobsKept p.lu.queue (p.failClosing o k).lu.queue :=
  (p.setClosing o.number k .failed).onTotalJob_kept o fun q n => q.deleteJob_kept .total n

theorem Part.completed_kept (p : Part) (o : Order) (k : CloseKind) : JobsKept p.lu.queue (p.completed o k).lu.queue := by
  cases k with
  | sale => exact p.onTotalJob_kept o fun q n => q.completeTotal_kept n _ _
  | void => exact .refl _

theorem Part.formClosing_kept (p : Part) (o : Order) (k : CloseKind) : JobsKept p.lu.queue (p.formClosing o k).lu.queue := by
  have hstart := p.completed_kept o k
  rw [p.formClosing_eq]
  split
  · simpa using hstart.trans ((p.completed o k).failClosing_kept o k)
  · simpa using hstart

theorem Part.endEmptyClose_kept (p : Part) (o : Order) : JobsKept p.lu.queue (p.endEmptyClose o).lu.queue := by
  unfold Part.endEmptyClose
  dsimp only
  have hlu : ((p.freeOrder o.number).endNoSale o.ticket).lu = p.lu := by simp
  split
  · rename_i n _
    have := ((p.freeOrder o.number).endNoSale o.ticket).deleteJob_kept .total n
    rw [hlu] at this
    simpa using this
  · simpa using JobsKept.refl p.lu.queue

theorem Part.settleClosing_kept (p : Part) (n : Nat) : JobsKept p.lu.queue (p.settleClosing n).lu.queue := by
  rcases p.settleClosing_cases n with h | ⟨o, kind, -, -, -, ⟨-, h⟩ | ⟨-, h⟩⟩ <;> rw [h]
  · exact .refl _
  · exact p.endEmptyClose_kept o
  · exact p.formClosing_kept o kind

theorem Part.closeWritten_kept (p : Part) (n owner total : Nat) (label : Option Nat) :
    JobsKept p.lu.queue (p.closeWritten n owner total label).lu.queue := by
  unfold Part.closeWritten
  split
  · exact .refl _
  · rename_i o _
    have := (p.onAccumulators (fun a => a.addClose owner total label o.activeLines o.voidedLines)).onTotalJob_kept o
      fun q k => q.releaseJob_kept .total k
    simpa using this

theorem Part.lineFailed_kept (p : Part) (n : Nat) (f : LineFields) : JobsKept p.lu.queue (p.lineFailed n f).lu.queue := by
  unfold Part.lineFailed Part.onItemJob
  refine JobsKept.trans ?_ (Part.settleClosing_kept _ n)
  split
  · exact Part.deleteJob_kept _ _ _
  · exact .refl _

theorem Part.recordFailed_kept (p : Part) (r : Record) : JobsKept p.lu.queue (p.recordFailed r).lu.queue := by
  have hclosing : ∀ n kind, JobsKept p.lu.queue (p.closingFailed n kind).lu.queue := fun n kind => by
    unfold Part.closingFailed
    split
    · exact .refl _
    · exact p.failClosing_kept _ _
  cases r with
  | line n owner f => exact p.lineFailed_kept n f
  | voidLine => exact .refl _
  | close n => exact hclosing n .sale
  | voidOrder n => exact hclosing n .void
  | reprint label => exact p.deleteJob_kept .reprint label
  | priceApply =>
    simp only [Part.recordFailed, Part.failApply]
    split <;> exact .refl _
  | priceStored =>
    simp only [Part.recordFailed, Part.failStore]
    split <;> exact .refl _
  | dayClose => exact .refl _

theorem Part.enterFault_kept (p : Part) : JobsKept p.lu.queue p.enterFault.lu.queue :=
  enterFault_keeps (P := fun q => JobsKept p.lu.queue q.lu.queue) (.refl _)
    (fun q r h => h.trans (q.recordFailed_kept r)) fun _ _ h => h

/-! ## The write queue -/

theorem Part.promote_length {p : Part} (h : p.tj.queue.length ≤ Config.queuePlaces) :
    p.promote.tj.queue.length ≤ Config.queuePlaces := by
  unfold Part.promote
  split
  · exact h
  · split
    · rename_i hroom
      simpa [Part.queueRecord, Part.takePlace, Part.withQueue] using hroom
    · exact h

theorem Part.giveBack_length {p : Part} {n : Nat} (h : p.tj.queue.length ≤ Config.queuePlaces) :
    (p.giveBack n).tj.queue.length ≤ Config.queuePlaces :=
  Part.promote_length ((length_dropHeld_le n p.tj.queue).trans h)

theorem Part.formClosing_length {p : Part} {o : Order} {k : CloseKind} (h : p.tj.queue.length ≤ Config.queuePlaces) :
    (p.formClosing o k).tj.queue.length ≤ Config.queuePlaces := by
  have htj := (p.completed_frame o k).2.1
  rw [p.formClosing_eq]
  split
  · exact Part.giveBack_length (by rw [(Part.failClosing_om _ _ _).2.1, htj]; exact h)
  · simpa [Part.fillPlace, Part.withQueue, htj] using h

theorem Part.endEmptyClose_length {p : Part} {o : Order} (h : p.tj.queue.length ≤ Config.queuePlaces) :
    (p.endEmptyClose o).tj.queue.length ≤ Config.queuePlaces := by
  unfold Part.endEmptyClose
  dsimp only
  refine Part.giveBack_length ?_
  split <;> simpa using h

theorem Part.settleClosing_length {p : Part} {n : Nat} (h : p.tj.queue.length ≤ Config.queuePlaces) :
    (p.settleClosing n).tj.queue.length ≤ Config.queuePlaces := by
  rcases p.settleClosing_cases n with e | ⟨o, kind, -, -, -, ⟨-, e⟩ | ⟨-, e⟩⟩ <;> rw [e]
  · exact h
  · exact Part.endEmptyClose_length h
  · exact Part.formClosing_length h

theorem Part.recordFailed_length {p : Part} {r : Record} (h : p.tj.queue.length ≤ Config.queuePlaces) :
    (p.recordFailed r).tj.queue.length ≤ Config.queuePlaces := by
  have hclosing : ∀ n kind, (p.closingFailed n kind).tj.queue.length ≤ Config.queuePlaces := fun n kind => by
    unfold Part.closingFailed
    split
    · exact h
    · rw [(Part.failClosing_om _ _ _).2.1]
      exact h
  cases r with
  | line n owner f =>
    refine Part.settleClosing_length ?_
    unfold Part.onItemJob
    dsimp only
    split <;> exact h
  | voidLine => exact h
  | close n => exact hclosing n .sale
  | voidOrder n => exact hclosing n .void
  | reprint label => exact h
  | priceApply =>
    simp only [Part.recordFailed, Part.failApply]
    split <;> exact h
  | priceStored =>
    simp only [Part.recordFailed, Part.failStore]
    split <;> exact h
  | dayClose => exact h

theorem Part.finishAppend_length {p : Part} {r : Record} (h : p.tj.queue.length ≤ Config.queuePlaces) :
    (p.finishAppend r).tj.queue.length ≤ Config.queuePlaces := by
  have hq : ((p.storeRecord r).reportRetry).tj = p.tj := by simp
  refine Part.promote_length ?_
  show (dropFirstRecord ((p.storeRecord r).reportRetry).tj.queue).length ≤ _
  rw [hq]
  exact (length_dropFirstRecord_le _).trans h

end Sys2Proof.Machine
end

