-- ==== Sys2Proof/Proofs/Accounts.lean ====
section
/-! The day accumulators within their capacities at every move (R173). -/

namespace Sys2Proof.Machine

/-! ## The accumulators (R173) -/

/-- The laws of the article map and the clerk entries: within their capacity and in ascending number. -/
structure Accumulators.Kept (a : Accumulators) : Prop where
  articleRoom : a.articles.length ≤ Config.maxArticleEntries
  articles : (a.articles.map ArticleEntry.article).Pairwise (· < ·)
  clerkRoom : a.clerks.length ≤ Config.maxClerkEntries
  clerks : (a.clerks.map ClerkEntry.clerk).Pairwise (· < ·)

theorem Accumulators.Kept.of_eq {a b : Accumulators} (h : a.Kept) (articles : b.articles = a.articles)
    (clerks : b.clerks = a.clerks) : b.Kept := by
  refine ⟨?_, ?_, ?_, ?_⟩
  · rw [articles]; exact h.articleRoom
  · rw [articles]; exact h.articles
  · rw [clerks]; exact h.clerkRoom
  · rw [clerks]; exact h.clerks

theorem Accumulators.zero_kept : Accumulators.zero.Kept := ⟨Nat.zero_le _, .nil, Nat.zero_le _, .nil⟩

theorem Accumulators.addLine_kept {a : Accumulators} (h : a.Kept) (f : LineFields) : (a.addLine f).Kept := by
  have hclerks : (a.addArticle f).clerks = a.clerks := by
    rcases a.addArticle_cases f with ⟨e, -, he⟩ | ⟨-, -, he⟩ | ⟨-, -, he⟩ <;> rw [he]
  have harticles : (a.addArticle f).articles.length ≤ Config.maxArticleEntries
      ∧ ((a.addArticle f).articles.map ArticleEntry.article).Pairwise (· < ·) := by
    rcases a.addArticle_cases f with ⟨e, hl, he⟩ | ⟨-, hroom, he⟩ | ⟨-, -, he⟩ <;> rw [he]
    · refine ⟨?_, ascending_insertByKey _ _ _ h.articles⟩
      show (insertByKey ArticleEntry.article _ _).length ≤ _
      rw [length_insertByKey_of_mem h.articles (by rw [hl]; rfl)]
      exact h.articleRoom
    · exact ⟨(length_insertByKey _ _ _).trans hroom, ascending_insertByKey _ _ _ h.articles⟩
    · exact ⟨h.articleRoom, h.articles⟩
  exact ⟨harticles.1, harticles.2, hclerks ▸ h.clerkRoom, hclerks ▸ h.clerks⟩

theorem Accumulators.onClerk_kept {a : Accumulators} (h : a.Kept) (owner : Nat) (g : ClerkFigures → ClerkFigures) :
    (a.onClerk owner g).Kept := by
  unfold Accumulators.onClerk
  split
  · rename_i e hl
    refine ⟨h.articleRoom, h.articles, ?_, ascending_insertByKey _ _ _ h.clerks⟩
    show (insertByKey ClerkEntry.clerk _ _).length ≤ _
    rw [length_insertByKey_of_mem h.clerks (by rw [hl]; rfl)]
    exact h.clerkRoom
  · split
    · rename_i hroom
      exact ⟨h.articleRoom, h.articles, (length_insertByKey _ _ _).trans hroom, ascending_insertByKey _ _ _ h.clerks⟩
    · exact h.of_eq rfl rfl

theorem Accumulators.addClose_kept {a : Accumulators} (h : a.Kept) (owner total : Nat) (label : Option Nat)
    (active voided : List LineFields) : (a.addClose owner total label active voided).Kept := by
  have hlines : ∀ (fs : List LineFields) (b : Accumulators), b.Kept → (fs.foldl Accumulators.addLine b).Kept := by
    intro fs
    induction fs with
    | nil => exact fun _ hb => hb
    | cons f fs ih => exact fun b hb => ih _ (Accumulators.addLine_kept hb f)
  have hvoided : ∀ (fs : List LineFields) (b : Accumulators), b.Kept → (fs.foldl Accumulators.addVoided b).Kept := by
    intro fs
    induction fs with
    | nil => exact fun _ hb => hb
    | cons f fs ih => exact fun b hb => ih _ (hb.of_eq rfl rfl)
  exact (Accumulators.onClerk_kept (hvoided voided _ (hlines active a h)) owner _).of_eq rfl rfl

theorem Accumulators.addVoidOrder_kept {a : Accumulators} (h : a.Kept) (owner value : Nat) :
    (a.addVoidOrder owner value).Kept := (Accumulators.onClerk_kept h owner _).of_eq rfl rfl

theorem rebuild_kept (rs : List Record) : (rebuild rs).accumulators.Kept := by
  have hstep : ∀ (rs : List Record) (r : Rebuild), r.accumulators.Kept → (rs.foldl Rebuild.step r).accumulators.Kept := by
    intro rs
    induction rs with
    | nil => exact fun _ h => h
    | cons x rs ih =>
      intro r h
      refine ih _ ?_
      cases x with
      | close n owner ticket count total label wait => exact Accumulators.addClose_kept h _ _ _ _ _
      | voidOrder n owner ticket value => exact Accumulators.addVoidOrder_kept h _ _
      | reprint => exact h.of_eq rfl rfl
      | _ => exact h
  exact hstep rs ⟨.zero, []⟩ Accumulators.zero_kept

theorem closeWritten_accumulators (p : Part) (n owner total : Nat) (label : Option Nat) :
    (p.closeWritten n owner total label).tt.accumulators = p.tt.accumulators ∨ ∃ o, p.order n = some o
      ∧ (p.closeWritten n owner total label).tt.accumulators
        = p.tt.accumulators.addClose owner total label o.activeLines o.voidedLines := by
  unfold Part.closeWritten
  cases ho : p.order n with
  | none => exact .inl rfl
  | some o =>
    refine .inr ⟨o, rfl, ?_⟩
    unfold Part.onTotalJob
    dsimp only
    split <;> simp [Part.onAccumulators]

theorem voidOrderWritten_accumulators (p : Part) (n owner value : Nat) :
    (p.voidOrderWritten n owner value).tt.accumulators = p.tt.accumulators ∨ ∃ o, p.order n = some o
      ∧ (p.voidOrderWritten n owner value).tt.accumulators = p.tt.accumulators.addVoidOrder owner value := by
  unfold Part.voidOrderWritten
  cases ho : p.order n with
  | none => exact .inl rfl
  | some o => exact .inr ⟨o, rfl, by simp [Part.onAccumulators]⟩

theorem accumulators_move {c : Instr} {k : Nat} {p q : Part} (m : Move c k p q) (h : p.tt.accumulators.Kept) :
    q.tt.accumulators.Kept := by
  have hsame : q.tt.accumulators = p.tt.accumulators → q.tt.accumulators.Kept := fun e => e ▸ h
  cases m with
  | quiet seen => exact hsame (congrArg Seen.accumulators seen)
  | reset => exact Accumulators.zero_kept
  | reprintCounted => exact h.of_eq rfl rfl
  | dayEnded => exact Accumulators.zero_kept
  | closeWritten n owner ticket count total label =>
    rcases closeWritten_accumulators (p.finishAppend _) n owner total label with e | ⟨o, -, e⟩ <;> rw [e] <;>
      simp only [Part.finishAppend_frame]
    · exact h
    · exact Accumulators.addClose_kept h _ _ _ _ _
  | voidWritten n owner ticket value =>
    rcases voidOrderWritten_accumulators (p.finishAppend _) n owner value with e | ⟨o, -, e⟩ <;> rw [e] <;>
      simp only [Part.finishAppend_frame]
    · exact h
    · exact Accumulators.addVoidOrder_kept h _ _
  | faultEntered => exact hsame p.enterFault_failing.accumulators
  | _ => exact hsame (by simp)


end Sys2Proof.Machine
end

