-- ==== Sys2Proof/Proofs/TicketLists.lean ====
section
/-! The lists of TC and of the call display at every move (R113, R116, R123). -/

namespace Sys2Proof.Machine

/-! ## Tickets and the call display (R113, R116, R123) -/

/-- The lists of TC other than the SERVING tickets. -/
structure TicketsSame (s t : TicketController) : Prop where
  waiting : t.waiting = s.waiting
  called : t.called = s.called
  missed : t.missed = s.missed
  lastIssued : t.lastIssued = s.lastIssued
  callList : t.callList = s.callList

theorem TicketsSame.refl (s : TicketController) : TicketsSame s s := ⟨rfl, rfl, rfl, rfl, rfl⟩

theorem TicketsSame.of_eq {s t : TicketController} (h : t = s) : TicketsSame s t := h ▸ .refl s

theorem TicketsSame.trans {s t u : TicketController} (h : TicketsSame s t) (k : TicketsSame t u) : TicketsSame s u :=
  ⟨k.waiting.trans h.waiting, k.called.trans h.called, k.missed.trans h.missed, k.lastIssued.trans h.lastIssued,
    k.callList.trans h.callList⟩

theorem TicketsSame.of_seen {p q : Part} (h : q.seen = p.seen) : TicketsSame p.tc q.tc :=
  ⟨congrArg Seen.waiting h, congrArg Seen.called h, congrArg Seen.missed h, congrArg Seen.lastIssued h,
    congrArg Seen.callList h⟩

theorem Part.endNoSale_same (p : Part) (t : Option Nat) : TicketsSame p.tc (p.endNoSale t).tc := by
  unfold Part.endNoSale
  split <;> exact ⟨rfl, rfl, rfl, rfl, rfl⟩

theorem Part.endServed_same (p : Part) (t : Option Nat) : TicketsSame p.tc (p.endServed t).tc := by
  unfold Part.endServed
  split <;> exact ⟨rfl, rfl, rfl, rfl, rfl⟩

theorem Part.settleClosing_same (p : Part) (n : Nat) : TicketsSame p.tc (p.settleClosing n).tc := by
  rcases p.settleClosing_cases n with h | ⟨o, kind, -, -, -, ⟨-, h⟩ | ⟨-, h⟩⟩ <;> rw [h]
  · exact .refl _
  · rw [(p.endEmptyClose_om o).2]
    exact p.endNoSale_same _
  · exact .of_eq (by simp)

theorem Part.closeWritten_same (p : Part) (n owner total : Nat) (label : Option Nat) :
    TicketsSame p.tc (p.closeWritten n owner total label).tc := by
  unfold Part.closeWritten
  split
  · exact .refl _
  · rename_i o _
    rw [Part.freeOrder_frame _ n |>.2.2.2.2.2.2.1]
    refine (TicketsSame.of_eq ?_).trans (Part.endServed_same _ _)
    exact (Part.onTotalJob_frame _ o (fun q k => q.releaseJob .total k) fun _ _ => ⟨rfl, rfl, rfl⟩).2.2

theorem Part.voidOrderWritten_same (p : Part) (n owner value : Nat) :
    TicketsSame p.tc (p.voidOrderWritten n owner value).tc := by
  unfold Part.voidOrderWritten
  split
  · exact .refl _
  · exact (p.onAccumulators _).endNoSale_same _

theorem Part.recordFailed_same (p : Part) (r : Record) : TicketsSame p.tc (p.recordFailed r).tc := by
  have hclosing : ∀ n kind, TicketsSame p.tc (p.closingFailed n kind).tc := fun n kind => by
    unfold Part.closingFailed
    split
    · exact .refl _
    · exact .of_eq (Part.failClosing_om _ _ _).2.2
  cases r with
  | line n owner f =>
    refine (TicketsSame.of_eq ?_).trans (Part.settleClosing_same _ n)
    unfold Part.onItemJob
    dsimp only
    split <;> rfl
  | close n => exact hclosing n .sale
  | voidOrder n => exact hclosing n .void
  | priceApply =>
    simp only [Part.recordFailed, Part.failApply]
    split <;> exact .refl _
  | priceStored =>
    simp only [Part.recordFailed, Part.failStore]
    split <;> exact .refl _
  | _ => exact .refl _

theorem Part.enterFault_same (p : Part) : TicketsSame p.tc p.enterFault.tc :=
  enterFault_keeps (P := fun q => TicketsSame p.tc q.tc) (.refl _)
    (fun q r h => h.trans (q.recordFailed_same r)) fun _ _ h => h

/-- The capacities of the waiting queue, the missed list, the call list and the lists for the display. -/
structure Part.TicketRoom (p : Part) : Prop where
  waiting : p.tc.waiting.length ≤ Config.maxWaiting
  missed : p.tc.missed.length ≤ Config.maxMissed
  calls : p.tc.callList.length ≤ Config.maxCalls
  lists : ∀ l ∈ p.ml.display, l.length ≤ Config.maxCalls

theorem Part.TicketRoom.of_same {p q : Part} (h : p.TicketRoom) (same : TicketsSame p.tc q.tc)
    (display : q.ml.display = p.ml.display) : q.TicketRoom :=
  ⟨same.waiting ▸ h.waiting, same.missed ▸ h.missed, same.callList ▸ h.calls, display ▸ h.lists⟩

theorem joinMissed_length (missed : List MissedTicket) (t : MissedTicket) (h : missed.length ≤ Config.maxMissed) :
    (joinMissed missed t).length ≤ Config.maxMissed := by
  simp only [joinMissed, List.length_append, List.length_drop, List.length_singleton]
  simp only [show Config.maxMissed = 8 from rfl] at *
  omega

/-- The CALLED ticket of a station becomes MISSED, and the station calls another. -/
theorem Part.TicketRoom.call {p : Part} (h : p.TicketRoom) (st : StationNo) (t : Ticket) :
    ((p.missCalled st).callTicket st t).TicketRoom := by
  have hmiss : (p.missCalled st).TicketRoom := by
    unfold Part.missCalled
    split
    · exact h
    · exact ⟨h.waiting, joinMissed_length _ _ h.missed, h.calls, h.lists⟩
  refine ⟨hmiss.waiting, hmiss.missed, List.length_take_le _ _, fun l hl => ?_⟩
  rcases List.mem_append.1 (show l ∈ (p.missCalled st).ml.display ++ [_] from hl) with hl | hl
  · exact hmiss.lists l hl
  · rw [List.mem_singleton.1 hl]
    exact List.length_take_le _ _

theorem ticketRoom_move {c : Instr} {k : Nat} {p q : Part} (m : Move c k p q) (h : p.TicketRoom) : q.TicketRoom := by
  cases m with
  | quiet seen =>
    exact h.of_same (.of_seen seen) (congrArg Seen.display seen)
  | reset => exact ⟨Nat.zero_le _, Nat.zero_le _, Nat.zero_le _, nofun⟩
  | callsSent calls rest front => exact ⟨h.waiting, h.missed, h.calls, fun l hl => h.lists l (by rw [front]; exact .tail _ hl)⟩
  | orderOpened st operator =>
    refine ⟨?_, ?_, ?_, by simpa using h.lists⟩ <;> unfold Part.openOrder Part.bindTicket <;> dsimp only <;> split
    all_goals first | exact h.waiting | exact h.missed | exact h.calls
  | orderFreed o => exact h.of_same ((p.freeOrder o.number).endNoSale_same _) (by simp)
  | closingSettled n => exact h.of_same (p.settleClosing_same n) (by simp)
  | ticketCalled st t rest front =>
    refine Part.TicketRoom.call (p := { p with tc := { p.tc with waiting := rest } }) ⟨?_, h.missed, h.calls, h.lists⟩ st t
    have := h.waiting
    rw [front] at this
    exact (Nat.le_succ _).trans this
  | ticketRecalled st n m =>
    exact Part.TicketRoom.call (p := { p with tc := { p.tc with
      missed := removeFirst (fun m => m.ticket.number == n) p.tc.missed } })
      ⟨h.waiting, (length_removeFirst_le _ _).trans h.missed, h.calls, h.lists⟩ st m.ticket
  | ticketIssued d room => exact ⟨by simpa [Part.issue] using room, h.missed, h.calls, h.lists⟩
  | ticketExpired n => exact ⟨h.waiting, (length_removeFirst_le _ _).trans h.missed, h.calls, h.lists⟩
  | ticketsAbandoned =>
    refine ⟨Nat.zero_le _, Nat.zero_le _, Nat.zero_le _, fun l hl => ?_⟩
    rcases List.mem_append.1 (show l ∈ p.ml.display ++ [_] from hl) with hl | hl
    · exact h.lists l hl
    · rw [List.mem_singleton.1 hl]
      exact Nat.zero_le _
  | dayEnded d => exact ⟨h.waiting, h.missed, h.calls, h.lists⟩
  | lineWritten n owner f => exact h.of_same (.of_eq (by simp)) (by simp)
  | closeWritten n owner ticket count total label wait =>
    exact h.of_same ((TicketsSame.of_eq (by simp)).trans (Part.closeWritten_same _ n owner total label)) (by simp)
  | voidWritten n owner ticket value =>
    exact h.of_same ((TicketsSame.of_eq (by simp)).trans (Part.voidOrderWritten_same _ n owner value)) (by simp)
  | switched => exact h.of_same ⟨by simp, by simp, by simp, by simp, by simp⟩ (by simp)
  | faultEntered => exact h.of_same p.enterFault_same p.enterFault_failing.display
  | _ => exact h.of_same (.of_eq (by simp)) (by simp)


end Sys2Proof.Machine
end

