-- ==== Sys2Proof/Proofs/PrintQueue.lean ====
section
/-! The print queue at every move (R132, R133). -/

namespace Sys2Proof.Machine

/-! ## The print queue (R132, R133) -/

/-- The print queue within its capacity, and no job at a printer before its record is written. -/
structure Part.JobLaw (p : Part) : Prop where
  capacity : p.lu.queue.length ≤ Config.maxJobs
  released : p.Released

theorem Part.JobLaw.of_kept {p q : Part} (h : p.JobLaw) (kept : JobsKept p.lu.queue q.lu.queue) : q.JobLaw :=
  ⟨kept.length.trans h.capacity, kept.released h.released⟩

/-- A HELD job joins a print queue that has room. -/
theorem Part.JobLaw.join {p q : Part} (h : p.JobLaw) (room : p.printRoom = true) {j : Job} (away : j.atPrinter = false)
    (queue : q.lu.queue = p.lu.queue ++ [j]) : q.JobLaw := by
  refine ⟨?_, fun x hx hat => ?_⟩
  · rw [queue]
    simpa [Part.printRoom] using room
  · rw [queue] at hx
    rcases List.mem_append.1 hx with hx | hx
    · exact h.released x hx hat
    · rw [List.mem_singleton.1 hx, away] at hat
      cases hat

/-- A committed line leaves the print queue as it was, or adds the HELD ITEM job of its label. -/
theorem Part.addLine_jobs (p : Part) (o : Order) (f : LineFields) (a : Article) :
    (f.label = none ∧ (p.addLine o f a).lu = p.lu) ∨ ∃ n, f.label = some n ∧ (p.addLine o f a).lu = { p.lu with
      lastLabel := p.lu.nextLabel
      queue := p.lu.queue ++ [⟨.item, n, (p.config f.station).printer, false, false,
        lineContent .item n p.art.itemPrefix o.number o.owner f (some a)⟩] } := by
  have hlu : (p.addLine o f a).lu = ((p.updateOrder o.number (fun x =>
      { x with lines := x.lines ++ [⟨f, .pending⟩], total := x.total + f.linePrice })).makeItemLabel o f a).lu := by
    unfold Part.addLine Part.confirmLine Part.consumeSelection
    dsimp only
    split <;> simp
  rw [hlu]
  unfold Part.makeItemLabel
  cases f.label with
  | none => exact .inl ⟨rfl, rfl⟩
  | some n =>
    refine .inr ⟨n, rfl, ?_⟩
    simp only [Part.addJob_frame]
    rfl

/-- A sale close leaves the print queue as it was, or adds the HELD TOTAL job of its label. -/
theorem Part.makeTotalLabel_jobs (p : Part) (st : StationNo) (o : Order) (mode : makesTotal o.labelMode = true) :
    (p.makeTotalLabel st o).lu = { p.lu with
      lastLabel := p.lu.nextLabel
      queue := p.lu.queue ++ [⟨.total, p.lu.nextLabel, (p.config st).printer, false, false,
        totalDraft p.lu.nextLabel o.number o.owner o.ticket st⟩] } := by
  simp only [Part.makeTotalLabel, mode, if_true, Part.addJob_frame]
  rfl

theorem jobLaw_move {c : Instr} {k : Nat} {p q : Part} (m : Move c k p q) (h : p.JobLaw) : q.JobLaw := by
  have hsame : q.lu.queue = p.lu.queue → q.JobLaw := fun e => h.of_kept (e ▸ .refl _)
  cases m with
  | quiet seen => exact hsame (congrArg Seen.jobs seen)
  | reset => exact ⟨Nat.zero_le _, fun _ hj => absurd hj List.not_mem_nil⟩
  | lineAdded st o f a command trading active room index member department label =>
    rcases p.addLine_jobs o f a with ⟨-, hlu⟩ | ⟨n, hn, hlu⟩
    · exact hsame (by rw [hlu])
    · rcases label with hnone | ⟨-, hroom⟩
      · rw [hnone] at hn
        cases hn
      · exact h.join hroom (j := ⟨.item, n, (p.config f.station).printer, false, false,
          lineContent .item n p.art.itemPrefix o.number o.owner f (some a)⟩) rfl (by rw [hlu])
  | totalLabelled st o command running active mode room =>
    exact h.join room (j := ⟨.total, p.lu.nextLabel, (p.config st).printer, false, false,
      totalDraft p.lu.nextLabel o.number o.owner o.ticket st⟩) rfl (by rw [p.makeTotalLabel_jobs st o mode])
  | closingSettled n => exact h.of_kept (p.settleClosing_kept n)
  | jobAdded j room kind away => exact h.join room away rfl
  | jobsSettled queue length released => exact ⟨length.trans h.capacity, released h.released⟩
  | closeWritten n owner ticket count total label wait =>
    refine h.of_kept ?_
    have := (p.finishAppend (.close n owner ticket count total label wait)).closeWritten_kept n owner total label
    simpa using this
  | faultEntered => exact h.of_kept p.enterFault_kept
  | _ => exact hsame (by simp)


end Sys2Proof.Machine
end

