-- ==== Sys2Proof/Proofs/WriteQueue.lean ====
section
/-! The write queue, the host input buffer and the sectors at every move (R145, R147, R190). -/

namespace Sys2Proof.Machine

/-! ## The write queue and the frames (R147, R190) -/

theorem places_move {c : Instr} {k : Nat} {p q : Part} (m : Move c k p q) (h : p.tj.queue.length ≤ Config.queuePlaces) :
    q.tj.queue.length ≤ Config.queuePlaces := by
  have htake : ∀ {r : Part} {x : Place}, r.hasPlace = true → (r.takePlace x).tj.queue.length ≤ Config.queuePlaces := by
    intro r x hr
    simp only [Part.hasPlace, Bool.and_eq_true, decide_eq_true_eq] at hr
    simpa [Part.takePlace, Part.withQueue] using hr.2
  have hwait : ∀ r : Record, (p.queueOrWait r).tj.queue.length ≤ Config.queuePlaces := by
    intro r
    unfold Part.queueOrWait
    split
    · rename_i hr
      exact htake hr
    · exact h
  cases m with
  | quiet seen =>
    rw [show q.tj.queue = p.tj.queue from congrArg Seen.queue seen]
    exact h
  | reset => exact Nat.zero_le _
  | changeApplied base es => exact hwait _
  | lineAdded st o f a command trading active room index member department label place =>
    have hqueue : (p.addLine o f a).tj.queue = p.tj.queue ++ [.filled (.line o.number o.owner f)] := by
      unfold Part.addLine Part.confirmLine Part.consumeSelection
      dsimp only
      split <;> simp [Part.queueRecord, Part.takePlace, Part.withQueue]
    rw [hqueue]
    simpa [Part.takePlace, Part.withQueue] using htake (x := .filled (.line o.number o.owner f)) place
  | closingBegun o kind order state place => exact htake (r := (p.setClosing o.number kind .waiting).unbind o.number) place
  | closingSettled n => exact Part.settleClosing_length h
  | recordQueued r plain place => exact htake place
  | storedQueued g => exact hwait _
  | dayCloseBegun d running empty place => exact htake place
  | lineWritten => exact Part.finishAppend_length h
  | closeWritten => simpa using Part.finishAppend_length h
  | voidWritten => simpa using Part.finishAppend_length h
  | plainWritten => exact Part.finishAppend_length h
  | switched => simpa using Part.finishAppend_length h
  | faultEntered =>
    exact enterFault_keeps (P := fun q => q.tj.queue.length ≤ Config.queuePlaces)
      ((List.length_filter_le _ _).trans h) (fun _ _ h => Part.recordFailed_length h) fun _ _ h => h
  | _ => simpa using h

theorem frames_move {c : Instr} {k : Nat} {p q : Part} (m : Move c k p q) (h : p.ml.buffer.length ≤ Config.maxFrames) :
    q.ml.buffer.length ≤ Config.maxFrames := by
  cases m with
  | quiet seen =>
    rw [show q.ml.buffer = p.ml.buffer from congrArg Seen.buffer seen]
    exact h
  | reset => exact Nat.zero_le _
  | frameTaken f rest front =>
    rw [front] at h
    exact (Nat.le_succ _).trans h
  | frameJoined f room => simpa using room
  | faultEntered => rw [p.enterFault_failing.buffer]; exact h
  | _ => simpa using h

/-! ## Sectors (R145) -/

theorem sectors_move {c : Instr} {k : Nat} {p q : Part} (m : Move c k p q) :
    q.nv.sectors.length = p.nv.sectors.length := by
  have hfinish : ∀ r, (p.finishAppend r).nv.sectors.length = p.nv.sectors.length := by
    intro r
    have hstore : (p.storeRecord r).nv.sectors.length = p.nv.sectors.length := by
      unfold Part.storeRecord
      split <;> simp [Part.onSector]
    simpa [Part.finishAppend] using hstore
  cases m with
  | quiet seen => exact congrArg (fun x => x.sectors.length) seen
  | reset => exact p.cutWrites_sectors.1
  | lineWritten => exact hfinish _
  | closeWritten => simpa using hfinish _
  | voidWritten => simpa using hfinish _
  | plainWritten => exact hfinish _
  | switched => simpa using hfinish _
  | sectorsCleared sectors length => exact length
  | faultEntered => rw [p.enterFault_failing.nv]
  | _ => simp


end Sys2Proof.Machine
end

