-- ==== Sys2Proof/Proofs/Pool.lean ====
section
/-! The pool at every move (R89, R93, R177). -/

namespace Sys2Proof.Machine

/-! ## The pool (R93, R177) -/

/-- The pool has its 16 slots, all FREE while a day close is in flight. -/
structure Part.PoolLaw (p : Part) : Prop where
  slots : p.om.pool.length = Config.orderSlots
  empty : p.ClosesEmpty

theorem Part.PoolLaw.changed {p q : Part} (h : p.PoolLaw) {n : Nat} (pool : PoolChanged n p.om.pool q.om.pool)
    (counter : q.tt.counter = .closedClosing → p.tt.counter = .closedClosing) : q.PoolLaw := by
  obtain ⟨f, hf⟩ := pool
  refine ⟨by rw [hf, updatePool_length]; exact h.slots, fun hc => ?_⟩
  rw [hf]
  exact updatePool_none (h.empty (counter hc))

theorem Part.PoolLaw.of_eq {p q : Part} (h : p.PoolLaw) (pool : q.om.pool = p.om.pool)
    (counter : q.tt.counter = .closedClosing → p.tt.counter = .closedClosing) : q.PoolLaw :=
  h.changed (n := 0) (pool ▸ .refl _ _) counter

theorem placeOrder_length (o : Order) (pool : List (Option Order)) : (placeOrder o pool).length = pool.length := by
  induction pool with
  | nil => rfl
  | cons slot rest ih =>
    cases slot with
    | none => rfl
    | some x => simp [placeOrder, ih]

theorem Part.recordFailed_pool {p : Part} (r : Record) (h : p.PoolLaw) : (p.recordFailed r).PoolLaw := by
  have hclosing : ∀ n kind, (p.closingFailed n kind).PoolLaw := fun n kind => by
    unfold Part.closingFailed
    split
    · exact h
    · rename_i o _
      refine h.changed (n := o.number) ?_ (by simp)
      rw [(Part.failClosing_om _ _ _).1]
      exact ⟨_, rfl⟩
  cases r with
  | line n owner f =>
    have hstart : (p.updateOrder n (fun o => { o with
        lines := removeFirst (fun l => l.fields.index == f.index) o.lines, total := o.total - f.linePrice })).PoolLaw :=
      h.changed ⟨_, rfl⟩ id
    have hsettle : ∀ q : Part, q.PoolLaw → (q.settleClosing n).PoolLaw := fun q hq =>
      hq.changed (q.settleClosing_pool n) (by simp)
    refine hsettle _ ?_
    unfold Part.onItemJob
    dsimp only
    split <;> exact hstart.of_eq rfl id
  | close n => exact hclosing n .sale
  | voidOrder n => exact hclosing n .void
  | priceApply =>
    simp only [Part.recordFailed, Part.failApply]
    split <;> exact h.of_eq rfl id
  | priceStored =>
    simp only [Part.recordFailed, Part.failStore]
    split <;> exact h.of_eq rfl id
  | dayClose d => exact h.of_eq rfl nofun
  | _ => exact h.of_eq rfl id

theorem poolLaw_move {c : Instr} {k : Nat} {p q : Part} (m : Move c k p q) (h : p.PoolLaw) : q.PoolLaw := by
  cases m with
  | quiet seen =>
    have hcounter : q.tt.counter = p.tt.counter := congrArg Seen.counter seen
    exact h.of_eq (congrArg (fun x => x.om.pool) seen) (hcounter ▸ id)
  | reset => exact ⟨rfl, nofun⟩
  | orderOpened st operator trading =>
    have hpool : (p.openOrder st operator).om.pool.length = p.om.pool.length := by
      unfold Part.openOrder
      simp [placeOrder_length]
    refine ⟨hpool.trans h.slots, fun hc => ?_⟩
    rw [Part.openOrder_frame p st operator |>.2.2.2.2.2.2.2.2.1, trading] at hc
    cases hc
  | lineAdded st o f a =>
    refine h.changed (n := o.number) ?_ (by simp)
    unfold Part.addLine Part.confirmLine Part.consumeSelection
    dsimp only
    split <;> simp <;> exact ⟨_, rfl⟩
  | orderParked st o => exact h.changed (n := o.number) ⟨_, rfl⟩ id
  | orderResumed st n o => exact h.changed (n := n) ⟨_, rfl⟩ id
  | orderFreed o =>
    refine h.changed (n := o.number) ?_ (by simp)
    rw [Part.endNoSale_frame _ _ |>.2.2.2.2.2.2.1]
    exact ⟨_, rfl⟩
  | totalLabelled st o command running active mode =>
    refine h.changed (n := o.number) ?_ (by simp)
    simp only [Part.makeTotalLabel, mode, if_true, Part.addJob_frame]
    exact ⟨_, rfl⟩
  | closingBegun o kind => exact h.changed (n := o.number) ⟨_, rfl⟩ id
  | closingSettled n => exact h.changed (p.settleClosing_pool n) (by simp)
  | lineVoided st o => exact h.changed (n := o.number) ⟨_, rfl⟩ id
  | dayCloseBegun d running empty =>
    refine ⟨by simpa using h.slots, fun _ slot hslot => ?_⟩
    simpa using List.all_eq_true.1 empty slot (by simpa using hslot)
  | counterSet x running state notClosing => exact ⟨h.slots, fun hc => absurd hc notClosing⟩
  | dayEnded d => exact h.of_eq rfl nofun
  | lineWritten n owner f =>
    refine h.changed (n := n) ?_ (by simp)
    simp only [Part.updateOrder, Part.finishAppend_frame]
    exact ⟨_, rfl⟩
  | closeWritten n owner ticket count total label wait =>
    refine h.changed (n := n) ?_ (by simp)
    unfold Part.closeWritten
    split
    · simpa using PoolChanged.refl n p.om.pool
    · rw [Part.freeOrder_pool, Part.endServed_frame _ _ |>.2.2.2.2.2.2.1,
        (Part.onTotalJob_frame _ _ (fun q k => q.releaseJob .total k) fun _ _ => ⟨rfl, rfl, rfl⟩).1]
      simp only [Part.onAccumulators, Part.finishAppend_frame]
      exact ⟨_, rfl⟩
  | voidWritten n owner ticket value =>
    refine h.changed (n := n) ?_ (by simp)
    unfold Part.voidOrderWritten
    split
    · simpa using PoolChanged.refl n p.om.pool
    · rw [Part.freeOrder_pool, Part.endNoSale_frame _ _ |>.2.2.2.2.2.2.1]
      simp only [Part.onAccumulators, Part.finishAppend_frame]
      exact ⟨_, rfl⟩
  | faultEntered =>
    exact enterFault_keeps (P := Part.PoolLaw) ⟨h.slots, h.empty⟩ (fun _ r h => Part.recordFailed_pool r h)
      fun _ _ h => ⟨h.slots, h.empty⟩
  | _ => exact h.of_eq (by simp) (by simp)

end Sys2Proof.Machine
end

