-- ==== Sys2Proof/Proofs/Invariant.lean ====
section
/-! The laws that every step keeps, put together (O53), and the state right after reset (O52). -/

namespace Sys2Proof.Machine

/-- The laws of the part, block by block. -/
structure Part.Blocks (p : Part) : Prop where
  clerks : p.ClerkLaw
  changes : p.ChangeLaw
  sectors : p.nv.sectors.length = Config.sectors
  accumulators : p.tt.accumulators.Kept
  audit : p.AuditLaw
  tickets : p.TicketRoom
  jobs : p.JobLaw
  places : p.tj.queue.length ≤ Config.queuePlaces
  frames : p.ml.buffer.length ≤ Config.maxFrames
  pool : p.PoolLaw

/-- Every audit entry has its number. -/
theorem Part.Audited.length_le {p : Part} (h : p.Audited) : p.nv.audit.length ≤ p.nv.auditCounter := by
  unfold Part.Audited at h
  rw [h]
  split
  · exact Nat.le_succ _
  · exact le_refl _

theorem Part.blocks_iff (p : Part) : p.Blocks ↔ p.Inv := by
  constructor
  · intro h
    exact {
      fits := {
        clerks := ⟨h.clerks.capacity, h.clerks.same ▸ h.clerks.capacity⟩
        changes := fun base es he => (h.changes base es he).1
        sectors := h.sectors
        articleMap := h.accumulators.articleRoom
        clerkEntries := h.accumulators.clerkRoom
        audit := ⟨h.audit.capacity, h.audit.audited.length_le.trans h.audit.capacity⟩
        waiting := h.tickets.waiting
        missed := h.tickets.missed
        calls := h.tickets.calls
        lists := h.tickets.lists
        jobs := h.jobs.capacity
        places := h.places
        frames := h.frames
        slots := h.pool.slots }
      ordered := {
        clerks := ⟨h.clerks.ascending, h.clerks.same⟩
        changes := fun base es he => (h.changes base es he).2
        articleMap := h.accumulators.articles
        clerkEntries := h.accumulators.clerks }
      granted := ⟨h.clerks.granted, h.audit.commit⟩
      released := h.jobs.released
      audited := h.audit.audited
      closesEmpty := h.pool.empty }
  · intro h
    exact {
      clerks := ⟨h.fits.clerks.1, h.ordered.clerks.1, h.ordered.clerks.2, h.granted.clerk⟩
      changes := fun base es he => ⟨h.fits.changes base es he, h.ordered.changes base es he⟩
      sectors := h.fits.sectors
      accumulators := ⟨h.fits.articleMap, h.ordered.articleMap, h.fits.clerkEntries, h.ordered.clerkEntries⟩
      audit := ⟨h.fits.audit.1, h.audited, h.granted.commit⟩
      tickets := ⟨h.fits.waiting, h.fits.missed, h.fits.calls, h.fits.lists⟩
      jobs := ⟨h.fits.jobs, h.released⟩
      places := h.fits.places
      frames := h.fits.frames
      pool := ⟨h.fits.slots, h.closesEmpty⟩ }

theorem blocks_move {c : Instr} {k : Nat} {p q : Part} (m : Move c k p q) (h : p.Blocks) : q.Blocks :=
  { clerks := clerkLaw_move m h.clerks
    changes := changeLaw_move m h.changes
    sectors := (sectors_move m).trans h.sectors
    accumulators := accumulators_move m h.accumulators
    audit := auditLaw_move m h.audit
    tickets := ticketRoom_move m h.tickets
    jobs := jobLaw_move m h.jobs
    places := places_move m h.places
    frames := frames_move m h.frames
    pool := poolLaw_move m h.pool }

theorem inv_move {c : Instr} {k : Nat} {p q : Part} (m : Move c k p q) (h : p.Inv) : q.Inv :=
  q.blocks_iff.1 (blocks_move m (p.blocks_iff.2 h))

theorem Part.sealAll_length (p : Part) (r : Reading) (failed : List Nat) :
    (p.sealAll r failed).nv.sectors.length = p.nv.sectors.length := by
  have hseal : ∀ (q : Part) (s : Indexed) (records : List Stored),
      (q.sealSector failed s records).nv.sectors.length = q.nv.sectors.length := by
    intro q s records
    unfold Part.sealSector
    dsimp only
    split <;> simp [Part.onSector, Part.latchStore, Part.latch]
  have hfold : ∀ (l : List Indexed) (q : Part),
      (l.foldl (fun q t => q.sealSector failed t []) q).nv.sectors.length = q.nv.sectors.length := by
    intro l
    induction l with
    | nil => exact fun _ => rfl
    | cons a l ih => exact fun q => (ih _).trans (hseal q a [])
  unfold Part.sealAll
  split
  · rfl
  · exact (hfold _ _).trans (hseal _ _ _)

theorem Part.endScan_sectors (p : Part) (x : List Nat) : (p.endScan x).nv.sectors
    = (Part.sealAll { p with nv := { p.nv with sectors := surveyed p.nv.sectors } } p.reading x).nv.sectors := by
  have hroll : ∀ (q : Part) (rs : List Record), (q.rollForward rs).nv = q.nv := by
    intro q rs
    unfold Part.rollForward
    dsimp only
    split <;> rfl
  have hjudged : (p.endScan x).nv.sectors = (p.scanned x).nv.sectors := by
    have h := (p.scanned x).judged_seen.1
    rw [← p.endScan_eq] at h
    generalize p.endScan x = q at h ⊢
    generalize p.scanned x = r at h ⊢
    exact congrArg Seen.sectors h
  rw [hjudged]
  show ((p.takeSectors (surveyed p.nv.sectors) p.reading x).rollForward p.reading.records).nv.sectors = _
  rw [hroll]
  rfl

theorem blocks_endScan {p : Part} {x : List Nat} (h : p.Blocks) : (p.endScan x).Blocks :=
  { clerks := h.clerks.of_eq (by simp) (by simp) fun _ => Part.awaited_of_held (by simp) _
    changes := h.changes.of_content (by simp)
    sectors := by
      rw [p.endScan_sectors, Part.sealAll_length]
      simpa [surveyed] using h.sectors
    accumulators := by
      rw [show (p.endScan x).tt.accumulators = (rebuild p.sinceScan.2).accumulators by simp]
      exact rebuild_kept _
    audit := h.audit.of_eq (by simp) (by simp) (by simp) (by simp)
    tickets := by
      refine ⟨by simpa using h.tickets.waiting, by simpa using h.tickets.missed, by simpa using h.tickets.calls, fun l hl => ?_⟩
      rw [show (p.endScan x).ml.display = p.ml.display ++ [p.tc.callList] by simp] at hl
      rcases List.mem_append.1 hl with hl | hl
      · exact h.tickets.lists l hl
      · rw [List.mem_singleton.1 hl]
        exact h.tickets.calls
    jobs := h.jobs.of_kept (by simpa using JobsKept.refl p.lu.queue)
    places := by simpa using h.places
    frames := by simpa using h.frames
    pool := h.pool.of_eq (by simp) (by simp) }

/-! ## The clock -/

theorem runs_move {c : Instr} {k : Nat} {p q : Part} (m : Move c k p q) (h : p.time.Runs) : q.time.Runs := by
  cases m with
  | quiet seen time => exact time h
  | reset cause time command runs => exact runs h
  | faultEntered => rw [p.enterFault_failing.time]; exact h
  | _ => simpa using h

/-- Settles O53: the laws are those of the blocks, each of which every move and the end of the scan keep. -/
theorem stepKeepsTheLaws : Obligations.StepKeepsTheLaws := by
  refine ⟨fun s t hinv h => ?_, fun s t hruns h => ?_⟩
  · refine t.part.blocks_iff.1 (step_keeps h (s.part.blocks_iff.2 hinv) blocks_move fun _ => blocks_endScan)
  · exact step_keeps (P := fun p => p.time.Runs) h hruns runs_move fun _ h => by simpa using h

/-! ## The state right after reset -/

theorem reset_orders : State.reset.part.om.orders = [] := rfl

theorem reset_inv : State.reset.part.Inv :=
  (Part.blocks_iff _).1
    { clerks := ⟨Nat.zero_le _, .nil, rfl, nofun⟩
      changes := nofun
      sectors := rfl
      accumulators := Accumulators.zero_kept
      audit := ⟨Nat.zero_le _, rfl, nofun⟩
      tickets := ⟨Nat.zero_le _, Nat.zero_le _, Nat.zero_le _, nofun⟩
      jobs := ⟨Nat.zero_le _, fun _ h => absurd h List.not_mem_nil⟩
      places := Nat.zero_le _
      frames := Nat.zero_le _
      pool := ⟨rfl, nofun⟩ }

theorem reset_bound : State.reset.part.Bound := by
  refine ⟨.nil, fun st n => ?_, .nil, nofun, nofun, nofun, nofun, fun _ => Nat.zero_le _⟩
  have hactive : State.reset.part.om.active.get st = none := by cases st <;> rfl
  simp [hactive, reset_orders]

theorem reset_ticketed : State.reset.part.Ticketed :=
  ⟨.nil, nofun, Nat.zero_le _, fun _ _ => ⟨nofun, nofun⟩, Nat.zero_le _, .nil⟩

theorem reset_priced : State.reset.part.Priced := ⟨nofun, nofun, .nil, nofun, nofun, nofun, nofun⟩

theorem reset_balanced : State.reset.part.Balanced := ⟨⟨rfl, ⟨rfl, rfl⟩, rfl, rfl⟩, nofun, nofun, nofun, nofun⟩

theorem reset_labelled : State.reset.part.Labelled := by
  have hrecords : State.reset.part.recordLabels = [] := rfl
  have hjobs : State.reset.part.jobLabels = [] := rfl
  refine ⟨?_, ?_, fun h => absurd rfl h⟩
  · rw [hrecords]
    exact .nil
  · rw [hjobs]
    exact .nil

/-- Settles O52: every collection is empty, the counter is STARTING and the clock reads 2000-01-01 00:00:00. -/
theorem lawsHoldAtReset : Obligations.LawsHoldAtReset :=
  ⟨reset_inv, reset_bound, ⟨.nil, .nil⟩, reset_ticketed, reset_priced, reset_balanced,
    ⟨nofun, fun _ => rfl, fun _ => rfl, rfl⟩, ⟨Nat.zero_le _, nofun⟩, reset_labelled, TimeBase.powerOn_runs⟩

end Sys2Proof.Machine
end


-- ==== Sys2Proof/Proofs/Conditions.lean ====
section
/-! Conditions and notices (R194, R195): what a latch leaves of the pending notices, what clearing a list of conditions leaves of
the flags and the notices, and the reply of each request of the group. -/

namespace Sys2Proof.Machine

/-! ## Latching (R194) -/

/-- A latch makes a notice pending when the flag was clear, the notice is enabled and none is pending for the condition. -/
theorem Part.latch_notices_new {p : Part} {c : Condition} (x : Option Detail) (hflag : (p.ml.latches.get c).flag = false)
    (henabled : p.ml.enables.get c = true) (hpending : c ∉ p.ml.notices) :
    (p.latch c x).ml.notices = p.ml.notices ++ [c] := by
  simp [Part.latch, hflag, henabled, hpending]

theorem Part.latch_notices_old {p : Part} {c : Condition} (x : Option Detail)
    (h : (p.ml.latches.get c).flag = true ∨ p.ml.enables.get c = false ∨ c ∈ p.ml.notices) :
    (p.latch c x).ml.notices = p.ml.notices := by
  rcases h with hflag | hdisabled | hpending
  · simp [Part.latch, hflag]
  · simp [Part.latch, hdisabled]
  · simp [Part.latch, hpending]

/-! ## Clearing (R195) -/

theorem Part.foldl_clear_latches (named : List Condition) (p : Part) (c : Condition) :
    (named.foldl Part.clear p).ml.latches.get c = if c ∈ named then ⟨false, none⟩ else p.ml.latches.get c := by
  induction named generalizing p with
  | nil => simp
  | cons d named ih =>
    have hone : (p.clear d).ml.latches.get c = if c = d then ⟨false, none⟩ else p.ml.latches.get c :=
      PerCondition.get_set _ _ _ _
    rw [List.foldl_cons, ih, hone]
    by_cases hin : c ∈ named <;> by_cases heq : c = d <;> simp [hin, heq]

theorem Part.foldl_clear_notices (named : List Condition) (p : Part) :
    (named.foldl Part.clear p).ml.notices = p.ml.notices.filter (fun c => c ∉ named) := by
  induction named generalizing p with
  | nil => simp
  | cons d named ih =>
    have hone : (p.clear d).ml.notices = p.ml.notices.filter (fun c => c != d) := rfl
    rw [List.foldl_cons, ih, hone, List.filter_filter]
    refine List.filter_congr fun c _ => ?_
    by_cases heq : c = d <;> simp [heq]

theorem Part.foldl_clear_enables (named : List Condition) (p : Part) :
    (named.foldl Part.clear p).ml.enables = p.ml.enables := by
  induction named generalizing p with
  | nil => rfl
  | cons d named ih => exact ih (p.clear d)

/-! ## The services -/

theorem serveClearConditions_refuses {named : List (Option Condition)} (h : named = [] ∨ none ∈ named) (p : Part) :
    serveClearConditions named p = (p, .refuse .badValue) := by
  have htest : (named.isEmpty || named.any Option.isNone) = true := by
    rcases h with rfl | hnone
    · rfl
    · rw [Bool.or_eq_true]
      exact .inr (List.any_eq_true.2 ⟨none, hnone, rfl⟩)
  rw [serveClearConditions, if_pos htest]

theorem serveClearConditions_clears {named : List Condition} (h : named ≠ []) (p : Part) :
    serveClearConditions (named.map some) p = (named.foldl Part.clear p, .done .nothing) := by
  simp [serveClearConditions, h]

/-! ## The commands -/

theorem exec_notice {s : State} {c : Condition} {rest : List Condition} (hs : s.runs) (h : s.part.ml.notices = c :: rest)
    (hc : s.part.tt.counter ≠ .starting) :
    exec .notice s = .next { s with part := { s.part with ml := { s.part.ml with
      notices := rest, sentNotice := some (.condition c (s.part.ml.latches.get c).detail) } } } := by
  have hsend : s.part.sendNotice = { s.part with ml := { s.part.ml with
      notices := rest, sentNotice := some (.condition c (s.part.ml.latches.get c).detail) } } := by
    unfold Part.sendNotice
    split
    case h_1 hstart => exact absurd hstart hc
    case h_2 hnil _ => rw [h] at hnil; cases hnil
    case h_3 hcons _ => rw [h] at hcons; cases hcons; rfl
  exact (State.act_runs hs Part.sendNotice).trans (by rw [hsend])

/-- No notice is sent before STARTED (R192). -/
theorem exec_notice_starting {s : State} (hs : s.runs) (hc : s.part.tt.counter = .starting) : exec .notice s = .next s := by
  have hsend : s.part.sendNotice = s.part := by simp [Part.sendNotice, hc]
  exact (State.act_runs hs Part.sendNotice).trans (by rw [hsend])

/-- Settles O7: the notice and the latch by the rules above, and each request by its service. -/
theorem conditionsAndNotices : Obligations.ConditionsAndNotices := by
  refine ⟨⟨fun s c rest hs h => ⟨exec_notice hs h, exec_notice_starting hs⟩, fun p c x => ⟨?_, fun d hd => ?_, ?_, ?_⟩⟩,
    fun s tag => ⟨fun e hs => ?_, fun hs => ?_, fun named hs h => ?_, fun named hs h => ?_⟩⟩
  · rw [Part.latch_get, if_pos rfl]
  · rw [Part.latch_get, if_neg hd]
  · exact Part.latch_notices_new x
  · exact Part.latch_notices_old x
  · exact State.serve_now hs rfl
  · exact State.serve_reading hs rfl
  · exact State.serve_now hs (serveClearConditions_refuses h _)
  · exact ⟨named.foldl Part.clear s.part.taken, State.serve_now hs (serveClearConditions_clears h _),
      Part.foldl_clear_latches named _, Part.foldl_clear_notices named _, Part.foldl_clear_enables named _⟩

end Sys2Proof.Machine
end


-- ==== Sys2Proof/Proofs/Status.lean ====
section
/-! HELLO and STATUS (R193): the two requests that R191 lets through in every counter state, and what their reports hold. -/

namespace Sys2Proof.Machine

/-- A request that R191 lets through in every counter state is answered, and one that only reads keeps the part. -/
theorem State.report_always {s : State} {tag : Nat} {req : HostRequest} (hd : s.dispatches tag req) (ht : tag ≠ 0)
    (hreq : servedDuringScan req = true) {report : Part → Answer} {body : ReplyBody}
    (hr : report s.part.taken = .now body) :
    s.act (fun p => p.dispatch tag req (reading report)) = .next (s.replied s.part.taken tag req body) := by
  by_cases hc : s.part.tt.counter = .starting
  · rw [State.act_runs hd.1, Part.dispatch_starting hd ht hc, if_pos hreq, reading, hr]
    rfl
  · exact State.serve_reading ⟨hd, ht, hc⟩ hr

/-- A condition stands in the report of STATUS exactly when its flag is set. -/
theorem Part.mem_setConditions (p : Part) (c : Condition) : c ∈ p.setConditions ↔ (p.ml.latches.get c).flag = true := by
  have hall : c ∈ Condition.all := by cases c <;> decide
  simp [Part.setConditions, hall]

/-- What the scan has not rebuilt is unknown while the counter is STARTING. -/
theorem Part.known_eq {α : Type} (p : Part) (x : α) :
    p.known x = if p.tt.counter = .starting then none else some x := by
  by_cases h : p.tt.counter = .starting <;> simp [Part.known, Part.scanEnded, h]

/-- Settles O8: both are let through by R191, and each field of the report is read off the part. -/
theorem helloAndStatusAnswerAlways : Obligations.HelloAndStatusAnswerAlways := by
  intro s tag ht
  refine ⟨fun hd => State.report_always hd ht rfl rfl, fun hd => ?status⟩
  case status =>
    refine ⟨_, State.report_always hd ht rfl rfl, rfl, Part.mem_setConditions _, rfl,
      fun st => ⟨PerStation.get_map _ _ st, PerStation.get_map _ _ st⟩, fun pr => ?printers, Part.known_eq _ _,
      Part.known_eq _ _, rfl, Part.known_eq _ _, rfl, rfl, rfl⟩
    case printers => cases pr <;> rfl

end Sys2Proof.Machine
end


-- ==== Sys2Proof/Proofs/Checking.lean ====
section
/-! An ordered list of checks, read off one check at a time: what a check that passes, one that fails, a value that is found and
one that is missing make of the checks behind them; and what a range holds. -/

namespace Sys2Proof.Machine

@[simp] theorem check_true (r : Reason) : check true r = .ok () := rfl

@[simp] theorem check_false (r : Reason) : check false r = .error r := rfl

@[simp] theorem need_some {α : Type} (x : α) (r : Reason) : need (some x) r = .ok x := rfl

@[simp] theorem need_none {α : Type} (r : Reason) : need (none : Option α) r = .error r := rfl

@[simp] theorem ok_bind {ε α β : Type} (x : α) (f : α → Except ε β) : (Except.ok x >>= f) = f x := rfl

@[simp] theorem error_bind {ε α β : Type} (e : ε) (f : α → Except ε β) : (Except.error e >>= f) = .error e := rfl

@[simp] theorem pure_eq_ok {ε α : Type} (x : α) : (pure x : Except ε α) = .ok x := rfl

theorem within_true {a b n : Nat} : within a b n = true ↔ a ≤ n ∧ n ≤ b := by simp [within]

theorem within_false {a b n : Nat} : within a b n = false ↔ n < a ∨ b < n := by
  rw [← Bool.not_eq_true, within_true]
  omega

/-- A key is found in a list exactly when an element has it. -/
theorem lookup_isSome_iff {α : Type} (key : α → Nat) (n : Nat) (l : List α) :
    (lookup key n l).isSome = true ↔ ∃ x ∈ l, key x = n := by
  simp [lookup]

theorem lookup_eq_none_iff {α : Type} (key : α → Nat) (n : Nat) (l : List α) :
    lookup key n l = none ↔ ∀ x ∈ l, key x ≠ n := by
  simp [lookup]

theorem key_of_lookup {α : Type} {key : α → Nat} {n : Nat} {l : List α} {x : α} (h : lookup key n l = some x) : key x = n := by
  simpa using List.find?_some h

end Sys2Proof.Machine
end


-- ==== Sys2Proof/Proofs/ChangeSets.lean ====
section
/-! The change-set requests of AT (R54 to R63): the present time as the last-message time of an OPEN set, the checks of each
request in their order, and the part that each leaves. -/

namespace Sys2Proof.Machine

/-! ## The last-message time (R59) -/

/-- The part whose OPEN set has taken the present time as its last-message time. -/
def Part.touched (p : Part) (base : Nat) (es : List ChangeEntry) : Part :=
  { p with art := { p.art with changeSet := .opened base es p.time.elapsed } }

theorem Part.touchChange_opened {p : Part} {base last : Nat} {es : List ChangeEntry}
    (h : p.art.changeSet = .opened base es last) : p.touchChange = p.touched base es := by
  simp only [Part.touchChange, h]
  rfl

theorem Part.touchChange_unopened {p : Part} (h : ∀ base es last, p.art.changeSet ≠ .opened base es last) :
    p.touchChange = p := by
  unfold Part.touchChange
  split
  · exact absurd ‹_› (h _ _ _)
  · rfl

/-- The last-message time changes nothing that the checks of a request read, but the time itself. -/
@[simp] theorem Part.touchChange_frame (p : Part) :
    p.touchChange.art.generation = p.art.generation ∧ p.touchChange.art.storeBack = p.art.storeBack := by
  unfold Part.touchChange
  split <;> exact ⟨rfl, rfl⟩

theorem Part.touchChange_none_iff (p : Part) : p.touchChange.art.changeSet = .none ↔ p.art.changeSet = .none := by
  unfold Part.touchChange
  split
  · next h => simp [Part.withChangeSet, h]
  · rfl

/-! ## BEGIN CHANGE (R55) -/

section
variable {p : Part} {base : Nat}

theorem serveBeginChange_refused {r : Reason} (h : p.touchChange.beginChecks base = .error r) :
    serveBeginChange base p = (p.touchChange, p.touchChange.refuseApply r) := by
  simp only [serveBeginChange, h]

theorem Part.touchChange_of_none (h : p.art.changeSet = .none) : p.touchChange = p :=
  Part.touchChange_unopened fun _ _ _ => by simp [h]

theorem serveBeginChange_occupied (h : p.art.changeSet ≠ .none) :
    serveBeginChange base p = (p.touchChange, .refuse .busy) := by
  have hset : p.touchChange.art.changeSet ≠ .none := (Part.touchChange_none_iff p).not.2 h
  exact serveBeginChange_refused (by simp [Part.beginChecks, hset])

theorem serveBeginChange_storing {g : Nat} {stage : StoreStage} {later : List OwedGeneration} (h : p.art.changeSet = .none)
    (hs : p.art.storeBack = .storing g stage later) : serveBeginChange base p = (p, .refuse .busy) := by
  have hr := serveBeginChange_refused (p := p) (base := base) (r := .busy)
    (by simp [Part.beginChecks, Part.touchChange_of_none h, h, hs])
  rwa [Part.touchChange_of_none h] at hr

theorem serveBeginChange_owed {g : Nat} (h : p.art.changeSet = .none) (hs : p.art.storeBack = .owed g) :
    serveBeginChange base p = (p, .refuse .storeFault) := by
  have hr := serveBeginChange_refused (p := p) (base := base) (r := .storeFault)
    (by simp [Part.beginChecks, Part.touchChange_of_none h, h, hs])
  rwa [Part.touchChange_of_none h] at hr

theorem serveBeginChange_mismatch (h : p.art.changeSet = .none) (hs : p.art.storeBack = .idle)
    (hb : base ≠ p.art.generation) :
    serveBeginChange base p = (p, .now (.refused .generationMismatch (some p.art.generation))) := by
  have hr := serveBeginChange_refused (p := p) (base := base) (r := .generationMismatch)
    (by simp [Part.beginChecks, Part.touchChange_of_none h, h, hs, hb])
  rwa [Part.touchChange_of_none h] at hr

theorem serveBeginChange_begins (h : p.art.changeSet = .none) (hs : p.art.storeBack = .idle)
    (hb : base = p.art.generation) :
    serveBeginChange base p = (p.touched base [], .done (.generation p.art.generation)) := by
  have hok : p.beginChecks base = .ok () := by simp [Part.beginChecks, h, hs, hb]
  simp only [serveBeginChange, Part.touchChange_of_none h, hok]
  rfl

end

/-- Settles O13: one rule of the service for each check of R55. -/
theorem beginChangeOpensTheSet : Obligations.BeginChangeOpensTheSet := by
  intro s tag base hs
  refine ⟨fun hset => ?occupied, fun hset ⟨_, _, _, hstore⟩ => ?storing, fun hset ⟨_, hstore⟩ => ?owed,
    fun hset hstore hbase => ?mismatch, fun hset hstore hbase => ?begins⟩
  case occupied => exact State.serve_now hs (serveBeginChange_occupied hset)
  case storing => exact State.serve_now hs (serveBeginChange_storing hset hstore)
  case owed => exact State.serve_now hs (serveBeginChange_owed hset hstore)
  case mismatch => exact State.serve_now hs (serveBeginChange_mismatch hset hstore hbase)
  case begins => exact State.serve_now hs (serveBeginChange_begins hset hstore hbase)

end Sys2Proof.Machine
end


-- ==== Sys2Proof/Proofs/Staging.lean ====
section
/-! The staged requests of a change set (R33, R34, R56 to R59): which entries can join, the record of a STAGE PUT, the checks of
each request in their order, what CHANGE STATUS reports, and the expiry of an OPEN set. -/

namespace Sys2Proof.Machine

/-! ## Room for an entry (R34, R56) -/

theorem stageRoom_iff {es : List ChangeEntry} {n : Nat} :
    stageRoom es n = true ↔ (∃ e ∈ es, e.number = n) ∨ es.length < 64 := by
  simp only [stageRoom, hasEntry, Bool.or_eq_true, lookup_isSome_iff, decide_eq_true_iff]
  rfl

theorem Part.article_isSome_iff (p : Part) (n : Nat) : (p.article n).isSome = true ↔ ∃ b ∈ p.art.table, b.number = n :=
  lookup_isSome_iff _ _ _

theorem Part.article_isNone_eq (p : Part) (n : Nat) : (p.article n).isNone = decide (∀ b ∈ p.art.table, b.number ≠ n) := by
  rw [Bool.eq_iff_iff, decide_eq_true_iff, Option.isNone_iff_eq_none]
  exact lookup_eq_none_iff _ _ _

theorem any_isPut_iff (o : Option ChangeEntry) : o.any ChangeEntry.isPut = true ↔ ∃ b, o = some (.put b) := by
  rcases o with _ | e
  · simp
  · cases e <;> simp [ChangeEntry.isPut]

theorem Part.roomFor_iff {p : Part} {es : List ChangeEntry} {n : Nat} : p.roomFor es n = true ↔
    (∃ b ∈ p.art.table, b.number = n) ∨ (∃ b, lookup ChangeEntry.number n es = some (.put b))
      ∨ p.art.table.length
        + (es.filter (fun e => e.isPut && decide (∀ b ∈ p.art.table, b.number ≠ e.number))).length < 2000 := by
  simp only [Part.roomFor, Part.roomCount, Bool.or_eq_true, Part.article_isSome_iff, any_isPut_iff, Part.article_isNone_eq,
    decide_eq_true_iff, or_assoc]
  rfl

/-! ## The record of a STAGE PUT (R33) -/

/-- The fields that R33 checks in a record of every kind. -/
def CommonFields (f : ArticleFields) : Prop :=
  1 ≤ f.number ∧ f.number ≤ 99999 ∧ 1 ≤ f.unitPrice ∧ f.unitPrice ≤ 99999 ∧ 1 ≤ f.department ∧ f.department ≤ 16
    ∧ 1 ≤ f.name.length ∧ f.name.length ≤ 24 ∧ (∀ c ∈ f.name, 0x20 ≤ c.toNat ∧ c.toNat ≤ 0x7E)
    ∧ ∀ days, f.shelfLife = some days → 1 ≤ days ∧ days ≤ 99

/-- The fields that R33 checks in a WEIGHED record beside its rounding mode. -/
def WeighedFields (f : ArticleFields) : Prop :=
  (f.step = 1 ∨ f.step = 2 ∨ f.step = 5 ∨ f.step = 10) ∧ ∀ v, f.presetTare = some v → v ≤ 99999

theorem validText_iff {max : Nat} {t : Text} : validText max t = true ↔
    1 ≤ t.length ∧ t.length ≤ max ∧ ∀ c ∈ t, 0x20 ≤ c.toNat ∧ c.toNat ≤ 0x7E := by
  simp only [validText, Bool.and_eq_true, within_true, List.all_eq_true, and_assoc]

theorem shelfLife_iff (o : Option Nat) : within 1 99 (o.getD 1) = true ↔ ∀ days, o = some days → 1 ≤ days ∧ days ≤ 99 := by
  cases o <;> simp [within_true]

theorem commonFields_iff (f : ArticleFields) :
    (within 1 99999 f.number && within 1 99999 f.unitPrice && within 1 16 f.department && validText 24 f.name
      && within 1 99 (f.shelfLife.getD 1)) = true ↔ CommonFields f := by
  rw [Bool.and_eq_true, shelfLife_iff]
  simp only [Bool.and_eq_true, within_true, validText_iff, and_assoc, CommonFields]

theorem presetTare_iff (o : Option Nat) : o.getD 0 ≤ 99999 ↔ ∀ v, o = some v → v ≤ 99999 := by
  cases o <;> simp

theorem weighedFieldsOk_iff (f : ArticleFields) :
    weighedFieldsOk f = true ↔ f.rounding.isSome = true ∧ WeighedFields f := by
  simp only [weighedFieldsOk, Bool.and_eq_true, List.contains_iff_mem, List.mem_cons, List.not_mem_nil, or_false,
    decide_eq_true_iff, presetTare_iff, and_assoc, WeighedFields]

theorem articleOf_none {f : ArticleFields} (h : f.kind = none ∨ ¬ CommonFields f) : articleOf f = none := by
  rcases h with hkind | hcommon
  · simp [articleOf, hkind]
  · rw [← commonFields_iff] at hcommon
    cases hkind : f.kind with
    | none => simp [articleOf, hkind]
    | some k => simp only [articleOf, hkind, if_neg hcommon]

theorem articleOf_unweighed {f : ArticleFields} {k : ArticleKind} (h : CommonFields f) (hkind : f.kind = some k)
    (hk : k ≠ .weighed) : articleOf f
      = some ⟨f.number, k, f.unitPrice, .nearest, 1, none, f.department, f.name, f.shelfLife, f.held, 0⟩ := by
  simp only [articleOf, hkind, if_pos ((commonFields_iff f).2 h)]
  cases k with
  | weighed => exact absurd rfl hk
  | counted => rfl
  | fixed => rfl

theorem articleOf_weighed {f : ArticleFields} {mode : RoundingMode} (h : CommonFields f) (hkind : f.kind = some .weighed)
    (hmode : f.rounding = some mode) (hw : WeighedFields f) : articleOf f = some
      ⟨f.number, .weighed, f.unitPrice, mode, f.step, f.presetTare, f.department, f.name, f.shelfLife, f.held, 0⟩ := by
  have hok : weighedFieldsOk f = true := (weighedFieldsOk_iff f).2 ⟨by simp [hmode], hw⟩
  simp only [articleOf, hkind, if_pos ((commonFields_iff f).2 h), hmode, if_pos hok]

theorem articleOf_weighed_none {f : ArticleFields} (hkind : f.kind = some .weighed)
    (h : f.rounding = none ∨ ¬ WeighedFields f) : articleOf f = none := by
  by_cases hcommon : CommonFields f
  · have hok : weighedFieldsOk f = false := by
      rw [← Bool.not_eq_true, weighedFieldsOk_iff]
      rcases h with hnone | hw
      · simp [hnone]
      · exact fun hboth => hw hboth.2
    cases hmode : f.rounding <;> simp [articleOf, hkind, (commonFields_iff f).2 hcommon, hmode, hok]
  · exact articleOf_none (.inr hcommon)

/-! ## The staged requests (R56 to R58) -/

section
variable {p : Part} {base last : Nat} {es : List ChangeEntry}

theorem Part.putChecks_touched (f : ArticleFields) : (p.touched base es).putChecks f = (do
    let a ← need (articleOf f) .badValue
    check (stageRoom es a.number) .stageFull
    check (p.roomFor es a.number) .range
    return (base, es, a)) := rfl

theorem Part.stageChecks_touched (n : Nat) : (p.touched base es).stageChecks n = (do
    check (within 1 99999 n) .badValue
    check (p.article n).isSome .noSuch
    check (stageRoom es n) .stageFull
    return (base, es)) := rfl

theorem serveStagePut_refused {f : ArticleFields} {r : Reason} (h : p.art.changeSet = .opened base es last)
    (hr : (p.touched base es).putChecks f = .error r) : serveStagePut f p = (p.touched base es, .refuse r) := by
  simp only [serveStagePut, Part.touchChange_opened h, hr]

theorem serveStagePut_staged {f : ArticleFields} {a : Article} (h : p.art.changeSet = .opened base es last)
    (ha : articleOf f = some a) (hjoins : stageRoom es a.number = true) (hroom : p.roomFor es a.number = true) :
    serveStagePut f p = (p.touched base (insertByKey ChangeEntry.number (.put a) es),
      .done (.staged (insertByKey ChangeEntry.number (.put a) es).length)) := by
  have hok : (p.touched base es).putChecks f = .ok (base, es, a) := by
    simp [Part.putChecks_touched, ha, hjoins, hroom]
  simp only [serveStagePut, Part.touchChange_opened h, hok]
  rfl

theorem serveStage_refused {e : ChangeEntry} {r : Reason} (h : p.art.changeSet = .opened base es last)
    (hr : (p.touched base es).stageChecks e.number = .error r) : serveStage e p = (p.touched base es, .refuse r) := by
  simp only [serveStage, Part.touchChange_opened h, hr]

theorem serveStage_staged {e : ChangeEntry} (h : p.art.changeSet = .opened base es last)
    (hn : within 1 99999 e.number = true) (hin : (p.article e.number).isSome = true)
    (hjoins : stageRoom es e.number = true) :
    serveStage e p = (p.touched base (insertByKey ChangeEntry.number e es),
      .done (.staged (insertByKey ChangeEntry.number e es).length)) := by
  have hok : (p.touched base es).stageChecks e.number = .ok (base, es) := by
    simp [Part.stageChecks_touched, hn, hin, hjoins]
  simp only [serveStage, Part.touchChange_opened h, hok]
  rfl

end

/-- The four staged requests with the service that each dispatches. -/
theorem staged_service {c : Instr} {tag : Nat} {req : HostRequest} (hc : c.hostRequest? = some (tag, req))
    (hreq : (∃ f, req = .stagePut f) ∨ ∃ n, req = .stageDelete n ∨ req = .stageHold n ∨ req = .stageRelease n) :
    ∃ serve, (∀ s, exec c s = s.act (fun p => p.dispatch tag req serve))
      ∧ ∀ (p : Part) (r : Reason), p.touchChange.art.changeSet.needOpen = .error r →
        serve p = (p.touchChange, .refuse r) := by
  have refusedPut (f : ArticleFields) (p : Part) (r : Reason) (h : p.touchChange.art.changeSet.needOpen = .error r) :
      serveStagePut f p = (p.touchChange, .refuse r) := by
    simp [serveStagePut, Part.putChecks, h]
  have refusedStage (e : ChangeEntry) (p : Part) (r : Reason) (h : p.touchChange.art.changeSet.needOpen = .error r) :
      serveStage e p = (p.touchChange, .refuse r) := by
    simp [serveStage, Part.stageChecks, h]
  rcases hreq with ⟨f, rfl⟩ | ⟨n, rfl | rfl | rfl⟩ <;> cases c <;>
    simp only [Instr.hostRequest?, reduceCtorEq, Option.some.injEq, Prod.mk.injEq, HostRequest.stagePut.injEq,
      HostRequest.stageDelete.injEq, HostRequest.stageHold.injEq, HostRequest.stageRelease.injEq, and_false] at hc
  all_goals obtain ⟨rfl, rfl⟩ := hc
  · exact ⟨_, fun _ => rfl, refusedPut _⟩
  · exact ⟨_, fun _ => rfl, refusedStage _⟩
  · exact ⟨_, fun _ => rfl, refusedStage _⟩
  · exact ⟨_, fun _ => rfl, refusedStage _⟩

/-! ## The reason when the set is not OPEN -/

theorem ChangeSet.needOpen_none : ChangeSet.needOpen .none = .error .wrongState := rfl

theorem ChangeSet.needOpen_busy {x : ChangeSet} (h : x.phase = .scheduled ∨ x.phase = .applying) :
    x.needOpen = .error .busy := by
  cases x <;> simp [ChangeSet.phase] at h <;> rfl

theorem Part.touchChange_unopened_of_phase {p : Part}
    (h : p.art.changeSet.phase = .scheduled ∨ p.art.changeSet.phase = .applying) : p.touchChange = p :=
  Part.touchChange_unopened fun _ _ _ he => by simp [he, ChangeSet.phase] at h

/-! ## CHANGE STATUS and the expiry (R59, R61) -/

theorem Part.expireChangeSet_opened {p : Part} {base last : Nat} {es : List ChangeEntry}
    (h : p.art.changeSet = .opened base es last) : p.expireChangeSet
      = Part.latch { p with art := { p.art with changeSet := .none }
                            time := p.time.advance (last + 60000 - p.time.elapsed) }
          .stagingExpired (some (.staging base es.length)) := by
  simp only [Part.expireChangeSet, h]
  rfl

theorem TimeBase.advance_elapsed (t : TimeBase) (m : Nat) : (t.advance m).elapsed = t.elapsed + m := rfl

theorem Part.stagingLeft_touched (p : Part) (base : Nat) (es : List ChangeEntry) :
    (p.touched base es).stagingLeft = some 60 := by
  simp [Part.stagingLeft, Part.touched, secondsLeft, Part.now, Config.stagingMs]

theorem StoreBack.phase_eq (b : StoreBack) : b.phase = match b with
    | .idle => .idle
    | .storing g _ _ => .storing g
    | .owed g => .owed g := by
  cases b <;> rfl

/-! ## The commands -/

/-- STAGE PUT on an OPEN set, in its order of checks (R57). -/
theorem exec_stagePut {s : State} {tag base last : Nat} {es : List ChangeEntry} {f : ArticleFields}
    (h : s.part.art.changeSet = .opened base es last) (hs : s.serves tag (.stagePut f)) :
    let p := s.part.taken
    (articleOf f = none → exec (.stagePut tag f) s
      = .next (s.replied (p.touched base es) tag (.stagePut f) (.refused .badValue none)))
    ∧ ∀ a, articleOf f = some a →
      (stageRoom es a.number = false → exec (.stagePut tag f) s
        = .next (s.replied (p.touched base es) tag (.stagePut f) (.refused .stageFull none)))
      ∧ (stageRoom es a.number = true → p.roomFor es a.number = false → exec (.stagePut tag f) s
        = .next (s.replied (p.touched base es) tag (.stagePut f) (.refused .range none)))
      ∧ (stageRoom es a.number = true → p.roomFor es a.number = true → exec (.stagePut tag f) s
        = .next (s.replied (p.touched base (insertByKey ChangeEntry.number (.put a) es)) tag (.stagePut f)
            (.done (.staged (insertByKey ChangeEntry.number (.put a) es).length)))) := by
  have ht : s.part.taken.art.changeSet = .opened base es last := h
  refine ⟨fun ha => ?fields, fun a ha => ⟨fun hjoins => ?full, fun hjoins hroom => ?range, fun hjoins hroom => ?joins⟩⟩
  case fields => exact State.serve_now hs (serveStagePut_refused ht (by simp [Part.putChecks_touched, ha]))
  case full => exact State.serve_now hs (serveStagePut_refused ht (by simp [Part.putChecks_touched, ha, hjoins]))
  case range => exact State.serve_now hs (serveStagePut_refused ht (by simp [Part.putChecks_touched, ha, hjoins, hroom]))
  case joins => exact State.serve_now hs (serveStagePut_staged ht ha hjoins hroom)

/-- STAGE DELETE, STAGE HOLD and STAGE RELEASE on an OPEN set, in their order of checks (R58). -/
theorem exec_stage {s : State} {c : Instr} {req : HostRequest} {tag base last n : Nat} {es : List ChangeEntry}
    {e : ChangeEntry} (h : s.part.art.changeSet = .opened base es last) (hs : s.serves tag req) (he : e.number = n)
    (hc : exec c s = s.act (fun p => p.dispatch tag req (serveStage e))) :
    let p := s.part.taken
    (within 1 99999 n = false → exec c s = .next (s.replied (p.touched base es) tag req (.refused .badValue none)))
    ∧ (within 1 99999 n = true →
      ((p.article n).isSome = false → exec c s
        = .next (s.replied (p.touched base es) tag req (.refused .noSuch none)))
      ∧ ((p.article n).isSome = true → stageRoom es n = false → exec c s
        = .next (s.replied (p.touched base es) tag req (.refused .stageFull none)))
      ∧ ((p.article n).isSome = true → stageRoom es n = true → exec c s
        = .next (s.replied (p.touched base (insertByKey ChangeEntry.number e es)) tag req
            (.done (.staged (insertByKey ChangeEntry.number e es).length))))) := by
  subst he
  have ht : s.part.taken.art.changeSet = .opened base es last := h
  refine ⟨fun hn => ?number, fun hn => ⟨fun hin => ?missing, fun hin hjoins => ?full, fun hin hjoins => ?joins⟩⟩
  all_goals rw [hc]
  case number => exact State.serve_now hs (serveStage_refused ht (by simp [Part.stageChecks_touched, hn]))
  case missing => exact State.serve_now hs (serveStage_refused ht (by simp [Part.stageChecks_touched, hn, hin]))
  case full => exact State.serve_now hs (serveStage_refused ht (by simp [Part.stageChecks_touched, hn, hin, hjoins]))
  case joins => exact State.serve_now hs (serveStage_staged ht hn hin hjoins)

/-- The three requests that `exec_stage` serves. -/
theorem exec_eq_serveStage {c : Instr} {tag n : Nat} {req : HostRequest} {e : ChangeEntry}
    (h : (c = .stageDelete tag n ∧ req = .stageDelete n ∧ e = .delete n)
      ∨ (c = .stageHold tag n ∧ req = .stageHold n ∧ e = .hold n)
      ∨ (c = .stageRelease tag n ∧ req = .stageRelease n ∧ e = .release n)) :
    e.number = n ∧ ∀ s, exec c s = s.act (fun p => p.dispatch tag req (serveStage e)) := by
  rcases h with ⟨rfl, rfl, rfl⟩ | ⟨rfl, rfl, rfl⟩ | ⟨rfl, rfl, rfl⟩ <;> exact ⟨rfl, fun _ => rfl⟩

/-- Settles O14: each request by its order of checks, with what the checks say in the words of the table and the entries. -/
theorem stagedRequestsAndTheirExpiry : Obligations.StagedRequestsAndTheirExpiry := by
  refine ⟨fun s tag base last es h => ⟨fun f hs => ?put, fun n c req e hc hs => ?stage⟩,
    fun s c tag req hc hs hreq => ?unopened, fun f k => ?fields, fun s tag hs h => ?report,
    fun s tag base last es h => ⟨fun hs => ?status, fun hr => ?expiry⟩⟩
  case put =>
    obtain ⟨hfields, hput⟩ := exec_stagePut h hs
    refine ⟨hfields, fun a ha => ⟨fun hjoins => ?_, fun hjoins hroom => ?_, fun hjoins hroom => ?_⟩⟩
    · exact (hput a ha).1 (Bool.eq_false_iff.2 (mt stageRoom_iff.1 hjoins))
    · exact (hput a ha).2.1 (stageRoom_iff.2 hjoins) (Bool.eq_false_iff.2 (mt Part.roomFor_iff.1 hroom))
    · exact (hput a ha).2.2 (stageRoom_iff.2 hjoins) (Part.roomFor_iff.2 hroom)
  case stage =>
    obtain ⟨he, hexec⟩ := exec_eq_serveStage hc
    obtain ⟨hnumber, hstage⟩ := exec_stage h hs he (hexec s)
    refine ⟨fun hn => hnumber (within_false.2 (by omega)), fun h1 h2 => ?_⟩
    obtain ⟨hmissing, hfull, hjoin⟩ := hstage (within_true.2 ⟨h1, h2⟩)
    refine ⟨fun hin => ?_, fun hin hjoins => ?_, fun hin hjoins => ?_⟩
    · exact hmissing (Bool.eq_false_iff.2 (mt (Part.article_isSome_iff _ _).1 hin))
    · exact hfull ((Part.article_isSome_iff _ _).2 hin) (Bool.eq_false_iff.2 (mt stageRoom_iff.1 hjoins))
    · exact hjoin ((Part.article_isSome_iff _ _).2 hin) (stageRoom_iff.2 hjoins)
  case unopened =>
    obtain ⟨serve, hexec, hrefused⟩ := staged_service hc hreq
    rw [hexec]
    refine ⟨fun hset => ?_, fun hphase => ?_⟩
    · have htouch : s.part.taken.touchChange = s.part.taken := Part.touchChange_of_none hset
      have hopen : s.part.taken.touchChange.art.changeSet.needOpen = .error .wrongState := by
        rw [htouch, show s.part.taken.art.changeSet = .none from hset]
        rfl
      exact State.serve_now hs ((hrefused _ _ hopen).trans (by rw [htouch]; rfl))
    · have htouch : s.part.taken.touchChange = s.part.taken := Part.touchChange_unopened_of_phase hphase
      have hopen : s.part.taken.touchChange.art.changeSet.needOpen = .error .busy := by
        rw [htouch]
        exact ChangeSet.needOpen_busy hphase
      exact State.serve_now hs ((hrefused _ _ hopen).trans (by rw [htouch]; rfl))
  case fields =>
    exact ⟨articleOf_none, articleOf_unweighed, fun hcommon hkind =>
      ⟨fun mode hmode hw => articleOf_weighed hcommon hkind hmode hw, articleOf_weighed_none hkind⟩⟩
  case report =>
    have htouch : s.part.taken.touchChange = s.part.taken := Part.touchChange_unopened h
    have hserve : serveChangeStatus s.part.taken = (s.part.taken, .now (.done (.changeStatus s.part.taken.changeReport))) := by
      rw [serveChangeStatus, htouch]
      rfl
    have hset : s.part.taken.art = s.part.art := rfl
    refine ⟨s.part.taken.changeReport, State.serve_now hs hserve, fun hnone => ?_, fun b es t hsch => ?_,
      fun b es t happ => ?_, ?_, rfl, rfl, StoreBack.phase_eq _, rfl, rfl⟩
    · simp [Part.changeReport, hset, hnone, ChangeSet.phase, ChangeSet.content, ChangeSet.scheduledTime]
    · simp [Part.changeReport, hset, hsch, ChangeSet.phase, ChangeSet.content, ChangeSet.scheduledTime]
    · simp [Part.changeReport, hset, happ, ChangeSet.phase, ChangeSet.content, ChangeSet.scheduledTime]
    · show s.part.taken.stagingLeft = none
      unfold Part.stagingLeft
      split
      · exact absurd ‹_› (h _ _ _)
      · rfl
  case status =>
    have hserve : serveChangeStatus s.part.taken = (s.part.taken.touched base es,
        .now (.done (.changeStatus (s.part.taken.touched base es).changeReport))) := by
      rw [serveChangeStatus, Part.touchChange_opened (p := s.part.taken) h]
      rfl
    exact ⟨_, State.serve_now hs hserve, rfl, rfl, rfl, Part.stagingLeft_touched _ _ _, rfl, rfl, rfl, rfl, rfl, rfl⟩
  case expiry =>
    refine ⟨_, (State.act_runs hr Part.expireChangeSet).trans (by rw [Part.expireChangeSet_opened h]), rfl, fun hlate => ?_⟩
    rw [TimeBase.advance_elapsed]
    omega

end Sys2Proof.Machine
end


-- ==== Sys2Proof/Proofs/Applying.lean ====
section
/-! APPLY NOW and APPLY AT (R62, R63): their checks in order on an OPEN set, and in the other phases. -/

namespace Sys2Proof.Machine

/-- The journal refuses a record with one of three reasons (R147). -/
theorem Part.journalCheck_error {p : Part} {length reserve : Nat} {e : Reason}
    (h : p.journalCheck length reserve = .error e) : e = .storeFault ∨ e = .journalFull ∨ e = .storeBusy := by
  unfold Part.journalCheck at h
  split at h
  · cases h; exact .inl rfl
  · split at h
    · cases h; exact .inr (.inl rfl)
    · split at h
      · cases h; exact .inr (.inr rfl)
      · cases h

theorem not_isEmpty {es : List ChangeEntry} (h : es ≠ []) : es.isEmpty = false := List.isEmpty_eq_false_iff.2 h

section
variable {p : Part} {base last : Nat} {es : List ChangeEntry}

/-- The checks that the two requests share, on an OPEN set. -/
theorem Part.applyChecks_touched (time : Except Reason Unit) : (p.touched base es).applyChecks time = (do
    check (!es.isEmpty) .wrongState
    time
    check (base = p.art.generation) .generationMismatch
    check (p.art.generation < Config.max32) .range
    return (base, es)) := rfl

theorem Part.applyNowChecks_touched : (p.touched base es).applyNowChecks = (do
    let _ ← (p.touched base es).applyChecks (.ok ())
    p.journalCheck (64 + 49 * es.length) 2
    return (base, es)) := by
  simp only [Part.applyNowChecks, Part.applyChecks_touched]
  cases check (!es.isEmpty) Reason.wrongState <;> try rfl
  cases check (decide (base = p.art.generation)) Reason.generationMismatch <;> try rfl
  cases check (decide (p.art.generation < Config.max32)) Reason.range <;> rfl

theorem serveApplyNow_refused {r : Reason} (h : p.art.changeSet = .opened base es last)
    (hr : (p.touched base es).applyNowChecks = .error r) :
    serveApplyNow p = (p.touched base es, p.refuseApply r) := by
  simp only [serveApplyNow, Part.touchChange_opened h, hr]
  rfl

theorem serveApplyNow_accepted (h : p.art.changeSet = .opened base es last)
    (hok : (p.touched base es).applyNowChecks = .ok (base, es)) :
    serveApplyNow p = (((p.touched base es).queueRecord (p.applyRecord es)).withChangeSet (.applying base es none),
      .now .accepted) := by
  simp only [serveApplyNow, Part.touchChange_opened h, hok]
  rfl

theorem serveApplyAt_refused {hour minute second : Nat} {r : Reason} (h : p.art.changeSet = .opened base es last)
    (hr : (p.touched base es).applyChecks (p.applyAtTime hour minute second) = .error r) :
    serveApplyAt hour minute second p = (p.touched base es, p.refuseApply r) := by
  have htime : (p.touched base es).applyAtTime hour minute second = p.applyAtTime hour minute second := rfl
  simp only [serveApplyAt, Part.touchChange_opened h, htime, hr]
  rfl

theorem serveApplyAt_accepted {hour minute second : Nat} (h : p.art.changeSet = .opened base es last)
    (hok : (p.touched base es).applyChecks (p.applyAtTime hour minute second) = .ok (base, es)) :
    serveApplyAt hour minute second p = ({ p with
        art := { p.art with changeSet := .scheduled base es ⟨hour, minute, second⟩ }
        tt := { p.tt with scheduled := some (scheduledMoment p.time.clock ⟨hour, minute, second⟩) } }, .now .accepted) := by
  have htime : (p.touched base es).applyAtTime hour minute second = p.applyAtTime hour minute second := rfl
  simp only [serveApplyAt, Part.touchChange_opened h, htime, hok]
  rfl

theorem Part.refuseApply_mismatch : p.refuseApply .generationMismatch
    = .now (.refused .generationMismatch (some p.art.generation)) := rfl

theorem Part.refuseApply_other {r : Reason} (h : r ≠ .generationMismatch) : p.refuseApply r = .now (.refused r none) := by
  simp [Part.refuseApply, h]

end

/-! ## The commands on an OPEN set -/

section
variable {s : State} {tag base last : Nat} {es : List ChangeEntry}

theorem exec_applyNow_refused {r : Reason} {g : Option Nat} (h : s.part.art.changeSet = .opened base es last)
    (hs : s.serves tag .applyNow) (hr : (s.part.taken.touched base es).applyNowChecks = .error r)
    (hg : s.part.taken.refuseApply r = .now (.refused r g)) :
    exec (.applyNow tag) s = .next (s.replied (s.part.taken.touched base es) tag .applyNow (.refused r g)) :=
  State.serve_now hs ((serveApplyNow_refused (p := s.part.taken) h hr).trans (by rw [hg]))

theorem exec_applyAt_refused {hour minute second : Nat} {r : Reason} {g : Option Nat}
    (h : s.part.art.changeSet = .opened base es last) (hs : s.serves tag (.applyAt hour minute second))
    (hr : (s.part.taken.touched base es).applyChecks (s.part.taken.applyAtTime hour minute second) = .error r)
    (hg : s.part.taken.refuseApply r = .now (.refused r g)) : exec (.applyAt tag hour minute second) s
      = .next (s.replied (s.part.taken.touched base es) tag (.applyAt hour minute second) (.refused r g)) :=
  State.serve_now hs ((serveApplyAt_refused (p := s.part.taken) h hr).trans (by rw [hg]))

end

/-- The two requests with the service that each dispatches, on a set that is not OPEN. -/
theorem apply_service {c : Instr} {tag : Nat} {req : HostRequest} (hc : c.hostRequest? = some (tag, req))
    (hreq : req = .applyNow ∨ ∃ h m x, req = .applyAt h m x) :
    ∃ serve, (∀ s, exec c s = s.act (fun p => p.dispatch tag req serve))
      ∧ ∀ (p : Part) (r : Reason), p.touchChange.art.changeSet.needOpen = .error r →
        serve p = (p.touchChange, p.touchChange.refuseApply r) := by
  rcases hreq with rfl | ⟨h, m, x, rfl⟩ <;> cases c <;>
    simp only [Instr.hostRequest?, reduceCtorEq, Option.some.injEq, Prod.mk.injEq, HostRequest.applyAt.injEq,
      and_false, and_true] at hc
  · subst hc
    exact ⟨_, fun _ => rfl, fun p r hr => by simp [serveApplyNow, Part.applyNowChecks, Part.applyChecks, hr]⟩
  · obtain ⟨rfl, rfl, rfl, rfl⟩ := hc
    exact ⟨_, fun _ => rfl, fun p r hr => by simp [serveApplyAt, Part.applyChecks, hr]⟩

/-- Settles O16: each request by its checks in order; a date that is past moves to the following one. -/
theorem appliesCompareTheGeneration : Obligations.AppliesCompareTheGeneration := by
  refine ⟨fun s tag base last h m x es hset => ⟨fun hs => ?now, fun hs => ?moment⟩, fun s c tag req hc hs hreq => ?unopened⟩
  case now =>
    have hshared := Part.applyChecks_touched (p := s.part.taken) (base := base) (es := es) (.ok ())
    have hchecks := Part.applyNowChecks_touched (p := s.part.taken) (base := base) (es := es)
    rw [hshared] at hchecks
    refine ⟨fun hempty => ?_, fun hne hbase => ?_, fun hne hbase hmax => ?_, fun hne hbase hmax => ⟨fun e he => ?_, fun hok => ?_⟩⟩
    · exact exec_applyNow_refused hset hs (by simp [hchecks, List.isEmpty_iff.2 hempty])
        (Part.refuseApply_other (by decide))
    · exact exec_applyNow_refused hset hs (by simp [hchecks, not_isEmpty hne, decide_eq_false hbase])
        Part.refuseApply_mismatch
    · have hlimit : ¬ s.part.taken.art.generation < Config.max32 := Nat.not_lt.2 hmax
      exact exec_applyNow_refused hset hs (by simp [hchecks, not_isEmpty hne, decide_eq_true hbase, hlimit])
        (Part.refuseApply_other (by decide))
    · have hlimit : s.part.taken.art.generation < Config.max32 := hmax
      have hreason : e ≠ .generationMismatch := by
        rcases Part.journalCheck_error he with rfl | rfl | rfl <;> decide
      exact exec_applyNow_refused hset hs (by simp [hchecks, not_isEmpty hne, decide_eq_true hbase, hlimit, he])
        (Part.refuseApply_other hreason)
    · have hlimit : s.part.taken.art.generation < Config.max32 := hmax
      have hserve := serveApplyNow_accepted (p := s.part.taken) hset (by simp [hchecks, not_isEmpty hne, decide_eq_true hbase, hlimit, hok])
      refine ⟨_, State.serve_now hs hserve, Part.queueRecord_tj _ _, ?_⟩
      simp [Part.withChangeSet, Part.touched]
  case moment =>
    have hchecks := Part.applyChecks_touched (p := s.part.taken) (base := base) (es := es) (s.part.taken.applyAtTime h m x)
    have htime (ht : h ≤ 23 ∧ m ≤ 59 ∧ x ≤ 59) :
        s.part.taken.applyAtTime h m x = check s.part.taken.time.valid .clockUnset := by
      simp [Part.applyAtTime, ht]
    refine ⟨fun hempty => ?_, fun hne ht => ?_, fun hne ht hvalid => ?_, fun hne ht hvalid =>
      ⟨fun hbase => ?_, fun hbase hmax => ?_, fun hbase hmax => ?_⟩⟩
    · exact exec_applyAt_refused hset hs (by rw [hchecks]; simp [List.isEmpty_iff.2 hempty])
        (Part.refuseApply_other (by decide))
    · have hbad : (decide (h ≤ 23) && decide (m ≤ 59) && decide (x ≤ 59)) = false := by
        rw [Bool.eq_false_iff, ne_eq, Bool.and_eq_true, Bool.and_eq_true, decide_eq_true_iff, decide_eq_true_iff,
          decide_eq_true_iff, and_assoc]
        exact ht
      exact exec_applyAt_refused hset hs (by rw [hchecks]; simp [not_isEmpty hne, Part.applyAtTime, hbad])
        (Part.refuseApply_other (by decide))
    · exact exec_applyAt_refused hset hs (by rw [hchecks]; simp [not_isEmpty hne, htime ht, hvalid])
        (Part.refuseApply_other (by decide))
    · exact exec_applyAt_refused hset hs
        (by rw [hchecks]; simp [not_isEmpty hne, htime ht, hvalid, decide_eq_false hbase]) Part.refuseApply_mismatch
    · have hlimit : ¬ s.part.taken.art.generation < Config.max32 := Nat.not_lt.2 hmax
      exact exec_applyAt_refused hset hs
        (by rw [hchecks]; simp [not_isEmpty hne, htime ht, hvalid, decide_eq_true hbase, hlimit])
        (Part.refuseApply_other (by decide))
    · have hlimit : s.part.taken.art.generation < Config.max32 := hmax
      have hserve := serveApplyAt_accepted (p := s.part.taken) (hour := h) (minute := m) (second := x) hset
        (by rw [hchecks]; simp [not_isEmpty hne, htime ht, hvalid, decide_eq_true hbase, hlimit])
      by_cases hpast : s.part.taken.time.clock.time.seconds ≤ (⟨h, m, x⟩ : TimeOfDay).seconds
      · rw [scheduledMoment, if_pos hpast] at hserve
        exact ⟨_, State.serve_now hs hserve, fun _ => rfl, fun hlt => absurd hpast (Nat.not_le.2 hlt)⟩
      · rw [scheduledMoment, if_neg hpast] at hserve
        exact ⟨_, State.serve_now hs hserve, fun hle => absurd hle hpast, fun _ => rfl⟩
  case unopened =>
    obtain ⟨serve, hexec, hrefused⟩ := apply_service hc hreq
    rw [hexec]
    refine ⟨fun hnone => ?_, fun hphase => ?_⟩
    · have htouch : s.part.taken.touchChange = s.part.taken := Part.touchChange_of_none hnone
      have hopen : s.part.taken.touchChange.art.changeSet.needOpen = .error .wrongState := by
        rw [htouch, show s.part.taken.art.changeSet = .none from hnone]
        rfl
      exact State.serve_now hs ((hrefused _ _ hopen).trans (by rw [htouch]; rfl))
    · have htouch : s.part.taken.touchChange = s.part.taken := Part.touchChange_unopened_of_phase hphase
      have hopen : s.part.taken.touchChange.art.changeSet.needOpen = .error .busy := by
        rw [htouch]
        exact ChangeSet.needOpen_busy hphase
      exact State.serve_now hs ((hrefused _ _ hopen).trans (by rw [htouch]; rfl))

end Sys2Proof.Machine
end


-- ==== Sys2Proof/Proofs/Scheduling.lean ====
section
/-! The scheduled apply and SET CLOCK (R64, R168 to R171): how the time base passes, what the report of the scheduled moment makes
of a SCHEDULED set, and which readings SET CLOCK takes. -/

namespace Sys2Proof.Machine

/-! ## The passing of time -/

theorem TimeBase.advance_second {t : TimeBase} (h : t.Runs) :
    OneSecondLater t.clock (t.advance 1000).clock ∧ (t.advance 1000).phase = t.phase := by
  have hphase : t.phase < 1000 := h.phase
  rw [TimeBase.advance_clock_one t (by omega) (by omega)]
  exact ⟨DateTime.clockPlus_one _ h.clock, Nat.add_mod_right _ _ |>.trans (Nat.mod_eq_of_lt hphase)⟩

/-! ## The report of the scheduled moment (R64) -/

section
variable {p : Part} {base : Nat} {es : List ChangeEntry} {t : TimeOfDay}

theorem Part.failApply_scheduled (h : p.art.changeSet = .scheduled base es t) (r : Reason) : p.failApply r
    = Part.latch { p with art := { p.art with changeSet := .opened base es p.time.elapsed } } .applyDone
        (some (.applyFailed r)) := by
  simp only [Part.failApply, h]
  rfl

/-- A SCHEDULED set whose moment is reported goes back to OPEN or to APPLYING, as R64 says. -/
theorem Part.scheduledReport_reported (h : p.art.changeSet = .scheduled base es t) :
    p.ScheduleReported p.scheduledReport base es t := by
  have hlength : (p.applyRecord es).length = 64 + 49 * es.length := rfl
  refine ⟨fun hfault => ?fault, fun hfault hspace => ?full, fun hfault hspace => ?applies⟩
  all_goals simp only [Part.scheduledReport, h, hlength, ordinaryReserve]
  case fault => rw [if_pos hfault, Part.failApply_scheduled h]
  case full => rw [if_neg (by simp [hfault]), if_pos (by simp [hspace]), Part.failApply_scheduled h]
  case applies =>
    rw [if_neg (by simp [hfault]), if_neg (by simp [hspace])]
    refine ⟨by simp [Part.withChangeSet], fun hplace => ?_, fun hplace => ?_, by simp [Part.withChangeSet]⟩
    · simp only [Part.withChangeSet, Part.queueOrWait, if_pos hplace, Part.queueRecord_tj]
      rfl
    · simp only [Part.withChangeSet, Part.queueOrWait, hplace]
      rfl

theorem Part.scheduledReport_unscheduled (h : ∀ b es t, p.art.changeSet ≠ .scheduled b es t) : p.scheduledReport = p := by
  unfold Part.scheduledReport
  split
  · exact absurd ‹_› (h _ _ _)
  · rfl

/-- A report that finds no SCHEDULED set is ignored (R64). -/
theorem Part.reportScheduled_unscheduled (h : ∀ b es t, p.art.changeSet ≠ .scheduled b es t) :
    p.reportScheduled = { p with tt := { p.tt with scheduled := none } } :=
  Part.scheduledReport_unscheduled h

end

/-! ## SET CLOCK (R169, R171) -/

theorem validDateTime_iff {y mo d h mi x : Nat} : validDateTime y mo d h mi x = true ↔
    2000 ≤ y ∧ y ≤ 2099 ∧ 1 ≤ mo ∧ mo ≤ 12 ∧ 1 ≤ d ∧ d ≤ daysOfMonth y mo ∧ h ≤ 23 ∧ mi ≤ 59 ∧ x ≤ 59 := by
  simp only [validDateTime, Bool.and_eq_true, within_true, decide_eq_true_iff, and_assoc]
  constructor
  · rintro ⟨h1, h2, h3, h4, h5, h6, h7⟩
    exact ⟨h1, h2, h3, h4, h5, monthLength_eq y mo h2 ▸ h6, h7⟩
  · rintro ⟨h1, h2, h3, h4, h5, h6, h7⟩
    exact ⟨h1, h2, h3, h4, h5, (monthLength_eq y mo h2).symm ▸ h6, h7⟩

section
variable {p : Part} {y mo d h mi x : Nat}

/-- The part whose clock has taken a reading (R169). -/
def Part.clockSet (p : Part) (t : DateTime) : Part :=
  { p with time := { p.time with clock := t, valid := true, phase := 0 } }

theorem serveSetClock_invalid (hv : validDateTime y mo d h mi x = false) :
    serveSetClock y mo d h mi x p = (p, .refuse .badValue) := by
  simp [serveSetClock, hv]

theorem serveSetClock_ahead (hv : validDateTime y mo d h mi x = true)
    (hm : p.tt.scheduled = none
      ∨ ∃ m, p.tt.scheduled = some m ∧ (⟨⟨y, mo, d⟩, ⟨h, mi, x⟩⟩ : DateTime).seconds < m.seconds) :
    serveSetClock y mo d h mi x p = (p.clockSet ⟨⟨y, mo, d⟩, ⟨h, mi, x⟩⟩, .done .nothing) := by
  rcases hm with hnone | ⟨m, hsome, hlater⟩
  · simp only [serveSetClock, if_pos hv, hnone]
    rfl
  · simp only [serveSetClock, if_pos hv, hsome, if_neg (Nat.not_le.2 hlater)]
    rfl

theorem serveSetClock_reached (hv : validDateTime y mo d h mi x = true) {m : DateTime} (hm : p.tt.scheduled = some m)
    (hle : m.seconds ≤ (⟨⟨y, mo, d⟩, ⟨h, mi, x⟩⟩ : DateTime).seconds) :
    serveSetClock y mo d h mi x p
      = ((p.clockSet ⟨⟨y, mo, d⟩, ⟨h, mi, x⟩⟩).reportScheduled, .done .nothing) := by
  simp only [serveSetClock, if_pos hv, hm, if_pos hle]
  rfl

end

/-- Settles O17: the time base by its own rules, and each report of the moment by `Part.scheduledReport_reported`. -/
theorem scheduledTimeAndSetClock : Obligations.ScheduledTimeAndSetClock := by
  refine ⟨fun t m n => ⟨rfl, rfl, rfl, t.advance_add m n, t.advance_clock_same, fun hon hge hlt => ?second,
    TimeBase.advance_second⟩, fun s base es t moment hr hset hmoment => ?reached, fun s tag y mo d h mi x hs => ?setClock⟩
  case second =>
    rw [t.advance_clock_one hge hlt]
    exact DateTime.clockPlus_one _ hon
  case reached =>
    have hexec := State.act_runs hr Part.scheduledTime
    rw [Part.scheduledTime, hmoment] at hexec
    exact ⟨_, hexec, Part.scheduledReport_reported hset⟩
  case setClock =>
    refine ⟨fun hinvalid => ?_, fun hvalid => ⟨fun hahead => ?_, fun m hm hle => ⟨fun hunset => ?_, fun b es tm hset => ?_⟩⟩⟩
    · exact State.serve_now hs (serveSetClock_invalid (Bool.eq_false_iff.2 (mt validDateTime_iff.1 hinvalid)))
    · exact State.serve_now hs (serveSetClock_ahead (validDateTime_iff.2 hvalid) hahead)
    · exact State.serve_now hs ((serveSetClock_reached (validDateTime_iff.2 hvalid) hm hle).trans
        (congrArg (·, Answer.done .nothing) (Part.reportScheduled_unscheduled hunset)))
    · exact ⟨_, State.serve_now hs (serveSetClock_reached (validDateTime_iff.2 hvalid) hm hle),
        Part.scheduledReport_reported hset⟩

end Sys2Proof.Machine
end


-- ==== Sys2Proof/Proofs/KeyRequests.lean ====
section
/-! Key requests (R78, R197, R198): the way of one through the station bus and OC, and what OC refuses itself. -/

namespace Sys2Proof.Machine

/-- Every key request of Table 70 goes the same way. -/
theorem exec_key {c : Instr} {st : StationNo} {tag : Nat} {k : Key} (hc : c.keyRequest? = some (st, tag, k)) (s : State) :
    exec c s = s.act (fun p => p.keyRequest st tag k) := by
  cases c <;> simp only [Instr.keyRequest?, Option.some.injEq, Prod.mk.injEq, reduceCtorEq] at hc <;>
    (obtain ⟨rfl, rfl, rfl⟩ := hc; rfl)

/-- A key request whose tag is new at a PRESENT link is answered by what OC makes of it. -/
theorem State.key_answered {s : State} {st : StationNo} {tag : Nat} (hr : s.runs) (hl : s.part.link st = .present)
    (h1 : 1 ≤ tag) (h255 : tag ≤ 255) (hk : (s.part.ml.stations.get st).keptTag ≠ some tag) (k : Key) :
    s.act (fun p => p.keyRequest st tag k)
      = .next (s.keyAnswer (s.part.keyTaken st tag) st tag ((s.part.keyTaken st tag).serveKey st k)) := by
  rw [State.act_runs hr]
  have hw : within 1 255 tag = true := within_true.2 ⟨h1, h255⟩
  have hkept : (s.part.onLink st (fun l => { l with keptTag := some tag })) = s.part.keyTaken st tag := rfl
  simp only [Part.keyRequest, hl, hw, decide_true, Bool.and_self, if_true, Part.takeKeys, List.foldl, takeKey, hk,
    if_false, hkept]
  cases (s.part.keyTaken st tag).serveKey st k with
  | error e => rfl
  | ok x => rfl

/-- A request whose tag is the one kept is not served again (R197). -/
theorem State.key_retransmitted {s : State} {st : StationNo} {tag : Nat}
    (hk : (s.part.ml.stations.get st).keptTag = some tag) (k : Key) :
    s.act (fun p => p.keyRequest st tag k) = .next s := by
  have hsame : s.part.keyRequest st tag k = s.part := by
    simp only [Part.keyRequest, Part.takeKeys, List.foldl, takeKey, hk, if_true, Part.replaceOutcomes, List.isEmpty_nil,
      ite_self]
  simp only [State.act, State.always, Part.unlessHeld, hsame, ite_self]

section
variable {s : State} {st : StationNo} {tag operator : Nat} {k : Key} {q : Part} {d : ResultData} {e : Reason}

theorem State.key_accepted_on (h : s.takesKeyOf st tag operator)
    (hr : (s.part.keyTaken st tag).serveSignedOn st operator k = .ok (q, d)) :
    s.act (fun p => p.keyRequest st tag k) = .next (s.outcome q st tag (.accepted d)) :=
  State.key_accepted h.1 ((Part.serveKey_operator h k).trans hr)

theorem State.key_refused_on (h : s.takesKeyOf st tag operator)
    (hr : (s.part.keyTaken st tag).serveSignedOn st operator k = .error e) :
    s.act (fun p => p.keyRequest st tag k) = .next (s.outcome (s.part.keyTaken st tag) st tag (.refused e)) :=
  State.key_refused h.1 ((Part.serveKey_operator h k).trans hr)

theorem State.key_accepted_off (h : s.takesKey st tag) (ho : (s.part.stack st).operator = none)
    (hr : (s.part.keyTaken st tag).serveSignedOff st k = .ok (q, d)) :
    s.act (fun p => p.keyRequest st tag k) = .next (s.outcome q st tag (.accepted d)) :=
  State.key_accepted h ((Part.serveKey_empty h ho k).trans hr)

theorem State.key_refused_off (h : s.takesKey st tag) (ho : (s.part.stack st).operator = none)
    (hr : (s.part.keyTaken st tag).serveSignedOff st k = .error e) :
    s.act (fun p => p.keyRequest st tag k) = .next (s.outcome (s.part.keyTaken st tag) st tag (.refused e)) :=
  State.key_refused h ((Part.serveKey_empty h ho k).trans hr)

end

/-! ## What OC refuses itself (R3, R78) -/

theorem isWeighingKey_iff (k : Key) : isWeighingKey k = true ↔ k = .zero ∨ k = .tare ∨ k = .clearTare := by
  cases k <;> simp [isWeighingKey]

theorem Part.serveKey_disabling {p : Part} {st : StationNo} (h : p.disabling st = true) (k : Key) :
    p.serveKey st k = .error .busy := by
  rw [Part.serveKey, if_pos h]

theorem Part.serveKey_starting {p : Part} {st : StationNo} (hd : p.disabling st = false) (h : p.tt.counter = .starting)
    {k : Key} (hk : isWeighingKey k = false) : p.serveKey st k = .error .busy := by
  rw [Part.serveKey, if_neg (by simp [hd]), if_pos (by simp [h, hk])]

/-- At an empty stack only SIGN ON and the three keys of WC are served. -/
theorem Part.serveSignedOff_other {p : Part} {st : StationNo} {k : Key} (hk : isWeighingKey k = false)
    (hs : ∀ n, k ≠ .signOn n) : p.serveSignedOff st k = .error .notAllowed := by
  cases k with
  | signOn n => exact absurd rfl (hs n)
  | zero => cases hk
  | tare => cases hk
  | clearTare => cases hk
  | _ => rfl

theorem Part.disabling_iff (p : Part) (st : StationNo) : p.disabling st = true ↔
    ∃ hostTag req x, p.ml.serving = some ⟨hostTag, req, .setStation st x⟩ ∧ (p.config st).enabled = true
      ∧ x.enabled = false := by
  unfold Part.disabling Part.awaitedWrite
  constructor
  · intro h
    split at h
    · next s x hw =>
      obtain ⟨⟨hostTag, req, w⟩, hserving, rfl⟩ := Option.map_eq_some_iff.1 hw
      simp only [Bool.and_eq_true, decide_eq_true_eq, Bool.not_eq_true'] at h
      obtain ⟨⟨rfl, hen⟩, hdis⟩ := h
      exact ⟨hostTag, req, x, hserving, hen, hdis⟩
    · cases h
  · rintro ⟨hostTag, req, x, hserving, hen, hdis⟩
    simp [hserving, hen, hdis]

/-- Settles O21: a reason of OC that stands before every block leaves the part with the kept tag alone. -/
theorem keyRequestsNeedAnOperator : Obligations.KeyRequestsNeedAnOperator := by
  intro s c st tag k hc
  rw [exec_key hc]
  have hweighing := isWeighingKey_iff k
  refine ⟨fun hr hl h1 h255 hk hd hstart hnot => ?starting, fun h hempty hnot hsign => ?empty, Part.disabling_iff _ _,
    fun hostTag req x hr hl h1 h255 hk hserving hen hdis => ?disabling, fun hk => State.key_retransmitted hk k⟩
  case starting =>
    rw [State.key_answered hr hl h1 h255 hk,
      Part.serveKey_starting (p := s.part.keyTaken st tag) hd hstart (Bool.eq_false_iff.2 (mt hweighing.1 hnot))]
    rfl
  case empty =>
    have hoperator : (s.part.stack st).operator = none := by rw [Part.stack, hempty, Stack.operator]
    exact State.key_refused_off h hoperator (Part.serveSignedOff_other (Bool.eq_false_iff.2 (mt hweighing.1 hnot)) hsign)
  case disabling =>
    have hd : (s.part.keyTaken st tag).disabling st = true :=
      (Part.disabling_iff s.part st).2 ⟨hostTag, req, x, hserving, hen, hdis⟩
    rw [State.key_answered hr hl h1 h255 hk, Part.serveKey_disabling hd]
    rfl

end Sys2Proof.Machine
end


-- ==== Sys2Proof/Proofs/Operators.lean ====
section
/-! Operators (chapter 4): the clerk table and its writes, sign-on and sign-off, and overrides. -/

namespace Sys2Proof.Machine

/-! ## The clerk table (R74 to R76) -/

theorem Part.clerk_isSome_iff (p : Part) (n : Nat) : (p.clerk n).isSome = true ↔ ∃ c ∈ p.oc.clerks, c.number = n :=
  lookup_isSome_iff _ _ _

theorem Part.clerk_eq_none_iff (p : Part) (n : Nat) : p.clerk n = none ↔ ∀ c ∈ p.oc.clerks, c.number ≠ n :=
  lookup_eq_none_iff _ _ _

theorem Part.clerk_of_mem {p : Part} {n : Nat} (h : ∃ c ∈ p.oc.clerks, c.number = n) : ∃ c, p.clerk n = some c :=
  Option.isSome_iff_exists.1 ((p.clerk_isSome_iff n).2 h)

theorem Part.signedOnAt_isSome_iff (p : Part) (n : Nat) :
    (p.signedOnAt n).isSome = true ↔ ∃ st, (p.stack st).operator = some n := by
  simp [Part.signedOnAt, StationNo.mem_all]

theorem Part.inEntry2_iff (p : Part) (n : Nat) : p.inEntry2 n = true ↔ ∃ st, (p.stack st).second = some n := by
  simp [Part.inEntry2, StationNo.mem_all]

/-- A clerk who is entry 1 at one station only is found there. -/
theorem Part.signedOnAt_eq {p : Part} {n : Nat} {st : StationNo} (h : (p.stack st).operator = some n)
    (hone : ∀ x, x ≠ st → (p.stack x).operator ≠ some n) : p.signedOnAt n = some st := by
  obtain ⟨x, hx⟩ := Option.isSome_iff_exists.1 ((p.signedOnAt_isSome_iff n).2 ⟨st, h⟩)
  have hfound : (p.stack x).operator = some n := by simpa using List.find?_some hx
  by_cases heq : x = st
  · rw [hx, heq]
  · exact absurd hfound (hone x heq)

/-- A clerk whose removal waits for its write (R76). -/
theorem Part.removing_iff (p : Part) (n : Nat) :
    p.removing n = true ↔ ∃ hostTag req, p.ml.serving = some ⟨hostTag, req, .removeClerk n⟩ := by
  simp only [Part.removing, Part.awaitedWrite, decide_eq_true_eq, Option.map_eq_some_iff]
  constructor
  · rintro ⟨⟨hostTag, req, w⟩, hserving, rfl⟩
    exact ⟨hostTag, req, hserving⟩
  · rintro ⟨hostTag, req, hserving⟩
    exact ⟨_, hserving, rfl⟩

theorem Part.removing_eq_false {p : Part} {n : Nat}
    (h : ∀ hostTag req, p.ml.serving ≠ some ⟨hostTag, req, .removeClerk n⟩) : p.removing n = false := by
  rw [Bool.eq_false_iff, ne_eq, Part.removing_iff]
  rintro ⟨hostTag, req, hserving⟩
  exact h hostTag req hserving

section
variable {p : Part} {n : Nat} {role : Option Role} {name : Text} {r : Reason}

theorem serveSetClerk_refused (h : p.setClerkChecks n role name = .error r) :
    serveSetClerk n role name p = (p, .refuse r) := by
  simp only [serveSetClerk, h]

theorem serveRemoveClerk_refused (h : p.removeClerkChecks n = .error r) : serveRemoveClerk n p = (p, .refuse r) := by
  simp only [serveRemoveClerk, h]

theorem Part.setClerkChecks_badValue (h : n = 0 ∨ 99 < n ∨ role = none ∨ name = [] ∨ 12 < name.length
    ∨ ∃ c ∈ name, c.toNat < 0x20 ∨ 0x7E < c.toNat) : p.setClerkChecks n role name = .error .badValue := by
  cases hn : within 1 99 n with
  | false => simp [Part.setClerkChecks, hn]
  | true =>
    obtain ⟨h1, h99⟩ := within_true.1 hn
    cases role with
    | none => simp [Part.setClerkChecks, hn]
    | some x =>
      have htext : validText 12 name = false := by
        rw [Bool.eq_false_iff, ne_eq, validText_iff]
        rintro ⟨hpos, hmax, hchars⟩
        rcases h with h0 | h0 | hrole | hempty | hlong | ⟨c, hc, hout⟩
        · omega
        · omega
        · cases hrole
        · rw [hempty] at hpos
          exact absurd hpos (by decide)
        · exact absurd hlong (Nat.not_lt.2 hmax)
        · have := hchars c hc
          omega
      simp [Part.setClerkChecks, hn, htext]

/-- SET CLERK with a number, a role and a name that are in range: the room of the table decides (R75). -/
theorem Part.setClerkChecks_room {x : Role} (hn : within 1 99 n = true) (hname : validText 12 name = true) :
    p.setClerkChecks n (some x) name = if (∃ c ∈ p.oc.clerks, c.number = n) ∨ p.oc.clerks.length < 32
      then .ok ⟨n, x, name⟩ else .error .range := by
  have hroom : ((p.clerk n).isSome || p.oc.clerks.length < Config.maxClerks) = true
      ↔ (∃ c ∈ p.oc.clerks, c.number = n) ∨ p.oc.clerks.length < 32 := by
    rw [Bool.or_eq_true, Part.clerk_isSome_iff, decide_eq_true_iff]
    rfl
  by_cases h : (∃ c ∈ p.oc.clerks, c.number = n) ∨ p.oc.clerks.length < 32
  · rw [if_pos h]
    simp [Part.setClerkChecks, hn, hname, hroom.2 h]
  · rw [if_neg h]
    simp [Part.setClerkChecks, hn, hname, Bool.eq_false_iff.2 (mt hroom.1 h)]

/-- Whether REMOVE CLERK finds the clerk in use. -/
theorem Part.clerkFree_iff : ((p.signedOnAt n).isNone && !p.inEntry2 n && p.om.orders.all (fun o => o.owner != n)) = true
    ↔ ¬ ((∃ st, (p.stack st).operator = some n ∨ (p.stack st).second = some n) ∨ ∃ o ∈ p.om.orders, o.owner = n) := by
  have hnone : (p.signedOnAt n).isNone = true ↔ ¬ ∃ st, (p.stack st).operator = some n := by
    rw [← Part.signedOnAt_isSome_iff]
    cases p.signedOnAt n <;> simp
  rw [Bool.and_eq_true, Bool.and_eq_true, hnone, Bool.not_eq_true', Bool.eq_false_iff, ne_eq, Part.inEntry2_iff]
  simp only [List.all_eq_true, bne_iff_ne, exists_or, not_or, not_exists, not_and, ne_eq]

theorem Part.removeClerkChecks_eq (hn : within 1 99 n = true) : p.removeClerkChecks n = (do
    check (p.clerk n).isSome .noSuch
    check ((p.signedOnAt n).isNone && !p.inEntry2 n && p.om.orders.all (fun o => o.owner != n)) .busy) := by
  simp [Part.removeClerkChecks, hn]

end

theorem Part.replyHeld_some {p : Part} {tag : Nat} {req : HostRequest} {w : HeldWrite}
    (h : p.ml.serving = some ⟨tag, req, w⟩) (body : ReplyBody) :
    p.replyHeld body = Part.reply { p with ml := { p.ml with serving := none } } tag (.request req) body := by
  simp only [Part.replyHeld, h]

theorem Part.awaitedWrite_some {p : Part} {tag : Nat} {req : HostRequest} {w : HeldWrite}
    (h : p.ml.serving = some ⟨tag, req, w⟩) : p.awaitedWrite = some w := by
  simp [Part.awaitedWrite, h]

theorem Part.withClerks_replyHeld {p : Part} {tag : Nat} {req : HostRequest} {w : HeldWrite}
    (h : p.ml.serving = some ⟨tag, req, w⟩) (clerks : List Clerk) (body : ReplyBody) : (p.withClerks clerks).replyHeld body
      = Part.reply { p.withClerks clerks with ml := { p.ml with serving := none } } tag (.request req) body :=
  Part.replyHeld_some (p := p.withClerks clerks) h body

/-- A settings-area write that fails is answered STORE_FAULT, and latches it (R3, R75, R76). -/
theorem Part.failSettings_eq {p : Part} {tag : Nat} {req : HostRequest} {w : HeldWrite}
    (h : p.ml.serving = some ⟨tag, req, w⟩) : p.failSettings
      = Part.reply { p.latch .storeFault (some (.store .settingsArea)) with
          ml := { (p.latch .storeFault (some (.store .settingsArea))).ml with serving := none } } tag (.request req)
        (.refused .storeFault none) :=
  Part.replyHeld_some (p := p.latch .storeFault (some (.store .settingsArea))) h _

/-- Settles O18: the checks of the two requests, and the two ends of each write. -/
theorem clerkTableWrites : Obligations.ClerkTableWrites := by
  intro s tag
  refine ⟨fun n role name hs h => ?setBad, fun n hs h => ?removeBad, fun n role name h1 h99 =>
    ⟨fun hs hpos hmax hchars => ⟨fun hroom => ?set, fun hnot hfull => ?setFull⟩,
      fun hs => ⟨fun hnot => ?removeMissing, fun hin hused => ?removeUsed, fun hin hfree => ?remove⟩,
      fun req c hr hserving => ⟨?setDone, ?setFailed⟩, fun req hr hserving => ⟨?removeDone, ?removeFailed⟩⟩⟩
  case setBad => exact State.serve_now hs (serveSetClerk_refused (Part.setClerkChecks_badValue h))
  case removeBad =>
    have hn : within 1 99 n = false := within_false.2 (by omega)
    exact State.serve_now hs (serveRemoveClerk_refused (by simp [Part.removeClerkChecks, hn]))
  case set =>
    have hok : s.part.taken.setClerkChecks n (some role) name = .ok ⟨n, role, name⟩ := by
      rw [Part.setClerkChecks_room (within_true.2 ⟨h1, h99⟩) (validText_iff.2 ⟨hpos, hmax, hchars⟩)]
      exact if_pos hroom
    exact State.serve_later hs (by simp only [serveSetClerk, hok])
  case setFull =>
    have herror : s.part.taken.setClerkChecks n (some role) name = .error .range := by
      rw [Part.setClerkChecks_room (within_true.2 ⟨h1, h99⟩) (validText_iff.2 ⟨hpos, hmax, hchars⟩)]
      exact if_neg (not_or.2 ⟨hnot, Nat.not_lt.2 hfull⟩)
    exact State.serve_now hs (serveSetClerk_refused herror)
  case removeMissing =>
    have hin : (s.part.taken.clerk n).isSome = false :=
      Bool.eq_false_iff.2 (mt (Part.clerk_isSome_iff s.part.taken n).1 hnot)
    exact State.serve_now hs (serveRemoveClerk_refused
      (by simp [Part.removeClerkChecks_eq (within_true.2 ⟨h1, h99⟩), hin]))
  case removeUsed =>
    have hin' := (Part.clerk_isSome_iff s.part.taken n).2 hin
    have hbusy := Bool.eq_false_iff.2 (mt (Part.clerkFree_iff (p := s.part.taken) (n := n)).1 (not_not.2 hused))
    exact State.serve_now hs (serveRemoveClerk_refused
      (by rw [Part.removeClerkChecks_eq (within_true.2 ⟨h1, h99⟩), hin', hbusy]; rfl))
  case remove =>
    have hin' := (Part.clerk_isSome_iff s.part.taken n).2 hin
    have hfree' := (Part.clerkFree_iff (p := s.part.taken) (n := n)).2 hfree
    have hok : s.part.taken.removeClerkChecks n = .ok () := by
      rw [Part.removeClerkChecks_eq (within_true.2 ⟨h1, h99⟩), hin', hfree']
      rfl
    exact State.serve_later hs (by simp only [serveRemoveClerk, hok])
  case setDone =>
    refine (State.act_runs hr (fun p => p.endSetClerk true)).trans ?_
    simp only [Part.endSetClerk, Part.awaitedWrite_some hserving, if_true]
    rw [Part.withClerks_replyHeld hserving]
    rfl
  case setFailed =>
    refine (State.act_runs hr (fun p => p.endSetClerk false)).trans ?_
    simp only [Part.endSetClerk, Part.awaitedWrite_some hserving, Bool.false_eq_true, if_false]
    rw [Part.failSettings_eq hserving]
    rfl
  case removeDone =>
    refine (State.act_runs hr (fun p => p.endRemoveClerk true)).trans ?_
    simp only [Part.endRemoveClerk, Part.awaitedWrite_some hserving, if_true]
    rw [Part.withClerks_replyHeld hserving]
    rfl
  case removeFailed =>
    refine (State.act_runs hr (fun p => p.endRemoveClerk false)).trans ?_
    simp only [Part.endRemoveClerk, Part.awaitedWrite_some hserving, Bool.false_eq_true, if_false]
    rw [Part.failSettings_eq hserving]
    rfl

/-! ## Sign-on and sign-off (R80 to R83) -/

section
variable {p : Part} {st : StationNo} {n : Nat}

theorem Part.needClerk_removing (h : p.removing n = true) : p.needClerk n = .error .busy := by rw [Part.needClerk, if_pos h]

theorem Part.needClerk_found {c : Clerk} (h : p.removing n = false) (hc : p.clerk n = some c) : p.needClerk n = .ok c := by
  rw [Part.needClerk, h, hc]
  rfl

theorem Part.needClerk_missing (h : p.removing n = false) (hc : p.clerk n = none) : p.needClerk n = .error .noSuch := by
  rw [Part.needClerk, h, hc]
  rfl

/-- The end of a sign-on leaves the station as R81 and R103 say. -/
theorem Part.endSignOn_ends (h : p.om.active.get st = none ∨ ∃ o, p.activeOrder st = some o) :
    ∃ q, p.endSignOn st = .ok (q, (p.activeOrder st).map Order.number) ∧ p.SignedOff q st := by
  by_cases hactive : p.om.active.get st = none
  · have horder : p.activeOrder st = none := by rw [Part.activeOrder, hactive, Option.bind_none]
    refine ⟨(p.withStack st .empty).clearSelection st, by simp [Part.endSignOn, hactive, horder], rfl, rfl, rfl,
      fun _ => rfl, fun o ho => ?_, rfl, rfl, rfl, rfl, rfl, rfl, rfl, rfl⟩
    rw [horder] at ho
    cases ho
  · obtain ⟨o, horder⟩ := h.resolve_left hactive
    have hsome : (p.om.active.get st).isSome = true := Option.isSome_iff_ne_none.2 hactive
    have hpark : p.park st
        = .ok ((p.updateOrder o.number (fun x => { x with state := .parked })).unbind o.number, o) := by
      simp [Part.park, horder]
    refine ⟨((((p.updateOrder o.number (fun x => { x with state := .parked })).unbind o.number).withStack st
      .empty).clearSelection st), by simp [Part.endSignOn, hsome, hpark, horder], rfl, rfl, rfl,
      fun h => absurd h hactive, fun o' ho => ?_, rfl, rfl, rfl, rfl, rfl, rfl, rfl, rfl⟩
    rw [horder] at ho
    cases ho
    rfl

end

/-- Settles O19: SIGN ON by its checks, and both ways of signing off by `Part.endSignOn_ends`. -/
theorem signOnAndOff : Obligations.SignOnAndOff := by
  intro s st tag n
  have hoperator (h : s.part.oc.stack.get st = .empty) : (s.part.stack st).operator = none := by
    rw [Part.stack, h, Stack.operator]
  refine ⟨fun h hempty h1 h99 hin hremoving => ⟨fun hfree => ?signOn, fun hbusy => ?elsewhere⟩,
    fun h hempty => ⟨fun hbad => ?badNumber, fun h1 h99 => ⟨fun hostTag req hserving => ?removing,
      fun hserving hmissing => ?missing⟩⟩, fun operator h => State.key_refused_on h rfl, fun h hactive => ?signOff,
    fun req hreq hs => ⟨fun hbad => ?offBad, fun h1 h99 hmissing => ?offMissing⟩,
    fun req hreq hs h1 h99 hin => ⟨fun hnowhere => ?offNowhere, fun hat hone hactive => ?offClerk⟩⟩
  case signOn =>
    obtain ⟨c, hc⟩ := Part.clerk_of_mem hin
    have hnowhere : (s.part.keyTaken st tag).signedOnAt n = none := by
      rw [← Option.not_isSome_iff_eq_none, Part.signedOnAt_isSome_iff]
      exact fun ⟨x, hx⟩ => hfree x hx
    refine State.key_accepted_off h (hoperator hempty) ?_
    simp only [Part.serveSignedOff, keySignOn, within_true.2 ⟨h1, h99⟩, Part.needClerk_found (p := s.part.keyTaken st tag)
      hremoving hc, hnowhere, check_true, ok_bind, Option.isNone_none, pure_eq_ok]
    rfl
  case elsewhere =>
    obtain ⟨c, hc⟩ := Part.clerk_of_mem hin
    have hsomewhere : ((s.part.keyTaken st tag).signedOnAt n).isNone = false := by
      rw [← Option.not_isSome, Bool.not_eq_false', Part.signedOnAt_isSome_iff]
      exact hbusy
    refine State.key_refused_off h (hoperator hempty) ?_
    simp only [Part.serveSignedOff, keySignOn, within_true.2 ⟨h1, h99⟩, Part.needClerk_found (p := s.part.keyTaken st tag)
      hremoving hc, hsomewhere, check_true, check_false, ok_bind, error_bind]
  case badNumber =>
    have hn : within 1 99 n = false := within_false.2 (by omega)
    exact State.key_refused_off h (hoperator hempty) (by simp [Part.serveSignedOff, keySignOn, hn])
  case removing =>
    have hremoving := Part.needClerk_removing ((Part.removing_iff (s.part.keyTaken st tag) n).2 ⟨hostTag, req, hserving⟩)
    exact State.key_refused_off h (hoperator hempty)
      (by simp [Part.serveSignedOff, keySignOn, within_true.2 ⟨h1, h99⟩, hremoving])
  case missing =>
    have hnone := Part.needClerk_missing (p := s.part.keyTaken st tag) (Part.removing_eq_false hserving)
      ((Part.clerk_eq_none_iff _ n).2 hmissing)
    exact State.key_refused_off h (hoperator hempty)
      (by simp [Part.serveSignedOff, keySignOn, within_true.2 ⟨h1, h99⟩, hnone])
  case signOff =>
    obtain ⟨q, hq, hoff⟩ := Part.endSignOn_ends hactive
    exact ⟨q, State.key_accepted_on h (by simp [Part.serveSignedOn, keySignOff, hq]), hoff⟩
  case offBad =>
    subst hreq
    have hn : within 1 99 n = false := within_false.2 (by omega)
    exact State.serve_now hs (by simp only [serveSignOffClerk, Part.signOffClerk, hn, check_false, error_bind]; rfl)
  case offMissing =>
    subst hreq
    have hnone : s.part.taken.clerk n = none := (Part.clerk_eq_none_iff _ n).2 hmissing
    exact State.serve_now hs (by
      simp only [serveSignOffClerk, Part.signOffClerk, within_true.2 ⟨h1, h99⟩, hnone, Option.isSome_none, check_true,
        check_false, ok_bind, error_bind]
      rfl)
  case offNowhere =>
    subst hreq
    have hin' := (Part.clerk_isSome_iff s.part.taken n).2 hin
    have hnone : s.part.taken.signedOnAt n = none := by
      rw [← Option.not_isSome_iff_eq_none, Part.signedOnAt_isSome_iff]
      exact fun ⟨x, hx⟩ => hnowhere x hx
    exact State.serve_now hs (by
      simp only [serveSignOffClerk, Part.signOffClerk, within_true.2 ⟨h1, h99⟩, hin', hnone, check_true, need_none,
        ok_bind, error_bind]
      rfl)
  case offClerk =>
    subst hreq
    have hin' := (Part.clerk_isSome_iff s.part.taken n).2 hin
    have hfound := Part.signedOnAt_eq (p := s.part.taken) hat hone
    obtain ⟨q, hq, hoff⟩ := Part.endSignOn_ends (p := s.part.taken) (st := st) hactive
    refine ⟨q, State.serve_now hs ?_, hoff⟩
    simp only [serveSignOffClerk, Part.signOffClerk, within_true.2 ⟨h1, h99⟩, hin', hfound, hq, check_true, need_some,
      ok_bind, pure_eq_ok]
    rfl

end Sys2Proof.Machine
end


-- ==== Sys2Proof/Proofs/Overrides.lean ====
section
/-! Overrides (R84 to R87): OVERRIDE in its order of checks, and the ends of an override context. -/

namespace Sys2Proof.Machine

section
variable {p : Part} {st : StationNo} {operator n : Nat}

theorem keyOverride_badValue (hn : within 1 99 n = false) : keyOverride st n p = .error .badValue := by
  simp [keyOverride, hn]

theorem keyOverride_nested {x d : Nat} (hn : within 1 99 n = true) (h : p.oc.stack.get st = .overridden operator x d) :
    keyOverride st n p = .error .nestLimit := by
  simp [keyOverride, hn, Part.stack, h, Stack.second]

theorem keyOverride_refused {e : Reason} (hn : within 1 99 n = true) (h : p.oc.stack.get st = .signedOn operator)
    (hc : p.needClerk n = .error e) : keyOverride st n p = .error e := by
  simp [keyOverride, hn, Part.stack, h, Stack.second, hc]

theorem keyOverride_clerk {c : Clerk} (hn : within 1 99 n = true) (h : p.oc.stack.get st = .signedOn operator)
    (hc : p.needClerk n = .ok c) (hrole : c.role = .clerk) : keyOverride st n p = .error .notAllowed := by
  simp [keyOverride, hn, Part.stack, h, Stack.second, hc, hrole]

theorem keyOverride_supervisor {c : Clerk} (hn : within 1 99 n = true) (h : p.oc.stack.get st = .signedOn operator)
    (hc : p.needClerk n = .ok c) (hrole : c.role = .supervisor) : keyOverride st n p
      = .ok (p.withStack st (.overridden operator n (p.time.elapsed + 30000)), .nothing) := by
  simp [keyOverride, hn, Part.stack, h, Stack.second, Stack.operator, hc, hrole, Part.now, Config.overrideMs]

theorem keyEndOverride_ends {x d : Nat} (h : p.oc.stack.get st = .overridden operator x d) :
    keyEndOverride st p = .ok (p.withStack st (.signedOn operator), .nothing) := by
  simp [keyEndOverride, Part.endOverride, Part.stack, h, Stack.second, Stack.restored]

theorem keyEndOverride_none (h : p.oc.stack.get st = .signedOn operator) : keyEndOverride st p = .error .wrongState := by
  simp [keyEndOverride, Part.stack, h, Stack.second]

theorem Part.overrideDeadline_ends {x d : Nat} (h : p.oc.stack.get st = .overridden operator x d) :
    p.overrideDeadline st = { p with
      oc := { p.oc with stack := p.oc.stack.set st (.signedOn operator) }
      time := p.time.advance (d - p.time.elapsed) } := by
  have hreached : (p.reach d).oc.stack.get st = .overridden operator x d := h
  simp only [Part.overrideDeadline, Part.stack, h, Part.endOverride, hreached, Stack.restored]
  rfl

end

theorem State.takesKeyOf_of_stack {s : State} {st : StationNo} {tag operator : Nat} (h : s.takesKey st tag)
    (hs : (s.part.oc.stack.get st).operator = some operator) : s.takesKeyOf st tag operator := ⟨h, hs⟩

/-- Settles O20, check by check. -/
theorem overridesLastThirtySeconds : Obligations.OverridesLastThirtySeconds := by
  intro s st tag operator n
  have signed (h : s.takesKey st tag) (hs : s.part.oc.stack.get st = .signedOn operator) :
      s.takesKeyOf st tag operator := State.takesKeyOf_of_stack h (congrArg Stack.operator hs)
  have overridden {x d : Nat} (h : s.takesKey st tag) (hs : s.part.oc.stack.get st = .overridden operator x d) :
      s.takesKeyOf st tag operator := State.takesKeyOf_of_stack h (congrArg Stack.operator hs)
  refine ⟨fun c h hs hc hremoving h1 h99 => ⟨fun hrole => ?taken, fun hrole => ?noSupervisor⟩,
    fun x d h hs h1 h99 => ?nested, fun h hbad => ?badNumber, fun h hs h1 h99 => ⟨fun hostTag req hserving => ?removing,
      fun hserving hmissing => ?missing⟩, fun x d h hs => ?ended, fun h hs => ?absent, fun x d hr hs => ?expired⟩
  case taken =>
    have hfound := Part.needClerk_found (p := s.part.keyTaken st tag) hremoving hc
    exact State.key_accepted_on (signed h hs) (keyOverride_supervisor (within_true.2 ⟨h1, h99⟩) hs hfound hrole)
  case noSupervisor =>
    have hfound := Part.needClerk_found (p := s.part.keyTaken st tag) hremoving hc
    exact State.key_refused_on (signed h hs) (keyOverride_clerk (within_true.2 ⟨h1, h99⟩) hs hfound hrole)
  case nested => exact State.key_refused_on (overridden h hs) (keyOverride_nested (within_true.2 ⟨h1, h99⟩) hs)
  case badNumber => exact State.key_refused_on h (keyOverride_badValue (within_false.2 (by omega)))
  case removing =>
    have hbusy := Part.needClerk_removing ((Part.removing_iff (s.part.keyTaken st tag) n).2 ⟨hostTag, req, hserving⟩)
    exact State.key_refused_on (signed h hs) (keyOverride_refused (within_true.2 ⟨h1, h99⟩) hs hbusy)
  case missing =>
    have hnone := Part.needClerk_missing (p := s.part.keyTaken st tag) (Part.removing_eq_false hserving) hmissing
    exact State.key_refused_on (signed h hs) (keyOverride_refused (within_true.2 ⟨h1, h99⟩) hs hnone)
  case ended => exact State.key_accepted_on (overridden h hs) (keyEndOverride_ends hs)
  case absent => exact State.key_refused_on (signed h hs) (keyEndOverride_none hs)
  case expired => exact (State.act_runs hr (fun p => p.overrideDeadline st)).trans (by rw [Part.overrideDeadline_ends hs])

end Sys2Proof.Machine
end


-- ==== Sys2Proof/Proofs/Selections.lean ====
section
/-! The selection at a station (R20, R38 to R41, R46): SELECT and REPEAT, QUANTITY, and PRICE OVERRIDE. -/

namespace Sys2Proof.Machine

/-! ## The tare after a selection report (R20) -/

section
variable {c : Channel} {preset : Option Nat}

theorem Tare.withoutPreset_weighed {t : Tare} (h : t.kind = .weighed) : t.withoutPreset = t := by
  simp [Tare.withoutPreset, h]

theorem Tare.withoutPreset_preset {t : Tare} (h : t.kind = .preset) : t.withoutPreset = ⟨.none, 0⟩ := by
  simp [Tare.withoutPreset, h]

theorem Tare.withoutPreset_none {t : Tare} (h : t.kind = .none) : t.withoutPreset = t := by
  simp [Tare.withoutPreset, h]

/-- A tare that is not weighed is none once a preset tare has been removed. -/
theorem Tare.withoutPreset_kind {t : Tare} (h : t.kind ≠ .weighed) : t.withoutPreset.kind = .none := by
  cases hk : t.kind with
  | none => rw [Tare.withoutPreset_none hk, hk]
  | weighed => exact absurd hk h
  | preset => rw [Tare.withoutPreset_preset hk]

theorem Channel.presetFor_weighed {t : Tare} (h : t.kind = .weighed) : c.presetFor t preset = t := by
  cases preset <;> simp [Channel.presetFor, h]

/-- A preset tare that is 0 or above Max is not taken. -/
theorem Channel.presetFor_unfit {t : Tare} (h : ∀ v, preset = some v → v = 0 ∨ c.cal.max < v) : c.presetFor t preset = t := by
  cases preset with
  | none => rfl
  | some v =>
    have hunfit : ¬ (0 < v ∧ v ≤ c.cal.max) := by have := h v rfl; omega
    have htest : (decide (t.kind = .none) && decide (0 < v) && decide (v ≤ c.cal.max)) = false := by
      rw [Bool.and_assoc, Bool.and_eq_false_iff, Bool.and_eq_false_iff, decide_eq_false_iff_not, decide_eq_false_iff_not,
        decide_eq_false_iff_not]
      tauto
    simp only [Channel.presetFor, htest, Bool.false_eq_true, if_false]

theorem Channel.presetFor_fit {t : Tare} {v : Nat} (h : t.kind = .none) (hv : 0 < v) (hmax : v ≤ c.cal.max) :
    c.presetFor t (some v) = ⟨.preset, v⟩ := by
  simp [Channel.presetFor, h, hv, hmax]

end

/-! ## SELECT and REPEAT (R38, R40) -/

section
variable {p : Part} {st : StationNo} {n : Nat}

theorem Part.sellable_missing (h : p.article n = none) : p.sellable n = .error .noSuch := by rw [Part.sellable, h]

theorem Part.sellable_held {a : Article} (h : p.article n = some a) (hheld : a.held = true) :
    p.sellable n = .error .held := by
  simp [Part.sellable, h, hheld]

theorem Part.sellable_free {a : Article} (h : p.article n = some a) (hheld : a.held = false) : p.sellable n = .ok a := by
  simp [Part.sellable, h, hheld]

end

/-- The two ways of choosing the article of a number make one check, `Part.sellable`, and take the article that it gives. -/
theorem exec_choose {s : State} {st : StationNo} {tag operator n : Nat} {c : Instr} (h : s.takesKeyOf st tag operator)
    (hc : (c = .select st tag n ∧ 1 ≤ n ∧ n ≤ 99999)
      ∨ (c = .repeatEntry st tag ∧ ((s.part.keyTaken st tag).art.selections.get st).repeatEntry = some n)) :
    (∀ e, (s.part.keyTaken st tag).sellable n = .error e →
      exec c s = .next (s.outcome (s.part.keyTaken st tag) st tag (.refused e)))
    ∧ ∀ a, (s.part.keyTaken st tag).sellable n = .ok a →
      exec c s = .next (s.outcome ((s.part.keyTaken st tag).choose st a) st tag (.accepted .nothing)) := by
  rcases hc with ⟨rfl, h1, hmax⟩ | ⟨rfl, hentry⟩
  · refine ⟨fun e he => State.key_refused_on h ?_, fun a ha => State.key_accepted_on h ?_⟩
    · simp [Part.serveSignedOn, keySelect, within_true.2 ⟨h1, hmax⟩, he]
    · simp [Part.serveSignedOn, keySelect, within_true.2 ⟨h1, hmax⟩, ha]
  · refine ⟨fun e he => State.key_refused_on h ?_, fun a ha => State.key_accepted_on h ?_⟩
    · simp [Part.serveSignedOn, keyRepeat, hentry, he]
    · simp [Part.serveSignedOn, keyRepeat, hentry, ha]

/-! ## QUANTITY and PRICE OVERRIDE (R39, R46) -/

section
variable {p : Part} {st : StationNo} {n count price supervisor : Nat} {a : Article}

theorem keyQuantity_unselected (h : (p.art.selections.get st).article = none) :
    keyQuantity st count p = .error .noSelection := by
  simp [keyQuantity, h]

theorem keyQuantity_uncounted (h : (p.art.selections.get st).article = some n) (ha : p.article n = some a)
    (hk : a.kind ≠ .counted) : keyQuantity st count p = .error .wrongState := by
  simp [keyQuantity, h, ha, hk]

theorem keyQuantity_badValue (h : (p.art.selections.get st).article = some n) (ha : p.article n = some a)
    (hk : a.kind = .counted) (hn : within 1 99 count = false) : keyQuantity st count p = .error .badValue := by
  simp [keyQuantity, h, ha, hk, hn]

theorem keyQuantity_takes (h : (p.art.selections.get st).article = some n) (ha : p.article n = some a)
    (hk : a.kind = .counted) (hn : within 1 99 count = true) : keyQuantity st count p
      = .ok (p.onSelection st (fun s => { s with quantity := count }), .nothing) := by
  simp [keyQuantity, h, ha, hk, hn]

theorem keyPriceOverride_unselected (h : (p.art.selections.get st).article = none) :
    keyPriceOverride st price supervisor p = .error .noSelection := by
  simp [keyPriceOverride, h]

theorem keyPriceOverride_badValue (h : (p.art.selections.get st).article ≠ none) (hn : within 1 99999 price = false) :
    keyPriceOverride st price supervisor p = .error .badValue := by
  obtain ⟨m, hm⟩ := Option.ne_none_iff_exists'.1 h
  simp [keyPriceOverride, hm, Config.maxPrice, hn]

theorem keyPriceOverride_takes (h : (p.art.selections.get st).article = some n) (hn : within 1 99999 price = true) :
    keyPriceOverride st price supervisor p
      = .ok (p.onSelection st (fun s => { s with override := some ⟨price, supervisor⟩ }), .nothing) := by
  simp [keyPriceOverride, h, Config.maxPrice, hn]

/-! ## Privileged requests (R79, R85) -/

theorem Part.privileged_refused (serve : Nat → Part → Served) (h : p.supervisor st = none) :
    p.privileged st serve = .error .notAllowed := by
  simp [Part.privileged, h]

theorem Part.privileged_error {serve : Nat → Part → Served} {e : Reason} (h : p.supervisor st = some supervisor)
    (hs : serve supervisor p = .error e) : p.privileged st serve = .error e := by
  simp [Part.privileged, h, hs]

theorem Part.privileged_ok {serve : Nat → Part → Served} {q : Part} {d : ResultData} (h : p.supervisor st = some supervisor)
    (hs : serve supervisor p = .ok (q, d)) : p.privileged st serve = .ok (q.endOverride st, d) := by
  simp [Part.privileged, h, hs]

end

/-- The stack of a station without its second entry holds its operator alone. -/
theorem Stack.restored_of_operator {x : Stack} {operator : Nat} (h : x.operator = some operator) :
    x.restored = .signedOn operator := by
  cases x <;> simp_all [Stack.operator, Stack.restored]

/-- Settles O22: what the choice of an article does to the tare by `Channel.presetFor`, and the other keys check by check. -/
theorem selectionKeys : Obligations.SelectionKeys := by
  refine ⟨fun s st tag operator n h => ⟨fun c hc => ⟨fun hmissing => ?missing, fun a ha hheld => ?held,
    fun a ha hfree => ?chosen⟩, fun hbad => ?badNumber, fun hnone => ?noEntry⟩,
    fun s st tag operator n count price h => ⟨fun hnone => ?unselected, fun a hsel ha => ⟨fun hk => ?uncounted,
      fun hk hbad => ?badCount, fun hk h1 h99 => ?counted⟩, fun supervisor hsup => ⟨fun hnone => ?noSelection,
      fun hsel hbad => ?badPrice, fun hsel h1 hmax => ?overridden⟩, fun hsup => ?notAllowed⟩⟩
  case missing => exact (exec_choose h hc).1 _ (Part.sellable_missing hmissing)
  case held => exact (exec_choose h hc).1 _ (Part.sellable_held ha hheld)
  case chosen =>
    refine ⟨(s.part.keyTaken st tag).choose st a, (exec_choose h hc).2 a (Part.sellable_free ha hfree), rfl,
      fun x hx => PerStation.get_set_other _ _ hx, ?_⟩
    have hchannel : ((s.part.keyTaken st tag).choose st a).wc.get st
        = ((s.part.keyTaken st tag).wc.get st).report (.chosen a.presetTare) := PerStation.get_set_same _ _ _
    rw [hchannel]
    refine ⟨rfl, fun hw => ?_, fun hw hunfit => ⟨fun hpreset => ?_, fun hnone => ?_⟩, fun v hw hv hpos hmax => ?_,
      rfl, rfl, rfl, rfl, rfl, rfl, rfl, rfl, rfl, rfl⟩
    · simp only [Channel.report, Tare.withoutPreset_weighed hw, Channel.presetFor_weighed hw]
    · simp only [Channel.report, Tare.withoutPreset_preset hpreset]
      exact Channel.presetFor_unfit hunfit
    · simp only [Channel.report, Tare.withoutPreset_none hnone]
      exact Channel.presetFor_unfit hunfit
    · simp only [Channel.report, hv]
      exact Channel.presetFor_fit (Tare.withoutPreset_kind hw) hpos hmax
  case badNumber =>
    have hn : within 1 99999 n = false := within_false.2 (by omega)
    exact State.key_refused_on h (by simp [Part.serveSignedOn, keySelect, hn])
  case noEntry => exact State.key_refused_on h (by simp [Part.serveSignedOn, keyRepeat, hnone])
  case unselected => exact State.key_refused_on h (keyQuantity_unselected hnone)
  case uncounted => exact State.key_refused_on h (keyQuantity_uncounted hsel ha hk)
  case badCount => exact State.key_refused_on h (keyQuantity_badValue hsel ha hk (within_false.2 (by omega)))
  case counted => exact State.key_accepted_on h (keyQuantity_takes hsel ha hk (within_true.2 ⟨h1, h99⟩))
  case noSelection =>
    exact State.key_refused_on h (Part.privileged_error hsup (keyPriceOverride_unselected hnone))
  case badPrice =>
    exact State.key_refused_on h (Part.privileged_error hsup (keyPriceOverride_badValue hsel (within_false.2 (by omega))))
  case overridden =>
    have hserve := Part.privileged_ok (serve := fun x => keyPriceOverride st price x) hsup
      (keyPriceOverride_takes hsel (within_true.2 ⟨h1, hmax⟩))
    have hstack : ((s.part.keyTaken st tag).stack st).restored = .signedOn operator := Stack.restored_of_operator h.2
    have hend (f : Selection → Selection) : ((s.part.keyTaken st tag).onSelection st f).endOverride st
        = ((s.part.keyTaken st tag).onSelection st f).withStack st (.signedOn operator) := by
      rw [Part.endOverride, show ((s.part.keyTaken st tag).onSelection st f).stack st
        = (s.part.keyTaken st tag).stack st from rfl, hstack]
    rw [hend] at hserve
    exact State.key_accepted_on h hserve
  case notAllowed => exact State.key_refused_on h (Part.privileged_refused _ hsup)

end Sys2Proof.Machine
end


-- ==== Sys2Proof/Proofs/ZeroTare.lean ====
section
/-! ZERO, TARE and CLEAR TARE (R14, R15, R19, R21): the checks of the channel in their order, at any stack and in every counter
state. -/

namespace Sys2Proof.Machine

/-! ## The way of the three keys through OC (R78) -/

/-- What the channel of a station makes of a weighing key. -/
def Part.weighingKey (p : Part) (st : StationNo) : Key → Except Reason Channel
  | .zero => (p.wc.get st).keyZero p.now
  | .tare => (p.wc.get st).keyTare (p.link st)
  | _ => (p.wc.get st).keyClearTare

/-- A weighing key is served by its channel, whatever the stack and the counter state. -/
theorem Part.serveKey_weighing {p : Part} {st : StationNo} (hd : p.disabling st = false) {k : Key}
    (hk : isWeighingKey k = true) : p.serveKey st k = p.onKeyChannel st (p.weighingKey st k) := by
  have hserve : p.serveSignedOff st k = p.onKeyChannel st (p.weighingKey st k)
      ∧ ∀ operator, p.serveSignedOn st operator k = p.onKeyChannel st (p.weighingKey st k) := by
    cases k with
    | zero => exact ⟨rfl, fun _ => rfl⟩
    | tare => exact ⟨rfl, fun _ => rfl⟩
    | clearTare => exact ⟨rfl, fun _ => rfl⟩
    | _ => cases hk
  simp only [Part.serveKey, hd, hk, Bool.not_true, Bool.and_false, Bool.false_eq_true, if_false]
  cases (p.stack st).operator with
  | none => exact hserve.1
  | some operator => exact hserve.2 operator

section
variable {s : State} {st : StationNo} {tag : Nat} {k : Key}

theorem State.weighing_answered (h : s.hearsKey st tag) (hk : isWeighingKey k = true) :
    s.act (fun p => p.keyRequest st tag k) = .next (s.keyAnswer (s.part.keyTaken st tag) st tag
      ((s.part.keyTaken st tag).onKeyChannel st ((s.part.keyTaken st tag).weighingKey st k))) := by
  obtain ⟨hr, hl, h1, h255, hkept, hd⟩ := h
  rw [State.key_answered hr hl h1 h255 hkept, Part.serveKey_weighing (p := s.part.keyTaken st tag) hd hk]

theorem State.weighing_refused (h : s.hearsKey st tag) (hk : isWeighingKey k = true) {e : Reason}
    (hr : (s.part.keyTaken st tag).weighingKey st k = .error e) : s.act (fun p => p.keyRequest st tag k)
      = .next (s.outcome (s.part.keyTaken st tag) st tag (.refused e)) := by
  rw [State.weighing_answered h hk, hr]
  rfl

theorem State.weighing_accepted (h : s.hearsKey st tag) (hk : isWeighingKey k = true) {x : Channel}
    (hr : (s.part.keyTaken st tag).weighingKey st k = .ok x) : s.act (fun p => p.keyRequest st tag k)
      = .next (s.outcome { s.part.keyTaken st tag with wc := (s.part.keyTaken st tag).wc.set st x } st tag
          (.accepted .nothing)) := by
  rw [State.weighing_answered h hk, hr]
  rfl

end

/-! ## ZERO at a channel (R14, R15) -/

section
variable {c : Channel} {g : Int} {now : Nat}

theorem Channel.keyZero_error {e : Reason} (h : c.zeroChecks = .error e) : c.keyZero now = .error e := by
  simp only [Channel.keyZero, h]

theorem Channel.zeroChecks_moving (hs : c.session = false) (hr : c.rail = false)
    (h : ¬ (c.stable = true ∧ c.phase ≠ .settling)) : c.zeroChecks = .error .motion := by
  have htest : (!c.stable || decide (c.phase = .settling)) = true := by
    cases hstable : c.stable <;> simp_all
  simp [Channel.zeroChecks, hs, hr, htest]

theorem Channel.zeroChecks_steady (hs : c.session = false) (hr : c.rail = false)
    (h : c.stable = true ∧ c.phase ≠ .settling) :
    c.zeroChecks = if c.tare.kind ≠ .none then .error .tareSet else need c.filtered .motion := by
  simp [Channel.zeroChecks, hs, hr, h.1, h.2]

theorem Channel.keyZero_at (hs : c.session = false) (hr : c.rail = false) (h : c.stable = true ∧ c.phase ≠ .settling)
    (ht : c.tare.kind = .none) (hg : c.filtered = some g) : c.keyZero now = c.zeroAt g now := by
  simp [Channel.keyZero, Channel.zeroChecks_steady hs hr h, ht, hg]

theorem inBand_two_iff {max : Nat} {x : Int} : inBand 2 max x = true ↔ 100 * x.natAbs ≤ 20 * max := by
  rw [inBand, decide_eq_true_iff]
  omega

theorem inBand_ten_iff {max : Nat} {x : Int} : inBand 10 max x = true ↔ 100 * x.natAbs ≤ 100 * max := by
  rw [inBand, decide_eq_true_iff]
  omega

theorem Channel.zeroAt_zeroed {z : Int} (hphase : c.phase = .zeroed) (hz : c.zpu = some z) :
    c.zeroAt g now = if inBand 2 c.cal.max (g - z) then .ok { c with zo := g, lastZeroChange := some now }
      else .error .zeroRange := by
  simp only [Channel.zeroAt, hphase, hz]

theorem Channel.zeroAt_pending (hphase : c.phase = .zeroPending) :
    c.zeroAt g now = if inBand 10 c.cal.max g
      then .ok { c with zpu := some g, zo := g, phase := .zeroed, lastZeroChange := some now } else .error .zeroRange := by
  simp only [Channel.zeroAt, hphase]

/-! ## TARE at a channel (R19) -/

variable {link : Link}

theorem Channel.keyTare_reason {e : Reason} (h : tareReason (c.state link) = some e) : c.keyTare link = .error e := by
  simp only [Channel.keyTare, h]

theorem Channel.settling_of_state (h : c.state link = .settling) : c.phase = .settling := by
  unfold Channel.state at h
  by_cases hp : c.phase = .settling
  · exact hp
  · simp only [if_neg hp] at h
    split at h
    · cases h
    split at h
    · cases h
    split at h
    · cases h
    split at h
    · cases h
    split at h
    · cases h
    split at h
    · cases h
    split at h <;> cases h

theorem Channel.unsettled_of_state (h : c.state link = .ready ∨ c.state link = .uncalibrated) : c.phase ≠ .settling := by
  intro hp
  unfold Channel.state at h
  simp only [if_pos hp] at h
  split at h
  · simp at h
  split at h
  · simp at h
  split at h <;> simp at h

theorem Channel.keyTare_settling (h : c.state link = .settling) : c.keyTare link = .error .motion := by
  have hp := Channel.settling_of_state h
  cases hg : c.gross <;> simp [Channel.keyTare, h, tareReason, hg, hp]

/-- In READY and UNCALIBRATED no state refuses a TARE. -/
theorem tareReason_none (h : c.state link = .ready ∨ c.state link = .uncalibrated) : tareReason (c.state link) = none := by
  rcases h with h | h <;> rw [h] <;> rfl

theorem Channel.keyTare_moving (h : c.state link = .ready ∨ c.state link = .uncalibrated)
    (hm : c.filtered = none ∨ c.stable = false) : c.keyTare link = .error .motion := by
  cases hg : c.gross with
  | none => simp [Channel.keyTare, tareReason_none h, hg]
  | some g =>
    have hstable : c.stable = false := hm.resolve_left fun hnone => by simp [Channel.gross, hnone] at hg
    simp [Channel.keyTare, tareReason_none h, hg, hstable]

/-- A steady channel in READY or UNCALIBRATED judges the tare and the rounded gross. -/
theorem Channel.keyTare_steady (h : c.state link = .ready ∨ c.state link = .uncalibrated) (hg : c.filtered = some g)
    (hs : c.stable = true) : c.keyTare link = if c.tare.kind ≠ .none then .error .tareSet
      else if divRound (g - c.zo) (10 * c.cal.e1) * c.cal.e1 < c.cal.e1
        ∨ c.cal.max < divRound (g - c.zo) (10 * c.cal.e1) * c.cal.e1 then .error .range
      else .ok { c with tare := ⟨.weighed, (divRound (g - c.zo) (10 * c.cal.e1) * c.cal.e1).toNat⟩ } := by
  have hgross : c.gross = some (g - c.zo) := by rw [Channel.gross, hg, Option.map_some]
  simp [Channel.keyTare, tareReason_none h, hgross, hs, Channel.unsettled_of_state h]

end

/-- Settles O23: each key by the checks of its channel, which the stack and the counter state do not touch. -/
theorem zeroAndTareKeys : Obligations.ZeroAndTareKeys := by
  intro s st tag g h
  refine ⟨fun hs => ?zeroSession, fun hs hr => ?zeroRail, fun hs hr => ⟨fun hm => ?zeroMoving, fun hm ht => ?zeroTare,
    fun hm ht hg => ⟨fun z hp hz => ⟨fun hin => ?zeroed, fun hout => ?zeroedOut⟩,
      fun hp => ⟨fun hin => ?pending, fun hout => ?pendingOut⟩⟩⟩,
    fun hw => ?calibrating, fun hw => ?rail, fun hw => ?zeroPending, fun hw => ?overload, fun hw => ?underload,
    fun hw => ?settling, fun hw => ⟨fun hm => ?tareMoving, fun hg hs => ⟨fun ht => ?tareSet, fun ht hlow hhigh => ?tared,
      fun ht hout => ?tareRange⟩⟩, fun hs => ?cleared, fun hs => ?clearSession⟩
  case zeroSession =>
    exact State.weighing_refused h rfl (Channel.keyZero_error (by simp [Channel.zeroChecks, hs]))
  case zeroRail =>
    exact State.weighing_refused h rfl (Channel.keyZero_error (by simp [Channel.zeroChecks, hs, hr]))
  case zeroMoving => exact State.weighing_refused h rfl (Channel.keyZero_error (Channel.zeroChecks_moving hs hr hm))
  case zeroTare =>
    exact State.weighing_refused h rfl (Channel.keyZero_error ((Channel.zeroChecks_steady hs hr hm).trans (if_pos ht)))
  case zeroed =>
    exact State.weighing_accepted h rfl ((Channel.keyZero_at hs hr hm ht hg).trans
      ((Channel.zeroAt_zeroed hp hz).trans (if_pos (inBand_two_iff.2 hin))))
  case zeroedOut =>
    exact State.weighing_refused h rfl ((Channel.keyZero_at hs hr hm ht hg).trans
      ((Channel.zeroAt_zeroed hp hz).trans (if_neg (mt inBand_two_iff.1 (Nat.not_le.2 hout)))))
  case pending =>
    exact State.weighing_accepted h rfl ((Channel.keyZero_at hs hr hm ht hg).trans
      ((Channel.zeroAt_pending hp).trans (if_pos (inBand_ten_iff.2 hin))))
  case pendingOut =>
    exact State.weighing_refused h rfl ((Channel.keyZero_at hs hr hm ht hg).trans
      ((Channel.zeroAt_pending hp).trans (if_neg (mt inBand_ten_iff.1 (Nat.not_le.2 hout)))))
  case calibrating => exact State.weighing_refused h rfl (Channel.keyTare_reason (by rw [hw]; rfl))
  case rail => exact State.weighing_refused h rfl (Channel.keyTare_reason (by rw [hw]; rfl))
  case zeroPending => exact State.weighing_refused h rfl (Channel.keyTare_reason (by rw [hw]; rfl))
  case overload => exact State.weighing_refused h rfl (Channel.keyTare_reason (by rw [hw]; rfl))
  case underload => exact State.weighing_refused h rfl (Channel.keyTare_reason (by rw [hw]; rfl))
  case settling => exact State.weighing_refused h rfl (Channel.keyTare_settling hw)
  case tareMoving => exact State.weighing_refused h rfl (Channel.keyTare_moving hw hm)
  case tareSet => exact State.weighing_refused h rfl ((Channel.keyTare_steady hw hg hs).trans (if_pos ht))
  case tared =>
    exact State.weighing_accepted h rfl ((Channel.keyTare_steady hw hg hs).trans
      ((if_neg (not_not.2 ht)).trans (if_neg (not_or.2 ⟨not_lt.2 hlow, not_lt.2 hhigh⟩))))
  case tareRange =>
    exact State.weighing_refused h rfl ((Channel.keyTare_steady hw hg hs).trans
      ((if_neg (not_not.2 ht)).trans (if_pos hout)))
  case cleared => exact State.weighing_accepted h rfl (by simp only [Part.weighingKey, Channel.keyClearTare, hs]; rfl)
  case clearSession => exact State.weighing_refused h rfl (by simp only [Part.weighingKey, Channel.keyClearTare, hs, if_true])

end Sys2Proof.Machine
end


-- ==== Sys2Proof/Proofs/Samples.lean ====
section
/-! Samples (R6 to R16, R28): the rounding of a quotient, the spread of a history, and what one sample does to a channel, step by
step: the filter, the power-up zero, the tracking and the release of the interlock. -/

namespace Sys2Proof.Machine

/-! ## Rounding (section 5.2) -/

/-- Twice the distance of a number from its rounded multiple, and on which side a tie lies. -/
theorem rounded_multiple (n : Nat) {d : Nat} (hd : 0 < d) :
    2 * ((2 * n + d) / (2 * d) * d) ≤ 2 * n + d ∧ 2 * n < 2 * ((2 * n + d) / (2 * d) * d) + d := by
  have hle : (2 * n + d) / (2 * d) * (2 * d) ≤ 2 * n + d := Nat.div_mul_le_self _ _
  have hlt : 2 * n + d < (2 * n + d) / (2 * d) * (2 * d) + 2 * d := Nat.lt_div_mul_add (by omega)
  rw [Nat.mul_left_comm] at hle hlt
  omega

theorem divRound_nearest (x : Int) {d : Nat} (hd : 0 < d) : 2 * (x - divRound x d * d).natAbs ≤ d
    ∧ (2 * (x - divRound x d * d).natAbs = d → x.natAbs ≤ (divRound x d * d).natAbs) := by
  obtain ⟨hle, hlt⟩ := rounded_multiple x.natAbs hd
  unfold divRound
  split
  · rw [Int.neg_mul, Int.ofNat_eq_natCast, ← Int.natCast_mul]
    omega
  · rw [Int.ofNat_eq_natCast, ← Int.natCast_mul]
    omega

/-! ## The spread of a history (R11) -/

theorem foldl_max_spec (xs : List Int) (x : Int) :
    xs.foldl max x ∈ x :: xs ∧ ∀ y ∈ x :: xs, y ≤ xs.foldl max x := by
  induction xs generalizing x with
  | nil => simp
  | cons z zs ih =>
    obtain ⟨hmem, hge⟩ := ih (max x z)
    have hmax : max x z ≤ zs.foldl max (max x z) := hge _ List.mem_cons_self
    simp only [List.foldl_cons, List.mem_cons] at hmem hge ⊢
    refine ⟨?_, fun y hy => ?_⟩
    · rcases hmem with h | h
      · rcases max_choice x z with hc | hc <;> rw [h, hc] <;> simp
      · exact .inr (.inr h)
    · rcases hy with rfl | rfl | hy
      · exact le_trans (le_max_left _ _) hmax
      · exact le_trans (le_max_right _ _) hmax
      · exact hge y (.inr hy)

theorem foldl_min_spec (xs : List Int) (x : Int) :
    xs.foldl min x ∈ x :: xs ∧ ∀ y ∈ x :: xs, xs.foldl min x ≤ y := by
  induction xs generalizing x with
  | nil => simp
  | cons z zs ih =>
    obtain ⟨hmem, hle⟩ := ih (min x z)
    have hmin : zs.foldl min (min x z) ≤ min x z := hle _ List.mem_cons_self
    simp only [List.foldl_cons, List.mem_cons] at hmem hle ⊢
    refine ⟨?_, fun y hy => ?_⟩
    · rcases hmem with h | h
      · rcases min_choice x z with hc | hc <;> rw [h, hc] <;> simp
      · exact .inr (.inr h)
    · rcases hy with rfl | rfl | hy
      · exact le_trans hmin (min_le_left _ _)
      · exact le_trans hmin (min_le_right _ _)
      · exact hle y (.inr hy)

theorem spread_le_iff {l : List Int} (hl : l ≠ []) (k : Int) :
    spread l ≤ k ↔ ∀ x ∈ l, ∀ y ∈ l, x - y ≤ k := by
  cases l with
  | nil => exact absurd rfl hl
  | cons z zs =>
    obtain ⟨hmax, hge⟩ := foldl_max_spec zs z
    obtain ⟨hmin, hle⟩ := foldl_min_spec zs z
    refine ⟨fun h x hx y hy => ?_, fun h => h _ hmax _ hmin⟩
    have h1 := hge x hx
    have h2 := hle y hy
    simp only [spread] at h
    omega

/-- Eight values that lie within a spread. -/
theorem steady_iff (l : List Int) (k : Int) :
    (l.length == 8 && spread l ≤ k) = true ↔ l.length = 8 ∧ ∀ x ∈ l, ∀ y ∈ l, x - y ≤ k := by
  rw [Bool.and_eq_true, beq_iff_eq, decide_eq_true_iff]
  refine and_congr_right fun hlen => spread_le_iff (fun h => ?_) k
  rw [h] at hlen
  cases hlen

theorem Channel.stable_iff (c : Channel) : c.stable = true ↔ c.stability.length = 8
    ∧ ∀ x ∈ c.stability, ∀ y ∈ c.stability, x - y ≤ 5 * (c.cal.e1 : Int) := steady_iff _ _

/-! ## The filter (R7 to R9) -/

theorem newest_eight {α : Type} (l : List α) (x : α) : newest 8 (l ++ [x]) = (l ++ [x]).drop (l.length - 7) := by
  rw [newest, List.length_append, List.length_singleton]
  rfl

theorem windowLength_eq (d : Nat) : windowLength d = if d = 2 then 4 else if d = 3 then 8 else if d = 4 then 16 else 32 := by
  unfold windowLength
  split
  · rfl
  · rfl
  · rfl
  · next h2 h3 h4 => rw [if_neg h2, if_neg h3, if_neg h4]

theorem average_map {α : Type} (l : List α) (f : α → Int) : average (l.map f) = divRound (l.map f).sum l.length := by
  rw [average, List.length_map]

/-- The channel once a value that is not at a rail has joined its filter. -/
theorem Channel.filter_eq (c : Channel) (raw : Int) : c.filter raw =
    let n := if c.config.depthCode = 2 then 4 else if c.config.depthCode = 3 then 8
      else if c.config.depthCode = 4 then 16 else 32
    let joined : List Sample := c.window ++ [⟨raw, divRound ((raw - c.cal.zcal) * c.cal.lcal * 10) c.cal.scal⟩]
    let window := joined.drop (joined.length - n)
    let g := divRound (window.map Sample.fine).sum window.length
    let r := divRound (window.map Sample.raw).sum window.length
    { c with
      window := window
      filtered := some g
      filteredRaw := some r
      stability := (c.stability ++ [g]).drop (c.stability.length - 7)
      rawHistory := (c.rawHistory ++ [r]).drop (c.rawHistory.length - 7)
      rail := false } := by
  simp only [Channel.filter, newest_eight]
  simp only [average_map, newest, windowLength_eq, Channel.convert]

theorem isRail_iff (raw : Int) : isRail raw = true ↔ raw = -8388608 ∨ raw = 8388607 := by simp [isRail]

/-! ## The judgements on a new filtered value -/

/-- What the judgements leave of a channel. -/
def Channel.Judged (c d : Channel) : Prop :=
  d = { c with
    phase := d.phase
    zpu := d.zpu
    zo := d.zo
    lastZeroChange := d.lastZeroChange
    tare := d.tare
    interlock := d.interlock
    autoClearPending := d.autoClearPending }

theorem Channel.Judged.trans {a b c : Channel} (hab : a.Judged b) (hbc : b.Judged c) : a.Judged c := by
  unfold Channel.Judged at hab hbc ⊢
  rw [hab] at hbc
  exact hbc

theorem Channel.Judged.kept {a b : Channel} (h : a.Judged b) :
    b.cal = a.cal ∧ b.config = a.config ∧ b.filtered = a.filtered := by
  unfold Channel.Judged at h
  exact ⟨(congrArg Channel.cal h).trans rfl, (congrArg Channel.config h).trans rfl,
    (congrArg Channel.filtered h).trans rfl⟩

theorem Channel.powerUpZero_judged (c : Channel) (now : Nat) : c.Judged (c.powerUpZero now) := by
  unfold Channel.powerUpZero
  split
  · rfl
  · split
    · split <;> rfl
    · rfl

theorem Channel.track_judged (c : Channel) (now : Nat) : c.Judged (c.track now) := by
  unfold Channel.track
  split
  · split <;> rfl
  · rfl

theorem Channel.release_judged (c : Channel) : c.Judged c.release := by
  unfold Channel.release
  split
  · rfl
  · split <;> rfl

/-- The zero of a channel: its phase, its power-up zero, its zero offset and the last zero change. -/
def Channel.zeroing (c : Channel) : ZeroPhase × Option Int × Int × Option Nat := (c.phase, c.zpu, c.zo, c.lastZeroChange)

/-- What the release acts on: the tare, the interlock and the auto-clear mark. -/
def Channel.holding (c : Channel) : Tare × Interlock × Bool := (c.tare, c.interlock, c.autoClearPending)

theorem Channel.powerUpZero_holding (c : Channel) (now : Nat) : (c.powerUpZero now).holding = c.holding := by
  unfold Channel.powerUpZero
  split
  · rfl
  · split
    · split <;> rfl
    · rfl

theorem Channel.track_holding (c : Channel) (now : Nat) : (c.track now).holding = c.holding := by
  unfold Channel.track
  split
  · split <;> rfl
  · rfl

theorem Channel.release_zeroing (c : Channel) : c.release.zeroing = c.zeroing := by
  unfold Channel.release
  split
  · rfl
  · split <;> rfl

section
variable {c : Channel} {g : Int} {now : Nat}

/-- The power-up zero waits for a steady reading of a SETTLING channel (R13). -/
theorem Channel.powerUpZero_waits (h : c.phase ≠ .settling ∨ c.stable = false) : c.powerUpZero now = c := by
  have htest : (decide (c.phase = .settling) && c.stable) = false := by
    rcases h with h | h <;> simp [h]
  unfold Channel.powerUpZero
  split
  · rfl
  · rw [htest]
    rfl

theorem Channel.powerUpZero_decides (hg : c.filtered = some g) (hp : c.phase = .settling) (hs : c.stable = true) :
    c.powerUpZero now = if inBand 10 c.cal.max g then { c with phase := .zeroed, zpu := some g, zo := g, lastZeroChange := some now }
      else { c with phase := .zeroPending } := by
  simp [Channel.powerUpZero, hg, hp, hs]

/-- The tracking leaves a channel that is not ZEROED, or that stands at its zero (R16). -/
theorem Channel.track_rests (hg : c.filtered = some g) (h : c.phase ≠ .zeroed ∨ g = c.zo) : c.track now = c := by
  have htracks : c.tracks (g - c.zo) now = false := by
    rcases h with h | h
    · simp [Channel.tracks, h]
    · simp [Channel.tracks, h]
  unfold Channel.track
  split
  · next g' zpu hg' hz =>
    rw [hg] at hg'
    cases hg'
    rw [htracks]
    rfl
  · rfl

theorem Channel.rested_iff : c.trackingRested now = true ↔ ∃ m, c.lastZeroChange = some m ∧ m + 1000 ≤ now := by
  cases hm : c.lastZeroChange with
  | none => simp [Channel.trackingRested, hm]
  | some m =>
    simp only [Channel.trackingRested, hm, decide_eq_true_iff, Option.some.injEq, exists_eq_left']
    rfl

/-- When the tracking takes the filtered value as the zero (R16). -/
theorem Channel.tracking_iff {zpu : Int} (hp : c.phase = .zeroed) :
    (c.tracks (g - c.zo) now && inBand 2 c.cal.max (g - zpu)) = true ↔
      (c.state .present = .ready ∨ c.state .present = .uncalibrated) ∧ c.stable = true ∧ c.tare.kind = .none ∧ g ≠ c.zo
        ∧ 4 * (g - c.zo).natAbs ≤ 10 * c.cal.e1 ∧ (∃ m, c.lastZeroChange = some m ∧ m + 1000 ≤ now)
        ∧ 100 * (g - zpu).natAbs ≤ 20 * c.cal.max := by
  simp only [Channel.tracks, hp, decide_true, Bool.true_and, Bool.and_eq_true, Bool.or_eq_true, decide_eq_true_eq,
    bne_iff_ne, Channel.rested_iff, inBand_two_iff, and_assoc, ne_eq, Int.sub_eq_zero]

theorem Channel.track_zeroed {zpu : Int} (hg : c.filtered = some g) (hz : c.zpu = some zpu) :
    c.track now = if c.tracks (g - c.zo) now && inBand 2 c.cal.max (g - zpu)
      then { c with zo := g, lastZeroChange := some now } else c := by
  simp only [Channel.track, hg, hz]

theorem Channel.release_below (hg : c.gross = some g) (h : g < 200 * (c.cal.e1 : Int)) :
    c.release.interlock = .released ∧ c.release.autoClearPending = false
      ∧ c.release.tare = if c.autoClearPending = true ∧ c.config.tareAutoClear = true then ⟨.none, 0⟩ else c.tare := by
  simp only [Channel.release, hg, if_pos h, Bool.and_eq_true]
  exact ⟨trivial, trivial, trivial⟩

theorem Channel.release_above (hg : c.gross = some g) (h : 200 * (c.cal.e1 : Int) ≤ g) : c.release = c := by
  simp only [Channel.release, hg, if_neg (not_lt.2 h)]

end

/-- The judgements on a channel with a filtered value: the power-up zero and the tracking on its zero, then the release. -/
theorem Channel.judgements {f : Channel} {g : Int} (hg : f.filtered = some g) (now : Nat) :
    let t := ((f.powerUpZero now).track now).release
    let gross := g - t.zo
    let tracks (zpu : Int) : Prop := (f.state .present = .ready ∨ f.state .present = .uncalibrated) ∧ f.stable = true
      ∧ f.tare.kind = .none ∧ g ≠ f.zo ∧ 4 * (g - f.zo).natAbs ≤ 10 * f.cal.e1
      ∧ (∃ m, f.lastZeroChange = some m ∧ m + 1000 ≤ now) ∧ 100 * (g - zpu).natAbs ≤ 20 * f.cal.max
    f.Judged t
    ∧ (f.phase = .settling → f.stable = true → 100 * g.natAbs ≤ 100 * f.cal.max →
        t.phase = .zeroed ∧ t.zpu = some g ∧ t.zo = g ∧ t.lastZeroChange = some now)
    ∧ (f.phase = .settling → f.stable = true → 100 * f.cal.max < 100 * g.natAbs →
        t.phase = .zeroPending ∧ t.zpu = f.zpu ∧ t.zo = f.zo ∧ t.lastZeroChange = f.lastZeroChange)
    ∧ (f.phase = .zeroPending ∨ f.phase = .settling ∧ f.stable = false →
        t.phase = f.phase ∧ t.zpu = f.zpu ∧ t.zo = f.zo ∧ t.lastZeroChange = f.lastZeroChange)
    ∧ (∀ zpu, f.phase = .zeroed → f.zpu = some zpu → t.phase = .zeroed ∧ t.zpu = some zpu
        ∧ (tracks zpu → t.zo = g ∧ t.lastZeroChange = some now)
        ∧ (¬ tracks zpu → t.zo = f.zo ∧ t.lastZeroChange = f.lastZeroChange))
    ∧ (gross < 200 * (f.cal.e1 : Int) → t.interlock = .released ∧ t.autoClearPending = false
        ∧ t.tare = if f.autoClearPending = true ∧ f.config.tareAutoClear = true then ⟨.none, 0⟩ else f.tare)
    ∧ (200 * (f.cal.e1 : Int) ≤ gross → t.interlock = f.interlock ∧ t.autoClearPending = f.autoClearPending
        ∧ t.tare = f.tare) := by
  have hkept : f.Judged ((f.powerUpZero now).track now) := (f.powerUpZero_judged now).trans (Channel.track_judged _ now)
  have hhold : ((f.powerUpZero now).track now).holding = f.holding :=
    (Channel.track_holding _ now).trans (f.powerUpZero_holding now)
  have hzero := ((f.powerUpZero now).track now).release_zeroing
  have hzeroed {d : Channel} (hd : (f.powerUpZero now).track now = d) :
      ((f.powerUpZero now).track now).release.zeroing = d.zeroing := hzero.trans (congrArg Channel.zeroing hd)
  simp only [Channel.zeroing, Channel.holding, Prod.mk.injEq] at hzero hhold hzeroed
  obtain ⟨-, -, hzo, -⟩ := hzero
  obtain ⟨htare, hinterlock, hauto⟩ := hhold
  obtain ⟨hcal, hconfig, hfiltered⟩ := hkept.kept
  rw [hg] at hfiltered
  have hgross : ((f.powerUpZero now).track now).gross = some (g - ((f.powerUpZero now).track now).release.zo) := by
    rw [Channel.gross, hfiltered, hzo, Option.map_some]
  refine ⟨hkept.trans (Channel.release_judged _), fun hp hs hband => ?zeroes, fun hp hs hband => ?pends, fun hwaits => ?waits,
    fun zpu hp hz => ?tracks, fun hbelow => ?below, fun habove => ?above⟩
  case zeroes =>
    have hpower := (f.powerUpZero_decides (now := now) hg hp hs).trans (if_pos (inBand_ten_iff.2 hband))
    exact hzeroed ((congrArg (fun d => d.track now) hpower).trans (Channel.track_rests
      (c := { f with phase := .zeroed, zpu := some g, zo := g, lastZeroChange := some now }) hg (.inr rfl)))
  case pends =>
    have hpower := (f.powerUpZero_decides (now := now) hg hp hs).trans (if_neg (mt inBand_ten_iff.1 (Nat.not_le.2 hband)))
    exact hzeroed ((congrArg (fun d => d.track now) hpower).trans (Channel.track_rests
      (c := { f with phase := .zeroPending }) hg (.inl ZeroPhase.noConfusion)))
  case waits =>
    have hpower : f.powerUpZero now = f := by
      refine Channel.powerUpZero_waits ?_
      rcases hwaits with hp | ⟨-, hs⟩
      · exact .inl (by simp [hp])
      · exact .inr hs
    have hphase : f.phase ≠ .zeroed := by
      rcases hwaits with hp | ⟨hp, -⟩ <;> simp [hp]
    exact hzeroed ((congrArg (fun d => d.track now) hpower).trans (Channel.track_rests hg (.inl hphase)))
  case tracks =>
    have hpower : f.powerUpZero now = f := Channel.powerUpZero_waits (.inl (by simp [hp]))
    have htrack : (f.powerUpZero now).track now = _ :=
      (congrArg (fun d => d.track now) hpower).trans (Channel.track_zeroed hg hz)
    have hiff := Channel.tracking_iff (c := f) (g := g) (now := now) (zpu := zpu) hp
    by_cases hacts : (f.tracks (g - f.zo) now && inBand 2 f.cal.max (g - zpu)) = true
    · obtain ⟨h1, h2, h3, h4⟩ := hzeroed (htrack.trans (if_pos hacts))
      exact ⟨h1.trans hp, h2.trans hz, fun _ => ⟨h3, h4⟩, fun hnot => absurd (hiff.1 hacts) hnot⟩
    · obtain ⟨h1, h2, h3, h4⟩ := hzeroed (htrack.trans (if_neg hacts))
      exact ⟨h1.trans hp, h2.trans hz, fun hyes => absurd (hiff.2 hyes) hacts, fun _ => ⟨h3, h4⟩⟩
  case below =>
    have hrelease := Channel.release_below hgross (by rw [hcal]; exact hbelow)
    rwa [hauto, hconfig, htare] at hrelease
  case above =>
    have hsame := Channel.release_above hgross (by rw [hcal]; exact habove)
    exact ⟨(congrArg Channel.interlock hsame).trans hinterlock, (congrArg Channel.autoClearPending hsame).trans hauto,
      (congrArg Channel.tare hsame).trans htare⟩

/-- Settles O24: a value at a rail restarts the filter; any other joins it, and then each judgement acts in its turn. -/
theorem samplesMoveTheChannel : Obligations.SamplesMoveTheChannel := by
  refine ⟨fun x d hd => divRound_nearest x hd, Channel.stable_iff, fun c now raw => ⟨fun hrail => ?rail, fun h1 h2 => ?joins⟩⟩
  case rail =>
    have hr : isRail raw = true := (isRail_iff raw).2 hrail
    simp only [Channel.takeSample, hr, if_true]
    rfl
  case joins =>
    have hr : isRail raw = false := Bool.eq_false_iff.2 (mt (isRail_iff raw).1 (not_or.2 ⟨h1, h2⟩))
    have htake : c.takeSample now raw = (((c.filter raw).powerUpZero now).track now).release := by
      rw [Channel.takeSample, hr]
      rfl
    rw [htake, Channel.filter_eq]
    exact Channel.judgements rfl now

end Sys2Proof.Machine
end


-- ==== Sys2Proof/Proofs/Capture.lean ====
section
/-! The capture test (R26, R27): its reasons in the order of the weighing states and of its own checks, and its place among the
checks of a line commit. -/

namespace Sys2Proof.Machine

section
variable {c : Channel} {link : Link}

theorem Channel.captureTest_reason {r : Reason} (h : captureReason (c.state link) = some r) :
    c.captureTest link = .error r := by
  simp only [Channel.captureTest, h]

/-- The state of a station whose link, session, rail mark and zero phase do not decide it. -/
theorem Channel.state_weighing (hl : link = .present) (hs : c.session = false) (hr : c.rail = false)
    (hsettling : c.phase ≠ .settling) (hpending : c.phase ≠ .zeroPending) : c.state link =
      if c.overloaded then .overload else if c.underloaded then .underload
      else if !c.cal.calibrated then .uncalibrated else .ready := by
  simp [Channel.state, hl, hs, hr, hsettling, hpending]

theorem Channel.captureTest_ungrossed (hl : link = .present) (hs : c.session = false) (hr : c.rail = false)
    (hsettling : c.phase ≠ .settling) (hpending : c.phase ≠ .zeroPending) (hf : c.filtered = none) :
    c.captureTest link = if c.cal.calibrated = true then .error .motion else .error .uncalibrated := by
  have hg : c.gross = none := by rw [Channel.gross, hf, Option.map_none]
  have hstate := Channel.state_weighing hl hs hr hsettling hpending
  simp only [Channel.overloaded, Channel.underloaded, hg, Bool.false_eq_true, if_false] at hstate
  cases hc : c.cal.calibrated <;> simp [Channel.captureTest, hstate, hg, hc, captureReason]

/-- The limits of R17 in the terms of the gross weight. -/
theorem Channel.overloaded_iff {g : Int} (hg : c.gross = some g) :
    c.overloaded = true ↔ 10 * (c.cal.max : Int) + 90 * c.cal.e2 < g := by
  have htest : c.overloaded = decide (c.overloadLimit < g) := by simp only [Channel.overloaded, hg]
  rw [htest, decide_eq_true_iff, Channel.overloadLimit]
  omega

theorem Channel.underloaded_iff {g : Int} (hg : c.gross = some g) : c.underloaded = true ↔ g < -(200 * (c.cal.e1 : Int)) := by
  have htest : c.underloaded = decide (g < c.underloadLimit) := by simp only [Channel.underloaded, hg]
  rw [htest, decide_eq_true_iff, Channel.underloadLimit]
  omega

/-- The test of a channel with a gross weight, from its limits on (R17, R26). -/
theorem Channel.captureTest_weighing (hl : link = .present) (hs : c.session = false) (hr : c.rail = false)
    (hsettling : c.phase ≠ .settling) (hpending : c.phase ≠ .zeroPending) {g : Int} (hg : c.gross = some g) :
    c.captureTest link =
      if 10 * (c.cal.max : Int) + 90 * c.cal.e2 < g then .error .overload
      else if g < -(200 * (c.cal.e1 : Int)) then .error .underload
      else if c.cal.calibrated = false then .error .uncalibrated
      else if c.stable = false then .error .motion
      else if c.netOf g < 200 * (c.cal.e1 : Int) then .error .underMin
      else if (c.cal.max : Int) < c.saleWeightOf (c.netOf g) then .error .overload
      else if c.interlock = .set then .error .notCleared
      else .ok ⟨(c.saleWeightOf (c.netOf g)).toNat, c.divisionOf (c.netOf g), c.tare⟩ := by
  have hstate := Channel.state_weighing hl hs hr hsettling hpending
  by_cases hover : c.overloaded = true
  · rw [if_pos ((Channel.overloaded_iff hg).1 hover)]
    exact Channel.captureTest_reason (by rw [hstate, if_pos hover]; rfl)
  rw [if_neg (mt (Channel.overloaded_iff hg).2 hover)]
  by_cases hunder : c.underloaded = true
  · rw [if_pos ((Channel.underloaded_iff hg).1 hunder)]
    exact Channel.captureTest_reason (by rw [hstate, if_neg hover, if_pos hunder]; rfl)
  rw [if_neg (mt (Channel.underloaded_iff hg).2 hunder)]
  rw [if_neg hover, if_neg hunder] at hstate
  cases hc : c.cal.calibrated with
  | false =>
    rw [hc] at hstate
    exact Channel.captureTest_reason (by rw [hstate]; rfl)
  | true =>
    rw [hc] at hstate
    simp [Channel.captureTest, hstate, hg, captureReason]

end

/-! ## The measure of an article (R26, R42, R96) -/

section
variable {p : Part} {st : StationNo} {a : Article}

theorem Part.measure_weighed {x : Capture} (hl : p.link st = .present) (h : a.kind = .weighed)
    (hx : (p.wc.get st).captureTest .present = .ok x) : p.measure st a = .ok (.weighed x.grams x.tare) := by
  simp only [Part.measure, h, hl, hx]

theorem Part.measure_refused {e : Reason} (hl : p.link st = .present) (h : a.kind = .weighed)
    (he : (p.wc.get st).captureTest .present = .error e) : p.measure st a = .error e := by
  simp only [Part.measure, h, hl, he]

end

/-- A kept tag leaves the link as it is. -/
theorem Part.keyTaken_link (p : Part) (st : StationNo) (tag : Nat) : (p.keyTaken st tag).link st = p.link st := by
  rw [Part.link, Part.keyTaken, Part.onLink, PerStation.get_set_same]
  rfl

/-- Settles O25: the chain of reasons by the weighing state and then by the checks of the test. -/
theorem captureTestJudgesTheWeight : Obligations.CaptureTestJudgesTheWeight := by
  refine ⟨fun c link => ?chain, fun s st tag operator n a h => ⟨fun x hk hx => ?weighed, fun hk => ?counted, fun hk => ?fixed,
    fun e htrading hconfirmed hsel ha hheld hk he => ?refused⟩⟩
  case chain =>
    by_cases hl : link = .present
    swap
    · rw [if_pos hl]
      exact Channel.captureTest_reason (by rw [Channel.state, if_pos hl]; rfl)
    rw [if_neg (not_not.2 hl)]
    cases hs : c.session with
    | true => exact Channel.captureTest_reason (by simp [Channel.state, hl, hs, captureReason])
    | false =>
      cases hr : c.rail with
      | true => exact Channel.captureTest_reason (by simp [Channel.state, hl, hs, hr, captureReason])
      | false =>
        simp only [Bool.false_eq_true, if_false]
        split
        · next hp => exact Channel.captureTest_reason (by simp [Channel.state, hl, hs, hr, hp, captureReason])
        split
        · next hp => exact Channel.captureTest_reason (by simp [Channel.state, hl, hs, hr, hp, captureReason])
        next hsettling hpending =>
        split
        · next hf => exact Channel.captureTest_ungrossed hl hs hr hsettling hpending hf
        · next f hf =>
          have hg : c.gross = some (f - c.zo) := by rw [Channel.gross, hf, Option.map_some]
          exact Channel.captureTest_weighing hl hs hr hsettling hpending hg
  case weighed =>
    obtain ⟨⟨-, hpresent, -⟩, -⟩ := h
    exact Part.measure_weighed ((s.part.keyTaken_link st tag).trans hpresent) hk hx
  case counted => simp only [Part.measure, hk]
  case fixed => simp only [Part.measure, hk]
  case refused =>
    obtain ⟨⟨-, hpresent, -⟩, -⟩ := id h
    have hl := (s.part.keyTaken_link st tag).trans hpresent
    have hmeasure := Part.measure_refused hl hk he
    refine State.key_refused_on h ?_
    simp [Part.serveSignedOn, keyAddLine, Part.commitChecks, Part.checkTrading, htrading, hl, hconfirmed, hsel, ha, hheld,
      hmeasure]

end Sys2Proof.Machine
end

