-- ==== Sys2Proof/Proofs/Counting.lean ====
section
/-! The first free number when numbers are counted on with wrap (R90, R115). -/

namespace Sys2Proof.Machine

/-! ## Numbers counted with wrap (R90, R115) -/

/-- The number after `n`, counting through 1..`limit` with wrap. -/
def wrapAfter (limit n : Nat) : Nat := if n < limit then n + 1 else 1

/-- The first number after `n` that is not held, tried at most `fuel` times. -/
def firstFree (limit : Nat) (held : List Nat) : Nat → Nat → Nat
  | 0, n => wrapAfter limit n
  | fuel + 1, n =>
    if held.contains (wrapAfter limit n) then firstFree limit held fuel (wrapAfter limit n) else wrapAfter limit n

theorem freeTicket_eq (live : List Nat) (fuel n : Nat) : freeTicket live fuel n = firstFree 99 live fuel n := by
  induction fuel generalizing n with
  | zero => rfl
  | succ fuel ih =>
    simp only [freeTicket, firstFree, ih]
    rfl

theorem freeOrderNumber_eq (held : List Nat) (fuel n : Nat) :
    freeOrderNumber held fuel n = firstFree 9999 held fuel n := by
  induction fuel generalizing n with
  | zero => rfl
  | succ fuel ih =>
    simp only [freeOrderNumber, firstFree, ih]
    rfl

/-- The number `k` steps after `n`, counting through 1..`limit` with wrap. -/
def stepsAfter (limit n k : Nat) : Nat := (n + k - 1) % limit + 1

theorem stepsAfter_one {limit n : Nat} (h : n ≤ limit) : stepsAfter limit n 1 = wrapAfter limit n := by
  unfold stepsAfter wrapAfter
  split
  · rename_i hlt
    rw [Nat.add_sub_cancel, Nat.mod_eq_of_lt hlt]
  · have : n = limit := by omega
    rw [Nat.add_sub_cancel, this, Nat.mod_self]

theorem stepsAfter_succ {limit n k : Nat} (h : n ≤ limit) (hk : 1 ≤ k) :
    stepsAfter limit n (k + 1) = stepsAfter limit (wrapAfter limit n) k := by
  unfold stepsAfter wrapAfter
  split
  · rw [show n + (k + 1) - 1 = n + 1 + k - 1 by omega]
  · have : n = limit := by omega
    rw [this, show limit + (k + 1) - 1 = 1 + k - 1 + limit by omega, Nat.add_mod_right]

theorem wrapAfter_le {limit n : Nat} (h : 1 ≤ limit) : wrapAfter limit n ≤ limit := by
  unfold wrapAfter
  split <;> omega

/-- Where the numbers before the `k`-th are held and that one is not, it is the one found. -/
theorem firstFree_eq {limit : Nat} {held : List Nat} {n k fuel : Nat} (hlimit : 1 ≤ limit) (h : n ≤ limit) (hk : 1 ≤ k)
    (before : ∀ j, 1 ≤ j → j < k → stepsAfter limit n j ∈ held) (free : stepsAfter limit n k ∉ held) (hfuel : k ≤ fuel + 1) :
    firstFree limit held fuel n = stepsAfter limit n k := by
  induction k, hk using Nat.le_induction generalizing n fuel with
  | base =>
    rw [stepsAfter_one h] at free ⊢
    cases fuel with
    | zero => rfl
    | succ fuel => simp [firstFree, free]
  | succ k hk ih =>
    obtain ⟨fuel, rfl⟩ : ∃ m, fuel = m + 1 := ⟨fuel - 1, by omega⟩
    have hfirst : wrapAfter limit n ∈ held := stepsAfter_one h ▸ before 1 (le_refl 1) (by omega)
    rw [stepsAfter_succ h hk] at free ⊢
    simp only [firstFree, List.contains_iff_mem, hfirst, if_true]
    refine ih (wrapAfter_le hlimit) (fun j hj hlt => ?_) free (by omega)
    rw [← stepsAfter_succ h hj]
    exact before (j + 1) (by omega) (by omega)

/-- Among more steps than numbers held there is one to a number that is not. -/
theorem exists_free {limit n : Nat} {held : List Nat} (room : held.length < limit) :
    ∃ k, 1 ≤ k ∧ k ≤ held.length + 1 ∧ stepsAfter limit n k ∉ held
      ∧ ∀ j, 1 ≤ j → j < k → stepsAfter limit n j ∈ held := by
  have hsome : ∃ k, stepsAfter limit n (k + 1) ∉ held ∧ k ≤ held.length := by
    by_contra hnone
    have hall : ∀ k ≤ held.length, stepsAfter limit n (k + 1) ∈ held := fun k hk => by
      by_contra hfree
      exact hnone ⟨k, hfree, hk⟩
    have hnodup : ((List.range (held.length + 1)).map (fun k => stepsAfter limit n (k + 1))).Nodup := by
      refine List.Nodup.map_on (fun i hi j hj hij => ?_) List.nodup_range
      rw [List.mem_range] at hi hj
      have hmod : n + i ≡ n + j [MOD limit] := by
        have : (n + i) % limit + 1 = (n + j) % limit + 1 := hij
        exact Nat.succ_injective this
      exact Nat.ModEq.eq_of_lt_of_lt (Nat.ModEq.add_left_cancel' n hmod) (by omega) (by omega)
    have hsub : ((List.range (held.length + 1)).map (fun k => stepsAfter limit n (k + 1))) ⊆ held := by
      intro x hx
      obtain ⟨k, hk, rfl⟩ := List.mem_map.1 hx
      exact hall k (by rw [List.mem_range] at hk; omega)
    have := (hnodup.subperm hsub).length_le
    simp at this
  classical
  obtain ⟨hfree, hle⟩ := Nat.find_spec hsome
  refine ⟨Nat.find hsome + 1, by omega, by omega, hfree, fun j hj hlt => ?_⟩
  by_contra hnot
  refine Nat.find_min hsome (m := j - 1) (by omega) ⟨?_, by omega⟩
  rwa [show j - 1 + 1 = j by omega]

/-- The first free number, counting on from `n` with wrap, where not every number is held. -/
theorem firstFree_spec {limit n fuel : Nat} {held : List Nat} (h : n ≤ limit) (room : held.length < limit)
    (tries : held.length ≤ fuel) : ∃ k, 1 ≤ k ∧ k ≤ held.length + 1
      ∧ firstFree limit held fuel n = stepsAfter limit n k ∧ stepsAfter limit n k ∉ held
      ∧ ∀ j, 1 ≤ j → j < k → stepsAfter limit n j ∈ held := by
  obtain ⟨k, hk, hle, hfree, hbefore⟩ := exists_free (n := n) room
  exact ⟨k, hk, hle, firstFree_eq (by omega) h hk hbefore hfree (by omega), hfree, hbefore⟩

theorem stepsAfter_range {limit n k : Nat} (h : 1 ≤ limit) : 1 ≤ stepsAfter limit n k ∧ stepsAfter limit n k ≤ limit := by
  unfold stepsAfter
  exact ⟨by omega, Nat.mod_lt _ h⟩

/-- A number from above the range counts as the last one of it. -/
theorem firstFree_above {limit n fuel : Nat} {held : List Nat} (h : limit ≤ n) :
    firstFree limit held fuel n = firstFree limit held fuel limit := by
  have hwrap : wrapAfter limit n = wrapAfter limit limit := by
    unfold wrapAfter
    rw [if_neg (by omega), if_neg (by omega)]
  cases fuel <;> simp only [firstFree, hwrap]

/-- The first free number is none that is held, from wherever the count starts. -/
theorem firstFree_notMem {limit n fuel : Nat} {held : List Nat} (room : held.length < limit)
    (tries : held.length ≤ fuel) : firstFree limit held fuel n ∉ held
      ∧ 1 ≤ firstFree limit held fuel n ∧ firstFree limit held fuel n ≤ limit := by
  rcases Nat.le_total n limit with h | h
  · obtain ⟨k, -, -, he, hfree, -⟩ := firstFree_spec h room tries
    rw [he]
    exact ⟨hfree, stepsAfter_range (by omega)⟩
  · rw [firstFree_above h]
    obtain ⟨k, -, -, he, hfree, -⟩ := firstFree_spec (n := limit) (le_refl _) room tries
    rw [he]
    exact ⟨hfree, stepsAfter_range (by omega)⟩

end Sys2Proof.Machine
end


-- ==== Sys2Proof/Proofs/OpenOrder.lean ====
section
/-! OPEN ORDER (R90, R92, R94, R119): its checks in order, the slot and the number that the new order takes, and the called ticket
that it binds. -/

namespace Sys2Proof.Machine

/-! ## The counter state (R93, R164) -/

section
variable {p : Part}

theorem Part.checkTrading_trading (h : p.tt.counter = .trading) : p.checkTrading = .ok () := by
  simp only [Part.checkTrading, h]

theorem Part.checkTrading_paused (h : p.tt.counter = .paused) : p.checkTrading = .error .paused := by
  simp only [Part.checkTrading, h]

theorem Part.checkTrading_closed (h : p.tt.counter = .closed ∨ p.tt.counter = .closedClosing) :
    p.checkTrading = .error .closed := by
  rcases h with h | h <;> simp only [Part.checkTrading, h]

end

/-! ## The slot (R89) -/

theorem placeOrder_first {o : Order} {before after : List (Option Order)} (h : ∀ slot ∈ before, slot ≠ none) :
    placeOrder o (before ++ none :: after) = before ++ some o :: after := by
  induction before with
  | nil => rfl
  | cons slot before ih =>
    cases slot with
    | none => exact absurd rfl (h none List.mem_cons_self)
    | some x => exact congrArg (some x :: ·) (ih fun slot hs => h slot (List.mem_cons_of_mem _ hs))

/-- A pool with a FREE slot holds fewer orders than slots. -/
theorem length_orders_lt {m : OrderManager} (h : none ∈ m.pool) : m.orders.length < m.pool.length := by
  obtain ⟨before, after, hpool⟩ := List.append_of_mem h
  have hle (l : List (Option Order)) : (l.filterMap id).length ≤ l.length := List.length_filterMap_le _ _
  have hsplit : m.orders = before.filterMap id ++ after.filterMap id := by
    simp [OrderManager.orders, hpool]
  rw [hsplit, hpool]
  simp only [List.length_append, List.length_cons]
  have := hle before
  have := hle after
  omega

theorem Part.noFreeSlot {p : Part} (h : ∀ slot ∈ p.om.pool, slot ≠ none) : p.om.pool.any Option.isNone = false := by
  simp only [List.any_eq_false, Option.isNone_iff_eq_none]
  exact fun slot hs => h slot hs

theorem Part.freeSlot {p : Part} (h : none ∈ p.om.pool) : p.om.pool.any Option.isNone = true :=
  List.any_eq_true.2 ⟨none, h, rfl⟩

/-! ## The checks of a new order (R94, R98) -/

section
variable {p : Part} {operator : Nat}

theorem Part.checkNewOrder_full (h : ∀ slot ∈ p.om.pool, slot ≠ none) : p.checkNewOrder operator = .error .noOrderSlot := by
  rw [Part.checkNewOrder, Part.noFreeSlot h]
  rfl

theorem Part.checkNewOrder_free (h : none ∈ p.om.pool) :
    p.checkNewOrder operator = if p.ownedBy operator < 3 then .ok () else .error .clerkLimit := by
  rw [Part.checkNewOrder, Part.freeSlot h]
  by_cases hlimit : p.ownedBy operator < 3
  · have htest : decide (p.ownedBy operator < Config.maxClerkOrders) = true := decide_eq_true hlimit
    rw [htest, if_pos hlimit]
    rfl
  · have htest : decide (p.ownedBy operator < Config.maxClerkOrders) = false := decide_eq_false hlimit
    rw [htest, if_neg hlimit]
    rfl

end

/-! ## The number (R90, R115) -/

theorem Part.nextOrder_eq (p : Part) : p.nextOrder = firstFree 9999 (p.om.orders.map Order.number) 16 p.om.lastNumber :=
  freeOrderNumber_eq _ _ _

/-- Beside a FREE slot the next number is the first one after the last that no order holds. -/
theorem Part.nextOrder_spec {p : Part} (hlen : p.om.pool.length = 16) (hfree : none ∈ p.om.pool)
    (hlast : p.om.lastNumber ≤ 9999) : 1 ≤ p.nextOrder ∧ p.nextOrder ≤ 9999 ∧ (∀ o ∈ p.om.orders, o.number ≠ p.nextOrder)
      ∧ ∃ k, 1 ≤ k ∧ k ≤ 16 ∧ p.nextOrder = (p.om.lastNumber + k - 1) % 9999 + 1
        ∧ ∀ j, 1 ≤ j → j < k → ∃ o ∈ p.om.orders, o.number = (p.om.lastNumber + j - 1) % 9999 + 1 := by
  have hheld : (p.om.orders.map Order.number).length < 16 := by
    rw [List.length_map, ← hlen]
    exact length_orders_lt hfree
  obtain ⟨k, h1, hk, heq, hnot, hbefore⟩ :=
    firstFree_spec (held := p.om.orders.map Order.number) (fuel := 16) hlast (by omega) (by omega)
  rw [← Part.nextOrder_eq] at heq
  rw [← heq] at hnot
  obtain ⟨hlow, hhigh⟩ := stepsAfter_range (limit := 9999) (n := p.om.lastNumber) (k := k) (by decide)
  refine ⟨heq ▸ hlow, heq ▸ hhigh, fun o ho he => hnot (List.mem_map.2 ⟨o, ho, he⟩), k, h1, by omega, heq,
    fun j hj hjk => ?_⟩
  obtain ⟨o, ho, he⟩ := List.mem_map.1 (hbefore j hj hjk)
  exact ⟨o, ho, he⟩

/-- The tickets CALLED at the eight stations are at most eight. -/
theorem called_length_le (v : PerStation (Option CalledTicket)) (f : CalledTicket → Nat) :
    (v.toList.filterMap (fun c => c.map f)).length ≤ 8 := List.length_filterMap_le _ _

theorem TicketController.live_length_lt {t : TicketController} (hw : t.waiting.length < 64) (hm : t.missed.length ≤ 8)
    (hs : t.serving.length ≤ 16) : t.live.length < 99 := by
  have hcalled := called_length_le t.called (fun x => x.ticket.number)
  simp only [TicketController.live, List.length_append, List.length_map]
  omega

/-! ## The ticket (R119) -/

theorem Part.bindTicket_called {p : Part} {st : StationNo} {c : CalledTicket} (h : p.tc.called.get st = some c) (n : Nat) :
    p.bindTicket st n = { p with tc := { p.tc with
      called := p.tc.called.set st none
      serving := p.tc.serving ++ [⟨c.ticket, c.callTime, st, n⟩] } } := by
  simp only [Part.bindTicket, h]

theorem Part.bindTicket_none {p : Part} {st : StationNo} (h : p.tc.called.get st = none) (n : Nat) :
    p.bindTicket st n = p := by
  simp only [Part.bindTicket, h]

/-! ## The part after an open -/

/-- The order that an open makes at a station (R94). -/
def Part.newOrder (p : Part) (st : StationNo) (operator : Nat) : Order :=
  ⟨p.nextOrder, operator, .opened st, (p.tc.called.get st).map (fun c => c.ticket.number), (p.config st).labelMode, [], 0,
    none, p.stamp⟩

theorem Part.openOrder_eq {p : Part} {st : StationNo} {before after : List (Option Order)}
    (hpool : p.om.pool = before ++ none :: after) (hbefore : ∀ slot ∈ before, slot ≠ none) (operator : Nat) :
    p.openOrder st operator = { p with
      om := ⟨before ++ some (p.newOrder st operator) :: after, p.om.active.set st (some p.nextOrder), p.nextOrder⟩
      tc := (match p.tc.called.get st with
        | none => p.tc
        | some c => { p.tc with
            called := p.tc.called.set st none
            serving := p.tc.serving ++ [⟨c.ticket, c.callTime, st, p.nextOrder⟩] }) } := by
  have hplaced : placeOrder (p.newOrder st operator) p.om.pool = before ++ some (p.newOrder st operator) :: after := by
    rw [hpool, placeOrder_first hbefore]
  rw [← hplaced]
  unfold Part.openOrder
  cases hcalled : p.tc.called.get st with
  | none =>
    refine (Part.bindTicket_none (by exact hcalled) _).trans ?_
    simp only [Part.newOrder, hcalled, Part.calledNumber]
  | some c =>
    refine (Part.bindTicket_called (by exact hcalled) _).trans ?_
    simp only [Part.newOrder, hcalled, Part.calledNumber]

section
variable {p : Part} {st : StationNo} {operator : Nat}

theorem keyOpenOrder_untraded {e : Reason} (h : p.checkTrading = .error e) : keyOpenOrder st operator p = .error e := by
  simp [keyOpenOrder, h]

theorem keyOpenOrder_active (h : p.tt.counter = .trading) (ha : p.om.active.get st ≠ none) :
    keyOpenOrder st operator p = .error .wrongState := by
  have htest : (p.om.active.get st).isNone = false := by simpa [Option.isSome_iff_ne_none] using ha
  simp [keyOpenOrder, Part.checkTrading_trading h, htest]

theorem keyOpenOrder_checked (h : p.tt.counter = .trading) (ha : p.om.active.get st = none) :
    keyOpenOrder st operator p = (do
      p.checkNewOrder operator
      return (p.openOrder st operator, orderResult p.nextOrder 0)) := by
  simp [keyOpenOrder, Part.checkTrading_trading h, ha]

end

/-- Settles O26: the checks of OPEN ORDER in their order, the part that an open leaves, and the two free numbers. -/
theorem openOrderTakesASlot : Obligations.OpenOrderTakesASlot := by
  refine ⟨fun s st tag operator h => ⟨fun hc => ?paused, fun hc => ?closed, fun hc ha => ?active, fun hc ha hfull => ?full,
    fun before after hc ha hpool hbefore => ⟨fun hlimit => ?limit, fun hlimit => ?opens⟩⟩, fun p => ⟨fun hlen hfree hlast => ?number,
    fun hw hm hs _ => ?ticket⟩⟩
  case paused => exact State.key_refused_on h (keyOpenOrder_untraded (Part.checkTrading_paused hc))
  case closed => exact State.key_refused_on h (keyOpenOrder_untraded (Part.checkTrading_closed hc))
  case active => exact State.key_refused_on h (keyOpenOrder_active hc ha)
  case full =>
    exact State.key_refused_on h ((keyOpenOrder_checked hc ha).trans (by rw [Part.checkNewOrder_full hfull]; rfl))
  case limit =>
    have hfree : none ∈ (s.part.keyTaken st tag).om.pool := hpool ▸ List.mem_append_right _ List.mem_cons_self
    exact State.key_refused_on h ((keyOpenOrder_checked hc ha).trans
      (by rw [Part.checkNewOrder_free hfree, if_neg (Nat.not_lt.2 hlimit)]; rfl))
  case opens =>
    have hfree : none ∈ (s.part.keyTaken st tag).om.pool := hpool ▸ List.mem_append_right _ List.mem_cons_self
    have hserve := (keyOpenOrder_checked (operator := operator) hc ha).trans
      (by rw [Part.checkNewOrder_free hfree, if_pos hlimit, ok_bind])
    rw [Part.openOrder_eq hpool hbefore] at hserve
    exact State.key_accepted_on h hserve
  case number => exact Part.nextOrder_spec hlen hfree hlast
  case ticket =>
    have hlive := TicketController.live_length_lt hw hm hs
    obtain ⟨hnot, hlow, hhigh⟩ := firstFree_notMem (fuel := 99) (n := p.tc.lastIssued) hlive (by omega)
    rw [← freeTicket_eq] at hnot hlow hhigh
    exact ⟨hlow, hhigh, hnot⟩

end Sys2Proof.Machine
end


-- ==== Sys2Proof/Proofs/ParkResume.lean ====
section
/-! PARK and RESUME (R79, R103, R104). -/

namespace Sys2Proof.Machine

section
variable {p : Part} {st : StationNo} {operator n : Nat} {o : Order}

/-- The part after the park of an order. -/
def Part.parked (p : Part) (n : Nat) : Part :=
  { p with om := { p.om with
      pool := updatePool n (fun x => some { x with state := .parked }) p.om.pool
      active := p.om.active.map (fun x => if x = some n then none else x) } }

/-- The part after an order has been resumed at a station. -/
def Part.resumed (p : Part) (st : StationNo) (n : Nat) : Part :=
  { p with om := { p.om with
      pool := updatePool n (fun x => some { x with state := .opened st }) p.om.pool
      active := p.om.active.set st (some n) } }

theorem Part.activeOrder_none (h : p.om.active.get st = none) : p.activeOrder st = none := by
  rw [Part.activeOrder, h, Option.bind_none]

theorem keyPark_parks (h : p.activeOrder st = some o) :
    keyPark st p = .ok (p.parked o.number, orderResult o.number o.total) := by
  simp only [keyPark, Part.park, h, need_some, ok_bind, pure_eq_ok]
  rfl

theorem keyPark_none (h : p.activeOrder st = none) : keyPark st p = .error .wrongState := by
  simp [keyPark, Part.park, h]

theorem keyResume_badValue (hn : within 1 9999 n = false) : keyResume st n p = .error .badValue := by
  simp [keyResume, hn]

theorem keyResume_active (hn : within 1 9999 n = true) (ha : p.om.active.get st ≠ none) :
    keyResume st n p = .error .wrongState := by
  have htest : (p.om.active.get st).isNone = false := by simpa [Option.isSome_iff_ne_none] using ha
  simp [keyResume, hn, htest]

theorem keyResume_missing (hn : within 1 9999 n = true) (ha : p.om.active.get st = none) (ho : p.order n = none) :
    keyResume st n p = .error .noSuch := by
  simp [keyResume, hn, ha, ho]

theorem keyResume_unparked (hn : within 1 9999 n = true) (ha : p.om.active.get st = none) (ho : p.order n = some o)
    (hstate : o.state ≠ .parked) : keyResume st n p = .error .wrongState := by
  simp [keyResume, hn, ha, ho, hstate]

theorem keyResume_resumes (hn : within 1 9999 n = true) (ha : p.om.active.get st = none) (ho : p.order n = some o)
    (hstate : o.state = .parked) : keyResume st n p = .ok (p.resumed st n, orderResult n o.total) := by
  simp only [keyResume, hn, ha, ho, hstate, Option.isNone_none, decide_true, check_true, need_some, ok_bind, pure_eq_ok]
  rfl

/-! ## When RESUME is privileged (R79) -/

theorem Part.resumePrivileged_own (h : ∀ x, p.order n = some x → x.owner = operator) :
    p.resumePrivileged operator n = false := by
  cases ho : p.order n with
  | none => simp [Part.resumePrivileged, ho]
  | some x => simp [Part.resumePrivileged, ho, h x ho]

theorem Part.resumePrivileged_other (ho : p.order n = some o) (h : o.owner ≠ operator) :
    p.resumePrivileged operator n = true := by
  simp [Part.resumePrivileged, ho, h]

theorem Part.serveResume_own (h : ∀ x, p.order n = some x → x.owner = operator) :
    p.serveSignedOn st operator (.resume n) = keyResume st n p := by
  rw [Part.serveSignedOn, if_neg (by simp [Part.resumePrivileged_own h])]

theorem Part.serveResume_other (ho : p.order n = some o) (h : o.owner ≠ operator) :
    p.serveSignedOn st operator (.resume n) = p.privileged st (fun _ => keyResume st n) := by
  rw [Part.serveSignedOn, if_pos (Part.resumePrivileged_other ho h)]

/-- What RESUME itself refuses is refused whether or not the request is privileged, where a supervisor is not wanting. -/
theorem Part.serveResume_refused {e : Reason}
    (h : (∀ x, p.order n = some x → x.owner = operator) ∨ p.supervisor st ≠ none) (he : keyResume st n p = .error e) :
    p.serveSignedOn st operator (.resume n) = .error e := by
  by_cases hown : ∀ x, p.order n = some x → x.owner = operator
  · rw [Part.serveResume_own hown, he]
  · obtain ⟨supervisor, hsup⟩ := Option.ne_none_iff_exists'.1 (h.resolve_left hown)
    obtain ⟨x, hx⟩ := not_forall.1 hown
    obtain ⟨ho, howner⟩ := Classical.not_imp.1 hx
    rw [Part.serveResume_other ho howner]
    exact Part.privileged_error hsup he

/-- The end of the override context, in a part that has the operators of `p`. -/
theorem Part.endOverride_of_operator {q : Part} (hq : q.oc = p.oc) (h : (p.stack st).operator = some operator) :
    q.endOverride st = { q with oc := { p.oc with stack := p.oc.stack.set st (.signedOn operator) } } := by
  have hstack : q.stack st = p.stack st := by rw [Part.stack, hq, Part.stack]
  rw [Part.endOverride, hstack, Stack.restored_of_operator h, Part.withStack, hq]

end

/-- Settles O28: PARK by whether there is an active order, RESUME by its owner and then by its checks. -/
theorem parkAndResumeMoveTheOrder : Obligations.ParkAndResumeMoveTheOrder := by
  intro s st tag operator n o h
  refine ⟨fun ho => ?park, fun ha => ?parkNone, fun ha ho hstate h1 hmax howner => ?own,
    fun supervisor ha ho hstate h1 hmax howner hsup => ?other, fun ho howner hsup => ?notAllowed,
    fun hmay => ⟨fun hbad => ?badValue, fun h1 hmax => ⟨fun ha => ?active, fun ha => ⟨fun ho => ?missing,
      fun ho hstate => ?unparked⟩⟩⟩⟩
  case park => exact State.key_accepted_on h (keyPark_parks ho)
  case parkNone => exact State.key_refused_on h (keyPark_none (Part.activeOrder_none ha))
  case own =>
    have hown : ∀ x, (s.part.keyTaken st tag).order n = some x → x.owner = operator := fun x hx => by
      rw [ho] at hx
      cases hx
      exact howner
    exact State.key_accepted_on h ((Part.serveResume_own hown).trans
      (keyResume_resumes (within_true.2 ⟨h1, hmax⟩) ha ho hstate))
  case other =>
    have hserve := (Part.serveResume_other ho howner).trans
      (Part.privileged_ok hsup (keyResume_resumes (within_true.2 ⟨h1, hmax⟩) ha ho hstate))
    rw [Part.endOverride_of_operator (p := s.part.keyTaken st tag) (q := (s.part.keyTaken st tag).resumed st n) rfl h.2]
      at hserve
    exact State.key_accepted_on h hserve
  case notAllowed =>
    exact State.key_refused_on h ((Part.serveResume_other ho howner).trans (Part.privileged_refused _ hsup))
  case badValue =>
    exact State.key_refused_on h (Part.serveResume_refused hmay (keyResume_badValue (within_false.2 (by omega))))
  case active =>
    exact State.key_refused_on h (Part.serveResume_refused hmay (keyResume_active (within_true.2 ⟨h1, hmax⟩) ha))
  case missing =>
    exact State.key_refused_on h (Part.serveResume_refused hmay (keyResume_missing (within_true.2 ⟨h1, hmax⟩) ha ho))
  case unparked =>
    exact State.key_refused_on h (Part.serveResume_refused hmay
      (keyResume_unparked (within_true.2 ⟨h1, hmax⟩) ha ho hstate))

end Sys2Proof.Machine
end


-- ==== Sys2Proof/Proofs/VoidLines.lean ====
section
/-! VOID LINE and REPRINT (R105, R143): the checks that they share, and what each accepted one leaves. -/

namespace Sys2Proof.Machine

section
variable {p : Part} {st : StationNo} {index supervisor : Nat} {o : Order} {l : Line}

/-! ## The line that they act on -/

theorem Part.activeLine_none (h : p.activeOrder st = none) : p.activeLine st index = .error .wrongState := by
  simp [Part.activeLine, h]

theorem Part.activeLine_badValue (h : p.activeOrder st = some o) (hi : within 1 24 index = false) :
    p.activeLine st index = .error .badValue := by
  simp [Part.activeLine, h, hi]

theorem Part.activeLine_missing (h : p.activeOrder st = some o) (hi : within 1 24 index = true) (hl : o.line index = none) :
    p.activeLine st index = .error .noSuch := by
  simp [Part.activeLine, h, hi, hl]

theorem Part.activeLine_inactive (h : p.activeOrder st = some o) (hi : within 1 24 index = true)
    (hl : o.line index = some l) (hs : l.state ≠ .active) : p.activeLine st index = .error .wrongState := by
  simp [Part.activeLine, h, hi, hl, hs]

theorem Part.activeLine_found (h : p.activeOrder st = some o) (hi : within 1 24 index = true)
    (hl : o.line index = some l) (hs : l.state = .active) : p.activeLine st index = .ok (o, l.fields) := by
  simp [Part.activeLine, h, hi, hl, hs]

/-! ## VOID LINE -/

theorem keyVoidLine_refused {e : Reason} (h : p.activeLine st index = .error e) :
    keyVoidLine st index supervisor p = .error e := by
  simp [keyVoidLine, h]

theorem keyVoidLine_found (h : p.activeLine st index = .ok (o, l.fields)) : keyVoidLine st index supervisor p = (do
    p.journalCheck 24 2
    return ((p.updateOrder o.number (fun x => { x.withLineState index .voided with total := x.total - l.fields.linePrice
      })).queueRecord (.voidLine o.number index supervisor), orderResult o.number (o.total - l.fields.linePrice))) := by
  simp only [keyVoidLine, h, ok_bind]
  rfl

/-! ## REPRINT -/

theorem keyReprint_refused {e : Reason} (h : p.activeLine st index = .error e) :
    keyReprint st index supervisor p = .error e := by
  simp [keyReprint, h]

theorem keyReprint_unlabelled (h : p.activeLine st index = .ok (o, l.fields)) (hlabel : l.fields.label = none) :
    keyReprint st index supervisor p = .error .wrongState := by
  simp [keyReprint, h, hlabel]

theorem Part.printRoom_iff (p : Part) : p.printRoom = true ↔ p.lu.queue.length < 32 := decide_eq_true_iff

theorem Part.printRoom_false (h : 32 ≤ p.lu.queue.length) : p.printRoom = false :=
  Bool.eq_false_iff.2 fun hroom => Nat.not_lt.2 h ((Part.printRoom_iff p).1 hroom)

theorem keyReprint_full {label : Nat} (h : p.activeLine st index = .ok (o, l.fields)) (hlabel : l.fields.label = some label)
    (hfull : 32 ≤ p.lu.queue.length) : keyReprint st index supervisor p = .error .queueFull := by
  simp [keyReprint, h, hlabel, Part.printRoom_false hfull]

theorem keyReprint_room {label : Nat} (h : p.activeLine st index = .ok (o, l.fields)) (hlabel : l.fields.label = some label)
    (hroom : p.lu.queue.length < 32) : keyReprint st index supervisor p = (do
      p.journalCheck 24 2
      return ((p.addJob .reprint label (p.config st).printer (lineContent .reprint label p.art.itemPrefix o.number o.owner
        l.fields (p.article l.fields.article))).queueRecord (.reprint label supervisor st),
        { orderResult o.number o.total with label := some label })) := by
  simp only [keyReprint, h, hlabel, (Part.printRoom_iff p).2 hroom, check_true, need_some, ok_bind]
  rfl

end

/-- Both keys are privileged, and what the line that they name refuses, both refuse. -/
theorem voidLine_reprint_refused {s : State} {st : StationNo} {tag operator index supervisor : Nat} {e : Reason}
    (h : s.takesKeyOf st tag operator) (hsup : (s.part.keyTaken st tag).supervisor st = some supervisor)
    (he : (s.part.keyTaken st tag).activeLine st index = .error e) :
    exec (.voidLine st tag index) s = .next (s.outcome (s.part.keyTaken st tag) st tag (.refused e))
      ∧ exec (.reprint st tag index) s = .next (s.outcome (s.part.keyTaken st tag) st tag (.refused e)) :=
  ⟨State.key_refused_on h (Part.privileged_error hsup (keyVoidLine_refused he)),
    State.key_refused_on h (Part.privileged_error hsup (keyReprint_refused he))⟩

/-- Settles O30: the shared checks of the line first, then those of each key. -/
theorem voidLineAndReprint : Obligations.VoidLineAndReprint := by
  intro s st tag operator index h
  refine ⟨fun hsup => ⟨?voidNotAllowed, ?reprintNotAllowed⟩, fun supervisor hsup => ⟨fun ha => ?noOrder, fun o ho =>
    ⟨fun hbad => ?badValue, fun h1 h24 hl => ?missing, fun l h1 h24 hl => ⟨fun hs => ?inactive, fun hs =>
      ⟨fun e he => ?voidJournal, fun hok => ?void, fun hlabel => ?unlabelled, fun label hlabel => ⟨fun hfull => ?full,
        fun hroom => ⟨fun e he => ?reprintJournal, fun hok => ?reprint⟩⟩⟩⟩⟩⟩⟩
  case voidNotAllowed => exact State.key_refused_on h (Part.privileged_refused _ hsup)
  case reprintNotAllowed => exact State.key_refused_on h (Part.privileged_refused _ hsup)
  case noOrder => exact voidLine_reprint_refused h hsup (Part.activeLine_none (Part.activeOrder_none ha))
  case badValue => exact voidLine_reprint_refused h hsup (Part.activeLine_badValue ho (within_false.2 (by omega)))
  case missing => exact voidLine_reprint_refused h hsup (Part.activeLine_missing ho (within_true.2 ⟨h1, h24⟩) hl)
  case inactive => exact voidLine_reprint_refused h hsup (Part.activeLine_inactive ho (within_true.2 ⟨h1, h24⟩) hl hs)
  all_goals have hline := Part.activeLine_found ho (within_true.2 ⟨h1, h24⟩) hl hs
  case voidJournal =>
    exact State.key_refused_on h (Part.privileged_error hsup ((keyVoidLine_found hline).trans (by rw [he]; rfl)))
  case void =>
    have hserve := Part.privileged_ok (serve := fun x => keyVoidLine st index x) hsup
      ((keyVoidLine_found hline).trans (by rw [hok, ok_bind, pure_eq_ok]))
    refine ⟨_, State.key_accepted_on h hserve, ?_⟩
    rw [Part.endOverride_of_operator (p := s.part.keyTaken st tag) (by simp [Part.updateOrder]) h.2]
    simp [Part.updateOrder, Part.queueRecord_tj]
  case unlabelled =>
    exact State.key_refused_on h (Part.privileged_error hsup (keyReprint_unlabelled hline hlabel))
  case full => exact State.key_refused_on h (Part.privileged_error hsup (keyReprint_full hline hlabel hfull))
  case reprintJournal =>
    exact State.key_refused_on h (Part.privileged_error hsup ((keyReprint_room hline hlabel hroom).trans (by rw [he]; rfl)))
  case reprint =>
    have hserve := Part.privileged_ok (serve := fun x => keyReprint st index x) hsup
      ((keyReprint_room hline hlabel hroom).trans (by rw [hok, ok_bind, pure_eq_ok]))
    refine ⟨_, State.key_accepted_on h hserve, ?_⟩
    rw [Part.endOverride_of_operator (p := s.part.keyTaken st tag) (by simp) h.2]
    simp [Part.queueRecord_tj]

end Sys2Proof.Machine
end


-- ==== Sys2Proof/Proofs/FirstOf.lean ====
section
/-! The first element of a list that satisfies a test: where it stands, what a change and a removal leave. -/

namespace Sys2Proof.Machine

section
variable {α : Type} {test : α → Bool} {before after : List α} {x : α}

theorem find?_split (hb : ∀ y ∈ before, test y = false) (hx : test x = true) :
    (before ++ x :: after).find? test = some x := by
  induction before with
  | nil => simp [hx]
  | cons y ys ih =>
    have hy := hb y List.mem_cons_self
    simp [hy, ih fun z hz => hb z (List.mem_cons_of_mem _ hz)]

theorem changeFirst_split (f : α → α) (hb : ∀ y ∈ before, test y = false) (hx : test x = true) :
    changeFirst test f (before ++ x :: after) = before ++ f x :: after := by
  induction before with
  | nil => simp [changeFirst, hx]
  | cons y ys ih =>
    have hy := hb y List.mem_cons_self
    simp [changeFirst, hy, ih fun z hz => hb z (List.mem_cons_of_mem _ hz)]

theorem removeFirst_split (hb : ∀ y ∈ before, test y = false) (hx : test x = true) :
    removeFirst test (before ++ x :: after) = before ++ after := by
  induction before with
  | nil => simp [removeFirst, hx]
  | cons y ys ih =>
    have hy := hb y List.mem_cons_self
    simp [removeFirst, hy, ih fun z hz => hb z (List.mem_cons_of_mem _ hz)]

theorem changeFirst_none {l : List α} (f : α → α) (h : ∀ y ∈ l, test y = false) : changeFirst test f l = l := by
  induction l with
  | nil => rfl
  | cons y ys ih =>
    have hy := h y List.mem_cons_self
    simp [changeFirst, hy, ih fun z hz => h z (List.mem_cons_of_mem _ hz)]

theorem removeFirst_none {l : List α} (h : ∀ y ∈ l, test y = false) : removeFirst test l = l := by
  induction l with
  | nil => rfl
  | cons y ys ih =>
    have hy := h y List.mem_cons_self
    simp [removeFirst, hy, ih fun z hz => h z (List.mem_cons_of_mem _ hz)]

end

end Sys2Proof.Machine
end


-- ==== Sys2Proof/Proofs/Calling.lean ====
section
/-! Tickets (chapter 6): NEXT and RECALL, TAKE, the expiry of a MISSED ticket, and the call list. -/

namespace Sys2Proof.Machine

/-! ## The CALLED ticket becomes MISSED (R116) -/

section
variable {p : Part} {st : StationNo}

/-- The part after the CALLED ticket of a station has become MISSED and another has been called there. -/
theorem Part.called_next (p : Part) (st : StationNo) (t : Ticket) :
    let q := (p.missCalled st).callTicket st t
    let calls := (⟨t.number, st⟩ :: p.tc.callList.filter (fun c => c.ticket != t.number)).take 4
    q.tc.waiting = p.tc.waiting ∧ q.tc.called = p.tc.called.set st (some ⟨t, p.time.clock⟩) ∧ q.tc.callList = calls
      ∧ q.ml.display = p.ml.display ++ [calls] ∧ q.tc.missed = (p.missCalled st).tc.missed
      ∧ q.tc.figures = (p.missCalled st).tc.figures ∧ q.tc.serving = p.tc.serving ∧ q.tc.lastIssued = p.tc.lastIssued
      ∧ q.om = p.om ∧ q.oc = p.oc ∧ q.wc = p.wc ∧ q.art = p.art ∧ q.lu = p.lu ∧ q.tj = p.tj ∧ q.tt = p.tt ∧ q.nv = p.nv := by
  unfold Part.missCalled
  cases hc : p.tc.called.get st with
  | none => exact ⟨rfl, rfl, rfl, rfl, rfl, rfl, rfl, rfl, rfl, rfl, rfl, rfl, rfl, rfl, rfl, rfl⟩
  | some c =>
    exact ⟨rfl, PerStation.set_set _ _ _ _, rfl, rfl, rfl, rfl, rfl, rfl, rfl, rfl, rfl, rfl, rfl, rfl, rfl, rfl⟩

theorem Part.missCalled_none (h : p.tc.called.get st = none) : p.missCalled st = p := by
  simp only [Part.missCalled, h]

theorem Part.missCalled_missed {c : CalledTicket} (h : p.tc.called.get st = some c) :
    (p.missCalled st).tc.missed = p.tc.missed.drop (p.tc.missed.length - 7) ++ [⟨c.ticket, c.callTime, p.time.elapsed⟩]
    ∧ (p.missCalled st).tc.figures
      = { p.tc.figures with expired := min 65535 (p.tc.figures.expired + (p.tc.missed.length - 7)) } := by
  have hdrop : p.tc.missed.length + 1 - Config.maxMissed = p.tc.missed.length - 7 := by
    rw [show Config.maxMissed = 8 from rfl]
    omega
  simp only [Part.missCalled, h, joinMissed, TicketFigures.expire, hdrop]
  exact ⟨rfl, rfl⟩

end

/-! ## NEXT and RECALL (R116, R117) -/

section
variable {p : Part} {st : StationNo} {n : Nat}

/-- The checks that the two keys share: the counter is TRADING and the station has no active order. -/
theorem keyNext_checked (h : p.tt.counter = .trading) (ha : p.om.active.get st = none) : keyNext st p = (do
    let t ← need p.tc.waiting.head? .ticketsEmpty
    return ((Part.missCalled { p with tc := { p.tc with waiting := p.tc.waiting.tail } } st).callTicket st t,
      { ResultData.nothing with ticket := some t.number })) := by
  simp [keyNext, Part.checkTrading_trading h, ha]

theorem keyRecall_checked (h : p.tt.counter = .trading) (ha : p.om.active.get st = none) : keyRecall st n p = (do
    check (within 1 99 n) .badValue
    let m ← need (p.tc.missed.find? (fun m => m.ticket.number == n)) .noSuch
    return ((Part.missCalled { p with tc := { p.tc with
        missed := removeFirst (fun m => m.ticket.number == n) p.tc.missed } } st).callTicket st m.ticket,
      { ResultData.nothing with ticket := some n })) := by
  simp [keyRecall, Part.checkTrading_trading h, ha]

theorem key_untraded {e : Reason} (h : p.checkTrading = .error e) :
    keyNext st p = .error e ∧ keyRecall st n p = .error e := by
  simp [keyNext, keyRecall, h]

theorem key_active (h : p.tt.counter = .trading) (ha : p.om.active.get st ≠ none) :
    keyNext st p = .error .wrongState ∧ keyRecall st n p = .error .wrongState := by
  have htest : (p.om.active.get st).isNone = false := by simpa [Option.isSome_iff_ne_none] using ha
  simp [keyNext, keyRecall, Part.checkTrading_trading h, htest]

end

/-- What both keys refuse, each refuses. -/
theorem exec_call_refused {s : State} {st : StationNo} {tag operator n : Nat} {e : Reason} {c : Instr}
    (h : s.takesKeyOf st tag operator) (hc : c = .next st tag ∨ c = .recall st tag n)
    (he : keyNext st (s.part.keyTaken st tag) = .error e ∧ keyRecall st n (s.part.keyTaken st tag) = .error e) :
    exec c s = .next (s.outcome (s.part.keyTaken st tag) st tag (.refused e)) := by
  obtain ⟨hnext, hrecall⟩ := he
  rcases hc with rfl | rfl
  · exact State.key_refused_on h hnext
  · exact State.key_refused_on h hrecall

/-- Settles O32: the shared checks, the refusals of each key, and the part after the call by `Part.called_next`. -/
theorem nextAndRecallCallATicket : Obligations.NextAndRecallCallATicket := by
  intro s st tag operator t h
  refine ⟨fun c hc => ⟨fun hcounter => ?paused, fun hcounter => ?closed, fun hcounter ha => ?active⟩,
    fun hcounter ha => ⟨fun hempty => ?empty, fun rest hwaiting => ?next, fun hbad => ?badValue, fun h1 h99 hnot => ?missing,
      fun before after call mark h1 h99 hmissed hbefore => ?called⟩⟩
  case paused => exact exec_call_refused h hc (key_untraded (Part.checkTrading_paused hcounter))
  case closed => exact exec_call_refused h hc (key_untraded (Part.checkTrading_closed hcounter))
  case active => exact exec_call_refused h hc (key_active hcounter ha)
  case empty => exact State.key_refused_on h ((keyNext_checked hcounter ha).trans (by rw [hempty]; rfl))
  case next =>
    have hserve := (keyNext_checked hcounter ha).trans (by rw [hwaiting, List.head?_cons, List.tail_cons, need_some, ok_bind])
    refine ⟨_, State.key_accepted_on h hserve, ?_⟩
    obtain ⟨hw, hcalled, hcalls, hdisplay, hmissed, hfigures, hserving, hlast, hrest⟩ := Part.called_next
      { s.part.keyTaken st tag with tc := { (s.part.keyTaken st tag).tc with waiting := rest } } st t
    rw [hmissed, hfigures]
    refine ⟨hw, hcalled, hcalls, hdisplay, fun hnone => ?_, fun c hc hlt => ?_, fun c x xs hc hfull hseven => ?_, hserving,
      hlast, hrest⟩
    · rw [Part.missCalled_none (by exact hnone)]
      exact ⟨rfl, rfl⟩
    · obtain ⟨hm, hf⟩ := Part.missCalled_missed (p := { s.part.keyTaken st tag with
        tc := { (s.part.keyTaken st tag).tc with waiting := rest } }) hc
      have hzero : (s.part.keyTaken st tag).tc.missed.length - 7 = 0 := by omega
      rw [hm, hf, hzero]
      exact ⟨rfl, rfl⟩
    · obtain ⟨hm, hf⟩ := Part.missCalled_missed (p := { s.part.keyTaken st tag with
        tc := { (s.part.keyTaken st tag).tc with waiting := rest } }) hc
      have hone : (s.part.keyTaken st tag).tc.missed.length - 7 = 1 := by rw [hfull, List.length_cons, hseven]
      rw [hm, hf, hone, hfull]
      exact ⟨rfl, rfl⟩
  case badValue =>
    exact State.key_refused_on h ((keyRecall_checked hcounter ha).trans (by rw [within_false.2 (by omega)]; rfl))
  case missing =>
    have hnone : (s.part.keyTaken st tag).tc.missed.find? (fun m => m.ticket.number == t.number) = none :=
      List.find?_eq_none.2 fun x hx => by simpa using hnot x hx
    exact State.key_refused_on h ((keyRecall_checked hcounter ha).trans
      (by rw [within_true.2 ⟨h1, h99⟩, hnone]; rfl))
  case called =>
    have htest : ∀ y ∈ before, (y.ticket.number == t.number) = false := fun y hy => by simpa using hbefore y hy
    have hserve := (keyRecall_checked (n := t.number) hcounter ha).trans (by
      rw [within_true.2 ⟨h1, h99⟩, hmissed, find?_split htest (beq_self_eq_true _),
        removeFirst_split htest (beq_self_eq_true _), check_true, need_some, ok_bind, ok_bind])
    refine ⟨_, State.key_accepted_on h hserve, ?_⟩
    obtain ⟨hw, hcalled, hcalls, hdisplay, hm, hf, hserving, hlast, hrest⟩ := Part.called_next
      { s.part.keyTaken st tag with tc := { (s.part.keyTaken st tag).tc with missed := before ++ after } } st t
    rw [hm, hf]
    refine ⟨fun hnone => ?_, fun c hc hle => ?_, hcalled, hcalls, hw, hserving, hlast, hdisplay, hrest⟩
    · rw [Part.missCalled_none (by exact hnone)]
      exact ⟨rfl, rfl⟩
    · obtain ⟨hm', hf'⟩ := Part.missCalled_missed (p := { s.part.keyTaken st tag with
        tc := { (s.part.keyTaken st tag).tc with missed := before ++ after } }) hc
      have hzero : (before ++ after).length - 7 = 0 := by
        have hlen := hle
        rw [hmissed, List.length_append, List.length_cons] at hlen
        rw [List.length_append]
        omega
      rw [hm', hf', hzero]
      exact ⟨rfl, rfl⟩

/-! ## TAKE, the expiry of a MISSED ticket, and CALLS (R114, R118, R199, R200) -/

section
variable {p : Part} {d : DispenserNo} {tag : Nat}

theorem Part.take_kept (h : (p.ml.takes.get d).map KeptTake.tag = some tag) : p.take d tag = p := by
  rw [Part.take, if_pos h]

theorem Part.take_served (h : (p.ml.takes.get d).map KeptTake.tag ≠ some tag) {q : Part} {a : TakeAnswer}
    (hs : p.serveTake d = (q, a)) : p.take d tag = q.keepTake d tag a := by
  rw [Part.take, if_neg h, hs]

theorem Part.serveTake_open (h : p.tt.counter = .trading ∨ p.tt.counter = .paused) : p.serveTake d
    = if 64 ≤ p.tc.waiting.length then (p.latch .ticketsFull (some (.dispenser d)), .full) else p.issue d := by
  rcases h with h | h <;> simp only [Part.serveTake, h] <;> rfl

theorem Part.serveTake_closed (ht : p.tt.counter ≠ .trading) (hp : p.tt.counter ≠ .paused) :
    p.serveTake d = (p, .closed) := by
  cases h : p.tt.counter with
  | trading => exact absurd h ht
  | paused => exact absurd h hp
  | _ => simp only [Part.serveTake, h]

theorem Part.expireMissed_split {before after : List MissedTicket} {t : MissedTicket}
    (hm : p.tc.missed = before ++ t :: after) (hb : ∀ x ∈ before, x.ticket.number ≠ t.ticket.number) :
    p.expireMissed t.ticket.number = { p with
      tc := { p.tc with
        missed := before ++ after
        figures := { p.tc.figures with expired := min 65535 (p.tc.figures.expired + 1) } }
      time := p.time.advance (t.missedAt + 600000 - p.time.elapsed) } := by
  have htest : ∀ y ∈ before, (y.ticket.number == t.ticket.number) = false := fun y hy => by simpa using hb y hy
  have hremoved : removeFirst (fun m => m.ticket.number == t.ticket.number) p.tc.missed = before ++ after := by
    rw [hm, removeFirst_split htest (beq_self_eq_true _)]
  rw [← hremoved]
  simp only [Part.expireMissed, hm, find?_split htest (beq_self_eq_true t.ticket.number)]
  rw [← hm]
  rfl

end

theorem exec_take {s : State} {d : DispenserNo} {tag : Nat} (hr : s.runs) (h1 : 1 ≤ tag) (h255 : tag ≤ 255) :
    exec (.take d tag true) s = .next { s with part := s.part.take d tag } := by
  refine (State.act_runs hr (fun p => p.receiveTake d tag true)).trans ?_
  rw [Part.receiveTake, within_true.2 ⟨h1, h255⟩]
  rfl

/-- Settles O33: a TAKE by its tag, its check and the counter state; the expiry and CALLS by the element that leaves. -/
theorem takeExpiryAndCalls : Obligations.TakeExpiryAndCalls := by
  refine ⟨fun s d tag hr h1 h255 => ⟨fun hkept => ?kept, ?failed, fun hnew => ⟨fun hopen => ⟨fun hroom => ?issued,
    fun hfull => ?full⟩, fun ht hp => ?closed⟩, fun before after t hm hb => ?expiry, fun calls rest hcalls => ?calls⟩,
    fun p hw hm hs hlast => ?number⟩
  case kept =>
    rw [exec_take hr h1 h255, Part.take_kept hkept]
  case failed => exact State.act_runs hr (fun p => p.receiveTake d tag false)
  case issued =>
    rw [exec_take hr h1 h255, Part.take_served hnew ((Part.serveTake_open hopen).trans (if_neg (Nat.not_le.2 hroom)))]
    rfl
  case full =>
    rw [exec_take hr h1 h255, Part.take_served hnew ((Part.serveTake_open hopen).trans (if_pos hfull))]
    rfl
  case closed =>
    rw [exec_take hr h1 h255, Part.take_served hnew (Part.serveTake_closed ht hp)]
    rfl
  case expiry =>
    refine (State.act_runs hr (fun p => p.expireMissed t.ticket.number)).trans ?_
    rw [Part.expireMissed_split hm hb]
  case calls =>
    refine (State.act_runs hr Part.sendCalls).trans ?_
    rw [Part.sendCalls, hcalls]
  case number =>
    have hlive := TicketController.live_length_lt hw hm hs
    obtain ⟨k, hk1, hk, heq, hfree, hbefore⟩ := firstFree_spec (fuel := 99) hlast hlive (by omega)
    have hcount : p.tc.live.length ≤ 95 := by
      have hcalled := called_length_le p.tc.called (fun x => x.ticket.number)
      simp only [TicketController.live, List.length_append, List.length_map]
      omega
    exact ⟨k, hk1, by omega, (freeTicket_eq _ _ _).trans heq, hfree, hbefore⟩

end Sys2Proof.Machine
end


-- ==== Sys2Proof/Proofs/Printers.lean ====
section
/-! Printers (R135 to R141): the messages to a printer, MOVE JOBS and CANCEL JOBS, and what each reply makes of the job at the
printer. -/

namespace Sys2Proof.Machine

/-! ## Printer numbers -/

theorem PrinterNo.ofNumber_out {n : Nat} (h : n = 0 ∨ 4 < n) : PrinterNo.ofNumber n = none := by
  match n with
  | 0 => rfl
  | 1 | 2 | 3 | 4 => omega
  | n + 5 => rfl

theorem PrinterNo.ofNumber_injective {a b : Nat} {x : PrinterNo} (ha : PrinterNo.ofNumber a = some x)
    (hb : PrinterNo.ofNumber b = some x) : a = b := by
  have hnumber {n : Nat} (h : PrinterNo.ofNumber n = some x) : n = x.number := by
    match n with
    | 0 => cases h
    | 1 | 2 | 3 | 4 => cases h; rfl
    | n + 5 => cases h
  rw [hnumber ha, hnumber hb]

/-! ## Messages (R135, R136) -/

/-- Where every job of a printer is at it, none waits to be sent. -/
theorem unsent_none {pr : PrinterNo} {l : List Job} (h : ∀ x ∈ l, x.target = pr → x.atPrinter = true) :
    ∀ x ∈ l, (decide (x.target = pr) && !x.atPrinter) = false := fun x hx => by
  by_cases hx' : x.target = pr
  · simp [h x hx hx']
  · simp [hx']

theorem atPrinter_none {pr : PrinterNo} {l : List Job} (h : ∀ x ∈ l, x.target = pr → x.atPrinter = false) :
    ∀ x ∈ l, (decide (x.target = pr) && x.atPrinter) = false := fun x hx => by
  by_cases hx' : x.target = pr
  · simp [h x hx hx']
  · simp [hx']

section
variable {p : Part} {pr : PrinterNo}

theorem Part.sendStatus_sends (h : (p.lu.printers.get pr).waiting = none) : p.sendStatus pr = p.onPrinter pr (fun r =>
    { r with waiting := some ⟨.status, p.time.elapsed⟩, lastStatus := some p.time.elapsed }) := by
  simp only [Part.sendStatus, h]
  rfl

theorem Part.sendStatus_waits (h : (p.lu.printers.get pr).waiting ≠ none) : p.sendStatus pr = p := by
  rw [Part.sendStatus, if_pos (Option.isSome_iff_ne_none.2 h)]

/-- A LABEL is sent only to a READY printer with no message waiting, and only a RELEASED job. -/
theorem Part.sendLabel_waits (h : (p.lu.printers.get pr).state ≠ .ready ∨ (p.lu.printers.get pr).waiting ≠ none
    ∨ ∀ j, p.lu.nextJob pr = some j → j.released = false) : p.sendLabel pr = p := by
  unfold Part.sendLabel
  split
  · rfl
  · next j hj =>
    have htest : ((p.lu.printers.get pr).state = .ready && (p.lu.printers.get pr).waiting.isNone && j.released) = false := by
      rcases h with h | h | h
      · simp [h]
      · obtain ⟨m, hm⟩ := Option.ne_none_iff_exists'.1 h
        simp [hm]
      · simp [h j hj]
    rw [htest]
    rfl

theorem Part.sendLabel_sends {before behind : List Job} {j : Job} (hq : p.lu.queue = before ++ j :: behind)
    (hb : ∀ x ∈ before, (decide (x.target = pr) && !x.atPrinter) = false)
    (hj : (decide (j.target = pr) && !j.atPrinter) = true) (hs : (p.lu.printers.get pr).state = .ready)
    (hw : (p.lu.printers.get pr).waiting = none) (hr : j.released = true) : p.sendLabel pr
      = { p with lu := { p.lu with
          queue := before ++ { j with atPrinter := true } :: behind
          printers := p.lu.printers.set pr { p.lu.printers.get pr with
            state := .printing, waiting := some ⟨.label j.content, p.time.elapsed⟩ } } } := by
  have hnext : p.lu.nextJob pr = some j := by rw [LabelUnit.nextJob, hq, find?_split hb hj]
  have hchanged : changeFirst (fun j : Job => j.target = pr && !j.atPrinter) (fun j => { j with atPrinter := true }) p.lu.queue
      = before ++ { j with atPrinter := true } :: behind := by
    rw [hq, changeFirst_split _ hb hj]
  simp only [Part.sendLabel, hnext, hs, hw, hr, Option.isNone_none, decide_true, Bool.and_self, if_true, hchanged,
    Part.onLabels, Part.onPrinter]
  rfl

theorem Part.giveUp_gives {m : SentMessage} (h : (p.lu.printers.get pr).waiting = some m) : p.giveUp pr
    = { p with
        time := p.time.advance (m.sentAt + 250 - p.time.elapsed)
        lu := { p.lu with printers := p.lu.printers.set pr { p.lu.printers.get pr with waiting := none } } } := by
  simp only [Part.giveUp, h]
  rfl

end

/-! ## MOVE JOBS and CANCEL JOBS (R140, R141) -/

section
variable {p : Part} {a b : Nat}

theorem serveMoveJobs_refused (h : PrinterNo.ofNumber a = none ∨ PrinterNo.ofNumber b = none ∨ a = b) :
    serveMoveJobs a b p = (p, .refuse .badValue) := by
  cases ha : PrinterNo.ofNumber a with
  | none => simp only [serveMoveJobs, ha]
  | some x =>
    cases hb : PrinterNo.ofNumber b with
    | none => simp only [serveMoveJobs, ha, hb]
    | some y =>
      have heq : a = b := by simpa [ha, hb] using h
      rw [heq, hb] at ha
      cases ha
      simp only [serveMoveJobs, heq, hb, if_true]

theorem serveMoveJobs_moves {x y : PrinterNo} (ha : PrinterNo.ofNumber a = some x) (hb : PrinterNo.ofNumber b = some y)
    (hne : a ≠ b) : serveMoveJobs a b p
      = (p.onLabels (fun l => { l with queue := l.queue.map (fun j => if j.movable x then { j with target := y } else j) }),
        .done (.moved (p.lu.queue.filter (Job.movable x)).length)) := by
  have hxy : x ≠ y := fun h => hne (PrinterNo.ofNumber_injective (h ▸ ha) hb)
  simp only [serveMoveJobs, ha, hb, if_neg hxy]

end

/-- Settles O34: each message by what waits at the printer and stands in its share, each request by its printers. -/
theorem printerMessagesAndJobRequests : Obligations.PrinterMessagesAndJobRequests := by
  refine ⟨fun s pr hr => ⟨fun hw => ?status, fun hw => ⟨?statusWaits, ?labelWaits⟩, fun before j behind hq hb ht hat =>
    ⟨fun hs hw hrel => ?label, fun hnot => ?labelNot⟩, fun m hm => ?giveUp⟩, fun s tag a b => ⟨fun hs => ⟨fun x y ha hb hne => ?moves,
      fun hbad => ?moveBad⟩, fun hs => ⟨fun x ha => ?cancels, fun hbad => ?cancelBad⟩⟩⟩
  case status => exact (State.act_runs hr (fun p => p.sendStatus pr)).trans (by rw [Part.sendStatus_sends hw]; rfl)
  case statusWaits => exact (State.act_runs hr (fun p => p.sendStatus pr)).trans (by rw [Part.sendStatus_waits hw])
  case labelWaits =>
    exact (State.act_runs hr (fun p => p.sendLabel pr)).trans (by rw [Part.sendLabel_waits (.inr (.inl hw))])
  case label =>
    have hb' := unsent_none hb
    exact (State.act_runs hr (fun p => p.sendLabel pr)).trans
      (by rw [Part.sendLabel_sends hq hb' (by simp [ht, hat]) hs hw hrel])
  case labelNot =>
    have hb' := unsent_none hb
    have hnext : s.part.lu.nextJob pr = some j := by
      rw [LabelUnit.nextJob, hq, find?_split hb' (by simp [ht, hat])]
    refine (State.act_runs hr (fun p => p.sendLabel pr)).trans ?_
    rw [Part.sendLabel_waits]
    rcases hnot with hstate | hheld
    · exact .inl hstate
    · refine .inr (.inr fun j' hj' => ?_)
      rw [hnext] at hj'
      cases hj'
      exact hheld
  case giveUp => exact (State.act_runs hr (fun p => p.giveUp pr)).trans (by rw [Part.giveUp_gives hm])
  case moves => exact State.serve_now hs (serveMoveJobs_moves ha hb hne)
  case moveBad =>
    refine State.serve_now hs (serveMoveJobs_refused ?_)
    rcases hbad with h | h | h | h | h
    · exact .inr (.inr h)
    · exact .inl (PrinterNo.ofNumber_out (.inl h))
    · exact .inl (PrinterNo.ofNumber_out (.inr h))
    · exact .inr (.inl (PrinterNo.ofNumber_out (.inl h)))
    · exact .inr (.inl (PrinterNo.ofNumber_out (.inr h)))
  case cancels => exact State.serve_now hs (by simp only [serveCancelJobs, ha]; rfl)
  case cancelBad => exact State.serve_now hs (by simp only [serveCancelJobs, PrinterNo.ofNumber_out hbad]; rfl)

/-! ## Printer replies (R137 to R139) -/

theorem returnJob_of_returned {pr : PrinterNo} {queue back : List Job} (h : Returned pr queue back) :
    returnJob pr queue = back := by
  rcases h with ⟨rfl, hnone⟩ | ⟨before, j, after, rfl, hb, ht, hat, rfl⟩
  · exact changeFirst_none _ (atPrinter_none hnone)
  · exact changeFirst_split _ (atPrinter_none hb) (by simp [ht, hat])

section
variable {p : Part} {pr : PrinterNo}

/-- A printer in another state, with what a valid reply sets beside it (R137). -/
def Part.printerSettled (p : Part) (pr : PrinterNo) (x : PrinterState) (queue : List Job) : Part :=
  { p with lu := { p.lu with
      queue := queue
      printers := p.lu.printers.set pr { p.lu.printers.get pr with
        state := x, waiting := none, lastReply := some p.time.elapsed } } }

/-- PRINTER_ATTENTION is latched when a state of R139 is entered from another. -/
def Part.attended (q : Part) (old : PrinterState) (pr : PrinterNo) (x : PrinterState) : Part :=
  if x.needsAttention && old ≠ x then q.latch .printerAttention (some (.printer pr x)) else q

theorem Part.printerReply_eq (p : Part) (pr : PrinterNo) (status : PrinterStatus) : p.printerReply pr status
    = (p.printerSettled pr (stateOfStatus status) (settleJobs p.lu pr status)).attended (p.lu.printers.get pr).state pr
        (stateOfStatus status) := by
  simp only [Part.printerReply, Part.enterPrinterState, Part.onPrinter, Part.onLabels, PerPrinter.get_set_same,
    PerPrinter.set_set, Part.attended, Part.printerSettled, Part.now]

theorem Part.attended_calm {q : Part} {old x : PrinterState} (h : x.needsAttention = false) : q.attended old pr x = q := by
  rw [Part.attended, h]
  rfl

theorem Part.attended_needed {q : Part} {old x : PrinterState} (h : x.needsAttention = true) :
    q.attended old pr x = if old = x then q else q.latch .printerAttention (some (.printer pr x)) := by
  by_cases hx : old = x <;> simp [Part.attended, h, hx]

theorem settleDone_at {l : LabelUnit} {before behind : List Job} {j : Job} (hq : l.queue = before ++ j :: behind)
    (hb : ∀ x ∈ before, x.target = pr → x.atPrinter = false) (ht : j.target = pr) (hat : j.atPrinter = true) :
    settleDone l pr j.label = before ++ behind := by
  have htest : (decide (j.target = pr) && j.atPrinter) = true := by simp [ht, hat]
  have hjob : l.jobAt pr = some j := by rw [LabelUnit.jobAt, hq, find?_split (atPrinter_none hb) htest]
  rw [settleDone, hjob, Option.map_some, if_pos rfl, hq, removeFirst_split (atPrinter_none hb) htest]

/-- DONE with a number that the job at the printer, if there is one, does not carry. -/
theorem settleDone_other {l : LabelUnit} {n : Nat} (h : ∀ x ∈ l.queue, x.target = pr → x.atPrinter = true → x.label ≠ n) :
    settleDone l pr n
      = returnJob pr (removeFirst (fun j => j.label == n && decide (j.target = pr) && !j.atPrinter) l.queue) := by
  have hjob : (l.jobAt pr).map Job.label ≠ some n := by
    intro hlabel
    obtain ⟨j, hj, hn⟩ := Option.map_eq_some_iff.1 hlabel
    have hfound := List.find?_some hj
    rw [Bool.and_eq_true, decide_eq_true_iff] at hfound
    exact h j (List.mem_of_find?_eq_some hj) hfound.1 hfound.2 hn
  rw [settleDone, if_neg hjob]

end

/-- Settles O35: the state that a status gives, the job at the printer by `returnJob` and `settleDone`, and the latch. -/
theorem printerRepliesSettleTheJob : Obligations.PrinterRepliesSettleTheJob := by
  intro s pr back hr hback
  have hreply (status : PrinterStatus) :
      exec (.printerReply pr status true) s = .next { s with part := s.part.printerReply pr status } :=
    State.act_runs hr (fun p => p.receivePrinter pr status true)
  have hreturned := returnJob_of_returned hback
  refine ⟨fun status => State.act_runs hr (fun p => p.receivePrinter pr status false), ?busy, ?idle, ?stockOut, ?coverOpen,
    fun before j behind hq hb ht hat => ?done, fun n hn => ?doneNone, fun before j behind home hq ht hat hb hother hhome => ?doneOther,
    fun t hstate hlast => ?offline⟩
  case busy => rw [hreply, Part.printerReply_eq, Part.attended_calm rfl]; rfl
  case idle => rw [hreply, Part.printerReply_eq, Part.attended_calm rfl, settleJobs, hreturned]; rfl
  case stockOut => rw [hreply, Part.printerReply_eq, Part.attended_needed rfl, settleJobs, hreturned]; rfl
  case coverOpen => rw [hreply, Part.printerReply_eq, Part.attended_needed rfl, settleJobs, hreturned]; rfl
  case done => rw [hreply, Part.printerReply_eq, Part.attended_calm rfl, settleJobs, settleDone_at hq hb ht hat]; rfl
  case doneNone =>
    have htest : ∀ x ∈ s.part.lu.queue, (x.label == n && decide (x.target = pr) && !x.atPrinter) = false := fun x hx => by
      by_cases ht : x.target = pr
      · simp [hn x hx ht]
      · simp [ht]
    rw [hreply, Part.printerReply_eq, Part.attended_calm rfl, settleJobs, settleDone_other (fun x hx ht _ => hn x hx ht), removeFirst_none htest,
      hreturned]
    rfl
  case doneOther =>
    have htest : ∀ x ∈ before, (x.label == j.label && decide (x.target = pr) && !x.atPrinter) = false := fun x hx => by
      by_cases hx' : x.target = pr ∧ x.atPrinter = false
      · simp [hb x hx hx'.1 hx'.2]
      · by_cases ht' : x.target = pr <;> simp_all
    rw [hreply, Part.printerReply_eq, Part.attended_calm rfl, settleJobs, settleDone_other hother, hq,
      removeFirst_split htest (by simp [ht, hat]), returnJob_of_returned hhome]
    rfl
  case offline =>
    refine (State.act_runs hr (fun p => p.printerOffline pr)).trans ?_
    have hentered : s.part.printerOffline pr = Part.attended { s.part with
        time := s.part.time.advance (t + 2000 - s.part.time.elapsed)
        lu := { s.part.lu with
          queue := back
          printers := s.part.lu.printers.set pr { s.part.lu.printers.get pr with state := .offline } } }
        (s.part.lu.printers.get pr).state pr .offline := by
      rw [← hreturned]
      unfold Part.printerOffline
      split
      · next hoff => exact absurd hoff hstate
      · next hnone _ => rw [hlast] at hnone; cases hnone
      · next t' ht' _ =>
        rw [hlast] at ht'
        cases ht'
        rfl
    rw [hentered, Part.attended_needed rfl]

end Sys2Proof.Machine
end


-- ==== Sys2Proof/Proofs/CounterStates.lean ====
section
/-! The counter states (R165 to R167), what the end of an append leaves in the journal (R149, R150), and the day close (R177,
R178). -/

namespace Sys2Proof.Machine

/-! ## OPEN, PAUSE and CLOSE COUNTER -/

section
variable {p : Part}

/-- The stations that pass a test are as many as their values in the table. -/
theorem PerStation.filter_length {α : Type} (t : PerStation α) (f : α → Bool) :
    (StationNo.all.filter (fun st => f (t.get st))).length = (t.toList.filter f).length := by
  have hlist : t.toList = StationNo.all.map t.get := rfl
  rw [hlist, List.filter_map, List.length_map]
  rfl

theorem serveOpenCounter_closed (h : p.tt.counter = .paused ∨ p.tt.counter = .closed) : serveOpenCounter p =
    (if !p.time.valid then (p, .refuse .clockUnset) else if p.cc.session.isSome then (p, .refuse .calibrating)
      else (p.withCounter .trading, .done .nothing)) := by
  rcases h with h | h <;> simp only [serveOpenCounter, h]

theorem servePauseCounter_closed (h : p.tt.counter = .paused ∨ p.tt.counter = .closed) :
    servePauseCounter p = (p, .refuse .wrongState) := by
  rcases h with h | h <;> simp only [servePauseCounter, h]

theorem serveCloseCounter_open (h : p.tt.counter = .trading ∨ p.tt.counter = .paused) :
    serveCloseCounter p = ((p.withCounter .closed).abandonTickets, .done .nothing) := by
  rcases h with h | h <;> simp only [serveCloseCounter, h]

end

/-- Settles O36: each request by the counter state, the close with the tickets that it abandons. -/
theorem counterRequests : Obligations.CounterRequests := by
  intro s tag
  refine ⟨fun hs => ⟨fun h => ?openTrading, fun h => ?openClosing, fun h => ⟨fun hv => ?unset, fun hv hx => ?session,
      fun hv hx => ?opens⟩⟩,
    fun hs => ⟨fun h => ?pauses, fun h => ?pauseClosing, fun h => ?pauseClosed⟩,
    fun hs => ⟨fun h => ?closeClosed, fun h => ?closeClosing, fun h => ?closes⟩⟩
  case openTrading => exact State.serve_now hs (by simp only [serveOpenCounter, h]; rfl)
  case openClosing => exact State.serve_now hs (by simp only [serveOpenCounter, h]; rfl)
  case unset => exact State.serve_now hs (by rw [serveOpenCounter_closed h, hv]; rfl)
  case session =>
    exact State.serve_now hs (by rw [serveOpenCounter_closed h, hv, Option.isSome_iff_ne_none.2 hx]; rfl)
  case opens => exact State.serve_now hs (by rw [serveOpenCounter_closed h, hv, hx]; rfl)
  case pauses => exact State.serve_now hs (by simp only [servePauseCounter, h]; rfl)
  case pauseClosing => exact State.serve_now hs (by simp only [servePauseCounter, h]; rfl)
  case pauseClosed => exact State.serve_now hs (servePauseCounter_closed h)
  case closeClosed => exact State.serve_now hs (by simp only [serveCloseCounter, h]; rfl)
  case closeClosing => exact State.serve_now hs (by simp only [serveCloseCounter, h]; rfl)
  case closes =>
    refine ⟨_, State.serve_now hs (serveCloseCounter_open h), rfl, ?_, rfl, rfl, rfl, rfl, rfl, rfl, rfl, rfl⟩
    rw [PerStation.filter_length _ Option.isSome]
    rfl

/-! ## The end of an append -/

theorem length_dropFirstRecord {r : Record} {l : List Place} (h : firstRecord l = some r) :
    (dropFirstRecord l).length + 1 = l.length := by
  induction l with
  | nil => cases h
  | cons x xs ih =>
    cases x with
    | held o k => exact congrArg (· + 1) (ih h)
    | filled y => rfl

/-- What has been suspended stays so, whatever joins behind a place. -/
theorem suspendedBy_append (l : List Place) (x : Place) (e : Option Erase) :
    (match l with | [] => suspendedBy [x] (suspendedBy l e) | _ :: _ => suspendedBy l e) = suspendedBy (l ++ [x]) e := by
  cases l with
  | nil => rfl
  | cons y ys => cases y <;> rfl

section
variable {p : Part} {r : Record}

theorem Part.inFlight_first (h : p.inFlight = some r) : firstRecord p.tj.queue = some r := by
  unfold Part.inFlight at h
  split at h
  · exact h
  · cases h

theorem Part.reportRetry_ml (p : Part) : (∀ bad, p.tj.append = some (.retry bad) →
      p.reportRetry.ml.latches.get .storeFault = ⟨true, some (.store (.sectorBad bad))⟩)
    ∧ (p.tj.append = some .first → p.reportRetry = p) := by
  refine ⟨fun bad h => ?retry, fun h => ?first⟩
  case retry =>
    simp only [Part.reportRetry, h, Part.latchStore]
    rw [Part.latch_get, if_pos rfl]
  case first => simp only [Part.reportRetry, h]

@[simp] theorem Part.promote_ml (p : Part) : p.promote.ml = p.ml := by
  unfold Part.promote
  split
  · rfl
  · split <;> rfl

@[simp] theorem Part.promote_nv (p : Part) : p.promote.nv = p.nv := by
  unfold Part.promote
  split
  · rfl
  · split <;> rfl

/-- The journal once the record that waits, if there is one, has taken the place that is free. -/
theorem Part.promote_tj (p : Part) :
    (p.tj.waiting = none → p.promote = p)
    ∧ (∀ w, p.tj.waiting = some w → p.tj.queue.length < 8 →
        p.promote.tj = { p.tj with waiting := none }.taking (.filled w))
    ∧ (¬ p.tj.queue.length < 8 → p.promote = p) := by
  refine ⟨fun h => ?none, fun w h hlt => ?some, fun h => ?full⟩
  case none => simp only [Part.promote, h]
  case some =>
    simp only [Part.promote, h]
    rw [if_pos (by exact hlt), Part.queueRecord_tj]
  case full =>
    unfold Part.promote
    split
    · rfl
    · exact if_neg h

/-- The journal and the latches after an append: the record is stored, its place is free or taken by the record that waited. -/
theorem Part.finishAppend_appended (h : p.inFlight = some r) : p.Appended (p.finishAppend r) r := by
  obtain ⟨hretry, hfirst⟩ := (p.storeRecord r).reportRetry_ml
  have hstored : (p.storeRecord r).tj = p.tj := (p.storeRecord_frame r).2.2.2.2.2.2.2.2.1
  have hreported : ((p.storeRecord r).reportRetry).tj = p.tj := by simp
  -- the journal before the record that waits takes the place
  let q := (((p.storeRecord r).reportRetry).withAppend none).withQueue (dropFirstRecord p.tj.queue) true
  have hq : p.finishAppend r = q.promote := by simp only [Part.finishAppend, hreported]; rfl
  have hqtj : q.tj = { p.tj with
      append := none
      queue := dropFirstRecord p.tj.queue
      erase := suspendedBy (dropFirstRecord p.tj.queue) p.tj.erase } :=
    (Part.withQueue_tj _ _).trans (by
      rw [show (((p.storeRecord r).reportRetry).withAppend none).tj = { p.tj with append := none } from
        (congrArg (fun j : Journal => { j with append := none }) hreported)])
  have hlen := length_dropFirstRecord (Part.inFlight_first h)
  obtain ⟨hnone, hsome, hfull⟩ := q.promote_tj
  have htj : p.tj.waiting = none ∨ ¬ (dropFirstRecord p.tj.queue).length < 8 → (p.finishAppend r).tj = q.tj := fun hw => by
    rw [hq]
    rcases hw with hw | hw
    · rw [hnone (by rw [hqtj]; exact hw)]
    · rw [hfull (by rw [hqtj]; exact hw)]
  have htaken : ∀ w, p.tj.waiting = some w → (dropFirstRecord p.tj.queue).length < 8 → (p.finishAppend r).tj = { p.tj with
      append := none
      queue := dropFirstRecord p.tj.queue ++ [.filled w]
      waiting := none
      erase := suspendedBy (dropFirstRecord p.tj.queue ++ [.filled w]) p.tj.erase } := fun w hw hlt => by
    rw [hq, hsome w (by rw [hqtj]; exact hw) (by rw [hqtj]; exact hlt), hqtj, ← suspendedBy_append]
    rfl
  constructor
  case stored =>
    intro i hi
    rw [hq, Part.promote_nv]
    have hnv : q.nv = (p.storeRecord r).nv := ((p.storeRecord r).reportRetry_frame).1
    rw [hnv]
    simp only [Part.storeRecord, hi]
    rfl
  case place =>
    intro hw
    rw [htj (.inl hw), hqtj]
    exact ⟨rfl, hw⟩
  case waited =>
    intro w hw h8
    rw [htaken w hw (by omega)]
    exact ⟨rfl, rfl⟩
  case erase =>
    cases hw : p.tj.waiting with
    | none => rw [htj (.inl hw), hqtj]
    | some w =>
      by_cases hlt : (dropFirstRecord p.tj.queue).length < 8
      · rw [htaken w hw hlt]
      · rw [htj (.inr hlt), hqtj]
  case ended =>
    cases hw : p.tj.waiting with
    | none => rw [htj (.inl hw), hqtj]
    | some w =>
      by_cases hlt : (dropFirstRecord p.tj.queue).length < 8
      · rw [htaken w hw hlt]
      · rw [htj (.inr hlt), hqtj]
  case retried =>
    intro bad hbad
    rw [hq, Part.promote_ml]
    exact hretry bad (by rw [hstored]; exact hbad)
  case atOnce =>
    intro hf
    rw [hq, Part.promote_ml]
    have hml : q.ml = ((p.storeRecord r).reportRetry).ml := rfl
    rw [hml, hfirst (by rw [hstored]; exact hf)]
    exact congrArg (fun m : Links => m.latches.get .storeFault) (p.storeRecord_frame r).2.2.2.2.2.2.2.2.2.2.2.1

/-- What the block of the record does outside the journal leaves what the append did there. -/
theorem Part.Appended.kept {a q : Part} (h : p.Appended a r) (hnv : q.nv = a.nv) (htj : q.tj = a.tj)
    (hlatch : q.ml.latches.get .storeFault = a.ml.latches.get .storeFault) : p.Appended q r where
  stored i hi := hnv.trans (h.stored i hi)
  place hw := htj ▸ h.place hw
  waited w hw h8 := htj ▸ h.waited w hw h8
  erase := by rw [htj]; exact h.erase
  ended := by rw [htj]; exact h.ended
  retried bad hbad := hlatch.trans (h.retried bad hbad)
  atOnce hf := hlatch.trans (h.atOnce hf)

/-- The judgement of R156 latches JOURNAL_LOW or does nothing. -/
theorem Part.judgeErase_frame (p : Part) : p.judgeErase.nv = p.nv ∧ p.judgeErase.time = p.time ∧ p.judgeErase.wc = p.wc
    ∧ p.judgeErase.art = p.art ∧ p.judgeErase.oc = p.oc ∧ p.judgeErase.om = p.om ∧ p.judgeErase.tc = p.tc
    ∧ p.judgeErase.lu = p.lu ∧ p.judgeErase.tj = p.tj ∧ p.judgeErase.tt = p.tt ∧ p.judgeErase.cc = p.cc := by
  unfold Part.judgeErase
  split <;> exact ⟨rfl, rfl, rfl, rfl, rfl, rfl, rfl, rfl, rfl, rfl, rfl⟩

theorem Part.judgeErase_latch {c : Condition} (p : Part) (h : c ≠ .journalLow) :
    p.judgeErase.ml.latches.get c = p.ml.latches.get c := by
  unfold Part.judgeErase
  split
  · rw [Part.latch_get, if_neg h]
  · rfl

end

/-! ## Day close -/

section
variable {p : Part}

theorem Part.dayCloseChecks_open (h : p.tt.counter = .trading ∨ p.tt.counter = .paused) :
    p.dayCloseChecks = .error .wrongState := by
  rcases h with h | h <;> simp [Part.dayCloseChecks, h]

theorem Part.dayCloseChecks_orders (h : p.tt.counter = .closed) (hp : ∃ slot ∈ p.om.pool, slot ≠ none) :
    p.dayCloseChecks = .error .ordersOpen := by
  have htest : p.om.pool.all Option.isNone = false := by
    obtain ⟨slot, hmem, hne⟩ := hp
    exact List.all_eq_false.2 ⟨slot, hmem, by simpa [Option.isSome_iff_ne_none] using hne⟩
  simp [Part.dayCloseChecks, h, htest]

theorem Part.dayCloseChecks_journal (h : p.tt.counter = .closed) (hp : ∀ slot ∈ p.om.pool, slot = none) :
    p.dayCloseChecks = p.journalCheck 64 0 := by
  have htest : p.om.pool.all Option.isNone = true := List.all_eq_true.2 fun x hx => by rw [hp x hx]; rfl
  simp only [Part.dayCloseChecks, h, htest, check_true, ok_bind, decide_true, ne_eq, reduceCtorEq, not_false_eq_true]
  rfl

end

theorem serveDayClose_refused {p : Part} {e : Reason} (h : p.dayCloseChecks = .error e) :
    serveDayClose p = (p, .refuse e) := by
  simp only [serveDayClose, h]

/-- Settles O37: the checks in their order, and the record written by `Part.finishAppend_appended`. -/
theorem dayCloseEndsTheDay : Obligations.DayCloseEndsTheDay := by
  intro s tag d
  refine ⟨fun hs => ⟨fun h => ?closing, fun h => ?trading, fun h hp => ?orders, fun e h hp he => ?journal,
    fun h hp hok => ?accepted⟩, fun hr hf => ?written⟩
  case closing => exact State.serve_now hs (serveDayClose_refused (by simp [Part.dayCloseChecks, h]))
  case trading => exact State.serve_now hs (serveDayClose_refused (Part.dayCloseChecks_open h))
  case orders => exact State.serve_now hs (serveDayClose_refused (Part.dayCloseChecks_orders h hp))
  case journal => exact State.serve_now hs (serveDayClose_refused ((Part.dayCloseChecks_journal h hp).trans he))
  case accepted =>
    have hserve : serveDayClose s.part.taken
        = ((s.part.taken.queueRecord (.dayClose s.part.taken.dayCloseFields)).withCounter .closedClosing, .now .accepted) := by
      simp only [serveDayClose, (Part.dayCloseChecks_journal h hp).trans hok]
    refine ⟨_, State.serve_now hs hserve, ?_, rfl, rfl, rfl, rfl, rfl, rfl, rfl, rfl, rfl⟩
    refine (Part.queueRecord_tj _ _).trans ?_
    rw [Part.dayCloseFields, digestOf_eq]
    rfl
  case written =>
    have hrun : exec .dayCloseWritten s = .next { s with part := s.part.appendWritten reportDayClose } :=
      State.act_runs hr _
    rw [Part.appendWritten_of hf rfl] at hrun
    have ha := Part.finishAppend_appended hf
    have hframe := s.part.finishAppend_frame (.dayClose d)
    generalize s.part.finishAppend (.dayClose d) = a at ha hframe hrun
    obtain ⟨-, htime, hwc, hart, hoc, hom, htc, hlu, htt, hcc, -⟩ := hframe
    obtain ⟨jnv, jtime, jwc, jart, joc, jom, jtc, jlu, jtj, jtt, jcc⟩ := (a.endDayClose d).judgeErase_frame
    refine ⟨_, hrun, ha.kept jnv jtj ?store, ?figures, ?tickets, ?cancelled, ?latched, jom.trans hom, joc.trans hoc,
      jwc.trans hwc, jart.trans hart, jcc.trans hcc, jtime.trans htime⟩
    case store => rw [Part.judgeErase_latch _ (by decide), Part.endDayClose, Part.latch_get, if_neg (by decide)]; rfl
    case figures => rw [jtt, ← htt]; rfl
    case tickets => rw [jtc, ← htc]; rfl
    case cancelled => rw [jlu, ← hlu]; rfl
    case latched => rw [Part.judgeErase_latch _ (by decide), Part.endDayClose, Part.latch_get, if_pos rfl]

end Sys2Proof.Machine
end


-- ==== Sys2Proof/Proofs/Calibration.lean ====
section
/-! Calibration (chapter 10): the session and its ends, the steps, and the commit with its two writes. -/

namespace Sys2Proof.Machine

theorem StationNo.ofNumber_out {n : Nat} (h : n = 0 ∨ 8 < n) : StationNo.ofNumber n = none := by
  match n with
  | 0 => rfl
  | 1 | 2 | 3 | 4 | 5 | 6 | 7 | 8 => omega
  | n + 9 => rfl

/-! ## Session (R182, R183) -/

section
variable {p : Part} {n : Nat} {st : StationNo}

/-- CAL BEGIN at a station of the eight: the checks behind that of the number. -/
theorem Part.calBeginChecks_at (h : StationNo.ofNumber n = some st) : p.calBeginChecks n = (do
    check p.inputs.calibrationSwitch .calLocked
    check p.cc.session.isNone .busy
    check (p.tt.counter ≠ .trading) .wrongState
    check ((p.config st).enabled && p.link st = .present) .stationStale
    check (p.stationIdle st) .busy
    check (p.nv.auditCounter < Config.maxAudit) .auditFull
    return st) := by
  simp only [Part.calBeginChecks, h, need_some, ok_bind]

theorem Part.stationIdle_iff :
    p.stationIdle st = true ↔ (p.stack st).operator = none ∧ p.om.active.get st = none := by
  simp [Part.stationIdle]

/-- CAL BEGIN once a session may open: the station is there and idle. -/
theorem Part.calBeginChecks_idle (h : StationNo.ofNumber n = some st) (hswitch : p.inputs.calibrationSwitch = true)
    (hsession : p.cc.session = none) (hcounter : p.tt.counter ≠ .trading) (henabled : (p.config st).enabled = true)
    (hlink : p.link st = .present) : p.calBeginChecks n = (do
      check (p.stationIdle st) .busy
      check (p.nv.auditCounter < Config.maxAudit) .auditFull
      return st) := by
  simp [Part.calBeginChecks_at h, hswitch, hsession, hcounter, henabled, hlink]

theorem serveCalBegin_refused {e : Reason} (h : p.calBeginChecks n = .error e) : serveCalBegin n p = (p, .refuse e) := by
  simp only [serveCalBegin, h]

/-- Where no write of a commit is in flight, what ends a session ends it. -/
theorem Part.committing_eq_false (h : ∀ y, p.ml.serving = some y → (∀ e, y.write ≠ .calAudit e) ∧ ∀ e, y.write ≠ .calRecord e) :
    p.committing = false := by
  cases hs : p.ml.serving with
  | none => simp only [Part.committing, Part.awaitedWrite, hs, Option.map_none]
  | some y =>
    obtain ⟨haudit, hrecord⟩ := h y hs
    simp only [Part.committing, Part.awaitedWrite, hs, Option.map_some]
    cases hw : y.write with
    | calAudit e => exact absurd hw (haudit e)
    | calRecord e => exact absurd hw (hrecord e)
    | _ => rfl

theorem Part.committing_of {e : AuditEntry}
    (h : ∃ y, p.ml.serving = some y ∧ (y.write = .calAudit e ∨ y.write = .calRecord e)) : p.committing = true := by
  obtain ⟨y, hy, hw⟩ := h
  rcases hw with hw | hw <;> simp only [Part.committing, Part.awaitedWrite, hy, Option.map_some, hw]

theorem Part.endSession_ended {x : Session} (h : p.cc.session = some x) (cause : EndCause) :
    p.endSession cause = p.sessionEnded x cause := by
  simp only [Part.endSession, h]
  rfl

theorem Part.gapExpiry_ends {x : Session} (h : p.cc.session = some x) (hc : p.committing = false) : p.gapExpiry
    = Part.sessionEnded { p with time := p.time.advance (x.gapMark + 120000 - p.time.elapsed) } x .gap := by
  simp only [Part.gapExpiry, h, hc]
  exact Part.endSession_ended (p := p.reach (x.gapMark + Config.gapMs)) h _

theorem Part.gapExpiry_committing (hc : p.committing = true) : p.gapExpiry = p := by
  unfold Part.gapExpiry
  split
  · rfl
  · rw [if_pos hc]

end

/-- The release of the calibration switch: its level at once, and the end of a session where no commit runs. -/
theorem State.exec_switchRelease {s : State} {q : Part}
    (hruns : s.part.inputs.resetAsserted = false → (s.part.setSwitch false).interruptSession .switch = q)
    (hheld : s.part.inputs.resetAsserted = true → s.part.setSwitch false = q) :
    exec .calibrationSwitchRelease s = .next { s with part := q } := by
  have hpart : Part.unlessHeld (fun a => a.interruptSession .switch) (s.part.setSwitch false) = q := by
    cases hr : s.part.inputs.resetAsserted with
    | true => exact (if_pos hr).trans (hheld hr)
    | false => exact (if_neg (by rw [Bool.not_eq_true]; exact hr)).trans (hruns hr)
  exact congrArg (fun a => Host.Outcome.next { s with part := a }) hpart

/-- Settles O38: CAL BEGIN by its chain of checks, and each end of a session. -/
theorem calibrationSessions : Obligations.CalibrationSessions := by
  intro s tag n st
  refine ⟨fun hs => ⟨fun h => ?badValue, fun h => ⟨fun hsw => ?locked, fun hsw => ⟨fun hx => ?busy, fun hx ht => ?trading,
      fun hx ht => ⟨fun hl => ?stale, fun he hl => ⟨fun hb => ?occupied, fun ho ha => ⟨fun hn => ?full, fun hn => ?opens⟩⟩⟩⟩⟩⟩,
    fun hs => ⟨fun x hx => ?aborts, fun hx => ?noSession⟩, fun x hr hx hw => ⟨?gap, ?switch⟩,
    fun x e hr hx hw => ⟨?gapCommitting, ?switchCommitting⟩, fun hx => ?switchOnly⟩
  case badValue =>
    have hnone := StationNo.ofNumber_out h
    exact State.serve_now hs (serveCalBegin_refused (by simp [Part.calBeginChecks, hnone]))
  case locked => exact State.serve_now hs (serveCalBegin_refused (by simp [Part.calBeginChecks_at h, hsw]))
  case busy =>
    have htest : s.part.taken.cc.session.isNone = false := by simpa [Option.isSome_iff_ne_none] using hx
    exact State.serve_now hs (serveCalBegin_refused (by simp [Part.calBeginChecks_at h, hsw, htest]))
  case trading => exact State.serve_now hs (serveCalBegin_refused (by simp [Part.calBeginChecks_at h, hsw, hx, ht]))
  case stale =>
    have htest : ((s.part.taken.config st).enabled && decide (s.part.taken.link st = .present)) = false := by
      rcases hl with hl | hl
      · rw [hl]; rfl
      · rw [decide_eq_false hl, Bool.and_false]
    exact State.serve_now hs (serveCalBegin_refused (by
      rw [Part.calBeginChecks_at h, htest]
      simp [hsw, hx, ht]))
  case occupied =>
    have htest : s.part.taken.stationIdle st = false := by
      rw [← Bool.not_eq_true, Part.stationIdle_iff]
      rintro ⟨hop, hac⟩
      exact hb.elim (· hop) (· hac)
    exact State.serve_now hs (serveCalBegin_refused (by
      rw [Part.calBeginChecks_idle h hsw hx ht he hl, htest, check_false]
      rfl))
  case full =>
    exact State.serve_now hs (serveCalBegin_refused (by
      rw [Part.calBeginChecks_idle h hsw hx ht he hl, Part.stationIdle_iff.2 ⟨ho, ha⟩,
        decide_eq_false (by exact Nat.not_lt.2 hn : ¬ s.part.taken.nv.auditCounter < Config.maxAudit)]
      rfl))
  case opens =>
    have hchecks : s.part.taken.calBeginChecks n = .ok st := by
      rw [Part.calBeginChecks_idle h hsw hx ht he hl, Part.stationIdle_iff.2 ⟨ho, ha⟩,
        decide_eq_true (by exact hn : s.part.taken.nv.auditCounter < Config.maxAudit)]
      rfl
    exact State.serve_now hs (by simp only [serveCalBegin, hchecks]; rfl)
  case aborts =>
    exact State.serve_now hs (by
      rw [serveCalAbort, if_pos (by rw [hx]; rfl), Part.endSession_ended hx]
      rfl)
  case noSession => exact State.serve_now hs (by rw [serveCalAbort, if_neg (by rw [hx]; decide)]; rfl)
  case gap => exact (State.act_runs hr _).trans (by rw [Part.gapExpiry_ends hx (Part.committing_eq_false hw)])
  case switch =>
    refine State.exec_switchRelease (fun _ => ?_) fun hheld => absurd (hheld.symm.trans hr) (by decide)
    rw [Part.interruptSession, if_neg (by rw [Part.committing_eq_false (by exact hw)]; decide)]
    exact Part.endSession_ended (p := s.part.setSwitch false) hx _
  case gapCommitting => exact (State.act_runs hr _).trans (by rw [Part.gapExpiry_committing (Part.committing_of hw)])
  case switchCommitting =>
    refine State.exec_switchRelease (fun _ => ?_) fun _ => rfl
    exact if_pos (Part.committing_of (p := s.part.setSwitch false) hw)
  case switchOnly =>
    refine State.exec_switchRelease (fun _ => ?_) fun _ => rfl
    unfold Part.interruptSession
    split
    · rfl
    · simp only [Part.endSession, show (s.part.setSwitch false).cc.session = none from hx]
      rfl

/-! ## Steps (R184 to R186) -/

section
variable {p : Part} {y : Session}

theorem serveStep_unopened (h : p.cc.session = none) (step : Part → Session → StepResult) :
    serveStep step p = (p, .refuse .wrongState) := by
  have htouch : p.touchGap = p := by
    rw [Part.touchGap, h]
    exact congrArg (fun x => { p with cc := { p.cc with session := x } }) h.symm
  simp only [serveStep, htouch, h]

/-- A step on the open session, whose gap has restarted. -/
theorem serveStep_refused {step : Part → Session → StepResult} {e : Reason} (h : p.cc.session = some y)
    (he : step (p.withSession (some { y with gapMark := p.time.elapsed })) { y with gapMark := p.time.elapsed } = .error e) :
    serveStep step p = (p.withSession (some { y with gapMark := p.time.elapsed }), .refuse e) := by
  have htouch : p.touchGap = p.withSession (some { y with gapMark := p.time.elapsed }) := by
    rw [Part.touchGap, h]
    rfl
  simp only [serveStep, htouch]
  simp only [Part.withSession] at he ⊢
  rw [he]

theorem serveStep_accepted {step : Part → Session → StepResult} {t : Session} {d : ReplyData} (h : p.cc.session = some y)
    (ht : step (p.withSession (some { y with gapMark := p.time.elapsed })) { y with gapMark := p.time.elapsed } = .ok (t, d)) :
    serveStep step p = (p.withSession (some t), .done d) := by
  have htouch : p.touchGap = p.withSession (some { y with gapMark := p.time.elapsed }) := by
    rw [Part.touchGap, h]
    rfl
  simp only [serveStep, htouch]
  simp only [Part.withSession] at ht ⊢
  rw [ht]

theorem Channel.rawStable_iff (c : Channel) : c.rawStable = true
    ↔ c.rawHistory.length = 8 ∧ ∀ u ∈ c.rawHistory, ∀ v ∈ c.rawHistory, u - v ≤ 64 :=
  steady_iff c.rawHistory 64

theorem Part.stableCount_moving {st : StationNo} (h : (p.wc.get st).rawStable = false) :
    p.stableCount st = .error .motion := by
  rw [Part.stableCount, h, check_false, error_bind]

theorem Part.stableCount_stable {st : StationNo} {r : Int} (h : (p.wc.get st).rawStable = true)
    (hr : (p.wc.get st).filteredRaw = some r) : p.stableCount st = .ok r := by
  rw [Part.stableCount, h, check_true, ok_bind, hr, need_some]

end

theorem intervalsOk_iff (max b e1 e2 : Nat) : intervalsOk max b e1 e2 = true ↔ e1 ∈ [1, 2, 5, 10, 20] ∧ e2 ∈ [1, 2, 5, 10, 20]
    ∧ (e1 < e2 ∨ e1 = e2 ∧ b = max) ∧ 3000 ≤ max ∧ max ≤ 30000 ∧ e2 ∣ max ∧ e1 ≤ b ∧ b ≤ max ∧ e1 ∣ b ∧ e2 ∣ b := by
  simp only [intervalsOk, within, Bool.and_eq_true, Bool.or_eq_true, decide_eq_true_iff, beq_iff_eq, List.contains_iff_mem,
    Nat.dvd_iff_mod_eq_zero, and_assoc]

theorem loadFits_iff (load max : Nat) : loadFits load max = true ↔ max ≤ 10 * load ∧ load ≤ max := by
  rw [loadFits, Bool.and_eq_true, decide_eq_true_iff, decide_eq_true_iff]

/-- The load of the new span, or else that of the old record, fits a Max (R186). -/
theorem Session.loadOk_iff (x : Session) (max : Nat) : x.loadOk max = true ↔ (match x.newSpan with
    | some sp => max ≤ 10 * sp.lcal ∧ sp.lcal ≤ max
    | none => x.old.lcal ≤ max) := by
  unfold Session.loadOk
  cases x.newSpan with
  | none => exact decide_eq_true_iff
  | some sp => exact loadFits_iff _ _

section
variable {p : Part} {x : Session} {z r : Int} {load : Nat}

theorem stepSpan_unzeroed (hz : x.newZero = none) : stepSpan load p x = .error .wrongState := by
  rw [stepSpan, hz, need_none, error_bind]

theorem stepSpan_moving (hz : x.newZero ≠ none) (h : (p.wc.get x.station).rawStable = false) :
    stepSpan load p x = .error .motion := by
  obtain ⟨z, hz⟩ := Option.ne_none_iff_exists'.1 hz
  rw [stepSpan, hz, need_some, ok_bind, Part.stableCount_moving h, error_bind]

theorem stepSpan_stable (hz : x.newZero = some z) (h : (p.wc.get x.station).rawStable = true)
    (hr : (p.wc.get x.station).filteredRaw = some r) : stepSpan load p x = (do
      check (within 1000 30000 load && loadFits load x.max) .range
      check (10000 ≤ r - z && r - z ≤ 8000000) .range
      return ({ x with newSpan := some ⟨(r - z).toNat, load⟩ }, .calSpan (r - z).toNat load)) := by
  rw [stepSpan, hz, need_some, ok_bind, Part.stableCount_stable h hr, ok_bind]

/-- The load and the counts of a new span lie within their limits (R185). -/
def Session.SpanFits (x : Session) (load : Nat) (counts : Int) : Prop :=
  1000 ≤ load ∧ load ≤ 30000 ∧ x.max ≤ 10 * load ∧ load ≤ x.max ∧ 10000 ≤ counts ∧ counts ≤ 8000000

theorem stepSpan_fits (hz : x.newZero = some z) (h : (p.wc.get x.station).rawStable = true)
    (hr : (p.wc.get x.station).filteredRaw = some r) (hfits : x.SpanFits load (r - z)) : stepSpan load p x
      = .ok ({ x with newSpan := some ⟨(r - z).toNat, load⟩ }, .calSpan (r - z).toNat load) := by
  obtain ⟨h1, h2, h3, h4, h5, h6⟩ := hfits
  rw [stepSpan_stable hz h hr, within_true.2 ⟨h1, h2⟩, (loadFits_iff _ _).2 ⟨h3, h4⟩, decide_eq_true h5, decide_eq_true h6]
  rfl

theorem stepSpan_unfit (hz : x.newZero = some z) (h : (p.wc.get x.station).rawStable = true)
    (hr : (p.wc.get x.station).filteredRaw = some r) (hfits : ¬ x.SpanFits load (r - z)) :
    stepSpan load p x = .error .range := by
  rw [stepSpan_stable hz h hr]
  by_cases hload : (1000 ≤ load ∧ load ≤ 30000) ∧ x.max ≤ 10 * load ∧ load ≤ x.max
  · obtain ⟨⟨h1, h2⟩, h3, h4⟩ := hload
    have hcount : (decide (10000 ≤ r - z) && decide (r - z ≤ 8000000)) = false := by
      rw [← Bool.not_eq_true, Bool.and_eq_true, decide_eq_true_iff, decide_eq_true_iff]
      exact fun ⟨h5, h6⟩ => hfits ⟨h1, h2, h3, h4, h5, h6⟩
    rw [hcount, within_true.2 ⟨h1, h2⟩, (loadFits_iff _ _).2 ⟨h3, h4⟩]
    rfl
  · have htest : (within 1000 30000 load && loadFits load x.max) = false := by
      rw [← Bool.not_eq_true, Bool.and_eq_true, within_true, loadFits_iff]
      exact hload
    rw [htest]
    rfl

theorem stepZero_stable (h : (p.wc.get x.station).rawStable = true) (hr : (p.wc.get x.station).filteredRaw = some r) :
    stepZero p x = .ok ({ x with newZero := some r, newSpan := none }, .calZero r x.newSpan.isSome) := by
  rw [stepZero, Part.stableCount_stable h hr, ok_bind]
  rfl

theorem stepZero_moving (h : (p.wc.get x.station).rawStable = false) : stepZero p x = .error .motion := by
  rw [stepZero, Part.stableCount_moving h, error_bind]

end

/-- Settles O39: each step on the open session with its gap restarted, by the chain of its checks. -/
theorem calibrationSteps : Obligations.CalibrationSteps := by
  intro s tag load max b e1 e2
  refine ⟨fun h => ⟨fun hs => State.serve_now hs (serveStep_unopened h _), fun hs => State.serve_now hs (serveStep_unopened h _),
    fun hs => State.serve_now hs (serveStep_unopened h _)⟩, fun y h => ?_⟩
  refine ⟨fun hs => ⟨fun r hst hr => ?zero, fun hst => ?zeroMotion⟩,
    fun hs => ⟨fun hz => ?noZero, fun hz hst => ?spanMotion, fun z r hz hst hr => ⟨fun hfits => ?span, fun hfits => ?spanRange⟩⟩,
    fun hs => ⟨fun hok => ?badValue, fun hok hl => ?range, fun hok hl => ?intervals⟩⟩
  case zero => exact State.serve_now hs (serveStep_accepted h (stepZero_stable ((Channel.rawStable_iff _).2 hst) hr))
  case zeroMotion =>
    exact State.serve_now hs (serveStep_refused h (stepZero_moving (Bool.eq_false_iff.2 (mt (Channel.rawStable_iff _).1 hst))))
  case noZero => exact State.serve_now hs (serveStep_refused h (stepSpan_unzeroed hz))
  case spanMotion =>
    exact State.serve_now hs (serveStep_refused h (stepSpan_moving hz
      (Bool.eq_false_iff.2 (mt (Channel.rawStable_iff _).1 hst))))
  case span =>
    exact State.serve_now hs (serveStep_accepted h (stepSpan_fits (by exact hz) (by exact (Channel.rawStable_iff _).2 hst)
      (by exact hr) hfits))
  case spanRange =>
    exact State.serve_now hs (serveStep_refused h (stepSpan_unfit (by exact hz) (by exact (Channel.rawStable_iff _).2 hst)
      (by exact hr) hfits))
  case badValue =>
    refine State.serve_now hs (serveStep_refused h ?_)
    rw [stepIntervals, Bool.eq_false_iff.2 (mt (intervalsOk_iff _ _ _ _).1 hok)]
    rfl
  case range =>
    refine State.serve_now hs (serveStep_refused h ?_)
    rw [stepIntervals, (intervalsOk_iff _ _ _ _).2 hok,
      Bool.eq_false_iff.2 (mt (Session.loadOk_iff { y with gapMark := s.part.taken.time.elapsed } _).1 hl)]
    rfl
  case intervals =>
    refine State.serve_now hs (serveStep_accepted h ?_)
    rw [stepIntervals, (intervalsOk_iff _ _ _ _).2 hok, (Session.loadOk_iff { y with gapMark := s.part.taken.time.elapsed } _).2 hl]
    rfl

/-! ## Commit (R187, R188) -/

section
variable {p : Part} {x : Session}

theorem serveCalCommit_unopened (h : p.cc.session = none) : serveCalCommit p = (p, .refuse .wrongState) := by
  have htouch : p.touchGap = p := by
    rw [Part.touchGap, h]
    exact congrArg (fun x => { p with cc := { p.cc with session := x } }) h.symm
  simp only [serveCalCommit, htouch, h]

/-- CAL COMMIT on the open session, whose gap has restarted. -/
theorem serveCalCommit_opened (h : p.cc.session = some x) : serveCalCommit p =
    let y : Session := { x with gapMark := p.time.elapsed }
    if x.hasSteps then ({ p with
        nv := { p.nv with auditCounter := p.nv.auditCounter + 1 }
        cc := { p.cc with session := some y } }, .later (.calAudit (y.auditEntry (p.nv.auditCounter + 1) p.stamp)))
    else (p.withSession (some y), .refuse .wrongState) := by
  have htouch : p.touchGap = p.withSession (some { x with gapMark := p.time.elapsed }) := by
    rw [Part.touchGap, h]
    rfl
  simp only [serveCalCommit, htouch]
  rfl

theorem mem_changedItems {old new : CalRecord} {i : CalItem} : i ∈ changedItems old new ↔ old.item i ≠ new.item i := by
  have hall : i ∈ CalItem.all := by cases i <;> decide
  simp [changedItems, List.mem_filter, hall]

/-- An item that is a count or a weight has changed exactly when its natural number has. -/
theorem mem_changedItems_nat {old new : CalRecord} {i : CalItem} {a c : Nat} (ha : old.item i = a) (hc : new.item i = c) :
    i ∈ changedItems old new ↔ a ≠ c := by
  rw [mem_changedItems, ha, hc, Ne, Int.natCast_inj]

/-- A failed write of a commit: the session ends with FAILED and STORE_FAULT, and the request is answered. -/
theorem Part.failCommit_eq {tag : Nat} {req : HostRequest} {w : HeldWrite} (h : p.ml.serving = some ⟨tag, req, w⟩)
    (hx : p.cc.session = some x) (d : StoreDetail) : p.failCommit d
      = Part.reply { (p.sessionEnded x .failed).latch .storeFault (some (.store d)) with
          ml := { ((p.sessionEnded x .failed).latch .storeFault (some (.store d))).ml with serving := none } } tag
        (.request req) (.refused .storeFault none) := by
  rw [Part.failCommit, Part.endSession_ended hx]
  exact Part.replyHeld_some (p := (p.sessionEnded x .failed).latch .storeFault (some (.store d))) h _

end

/-- The part in which a commit has ended, before its reply is sent. -/
def Part.committed (p : Part) (e : AuditEntry) : Part :=
  (((p.writeRecord e.station e.new).onChannel e.station (fun c => c.calRestart e.new)).closeSession .committed
    e.station).latch .calibrationChanged (some (.calibration e.station e.number))

theorem Part.commitDone_eq {p : Part} {tag : Nat} {req : HostRequest} {e : AuditEntry}
    (h : p.ml.serving = some ⟨tag, req, .calRecord e⟩) : p.commitDone e = Part.reply { p.committed e with
      ml := { (p.committed e).ml with serving := none } } tag (.request req) (.done (.calCommitted e.number e.new)) :=
  Part.replyHeld_some (p := p.committed e) h _

/-- Settles O40: the entry that a commit writes, and the two ends of each of its writes. -/
theorem calibrationCommit : Obligations.CalibrationCommit := by
  intro s tag req x e
  refine ⟨fun hs hx => ?unopened, fun hs hx => ⟨fun hz hsp hi => ?noSteps, fun hsteps => ?commits⟩,
    fun hr hw => ⟨?audited, fun hx => ?auditFails⟩, fun hr hw => ⟨?recorded, fun hx => ?recordFails⟩⟩
  case unopened => exact State.serve_now hs (serveCalCommit_unopened hx)
  case noSteps =>
    have hnone : x.hasSteps = false := by rw [Session.hasSteps, hz, hsp, hi]; rfl
    exact ⟨s.part.taken.withSession (some { x with gapMark := s.part.taken.time.elapsed }),
      State.serve_now hs ((serveCalCommit_opened hx).trans (by rw [hnone]; rfl)), rfl⟩
  case commits =>
    have hsome : x.hasSteps = true := by
      simp only [Session.hasSteps, Bool.or_eq_true, Option.isSome_iff_ne_none, or_assoc]
      exact hsteps
    refine ⟨_, State.serve_later hs ((serveCalCommit_opened hx).trans (by rw [hsome]; rfl)), rfl, rfl, rfl, rfl, rfl,
      mem_changedItems, mem_changedItems_nat rfl rfl, mem_changedItems_nat rfl rfl, mem_changedItems_nat rfl rfl,
      mem_changedItems_nat rfl rfl, mem_changedItems_nat rfl rfl, mem_changedItems_nat rfl rfl, List.filter_sublist,
      Session.auditEntry_check _ _ _⟩
  case audited => exact (State.act_runs hr _).trans (by simp only [Part.endCalAudit, hw]; rfl)
  case auditFails =>
    refine (State.act_runs hr _).trans ?_
    have hend : s.part.endCalAudit false = (s.part.addAudit .damaged).failCommit .auditArea := by
      simp only [Part.endCalAudit, hw]
      rfl
    rw [hend, Part.failCommit_eq (p := s.part.addAudit .damaged) hw hx]
    rfl
  case recorded =>
    have hend : s.part.endCalRecord true = s.part.commitDone e := by
      simp only [Part.endCalRecord, Part.awaitedWrite_some hw]
      rfl
    refine ⟨{ s.part.committed e with ml := { (s.part.committed e).ml with serving := none } },
      (State.act_runs hr _).trans (by rw [hend, Part.commitDone_eq hw]; rfl), rfl, rfl, rfl, ?_, rfl, rfl, rfl, rfl, rfl, rfl,
      rfl, rfl⟩
    have hlatched : (s.part.committed e).ml.latches.get .calibrationChanged
        = ⟨true, some (.calibration e.station e.number)⟩ := (Part.latch_get _ _ _ _).trans (if_pos rfl)
    exact hlatched
  case recordFails =>
    refine (State.act_runs hr _).trans ?_
    have hend : s.part.endCalRecord false = s.part.failCommit .settingsArea := by
      simp only [Part.endCalRecord, Part.awaitedWrite_some hw]
      rfl
    rw [hend, Part.failCommit_eq hw hx]
    rfl

end Sys2Proof.Machine
end


-- ==== Sys2Proof/Proofs/Settings.lean ====
section
/-! SET STATION (R3, R10, R25, R52) with the end of its write, READ STATION (R29, R88), and READ ARTICLE (R36). -/

namespace Sys2Proof.Machine

/-! ## SET STATION -/

theorem configOf_bad {f : StationFields}
    (h : PrinterNo.ofNumber f.printer = none ∨ 7 < f.depthCode ∨ f.labelMode = none) : configOf f = none := by
  unfold configOf
  split
  · next pr m hpr hm =>
    rcases h with h | h | h
    · rw [hpr] at h; cases h
    · exact if_neg (Nat.not_le.2 h)
    · rw [hm] at h; cases h
  · rfl

theorem configOf_some {f : StationFields} {pr : PrinterNo} {m : LabelMode} (hpr : PrinterNo.ofNumber f.printer = some pr)
    (hd : f.depthCode ≤ 7) (hm : f.labelMode = some m) :
    configOf f = some ⟨f.enabled, pr, max 2 (min 5 f.depthCode), f.tareAutoClear, m⟩ := by
  simp only [configOf, hpr, hm, if_pos hd]
  rfl

theorem prefixesOk_iff (item total : Nat) :
    prefixesOk item total = true ↔ 20 ≤ item ∧ item ≤ 29 ∧ 20 ≤ total ∧ total ≤ 29 ∧ item ≠ total := by
  simp only [prefixesOk, within, Bool.and_eq_true, decide_eq_true_iff, bne_iff_ne, and_assoc]

section
variable {p : Part} {number : Nat} {f : StationFields} {st : StationNo} {c : StationConfig}

/-- A station may be configured unless it would be disabled with an operator or a session. -/
theorem Part.mayConfigure_iff : p.mayConfigure st c = true ↔ (p.config st).enabled = false ∨ c.enabled = true
    ∨ ¬ ((p.stack st).operator ≠ none ∨ p.cc.session.map Session.station = some st) := by
  have htest : (!((p.config st).enabled && !c.enabled)) = true ↔ (p.config st).enabled = false ∨ c.enabled = true := by
    cases (p.config st).enabled <;> simp
  rw [Part.mayConfigure, Bool.or_eq_true, htest, or_assoc, Bool.and_eq_true, Option.isNone_iff_eq_none, decide_eq_true_iff,
    not_or, not_not]

theorem Part.setStationChecks_bad
    (h : StationNo.ofNumber number = none ∨ PrinterNo.ofNumber f.printer = none ∨ 7 < f.depthCode ∨ f.labelMode = none) :
    p.setStationChecks number f = .error .badValue := by
  cases hst : StationNo.ofNumber number with
  | none => rw [Part.setStationChecks, hst, need_none, error_bind]
  | some st =>
    have hbad : configOf f = none := configOf_bad (h.resolve_left (by rw [hst]; exact Option.some_ne_none _))
    rw [Part.setStationChecks, hst, need_some, ok_bind, hbad, need_none, error_bind]

theorem Part.setStationChecks_at (hst : StationNo.ofNumber number = some st) (hc : configOf f = some c) :
    p.setStationChecks number f = if p.mayConfigure st c then .ok (st, c) else .error .busy := by
  rw [Part.setStationChecks, hst, hc, need_some, need_some, ok_bind, ok_bind]
  split
  · next h => rw [h, check_true]; rfl
  · next h => rw [Bool.eq_false_iff.2 h, check_false]; rfl

/-! ## The end of the write -/

/-- What a completed SET STATION leaves of everything but the station's channel, link and confirmed generation. -/
theorem Part.configureStation_frame (p : Part) (st : StationNo) (c : StationConfig) :
    let q := p.configureStation st c
    q.nv = { p.nv with settings := { p.nv.settings with configs := p.nv.settings.configs.set st c } }
    ∧ q.wc = p.wc.set st ((p.wc.get st).configure c) ∧ q.ml.serving = p.ml.serving
    ∧ (∀ x, x ≠ st → q.ml.stations.get x = p.ml.stations.get x ∧ q.art.confirmed.get x = p.art.confirmed.get x)
    ∧ q.om = p.om ∧ q.oc = p.oc ∧ q.tc = p.tc ∧ q.lu = p.lu ∧ q.tj = p.tj ∧ q.tt = p.tt ∧ q.cc = p.cc ∧ q.time = p.time := by
  unfold Part.configureStation
  dsimp only
  split
  · exact ⟨rfl, rfl, rfl, fun x hx => ⟨PerStation.get_set_other _ _ hx, PerStation.get_set_other _ _ hx⟩, rfl, rfl, rfl, rfl, rfl,
      rfl, rfl, rfl⟩
  · exact ⟨rfl, rfl, rfl, fun x hx => ⟨rfl, rfl⟩, rfl, rfl, rfl, rfl, rfl, rfl, rfl, rfl⟩

theorem Part.configureStation_disabled (h : (p.config st).enabled = true) (hc : c.enabled = false) :
    let q := p.configureStation st c
    (q.ml.stations.get st).link = .absent ∧ (q.ml.stations.get st).keptTag = none ∧ q.art.confirmed.get st = none := by
  have htest : ((p.config st).enabled && !c.enabled) = true := by rw [h, hc]; rfl
  simp only [Part.configureStation, if_pos htest]
  refine ⟨?_, ?_, PerStation.get_set_same _ _ _⟩
  · exact congrArg StationLink.link (PerStation.get_set_same _ _ _)
  · exact congrArg StationLink.keptTag (PerStation.get_set_same _ _ _)

theorem Part.configureStation_enabled (h : (p.config st).enabled = false ∨ c.enabled = true) :
    (p.configureStation st c).ml = p.ml ∧ (p.configureStation st c).art = p.art := by
  have htest : ((p.config st).enabled && !c.enabled) = false := by
    rcases h with h | h <;> rw [h] <;> simp
  simp only [Part.configureStation, htest]
  exact ⟨rfl, rfl⟩

end

section
variable {x : Channel} {c : StationConfig}

theorem Channel.configure_disabled (h : x.config.enabled = true) (hc : c.enabled = false) :
    x.configure c = Channel.initial x.cal c := by
  have htest : (x.config.enabled && !c.enabled) = true := by rw [h, hc]; rfl
  simp only [Channel.configure, if_pos htest]
  split <;> rfl

theorem Channel.configure_enabled (h : x.config.enabled = false ∨ c.enabled = true) : x.configure c
    = if x.config.depthCode = c.depthCode then { x with config := c } else { x.filterRestart with config := c } := by
  have htest : (x.config.enabled && !c.enabled) = false := by
    rcases h with h | h <;> rw [h] <;> simp
  simp only [Channel.configure, htest]
  rfl

end

/-- Settles O9: the checks and the two ends of each of the two writes. -/
theorem setStationWritesItsPlace : Obligations.SetStationWritesItsPlace := by
  refine ⟨fun s tag number f item total => ⟨fun hs => ⟨fun h => ?bad, fun st pr m hst hpr hd hm => ⟨fun ⟨he, hf, ho⟩ => ?busy,
      fun h => ?writes⟩⟩, fun hs => ⟨fun h => ?prefixes, fun h => ?badPrefixes⟩⟩,
    fun s tag req hr => ⟨fun st c hw => ?written, fun item total hw => ?prefixesWritten, fun w hw hkind => ?fails⟩⟩
  case bad => exact State.serve_now hs (by simp only [serveSetStation, Part.setStationChecks_bad h]; rfl)
  case busy =>
    have htest : s.part.taken.mayConfigure st ⟨f.enabled, pr, max 2 (min 5 f.depthCode), f.tareAutoClear, m⟩ = false := by
      rw [← Bool.not_eq_true, Part.mayConfigure_iff]
      rintro (h | h | h)
      · exact absurd (he.symm.trans h) (by decide)
      · exact absurd (hf.symm.trans h) (by decide)
      · exact h ho
    exact State.serve_now hs (by
      simp only [serveSetStation, Part.setStationChecks_at hst (configOf_some hpr hd hm), htest]
      rfl)
  case writes =>
    have htest := (Part.mayConfigure_iff (p := s.part.taken)
      (c := ⟨f.enabled, pr, max 2 (min 5 f.depthCode), f.tareAutoClear, m⟩)).2 h
    exact State.serve_later hs (by
      simp only [serveSetStation, Part.setStationChecks_at hst (configOf_some hpr hd hm), htest]
      rfl)
  case prefixes => exact State.serve_later hs (by simp only [serveSetStation, (prefixesOk_iff _ _).2 h]; rfl)
  case badPrefixes =>
    exact State.serve_now hs (by simp only [serveSetStation, Bool.eq_false_iff.2 (mt (prefixesOk_iff _ _).1 h)]; rfl)
  case written =>
    have hend : s.part.endSetStation true = (s.part.configureStation st c).replyHeld (.done (.stationSettings st c)) := by
      simp only [Part.endSetStation, Part.awaitedWrite_some hw]
      rfl
    obtain ⟨hnv, hwc, hserving, hother, hrest⟩ := s.part.configureStation_frame st c
    have hdisabled := Part.configureStation_disabled (p := s.part) (st := st) (c := c)
    have henabled := Part.configureStation_enabled (p := s.part) (st := st) (c := c)
    have hreply := Part.replyHeld_some (p := s.part.configureStation st c) (hserving.trans hw) (.done (.stationSettings st c))
    have hchannel : (s.part.configureStation st c).wc.get st = (s.part.wc.get st).configure c := by
      rw [hwc]
      exact PerStation.get_set_same _ _ _
    refine ⟨_, (State.act_runs hr _).trans (by rw [hend, hreply]), hnv, rfl, rfl, fun x hx => ⟨?_, hother x hx⟩,
      fun ⟨he, hc⟩ => ⟨?_, hdisabled he hc⟩, fun he => ⟨?_, (henabled he).2, fun hd => ?_, fun hd => ?_⟩, hrest⟩
    · show (s.part.configureStation st c).wc.get x = _
      rw [hwc]
      exact PerStation.get_set_other _ _ hx
    · exact hchannel.trans (Channel.configure_disabled he hc)
    · have hlinks := congrArg (fun m : Links => m.stations.get st) (henabled he).1
      exact hlinks
    · exact hchannel.trans ((Channel.configure_enabled he).trans (if_pos hd))
    · exact hchannel.trans ((Channel.configure_enabled he).trans (if_neg hd))
  case prefixesWritten =>
    refine (State.act_runs hr _).trans ?_
    simp only [Part.endSetStation, Part.awaitedWrite_some hw, if_true]
    rw [Part.replyHeld_some (by exact hw)]
    rfl
  case fails =>
    have hend : s.part.endSetStation false = s.part.failSettings := by
      rcases hkind with ⟨st, c, rfl⟩ | ⟨item, total, rfl⟩ <;> simp only [Part.endSetStation, Part.awaitedWrite_some hw] <;> rfl
    exact (State.act_runs hr _).trans (by rw [hend, Part.failSettings_eq hw]; rfl)

/-! ## READ STATION and READ ARTICLE -/

section
variable {α : Type} {key : α → Nat} {l : List α} {a : α} {n : Nat}

theorem lookup_of_mem (hl : (l.map key).Pairwise (· < ·)) (ha : a ∈ l) : lookup key (key a) l = some a := by
  obtain ⟨b, hb⟩ := Option.isSome_iff_exists.1 ((lookup_isSome_iff key (key a) l).2 ⟨a, ha, rfl⟩)
  rw [hb, (List.inj_on_of_nodup_map (hl.imp fun hlt => Nat.ne_of_lt hlt)) (lookup_mem hb) ha (key_of_lookup hb)]

/-- In ascending order the first key above a number is the lowest one above it. -/
theorem find?_least (hl : (l.map key).Pairwise (· < ·)) (ha : a ∈ l) (hn : n < key a)
    (hmin : ∀ b ∈ l, n < key b → key a ≤ key b) : l.find? (fun x => n < key x) = some a := by
  induction l with
  | nil => cases ha
  | cons x xs ih =>
    obtain ⟨hx, hxs⟩ := List.pairwise_cons.1 hl
    by_cases hnx : n < key x
    · rw [List.find?_cons_of_pos (by exact decide_eq_true hnx)]
      rcases List.mem_cons.1 ha with rfl | ha
      · rfl
      · have hlt := hx _ (List.mem_map_of_mem ha)
        have hle := hmin x List.mem_cons_self hnx
        omega
    · rw [List.find?_cons_of_neg (by simpa using hnx)]
      rcases List.mem_cons.1 ha with rfl | ha
      · exact absurd hn hnx
      · exact ih hxs ha fun b hb => hmin b (List.mem_cons_of_mem _ hb)

end

section
variable {x : Channel} {link : Link} {net : Int} {d : Nat}

theorem Channel.weighReport_division (x : Channel) (link : Link) : (x.weighReport link).division
    = (x.weighReport link).net.map (fun n : Int => if n ≤ 10 * (x.cal.b : Int) then x.cal.e1 else x.cal.e2) :=
  (Option.map_map x.divisionOf x.netOf x.gross).symm

theorem Channel.weighReport_sale (hn : (x.weighReport link).net = some net) (hd : (x.weighReport link).division = some d) :
    (x.weighReport link).saleWeight = some (divRound net (10 * d) * d) := by
  obtain ⟨g, hg, rfl⟩ := Option.map_eq_some_iff.1 hn
  obtain ⟨g', hg', rfl⟩ := Option.map_eq_some_iff.1 hd
  cases hg.symm.trans hg'
  exact Option.map_eq_some_iff.2 ⟨g, hg, rfl⟩

theorem Channel.weighReport_noSale (hn : (x.weighReport link).net = none) : (x.weighReport link).saleWeight = none :=
  Option.map_eq_none_iff.2 (Option.map_eq_none_iff.1 hn)

end

section
variable {p : Part} {st : StationNo} {c x d : Nat}

theorem Part.overrideLeft_some (h : p.oc.stack.get st = .overridden c x d) :
    p.overrideLeft st = some ((d - p.time.elapsed) / 1000) := by
  simp only [Part.overrideLeft, Part.stack, h]
  rfl

theorem Part.overrideLeft_none (h : ∀ c x d, p.oc.stack.get st ≠ .overridden c x d) : p.overrideLeft st = none := by
  unfold Part.overrideLeft
  split
  · next c x d hs => exact absurd hs (h c x d)
  · rfl

end

section
variable {p : Part} {n : Nat} {a : Article}

theorem readArticle_exact (h1 : 1 ≤ n) (h2 : n ≤ 99999) (h : p.article n = some a) :
    readArticle n (some .exact) p = .done (.article a p.art.generation p.art.table.length) := by
  simp only [readArticle, within_true.2 ⟨h1, h2⟩, if_true, h]

theorem readArticle_missing (h1 : 1 ≤ n) (h2 : n ≤ 99999) (h : p.article n = none) :
    readArticle n (some .exact) p = .refuse .noSuch := by
  simp only [readArticle, within_true.2 ⟨h1, h2⟩, if_true, h]

theorem readArticle_following (h2 : n ≤ 99999) (h : p.articleAfter n = some a) :
    readArticle n (some .following) p = .done (.article a p.art.generation p.art.table.length) := by
  simp only [readArticle, if_pos h2, h]

theorem readArticle_last (h2 : n ≤ 99999) (h : p.articleAfter n = none) :
    readArticle n (some .following) p = .refuse .noSuch := by
  simp only [readArticle, if_pos h2, h]

end

/-- Settles O10: READ STATION field by field, READ ARTICLE by the place of the record in the ascending table. -/
theorem stationAndArticleReplies : Obligations.StationAndArticleReplies := by
  refine ⟨fun s tag number hs => ⟨fun h => ?prefixes, fun h => ?out, fun st hst => ?report⟩, fun s tag n hl =>
    ⟨fun hs => ⟨fun a ha hn h1 h2 => ?exact, fun hnone h1 h2 => ?absent, fun h => ?exactOut⟩,
      fun hs => ⟨fun a ha hn hmin h2 => ?next, fun hnone h2 => ?last, fun h => ?nextOut⟩, fun hs => ?direction⟩⟩
  case prefixes => exact State.serve_reading hs (by rw [readStation, if_pos h]; rfl)
  case out =>
    exact State.serve_reading hs (by
      rw [readStation, if_neg (by omega)]
      simp only [StationNo.ofNumber_out (.inr h)]
      rfl)
  case report =>
    have hnumber : number ≠ 0 := by
      rintro rfl
      cases hst
    refine ⟨s.part.taken.stationReport st, State.serve_reading hs (by
      rw [readStation, if_neg hnumber]
      simp only [hst]
      rfl), rfl, rfl, rfl, rfl, ?net, ?division, ?sale, ?noNet, rfl, rfl, rfl, rfl, rfl, rfl, rfl, ?entry1, ?entry2, ?left,
      ?noLeft, rfl, rfl⟩
    case net => rfl
    case division => exact Channel.weighReport_division _ _
    case sale => exact fun net d => Channel.weighReport_sale
    case noNet => exact Channel.weighReport_noSale
    case entry1 =>
      show (s.part.oc.stack.get st).operator.map s.part.taken.operatorReport = _
      cases s.part.oc.stack.get st <;> rfl
    case entry2 =>
      show (s.part.oc.stack.get st).second.map s.part.taken.operatorReport = _
      cases s.part.oc.stack.get st <;> rfl
    case left => exact fun c x d h => Part.overrideLeft_some (p := s.part.taken) h
    case noLeft => exact fun h => Part.overrideLeft_none (p := s.part.taken) h
  case exact => exact State.serve_reading hs (readArticle_exact h1 h2 (by rw [← hn]; exact lookup_of_mem hl ha))
  case absent => exact State.serve_reading hs (readArticle_missing h1 h2 ((lookup_eq_none_iff _ _ _).2 hnone))
  case exactOut =>
    have htest : within 1 99999 n = false := within_false.2 (by omega)
    exact State.serve_reading hs (by simp only [readArticle, htest]; rfl)
  case next => exact State.serve_reading hs (readArticle_following h2 (find?_least hl ha hn hmin))
  case last =>
    exact State.serve_reading hs (readArticle_last h2 (List.find?_eq_none.2 fun b hb => by simpa using hnone b hb))
  case nextOut => exact State.serve_reading hs (by simp only [readArticle, if_neg (Nat.not_le.2 h)]; rfl)
  case direction => exact State.serve_reading hs rfl

end Sys2Proof.Machine
end


-- ==== Sys2Proof/Proofs/Reads.lean ====
section
/-! The requests that only read: what each is answered with in every part and position (R112, R126, R142, R157, R163, R176,
R189). -/

namespace Sys2Proof.Machine

/-! ## Records put into ascending order -/

section
variable {α : Type} {key : α → Nat}

theorem insertByKey_perm {x : α} {l : List α} (h : key x ∉ l.map key) : (insertByKey key x l).Perm (x :: l) := by
  induction l with
  | nil => exact .refl _
  | cons z zs ih =>
    rw [List.map_cons, List.mem_cons, not_or] at h
    obtain ⟨hz, hzs⟩ := h
    rw [insertByKey]
    split
    · exact .refl _
    · exact ((ih hzs).cons z).trans (.swap x z zs)

theorem ascending_foldl_insertByKey (l acc : List α) (h : (acc.map key).Pairwise (· < ·)) :
    ((l.foldl (fun a x => insertByKey key x a) acc).map key).Pairwise (· < ·) := by
  induction l generalizing acc with
  | nil => exact h
  | cons x xs ih => exact ih _ (ascending_insertByKey key x acc h)

/-- Records of different keys all stand in the ascending list. -/
theorem foldl_insertByKey_perm (l acc : List α) (h : ((acc ++ l).map key).Nodup) :
    (l.foldl (fun a x => insertByKey key x a) acc).Perm (acc ++ l) := by
  induction l generalizing acc with
  | nil => rw [List.append_nil]; exact .refl _
  | cons x xs ih =>
    have hmiddle : (acc ++ x :: xs).Perm (x :: (acc ++ xs)) := List.perm_middle
    have hnodup := (hmiddle.map key).nodup_iff.1 h
    have hacc : key x ∉ acc.map key := fun hx =>
      (List.nodup_cons.1 hnodup).1 (by rw [List.map_append]; exact List.mem_append_left _ hx)
    have hperm : (insertByKey key x acc ++ xs).Perm (x :: (acc ++ xs)) := (insertByKey_perm hacc).append_right xs
    exact (ih _ ((hperm.map key).nodup_iff.2 hnodup)).trans (hperm.trans hmiddle.symm)

end

/-! ## The records since the latest DAY_CLOSE -/

theorem foldl_sinceClose {l : List Record} (h : ∀ d, .dayClose d ∉ l) (o : Option DayClose) (rs : List Record) :
    l.foldl (fun acc r =>
      match r.dayClose? with
      | some d => (some d, [])
      | none => (acc.1, acc.2 ++ [r])) (o, rs) = (o, rs ++ l) := by
  induction l generalizing rs with
  | nil => simp
  | cons r rest ih =>
    have hr : r.dayClose? = none := by
      cases r with
      | dayClose d => exact absurd List.mem_cons_self (h d)
      | _ => rfl
    rw [List.foldl_cons, hr]
    refine (ih (fun d hd => h d (List.mem_cons_of_mem _ hd)) (rs ++ [r])).trans ?_
    rw [List.append_assoc, List.singleton_append]

theorem sinceClose_none {l : List Record} (h : ∀ d, .dayClose d ∉ l) : sinceClose l = (none, l) := foldl_sinceClose h none []

theorem sinceClose_some {before since : List Record} (d : DayClose) (h : ∀ x, .dayClose x ∉ since) :
    sinceClose (before ++ .dayClose d :: since) = (some d, since) := by
  rw [sinceClose, List.foldl_append, List.foldl_cons]
  exact foldl_sinceClose h (some d) []

/-! ## Every request that only reads -/

/-- An answer that is a reply at once. -/
def Answer.IsNow (a : Answer) : Prop := ∃ body, a = .now body

theorem readArticle_now (n : Nat) (d : Option Direction) (p : Part) : (readArticle n d p).IsNow := by
  unfold readArticle
  dsimp only
  split
  · exact ⟨_, rfl⟩
  · split
    · split <;> exact ⟨_, rfl⟩
    · exact ⟨_, rfl⟩
  · split
    · split <;> exact ⟨_, rfl⟩
    · exact ⟨_, rfl⟩

theorem readStation_now (n : Nat) (p : Part) : (readStation n p).IsNow := by
  unfold readStation
  split
  · exact ⟨_, rfl⟩
  · split <;> exact ⟨_, rfl⟩

theorem readOrder_now (n : Nat) (p : Part) : (readOrder n p).IsNow := by
  unfold readOrder
  split
  · exact ⟨_, rfl⟩
  · split
    · exact ⟨_, rfl⟩
    · split <;> exact ⟨_, rfl⟩

theorem readQueue_now (part : Option QueuePart) (p : Part) : (readQueue part p).IsNow := by
  unfold readQueue
  split
  · exact ⟨_, rfl⟩
  · exact ⟨_, rfl⟩
  · split <;> exact ⟨_, rfl⟩

theorem readPrinters_now (part : Option PrintersPart) (p : Part) : (readPrinters part p).IsNow := by
  unfold readPrinters
  split
  · exact ⟨_, rfl⟩
  · exact ⟨_, rfl⟩
  · split <;> exact ⟨_, rfl⟩

theorem readJournal_now (n : Nat) (entry : Option Nat) (p : Part) : (readJournal n entry p).IsNow := by
  unfold readJournal
  split
  · exact ⟨_, rfl⟩
  · split <;> exact ⟨_, rfl⟩

theorem readTotals_now (part : Option TotalsPart) (p : Part) : (readTotals part p).IsNow := by
  unfold readTotals
  split
  · exact ⟨_, rfl⟩
  · split <;> exact ⟨_, rfl⟩

theorem readClose_now (p : Part) : (readClose p).IsNow := by
  unfold readClose
  split <;> exact ⟨_, rfl⟩

theorem readAudit_now (n : Nat) (p : Part) : (readAudit n p).IsNow := by
  unfold readAudit
  split
  · exact ⟨_, rfl⟩
  · split
    · exact ⟨_, rfl⟩
    · split
      · exact ⟨_, rfl⟩
      · split <;> exact ⟨_, rfl⟩

/-- A request whose command reports at once is answered, and keeps the part. -/
theorem State.reads {s : State} {tag : Nat} {req : HostRequest} (hs : s.serves tag req) {report : Part → Answer}
    (h : (report s.part.taken).IsNow) :
    ∃ body, s.act (fun p => p.dispatch tag req (reading report)) = .next (s.replied s.part.taken tag req body) :=
  h.imp fun _ hbody => State.serve_reading hs hbody

/-- The requests that only read. -/
def OnlyReads : HostRequest → Prop
  | .hello | .status | .readConditions | .readStation _ | .readArticle _ _ | .readOrder _ | .readQueue _
  | .readPrinters _ | .readJournal _ _ | .readTotals _ | .readClose | .readAudit _ => True
  | _ => False

theorem exec_of_onlyReads {s : State} {c : Instr} {tag : Nat} {req : HostRequest} (hc : c.hostRequest? = some (tag, req))
    (hs : s.serves tag req) (hreq : OnlyReads req) : ∃ body, exec c s = .next (s.replied s.part.taken tag req body) := by
  cases c with
  | hello t => cases hc; exact State.reads hs ⟨_, rfl⟩
  | status t => cases hc; exact State.reads hs ⟨_, rfl⟩
  | readConditions t => cases hc; exact State.reads hs ⟨_, rfl⟩
  | readStation t n => cases hc; exact State.reads hs (readStation_now _ _)
  | readArticle t n d => cases hc; exact State.reads hs (readArticle_now _ _ _)
  | readOrder t n => cases hc; exact State.reads hs (readOrder_now _ _)
  | readQueue t part => cases hc; exact State.reads hs (readQueue_now _ _)
  | readPrinters t part => cases hc; exact State.reads hs (readPrinters_now _ _)
  | readJournal t n entry => cases hc; exact State.reads hs (readJournal_now _ _ _)
  | readTotals t part => cases hc; exact State.reads hs (readTotals_now _ _)
  | readClose t => cases hc; exact State.reads hs (readClose_now _)
  | readAudit t n => cases hc; exact State.reads hs (readAudit_now _ _)
  | _ => cases hc <;> exact hreq.elim

/-! ## READ ORDER, READ QUEUE and READ PRINTERS -/

section
variable {p : Part} {n : Nat}

theorem readOrder_at (h1 : 1 ≤ n) (h2 : n ≤ 9999) : readOrder n p = .now (match p.order n with
    | some o => .done (.order o)
    | none => .refused .noSuch none) := by
  rw [readOrder, if_neg (Nat.not_lt.2 h2), if_neg (Nat.ne_of_gt h1)]
  cases p.order n <;> rfl

/-- READ ORDER 0 lists every order once, in ascending number. -/
theorem readOrder_all (h : (p.om.orders.map Order.number).Nodup) : ∃ l : List OrderSummary,
    readOrder 0 p = .done (.orders l) ∧ (l.map OrderSummary.number).Pairwise (· < ·)
    ∧ ∀ x, x ∈ l ↔ ∃ o ∈ p.om.orders, x = ⟨o.number, o.state, o.owner, o.ticket, o.lines.length, o.total⟩ := by
  have hperm := foldl_insertByKey_perm (key := Order.number) p.om.orders [] h
  have hascending := ascending_foldl_insertByKey (key := Order.number) p.om.orders [] .nil
  refine ⟨_, rfl, ?_, fun x => ?_⟩
  · rw [List.map_map]
    exact hascending
  · rw [List.mem_map]
    constructor
    · rintro ⟨o, ho, rfl⟩
      exact ⟨o, hperm.mem_iff.1 ho, rfl⟩
    · rintro ⟨o, ho, rfl⟩
      exact ⟨o, hperm.mem_iff.2 ho, rfl⟩

theorem readQueue_out (h : n = 0 ∨ 64 < n) : readQueue (some (.waiting n)) p = .refuse .badValue := by
  simp only [readQueue, within_false.2 (show n < 1 ∨ 64 < n by omega)]
  rfl

theorem readPrinters_out (h : n = 0 ∨ 32 < n) : readPrinters (some (.jobs n)) p = .refuse .badValue := by
  simp only [readPrinters, within_false.2 (show n < 1 ∨ 32 < n by omega)]
  rfl

theorem LabelUnit.printerReport_fields (l : LabelUnit) (pr : PrinterNo) : (l.printerReport pr).state = (l.printers.get pr).state
    ∧ (l.printerReport pr).job = (l.queue.find? (fun j => j.target = pr && j.atPrinter)).map (fun j => (j.label, j.kind))
    ∧ (l.printerReport pr).held = (l.queue.filter (fun j => j.target = pr && !j.released)).length
    ∧ (l.printerReport pr).released = (l.queue.filter (fun j => j.target = pr && j.released)).length := by
  refine ⟨rfl, rfl, ?_, ?_⟩ <;> simp only [LabelUnit.printerReport, List.filter_filter, Bool.and_comm]

end

/-! ## READ TOTALS -/

section
variable {p : Part} {n : Nat}

theorem readTotals_ok {t : TotalsPart} (h : totalsPartOk t = true) :
    readTotals (some t) p = .done (.totals (p.totalsData t) p.totalsReport) := by
  simp only [readTotals, h, if_true]

theorem readTotals_out {part : Option TotalsPart} (h : part = none ∨ ∃ k, part = some (.articles k) ∧ (k = 0 ∨ 2049 < k)) :
    readTotals part p = .now (.refusedTotals .badValue p.totalsReport) := by
  rcases h with rfl | ⟨k, rfl, hk⟩
  · rfl
  · have htest : totalsPartOk (.articles k) = false := within_false.2 (by omega)
    simp only [readTotals, htest]
    rfl

/-- 20 entries of the map leave no room for OTHER. -/
theorem Part.totalsData_full (h1 : 1 ≤ n) (h : n + 19 ≤ p.tt.accumulators.articles.length) : p.totalsData (.articles n)
    = .articles ((p.tt.accumulators.articles.drop (n - 1)).take 20) none p.tt.accumulators.articles.length := by
  have hlen : ¬ ((p.tt.accumulators.articles.drop (n - 1)).take 20).length < 20 := by
    rw [List.length_take, List.length_drop]
    omega
  simp only [Part.totalsData, decide_eq_false hlen, Bool.and_false]
  rfl

theorem Part.totalsData_last (h1 : 1 ≤ n) (hle : n ≤ p.tt.accumulators.articles.length + 1)
    (h : p.tt.accumulators.articles.length < n + 19) : p.totalsData (.articles n)
    = .articles (p.tt.accumulators.articles.drop (n - 1)) (some p.tt.accumulators.other) p.tt.accumulators.articles.length := by
  have htake : (p.tt.accumulators.articles.drop (n - 1)).take 20 = p.tt.accumulators.articles.drop (n - 1) :=
    List.take_of_length_le (by rw [List.length_drop]; omega)
  have hlen : (p.tt.accumulators.articles.drop (n - 1)).length < 20 := by
    rw [List.length_drop]
    omega
  simp only [Part.totalsData, htake, decide_eq_true hlen, decide_eq_true hle, Bool.and_true, if_true]

theorem Part.totalsData_beyond (h : p.tt.accumulators.articles.length + 1 < n) : p.totalsData (.articles n)
    = .articles [] none p.tt.accumulators.articles.length := by
  have hdrop : p.tt.accumulators.articles.drop (n - 1) = [] := List.drop_eq_nil_of_le (by omega)
  simp only [Part.totalsData, hdrop, decide_eq_false (Nat.not_le.2 h), Bool.false_and]
  rfl

end

/-! ## READ JOURNAL -/

section
variable {p : Part} {n : Nat} {entry : Option Nat}

theorem readJournal_refused (h : 65535 < n ∨ entry = some 0 ∨ ∃ e, entry = some e ∧ 64 < e) :
    readJournal n entry p = .now (.refusedJournal .badValue p.journalReport) := by
  have htest : (decide (Config.max16 < n) || !within 1 64 (entry.getD 1)) = true := by
    rcases h with h | rfl | ⟨e, rfl, h⟩
    · rw [decide_eq_true (show Config.max16 < n from h)]
      rfl
    · rw [show within 1 64 ((some 0).getD 1) = false from rfl]
      simp
    · rw [show within 1 64 ((some e).getD 1) = false from within_false.2 (.inr h)]
      simp
  rw [readJournal, if_pos htest]

theorem readJournal_looked (hn : n ≤ 65535) (he : ∀ e, entry = some e → 1 ≤ e ∧ e ≤ 64) :
    readJournal n entry p = match p.journalRecord n with
      | none => .now (.refusedJournal .noSuch p.journalReport)
      | some r => .done (.journal (r.report (entry.getD 1)) p.journalReport) := by
  have hentry : within 1 64 (entry.getD 1) = true := by
    cases entry with
    | none => rfl
    | some e => exact within_true.2 (he e rfl)
  have htest : (decide (Config.max16 < n) || !within 1 64 (entry.getD 1)) = false := by
    rw [decide_eq_false (Nat.not_lt.2 hn : ¬ Config.max16 < n), hentry]
    rfl
  refine (if_neg (by rw [htest]; decide)).trans ?_
  cases p.journalRecord n <;> rfl

theorem Record.report_plain {x : Record} (h : ∀ g es t, x ≠ .priceApply g es t) (e : Nat) : x.report e = ⟨x, none⟩ := by
  unfold Record.report
  split
  · next g es t => exact absurd rfl (h g es t)
  · rfl

/-- The record behind the latest DAY_CLOSE at an index from 1. -/
theorem Part.journalRecord_since {o : Option DayClose} {since : List Record}
    (h : sinceClose (journalRecords p.nv.sectors) = (o, since)) (k : Nat) : p.journalRecord (k + 1) = since[k]? := by
  cases o <;> simp only [Part.journalRecord, h]

theorem Part.journalRecord_close {o : Option DayClose} {since : List Record}
    (h : sinceClose (journalRecords p.nv.sectors) = (o, since)) : p.journalRecord 0 = o.map .dayClose := by
  cases o <;> simp only [Part.journalRecord, h] <;> rfl

end

/-- What READ JOURNAL gives of the records since the latest DAY_CLOSE, or of all of them. -/
theorem readJournal_walk {s : State} {tag n : Nat} {entry : Option Nat} (hs : s.serves tag (.readJournal n entry))
    (hn : n ≤ 65535) (he : ∀ e, entry = some e → 1 ≤ e ∧ e ≤ 64) {o : Option DayClose} {since : List Record}
    (h : sinceClose (journalRecords s.part.nv.sectors) = (o, since)) :
    let gives (x : RecordReport) : Prop := exec (.readJournal tag n entry) s
      = .next (s.replied s.part.taken tag (.readJournal n entry) (.done (.journal x s.part.journalReport)))
    let refused : Prop := exec (.readJournal tag n entry) s
      = .next (s.replied s.part.taken tag (.readJournal n entry) (.refusedJournal .noSuch s.part.journalReport))
    let shows (x : Record) : Prop := (∀ g es t, x ≠ .priceApply g es t) ∧ gives ⟨x, none⟩
      ∨ ∃ g es t, x = .priceApply g es t ∧ gives ⟨.priceApply g ((es.drop (entry.getD 1 - 1)).take 3) t, some es.length⟩
    ((∀ k, n = k + 1 → (∀ x, since[k]? = some x → shows x) ∧ (since.length ≤ k → refused))
      ∧ s.part.journalReport.recordsSinceClose = since.length)
    ∧ (n = 0 → match o with
      | none => refused
      | some d => gives ⟨.dayClose d, none⟩) := by
  have hlooked := readJournal_looked (p := s.part.taken) hn he
  have hsince := Part.journalRecord_since (p := s.part.taken) h
  have hclose := Part.journalRecord_close (p := s.part.taken) h
  refine ⟨⟨fun k hk => ⟨fun x hx => ?shown, fun hlen => ?beyond⟩, congrArg (fun a => a.2.length) h⟩, fun h0 => ?close⟩
  case shown =>
    subst hk
    rw [hsince k, hx] at hlooked
    cases x with
    | priceApply g es t => exact .inr ⟨g, es, t, rfl, State.serve_reading hs hlooked⟩
    | _ => exact .inl ⟨(fun _ _ _ hp => by cases hp), State.serve_reading hs hlooked⟩
  case beyond =>
    subst hk
    rw [hsince k, List.getElem?_eq_none hlen] at hlooked
    exact State.serve_reading hs hlooked
  case close =>
    subst h0
    rw [hclose] at hlooked
    cases o with
    | none => exact State.serve_reading hs hlooked
    | some d => exact State.serve_reading hs hlooked

/-! ## READ RECOVERY and READ AUDIT -/

section
variable {p : Part} {n : Nat}

theorem serveReadRecovery_shown {r : RecoveryReport} {d : ReplyData} (hn : n ≤ 16) (hr : p.tt.report = some r)
    (hd : r.shown n = some d) : serveReadRecovery n p
      = ({ p with tt := { p.tt with report := some { r with read := true } } }, .done d) := by
  rw [serveReadRecovery, if_neg (Nat.not_lt.2 hn), Part.markRead, hr]
  simp only [Option.bind_some, hd, Option.map_some]

theorem serveReadRecovery_none {r : RecoveryReport} (hn : n ≤ 16) (hr : p.tt.report = some r) (hd : r.shown n = none) :
    serveReadRecovery n p = (p, .refuse .noSuch) := by
  rw [serveReadRecovery, if_neg (Nat.not_lt.2 hn), hr]
  simp only [Option.bind_some, hd]

/-- What READ AUDIT shows of a place of the audit area: an entry whose check is that of Table 63, or DAMAGED. -/
theorem AuditSlot.shown_eq (a : AuditSlot) : a.shown = match a with
    | .written e => if e.check = e.checkOf then .written e else .damaged
    | .damaged => .damaged := by
  cases a with
  | damaged => rfl
  | written e =>
    by_cases h : e.check = e.checkOf
    · exact (AuditSlot.shown_agrees (decide_eq_true (h.trans (auditCheck_eq e).symm))).trans (if_pos h).symm
    · exact (AuditSlot.shown_fails (decide_eq_false fun hc => h (hc.trans (auditCheck_eq e)))).trans (if_neg h).symm

theorem readAudit_entry {a : AuditSlot} (h1 : 1 ≤ n) (h2 : n ≤ 128) (hc : n ≤ p.nv.auditCounter)
    (ha : p.nv.audit[n - 1]? = some a) : readAudit n p = .done (.auditEntry a.shown) := by
  rw [readAudit, if_neg (Nat.not_lt.2 h2 : ¬ Config.maxAudit < n), if_neg (by omega), if_neg (Nat.not_lt.2 hc)]
  simp only [ha]

theorem readAudit_above (hc : p.nv.auditCounter < n) (h2 : n ≤ 128) : readAudit n p = .refuse .noSuch := by
  rw [readAudit, if_neg (Nat.not_lt.2 h2 : ¬ Config.maxAudit < n), if_neg (by omega), if_pos hc]

end

/-- Settles O11: every request that only reads keeps the part, and each part and position by its own lemma. -/
theorem readRepliesCarry : Obligations.ReadRepliesCarry := by
  refine ⟨fun s c tag req hc hs hreq => exec_of_onlyReads hc hs (by cases req <;> exact hreq), fun s tag n =>
    ⟨fun hs => ⟨fun h1 h2 => ?order, fun h => ?orderOut, fun h0 hn => ?orders⟩,
      fun hs => ⟨fun h1 h2 => ?waiting, fun h => ?waitingOut⟩, fun hs => State.serve_reading hs rfl,
      fun hs => State.serve_reading hs rfl, fun hs => ⟨fun h1 h2 => ?jobs, fun h => ?jobsOut⟩, fun hs => ?printers,
      fun hs => State.serve_reading hs rfl, fun part hs => ?totals, fun entry hs => ?journal⟩,
    fun s tag n => ⟨fun r hs hr => ⟨fun h0 => ?summary, fun o h1 h2 ho => ?interrupted, fun h1 h2 hlen => ?noOrder⟩,
      fun hs h => ?recoveryOut, fun hs => ⟨fun a h1 h2 hc ha => ?entry, fun h0 => ?audit, fun hc h2 => ?above, fun h => ?auditOut⟩⟩⟩
  case order => exact State.serve_reading hs (readOrder_at h1 h2)
  case orderOut => exact State.serve_reading hs (by rw [readOrder, if_pos h]; rfl)
  case orders =>
    subst h0
    obtain ⟨l, hread, hascending, hall⟩ := readOrder_all (p := s.part.taken) hn
    exact ⟨l, State.serve_reading hs hread, hascending, hall⟩
  case waiting => exact State.serve_reading hs (by simp only [readQueue, within_true.2 ⟨h1, h2⟩, if_true]; rfl)
  case waitingOut => exact State.serve_reading hs (readQueue_out h)
  case jobs => exact State.serve_reading hs (by simp only [readPrinters, within_true.2 ⟨h1, h2⟩, if_true]; rfl)
  case jobsOut => exact State.serve_reading hs (readPrinters_out h)
  case printers =>
    refine ⟨_, State.serve_reading hs rfl, fun pr => ?_⟩
    cases pr <;> exact s.part.lu.printerReport_fields _
  case totals =>
    refine ⟨fun h => ?_, fun h => ?_, fun h => ?_, fun h => ?_, fun h h1 h2 => ⟨fun hfull => ?_, fun hle hlast => ?_, fun hbeyond => ?_⟩,
      fun h => State.serve_reading hs (readTotals_out h)⟩
    all_goals subst h
    · exact State.serve_reading hs (readTotals_ok rfl)
    · exact State.serve_reading hs (readTotals_ok rfl)
    · exact State.serve_reading hs (readTotals_ok rfl)
    · exact State.serve_reading hs (readTotals_ok rfl)
    · exact State.serve_reading hs ((readTotals_ok (t := .articles n) (within_true.2 ⟨h1, h2⟩)).trans (by
        rw [Part.totalsData_full (p := s.part.taken) h1 hfull]
        rfl))
    · exact State.serve_reading hs ((readTotals_ok (t := .articles n) (within_true.2 ⟨h1, h2⟩)).trans (by
        rw [Part.totalsData_last (p := s.part.taken) h1 hle hlast]
        rfl))
    · exact State.serve_reading hs ((readTotals_ok (t := .articles n) (within_true.2 ⟨h1, h2⟩)).trans (by
        rw [Part.totalsData_beyond (p := s.part.taken) hbeyond]
        rfl))
  case journal =>
    refine ⟨s.part.journalReport, rfl, rfl, rfl, rfl, rfl, rfl, fun h => State.serve_reading hs (readJournal_refused h),
      fun hn he => ⟨fun hno => ?_, fun before d since hsplit hno => ?_⟩⟩
    · exact readJournal_walk hs hn he (sinceClose_none hno)
    · exact readJournal_walk hs hn he ((congrArg sinceClose hsplit).trans (sinceClose_some d hno))
  case summary =>
    subst h0
    exact State.serve_now hs (serveReadRecovery_shown (by decide) hr rfl)
  case interrupted =>
    obtain ⟨k, rfl⟩ : ∃ k, n = k + 1 := ⟨n - 1, by omega⟩
    exact State.serve_now hs (serveReadRecovery_shown h2 hr (by rw [RecoveryReport.shown, show r.orders[k]? = some o from ho]; rfl))
  case noOrder =>
    obtain ⟨k, rfl⟩ : ∃ k, n = k + 1 := ⟨n - 1, by omega⟩
    exact State.serve_now hs (serveReadRecovery_none h2 hr (by
      rw [RecoveryReport.shown, List.getElem?_eq_none (by omega)]
      rfl))
  case recoveryOut => exact State.serve_now hs (by rw [serveReadRecovery, if_pos h]; rfl)
  case entry =>
    exact State.serve_reading hs ((readAudit_entry h1 h2 hc ha).trans (by rw [AuditSlot.shown_eq]; rfl))
  case audit =>
    subst h0
    refine ⟨s.part.auditReport, State.serve_reading hs rfl, rfl, ?_, rfl, rfl, fun hx => ?_, fun x hx => ?_⟩
    · simp only [Part.auditReport, AuditSlot.shown_eq] <;> rfl
    · rw [Part.auditReport, hx]
      rfl
    · refine ⟨x.report s.part.time.elapsed, by rw [Part.auditReport, hx]; rfl, rfl, ?_, ?_, ?_, rfl⟩
      all_goals exact Option.isSome_iff_ne_none
  case above => exact State.serve_reading hs (readAudit_above hc h2)
  case auditOut => exact State.serve_reading hs (by rw [readAudit, if_pos (show Config.maxAudit < n from h)]; rfl)

end Sys2Proof.Machine
end


-- ==== Sys2Proof/Proofs/AddLine.lean ====
section
/-! ADD LINE (R96 to R99): the checks of Table 37 in their order, the price of the line, and the part that a commit leaves. -/

namespace Sys2Proof.Machine

/-! ## The part after a commit (steps 2 to 7 of R99) -/

/-- What a job that joins the print queue leaves: the queue with it, and perhaps PRINT_QUEUE_HIGH. -/
theorem Part.addJob_parts (p : Part) (kind : LabelKind) (n : Nat) (target : PrinterNo) (content : LabelContent) :
    let q := p.addJob kind n target content
    q.lu = { p.lu with queue := p.lu.queue ++ [⟨kind, n, target, false, false, content⟩] } ∧ q.nv = p.nv ∧ q.wc = p.wc
      ∧ q.art = p.art ∧ q.oc = p.oc ∧ q.om = p.om ∧ q.tc = p.tc ∧ q.tj = p.tj ∧ q.tt = p.tt ∧ q.cc = p.cc
      ∧ q.time = p.time ∧ q.inputs = p.inputs ∧ q.ml.stations = p.ml.stations := by
  unfold Part.addJob
  dsimp only
  split <;> exact ⟨rfl, rfl, rfl, rfl, rfl, rfl, rfl, rfl, rfl, rfl, rfl, rfl, rfl⟩

section
variable {p : Part} {o : Order} {f : LineFields} {a : Article}

theorem Part.makeItemLabel_none (h : f.label = none) : p.makeItemLabel o f a = p := by
  simp only [Part.makeItemLabel, h]

theorem Part.makeItemLabel_some {n : Nat} (h : f.label = some n) : p.makeItemLabel o f a
    = p.takeLabel.addJob .item n (p.config f.station).printer
        (lineContent .item n p.art.itemPrefix o.number o.owner f (some a)) := by
  simp only [Part.makeItemLabel, h]

/-- Steps 5 to 7 of R99: the record, the capture and the selection. -/
theorem Part.addLine_tail (q : Part) (o : Order) (f : LineFields) :
    let r := ((q.queueRecord (.line o.number o.owner f)).confirmLine f).consumeSelection f.station f.article
    r.tj = q.tj.taking (.filled (.line o.number o.owner f)) ∧ r.lu = q.lu
    ∧ r.wc = (if f.measure.isWeighed then q.wc.set f.station (q.wc.get f.station).confirmCapture else q.wc)
    ∧ r.art = { q.art with selections := (q.art.selections.set f.station
        { q.art.selections.get f.station with quantity := 1, override := none, repeatEntry := some f.article }) }
    ∧ r.om = q.om ∧ r.nv = q.nv ∧ r.oc = q.oc ∧ r.tc = q.tc ∧ r.tt = q.tt ∧ r.cc = q.cc ∧ r.time = q.time
    ∧ r.inputs = q.inputs := by
  have htj := Part.queueRecord_tj q (.line o.number o.owner f)
  unfold Part.confirmLine
  split <;> exact ⟨htj, rfl, rfl, rfl, rfl, rfl, rfl, rfl, rfl, rfl, rfl, rfl⟩

/-- A commit whose label, if it has one, is the next number leaves what R99 says. -/
theorem Part.addLine_added (h : ∀ n, f.label = some n → n = p.lu.nextLabel) : p.LineAdded (p.addLine o f a) o f a := by
  let q := p.updateOrder o.number (fun x => { x with lines := x.lines ++ [⟨f, .pending⟩], total := x.total + f.linePrice })
  obtain ⟨htj, hlu, hwc, hart, hom, hnv, hoc, htc, htt, hcc, htime, hinputs⟩ :=
    Part.addLine_tail (q.makeItemLabel o f a) o f
  have hframe := q.makeItemLabel_frame o f a
  have hnone (hl : f.label = none) : (q.makeItemLabel o f a).lu = p.lu := by rw [Part.makeItemLabel_none hl]; rfl
  have hsome (n : Nat) (hl : f.label = some n) : (q.makeItemLabel o f a).lu = { p.lu with
      lastLabel := n
      queue := p.lu.queue ++ [⟨.item, n, (p.config f.station).printer, false, false,
        lineContent .item n p.art.itemPrefix o.number o.owner f (some a)⟩] } := by
    rw [Part.makeItemLabel_some hl, (Part.addJob_parts _ _ _ _ _).1, h n hl]
    rfl
  obtain ⟨bnv, binputs, btime, bwc, bart, boc, bom, btc, btj, btt, bcc, -⟩ := hframe
  exact {
    order := hom.trans bom
    record := htj.trans (by rw [btj]; rfl)
    noLabel := fun hl => hlu.trans (hnone hl)
    label := fun n hl => hlu.trans (hsome n hl)
    capture := hwc.trans (by rw [bwc]; rfl)
    selection := hart.trans (by rw [bart]; rfl)
    rest := ⟨hnv.trans bnv, hoc.trans boc, htc.trans btc, htt.trans btt, hcc.trans bcc, htime.trans btime,
      hinputs.trans binputs⟩ }

end

/-! ## The checks of Table 37 -/

/-- The checks of Table 37 from the room for the line on. -/
def Part.roomChecks (p : Part) (st : StationNo) (operator : Nat) (a : Article) (m : Measure) (price : Nat × Option Nat) :
    Except Reason Commit := do
  p.checkLineRoom st operator
  check (p.presentTotal st + price.1 ≤ Config.maxTotal) .limit
  check (!makesItem (p.commitMode st) || p.printRoom) .queueFull
  p.journalCheck 56 ordinaryReserve
  return ⟨a, m, a.priceOf m, price.1, price.2, p.commitMode st⟩

/-- The checks of Table 37 from the selection on. -/
def Part.lineChecks (p : Part) (st : StationNo) (operator : Nat) : Except Reason Commit := do
  let n ← need (p.art.selections.get st).article .noSelection
  let a ← need (p.article n) .noSuch
  check (!a.held) .held
  let m ← p.measure st a
  let price ← linePriceOf (a.priceOf m) (p.art.selections.get st).override
  p.roomChecks st operator a m price

/-- The checks behind those of a label that is made: the label needs room in the print queue, the record a place. -/
def Part.recordChecks (p : Part) (mode : LabelMode) (c : Commit) : Except Reason Commit := do
  check (!makesItem mode || p.printRoom) .queueFull
  p.journalCheck 56 2
  return c

section
variable {p : Part} {st : StationNo} {operator : Nat}

theorem Part.commitChecks_untraded {e : Reason} (h : p.checkTrading = .error e) : p.commitChecks st operator = .error e := by
  rw [Part.commitChecks, h, error_bind]

theorem Part.commitChecks_stale (ht : p.tt.counter = .trading) (hl : p.link st = .present)
    (h : p.art.confirmed.get st ≠ some p.art.generation) : p.commitChecks st operator = .error .staleDisplay := by
  rw [Part.commitChecks, Part.checkTrading_trading ht, ok_bind, decide_eq_true hl, check_true, ok_bind, decide_eq_false h,
    check_false, error_bind]

theorem Part.commitChecks_current (ht : p.tt.counter = .trading) (hl : p.link st = .present)
    (h : p.art.confirmed.get st = some p.art.generation) : p.commitChecks st operator = p.lineChecks st operator := by
  rw [Part.commitChecks, Part.checkTrading_trading ht, ok_bind, decide_eq_true hl, check_true, ok_bind, decide_eq_true h,
    check_true, ok_bind]
  rfl

theorem Part.lineChecks_selected {n : Nat} {a : Article} (hn : (p.art.selections.get st).article = some n)
    (ha : p.article n = some a) : p.lineChecks st operator = (do
      check (!a.held) .held
      let m ← p.measure st a
      let price ← linePriceOf (a.priceOf m) (p.art.selections.get st).override
      p.roomChecks st operator a m price) := by
  rw [Part.lineChecks, hn, need_some, ok_bind, ha, need_some, ok_bind]

theorem Part.lineChecks_measured {n : Nat} {a : Article} {m : Measure} (hn : (p.art.selections.get st).article = some n)
    (ha : p.article n = some a) (hh : a.held = false) (hm : p.measure st a = .ok m) : p.lineChecks st operator = (do
      let price ← linePriceOf (a.priceOf m) (p.art.selections.get st).override
      p.roomChecks st operator a m price) := by
  rw [Part.lineChecks_selected hn ha, hh, hm]
  rfl

theorem linePriceOf_out {list : Nat} (h : list = 0 ∨ 99999 < list) (o : Option PriceOverride) :
    linePriceOf list o = .error .limit := by
  have htest : within 1 Config.maxPrice list = false := within_false.2 (by rw [show Config.maxPrice = 99999 from rfl]; omega)
  simp only [linePriceOf, htest, Bool.false_eq_true, if_false]

theorem linePriceOf_over {list : Nat} {o : PriceOverride} (h1 : 1 ≤ list) (h2 : list ≤ 99999) (h : list < o.price) :
    linePriceOf list (some o) = .error .limit := by
  have htest : within 1 Config.maxPrice list = true := within_true.2 ⟨h1, h2⟩
  simp only [linePriceOf, htest, if_true, if_neg (Nat.not_le.2 h)]

theorem linePriceOf_ok {list price : Nat} {override : Option PriceOverride} {overrider : Option Nat} (h1 : 1 ≤ list)
    (h2 : list ≤ 99999) (h : override = none ∧ price = list ∧ overrider = none
      ∨ ∃ o, override = some o ∧ o.price ≤ list ∧ price = o.price ∧ overrider = some o.supervisor) :
    linePriceOf list override = .ok (price, overrider) := by
  have htest : within 1 Config.maxPrice list = true := within_true.2 ⟨h1, h2⟩
  rcases h with ⟨rfl, rfl, rfl⟩ | ⟨o, rfl, hle, rfl, rfl⟩
  · simp only [linePriceOf, htest, if_true]
  · simp only [linePriceOf, htest, if_true, if_pos hle]

/-- The room of a line in the active order (R97, R98). -/
theorem Part.roomChecks_active {o : Order} (h : p.activeOrder st = some o) (a : Article) (m : Measure)
    (price : Nat × Option Nat) : p.roomChecks st operator a m price = (do
      check (o.lastIndex < 24) .orderFull
      check (o.total + price.1 ≤ 999999) .limit
      p.recordChecks o.labelMode ⟨a, m, a.priceOf m, price.1, price.2, o.labelMode⟩) := by
  obtain ⟨n, hn, -⟩ := Option.bind_eq_some_iff.1 h
  have hroom : p.checkLineRoom st operator = check (o.lastIndex < 24) .orderFull := by
    simp only [Part.checkLineRoom, hn, h]
    rfl
  have hmode : p.commitMode st = o.labelMode := by simp only [Part.commitMode, h]
  have htotal : p.presentTotal st = o.total := by simp only [Part.presentTotal, h, Option.map_some, Option.getD_some]
  rw [Part.roomChecks, hroom, hmode, htotal]
  rfl

/-- The room of a line in an order that the commit first opens (R96, R98). -/
theorem Part.roomChecks_new (h : p.om.active.get st = none) (a : Article) (m : Measure)
    (price : Nat × Option Nat) : p.roomChecks st operator a m price = (do
      p.checkNewOrder operator
      check (price.1 ≤ 999999) .limit
      p.recordChecks (p.config st).labelMode ⟨a, m, a.priceOf m, price.1, price.2, (p.config st).labelMode⟩) := by
  have hactive : p.activeOrder st = none := by rw [Part.activeOrder, h, Option.bind_none]
  have hroom : p.checkLineRoom st operator = p.checkNewOrder operator := by simp only [Part.checkLineRoom, h]
  have hmode : p.commitMode st = (p.config st).labelMode := by simp only [Part.commitMode, hactive]
  have htotal : p.presentTotal st + price.1 = price.1 := by
    simp only [Part.presentTotal, hactive, Option.map_none, Option.getD_none, Nat.zero_add]
  rw [Part.roomChecks, hroom, hmode, htotal]
  rfl

theorem makesItem_iff (mode : LabelMode) : makesItem mode = true ↔ mode ≠ .total := by
  cases mode <;> decide

theorem Part.recordChecks_full {mode : LabelMode} (hm : mode ≠ .total) (h : 32 ≤ p.lu.queue.length) (c : Commit) :
    p.recordChecks mode c = .error .queueFull := by
  rw [Part.recordChecks, (makesItem_iff mode).2 hm, Part.printRoom_false h]
  rfl

theorem Part.recordChecks_room {mode : LabelMode} (h : mode = .total ∨ p.lu.queue.length < 32) (c : Commit) :
    p.recordChecks mode c = (do
      p.journalCheck 56 2
      return c) := by
  have htest : (!makesItem mode || p.printRoom) = true := by
    rcases h with rfl | h
    · rfl
    · rw [(p.printRoom_iff).2 h, Bool.or_true]
  rw [Part.recordChecks, htest, check_true, ok_bind]

theorem keyAddLine_refused {e : Reason} (h : p.commitChecks st operator = .error e) : keyAddLine st operator p = .error e := by
  rw [keyAddLine, h, error_bind]

/-- The line of a commit as R99 writes it: its label by the mode, and the next index. -/
theorem Part.newLine_eq (p : Part) (st : StationNo) (o : Order) (c : Commit) : p.newLine st o c
    = { index := o.lastIndex + 1, station := st, article := c.article.number, measure := c.measure,
        department := c.article.department, unitPrice := c.article.unitPrice, generation := p.art.generation,
        listPrice := c.listPrice, linePrice := c.linePrice, overriddenBy := c.overriddenBy,
        label := if c.labelMode = .total then none else some p.lu.nextLabel, time := p.stamp } := by
  have hlabel : (if makesItem c.labelMode then some p.lu.nextLabel else none)
      = if c.labelMode = .total then none else some p.lu.nextLabel := by
    cases c.labelMode <;> rfl
  rw [← hlabel]
  rfl

theorem Part.newLine_label (p : Part) (st : StationNo) (o : Order) (c : Commit) (n : Nat)
    (h : (p.newLine st o c).label = some n) : n = p.lu.nextLabel := by
  have hlabel : (if makesItem c.labelMode then some p.lu.nextLabel else none) = some n := h
  split at hlabel
  · exact (Option.some.inj hlabel).symm
  · cases hlabel

theorem keyAddLine_commits {c : Commit} {o : Order} (h : p.commitChecks st operator = .ok c)
    (ho : (p.withOrder st operator).activeOrder st = some o) : keyAddLine st operator p
      = .ok ((p.withOrder st operator).addLine o ((p.withOrder st operator).newLine st o c) c.article,
        ⟨some o.number, some (o.lastIndex + 1), some c.linePrice, some (o.total + c.linePrice), none, none⟩) := by
  simp only [keyAddLine, h, ho, need_some, ok_bind]
  rfl

theorem Part.withOrder_active {o : Order} (h : p.activeOrder st = some o) : p.withOrder st operator = p := by
  obtain ⟨n, hn, -⟩ := Option.bind_eq_some_iff.1 h
  exact if_neg (by rw [hn]; exact Bool.false_ne_true)

theorem Part.withOrder_none (h : p.om.active.get st = none) : p.withOrder st operator = p.openOrder st operator :=
  if_pos (by rw [h]; rfl)

/-- The order that a commit opens is the station's active order. -/
theorem Part.openOrder_active (hfree : none ∈ p.om.pool) (hnew : ∀ o ∈ p.om.orders, o.number ≠ p.nextOrder) :
    (p.openOrder st operator).activeOrder st = some (p.newOrder st operator) := by
  obtain ⟨before, after, hpool, hnot⟩ := List.eq_append_cons_of_mem hfree
  have hbefore : ∀ slot ∈ before, slot ≠ none := fun slot hs he => hnot (he ▸ hs)
  have horders : (p.openOrder st operator).om.orders
      = before.filterMap id ++ p.newOrder st operator :: after.filterMap id := by
    rw [Part.openOrder_eq hpool hbefore]
    simp [OrderManager.orders]
  have hactive : (p.openOrder st operator).om.active.get st = some p.nextOrder := by
    rw [Part.openOrder_eq hpool hbefore]
    exact PerStation.get_set_same _ _ _
  have hold : ∀ x ∈ before.filterMap id, (x.number == p.nextOrder) = false := fun x hx => by
    have hmem : x ∈ p.om.orders := by
      rw [OrderManager.orders, hpool, List.filterMap_append]
      exact List.mem_append_left _ hx
    simpa using hnew x hmem
  rw [Part.activeOrder, hactive, Option.bind_some, Part.order, lookup, horders]
  exact find?_split hold (beq_self_eq_true _)

/-- The line of a commit in the order that it has opened. -/
theorem Part.newLine_opened (p : Part) (st : StationNo) (operator : Nat) (c : Commit) :
    (p.openOrder st operator).newLine st (p.newOrder st operator) c = p.newLine st (p.newOrder st operator) c := by
  obtain ⟨-, -, htime, -, hart, -, hlu, -⟩ := p.openOrder_frame st operator
  simp only [Part.newLine, Part.stamp, hart, hlu, htime]

theorem keyAddLine_opens {p : Part} {st : StationNo} {operator : Nat} {c : Commit} (h : p.commitChecks st operator = .ok c)
    (ho : p.om.active.get st = none) (hfree : none ∈ p.om.pool) (hnew : ∀ o ∈ p.om.orders, o.number ≠ p.nextOrder) :
    keyAddLine st operator p = .ok ((p.openOrder st operator).addLine (p.newOrder st operator)
      (p.newLine st (p.newOrder st operator) c) c.article,
      ⟨some p.nextOrder, some 1, some c.linePrice, some c.linePrice, none, none⟩) := by
  have hkey := keyAddLine_commits h
    ((congrArg (fun q : Part => q.activeOrder st) (Part.withOrder_none ho)).trans (Part.openOrder_active hfree hnew))
  have htotal : (p.newOrder st operator).total + c.linePrice = c.linePrice := Nat.zero_add _
  rw [Part.withOrder_none ho, Part.newLine_opened, htotal] at hkey
  exact hkey

end

/-- What a key is answered once the checks of a commit have been narrowed down to a chain. -/
theorem exec_addLine_refused {s : State} {st : StationNo} {tag operator : Nat} {e : Reason} (h : s.takesKeyOf st tag operator)
    (he : (s.part.keyTaken st tag).commitChecks st operator = .error e) :
    exec (.addLine st tag) s = .next (s.outcome (s.part.keyTaken st tag) st tag (.refused e)) :=
  State.key_refused_on h (keyAddLine_refused he)

/-- Settles O27: the chain of Table 37 refusal by refusal, and the part of a commit by `Part.addLine_added`. -/
theorem addLineCommits : Obligations.AddLineCommits := by
  refine ⟨fun s st tag operator h => ?keys, fun a grams count tare => ⟨fun hk => ?weighed, fun hk => ?counted, fun hk => ?fixed⟩⟩
  case weighed => simp only [Article.priceOf, Article.listPrice, hk]; rfl
  case counted => simp only [Article.priceOf, Article.listPrice, hk]; rfl
  case fixed => simp only [Article.priceOf, Article.listPrice, hk]
  case keys =>
    have hl : (s.part.keyTaken st tag).link st = .present := (s.part.keyTaken_link st tag).trans h.1.2.1
    refine ⟨fun ht => exec_addLine_refused h (Part.commitChecks_untraded (Part.checkTrading_paused ht)),
      fun ht => exec_addLine_refused h (Part.commitChecks_untraded (Part.checkTrading_closed ht)),
      fun ht hc => exec_addLine_refused h (Part.commitChecks_stale ht hl hc), fun ht hc => ?_⟩
    have hchecks := Part.commitChecks_current (operator := operator) ht hl hc
    refine ⟨fun hn => ?noSelection, fun n hn => ⟨fun ha => ?missing, fun a ha => ⟨fun hh => ?held, fun hh e he => ?unmeasured,
      fun m hh hm => ?measured⟩⟩⟩
    case noSelection => exact exec_addLine_refused h (hchecks.trans (by rw [Part.lineChecks, hn]; rfl))
    case missing =>
      exact exec_addLine_refused h (hchecks.trans (by rw [Part.lineChecks, hn, need_some, ok_bind, ha]; rfl))
    case held => exact exec_addLine_refused h (hchecks.trans (by rw [Part.lineChecks_selected hn ha, hh]; rfl))
    case unmeasured => exact exec_addLine_refused h (hchecks.trans (by rw [Part.lineChecks_selected hn ha, hh, he]; rfl))
    case measured =>
      have hmeasured := hchecks.trans (Part.lineChecks_measured hn ha hh hm)
      refine ⟨fun hlist => ?out, fun o h1 h2 ho hlt => ?above, fun price overrider h1 h2 hprice =>
        ⟨fun o ho => ?joins, fun ho => ?opens⟩⟩
      case out => exact exec_addLine_refused h (hmeasured.trans (by rw [linePriceOf_out hlist]; rfl))
      case above => exact exec_addLine_refused h (hmeasured.trans (by rw [ho, linePriceOf_over h1 h2 hlt]; rfl))
      case joins =>
        have hroom := hmeasured.trans (by rw [linePriceOf_ok h1 h2 hprice, ok_bind, Part.roomChecks_active ho])
        refine ⟨fun hfull => ?orderFull, fun hlt hover => ?limit, fun hlt hle => ⟨fun hmode hfull => ?queueFull,
          fun hq => ⟨fun e he => ?journal, fun hok => ?commits⟩⟩⟩
        case orderFull => exact exec_addLine_refused h (hroom.trans (by rw [decide_eq_false (Nat.not_lt.2 hfull)]; rfl))
        case limit =>
          exact exec_addLine_refused h (hroom.trans (by rw [decide_eq_true hlt, decide_eq_false (Nat.not_le.2 hover)]; rfl))
        all_goals rw [decide_eq_true hlt, decide_eq_true hle, check_true, ok_bind, check_true, ok_bind] at hroom
        case queueFull => exact exec_addLine_refused h (hroom.trans (Part.recordChecks_full hmode hfull _))
        case journal => exact exec_addLine_refused h (hroom.trans (by rw [Part.recordChecks_room hq, he]; rfl))
        case commits =>
          rw [Part.recordChecks_room hq, hok] at hroom
          have hkey := keyAddLine_commits hroom ((congrArg (fun q : Part => q.activeOrder st) (Part.withOrder_active ho)).trans ho)
          rw [Part.withOrder_active ho] at hkey
          have hadded := Part.addLine_added (p := s.part.keyTaken st tag) (o := o) (a := a)
            (Part.newLine_label _ st o ⟨a, m, a.priceOf m, price, overrider, o.labelMode⟩)
          rw [Part.newLine_eq] at hkey hadded
          exact ⟨_, State.key_accepted_on h hkey, hadded⟩
      case opens =>
        have hroom := hmeasured.trans (by rw [linePriceOf_ok h1 h2 hprice, ok_bind, Part.roomChecks_new ho])
        refine ⟨fun hfull => ?noSlot, fun hfree hlimit => ?clerkLimit, fun hfree hlimit hle => ⟨fun hmode hfull => ?newQueueFull,
          fun hq => ⟨fun e he => ?newJournal, fun hok hnew => ?newCommits⟩⟩⟩
        case noSlot => exact exec_addLine_refused h (hroom.trans (by rw [Part.checkNewOrder_full hfull]; rfl))
        case clerkLimit =>
          exact exec_addLine_refused h (hroom.trans (by rw [Part.checkNewOrder_free hfree, if_neg (Nat.not_lt.2 hlimit)]; rfl))
        all_goals rw [Part.checkNewOrder_free hfree, if_pos hlimit, decide_eq_true hle, ok_bind, check_true, ok_bind] at hroom
        case newQueueFull => exact exec_addLine_refused h (hroom.trans (Part.recordChecks_full hmode hfull _))
        case newJournal => exact exec_addLine_refused h (hroom.trans (by rw [Part.recordChecks_room hq, he]; rfl))
        case newCommits =>
          rw [Part.recordChecks_room hq, hok] at hroom
          have hkey := keyAddLine_opens hroom ho hfree hnew
          have hadded := Part.addLine_added (p := (s.part.keyTaken st tag).openOrder st operator)
            (o := (s.part.keyTaken st tag).newOrder st operator) (a := a)
            (Part.newLine_label _ st ((s.part.keyTaken st tag).newOrder st operator)
              ⟨a, m, a.priceOf m, price, overrider, ((s.part.keyTaken st tag).config st).labelMode⟩)
          rw [Part.newLine_opened] at hadded
          rw [Part.newLine_eq] at hkey hadded
          exact ⟨_, _, State.key_accepted_on h hkey, Part.openOrder_active hfree hnew, rfl, hadded⟩

end Sys2Proof.Machine
end


-- ==== Sys2Proof/Proofs/OrderStates.lean ====
section
/-! The orders of the pool and their states, and the places of the write queue that close an order: what a change of an order, a
freed slot and an opened order do to them (R89 to R92, R147). -/

namespace Sys2Proof.Machine

/-! ## The orders of a pool -/

theorem mem_orders_update {p q : Part} {n : Nat} {f : Order → Order}
    (h : q.om.orders = p.om.orders.map (fun o => if o.number = n then f o else o)) {x : Order} :
    x ∈ q.om.orders ↔ (x ∈ p.om.orders ∧ x.number ≠ n) ∨ ∃ o ∈ p.om.orders, o.number = n ∧ x = f o := by
  rw [h, List.mem_map]
  constructor
  · rintro ⟨o, ho, rfl⟩
    by_cases hn : o.number = n
    · exact .inr ⟨o, ho, hn, by simp [hn]⟩
    · exact .inl ⟨by simpa [hn] using ho, by simp [hn]⟩
  · rintro (⟨hx, hn⟩ | ⟨o, ho, hn, rfl⟩)
    · exact ⟨x, hx, by simp [hn]⟩
    · exact ⟨o, ho, by simp [hn]⟩

theorem orders_freed (p : Part) (n : Nat) : (p.freeOrder n).om.orders = p.om.orders.filter (fun o => o.number ≠ n) := by
  unfold OrderManager.orders
  rw [p.freeOrder_pool, filterMap_updatePool, ← List.filterMap_eq_filter]
  congr 1
  funext o
  by_cases h : o.number = n <;> simp [h, Option.guard]

theorem orders_placed {o : Order} {pool : List (Option Order)} (h : pool.any Option.isNone = true) :
    List.Perm ((placeOrder o pool).filterMap id) (o :: pool.filterMap id) := by
  induction pool with
  | nil => cases h
  | cons slot rest ih =>
    cases slot with
    | none => exact .refl _
    | some x => exact ((ih h).cons x).trans (.swap o x _)

/-- Orders of different numbers: the order of a number is the one that its number finds. -/
theorem order_eq_of_mem {p : Part} (h : (p.om.orders.map Order.number).Nodup) {x y : Order} (hx : x ∈ p.om.orders)
    (hy : y ∈ p.om.orders) (hn : x.number = y.number) : x = y :=
  List.inj_on_of_nodup_map h hx hy hn

theorem order_mem {p : Part} {n : Nat} {o : Order} (h : p.order n = some o) : o ∈ p.om.orders := lookup_mem h

theorem order_of_mem {p : Part} (h : (p.om.orders.map Order.number).Nodup) {o : Order} (ho : o ∈ p.om.orders) :
    p.order o.number = some o := by
  cases hfind : p.order o.number with
  | none =>
    have := List.find?_eq_none.1 hfind o ho
    simp at this
  | some x => rw [order_eq_of_mem h (order_mem hfind) ho (Part.order_number hfind)]

/-! ## States -/

/-- An order of a number stands in a state. -/
def Part.hasState (p : Part) (n : Nat) (s : OrderState) : Prop := ∃ o ∈ p.om.orders, o.number = n ∧ o.state = s

theorem hasState_unique {p : Part} (h : (p.om.orders.map Order.number).Nodup) {n : Nat} {s s' : OrderState}
    (hs : p.hasState n s) (hs' : p.hasState n s') : s = s' := by
  obtain ⟨x, hx, hxn, rfl⟩ := hs
  obtain ⟨y, hy, hyn, rfl⟩ := hs'
  rw [order_eq_of_mem h hx hy (hxn.trans hyn.symm)]

theorem hasState_update {p q : Part} {n : Nat} {f : Order → Order}
    (h : q.om.orders = p.om.orders.map (fun o => if o.number = n then f o else o)) (hf : ∀ o, (f o).number = o.number)
    {m : Nat} {s : OrderState} (hm : m ≠ n) : q.hasState m s ↔ p.hasState m s := by
  unfold Part.hasState
  simp only [mem_orders_update h]
  constructor
  · rintro ⟨x, (⟨hx, -⟩ | ⟨o, -, hon, rfl⟩), hxm, hs⟩
    · exact ⟨x, hx, hxm, hs⟩
    · exact absurd ((hf o).symm.trans hxm |>.symm.trans hon) hm
  · rintro ⟨x, hx, hxm, hs⟩
    exact ⟨x, .inl ⟨hx, fun e => hm (hxm.symm.trans e)⟩, hxm, hs⟩

/-- A change that leaves numbers and states as they were. -/
theorem hasState_kept {p q : Part} {n : Nat} {f : Order → Order}
    (h : q.om.orders = p.om.orders.map (fun o => if o.number = n then f o else o)) (hf : ∀ o, (f o).number = o.number)
    (hs : ∀ o, (f o).state = o.state) {m : Nat} {s : OrderState} : q.hasState m s ↔ p.hasState m s := by
  by_cases hm : m = n
  · subst hm
    unfold Part.hasState
    simp only [mem_orders_update h]
    constructor
    · rintro ⟨x, (⟨-, hxm⟩ | ⟨o, ho, hon, rfl⟩), hxm', hstate⟩
      · exact absurd hxm' hxm
      · exact ⟨o, ho, hon, (hs o).symm.trans hstate⟩
    · rintro ⟨x, hx, hxm, hstate⟩
      exact ⟨f x, .inr ⟨x, hx, hxm, rfl⟩, (hf x).trans hxm, (hs x).trans hstate⟩
  · exact hasState_update h hf hm

theorem hasState_updated {p q : Part} {n : Nat} {f : Order → Order}
    (h : q.om.orders = p.om.orders.map (fun o => if o.number = n then f o else o)) {s : OrderState} (hs : ∀ o, (f o).state = s) {s' : OrderState} : q.hasState n s' → s' = s := by
  rintro ⟨x, hx, hxn, rfl⟩
  rcases (mem_orders_update h).1 hx with ⟨-, hne⟩ | ⟨o, -, -, rfl⟩
  · exact absurd hxn hne
  · exact hs o

theorem numbers_update {p q : Part} {n : Nat} {f : Order → Order}
    (h : q.om.orders = p.om.orders.map (fun o => if o.number = n then f o else o)) (hf : ∀ o, (f o).number = o.number) :
    q.om.orders.map Order.number = p.om.orders.map Order.number := by
  rw [h, List.map_map]
  refine List.map_congr_left fun o _ => ?_
  by_cases hn : o.number = n <;> simp [hn, hf]

/-! ## Places that close an order -/

/-- The order numbers that the places of a write queue close. -/
def closings (queue : List Place) : List Nat := queue.filterMap Place.closes?

@[simp] theorem closings_append (a b : List Place) : closings (a ++ b) = closings a ++ closings b := List.filterMap_append

theorem closings_plain {r : Record} (h : (Place.filled r).closes? = none) : closings [.filled r] = [] := by
  simp [closings, h]

/-- Each order is closed by one place, and stands in CLOSING: WAITING while the place is held, QUEUED once it is filled. -/
structure Part.Closes (p : Part) (queue : List Place) : Prop where
  once : (closings queue).Nodup
  held : ∀ n k, .held n k ∈ queue → p.hasState n (.closing k .waiting)
  filled : ∀ r n, .filled r ∈ queue → (Place.filled r).closes? = some n → ∃ k, p.hasState n (.closing k .queued)

theorem Part.Closes.sublist {p : Part} {queue rest : List Place} (h : p.Closes queue) (hs : rest.Sublist queue) :
    p.Closes rest :=
  ⟨h.once.sublist (hs.filterMap _), fun n k hm => h.held n k (hs.subset hm), fun r n hm => h.filled r n (hs.subset hm)⟩

theorem Part.Closes.perm {p : Part} {queue rest : List Place} (h : p.Closes queue) (hs : rest.Perm queue) :
    p.Closes rest :=
  ⟨(hs.filterMap _).nodup_iff.2 h.once, fun n k hm => h.held n k (hs.mem_iff.1 hm), fun r n hm => h.filled r n (hs.mem_iff.1 hm)⟩

/-- Only the states of the orders that places close matter. -/
theorem Part.Closes.of_states {p q : Part} {queue : List Place} (h : p.Closes queue)
    (states : ∀ n ∈ closings queue, ∀ s, p.hasState n s → q.hasState n s) : q.Closes queue := by
  refine ⟨h.once, fun n k hm => states n (List.mem_filterMap.2 ⟨_, hm, rfl⟩) _ (h.held n k hm), fun r n hm hr => ?_⟩
  obtain ⟨k, hk⟩ := h.filled r n hm hr
  exact ⟨k, states n (List.mem_filterMap.2 ⟨_, hm, hr⟩) _ hk⟩

/-- An order that a place closes is WAITING or QUEUED. -/
theorem Part.Closes.state {p : Part} {queue : List Place} (h : p.Closes queue) {n : Nat} (hn : n ∈ closings queue) :
    ∃ k, p.hasState n (.closing k .waiting) ∨ p.hasState n (.closing k .queued) := by
  obtain ⟨x, hx, hxn⟩ := List.mem_filterMap.1 hn
  cases x with
  | held m k =>
    cases hxn
    exact ⟨k, .inl (h.held _ k hx)⟩
  | filled r =>
    obtain ⟨k, hk⟩ := h.filled r n hx hxn
    exact ⟨k, .inr hk⟩

/-- A place without a closing record joins. -/
theorem Part.Closes.append_plain {p : Part} {queue : List Place} (h : p.Closes queue) {rs : List Record}
    (plain : ∀ r ∈ rs, (Place.filled r).closes? = none) : p.Closes (queue ++ rs.map .filled) := by
  have hnone : closings (rs.map .filled) = [] := by
    refine List.filterMap_eq_nil_iff.2 fun x hx => ?_
    obtain ⟨r, hr, rfl⟩ := List.mem_map.1 hx
    exact plain r hr
  refine ⟨by rw [closings_append, hnone, List.append_nil]; exact h.once, fun n k hm => ?_, fun r n hm hr => ?_⟩
  · rcases List.mem_append.1 hm with hm | hm
    · exact h.held n k hm
    · obtain ⟨r, -, hr⟩ := List.mem_map.1 hm
      cases hr
  · rcases List.mem_append.1 hm with hm | hm
    · exact h.filled r n hm hr
    · obtain ⟨r', hr', he⟩ := List.mem_map.1 hm
      cases he
      rw [plain r hr'] at hr
      cases hr

/-! ## The write queue -/

/-- The oldest filled place, with the held places before it. -/
theorem firstRecord_split {queue : List Place} {r : Record} (h : firstRecord queue = some r) :
    ∃ before after, queue = before ++ .filled r :: after ∧ dropFirstRecord queue = before ++ after
      ∧ ∀ x ∈ before, ∃ n k, x = .held n k := by
  induction queue with
  | nil => cases h
  | cons x xs ih =>
    cases x with
    | held n k =>
      obtain ⟨before, after, hq, hd, hb⟩ := ih h
      refine ⟨.held n k :: before, after, by rw [hq]; rfl, by rw [dropFirstRecord, hd]; rfl, fun y hy => ?_⟩
      rcases List.mem_cons.1 hy with rfl | hy
      · exact ⟨n, k, rfl⟩
      · exact hb y hy
    | filled q =>
      cases h
      exact ⟨[], xs, rfl, rfl, nofun⟩

theorem dropFirstRecord_sublist (queue : List Place) : (dropFirstRecord queue).Sublist queue := by
  induction queue with
  | nil => exact .slnil
  | cons x xs ih =>
    cases x with
    | held n k => exact ih.cons_cons _
    | filled q => exact List.sublist_cons_self _ _

/-- Taking the record that waits: it joins the queue, or it goes on waiting. -/
theorem Part.promote_places (p : Part) : ∃ rs : List Record, p.promote.tj.queue = p.tj.queue ++ rs.map .filled
    ∧ rs ++ p.promote.tj.waiting.toList = p.tj.waiting.toList := by
  unfold Part.promote
  split
  · exact ⟨[], by simp, rfl⟩
  · rename_i r hr
    split
    · exact ⟨[r], by simp [Part.queueRecord, Part.takePlace, Part.withQueue], by
        simp [Part.queueRecord, Part.takePlace, Part.withQueue, hr]⟩
    · exact ⟨[], by simp, rfl⟩

/-- The record of a request joins the queue, or it is the one that waits from then on. -/
theorem Part.queueOrWait_places (p : Part) (r : Record) :
    ((p.queueOrWait r).tj.queue = p.tj.queue ++ [.filled r] ∧ p.tj.waiting = none ∧ (p.queueOrWait r).tj.waiting = none)
      ∨ ((p.queueOrWait r).tj.queue = p.tj.queue ∧ (p.queueOrWait r).tj.waiting = some r) := by
  unfold Part.queueOrWait
  split
  · rename_i h
    simp only [Part.hasPlace, Bool.and_eq_true, Option.isNone_iff_eq_none] at h
    exact .inl ⟨by simp [Part.queueRecord, Part.takePlace, Part.withQueue], h.1,
      by simp [Part.queueRecord, Part.takePlace, Part.withQueue, h.1]⟩
  · exact .inr ⟨rfl, rfl⟩

@[simp] theorem Part.takePlace_queue (p : Part) (x : Place) : (p.takePlace x).tj.queue = p.tj.queue ++ [x]
    ∧ (p.takePlace x).tj.waiting = p.tj.waiting := ⟨rfl, rfl⟩

@[simp] theorem Part.queueRecord_queue (p : Part) (r : Record) : (p.queueRecord r).tj.queue = p.tj.queue ++ [.filled r]
    ∧ (p.queueRecord r).tj.waiting = p.tj.waiting := ⟨rfl, rfl⟩

/-- A written record leaves its place, which the record that waits can take. -/
theorem Part.finishAppend_places (p : Part) (r : Record) : ∃ rs : List Record,
    (p.finishAppend r).tj.queue = dropFirstRecord p.tj.queue ++ rs.map .filled
    ∧ rs ++ (p.finishAppend r).tj.waiting.toList = p.tj.waiting.toList := by
  have htj : ((p.storeRecord r).reportRetry).tj = p.tj := by simp
  obtain ⟨rs, hq, hw⟩ := Part.promote_places (((p.storeRecord r).reportRetry.withAppend none).withQueue
    (dropFirstRecord (p.storeRecord r).reportRetry.tj.queue) true)
  refine ⟨rs, hq.trans ?_, hw.trans ?_⟩
  · show dropFirstRecord (p.storeRecord r).reportRetry.tj.queue ++ _ = _
    rw [htj]
  · show (p.storeRecord r).reportRetry.tj.waiting.toList = _
    rw [htj]

/-- The held place of an order, if there is one. -/
theorem held_split (n : Nat) (queue : List Place) : (∃ before k after, queue = before ++ .held n k :: after
      ∧ dropHeld n queue = before ++ after ∧ ∀ r, fillHeld n r queue = before ++ .filled r :: after)
    ∨ ((∀ k, .held n k ∉ queue) ∧ dropHeld n queue = queue ∧ ∀ r, fillHeld n r queue = queue) := by
  induction queue with
  | nil => exact .inr ⟨nofun, rfl, fun _ => rfl⟩
  | cons x xs ih =>
    have hcons : ∀ y : Place, (∀ k, y ≠ .held n k) → dropHeld n (y :: xs) = y :: dropHeld n xs →
        (∀ r, fillHeld n r (y :: xs) = y :: fillHeld n r xs) → (∃ before k after, y :: xs = before ++ .held n k :: after
      ∧ dropHeld n (y :: xs) = before ++ after ∧ ∀ r, fillHeld n r (y :: xs) = before ++ .filled r :: after)
    ∨ ((∀ k, .held n k ∉ y :: xs) ∧ dropHeld n (y :: xs) = y :: xs ∧ ∀ r, fillHeld n r (y :: xs) = y :: xs) := by
      intro y hy hd hf
      rcases ih with ⟨before, k, after, hq, hdrop, hfill⟩ | ⟨hnone, hdrop, hfill⟩
      · exact .inl ⟨y :: before, k, after, by rw [hq]; rfl, by rw [hd, hdrop]; rfl, fun r => by rw [hf, hfill]; rfl⟩
      · refine .inr ⟨fun k hk => ?_, by rw [hd, hdrop], fun r => by rw [hf, hfill]⟩
        rcases List.mem_cons.1 hk with hk | hk
        · exact hy k hk.symm
        · exact hnone k hk
    cases x with
    | held m k =>
      by_cases hm : m = n
      · subst hm
        exact .inl ⟨[], k, xs, rfl, by simp [dropHeld], fun r => by simp [fillHeld]⟩
      · exact hcons _ (fun k' e => hm (Place.held.inj e).1) (by simp [dropHeld, hm]) fun r => by simp [fillHeld, hm]
    | filled q => exact hcons _ nofun rfl fun _ => rfl

theorem dropHeld_sublist (n : Nat) (queue : List Place) : (dropHeld n queue).Sublist queue := by
  rcases held_split n queue with ⟨before, k, after, hq, hd, -⟩ | ⟨-, hd, -⟩
  · rw [hd, hq]
    exact (List.sublist_cons_self _ _).append_left before
  · rw [hd]

theorem Part.giveBack_places (p : Part) (n : Nat) : ∃ rs : List Record,
    (p.giveBack n).tj.queue = dropHeld n p.tj.queue ++ rs.map .filled
    ∧ rs ++ (p.giveBack n).tj.waiting.toList = p.tj.waiting.toList :=
  Part.promote_places (p.withQueue (dropHeld n p.tj.queue) (!frontFilled p.tj.queue))

end Sys2Proof.Machine
end


-- ==== Sys2Proof/Proofs/ClosingOrders.lean ====
section
/-! The steps of a close (R95, R106, R107, R110, R121): the order of the pool, the place of its record, its TOTAL job and its
ticket. -/

namespace Sys2Proof.Machine

/-! ## The order of a number -/

section
variable {p : Part} {n : Nat} {o : Order}

theorem updatePool_updatePool {f : Order → Order} {g : Order → Option Order} (hf : ∀ x, (f x).number = x.number)
    (n : Nat) (pool : List (Option Order)) :
    updatePool n g (updatePool n (fun x => some (f x)) pool) = updatePool n (fun x => g (f x)) pool := by
  rw [updatePool, updatePool, List.map_map]
  refine List.map_congr_left fun slot _ => ?_
  cases slot with
  | none => rfl
  | some x =>
    by_cases hx : x.number = n
    · simp [hx, hf]
    · simp [hx]

theorem lookup_updated {f : Order → Order} (hf : ∀ x, (f x).number = x.number) (n : Nat) (l : List Order) :
    lookup Order.number n (l.map (fun x => if x.number = n then f x else x)) = (lookup Order.number n l).map f := by
  induction l with
  | nil => rfl
  | cons x xs ih =>
    rw [lookup] at ih ⊢
    by_cases hx : x.number = n
    · rw [List.map_cons, if_pos hx, List.find?_cons_of_pos (by rw [hf, hx]; exact beq_self_eq_true n), lookup,
        List.find?_cons_of_pos (by rw [hx]; exact beq_self_eq_true n)]
      rfl
    · have hne : (x.number == n) = false := by simpa using hx
      rw [List.map_cons, if_neg hx, List.find?_cons_of_neg (by rw [hne]; decide), ih, lookup, lookup,
        List.find?_cons_of_neg (by rw [hne]; decide)]

/-- The order of a number in a part whose pool has had that order changed. -/
theorem Part.order_of_updated {q : Part} {f : Order → Order} (hf : ∀ x, (f x).number = x.number)
    (hq : q.om.pool = updatePool n (fun x => some (f x)) p.om.pool) : q.order n = (p.order n).map f := by
  rw [Part.order, OrderManager.orders, hq, filterMap_updatePool_some]
  exact lookup_updated hf n _

theorem Part.order_of_freed {q : Part} (hq : q.om.pool = updatePool n (fun _ => none) p.om.pool) : q.order n = none := by
  refine (lookup_eq_none_iff _ _ _).2 fun x hx he => ?_
  rw [OrderManager.orders, hq, filterMap_updatePool] at hx
  obtain ⟨y, -, hy⟩ := List.mem_filterMap.1 hx
  by_cases hn : y.number = n
  · rw [if_pos hn] at hy
    cases hy
  · rw [if_neg hn] at hy
    cases hy
    exact hn he

theorem Part.activeOrder_some {st : StationNo} (h : p.activeOrder st = some o) :
    p.om.active.get st = some o.number ∧ p.order o.number = some o := by
  obtain ⟨m, hm, ho⟩ := Option.bind_eq_some_iff.1 h
  rw [Part.order_number ho]
  exact ⟨hm, ho⟩

/-- A reference to an order is gone once the order is bound to no station. -/
theorem Part.unbind_active {st : StationNo} (h : p.om.active.get st = some n) : (p.unbind n).om.active.get st = none := by
  refine (PerStation.get_map _ _ st).trans ?_
  rw [h, if_pos rfl]

end

/-! ## The order's ticket (R120, R121) -/

section
variable {p : Part} {ticket : Option Nat}

theorem Part.endNoSale_none : p.endNoSale none = p := rfl

theorem Part.servingTicket_split {before after : List ServingTicket} {t : ServingTicket}
    (hs : p.tc.serving = before ++ t :: after) (hb : ∀ x ∈ before, x.ticket.number ≠ t.ticket.number) :
    p.servingTicket t.ticket.number = some t
    ∧ removeFirst (fun x => x.ticket.number == t.ticket.number) p.tc.serving = before ++ after := by
  have htest : ∀ x ∈ before, (x.ticket.number == t.ticket.number) = false := fun x hx => by simpa using hb x hx
  rw [Part.servingTicket, hs]
  exact ⟨find?_split htest (beq_self_eq_true _), removeFirst_split htest (beq_self_eq_true _)⟩

/-- The outcome NO_SALE of an order's ticket, in any part with that TC. -/
theorem Part.endNoSale_ends {q : Part} (hq : q.tc = (p.endNoSale ticket).tc) : p.EndsNoSale q ticket where
  without ht := by
    subst ht
    exact hq
  left before t after ht hs hb := by
    subst ht
    obtain ⟨hfind, hdrop⟩ := Part.servingTicket_split hs hb
    rw [hq, Part.endNoSale, Option.bind_some, hfind]
    exact congrArg (fun l => { p.tc with
      serving := l
      figures := { p.tc.figures with noSale := min 65535 (p.tc.figures.noSale + 1) } }) hdrop

theorem Part.endServed_ends {q : Part} (hq : q.tc = (p.endServed ticket).tc) : p.EndsServed q ticket where
  without ht := by
    subst ht
    exact hq
  left before t after ht hs hb := by
    subst ht
    obtain ⟨hfind, hdrop⟩ := Part.servingTicket_split hs hb
    rw [hq, Part.endServed, Option.bind_some, hfind]
    exact congrArg (fun l => { p.tc with
      serving := l
      figures := { p.tc.figures with
        served := min 65535 (p.tc.figures.served + 1)
        servedWithWait := min 65535 (p.tc.figures.servedWithWait + 1)
        waitSum := min 4294967295
          (p.tc.figures.waitSum + min 65535 (t.callTime.seconds - t.ticket.issued.seconds)) } }) hdrop

/-- The end of a ticket depends on TC alone. -/
theorem Part.endNoSale_tc {a : Part} (h : a.tc = p.tc) : (a.endNoSale ticket).tc = (p.endNoSale ticket).tc := by
  have hserving : a.servingTicket = p.servingTicket := funext fun n => by rw [Part.servingTicket, h, Part.servingTicket]
  unfold Part.endNoSale
  rw [hserving]
  split
  · exact h
  · simp only [Part.onFigures, Part.dropServing, h]

theorem Part.endServed_tc {a : Part} (h : a.tc = p.tc) : (a.endServed ticket).tc = (p.endServed ticket).tc := by
  have hserving : a.servingTicket = p.servingTicket := funext fun n => by rw [Part.servingTicket, h, Part.servingTicket]
  unfold Part.endServed
  rw [hserving]
  split
  · exact h
  · simp only [Part.onFigures, Part.dropServing, h]

theorem Part.waitOf_tc {a : Part} (h : a.tc = p.tc) : a.waitOf ticket = p.waitOf ticket := by
  have hserving : a.servingTicket = p.servingTicket := funext fun n => by rw [Part.servingTicket, h, Part.servingTicket]
  rw [Part.waitOf, hserving, Part.waitOf]

end

/-! ## The place of the record (R147, R154) -/

/-- A place held for an order, none held before it, takes its record. -/
theorem fillHeld_split {n : Nat} {r : Record} {k : CloseKind} {before behind : List Place} (h : ∀ x, Place.held n x ∉ before) :
    fillHeld n r (before ++ .held n k :: behind) = before ++ .filled r :: behind := by
  induction before with
  | nil => exact if_pos rfl
  | cons x xs ih =>
    have hxs := ih fun k hk => h k (List.mem_cons_of_mem _ hk)
    cases x with
    | held m j =>
      have hm : m ≠ n := fun he => h j (he ▸ List.mem_cons_self)
      exact (if_neg hm).trans (congrArg (Place.held m j :: ·) hxs)
    | filled y => exact congrArg (Place.filled y :: ·) hxs

/-- A place taken to be held, and filled at once, is a place taken filled. -/
theorem Part.fillPlace_taken {p a : Part} {n : Nat} {k : CloseKind} {r : Record} (h : ∀ x, Place.held n x ∉ p.tj.queue)
    (ha : a.tj = p.tj.taking (.held n k)) : (a.fillPlace n r).tj = p.tj.taking (.filled r) := by
  have hqueue : a.tj.queue = p.tj.queue ++ [.held n k] := by rw [ha]; rfl
  have hfill : fillHeld n r a.tj.queue = p.tj.queue ++ [.filled r] := by rw [hqueue, fillHeld_split h]
  rw [Part.fillPlace, hfill, Part.withQueue, hqueue, ha]
  cases hq : p.tj.queue with
  | nil => simp [Journal.taking, hq, frontFilled, suspendedBy]
  | cons x xs => cases x <;> simp [Journal.taking, hq, frontFilled]

/-! ## A close that is judged -/

section
variable {p : Part} {n : Nat} {o : Order} {kind : CloseKind}

theorem Part.settleClosing_pending (ho : p.order n = some o) (h : o.hasPending = true) : p.settleClosing n = p := by
  unfold Part.settleClosing
  rw [ho]
  dsimp only
  split
  · exact if_pos h
  · rfl

theorem Part.settleClosing_other (ho : p.order n = some o) (h : ∀ kind, o.state ≠ .closing kind .waiting) :
    p.settleClosing n = p := by
  unfold Part.settleClosing
  rw [ho]
  dsimp only
  split
  · next k hk => exact absurd hk (h k)
  · rfl

theorem Part.settleClosing_ends (ho : p.order n = some o) (hs : o.state = .closing kind .waiting) (hp : o.hasPending = false)
    (hn : o.nothingToClose kind = true) : p.settleClosing n = p.endEmptyClose o := by
  simp only [Part.settleClosing, ho, hs, hp, hn, if_true]
  rfl

theorem Part.settleClosing_forms (ho : p.order n = some o) (hs : o.state = .closing kind .waiting)
    (hp : o.hasPending = false) (hn : o.nothingToClose kind = false) : p.settleClosing n = p.formClosing o kind := by
  simp only [Part.settleClosing, ho, hs, hp, hn]
  rfl

/-- The part in which the record of a close waits for its lines. -/
def Part.closeWaits (p : Part) (n : Nat) (kind : CloseKind) : Part :=
  ((p.setClosing n kind .waiting).unbind n).takePlace (.held n kind)

theorem Part.closeWaits_order (ho : p.order n = some o) (kind : CloseKind) :
    (p.closeWaits n kind).order n = some { o with state := .closing kind .waiting } := by
  refine (Part.order_of_updated (p := p) (f := fun x => { x with state := .closing kind .waiting }) (fun _ => rfl) rfl).trans ?_
  rw [ho]
  rfl

theorem Part.closeWaits_tj (p : Part) (n : Nat) (kind : CloseKind) : (p.closeWaits n kind).tj = p.tj.taking (.held n kind) :=
  Part.takePlace_tj _ _

theorem Part.beginClosing_waits (ho : p.order n = some o) (h : o.hasPending = true) :
    p.beginClosing n kind = p.closeWaits n kind :=
  Part.settleClosing_pending (p := p.closeWaits n kind) (Part.closeWaits_order ho kind) h

/-- A close without a PENDING line, outside FAULT: its record takes its place at once. -/
theorem Part.beginClosing_forms (ho : p.order n = some o) (h : o.hasPending = false) (hn : o.nothingToClose kind = false)
    (hf : p.tj.fault = false) : p.beginClosing n kind
      = ((((p.closeWaits n kind).completed { o with state := .closing kind .waiting } kind).fillPlace n
          ((p.closeWaits n kind).closingRecord o kind)).setClosing n kind .queued) := by
  obtain rfl := Part.order_number ho
  have hfault : (p.closeWaits o.number kind).tj.fault = false := by rw [Part.closeWaits_tj]; exact hf
  refine (Part.settleClosing_forms (p := p.closeWaits o.number kind) (Part.closeWaits_order ho kind) rfl h hn).trans ?_
  rw [Part.formClosing_eq, if_neg (by rw [hfault]; decide)]
  cases kind <;> rfl

end

end Sys2Proof.Machine
end


-- ==== Sys2Proof/Proofs/CloseOrder.lean ====
section
/-! CLOSE ORDER and VOID ORDER (R106, R107, R109, R110): their checks, and the part that a close leaves. -/

namespace Sys2Proof.Machine

/-! ## The part after a close has begun -/

section
variable {p : Part} {n : Nat} {o : Order} {kind : CloseKind}

/-- The part in which the record of a close has been formed, from the part in which it waited. -/
theorem Part.formed_parts (a : Part) (o : Order) (n : Nat) (kind : CloseKind) (r : Record) :
    let q := ((a.completed o kind).fillPlace n r).setClosing n kind .queued
    q.om = { a.om with pool := updatePool n (fun x => some { x with state := .closing kind .queued }) a.om.pool }
    ∧ q.tj = (a.fillPlace n r).tj ∧ q.lu = (a.completed o kind).lu ∧ q.nv = a.nv ∧ q.wc = a.wc ∧ q.art = a.art
    ∧ q.oc = a.oc ∧ q.tc = a.tc ∧ q.tt = a.tt ∧ q.cc = a.cc ∧ q.time = a.time ∧ q.ml = a.ml := by
  cases kind with
  | void => exact ⟨rfl, rfl, rfl, rfl, rfl, rfl, rfl, rfl, rfl, rfl, rfl, rfl⟩
  | sale =>
    simp only [Part.completed, Part.onTotalJob]
    cases o.totalLabel <;> exact ⟨rfl, rfl, rfl, rfl, rfl, rfl, rfl, rfl, rfl, rfl, rfl, rfl⟩

/-- The TOTAL job of a close is completed from LU, the moment and AT alone. -/
theorem Part.completed_lu {a : Part} (hlu : a.lu = p.lu) (htime : a.time = p.time) (hart : a.art = p.art) (o : Order)
    (kind : CloseKind) : (a.completed o kind).lu = (p.completed o kind).lu := by
  cases kind with
  | void => exact hlu
  | sale =>
    simp only [Part.completed, Part.onTotalJob]
    cases o.totalLabel with
    | none => exact hlu
    | some k => simp only [Part.completeTotal, Part.onLabels, Part.stamp, hlu, htime, hart]

/-- A close of an order with something to record, outside FAULT: the order, the place of its record and its TOTAL job. -/
theorem Part.beginClosing_closes (ho : p.order n = some o) (hn : o.nothingToClose kind = false) (hf : p.tj.fault = false)
    (hnot : ∀ x, Place.held n x ∉ p.tj.queue) :
    let q := p.beginClosing n kind
    let state : OrderState := .closing kind (if o.hasPending then .waiting else .queued)
    q.om = { p.om with
      pool := updatePool n (fun x => some { x with state := state }) p.om.pool
      active := p.om.active.map (fun a => if a = some n then none else a) }
    ∧ q.tj = p.tj.taking (if o.hasPending then .held n kind else .filled (p.closingRecord o kind))
    ∧ q.lu = (if o.hasPending then p.lu else (p.completed o kind).lu)
    ∧ q.nv = p.nv ∧ q.wc = p.wc ∧ q.art = p.art ∧ q.oc = p.oc ∧ q.tc = p.tc ∧ q.tt = p.tt ∧ q.cc = p.cc
    ∧ q.time = p.time ∧ q.ml = p.ml := by
  have hwaits := p.closeWaits_tj n kind
  cases hp : o.hasPending with
  | true =>
    rw [Part.beginClosing_waits ho hp]
    exact ⟨rfl, hwaits, rfl, rfl, rfl, rfl, rfl, rfl, rfl, rfl, rfl, rfl⟩
  | false =>
    rw [Part.beginClosing_forms ho hp hn hf]
    obtain ⟨hom, htj, hlu, hrest⟩ := (p.closeWaits n kind).formed_parts { o with state := .closing kind .waiting } n kind
      ((p.closeWaits n kind).closingRecord o kind)
    have hrecord : (p.closeWaits n kind).closingRecord o kind = p.closingRecord o kind := by cases kind <;> rfl
    have hpool := updatePool_updatePool (f := fun x => { x with state := .closing kind .waiting })
      (g := fun x => some { x with state := .closing kind .queued }) (fun _ => rfl) n p.om.pool
    refine ⟨hom.trans ?_, htj.trans ((Part.fillPlace_taken hnot hwaits).trans (by rw [hrecord]; rfl)), hlu.trans ?_, hrest⟩
    · exact congrArg (fun l => { p.om with
        pool := l
        active := p.om.active.map (fun a => if a = some n then none else a) }) hpool
    · refine (Part.completed_lu (p := p) (a := p.closeWaits n kind) rfl rfl rfl { o with state := .closing kind .waiting }
        kind).trans ?_
      cases kind <;> rfl

end

/-! ## VOID ORDER -/

section
variable {p : Part} {n : Nat} {o : Order} {st : StationNo}

theorem Part.active_unbound {q : Part} (hq : q.om.active = p.om.active.map (fun a => if a = some n then none else a))
    (h : p.om.active.get st = some n) : q.om.active.get st = none := by
  rw [hq, PerStation.get_map, h, if_pos rfl]

/-- A void close of an order without lines: it is FREE at once. -/
theorem Part.voidOrder_freed (h : o.lines = []) : ∃ q, p.voidOrder o = .ok q ∧ p.Voided q o ∧ q.oc = p.oc := by
  have htest : o.lines.isEmpty = true := by rw [h]; rfl
  obtain ⟨hnv, -, htime, hwc, hart, hoc, hom, hlu, htj, htt, hcc, hml⟩ := (p.freeOrder o.number).endNoSale_frame o.ticket
  refine ⟨_, if_pos htest, ?_, hoc⟩
  exact {
    unbound := fun st hst => by
      rw [hom]
      exact Part.unbind_active hst
    outcome := fun _ => Part.endNoSale_ends (Part.endNoSale_tc rfl)
    freed := fun _ => ⟨by rw [hom]; rfl, htj⟩
    waiting := fun hlines => absurd h hlines
    queued := fun hlines => absurd h hlines
    labels := hlu
    rest := ⟨hnv, hwc, hart, htt, hcc, htime, hml⟩ }

/-- A void close of an order with lines, which the journal admits: its record takes a place. -/
theorem Part.voidOrder_closes (ho : p.order o.number = some o) (h : o.lines ≠ []) (hj : p.journalCheck 32 1 = .ok ())
    (hnot : ∀ k, Place.held o.number k ∉ p.tj.queue) : ∃ q, p.voidOrder o = .ok q ∧ p.Voided q o ∧ q.oc = p.oc := by
  have htest : o.lines.isEmpty = false := by simpa using h
  have hvoid : p.voidOrder o = .ok (p.beginClosing o.number .void) := by
    rw [Part.voidOrder, htest, show p.journalCheck (closingLength .void) sharedReserve = .ok () from hj]
    rfl
  obtain ⟨hom, htj, hlu, hnv, hwc, hart, hoc, htc, htt, hcc, htime, hml⟩ :=
    Part.beginClosing_closes (kind := .void) ho htest (Part.journalCheck_ok.1 hj).1 hnot
  refine ⟨_, hvoid, ?_, hoc⟩
  exact {
    unbound := fun st hst => Part.active_unbound (by rw [hom]) hst
    outcome := fun hlines => absurd hlines h
    freed := fun hlines => absurd hlines h
    waiting := fun _ hp => ⟨by rw [hom, hp]; rfl, by rw [htj, hp]; rfl, htc⟩
    queued := fun _ hp => ⟨by rw [hom, hp]; rfl, by rw [htj, hp]; rfl, htc⟩
    labels := hlu.trans (ite_self _)
    rest := ⟨hnv, hwc, hart, htt, hcc, htime, hml⟩ }

theorem Part.voidOrder_voided (ho : p.order o.number = some o)
    (hj : o.lines = [] ∨ p.journalCheck 32 1 = .ok () ∧ ∀ k, Place.held o.number k ∉ p.tj.queue) :
    ∃ q, p.voidOrder o = .ok q ∧ p.Voided q o ∧ q.oc = p.oc := by
  by_cases h : o.lines = []
  · exact Part.voidOrder_freed h
  · obtain ⟨hok, hnot⟩ := hj.resolve_left h
    exact Part.voidOrder_closes ho h hok hnot

theorem Part.voidOrder_refused {e : Reason} (h : o.lines ≠ []) (he : p.journalCheck 32 1 = .error e) :
    p.voidOrder o = .error e := by
  have htest : o.lines.isEmpty = false := by simpa using h
  rw [Part.voidOrder, htest, show p.journalCheck (closingLength .void) sharedReserve = .error e from he]
  rfl

/-- What a void close leaves does not depend on the operators. -/
theorem Part.Voided.withOperators {q : Part} (h : p.Voided q o) (oc : OperatorControl) : p.Voided { q with oc := oc } o :=
  ⟨h.unbound, fun hl => ⟨(h.outcome hl).without, (h.outcome hl).left⟩, h.freed, h.waiting, h.queued, h.labels, h.rest⟩

/-- The order that VOID ORDER acts on at a station: its active order, or a PARKED order of a number. -/
theorem Part.orderToVoid_ok {named : Option Nat} (h : named = none ∧ p.activeOrder st = some o
      ∨ ∃ n, named = some n ∧ p.order n = some o ∧ o.state = .parked) :
    p.orderToVoid st named = .ok o ∧ p.order o.number = some o := by
  rcases h with ⟨rfl, ho⟩ | ⟨n, rfl, ho, hs⟩
  · exact ⟨by simp [Part.orderToVoid, ho], (Part.activeOrder_some ho).2⟩
  · exact ⟨by simp [Part.orderToVoid, ho, hs], by rw [Part.order_number ho]; exact ho⟩

theorem keyVoidOrder_refused {named : Option Nat} {e : Reason} (hd : p.orderToVoid st named = .ok o)
    (he : p.voidOrder o = .error e) : keyVoidOrder st named p = .error e := by
  rw [keyVoidOrder, hd, ok_bind, he, error_bind]

theorem keyVoidOrder_voids {named : Option Nat} {q : Part} (hd : p.orderToVoid st named = .ok o)
    (hq : p.voidOrder o = .ok q) : keyVoidOrder st named p = .ok (q, orderResult o.number o.total) := by
  rw [keyVoidOrder, hd, ok_bind, hq, ok_bind]
  rfl

theorem Part.hostVoid_parked (h1 : 1 ≤ n) (h2 : n ≤ 9999) (ho : p.order n = some o) (hs : o.state = .parked) :
    p.hostVoid n = (do
      let q ← p.voidOrder o
      return (q, o.total)) := by
  simp [Part.hostVoid, within_true.2 ⟨h1, h2⟩, ho, hs]

theorem serveVoidOrder_refused {e : Reason} (h : p.hostVoid n = .error e) : serveVoidOrder n p = (p, .refuse e) := by
  simp only [serveVoidOrder, h]

end

/-- An accepted VOID ORDER at a station under a supervisor. -/
theorem exec_voidOrder_voids {s : State} {st : StationNo} {tag operator supervisor : Nat} {o : Order} {named : Option Nat}
    (h : s.takesKeyOf st tag operator) (hsup : (s.part.keyTaken st tag).supervisor st = some supervisor)
    (hd : named = none ∧ (s.part.keyTaken st tag).activeOrder st = some o
      ∨ ∃ n, named = some n ∧ (s.part.keyTaken st tag).order n = some o ∧ o.state = .parked)
    (hj : o.lines = [] ∨ (s.part.keyTaken st tag).journalCheck 32 1 = .ok ()
      ∧ ∀ k, Place.held o.number k ∉ (s.part.keyTaken st tag).tj.queue) :
    ∃ q, exec (.voidOrder st tag named) s
        = .next (s.outcome q st tag (.accepted ⟨some o.number, none, none, some o.total, none, none⟩))
      ∧ (s.part.keyTaken st tag).Voided q o
      ∧ q.oc = { (s.part.keyTaken st tag).oc with
          stack := (s.part.keyTaken st tag).oc.stack.set st (.signedOn operator) } := by
  obtain ⟨hto, horder⟩ := Part.orderToVoid_ok hd
  obtain ⟨q, hq, hvoided, hoc⟩ := Part.voidOrder_voided horder hj
  have hserve := Part.privileged_ok (serve := fun _ => keyVoidOrder st named) hsup (keyVoidOrder_voids hto hq)
  rw [Part.endOverride_of_operator hoc h.2] at hserve
  exact ⟨_, State.key_accepted_on h hserve, hvoided.withOperators _, rfl⟩

/-- A refused VOID ORDER at a station under a supervisor. -/
theorem exec_voidOrder_refused {s : State} {st : StationNo} {tag operator supervisor : Nat} {named : Option Nat} {e : Reason}
    (h : s.takesKeyOf st tag operator) (hsup : (s.part.keyTaken st tag).supervisor st = some supervisor)
    (he : keyVoidOrder st named (s.part.keyTaken st tag) = .error e) :
    exec (.voidOrder st tag named) s = .next (s.outcome (s.part.keyTaken st tag) st tag (.refused e)) :=
  State.key_refused_on h (Part.privileged_error (serve := fun _ => keyVoidOrder st named) hsup he)

/-- Settles O31: the order that VOID ORDER acts on, and its void close by `Part.voidOrder_voided`. -/
theorem voidOrderQueuesItsRecord : Obligations.VoidOrderQueuesItsRecord := by
  intro s st tag operator supervisor n o
  refine ⟨fun h hsup => ⟨fun ho hj => ?active, fun e hl he => ⟨fun ho => ?activeRefused, fun ho hs => ?namedRefused⟩,
      fun ha => ?noOrder, fun ho => ?noSuch, fun ho hs => ?unparked, fun ho hs hj => ?named⟩,
    fun h hsup named => ?notAllowed, fun req hreq hs hn => ?badValue, fun req hreq hs h1 h2 => ⟨fun ho => ?hostNoSuch,
      fun ho hst => ?hostUnparked, fun e ho hst hl he => ?hostRefused, fun ho hst hj => ?hostVoids⟩⟩
  case active => exact exec_voidOrder_voids h hsup (.inl ⟨rfl, ho⟩) hj
  case activeRefused =>
    exact exec_voidOrder_refused h hsup (keyVoidOrder_refused (Part.orderToVoid_ok (.inl ⟨rfl, ho⟩)).1
      (Part.voidOrder_refused hl he))
  case namedRefused =>
    exact exec_voidOrder_refused h hsup (keyVoidOrder_refused (Part.orderToVoid_ok (.inr ⟨n, rfl, ho, hs⟩)).1
      (Part.voidOrder_refused hl he))
  case noOrder =>
    exact exec_voidOrder_refused h hsup (by simp [keyVoidOrder, Part.orderToVoid, Part.activeOrder_none ha])
  case noSuch => exact exec_voidOrder_refused h hsup (by simp [keyVoidOrder, Part.orderToVoid, ho])
  case unparked => exact exec_voidOrder_refused h hsup (by simp [keyVoidOrder, Part.orderToVoid, ho, hs])
  case named => exact exec_voidOrder_voids h hsup (.inr ⟨n, rfl, ho, hs⟩) hj
  case notAllowed => exact State.key_refused_on h (Part.privileged_refused (fun _ => keyVoidOrder st named) hsup)
  all_goals subst hreq
  case badValue =>
    exact State.serve_now hs (serveVoidOrder_refused (by
      simp [Part.hostVoid, within_false.2 (show n < 1 ∨ 9999 < n by omega)]))
  case hostNoSuch =>
    exact State.serve_now hs (serveVoidOrder_refused (by simp [Part.hostVoid, within_true.2 ⟨h1, h2⟩, ho]))
  case hostUnparked =>
    exact State.serve_now hs (serveVoidOrder_refused (by simp [Part.hostVoid, within_true.2 ⟨h1, h2⟩, ho, hst]))
  case hostRefused =>
    exact State.serve_now hs (serveVoidOrder_refused ((Part.hostVoid_parked h1 h2 ho hst).trans
      (by rw [Part.voidOrder_refused hl he]; rfl)))
  case hostVoids =>
    have horder : s.part.taken.order o.number = some o := by rw [Part.order_number ho]; exact ho
    obtain ⟨q, hq, hvoided, hoc⟩ := Part.voidOrder_voided horder hj
    have hhost := (Part.hostVoid_parked h1 h2 ho hst).trans (by rw [hq, ok_bind])
    exact ⟨q, State.serve_now hs (by simp only [serveVoidOrder, hhost]; rfl), hvoided, hoc⟩

/-! ## CLOSE ORDER -/

section
variable {p : Part} {o : Order} {st : StationNo}

/-- Changing the first element of a kind leaves each element as it was or changed. -/
theorem changeFirst_image {α : Type} {test : α → Bool} {f : α → α} {l : List α} {x : α} (h : x ∈ l) :
    ∃ y ∈ changeFirst test f l, y = x ∨ y = f x := by
  induction l with
  | nil => cases h
  | cons z zs ih =>
    rw [changeFirst]
    rcases List.mem_cons.1 h with rfl | h
    · split
      · exact ⟨f x, List.mem_cons_self, .inr rfl⟩
      · exact ⟨x, List.mem_cons_self, .inl rfl⟩
    · split
      · exact ⟨x, List.mem_cons_of_mem _ h, .inl rfl⟩
      · obtain ⟨y, hy, hyx⟩ := ih h
        exact ⟨y, List.mem_cons_of_mem _ hy, hyx⟩

/-- Two jobs that differ in no more than the content of their label. -/
def Job.SameJob (x j : Job) : Prop :=
  x.kind = j.kind ∧ x.label = j.label ∧ x.target = j.target ∧ x.released = j.released ∧ x.atPrinter = j.atPrinter

/-- Forming the record of a close keeps every job, but for the content of one. -/
theorem Part.completed_jobs (p : Part) (o : Order) {j : Job} (h : j ∈ p.lu.queue) :
    ∃ x ∈ (p.completed o .sale).lu.queue, x.SameJob j := by
  simp only [Part.completed, Part.onTotalJob]
  cases o.totalLabel with
  | none => exact ⟨j, h, rfl, rfl, rfl, rfl, rfl⟩
  | some k =>
    obtain ⟨x, hx, hxj⟩ := changeFirst_image (test := Job.isHeld .total k) (f := fun j =>
      { j with content := j.content.complete p.stamp p.art.totalPrefix o.activeLines.length o.total }) h
    refine ⟨x, hx, ?_⟩
    rcases hxj with rfl | rfl <;> exact ⟨rfl, rfl, rfl, rfl, rfl⟩

theorem Part.completed_lastLabel (p : Part) (o : Order) : (p.completed o .sale).lu.lastLabel = p.lu.lastLabel := by
  simp only [Part.completed, Part.onTotalJob]
  cases o.totalLabel <;> rfl

theorem makesTotal_iff (mode : LabelMode) : makesTotal mode = true ↔ mode ≠ .item := by
  cases mode <;> decide

/-- The order of a sale close, once its label has been made. -/
def Part.labelled (p : Part) (o : Order) : Order :=
  { o with totalLabel := (if o.labelMode = .item then none else some p.lu.nextLabel).or o.totalLabel }

theorem Part.makeTotalLabel_item (h : o.labelMode = .item) : p.makeTotalLabel st o = p := by
  rw [Part.makeTotalLabel, h]
  rfl

theorem Part.makeTotalLabel_om (h : o.labelMode ≠ .item) : (p.makeTotalLabel st o).om = { p.om with
    pool := updatePool o.number (fun x => some { x with totalLabel := some p.lu.nextLabel }) p.om.pool } := by
  rw [Part.makeTotalLabel, if_pos ((makesTotal_iff _).2 h)]
  exact (Part.addJob_parts _ _ _ _ _).2.2.2.2.2.1

theorem Part.makeTotalLabel_order (ho : p.order o.number = some o) :
    (p.makeTotalLabel st o).order o.number = some (p.labelled o) := by
  by_cases h : o.labelMode = .item
  · rw [Part.makeTotalLabel_item h, ho, Part.labelled, if_pos h]
    rfl
  · rw [Part.order_of_updated (p := p) (f := fun x => { x with totalLabel := some p.lu.nextLabel }) (fun _ => rfl)
      (by rw [Part.makeTotalLabel_om h]), ho, Part.labelled, if_neg h]
    rfl

theorem Part.makeTotalLabel_active (p : Part) (st : StationNo) (o : Order) :
    (p.makeTotalLabel st o).om.active = p.om.active := by
  by_cases h : o.labelMode = .item
  · rw [Part.makeTotalLabel_item h]
  · rw [Part.makeTotalLabel_om h]

/-- The checks of CLOSE ORDER on an order with a line to record. -/
theorem keyCloseOrder_checked (ho : p.activeOrder st = some o) (h : o.activeLines ≠ []) : keyCloseOrder st p = (do
    check (!makesTotal o.labelMode || p.printRoom) .queueFull
    p.journalCheck 40 2
    return ((p.makeTotalLabel st o).beginClosing o.number .sale, orderResult o.number o.total)) := by
  have htest : o.activeLines.isEmpty = false := by simpa using h
  simp only [keyCloseOrder, ho, need_some, ok_bind, htest]
  rfl

theorem keyCloseOrder_room (ho : p.activeOrder st = some o) (h : o.activeLines ≠ [])
    (hroom : o.labelMode = .item ∨ p.lu.queue.length < 32) : keyCloseOrder st p = (do
      p.journalCheck 40 2
      return ((p.makeTotalLabel st o).beginClosing o.number .sale, orderResult o.number o.total)) := by
  have htest : (!makesTotal o.labelMode || p.printRoom) = true := by
    rcases hroom with hroom | hroom
    · rw [hroom]; rfl
    · rw [(p.printRoom_iff).2 hroom, Bool.or_true]
  rw [keyCloseOrder_checked ho h, htest, check_true, ok_bind]

/-- The content of a label that the sale close makes, completed when no line is PENDING. -/
def Part.totalContent (p : Part) (o : Order) (st : StationNo) : LabelContent :=
  if o.hasPending then totalDraft p.lu.nextLabel o.number o.owner o.ticket st
  else (totalDraft p.lu.nextLabel o.number o.owner o.ticket st).complete p.stamp p.art.totalPrefix o.activeLines.length o.total

end

section
variable {p : Part} {o : Order} {st : StationNo}

/-- The print queue after a sale close whose mode makes a TOTAL label, of a number that no TOTAL job carries. -/
theorem Part.closed_queue (hm : o.labelMode ≠ .item) (hfresh : ∀ j ∈ p.lu.queue, j.kind = .total → j.label ≠ p.lu.nextLabel) :
    (if o.hasPending then (p.makeTotalLabel st o).lu else ((p.makeTotalLabel st o).completed (p.labelled o) .sale).lu)
      = { p.lu with
          lastLabel := p.lu.nextLabel
          queue := p.lu.queue ++ [⟨.total, p.lu.nextLabel, (p.config st).printer, false, false, p.totalContent o st⟩] } := by
  have hlu := p.makeTotalLabel_jobs st o ((makesTotal_iff _).2 hm)
  obtain ⟨-, -, htime, -, hart, -⟩ := p.makeTotalLabel_frame st o
  cases hp : o.hasPending with
  | true =>
    rw [if_pos rfl, hlu, Part.totalContent, hp]
    rfl
  | false =>
    have hlabel : (p.labelled o).totalLabel = some p.lu.nextLabel := by rw [Part.labelled, if_neg hm]; rfl
    have hnot : ∀ j ∈ p.lu.queue, Job.isHeld .total p.lu.nextLabel j = false := fun j hj => by
      by_cases hk : j.kind = .total
      · simp [Job.isHeld, hfresh j hj hk]
      · simp [Job.isHeld, hk]
    rw [if_neg (by decide)]
    simp only [Part.completed, Part.onTotalJob, hlabel, Part.completeTotal, Part.onLabels, hlu]
    rw [changeFirst_split _ hnot (by simp [Job.isHeld]), Part.totalContent, hp, Part.stamp, htime, hart]
    rfl

end

section
variable {p : Part} {o : Order} {st : StationNo}

/-- The jobs of the print queue after the TOTAL label of a close has been made and its record, where no line is PENDING,
formed. -/
theorem Part.closed_jobs (p : Part) (o : Order) (st : StationNo) :
    let lu := if o.hasPending then (p.makeTotalLabel st o).lu else ((p.makeTotalLabel st o).completed (p.labelled o) .sale).lu
    (∀ j ∈ p.lu.queue, ∃ x ∈ lu.queue, x.SameJob j)
    ∧ (o.labelMode ≠ .item → lu.lastLabel = p.lu.nextLabel ∧ ∃ x ∈ lu.queue, x.kind = .total ∧ x.label = p.lu.nextLabel
        ∧ x.target = (p.config st).printer ∧ x.released = false)
    ∧ (o.labelMode = .item → o.totalLabel = none → lu = p.lu) := by
  have hkept : ∀ j ∈ (p.makeTotalLabel st o).lu.queue, ∃ x ∈ (if o.hasPending then (p.makeTotalLabel st o).lu
      else ((p.makeTotalLabel st o).completed (p.labelled o) .sale).lu).queue, x.SameJob j := fun j hj => by
    split
    · exact ⟨j, hj, rfl, rfl, rfl, rfl, rfl⟩
    · exact Part.completed_jobs _ _ hj
  refine ⟨fun j hj => ?_, fun hm => ⟨?_, ?_⟩, fun hm hnone => ?_⟩
  · by_cases hm : o.labelMode = .item
    · exact hkept j (by rw [Part.makeTotalLabel_item hm]; exact hj)
    · exact hkept j (by rw [p.makeTotalLabel_jobs st o ((makesTotal_iff _).2 hm)]; exact List.mem_append_left _ hj)
  · split
    · rw [p.makeTotalLabel_jobs st o ((makesTotal_iff _).2 hm)]
    · rw [Part.completed_lastLabel, p.makeTotalLabel_jobs st o ((makesTotal_iff _).2 hm)]
  · obtain ⟨x, hx, hk, hl, ht, hr, -⟩ := hkept ⟨.total, p.lu.nextLabel, (p.config st).printer, false, false,
      totalDraft p.lu.nextLabel o.number o.owner o.ticket st⟩ (by
        rw [p.makeTotalLabel_jobs st o ((makesTotal_iff _).2 hm)]
        exact List.mem_append_right _ List.mem_cons_self)
    exact ⟨x, hx, hk, hl, ht, hr⟩
  · have hlabel : (p.labelled o).totalLabel = none := by rw [Part.labelled, if_pos hm, hnone]; rfl
    rw [Part.makeTotalLabel_item hm]
    simp only [Part.completed, Part.onTotalJob, hlabel, ite_self]

end

/-- Settles O29: an order without lines by `Part.endNoSale_ends`, any other by `Part.beginClosing_closes` on the part in which
its label has been made. -/
theorem closeOrderQueuesItsRecord : Obligations.CloseOrderQueuesItsRecord := by
  refine ⟨fun s st tag operator h => ⟨fun ha => ?noOrder, fun o ho => ⟨fun hl => ?freed, fun hl hm hfull => ?queueFull,
      fun e hl hroom he => ?journal, fun hl hroom hok hnot => ?closes⟩⟩,
    fun p => ⟨rfl, fun before t after hs hb => ?wait⟩⟩
  case wait =>
    rw [Part.waitOf, Option.bind_some, (Part.servingTicket_split hs hb).1]
    rfl
  case noOrder =>
    have hserve : keyCloseOrder st (s.part.keyTaken st tag) = .error .wrongState := by
      simp [keyCloseOrder, Part.activeOrder_none ha]
    exact State.key_refused_on h hserve
  case freed =>
    obtain ⟨hactive, -⟩ := Part.activeOrder_some ho
    obtain ⟨hnv, -, -, hwc, hart, hoc, hom, hlu, htj, htt, -⟩ :=
      ((s.part.keyTaken st tag).freeOrder o.number).endNoSale_frame o.ticket
    have hserve : keyCloseOrder st (s.part.keyTaken st tag)
        = .ok (((s.part.keyTaken st tag).freeOrder o.number).endNoSale o.ticket, orderResult o.number 0) := by
      simp only [keyCloseOrder, ho, need_some, ok_bind, hl]
      rfl
    exact ⟨_, State.key_accepted_on h hserve, by rw [hom]; rfl, by rw [hom]; exact Part.unbind_active hactive,
      Part.endNoSale_ends (Part.endNoSale_tc rfl), htj, hlu, hnv, hwc, hart, hoc, htt⟩
  case queueFull =>
    exact State.key_refused_on h ((keyCloseOrder_checked ho hl).trans (by
      rw [(makesTotal_iff _).2 hm, Part.printRoom_false hfull]
      rfl))
  case journal => exact State.key_refused_on h ((keyCloseOrder_room ho hl hroom).trans (by rw [he]; rfl))
  case closes =>
    obtain ⟨hactive, horder⟩ := Part.activeOrder_some ho
    obtain ⟨bnv, -, btime, bwc, bart, boc, btc, btj, btt, -⟩ := (s.part.keyTaken st tag).makeTotalLabel_frame st o
    have hsome : ((s.part.keyTaken st tag).labelled o).nothingToClose .sale = false := List.isEmpty_eq_false_iff.2 hl
    obtain ⟨hom, htj, hlu, hnv, hwc, hart, hoc, htc, htt, -, htime, -⟩ := Part.beginClosing_closes (kind := .sale)
      (Part.makeTotalLabel_order (st := st) horder) hsome
      (by rw [btj]; exact (Part.journalCheck_ok.1 hok).1) (by rw [btj]; exact hnot)
    obtain ⟨hjobs, hlabel, hitem⟩ := (s.part.keyTaken st tag).closed_jobs o st
    have hqueue := (s.part.keyTaken st tag).closed_queue (o := o) (st := st)
    have hpool := congrArg OrderManager.pool hom
    have hserve := (keyCloseOrder_room ho hl hroom).trans (by rw [hok, ok_bind])
    have hfound := Part.order_of_updated (p := (s.part.keyTaken st tag).makeTotalLabel st o) (f := fun x =>
      { x with state := .closing .sale (if o.hasPending then .waiting else .queued) }) (fun _ => rfl) hpool
    rw [Part.makeTotalLabel_order horder] at hfound
    refine ⟨_, State.key_accepted_on h hserve, ⟨_, hfound, rfl, rfl, rfl, rfl⟩,
      Part.active_unbound (congrArg OrderManager.active hom) (by rw [Part.makeTotalLabel_active]; exact hactive),
      fun hp => htj.trans ?_, fun hp hnone => htj.trans ?_, fun j hj => ?_, fun hm => ?_, fun hm hfresh => ?_, fun hm hnone => ?_,
      hnv.trans bnv, hwc.trans bwc, hart.trans bart, hoc.trans boc, htc.trans btc, htt.trans btt, htime.trans btime⟩
    · rw [btj]
      exact congrArg _ (if_pos hp)
    · rw [btj, if_neg (by exact Bool.eq_false_iff.1 hp), Part.closingRecord, Part.waitOf_tc btc, Part.labelled, hnone,
        Option.or_none]
      rfl
    · rw [hlu]
      exact hjobs j hj
    · rw [hlu]
      exact hlabel hm
    · exact hlu.trans ((hqueue hm hfresh).trans (by rw [Part.totalContent]))
    · exact hlu.trans (hitem hm hnone)

end Sys2Proof.Machine
end


-- ==== Sys2Proof/Proofs/FailedRecords.lean ====
section
/-! What each block does with a record that TJ reports as failed (Table 54, R101, R107, R110, R111). -/

namespace Sys2Proof.Machine

/-! ## The place that is given back (R147) -/

section
variable {p : Part} {n : Nat}

theorem Part.giveBack_unawaited (h : p.tj.waiting = none) :
    p.giveBack n = p.withQueue (dropHeld n p.tj.queue) (!frontFilled p.tj.queue) :=
  (Part.promote_tj (p.withQueue (dropHeld n p.tj.queue) (!frontFilled p.tj.queue))).1 h

/-- With no record waiting, the held place frees, and without filled places nothing else of the journal changes. -/
theorem Part.giveBack_tj {a : Part} (ha : a.tj = p.tj) (h : p.tj.waiting = none) :
    (a.giveBack n).tj.queue = dropHeld n p.tj.queue
    ∧ ((∀ x, Place.filled x ∉ p.tj.queue) → (a.giveBack n).tj = { p.tj with queue := dropHeld n p.tj.queue }) := by
  rw [Part.giveBack_unawaited (by rw [ha]; exact h), ha]
  refine ⟨rfl, fun hnone => ?_⟩
  have hfront : frontFilled (dropHeld n p.tj.queue) = false := by
    cases hq : dropHeld n p.tj.queue with
    | nil => rfl
    | cons x xs =>
      cases x with
      | held m k => rfl
      | filled r => exact absurd ((dropHeld_sublist n p.tj.queue).subset (hq ▸ List.mem_cons_self)) (hnone r)
  rw [Part.withQueue, hfront, Bool.and_false, ha]
  rfl

end

/-! ## A close that ends or fails -/

/-- LU once the HELD job of a kind, if the label is there, has left the print queue. -/
def LabelUnit.without (l : LabelUnit) (kind : LabelKind) : Option Nat → LabelUnit
  | none => l
  | some k => { l with queue := removeFirst (Job.isHeld kind k) l.queue }

section
variable {a : Part} {o : Order} {kind : CloseKind}

/-- A close that ends without a record. -/
theorem Part.endEmptyClose_parts (a : Part) (o : Order) :
    let q := a.endEmptyClose o
    q.om.pool = updatePool o.number (fun _ => none) a.om.pool ∧ q.tc = (a.endNoSale o.ticket).tc
    ∧ q.lu = a.lu.without .total o.totalLabel ∧ q.nv = a.nv ∧ q.wc = a.wc ∧ q.art = a.art ∧ q.oc = a.oc ∧ q.tt = a.tt
    ∧ q.ml = a.ml ∧ ∃ b : Part, b.tj = a.tj ∧ q.tj = (b.giveBack o.number).tj := by
  obtain ⟨hom, htc⟩ := a.endEmptyClose_om o
  refine ⟨by rw [hom]; rfl, htc, ?_⟩
  unfold Part.endEmptyClose
  cases o.totalLabel with
  | none => exact ⟨by simp [LabelUnit.without], by simp, by simp, by simp, by simp, by simp, by simp, _, by simp, rfl⟩
  | some k =>
    exact ⟨by simp [LabelUnit.without, Part.deleteJob], by simp, by simp, by simp, by simp, by simp, by simp, _, by simp, rfl⟩

theorem Part.failClosing_eq (a : Part) (o : Order) (kind : CloseKind) : a.failClosing o kind = { a with
    om := { a.om with pool := updatePool o.number (fun x => some { x with state := .closing kind .failed }) a.om.pool }
    lu := a.lu.without .total o.totalLabel } := by
  unfold Part.failClosing Part.onTotalJob
  cases o.totalLabel <;> rfl

theorem removeFirst_changeFirst {α : Type} {test : α → Bool} {f : α → α} (hf : ∀ x, test (f x) = test x) (l : List α) :
    removeFirst test (changeFirst test f l) = removeFirst test l := by
  induction l with
  | nil => rfl
  | cons x xs ih =>
    by_cases hx : test x = true
    · simp [changeFirst, removeFirst, hx, hf]
    · simp [changeFirst, removeFirst, hx, ih]

/-- A TOTAL job that is completed and then deleted is deleted. -/
theorem Part.completed_without (a : Part) (o : Order) (kind : CloseKind) :
    (a.completed o kind).lu.without .total o.totalLabel = a.lu.without .total o.totalLabel := by
  cases kind with
  | void => rfl
  | sale =>
    unfold Part.completed Part.onTotalJob
    cases o.totalLabel with
    | none => rfl
    | some k => exact congrArg (fun l => { a.lu with queue := l }) (removeFirst_changeFirst (test := Job.isHeld .total k)
        (f := fun j => { j with content := j.content.complete a.stamp a.art.totalPrefix o.activeLines.length o.total })
        (fun _ => rfl) a.lu.queue)

/-- In FAULT the record of a close is reported as failed at once. -/
theorem Part.formClosing_fails (h : a.tj.fault = true) (o : Order) (kind : CloseKind) :
    let q := a.formClosing o kind
    q.om.pool = updatePool o.number (fun x => some { x with state := .closing kind .failed }) a.om.pool ∧ q.tc = a.tc
    ∧ q.lu = a.lu.without .total o.totalLabel ∧ q.nv = a.nv ∧ q.wc = a.wc ∧ q.art = a.art ∧ q.oc = a.oc ∧ q.tt = a.tt
    ∧ q.ml = a.ml ∧ ∃ b : Part, b.tj = a.tj ∧ q.tj = (b.giveBack o.number).tj := by
  obtain ⟨hom, htj, htc⟩ := a.completed_frame o kind
  have hrest : (a.completed o kind).nv = a.nv ∧ (a.completed o kind).wc = a.wc ∧ (a.completed o kind).art = a.art
      ∧ (a.completed o kind).oc = a.oc ∧ (a.completed o kind).tt = a.tt ∧ (a.completed o kind).ml = a.ml := by
    cases kind with
    | void => exact ⟨rfl, rfl, rfl, rfl, rfl, rfl⟩
    | sale => unfold Part.completed Part.onTotalJob; cases o.totalLabel <;> exact ⟨rfl, rfl, rfl, rfl, rfl, rfl⟩
  obtain ⟨hnv, hwc, hart, hoc, htt, hml⟩ := hrest
  have hlu := a.completed_without o kind
  rw [Part.formClosing_eq, if_pos h, Part.failClosing_eq]
  refine ⟨?_, ?_, ?_, ?_, ?_, ?_, ?_, ?_, ?_, (a.completed o kind).failClosing o kind, ?tj, by rw [Part.failClosing_eq]⟩
  case tj =>
    rw [Part.failClosing_eq]
    exact htj
  all_goals simp only [Part.giveBack_frame, hom, htc, hlu, hnv, hwc, hart, hoc, htt, hml]

/-- A record that is formed leaves these blocks as they were. -/
theorem Part.formClosing_rest (a : Part) (o : Order) (kind : CloseKind) :
    let q := a.formClosing o kind
    q.nv = a.nv ∧ q.wc = a.wc ∧ q.art = a.art ∧ q.oc = a.oc ∧ q.ml = a.ml := by
  cases h : a.tj.fault with
  | true =>
    obtain ⟨-, -, -, hnv, hwc, hart, hoc, -, hml, -⟩ := Part.formClosing_fails h o kind
    exact ⟨hnv, hwc, hart, hoc, hml⟩
  | false =>
    rw [Part.formClosing_eq, if_neg (by rw [h]; decide)]
    obtain ⟨-, -, -, hnv, hwc, hart, hoc, -, -, -, -, hml⟩ := a.formed_parts o o.number kind (a.closingRecord o kind)
    exact ⟨hnv, hwc, hart, hoc, hml⟩

end

/-! ## A LINE whose append failed (R101) -/

/-- The part from which a line has been removed with its price and its job, and the store error marked. -/
def Part.lineRemoved (p : Part) (n : Nat) (f : LineFields) : Part :=
  { p with
    om := { p.om with pool := updatePool n (fun x => some { x with
        lines := removeFirst (fun l => l.fields.index == f.index) x.lines
        total := x.total - f.linePrice }) p.om.pool }
    lu := p.lu.without .item f.label
    ml := { p.ml with stations :=
      p.ml.stations.set f.station { p.ml.stations.get f.station with storeError := true } } }

/-- What the removal leaves of the parts that a close reads. -/
theorem Part.lineRemoved_parts (p : Part) (n : Nat) (f : LineFields) (k : Option Nat) :
    let q := p.lineRemoved n f
    q.lu.without .total k = (match k with
        | none => p.lu.without .item f.label
        | some k => { p.lu with queue := removeFirst (Job.isHeld .total k) (p.lu.without .item f.label).queue })
    ∧ q.om.pool = updatePool n (fun x => some { x with
        lines := removeFirst (fun l => l.fields.index == f.index) x.lines
        total := x.total - f.linePrice }) p.om.pool
    ∧ q.tc = p.tc ∧ q.tj = p.tj ∧ q.tt = p.tt
    ∧ q.ml = { p.ml with stations := p.ml.stations.set f.station { p.ml.stations.get f.station with storeError := true } }
    ∧ q.nv = p.nv ∧ q.art = p.art ∧ q.wc = p.wc ∧ q.oc = p.oc := by
  refine ⟨?_, rfl, rfl, rfl, rfl, rfl, rfl, rfl, rfl, rfl⟩
  cases k with
  | none => rfl
  | some k => unfold Part.lineRemoved; cases f.label <;> rfl

theorem Part.lineFailed_eq (p : Part) (n : Nat) (f : LineFields) : p.lineFailed n f = (p.lineRemoved n f).settleClosing n := by
  unfold Part.lineFailed Part.onItemJob Part.lineRemoved
  cases f.label <;> rfl

section
variable {p : Part} {n : Nat} {o : Order} {f : LineFields} {before behind : List Line}

theorem Part.lineRemoved_order (ho : p.order n = some o) (hl : o.lines = before ++ ⟨f, .pending⟩ :: behind)
    (hb : ∀ x ∈ before, x.fields.index ≠ f.index) :
    (p.lineRemoved n f).order n = some { o with lines := before ++ behind, total := o.total - f.linePrice } := by
  have hdrop : removeFirst (fun l : Line => l.fields.index == f.index) o.lines = before ++ behind := by
    rw [hl]
    exact removeFirst_split (fun x hx => by simpa using hb x hx) (beq_self_eq_true f.index)
  rw [← hdrop]
  refine (Part.order_of_updated (p := p) (f := fun x => { x with
    lines := removeFirst (fun l => l.fields.index == f.index) x.lines
    total := x.total - f.linePrice }) (fun _ => rfl) rfl).trans ?_
  rw [ho]
  rfl

theorem hasPending_iff (o : Order) : o.hasPending = true ↔ ∃ x ∈ o.lines, x.state = .pending := by
  simp [Order.hasPending]

theorem activeLines_isEmpty_iff (o : Order) : o.activeLines.isEmpty = true ↔ ∀ x ∈ o.lines, x.state = .voided := by
  simp [Order.activeLines]

/-- A close with no line left to record, for its kind. -/
theorem nothingToClose_iff (o : Order) (kind : CloseKind) : o.nothingToClose kind = true
    ↔ o.lines = [] ∨ kind = .sale ∧ ∀ x ∈ o.lines, x.state = .voided := by
  cases kind with
  | void => simp [Order.nothingToClose]
  | sale =>
    rw [Order.nothingToClose, activeLines_isEmpty_iff]
    exact ⟨fun h => .inr ⟨rfl, h⟩, fun h => h.elim (fun h x hx => by rw [h] at hx; cases hx) And.right⟩

end

/-- Settles O42: a LINE by `Part.lineFailed_eq` and what becomes of the close that waited for it, the others by their blocks. -/
theorem failedRecordsTellTheirBlocks : Obligations.FailedRecordsTellTheirBlocks := by
  intro p n owner o
  refine ⟨fun before f behind ho hl hb => ⟨fun h => ?stays, fun kind hs hnone => ?closes⟩, fun _ _ => rfl,
    fun kind r ho hr => ?closing, fun label supervisor st => rfl, fun g es t base entries hc => ?apply,
    fun g h stage later hb => ?stored, fun d => rfl⟩
  case stays =>
    have horder := Part.lineRemoved_order ho hl hb
    refine (p.lineFailed_eq n f).trans ((h.elim (fun hk => Part.settleClosing_other horder hk) fun hp =>
      Part.settleClosing_pending horder ((hasPending_iff _).2 hp)).trans ?_)
    unfold Part.lineRemoved
    cases f.label <;> rfl
  case closes =>
    have horder := Part.lineRemoved_order ho hl hb
    have hpending : Order.hasPending { o with lines := before ++ behind, total := o.total - f.linePrice } = false :=
      Bool.eq_false_iff.2 fun hp => by
        obtain ⟨x, hx, hxs⟩ := (hasPending_iff _).1 hp
        exact hnone x hx hxs
    have hnumber := Part.order_number ho
    have hremoved := p.lineRemoved_parts n f o.totalLabel
    obtain ⟨hlu, hpool, htc, htj, htt, hml, hnv, hart, hwc, hoc⟩ := hremoved
    have hnothing := nothingToClose_iff { o with lines := before ++ behind, total := o.total - f.linePrice } kind
    have heq : p.recordFailed (.line n owner f) = (p.lineRemoved n f).settleClosing n := p.lineFailed_eq n f
    generalize p.lineRemoved n f = a at *
    rw [heq]
    cases hn : Order.nothingToClose { o with lines := before ++ behind, total := o.total - f.linePrice } kind with
    | true =>
      rw [Part.settleClosing_ends (kind := kind) horder hs hpending hn]
      obtain ⟨qpool, qtc, qlu, qnv, qwc, qart, qoc, qtt, qml, b, hb, qtj⟩ := a.endEmptyClose_parts
        { o with lines := before ++ behind, total := o.total - f.linePrice }
      generalize a.endEmptyClose { o with lines := before ++ behind, total := o.total - f.linePrice } = q at *
      have hfreed : q.om.pool = updatePool n (fun _ => none) p.om.pool := by
        rw [qpool, hnumber, hpool]
        exact updatePool_updatePool (f := fun x => { x with
          lines := removeFirst (fun l => l.fields.index == f.index) x.lines
          total := x.total - f.linePrice }) (fun _ => rfl) n p.om.pool
      refine ⟨fun _ => ⟨hfreed, Part.order_of_freed hfreed, Part.endNoSale_ends (qtc.trans (Part.endNoSale_tc htc)),
        qlu.trans hlu, qtt.trans htt⟩, fun hleft hactive => ?left, fun hw _ => ?journal,
        qml.trans hml, qnv.trans hnv, qart.trans hart, qwc.trans hwc, qoc.trans hoc⟩
      case left =>
        rcases hnothing.1 hn with he | ⟨hk, hall⟩
        · exact absurd he hleft
        · obtain ⟨x, hx, hxa⟩ := hactive hk
          exact absurd (hall x hx) (by rw [hxa]; decide)
      case journal =>
        rw [qtj, hnumber]
        exact Part.giveBack_tj (hb.trans htj) hw
    | false =>
      rw [Part.settleClosing_forms (kind := kind) horder hs hpending hn]
      obtain ⟨qnv, qwc, qart, qoc, qml⟩ := a.formClosing_rest
        { o with lines := before ++ behind, total := o.total - f.linePrice } kind
      have hfails := fun hf => Part.formClosing_fails (a := a) hf
        { o with lines := before ++ behind, total := o.total - f.linePrice } kind
      generalize a.formClosing { o with lines := before ++ behind, total := o.total - f.linePrice } kind = q at *
      refine ⟨fun h => absurd (hnothing.2 h) (by rw [hn]; decide), fun _ _ hf => ?failed, fun hw hf => ?journal,
        qml.trans hml, qnv.trans hnv, qart.trans hart, qwc.trans hwc, qoc.trans hoc⟩
      case failed =>
        obtain ⟨qpool, qtc, qlu, -, -, -, -, qtt, -⟩ := hfails (by rw [htj]; exact hf)
        refine ⟨{ o with
          lines := before ++ behind
          total := o.total - f.linePrice
          state := .closing kind .failed }, ?_, rfl, rfl, rfl, qlu.trans hlu, qtc.trans htc, qtt.trans htt⟩
        refine (Part.order_of_updated (p := a) (f := fun x => { x with state := .closing kind .failed }) (fun _ => rfl)
          (by rw [qpool, hnumber])).trans ?_
        rw [horder]
        rfl
      case journal =>
        obtain ⟨-, -, -, -, -, -, -, -, -, b, hb, qtj⟩ := hfails (by rw [htj]; exact hf)
        rw [qtj, hnumber]
        exact Part.giveBack_tj (hb.trans htj) hw
  case closing =>
    have hnumber := Part.order_number ho
    have hfails : p.recordFailed r = p.failClosing o kind := by
      rcases hr with ⟨_, _, _, _, _, rfl, rfl⟩ | ⟨_, _, rfl, rfl⟩ <;> simp only [Part.recordFailed, Part.closingFailed, ho]
    rw [hfails, Part.failClosing_eq, hnumber]
    cases o.totalLabel <;> rfl
  case apply => simp only [Part.recordFailed, Part.failApply, hc]; rfl
  case stored => simp only [Part.recordFailed, Part.failStore, hb]; rfl

end Sys2Proof.Machine
end


-- ==== Sys2Proof/Proofs/RecordsWritten.lean ====
section
/-! What each block does with a record that TJ reports as written (Table 54, R100, R105, R108, R110, R144). -/

namespace Sys2Proof.Machine

/-! ## The place of the closing record (R154) -/

section
variable {a : Part} {n : Nat} {r : Record} {k : CloseKind} {before behind : List Place} {e : Option Erase}

theorem suspendedBy_twice (queue : List Place) (e : Option Erase) :
    suspendedBy queue (suspendedBy queue e) = suspendedBy queue e := by
  cases queue with
  | nil => rfl
  | cons x xs =>
    cases x with
    | held m k => rfl
    | filled x => cases e <;> rfl

/-- A held place that is filled suspends an erase when the filled place stands at the front. -/
theorem Part.fillPlace_suspends (he : a.tj.erase = suspendedBy a.tj.queue e) (hq : a.tj.queue = before ++ .held n k :: behind)
    (h : ∀ x, Place.held n x ∉ before) : (a.fillPlace n r).tj = { a.tj with
      queue := before ++ .filled r :: behind
      erase := suspendedBy (before ++ .filled r :: behind) a.tj.erase } := by
  have hfill : fillHeld n r a.tj.queue = before ++ .filled r :: behind := by rw [hq, fillHeld_split h]
  rw [Part.fillPlace, hfill, Part.withQueue, hq]
  cases before with
  | nil => simp [frontFilled, suspendedBy]
  | cons x xs =>
    cases x with
    | held m j => simp [frontFilled, suspendedBy]
    | filled y =>
      have hsuspended : suspendedBy (Place.filled y :: xs ++ .filled r :: behind) a.tj.erase = a.tj.erase := by
        rw [he, hq]
        exact suspendedBy_twice (Place.filled y :: xs) e
      rw [hsuspended]
      rfl

end

/-! ## LINE (R100) -/

/-- LU once the HELD job of a kind, if the label is there, has been released. -/
def LabelUnit.releasing (l : LabelUnit) (kind : LabelKind) : Option Nat → LabelUnit
  | none => l
  | some k => { l with queue := changeFirst (Job.isHeld kind k) (fun j => { j with released := true }) l.queue }

/-- The part in which a line has become ACTIVE and its label is released. -/
def Part.lineRecorded (p : Part) (n : Nat) (f : LineFields) : Part :=
  { p with
    om := { p.om with pool := updatePool n (fun x => some (x.withLineState f.index .active)) p.om.pool }
    lu := p.lu.releasing .item f.label }

theorem Part.lineWritten_eq (p : Part) (n : Nat) (f : LineFields) :
    p.lineWritten n f = (p.lineRecorded n f).settleClosing n := by
  unfold Part.lineWritten Part.onItemJob Part.lineRecorded
  cases f.label <;> rfl

section
variable {p a : Part} {n i : Nat} {o : Order} {f : LineFields} {l : Line} {kind : CloseKind}

theorem Part.lineRecorded_order (ho : p.order n = some o) :
    (p.lineRecorded n f).order n = some (o.withLineState f.index .active) := by
  refine (Part.order_of_updated (p := p) (f := fun x => x.withLineState f.index .active) (fun _ => rfl) rfl).trans ?_
  rw [ho]
  rfl

/-- Changing the first element of a kind that is there leaves a changed one. -/
theorem changeFirst_changed {α : Type} {test : α → Bool} (f : α → α) {l : List α} {x : α} (h : x ∈ l) (hx : test x = true) :
    ∃ y, f y ∈ changeFirst test f l := by
  induction l with
  | nil => cases h
  | cons z zs ih =>
    rw [changeFirst]
    split
    · exact ⟨z, List.mem_cons_self⟩
    · next hz =>
      rcases List.mem_cons.1 h with rfl | h
      · exact absurd hx hz
      · obtain ⟨y, hy⟩ := ih h
        exact ⟨y, List.mem_cons_of_mem _ hy⟩

/-- The line whose record is written is among the lines that are not VOIDED. -/
theorem withLineState_active (h : o.line i = some l) : (o.withLineState i .active).activeLines ≠ [] := by
  have hindex : l.fields.index = i := key_of_lookup (key := fun l : Line => l.fields.index) h
  obtain ⟨y, hy⟩ := changeFirst_changed (test := fun x : Line => x.fields.index == i)
    (fun x => { x with state := LineState.active }) (lookup_mem h) (beq_iff_eq.2 hindex)
  refine List.ne_nil_of_mem (a := y.fields) (List.mem_map.2 ⟨_, List.mem_filter.2 ⟨hy, by simp⟩, rfl⟩)

/-- The line of a close that waits is recorded, and no line is PENDING any more: the record of the close is formed. -/
theorem Part.lineRecorded_forms (ho : p.order n = some o) (hl : o.line f.index = some l)
    (hs : o.state = .closing kind .waiting) (hp : (o.withLineState f.index .active).hasPending = false)
    (hf : p.tj.fault = false) : p.lineWritten n f = ((((p.lineRecorded n f).completed (o.withLineState f.index .active) kind).fillPlace n
      ((p.lineRecorded n f).closingRecord (o.withLineState f.index .active) kind)).setClosing n kind .queued) := by
  obtain rfl := Part.order_number ho
  have hactive := withLineState_active hl
  have hn : (o.withLineState f.index .active).nothingToClose kind = false := Bool.eq_false_iff.2 fun h => by
    cases kind with
    | sale => exact hactive (List.isEmpty_iff.1 h)
    | void => exact hactive (by rw [Order.activeLines, List.isEmpty_iff.1 h]; rfl)
  rw [Part.lineWritten_eq, Part.settleClosing_forms (Part.lineRecorded_order ho) hs hp hn, Part.formClosing_eq,
    if_neg (by rw [show (p.lineRecorded o.number f).tj = p.tj from rfl, hf]; decide)]
  cases kind <;> rfl

/-- The parts of it. -/
theorem Part.lineRecorded_formed (ho : p.order n = some o) (hl : o.line f.index = some l)
    (hs : o.state = .closing kind .waiting) (hp : (o.withLineState f.index .active).hasPending = false)
    (hf : p.tj.fault = false) :
    let q := p.lineWritten n f
    q.om = { p.om with pool := updatePool n (fun x =>
        some { x.withLineState f.index .active with state := .closing kind .queued }) p.om.pool }
    ∧ q.tj = (p.fillPlace n (p.closingRecord (o.withLineState f.index .active) kind)).tj
    ∧ q.lu = ((p.lineRecorded n f).completed (o.withLineState f.index .active) kind).lu ∧ q.nv = p.nv ∧ q.wc = p.wc
    ∧ q.art = p.art ∧ q.oc = p.oc ∧ q.tc = p.tc ∧ q.tt = p.tt ∧ q.cc = p.cc ∧ q.time = p.time ∧ q.ml = p.ml := by
  rw [Part.lineRecorded_forms ho hl hs hp hf]
  obtain ⟨hom, htj, hlu, hrest⟩ := (p.lineRecorded n f).formed_parts (o.withLineState f.index .active) n kind
    ((p.lineRecorded n f).closingRecord (o.withLineState f.index .active) kind)
  refine ⟨hom.trans (congrArg (fun l => { p.om with pool := l }) (updatePool_updatePool
    (f := fun x => x.withLineState f.index .active) (g := fun x => some { x with state := .closing kind .queued })
    (fun _ => rfl) n p.om.pool)), htj.trans ?_, hlu, hrest⟩
  cases kind <;> rfl

end

section
variable {p a : Part} {n : Nat} {o : Order} {kind : CloseKind}

theorem Part.closingRecord_of (htc : a.tc = p.tc) (hn : o.number = n) (i : Nat) (kind : CloseKind) :
    a.closingRecord (o.withLineState i .active) kind = (match kind with
      | .sale => .close n o.owner o.ticket (o.withLineState i .active).activeLines.length o.total o.totalLabel
          (p.waitOf o.ticket)
      | .void => .voidOrder n o.owner o.ticket o.total) := by
  subst hn
  cases kind with
  | void => rfl
  | sale => rw [← Part.waitOf_tc htc]; rfl

theorem Part.completed_unlabelled (p : Part) (h : kind = .void ∨ o.totalLabel = none) : (p.completed o kind).lu = p.lu := by
  cases kind with
  | void => rfl
  | sale =>
    rcases h with h | h
    · cases h
    · simp only [Part.completed, Part.onTotalJob, h]

theorem Part.completed_labelled (p : Part) {k : Nat} (hk : kind = .sale) (h : o.totalLabel = some k) :
    (p.completed o kind).lu = { p.lu with queue := changeFirst (Job.isHeld .total k) (fun j =>
      { j with content := j.content.complete p.stamp p.art.totalPrefix o.activeLines.length o.total }) p.lu.queue } := by
  subst hk
  simp only [Part.completed, Part.onTotalJob, h]
  rfl

end

/-! ## CLOSE and VOID_ORDER (R108, R110) -/

/-- The counter-wide figures that the lines of an order leave, and their number. -/
theorem Accumulators.LinesAdded.figures {fs : List LineFields} {a b : Accumulators} (h : Accumulators.LinesAdded fs a b) :
    b.counter.ordersClosed = a.counter.ordersClosed ∧ b.counter.value = a.counter.value
    ∧ b.counter.lines = a.counter.lines + fs.length := by
  induction fs generalizing a with
  | nil => cases h; exact ⟨rfl, rfl, rfl⟩
  | cons f fs ih =>
    obtain ⟨m, hm, h⟩ := h
    have hone : m.counter.ordersClosed = a.counter.ordersClosed ∧ m.counter.value = a.counter.value
        ∧ m.counter.lines = a.counter.lines + 1 := by
      by_cases ho : f.overriddenBy = none
      · rw [hm.plain ho]; exact ⟨rfl, rfl, rfl⟩
      · rw [hm.override ho]; exact ⟨rfl, rfl, rfl⟩
    obtain ⟨hclosed, hvalue, hlines⟩ := ih h
    obtain ⟨hclosed1, hvalue1, hlines1⟩ := hone
    exact ⟨hclosed.trans hclosed1, hvalue.trans hvalue1, by rw [hlines, hlines1, List.length_cons]; omega⟩

theorem Accumulators.Closed.figures {a b : Accumulators} {owner total : Nat} {label : Option Nat}
    {active voided : List LineFields} (h : a.Closed b owner total label active voided) :
    b.counter.ordersClosed = a.counter.ordersClosed + 1 ∧ b.counter.value = a.counter.value + total
    ∧ b.counter.lines = a.counter.lines + active.length := by
  obtain ⟨m, hadded, -, -, -, -, hcounter⟩ := h.lines
  obtain ⟨hclosed, hvalue, hlines⟩ := hadded.figures
  rw [hcounter]
  exact ⟨by rw [hclosed], by rw [hvalue], by rw [hlines]⟩

section
variable {p a : Part} {n owner total value : Nat} {o : Order} {label : Option Nat}

theorem Part.closeWritten_parts (ho : p.order n = some o) :
    let q := p.closeWritten n owner total label
    q.om.pool = updatePool n (fun _ => none) p.om.pool
    ∧ q.tt = { p.tt with
        accumulators := p.tt.accumulators.addClose owner total label o.activeLines o.voidedLines }
    ∧ q.lu = p.lu.releasing .total o.totalLabel ∧ q.tc = (p.endServed o.ticket).tc := by
  simp only [Part.closeWritten, ho]
  let a := (p.onAccumulators (fun a => a.addClose owner total label o.activeLines o.voidedLines)).onTotalJob o
    (fun q k => q.releaseJob .total k)
  have ha : a.om = p.om ∧ a.tc = p.tc ∧ a.lu = p.lu.releasing .total o.totalLabel ∧ a.tt = { p.tt with
        accumulators := p.tt.accumulators.addClose owner total label o.activeLines o.voidedLines } := by
    simp only [a, Part.onTotalJob]
    cases o.totalLabel <;> exact ⟨rfl, rfl, rfl, rfl⟩
  obtain ⟨hom, htc, hlu, htt⟩ := ha
  change (((a.endServed o.ticket).freeOrder n).om.pool = _ ∧ ((a.endServed o.ticket).freeOrder n).tt = _
    ∧ ((a.endServed o.ticket).freeOrder n).lu = _ ∧ ((a.endServed o.ticket).freeOrder n).tc = _)
  generalize a = b at *
  refine ⟨?_, by simp [htt], by simp [hlu], by simp [Part.endServed_tc htc]⟩
  have hb : (b.endServed o.ticket).om = p.om := by simp [hom]
  rw [← hb]
  rfl

theorem Part.voidOrderWritten_parts (ho : p.order n = some o) :
    let q := p.voidOrderWritten n owner value
    q.om.pool = updatePool n (fun _ => none) p.om.pool
    ∧ q.tt = { p.tt with accumulators := p.tt.accumulators.addVoidOrder owner value }
    ∧ q.lu = p.lu ∧ q.tc = (p.endNoSale o.ticket).tc := by
  simp only [Part.voidOrderWritten, ho]
  have hom : ((p.onAccumulators (fun a => a.addVoidOrder owner value)).endNoSale o.ticket).om = p.om := by
    simp [Part.onAccumulators]
  refine ⟨by rw [← hom]; rfl, by simp [Part.onAccumulators], by simp [Part.onAccumulators], ?_⟩
  have htc : (p.onAccumulators (fun a => a.addVoidOrder owner value)).tc = p.tc := rfl
  simp [Part.endNoSale_tc htc]

end

/-- Settles O43: the append ends by `Part.finishAppend_appended`, and each block is told by its own rule. -/
theorem recordsWrittenTellTheirBlocks : Obligations.RecordsWrittenTellTheirBlocks := by
  intro s n owner o hr
  refine ⟨fun f l hf ho hl => ⟨fun h => ?recorded, fun kind hs hp hfault => ?forms⟩, fun index supervisor hf => ?voidLine,
    fun label supervisor st hf => ?reprint, fun ticket count total label wait hf ho => ?close, fun ticket value hf ho => ?void⟩
  case recorded =>
    have hrun : exec .lineWritten s = .next { s with part := (s.part.finishAppend (.line n owner f)).lineWritten n f } :=
      (State.act_runs hr _).trans (by rw [Part.appendWritten_of hf rfl])
    have ha := Part.finishAppend_appended hf
    have hframe := s.part.finishAppend_frame (.line n owner f)
    generalize s.part.finishAppend (.line n owner f) = a at ha hframe hrun
    obtain ⟨-, htime, hwc, hart, hoc, hom, htc, hlu, htt, hcc, -⟩ := hframe
    have hao : a.order n = some o := by rw [Part.order, hom]; exact ho
    have hq : a.lineWritten n f = a.lineRecorded n f := by
      rw [Part.lineWritten_eq]
      exact h.elim (fun hk => Part.settleClosing_other (Part.lineRecorded_order hao) hk)
        fun hp => Part.settleClosing_pending (Part.lineRecorded_order hao) hp
    rw [hq] at hrun
    refine ⟨_, hrun, ha.kept rfl rfl rfl, ?_, ?_, hwc, hart, hoc, htc, htt, hcc, htime⟩
    · rw [← hom]
      rfl
    · rw [← hlu]
      unfold Part.lineRecorded
      cases f.label <;> rfl
  case forms =>
    have hrun : exec .lineWritten s = .next { s with part := (s.part.finishAppend (.line n owner f)).lineWritten n f } :=
      (State.act_runs hr _).trans (by rw [Part.appendWritten_of hf rfl])
    have ha := Part.finishAppend_appended hf
    have hframe := s.part.finishAppend_frame (.line n owner f)
    generalize s.part.finishAppend (.line n owner f) = a at ha hframe hrun
    obtain ⟨-, htime, hwc, hart, hoc, hom, htc, hlu, htt, hcc, -⟩ := hframe
    have hao : a.order n = some o := by rw [Part.order, hom]; exact ho
    have hfa : a.tj.fault = false := by rw [ha.ended]; exact hfault
    obtain ⟨qom, qtj, qlu, qnv, qwc, qart, qoc, qtc, qtt, qcc, qtime, qml⟩ :=
      Part.lineRecorded_formed hao hl hs hp hfa
    generalize a.lineWritten n f = q at *
    have hnumber := Part.order_number ho
    have hrecord := Part.closingRecord_of htc (Part.order_number ho) f.index kind
    have hlabels : q.lu = ((s.part.lineRecorded n f).completed (o.withLineState f.index .active) kind).lu :=
      qlu.trans (Part.completed_lu (p := s.part.lineRecorded n f) (a := a.lineRecorded n f)
        (congrArg (LabelUnit.releasing · .item f.label) hlu) htime hart _ kind)
    refine ⟨a, q, hrun, ha, qnv, qml, fun before k behind hq hnot => ?_, ?order, qom.trans (by rw [hom]), fun hk => ?same,
      fun k hk hlabel => ?total, qwc.trans hwc, qart.trans hart, qoc.trans hoc, qtc.trans htc, qtt.trans htt, qcc.trans hcc,
      qtime.trans htime⟩
    · refine (qtj.trans (Part.fillPlace_suspends ha.erase hq hnot)).trans ?_
      cases kind <;> rw [hrecord]
    case order =>
      refine (Part.order_of_updated (p := a) (f := fun x =>
        { x.withLineState f.index .active with state := .closing kind .queued }) (fun _ => rfl) (by rw [qom])).trans ?_
      rw [hao]
      rfl
    case same =>
      refine (hlabels.trans (Part.completed_unlabelled _ hk)).trans ?_
      unfold Part.lineRecorded
      cases f.label <;> rfl
    case total =>
      refine (hlabels.trans (Part.completed_labelled _ hk hlabel)).trans ?_
      unfold Part.lineRecorded
      cases f.label <;> rfl
  case voidLine =>
    have hrun : exec .voidLineWritten s = .next { s with part := s.part.finishAppend (.voidLine n index supervisor) } :=
      (State.act_runs hr _).trans (by rw [Part.appendWritten_of hf rfl]; rfl)
    have hframe := s.part.finishAppend_frame (.voidLine n index supervisor)
    obtain ⟨-, -, hwc, hart, hoc, hom, htc, hlu, htt, -⟩ := hframe
    exact ⟨_, hrun, Part.finishAppend_appended hf, hom, hlu, htt, htc, hart, hwc, hoc⟩
  case reprint =>
    have hrun : exec .reprintWritten s
        = .next { s with part := (s.part.finishAppend (.reprint label supervisor st)).reprintWritten label } :=
      (State.act_runs hr _).trans (by rw [Part.appendWritten_of hf rfl])
    have ha := Part.finishAppend_appended hf
    have hframe := s.part.finishAppend_frame (.reprint label supervisor st)
    generalize s.part.finishAppend (.reprint label supervisor st) = a at ha hframe hrun
    obtain ⟨-, -, hwc, hart, hoc, hom, htc, hlu, htt, -⟩ := hframe
    refine ⟨_, hrun, ha.kept rfl rfl rfl, ?_, ?_, hom, htc, hart, hwc, hoc⟩
    · rw [← hlu]
      rfl
    · rw [← htt]
      rfl
  case close =>
    have hrun : exec .closeWritten s = .next { s with
        part := (s.part.finishAppend (.close n owner ticket count total label wait)).closeWritten n owner total label } :=
      (State.act_runs hr _).trans (by rw [Part.appendWritten_of hf rfl])
    have ha := Part.finishAppend_appended hf
    have hframe := s.part.finishAppend_frame (.close n owner ticket count total label wait)
    generalize s.part.finishAppend (.close n owner ticket count total label wait) = a at ha hframe hrun
    obtain ⟨-, htime, hwc, hart, hoc, hom, htc, hlu, htt, hcc, -⟩ := hframe
    have hao : a.order n = some o := by rw [Part.order, hom]; exact ho
    obtain ⟨qpool, qtt, qlu, qtc⟩ := Part.closeWritten_parts (owner := owner) (total := total) (label := label) hao
    obtain ⟨qnv, -, -, qwc, qart, qoc, qtj, -, qml, -⟩ := a.closeWritten_frame n owner total label
    generalize a.closeWritten n owner total label = q at *
    have hclosed := s.part.tt.accumulators.addClose_closed owner total label o.activeLines o.voidedLines
    obtain ⟨hclosedCount, hvalue, hlines⟩ := hclosed.figures
    rw [htt] at qtt
    have hacc := congrArg Totals.accumulators qtt
    refine ⟨q, hrun, ha.kept qnv qtj (by rw [qml]), by rw [qpool, hom], qtt, by rw [hacc]; exact hclosed, ?_, ?_, ?_, ?_,
      Part.endServed_ends (qtc.trans (Part.endServed_tc htc)), qwc.trans hwc, qart.trans hart, qoc.trans hoc⟩
    · rw [hacc, hclosedCount]
    · rw [hacc, hvalue]
    · rw [hacc, hlines]
    · rw [qlu, hlu]
      cases o.totalLabel <;> rfl
  case void =>
    have hrun : exec .voidOrderWritten s
        = .next { s with part := (s.part.finishAppend (.voidOrder n owner ticket value)).voidOrderWritten n owner value } :=
      (State.act_runs hr _).trans (by rw [Part.appendWritten_of hf rfl])
    have ha := Part.finishAppend_appended hf
    have hframe := s.part.finishAppend_frame (.voidOrder n owner ticket value)
    generalize s.part.finishAppend (.voidOrder n owner ticket value) = a at ha hframe hrun
    obtain ⟨-, htime, hwc, hart, hoc, hom, htc, hlu, htt, hcc, -⟩ := hframe
    have hao : a.order n = some o := by rw [Part.order, hom]; exact ho
    obtain ⟨qpool, qtt, qlu, qtc⟩ := Part.voidOrderWritten_parts (owner := owner) (value := value) hao
    obtain ⟨qnv, -, -, qwc, qart, qoc, -, qtj, -, qml, -⟩ := a.voidOrderWritten_frame n owner value
    generalize a.voidOrderWritten n owner value = q at *
    have hvoided := s.part.tt.accumulators.addVoidOrder_voided owner value
    rw [htt] at qtt
    have hacc := congrArg Totals.accumulators qtt
    refine ⟨q, hrun, ha.kept qnv qtj (by rw [qml]), by rw [qpool, hom], qtt, by rw [hacc]; exact hvoided, ?_, ?_,
      qlu.trans hlu, Part.endNoSale_ends (qtc.trans (Part.endNoSale_tc htc)), qwc.trans hwc, qart.trans hart, qoc.trans hoc⟩
    · rw [hacc, hvoided.counter]
    · rw [hacc, hvoided.counter]

end Sys2Proof.Machine
end


-- ==== Sys2Proof/Proofs/Switching.lean ====
section
/-! The switch on a written PRICE_APPLY and the store-back behind it (chapter 3, R66, R67, R71, R72). -/

namespace Sys2Proof.Machine

/-! ## The switch at a station (R67) -/

/-- A channel after the report of AT, if there is one (R20). -/
def Channel.reported (c : Channel) : Option SelectionReport → Channel
  | none => c
  | some r => c.report r

/-- What the switch makes of the selection of a station, with its report. -/
def Part.switchAt (p : Part) (es : List ChangeEntry) (st : StationNo) : Selection × Option SelectionReport :=
  (p.art.selections.get st).switched es (p.selected st)

section
variable {p : Part} {es : List ChangeEntry} {st other : StationNo}

theorem Part.switchStation_eq (p : Part) (es : List ChangeEntry) (st : StationNo) : p.switchStation es st = { p with
    art := { p.art with selections := p.art.selections.set st (p.switchAt es st).1 }
    wc := p.wc.set st ((p.wc.get st).reported (p.switchAt es st).2) } := by
  unfold Part.switchStation
  change (match (p.switchAt es st).2 with
    | none => _
    | some report => _) = _
  cases (p.switchAt es st).2 with
  | none => simp only [Channel.reported, PerStation.set_get]; rfl
  | some report => rfl

theorem Part.switchStation_switchAt (h : other ≠ st) : (p.switchStation es st).switchAt es other = p.switchAt es other := by
  rw [Part.switchStation_eq]
  simp only [Part.switchAt, Part.selected, PerStation.get_set_other _ _ h]
  rfl

/-- The switch at the stations of a list changes the selection and the channel of each of them, and nothing else. -/
theorem Part.switchStations_get (p : Part) (es : List ChangeEntry) {l : List StationNo} (hl : l.Nodup) :
    let q := l.foldl (Part.switchStation es) p
    (q = { p with
      art := { p.art with selections := q.art.selections }
      wc := q.wc })
    ∧ (∀ st ∈ l, q.art.selections.get st = (p.switchAt es st).1
        ∧ q.wc.get st = (p.wc.get st).reported (p.switchAt es st).2)
    ∧ ∀ st ∉ l, q.art.selections.get st = p.art.selections.get st ∧ q.wc.get st = p.wc.get st := by
  induction l generalizing p with
  | nil => exact ⟨rfl, fun st h => absurd h List.not_mem_nil, fun _ _ => ⟨rfl, rfl⟩⟩
  | cons x xs ih =>
    obtain ⟨hx, hxs⟩ := List.nodup_cons.1 hl
    obtain ⟨hframe, hin, hout⟩ := ih (p.switchStation es x) hxs
    have heq := p.switchStation_eq es x
    simp only [List.foldl_cons]
    generalize xs.foldl (Part.switchStation es) (p.switchStation es x) = q at hframe hin hout
    have hsame := fun st (h : st ≠ x) => Part.switchStation_switchAt (p := p) (es := es) h
    have hat : ∀ st, (p.switchStation es x).art.selections.get st = (if st = x then (p.switchAt es x).1 else p.art.selections.get st)
        ∧ (p.switchStation es x).wc.get st
          = (if st = x then (p.wc.get x).reported (p.switchAt es x).2 else p.wc.get st) := by
      intro st
      rw [heq]
      split
      · next h => subst h; exact ⟨PerStation.get_set_same _ _ _, PerStation.get_set_same _ _ _⟩
      · next h => exact ⟨PerStation.get_set_other _ _ h, PerStation.get_set_other _ _ h⟩
    refine ⟨by rw [hframe, heq], fun st h => ?_, fun st h => ?_⟩
    · obtain ⟨hselection, hchannel⟩ := hat st
      by_cases hst : st = x
      · subst hst
        obtain ⟨h1, h2⟩ := hout st hx
        rw [if_pos rfl] at hselection hchannel
        exact ⟨h1.trans hselection, h2.trans hchannel⟩
      · obtain ⟨h1, h2⟩ := hin st ((List.mem_cons.1 h).resolve_left hst)
        rw [if_neg hst] at hchannel
        rw [hsame st hst] at h1 h2
        exact ⟨h1, h2.trans (by rw [hchannel])⟩
    · obtain ⟨hst, hrest⟩ := not_or.1 (mt List.mem_cons.2 h)
      obtain ⟨hselection, hchannel⟩ := hat st
      rw [if_neg hst] at hselection hchannel
      obtain ⟨h1, h2⟩ := hout st hrest
      exact ⟨h1.trans hselection, h2.trans hchannel⟩

end

/-- The part in which the table, the generation and the change set have been switched. -/
def Part.tableSwitched (p : Part) (g : Nat) (es : List ChangeEntry) : Part :=
  { p with art := { p.art with
      table := applyEntries g es p.art.table
      generation := g
      changeSet := .none } }

/-- The switch: AT, the channels and the latch of APPLY_DONE change. -/
theorem Part.switchTo_at (p : Part) (g : Nat) (es : List ChangeEntry) :
    let a := p.tableSwitched g es
    let q := p.switchTo g es
    (q = Part.latch { p with
      art := { a.art with
        selections := q.art.selections
        storeBack := .storing g (.writing es) [] }
      wc := q.wc } .applyDone (some (.switched g)))
    ∧ ∀ st, q.art.selections.get st = (a.switchAt es st).1
        ∧ q.wc.get st = (p.wc.get st).reported (a.switchAt es st).2 := by
  obtain ⟨hframe, hin, -⟩ := (p.tableSwitched g es).switchStations_get es (l := StationNo.all) (by decide)
  have hq : p.switchTo g es = Part.latch ((StationNo.all.foldl (Part.switchStation es) (p.tableSwitched g es)).beginStore ⟨g, es⟩ [])
      .applyDone (some (.switched g)) := rfl
  generalize StationNo.all.foldl (Part.switchStation es) (p.tableSwitched g es) = b at hframe hin hq
  simp only [hq]
  refine ⟨?_, fun st => hin st (StationNo.mem_all st)⟩
  rw [hframe]
  rfl

/-! ## The tare that the report leaves (R20) -/

theorem Channel.presetFor_kept {c : Channel} {t : Tare} {preset : Option Nat}
    (h : preset = none ∨ (∃ v, preset = some v ∧ (v = 0 ∨ c.cal.max < v)) ∨ t.kind ≠ .none) : c.presetFor t preset = t := by
  rcases h with rfl | ⟨v, rfl, hv⟩ | hk
  · rfl
  · exact Channel.presetFor_unfit fun w hw => by cases hw; exact hv
  · cases preset <;> simp [Channel.presetFor, hk]

/-! ## The selection that the switch leaves (R67) -/

section
variable {s : Selection} {es : List ChangeEntry} {n : Nat} {a : Article}

theorem Selection.switched_gone (h : s.article = some n) : s.switched es none = (.initial, some .lost) := by
  simp only [Selection.switched, h]

theorem Selection.switched_held (h : s.article = some n) (ha : a.held = true) :
    s.switched es (some a) = (.initial, some .lost) := by simp [Selection.switched, h, ha]

theorem putsArticle_iff : putsArticle es n = true ↔ ∃ b, lookup ChangeEntry.number n es = some (.put b) := by
  unfold putsArticle
  cases lookup ChangeEntry.number n es with
  | none => simp
  | some e => cases e <;> simp [ChangeEntry.isPut]

theorem Selection.switched_put (h : s.article = some n) (ha : a.held = false)
    (hp : ∃ b, lookup ChangeEntry.number n es = some (.put b)) :
    s.switched es (some a) = (⟨some n, 1, none, none⟩, some (.chosen a.presetTare)) := by
  simp [Selection.switched, h, ha, putsArticle_iff.2 hp]

theorem Selection.switched_other (h : s.article = some n) (ha : a.held = false)
    (hp : ∀ b, lookup ChangeEntry.number n es ≠ some (.put b)) :
    s.switched es (some a) = ({ s with repeatEntry := none, override := none }, none) := by
  have hputs : putsArticle es n = false := Bool.eq_false_iff.2 fun hx => by
    obtain ⟨b, hb⟩ := putsArticle_iff.1 hx
    exact hp b hb
  simp [Selection.switched, h, ha, hputs]

end

/-! ## The store-back (R71, R72) -/

section
variable {p : Part} {g : Nat} {later : List OwedGeneration} {e e' : ChangeEntry} {rest : List ChangeEntry} {a : Article}

theorem Part.storeEntry_delete (p : Part) (n : Nat) :
    (p.storeEntry (.delete n)).nv.articles = p.nv.articles.filter (fun a => a.number != n) := rfl

theorem Part.storeEntry_stored (h : e ≠ .delete e.number) (ha : p.article e.number = some a) :
    (p.storeEntry e).nv.articles = insertByKey Article.number a p.nv.articles := by
  cases e with
  | delete n => exact absurd rfl h
  | put b => simp only [Part.storeEntry, ha]
  | hold n => simp only [Part.storeEntry, ha]
  | release n => simp only [Part.storeEntry, ha]

theorem Part.articleAreaWrite_goesOn (h : p.art.storeBack = .storing g (.writing (e :: e' :: rest)) later) (x : Bool) :
    p.articleAreaWrite true x = (p.storeEntry e).withStoreBack (.storing g (.writing (e' :: rest)) later) := by
  simp [Part.articleAreaWrite, h]

theorem Part.articleAreaWrite_last (h : p.art.storeBack = .storing g (.writing [e]) later) (x : Bool) :
    p.articleAreaWrite true x = (p.storeEntry e).storeGeneration g later x := by
  simp [Part.articleAreaWrite, h]

theorem Part.articleAreaWrite_fails (h : p.art.storeBack = .storing g (.writing (e :: rest)) later) (x : Bool) :
    p.articleAreaWrite false x = (p.spoilEntry e).owe g := by
  simp [Part.articleAreaWrite, h]

/-- The part in which an entry and then the generation of the area are written. -/
def Part.areaStored (p : Part) (e : ChangeEntry) (g : Nat) : Part :=
  { p.storeEntry e with nv := { (p.storeEntry e).nv with areaGeneration := g } }

theorem Part.storeGeneration_written :
    (p.storeEntry e).storeGeneration g later true = (p.areaStored e g).offerStored g later := rfl

/-- The PRICE_STORED record is offered with the article area written: what the journal answers. -/
theorem Part.offerStored_fault (h : p.tj.fault = true) : p.offerStored g later = p.withStoreBack (.owed g) := if_pos h

theorem Part.offerStored_full (h : p.tj.fault = false) (hspace : p.hasSpace 24 1 = false) :
    p.offerStored g later = p.withStoreBack (.storing g .refused later) :=
  (if_neg (by rw [h]; decide)).trans (if_pos (by rw [show p.hasSpace (Record.priceStored g).length sharedReserve = false from hspace]; rfl))

theorem Part.offerStored_queues (h : p.tj.fault = false) (hspace : p.hasSpace 24 1 = true) :
    p.offerStored g later = (p.queueOrWait (.priceStored g)).withStoreBack (.storing g .queued later) :=
  (if_neg (by rw [h]; decide)).trans (if_neg (by rw [show p.hasSpace (Record.priceStored g).length sharedReserve = true from hspace]; decide))

/-- A write that fails owes the store-back and latches STORE_FAULT with the article area. -/
theorem Part.owe_parts (p : Part) (g : Nat) : (p.owe g).nv = p.nv ∧ (p.owe g).art = { p.art with storeBack := .owed g }
    ∧ (p.owe g).tj = p.tj ∧ (p.owe g).om = p.om ∧ (p.owe g).lu = p.lu ∧ (p.owe g).tt = p.tt
    ∧ (p.owe g).ml.latches.get .storeFault = ⟨true, some (.store .articleArea)⟩ :=
  ⟨rfl, rfl, rfl, rfl, rfl, rfl, (Part.latch_get _ _ _ _).trans (if_pos rfl)⟩

theorem Part.spoilEntry_parts (p : Part) (e : ChangeEntry) : (p.spoilEntry e).art = p.art
    ∧ (p.spoilEntry e).nv.areaGeneration = p.nv.areaGeneration ∧ (p.spoilEntry e).tj = p.tj := by
  unfold Part.spoilEntry
  split <;> exact ⟨rfl, rfl, rfl⟩

end

/-- What the switch leaves at a station, by its selection: none, an article that is gone or held, one that was put, any other. -/
theorem switched_station {q : Part} {old : Selection} {c : Channel} {es : List ChangeEntry} {st : StationNo}
    (hselection : q.art.selections.get st
      = (old.switched es (old.article.bind fun n => lookup Article.number n q.art.table)).1)
    (hchannel : q.wc.get st
      = c.reported (old.switched es (old.article.bind fun n => lookup Article.number n q.art.table)).2) :
    let new := q.art.selections.get st
    let bare : Tare := if c.tare.kind = .preset then ⟨.none, 0⟩ else c.tare
    let withTare (x : Tare) : Prop := q.wc.get st = { c with tare := x }
    (old.article = none → new = { old with repeatEntry := none, override := none } ∧ q.wc.get st = c)
    ∧ ∀ n, old.article = some n →
      (lookup Article.number n q.art.table = none → new = ⟨none, 1, none, none⟩ ∧ withTare bare)
      ∧ ∀ a, lookup Article.number n q.art.table = some a →
        (a.held = true → new = ⟨none, 1, none, none⟩ ∧ withTare bare)
        ∧ (a.held = false → (∃ b, lookup ChangeEntry.number n es = some (.put b)) → new = ⟨some n, 1, none, none⟩
          ∧ (∀ v, a.presetTare = some v → 0 < v → v ≤ c.cal.max → bare.kind = .none → withTare ⟨.preset, v⟩)
          ∧ (a.presetTare = none ∨ (∃ v, a.presetTare = some v ∧ (v = 0 ∨ c.cal.max < v)) ∨ bare.kind ≠ .none →
              withTare bare))
        ∧ (a.held = false → (∀ b, lookup ChangeEntry.number n es ≠ some (.put b)) →
            new = { old with repeatEntry := none, override := none } ∧ q.wc.get st = c) := by
  refine ⟨fun h => ?_, fun n hn => ⟨fun hgone => ?_, fun a ha => ⟨fun hheld => ?_, fun hheld hput => ?_, fun hheld hput => ?_⟩⟩⟩
  · rw [hselection, hchannel, h]
    simp only [Selection.switched, h, Channel.reported, and_self]
  · rw [hn, Option.bind_some, hgone, Selection.switched_gone hn] at hselection hchannel
    exact ⟨hselection, hchannel⟩
  · rw [hn, Option.bind_some, ha, Selection.switched_held hn hheld] at hselection hchannel
    exact ⟨hselection, hchannel⟩
  · rw [hn, Option.bind_some, ha, Selection.switched_put hn hheld hput] at hselection hchannel
    refine ⟨hselection, fun v hv hpos hmax hbare => hchannel.trans ?_, fun hkept => hchannel.trans ?_⟩
    · rw [hv]
      exact congrArg (fun x => { c with tare := x }) (Channel.presetFor_fit hbare hpos hmax)
    · exact congrArg (fun x => { c with tare := x }) (Channel.presetFor_kept hkept)
  · rw [hn, Option.bind_some, ha, Selection.switched_other hn hheld hput] at hselection hchannel
    exact ⟨hselection, hchannel⟩

theorem Part.finishStore_idle {p : Part} {g : Nat} (h : p.art.storeBack = .storing g .queued []) :
    p.finishStore = p.withStoreBack .idle := by simp only [Part.finishStore, h]

theorem Part.finishStore_next {p : Part} {g : Nat} {o : OwedGeneration} {rest : List OwedGeneration}
    (h : p.art.storeBack = .storing g .queued (o :: rest)) : p.finishStore = p.beginStore o rest := by
  simp only [Part.finishStore, h]

/-- The end of a PRICE_STORED record with which the store-back becomes another one. -/
theorem exec_priceStoredWritten {s : State} {h : Nat} {x : StoreBack} (hr : s.runs)
    (hf : s.part.inFlight = some (.priceStored h))
    (hx : ∀ a : Part, a.art = s.part.art → a.finishStore = a.withStoreBack x) :
    ∃ q, exec .priceStoredWritten s = .next { s with part := q } ∧ s.part.Appended q (.priceStored h)
      ∧ q.art = { s.part.art with storeBack := x } := by
  have hrun : exec .priceStoredWritten s
      = .next { s with part := (s.part.finishAppend (.priceStored h)).finishStore.judgeErase } :=
    (State.act_runs hr _).trans (by rw [Part.appendWritten_of hf rfl])
  have ha := Part.finishAppend_appended hf
  obtain ⟨-, -, -, hart, -⟩ := s.part.finishAppend_frame (.priceStored h)
  generalize s.part.finishAppend (.priceStored h) = a at ha hart hrun
  rw [hx a hart] at hrun
  obtain ⟨jnv, -, -, jart, -, -, -, -, jtj, -⟩ := (a.withStoreBack x).judgeErase_frame
  exact ⟨_, hrun, ha.kept jnv jtj (by rw [Part.judgeErase_latch _ (by decide)]; rfl),
    jart.trans (congrArg (fun y => { y with storeBack := x }) hart)⟩

/-- Settles O44: the switch station by station by `Part.switchTo_at`, the store-back write by write. -/
theorem priceSwitchAndStoreBack : Obligations.PriceSwitchAndStoreBack := by
  intro s g es e e' later hr
  have hlast (hb : s.part.art.storeBack = .storing g (.writing [e]) later) (x : Bool) : exec (.articleAreaWriteDone true x) s
      = .next { s with part := (s.part.storeEntry e).storeGeneration g later x } :=
    (State.act_runs hr _).trans (by rw [Part.articleAreaWrite_last hb])
  refine ⟨fun t hf => ?switch, fun n he => ?delete, fun a he ha => Part.storeEntry_stored he ha, fun rest x hb => ?goesOn,
    fun hb hfault hspace hplace => ?queued, fun hb => ⟨fun hfault => ?fault, fun hfault hspace => ?full,
      fun hfault hspace hplace => ?waits, ?areaFails⟩, fun rest x hb => ?writeFails,
    fun h hf => ⟨fun hb => ?ends, fun o hb => ?nextGeneration⟩⟩
  case switch =>
    have hrun : exec .priceApplyWritten s = .next { s with part := (s.part.finishAppend (.priceApply g es t)).switchTo g es } :=
      (State.act_runs hr _).trans (by rw [Part.appendWritten_of hf rfl])
    have ha := Part.finishAppend_appended hf
    have hframe := s.part.finishAppend_frame (.priceApply g es t)
    generalize s.part.finishAppend (.priceApply g es t) = a at ha hframe hrun
    obtain ⟨-, htime, hwc, hart, hoc, hom, htc, hlu, htt, hcc, -⟩ := hframe
    obtain ⟨hq, hat⟩ := a.switchTo_at g es
    generalize a.switchTo g es = q at hq hat hrun
    have htable : q.art.table = es.foldl (applyEntry g) s.part.art.table := by rw [hq, ← hart]; rfl
    refine ⟨q, hrun, ?appended, by rw [hq]; rfl, htable, by rw [hq]; rfl,
      fun hasc => by rw [htable]; exact (applyEntries_applied g es _ hasc.table).1, by rw [hq]; rfl, by rw [hq, ← hart]; rfl,
      fun st => ?station, by rw [hq, Part.latch_get]; exact if_pos rfl, ?_⟩
    case appended => rw [hq]; exact ha.kept rfl rfl ((Part.latch_get _ _ _ _).trans (if_neg (by decide)))
    case station =>
      obtain ⟨hselection, hchannel⟩ := hat st
      have hswitch : (a.tableSwitched g es).switchAt es st
          = (s.part.art.selections.get st).switched es ((s.part.art.selections.get st).article.bind
            fun n => lookup Article.number n q.art.table) := by
        rw [htable, ← hart]
        rfl
      rw [hswitch] at hselection hchannel
      rw [hwc] at hchannel
      exact switched_station hselection hchannel
    rw [hq]
    exact ⟨hom, hoc, htc, hlu, htt, hcc⟩
  case delete =>
    subst he
    rfl
  case goesOn => exact (State.act_runs hr _).trans (by rw [Part.articleAreaWrite_goesOn hb]; rfl)
  case queued =>
    refine ⟨_, hlast hb true, ?_⟩
    have hoffer := Part.offerStored_queues (p := s.part.areaStored e g) (g := g) (later := later) hfault hspace
    rw [Part.storeGeneration_written, hoffer]
    have hroom : (s.part.areaStored e g).hasPlace = true := hplace
    simp only [Part.queueOrWait, if_pos hroom]
    exact ⟨rfl, Part.queueRecord_tj _ _, rfl, rfl, rfl, rfl⟩
  case fault =>
    exact (hlast hb true).trans (by rw [Part.storeGeneration_written, Part.offerStored_fault (p := s.part.areaStored e g) hfault]; rfl)
  case full =>
    exact (hlast hb true).trans (by rw [Part.storeGeneration_written, Part.offerStored_full (p := s.part.areaStored e g) hfault hspace]; rfl)
  case waits =>
    have hroom : ¬ (s.part.areaStored e g).hasPlace = true := by
      rw [show (s.part.areaStored e g).hasPlace = false from hplace]
      decide
    refine (hlast hb true).trans ?_
    rw [Part.storeGeneration_written, Part.offerStored_queues (p := s.part.areaStored e g) hfault hspace]
    simp only [Part.queueOrWait, if_neg hroom]
    rfl
  case areaFails =>
    refine ⟨(s.part.storeEntry e).owe g, hlast hb false, ?_⟩
    exact (s.part.storeEntry e).owe_parts g
  case writeFails =>
    refine ⟨(s.part.spoilEntry e).owe g, (State.act_runs hr _).trans (by rw [Part.articleAreaWrite_fails hb]), ?_⟩
    obtain ⟨hart, hgen, htj⟩ := s.part.spoilEntry_parts e
    obtain ⟨onv, oart, otj, -, -, -, olatch⟩ := (s.part.spoilEntry e).owe_parts g
    exact ⟨by rw [oart, hart], by rw [onv, hgen], otj.trans htj, olatch⟩
  case ends => exact exec_priceStoredWritten hr hf fun a ha => Part.finishStore_idle (by rw [ha]; exact hb)
  case nextGeneration => exact exec_priceStoredWritten hr hf fun a ha => Part.finishStore_next (by rw [ha]; exact hb)

end Sys2Proof.Machine
end


-- ==== Sys2Proof/Proofs/Erases.lean ====
section
/-! The erases of sectors (R153 to R155), with the PRICE_STORED that is offered again behind one (R72). -/

namespace Sys2Proof.Machine

section
variable {p a : Part} {i : Nat} {agrees : Bool}

/-- The space that the journal has is read from the sectors, the queue and the write position. -/
theorem Part.hasSpace_congr (hnv : a.nv = p.nv) (htj : a.tj = p.tj) (length reserve : Nat) :
    a.hasSpace length reserve = p.hasSpace length reserve := by
  have hroom : a.room = p.room := by rw [Part.room, hnv, htj, Part.room]
  have hqueued : a.queuedLengths = p.queuedLengths := by rw [Part.queuedLengths, htj, Part.queuedLengths]
  have herased : a.isErased = p.isErased := funext fun j => by rw [Part.isErased, Part.isErased, hnv, htj]
  have hcount : a.erasedCount = p.erasedCount := by rw [Part.erasedCount, Part.erasedCount, herased]
  simp only [Part.hasSpace, hroom, hqueued, hcount]

theorem Part.hasPlace_congr (htj : a.tj = p.tj) : a.hasPlace = p.hasPlace := by rw [Part.hasPlace, Part.hasPlace, htj]

/-! ## An erase begins and resumes (R153, R154) -/

theorem Part.startErase_none (h : p.tt.counter = .starting ∨ p.tj.fault = true ∨ p.tj.erase ≠ none) : p.startErase = p := by
  refine if_pos ?_
  rcases h with h | h | h
  · simp [h]
  · simp [h]
  · simp [Option.isSome_iff_ne_none.2 h]

theorem Part.startErase_begins (hc : p.tt.counter ≠ .starting) (hf : p.tj.fault = false) (he : p.tj.erase = none) :
    p.startErase = (match p.nextErase with
      | none => p
      | some i => p.beginErase i) := if_neg (by simp [hc, hf, he])

theorem Part.nextErase_begun (h : p.begun = some i) : p.nextErase = some i := by simp only [Part.nextErase, h]

theorem Part.nextErase_candidate (h : p.begun = none) : p.nextErase = if p.erasedCount < 4 then p.candidate else none := by
  simp only [Part.nextErase, h]
  rfl

theorem firstRecord_isSome_iff (queue : List Place) : (firstRecord queue).isSome = true ↔ ∃ x, Place.filled x ∈ queue := by
  induction queue with
  | nil => simp [firstRecord]
  | cons y ys ih => cases y <;> simp [firstRecord, ih]

theorem Part.resumeErase_none (h : p.tj.fault = true ∨ ∃ x, Place.filled x ∈ p.tj.queue) : p.resumeErase = p := by
  refine if_pos ?_
  rcases h with h | h
  · simp [h]
  · simp [(firstRecord_isSome_iff _).2 h]

theorem Part.resumeErase_resumes (hf : p.tj.fault = false) (h : ∀ x, Place.filled x ∉ p.tj.queue) : p.resumeErase
    = { p with tj := { p.tj with erase := p.tj.erase.map (fun e => { e with suspended := false }) } } := by
  have hnone : (firstRecord p.tj.queue).isSome = false := Bool.eq_false_iff.2 fun hs => by
    obtain ⟨x, hx⟩ := (firstRecord_isSome_iff _).1 hs
    exact h x hx
  exact if_neg (by simp [hf, hnone])

/-! ## An erase ends (R155) -/

theorem Part.eraseDone_none (h : p.tj.fault = true ∨ p.tj.erase = none ∨ ∃ e, p.tj.erase = some e ∧ e.suspended = true) :
    p.eraseDone agrees = p := by
  unfold Part.eraseDone
  split
  · next e he =>
    refine if_pos ?_
    rcases h with h | h | ⟨x, hx, hs⟩
    · simp [h]
    · cases he.symm.trans h
    · cases he.symm.trans hx
      simp [hs]
  · rfl

theorem Part.eraseDone_ends (hf : p.tj.fault = false) (he : p.tj.erase = some ⟨i, false⟩) :
    p.eraseDone agrees = (p.endErase i agrees).offerAgain := by
  simp only [Part.eraseDone, he, hf, Bool.or_false]
  rfl

/-- What an erase leaves of a sector. -/
def Sector.erasedTo (x : Sector) (agrees : Bool) : Sector :=
  if agrees then .blank else { x with mark := .bad, records := [], torn := none }

theorem Part.endErase_parts (p : Part) (i : Nat) (agrees : Bool) :
    let q := p.endErase i agrees
    q.nv = { p.nv with sectors := p.nv.sectors.modify i (fun x => x.erasedTo agrees) }
    ∧ q.tj = { p.tj with erase := none } ∧ q.om = p.om ∧ q.lu = p.lu ∧ q.tt = p.tt ∧ q.art = p.art
    ∧ (agrees = false → q.ml.latches.get .storeFault = ⟨true, some (.store (.sectorBad i))⟩) := by
  cases agrees with
  | true =>
    obtain ⟨jnv, -, -, jart, -, jom, -, jlu, jtj, jtt, -⟩ :=
      Part.judgeErase_frame ({ p with tj := { p.tj with erase := none } }.onSector i (fun _ => .blank))
    exact ⟨jnv, jtj, jom, jlu, jtt, jart, fun h => absurd h (by decide)⟩
  | false =>
    obtain ⟨jnv, -, -, jart, -, jom, -, jlu, jtj, jtt, -⟩ :=
      Part.judgeErase_frame (({ p with tj := { p.tj with erase := none } }.onSector i
        (fun s => { s with mark := .bad, records := [], torn := none })).latchStore (.sectorBad i))
    refine ⟨jnv, jtj, jom, jlu, jtt, jart, fun _ => ?_⟩
    exact (Part.judgeErase_latch _ (by decide)).trans ((Part.latch_get _ _ _ _).trans (if_pos rfl))

theorem Part.offerAgain_none (h : ∀ g later, p.art.storeBack ≠ .storing g .refused later) : p.offerAgain = p := by
  unfold Part.offerAgain
  split
  · exact absurd ‹_› (h _ _)
  · rfl

theorem Part.offerAgain_offers {g : Nat} {later : List OwedGeneration} (h : p.art.storeBack = .storing g .refused later) :
    p.offerAgain = p.offerStored g later := by simp only [Part.offerAgain, h]

end

/-- Settles O45: an erase begins, resumes and ends by the rules of TJ, and a refused PRICE_STORED is offered behind it. -/
theorem erasesBeginAndEnd : Obligations.ErasesBeginAndEnd := by
  refine ⟨fun s hr hf => ⟨?_, ?_, fun agrees => ?_⟩, fun s i hr hc hf => ⟨fun he => ⟨fun hb => ?begun, fun hb h4 hcand => ?candidate,
    fun hb hno => ?noErase⟩, fun he => ?inFlight, fun he => ⟨fun hnone => ?resumes, fun x hx => ?filled, fun agrees => ?suspended⟩,
    fun he hno => ⟨?agrees, ?fails⟩, fun g later agrees he hb => ?offered⟩⟩
  · exact (State.act_runs hr _).trans (by rw [Part.startErase_none (.inr (.inl hf))])
  · exact (State.act_runs hr _).trans (by rw [Part.resumeErase_none (.inl hf)])
  · exact (State.act_runs hr _).trans (by rw [Part.eraseDone_none (.inl hf)])
  case begun =>
    exact (State.act_runs hr _).trans (by rw [Part.startErase_begins hc hf he, Part.nextErase_begun hb]; rfl)
  case candidate =>
    exact (State.act_runs hr _).trans (by
      rw [Part.startErase_begins hc hf he, Part.nextErase_candidate hb, if_pos h4, hcand]
      rfl)
  case noErase =>
    have hnext : s.part.nextErase = none := by
      rw [Part.nextErase_candidate hb]
      split
      · exact hno.resolve_left (by omega)
      · rfl
    exact (State.act_runs hr _).trans (by rw [Part.startErase_begins hc hf he, hnext])
  case inFlight => exact (State.act_runs hr _).trans (by rw [Part.startErase_none (.inr (.inr he))])
  case resumes => exact (State.act_runs hr _).trans (by rw [Part.resumeErase_resumes hf hnone, he]; rfl)
  case filled => exact (State.act_runs hr _).trans (by rw [Part.resumeErase_none (.inr ⟨x, hx⟩)])
  case suspended => exact (State.act_runs hr _).trans (by rw [Part.eraseDone_none (.inr (.inr ⟨_, he, rfl⟩))])
  case agrees =>
    obtain ⟨hnv, htj, hom, hlu, htt, hart, -⟩ := s.part.endErase_parts i true
    refine ⟨_, (State.act_runs hr _).trans (by rw [Part.eraseDone_ends hf he]), ?_⟩
    rw [Part.offerAgain_none (by rw [hart]; exact hno)]
    exact ⟨hnv, htj, hom, hlu, htt, hart⟩
  case fails =>
    obtain ⟨hnv, htj, hom, hlu, htt, hart, hlatch⟩ := s.part.endErase_parts i false
    refine ⟨_, (State.act_runs hr _).trans (by rw [Part.eraseDone_ends hf he]), ?_⟩
    rw [Part.offerAgain_none (by rw [hart]; exact hno)]
    exact ⟨hnv, htj, hlatch rfl, hom, hlu, htt, hart⟩
  case offered =>
    obtain ⟨hnv, htj, hom, hlu, htt, hart, -⟩ := s.part.endErase_parts i agrees
    have hrun : exec (.eraseDone agrees) s = .next { s with part := (s.part.endErase i agrees).offerAgain } :=
      (State.act_runs hr _).trans (by rw [Part.eraseDone_ends hf he])
    rw [Part.offerAgain_offers (by rw [hart]; exact hb)] at hrun
    have hspace := Part.hasSpace_congr (p := { s.part with
      nv := { s.part.nv with sectors := s.part.nv.sectors.modify i (fun x => x.erasedTo agrees) }
      tj := { s.part.tj with erase := none } }) hnv htj 24 1
    have hplace := Part.hasPlace_congr (p := { s.part with tj := { s.part.tj with erase := none } }) htj
    have hfault : (s.part.endErase i agrees).tj.fault = false := by rw [htj]; exact hf
    generalize s.part.endErase i agrees = a at *
    cases hroom : a.hasSpace 24 1 with
    | false =>
      rw [Part.offerStored_full hfault hroom] at hrun
      refine ⟨_, hrun, hnv, hom, hlu, htt, fun _ => ⟨htj, ?_⟩, fun h => absurd (hspace.trans h) (by rw [hroom]; decide)⟩
      refine Eq.trans ?_ hart
      rw [Part.withStoreBack, hart, ← hb]
    | true =>
      rw [Part.offerStored_queues hfault hroom] at hrun
      obtain ⟨qnv, -, -, -, qart, -, qom, -, qlu, qtt, -⟩ := a.queueOrWait_frame (.priceStored g)
      refine ⟨_, hrun, qnv.trans hnv, qom.trans hom, qlu.trans hlu, qtt.trans htt,
        fun h => absurd (hspace.trans h) (by rw [hroom]; decide), fun _ => ⟨?_, fun hp => ?_, fun hp => ?_⟩⟩
      · exact congrArg (fun x => { x with storeBack := .storing g .queued later }) (qart.trans hart)
      · have htaken : (a.queueOrWait (.priceStored g)).tj = a.tj.taking (.filled (.priceStored g)) := by
          rw [Part.queueOrWait, if_pos (hplace.trans hp), Part.queueRecord_tj]
        refine htaken.trans ?_
        rw [htj, Journal.taking]
        cases s.part.tj.queue with
        | nil => rfl
        | cons x xs => cases x <;> rfl
      · have hwaits : a.queueOrWait (.priceStored g) = { a with tj := { a.tj with waiting := some (.priceStored g) } } :=
          if_neg (by rw [hplace.trans hp]; decide)
        rw [hwaits]
        exact congrArg (fun x => { x with waiting := some (.priceStored g) }) htj

end Sys2Proof.Machine
end


-- ==== Sys2Proof/Proofs/Appends.lean ====
section
/-! An append begins, fails and is tried once more, or puts the journal into FAULT (R149 to R151). -/

namespace Sys2Proof.Machine

section
variable {p : Part} {r : Record} {a : Append} {i j : Nat}

/-! ## An append begins (R149) -/

theorem Part.startAppend_none (h : p.tj.fault = true ∨ p.tj.append ≠ none ∨ ∀ x, Place.filled x ∉ p.tj.queue) :
    p.startAppend = p := by
  unfold Part.startAppend
  split
  · rfl
  · next hidle =>
    have hnone : firstRecord p.tj.queue = none := by
      rcases h with h | h | h
      · exact absurd (by simp [h]) hidle
      · exact absurd (by simp [Option.isSome_iff_ne_none.2 h]) hidle
      · refine Option.not_isSome_iff_eq_none.1 fun hs => ?_
        obtain ⟨x, hx⟩ := (firstRecord_isSome_iff _).1 hs
        exact h x hx
    rw [hnone]

theorem Part.startAppend_fits (hf : p.tj.fault = false) (ha : p.tj.append = none) (hr : firstRecord p.tj.queue = some r)
    (h : r.length ≤ p.room) : p.startAppend = p.withAppend (some .first) := by
  simp [Part.startAppend, hf, ha, hr, h]

theorem Part.startAppend_waits (hr : firstRecord p.tj.queue = some r) (h : p.room < r.length)
    (hno : p.sectorToOpen = none) : p.startAppend = p := by
  simp [Part.startAppend, hr, Nat.not_le.2 h, hno]

theorem Part.startAppend_opens (hf : p.tj.fault = false) (ha : p.tj.append = none) (hr : firstRecord p.tj.queue = some r)
    (h : p.room < r.length) (hj : p.sectorToOpen = some j) :
    p.startAppend = (p.openSector j).withAppend (some .first) := by
  simp [Part.startAppend, hf, ha, hr, Nat.not_le.2 h, hj]

/-- A sector that is opened for an append. -/
theorem Part.openSector_append (p : Part) (j : Nat) (x : Append) :
    let q := (p.openSector j).withAppend (some x)
    q.tj = { p.tj with
      writing := some j
      writingSeq := p.tj.nextSeq
      nextSeq := p.tj.nextSeq + 1
      openAfter := j
      append := some x }
    ∧ q.nv = p.nv ∧ q.om = p.om ∧ q.lu = p.lu ∧ q.tt = p.tt ∧ q.art = p.art := by
  obtain ⟨hnv, -, -, hart, -, hom, -, hlu, htj, htt, -⟩ := Part.judgeErase_frame { p with tj := { p.tj with
    writing := some j
    writingSeq := p.tj.nextSeq
    nextSeq := p.tj.nextSeq + 1
    openAfter := j } }
  exact ⟨congrArg (fun t => { t with append := some x }) htj, hnv, hom, hlu, htt, hart⟩

/-! ## An append fails (R150, R151) -/

/-- The part in which the writing sector is marked BAD, the mark itself agreeing or spoilt. -/
def Part.sectorMarked (p : Part) (i : Nat) (spoilt : Bool) : Part :=
  { p with
    nv := { p.nv with sectors := p.nv.sectors.modify i (fun x => { x with
      mark := .bad
      seq := some p.tj.writingSeq
      torn := none
      unreadable := if spoilt then Config.failedMarkUnreadable p.free else x.unreadable }) }
    free := if spoilt then p.free + 1 else p.free }

theorem Part.markBad_eq (p : Part) (i : Nat) : p.markBad i = p.sectorMarked i false := rfl

theorem Part.spoilMark_eq (p : Part) (i : Nat) : p.spoilMark i = p.sectorMarked i true := by
  have htwice := List.modify_modify_eq
    (fun x : Sector => { x with mark := .bad, seq := some p.tj.writingSeq, torn := none })
    (fun s => { s with unreadable := Config.failedMarkUnreadable p.free }) i p.nv.sectors
  exact congrArg (fun ss => { p with
    nv := { p.nv with sectors := ss }
    free := p.free + 1 }) htwice

theorem Part.retryAppend_opens (h : p.sectorToOpen = some j) :
    p.retryAppend i = (p.openSector j).withAppend (some (.retry i)) := by simp only [Part.retryAppend, h]

theorem Part.retryAppend_faults (h : p.sectorToOpen = none) : p.retryAppend i = p.enterFault := by
  simp only [Part.retryAppend, h]

theorem Part.appendFailed_retries (ha : p.tj.append = some .first) (hi : p.tj.writing = some i) :
    p.appendFailed true = (p.sectorMarked i false).retryAppend i := by
  simp only [Part.appendFailed, ha, hi]
  rfl

theorem Part.appendFailed_again (ha : p.tj.append = some a) (hi : p.tj.writing = some i) (h : a ≠ .first) :
    p.appendFailed true = (p.sectorMarked i false).enterFault := by
  simp [Part.appendFailed, ha, hi, h, Part.markBad_eq]

theorem Part.appendFailed_spoilt (ha : p.tj.append = some a) (hi : p.tj.writing = some i) :
    p.appendFailed false = (p.sectorMarked i true).enterFault := by
  simp [Part.appendFailed, ha, hi, Part.spoilMark_eq]

end

/-- Settles O41: an append begins by `Part.startAppend`, and a failed one is judged once the sector is marked BAD. -/
theorem appendsStartAndFail : Obligations.AppendsStartAndFail := by
  intro s r a i hr
  refine ⟨fun h => ?idle, fun hf ha hq => ⟨fun hfits => ?fits, fun hno hnone => ?waits, fun j hno hj => ?opens⟩,
    fun ha hi => ⟨fun j hfirst hj => ?retries, fun h => ?faults, ?spoilt⟩⟩
  case idle => exact (State.act_runs hr _).trans (by rw [Part.startAppend_none h])
  case fits => exact (State.act_runs hr _).trans (by rw [Part.startAppend_fits hf ha hq hfits]; rfl)
  case waits => exact (State.act_runs hr _).trans (by rw [Part.startAppend_waits hq hno hnone])
  case opens =>
    obtain ⟨htj, hnv, hom, hlu, htt, -⟩ := s.part.openSector_append j .first
    exact ⟨_, (State.act_runs hr _).trans (by rw [Part.startAppend_opens hf ha hq hno hj]), htj, hnv, hom, hlu, htt⟩
  case retries =>
    subst hfirst
    have hmarked : (s.part.sectorMarked i false).sectorToOpen = some j := hj
    obtain ⟨htj, hnv, hom, hlu, htt, hart⟩ := (s.part.sectorMarked i false).openSector_append j (.retry i)
    exact ⟨_, (State.act_runs hr _).trans (by rw [Part.appendFailed_retries ha hi, Part.retryAppend_opens hmarked]),
      hnv, htj, hom, hlu, htt, hart⟩
  case faults =>
    by_cases hfirst : a = .first
    · subst hfirst
      have hnone : (s.part.sectorMarked i false).sectorToOpen = none := h.resolve_left (fun hx => hx rfl)
      exact (State.act_runs hr _).trans (by rw [Part.appendFailed_retries ha hi, Part.retryAppend_faults hnone]; rfl)
    · exact (State.act_runs hr _).trans (by rw [Part.appendFailed_again ha hi hfirst]; rfl)
  case spoilt => exact (State.act_runs hr _).trans (by rw [Part.appendFailed_spoilt ha hi]; rfl)

end Sys2Proof.Machine
end


-- ==== Sys2Proof/Proofs/Sectors.lean ====
section
/-! The layout of records in sectors, the room of the journal, its sectors and the erase candidate (R145 to R148, R152). -/

namespace Sys2Proof.Machine

/-! ## The layout of records (R148) -/

/-- Records laid out in order: the first ones in the room that is left, each later group in a fresh sector, which begins where
the next record does not fit. -/
structure LaidOut (room : Nat) (lens first : List Nat) (fresh : List (List Nat)) : Prop where
  order : lens = first ++ fresh.flatten
  fits : first.sum ≤ room
  groups : ∀ x ∈ fresh, x ≠ [] ∧ x.sum ≤ 4064
  opens : ∀ len rest more, fresh = (len :: rest) :: more → room < first.sum + len
  goesOn : ∀ less x len rest more, fresh = less ++ x :: (len :: rest) :: more → 4064 < x.sum + len

theorem LaidOut.joins {room len : Nat} {lens first : List Nat} {fresh : List (List Nat)}
    (h : LaidOut (room - len) lens first fresh) (hlen : len ≤ room) : LaidOut room (len :: lens) (len :: first) fresh where
  order := by rw [h.order]; rfl
  fits := by have := h.fits; rw [List.sum_cons]; omega
  groups := h.groups
  opens l rest more he := by have := h.opens l rest more he; rw [List.sum_cons]; omega
  goesOn := h.goesOn

theorem LaidOut.freshSector {room len : Nat} {lens first : List Nat} {fresh : List (List Nat)}
    (h : LaidOut (4064 - len) lens first fresh) (hlen : len ≤ 4064) (hno : room < len) :
    LaidOut room (len :: lens) [] ((len :: first) :: fresh) where
  order := by rw [h.order]; rfl
  fits := Nat.zero_le _
  groups x hx := by
    rcases List.mem_cons.1 hx with rfl | hx
    · have := h.fits
      exact ⟨List.cons_ne_nil _ _, by rw [List.sum_cons]; omega⟩
    · exact h.groups x hx
  opens l rest more he := by
    obtain ⟨hl, -⟩ := List.cons.inj he
    obtain ⟨rfl, -⟩ := List.cons.inj hl
    simpa using hno
  goesOn less x l rest more he := by
    cases less with
    | nil =>
      obtain ⟨hx, hmore⟩ := List.cons.inj he
      have := h.opens l rest more hmore
      rw [← hx, List.sum_cons]
      omega
    | cons y ys => exact h.goesOn ys x l rest more (List.cons.inj he).2

theorem freshSectors_laidOut (room : Nat) (lens : List Nat) (h : ∀ x ∈ lens, x ≤ 4064) :
    ∃ first fresh, LaidOut room lens first fresh ∧ freshSectors room lens = fresh.length := by
  induction lens generalizing room with
  | nil => exact ⟨[], [], ⟨rfl, Nat.zero_le _, nofun, nofun, by simp⟩, rfl⟩
  | cons len lens ih =>
    have hlens := fun x hx => h x (List.mem_cons_of_mem _ hx)
    by_cases hlen : len ≤ room
    · obtain ⟨first, fresh, hout, hcount⟩ := ih (room - len) hlens
      exact ⟨len :: first, fresh, hout.joins hlen, by rw [freshSectors, if_pos hlen, hcount]⟩
    · obtain ⟨first, fresh, hout, hcount⟩ := ih (4064 - len) hlens
      refine ⟨[], (len :: first) :: fresh, hout.freshSector (h len List.mem_cons_self) (by omega), ?_⟩
      rw [freshSectors, if_neg hlen, List.length_cons, ← hcount]
      rfl

/-! ## Lists gathered by key -/

section
variable {α : Type} {key : α → Nat} {x y : α} {n : Nat}

theorem mem_foldl_insertByKey {l acc : List α} (h : y ∈ l.foldl (fun a x => insertByKey key x a) acc) : y ∈ acc ∨ y ∈ l := by
  induction l generalizing acc with
  | nil => exact .inl h
  | cons z zs ih =>
    rcases ih h with h | h
    · rcases mem_insertByKey h with rfl | h
      · exact .inr List.mem_cons_self
      · exact .inl h
    · exact .inr (List.mem_cons_of_mem _ h)

/-- A key of an element that is gathered is the key of one that is kept. -/
theorem lookup_foldl_isSome {l acc : List α} (h : (lookup key n acc).isSome = true ∨ ∃ y ∈ l, key y = n) :
    (lookup key n (l.foldl (fun a x => insertByKey key x a) acc)).isSome = true := by
  induction l generalizing acc with
  | nil => exact h.resolve_right (by simp)
  | cons z zs ih =>
    refine ih ?_
    rw [lookup_insertByKey]
    by_cases hz : key z = n
    · exact .inl (by rw [if_pos hz]; rfl)
    · rw [if_neg hz]
      refine h.imp id fun ⟨y, hy, hyn⟩ => ⟨y, (List.mem_cons.1 hy).resolve_left (fun he => hz (he ▸ hyn)), hyn⟩

/-- An element whose key no other one has is kept. -/
theorem lookup_foldl_unique {l acc : List α} (h : lookup key n acc = some x ∨ x ∈ l) (hx : key x = n)
    (hu : ∀ y ∈ l, key y = n → y = x) : lookup key n (l.foldl (fun a x => insertByKey key x a) acc) = some x := by
  induction l generalizing acc with
  | nil => exact h.resolve_right (by simp)
  | cons z zs ih =>
    refine ih ?_ fun y hy => hu y (List.mem_cons_of_mem _ hy)
    rw [lookup_insertByKey]
    by_cases hz : key z = n
    · exact .inl (by rw [if_pos hz, hu z List.mem_cons_self hz])
    · rw [if_neg hz]
      exact h.imp id fun hm => (List.mem_cons.1 hm).resolve_left fun he => hz (by rw [← he]; exact hx)

end

/-! ## The sectors of the journal (R152, R158) -/

section
variable {ss : List Sector} {x y : Indexed}

theorem mem_indexed : x ∈ indexed ss ↔ ss[x.index]? = some x.sector := by
  rw [indexed, List.mem_map]
  constructor
  · rintro ⟨⟨s, i⟩, h, rfl⟩
    exact List.mem_zipIdx_iff_getElem?.1 h
  · exact fun h => ⟨(x.sector, x.index), List.mem_zipIdx_iff_getElem?.2 h, rfl⟩

theorem live_iff (s : Sector) : s.live = true ↔ s.mark = .inUse ∨ s.mark = .sealed := by simp [Sector.live]

theorem readable_iff (s : Sector) :
    s.readable = true ↔ ((s.mark = .inUse ∨ s.mark = .sealed) ∨ s.mark = .bad) ∧ s.seq ≠ none := by
  simp [Sector.readable, live_iff, Option.isSome_iff_ne_none]

theorem dead_iff (s : Sector) : s.dead ss = true ↔ s.mark = .bad ∧ (∃ z ∈ ss, z.mark = .inUse ∨ z.mark = .sealed)
    ∧ ∀ z ∈ ss, z.mark = .inUse ∨ z.mark = .sealed → s.seq.getD 0 < z.seq.getD 0 := by
  simp only [Sector.dead, Bool.and_eq_true, decide_eq_true_eq, List.any_eq_true, List.all_eq_true, List.mem_filter, live_iff,
    and_imp, and_assoc]

theorem journalSectors_ascending (ss : List Sector) : ((journalSectors ss).map Indexed.seq).Pairwise (· < ·) :=
  ascending_foldl_insertByKey _ _ .nil

theorem mem_journalSectors (h : x ∈ journalSectors ss) :
    ss[x.index]? = some x.sector ∧ x.sector.readable = true ∧ x.sector.dead ss = false := by
  have hmem := (mem_foldl_insertByKey h).resolve_left (by simp)
  obtain ⟨hindexed, htest⟩ := List.mem_filter.1 hmem
  exact ⟨mem_indexed.1 hindexed, by simpa using htest⟩

theorem mem_journalSectors_of (hs : ss[x.index]? = some x.sector) (hr : x.sector.readable = true)
    (hd : x.sector.dead ss = false)
    (hu : ∀ j y, ss[j]? = some y → y.readable = true → y.seq = x.sector.seq → j = x.index) : x ∈ journalSectors ss := by
  refine lookup_mem (key := Indexed.seq) (n := x.seq) (lookup_foldl_unique (.inr (List.mem_filter.2 ⟨mem_indexed.2 hs, by
    simp [hr, hd]⟩)) rfl fun y hy hseq => ?_)
  obtain ⟨hindexed, htest⟩ := List.mem_filter.1 hy
  have hys := mem_indexed.1 hindexed
  have hyr : y.sector.readable = true := (Bool.and_eq_true_iff.1 htest).1
  have hseq' : y.sector.seq = x.sector.seq := by
    obtain ⟨a, ha⟩ := Option.ne_none_iff_exists'.1 ((readable_iff _).1 hyr).2
    obtain ⟨b, hb⟩ := Option.ne_none_iff_exists'.1 ((readable_iff _).1 hr).2
    rw [ha, hb]
    simpa [Indexed.seq, ha, hb] using hseq
  have hindex := hu y.index y.sector hys hyr hseq'
  rw [hindex, hs] at hys
  cases x
  cases y
  simp_all

/-! ## Erasable sectors and the candidate (R152) -/

theorem stores_iff (g : Nat) (r : Record) : r.stores g = true ↔ r = .priceStored g := by
  cases r with
  | priceStored h => simpa [Record.stores] using eq_comm
  | _ => simp [Record.stores]

theorem allStored_iff (own rest : List Record) : allStored own rest = true
    ↔ ∀ before g es t behind, own = before ++ .priceApply g es t :: behind →
      .priceStored g ∈ behind ∨ .priceStored g ∈ rest := by
  induction own with
  | nil => simp [allStored]
  | cons r own ih =>
    have htail : allStored (r :: own) rest = true
        ↔ (∀ g es t, r = .priceApply g es t → .priceStored g ∈ own ∨ .priceStored g ∈ rest) ∧ allStored own rest = true := by
      cases r with
      | priceApply g es t => simp [allStored, stores_iff, or_and_right]
      | _ => simp [allStored]
    rw [htail, ih]
    constructor
    · rintro ⟨hfirst, hrest⟩ before g es t behind he
      cases before with
      | nil =>
        obtain ⟨hr, rfl⟩ := List.cons.inj he
        exact hfirst g es t hr
      | cons y ys => exact hrest ys g es t behind (List.cons.inj he).2
    · refine fun h => ⟨fun g es t hr => h [] g es t own (by rw [hr]; rfl), fun before g es t behind he => ?_⟩
      exact h (r :: before) g es t behind (by rw [he]; rfl)

/-- The last element of a list in ascending key has the highest one. -/
theorem le_getLast {α : Type} {key : α → Nat} {l : List α} {x z : α} (h : (l.map key).Pairwise (· < ·))
    (hz : l.getLast? = some z) (hx : x ∈ l) : key x ≤ key z := by
  obtain ⟨ys, rfl⟩ := List.getLast?_eq_some_iff.1 hz
  rw [List.map_append, List.pairwise_append] at h
  rcases List.mem_append.1 hx with hx | hx
  · exact Nat.le_of_lt (h.2.2 _ (List.mem_map_of_mem hx) _ (by simp))
  · rw [List.mem_singleton.1 hx]

theorem holdsClose_iff (s : Sector) : s.journal.any (fun r => r.dayClose?.isSome) = true ↔ ∃ d, .dayClose d ∈ s.journal := by
  rw [List.any_eq_true]
  constructor
  · rintro ⟨r, hr, hd⟩
    cases r <;> simp [Record.dayClose?] at hd
    exact ⟨_, hr⟩
  · exact fun ⟨d, hd⟩ => ⟨_, hd, rfl⟩

theorem closeSeq_above (n : Nat) : (closeSeq ss).any (fun c => n < c) = true
    ↔ ∃ y ∈ journalSectors ss, n < y.seq ∧ ∃ d, .dayClose d ∈ y.sector.journal := by
  rw [closeSeq, Option.any_map]
  have hascending := (journalSectors_ascending ss).sublist
    ((List.filter_sublist (p := fun s => s.sector.journal.any (fun r => r.dayClose?.isSome))).map Indexed.seq)
  have hmem (y : Indexed) : y ∈ (journalSectors ss).filter (fun s => s.sector.journal.any (fun r => r.dayClose?.isSome))
      ↔ y ∈ journalSectors ss ∧ ∃ d, .dayClose d ∈ y.sector.journal := by rw [List.mem_filter, holdsClose_iff]
  generalize (journalSectors ss).filter (fun s => s.sector.journal.any (fun r => r.dayClose?.isSome)) = l at *
  constructor
  · rw [Option.any_eq_true]
    rintro ⟨z, hz, hn⟩
    obtain ⟨hj, hd⟩ := (hmem z).1 (List.mem_of_getLast? hz)
    exact ⟨z, hj, by simpa using hn, hd⟩
  · rintro ⟨y, hj, hn, hd⟩
    have hy := (hmem y).2 ⟨hj, hd⟩
    obtain ⟨z, hz⟩ := Option.ne_none_iff_exists'.1 (mt List.getLast?_eq_none_iff.1 (List.ne_nil_of_mem hy))
    have := le_getLast hascending hz hy
    rw [hz]
    simpa using Nat.lt_of_lt_of_le hn this

theorem erasable_iff (x : Indexed) : erasable ss x = true ↔ x.sector.records = []
    ∨ (∃ y ∈ journalSectors ss, x.seq < y.seq ∧ ∃ d, .dayClose d ∈ y.sector.journal)
      ∧ ∀ before g es t behind, x.sector.journal = before ++ .priceApply g es t :: behind →
        .priceStored g ∈ behind ∨ ∃ y ∈ journalSectors ss, x.seq < y.seq ∧ .priceStored g ∈ y.sector.journal := by
  simp only [erasable, Bool.or_eq_true, Bool.and_eq_true, List.isEmpty_iff, closeSeq_above, allStored_iff, List.mem_flatMap,
    List.mem_filter, decide_eq_true_eq, and_assoc]

end

section
variable {p : Part} {i : Nat} {y z : Indexed}

/-- A FULL sector (Table 52). -/
def Part.fullSector (p : Part) (y : Indexed) : Prop :=
  p.nv.sectors[y.index]? = some y.sector ∧ (y.sector.mark = .inUse ∨ y.sector.mark = .sealed) ∧ p.tj.writing ≠ some y.index

theorem mem_fullSectors : y ∈ (indexed p.nv.sectors).filter (fun s => s.sector.live && p.tj.writing ≠ some s.index)
    ↔ p.fullSector y := by
  rw [List.mem_filter, mem_indexed, Bool.and_eq_true, live_iff, decide_eq_true_eq, Part.fullSector]

/-- The lowest FULL sector is one, and no other lies below it. -/
theorem lowestFull_spec (h : p.lowestFull = some y) : p.fullSector y ∧ ∀ z, p.fullSector z → y.seq ≤ z.seq := by
  obtain ⟨rest, hrest⟩ := List.head?_eq_some_iff.1 h
  have hascending := ascending_foldl_insertByKey (key := Indexed.seq)
    ((indexed p.nv.sectors).filter (fun s => s.sector.live && p.tj.writing ≠ some s.index)) [] .nil
  refine ⟨mem_fullSectors.1 ((mem_foldl_insertByKey (key := Indexed.seq) (acc := []) (by rw [hrest]; exact List.mem_cons_self)).resolve_left
    (by simp)), fun z hz => ?_⟩
  obtain ⟨w, hw⟩ := Option.isSome_iff_exists.1 (lookup_foldl_isSome (key := Indexed.seq) (acc := [])
    (.inr ⟨z, mem_fullSectors.2 hz, rfl⟩))
  have hmem := lookup_mem hw
  rw [hrest] at hascending hmem
  rw [← lookup_key hw]
  rcases List.mem_cons.1 hmem with rfl | hmem
  · exact Nat.le_refl _
  · exact Nat.le_of_lt ((List.pairwise_cons.1 hascending).1 _ (List.mem_map_of_mem hmem))

theorem lowestFull_exists (h : p.fullSector y) : ∃ z, p.lowestFull = some z := by
  refine Option.ne_none_iff_exists'.1 fun hnone => ?_
  have hempty := List.head?_eq_none_iff.1 hnone
  have hsome := lookup_foldl_isSome (key := Indexed.seq) (acc := []) (n := y.seq) (.inr ⟨y, mem_fullSectors.2 h, rfl⟩)
  rw [hempty] at hsome
  cases hsome

/-- A sector that may be erased with every BAD sector below it. -/
def Part.mayGo (p : Part) (y : Indexed) : Prop := erasable p.nv.sectors y = true
  ∧ ∀ j z, p.nv.sectors[j]? = some z → z.mark = .bad → z.seq.getD 0 < y.seq → erasable p.nv.sectors ⟨j, z⟩ = true

theorem candidate_of_lowest (h : p.lowestFull = some y) : p.candidate = some i ↔ y.index = i ∧ p.mayGo y := by
  have htest : (erasable p.nv.sectors y && (indexed p.nv.sectors).all (fun t =>
      !(t.sector.mark = .bad && t.seq < y.seq) || erasable p.nv.sectors t)) = true ↔ p.mayGo y := by
    rw [Bool.and_eq_true, List.all_eq_true, Part.mayGo]
    refine and_congr_right fun _ => ⟨fun hall j z hz hbad hlow => ?_, fun hall t ht => ?_⟩
    · have := hall ⟨j, z⟩ (mem_indexed.2 hz)
      have hbelow : Indexed.seq ⟨j, z⟩ < y.seq := hlow
      simpa [hbad, hbelow] using this
    · have := hall t.index t.sector (mem_indexed.1 ht)
      by_cases hbad : t.sector.mark = .bad
      · by_cases hlow : t.seq < y.seq
        · simp [hbad, hlow, this hbad hlow]
        · simp [hlow]
      · simp [hbad]
  simp only [Part.candidate, h]
  split
  · next hx => simp [htest.1 hx]
  · next hx => simp [mt htest.2 hx]

theorem candidate_none (h : p.lowestFull = none) : p.candidate = none := by simp only [Part.candidate, h]

end

/-- The space of the journal, by the length that each place of the queue takes. -/
theorem Part.hasSpace_iff {p : Part} {f : Place → Nat} {length reserve : Nat} (hf : ∀ x : Place, x.length = f x) :
    p.hasSpace length reserve = true
      ↔ freshSectors p.room (p.tj.queue.map f ++ (p.tj.waiting.map Record.length).toList ++ [length]) = 0
        ∨ freshSectors p.room (p.tj.queue.map f ++ (p.tj.waiting.map Record.length).toList ++ [length]) + reserve
          ≤ p.erasedCount := by
  obtain rfl : f = Place.length := funext fun x => (hf x).symm
  rw [Part.hasSpace, Part.queuedLengths, Bool.or_eq_true, beq_iff_eq, decide_eq_true_eq]

/-- Settles O46: the layout by induction over the lengths, the sectors by the list that gathers them by sequence number. -/
theorem journalRoomAndErasableSectors : Obligations.JournalRoomAndErasableSectors := by
  refine ⟨fun room lens h => ?layout, fun p length reserve => ⟨fun h => ?noRoom, fun i x hw hx => ?room, ?erased, ?space, ?place,
    ?checks⟩, fun n owner f index supervisor count total value label ticket mark wait st g es t d =>
      ⟨rfl, rfl, rfl, rfl, rfl, rfl, rfl, rfl⟩,
    fun ss x => ⟨journalSectors_ascending ss, fun h => ?member, fun hs hr hd hu => ?read, erasable_iff x⟩,
    fun p i => ⟨fun h => ?lowest, fun y hi hfull hgo hu => ?only⟩⟩
  case layout =>
    obtain ⟨first, fresh, hout, hcount⟩ := freshSectors_laidOut room lens h
    exact ⟨first, fresh, hout.order, hout.fits, hout.groups, hout.opens, hout.goesOn, hcount⟩
  case noRoom => rw [Part.room, h]
  case room => rw [Part.room, hw]; simp only [hx]; rfl
  case erased =>
    refine congrArg List.length (List.filter_congr fun i _ => ?_)
    simp [Part.isErased]
  case space =>
    exact Part.hasSpace_iff fun x => by
      cases x with
      | filled r => rfl
      | held m k => cases k <;> rfl
  case place => rw [Part.hasPlace, Bool.and_eq_true, Option.isNone_iff_eq_none, decide_eq_true_eq]; rfl
  case checks =>
    rw [Part.journalCheck]
    cases p.hasSpace length reserve <;> cases p.hasPlace <;> rfl
  case member =>
    obtain ⟨hs, hr, hd⟩ := mem_journalSectors h
    exact ⟨hs, (readable_iff _).1 hr, fun hx => by rw [(dead_iff _).2 hx] at hd; cases hd⟩
  case read =>
    exact mem_journalSectors_of hs ((readable_iff _).2 hr) (Bool.eq_false_iff.2 fun hx => hd ((dead_iff _).1 hx))
      fun j y hy hyr hseq => hu j y hy ((readable_iff _).1 hyr) hseq
  case lowest =>
    cases hl : p.lowestFull with
    | none => cases h.symm.trans (candidate_none hl)
    | some y =>
      obtain ⟨hi, hgo⟩ := (candidate_of_lowest hl).1 h
      obtain ⟨hfull, hlow⟩ := lowestFull_spec hl
      exact ⟨y, hi, hfull, hgo, hlow⟩
  case only =>
    obtain ⟨z, hz⟩ := lowestFull_exists (p := p) hfull
    obtain ⟨hzfull, hlow⟩ := lowestFull_spec hz
    have hindex : z.index = i := by
      by_contra hne
      exact absurd (hlow y hfull) (Nat.not_le.2 (hu z hzfull hne))
    have hyz : z = y := by
      have hsector := hzfull.1
      rw [hindex, ← hi, hfull.1] at hsector
      cases y
      cases z
      simp_all
    exact (candidate_of_lowest hz).2 ⟨hindex, hyz ▸ hgo⟩

end Sys2Proof.Machine
end


-- ==== Sys2Proof/Proofs/LabelContent.lean ====
section
/-! What a label carries: the fields of its line, its code and its sell-by date (Table 47, R49, R50, R129 to R131). -/

namespace Sys2Proof.Machine

/-! ## Digits (R49, R50) -/

theorem length_decimal (n k : Nat) : (decimal n k).length = k := by
  induction k with
  | zero => rfl
  | succ k ih => rw [decimal, List.length_cons, ih]

theorem decimal_le {n k d : Nat} (h : d ∈ decimal n k) : d ≤ 9 := by
  induction k with
  | zero => cases h
  | succ k ih =>
    rcases List.mem_cons.1 h with rfl | h
    · omega
    · exact ih h

/-- Digits that are read behind a number. -/
theorem foldl_decimal (acc n k : Nat) :
    (decimal n k).foldl (fun m d => 10 * m + d) acc = acc * 10 ^ k + n % 10 ^ k := by
  induction k generalizing acc with
  | zero => simp [decimal, Nat.mod_one]
  | succ k ih =>
    rw [decimal, List.foldl_cons, ih, Nat.mod_pow_succ, pow_succ]
    ring

/-- The digits of a code that reads as a value (R49, R50). -/
theorem withCheck_reads (a b c i j k : Nat) (h : i + j + k = 12) :
    ∃ digits : List Nat, withCheck (decimal a i ++ decimal b j ++ decimal c k) = digits ++ [checkDigit digits]
      ∧ digits.length = 12 ∧ (∀ d ∈ digits, d ≤ 9)
      ∧ digits.foldl (fun n d => 10 * n + d) 0 = (a % 10 ^ i * 10 ^ j + b % 10 ^ j) * 10 ^ k + c % 10 ^ k := by
  refine ⟨_, rfl, by simp only [List.length_append, length_decimal, h], fun d hd => ?_, ?_⟩
  · rcases List.mem_append.1 hd with hd | hd
    · exact (List.mem_append.1 hd).elim decimal_le decimal_le
    · exact decimal_le hd
  · rw [List.foldl_append, List.foldl_append, foldl_decimal, foldl_decimal, foldl_decimal, Nat.zero_mul, Nat.zero_add]

/-! ## The calendar of a sell-by date (R129) -/

/-- A date of the calendar up to the year 2100. -/
structure Date.Valid (d : Date) : Prop where
  year : 2000 ≤ d.year ∧ d.year ≤ 2100
  month : 1 ≤ d.month ∧ d.month ≤ 12
  day : 1 ≤ d.day ∧ d.day ≤ monthLength d.year d.month

theorem monthLength_le (y m : Nat) : 28 ≤ monthLength y m ∧ monthLength y m ≤ 31 := by
  unfold monthLength
  split
  · split <;> decide
  all_goals decide

theorem daysBefore_succ (y : Nat) {m : Nat} (h : 1 ≤ m) : daysBefore y (m + 1) = daysBefore y m + monthLength y m := by
  obtain ⟨k, rfl⟩ := Nat.exists_eq_add_of_le' h
  rfl

theorem daysBefore_december (y : Nat) : daysBefore y 12 = 306 + monthLength y 2 := by
  simp only [daysBefore, monthLength]
  omega

theorem monthLength_two (y : Nat) : monthLength y 2 = if isLeap y = true then 29 else 28 := rfl

theorem monthLength_february_le (y : Nat) : monthLength y 2 ≤ 29 := by
  rw [monthLength_two]
  split <;> decide

theorem daysBefore_le (y : Nat) {m : Nat} (h : m ≤ 12) : daysBefore y m ≤ 335 := by
  have hstep : ∀ k, daysBefore y k ≤ daysBefore y (k + 1) := fun k => by
    cases k with
    | zero => exact Nat.zero_le _
    | succ k => rw [daysBefore_succ y (Nat.le_add_left 1 k)]; exact Nat.le_add_right _ _
  have hle := monotone_nat_of_le_succ hstep h
  have hlength := monthLength_february_le y
  rw [daysBefore_december] at hle
  omega

/-- The days of a year that are not yet counted at its last day. -/
theorem monthLength_february {y : Nat} (h : 2000 ≤ y) (h' : y ≤ 2099) :
    (y + 1 - 2000 + 3) / 4 = (y - 2000 + 3) / 4 + (monthLength y 2 - 28) := by
  rw [monthLength_two]
  by_cases hleap : y % 4 = 0
  · rw [if_pos (by simp [isLeap, hleap]; omega)]
    omega
  · rw [if_neg (by simp [isLeap, hleap])]
    omega

/-- The next date is one day later, within the year 2100 while the year 2100 has not ended. -/
theorem Date.Valid.following {d : Date} (h : d.Valid) (hend : d.year ≤ 2099 ∨ d.month < 12) :
    d.following.Valid ∧ d.following.dayNumber = d.dayNumber + 1 ∧ d.year ≤ d.following.year := by
  obtain ⟨⟨hy0, hy1⟩, ⟨hm0, hm1⟩, hd0, hd1⟩ := h
  unfold Date.following
  split
  · next hlt => exact ⟨⟨⟨hy0, hy1⟩, ⟨hm0, hm1⟩, by dsimp only; omega, hlt⟩, by simp only [Date.dayNumber]; omega, Nat.le_refl _⟩
  · next hlast =>
    split
    · next hmonth =>
      have hlength := (monthLength_le d.year (d.month + 1)).1
      refine ⟨⟨⟨hy0, hy1⟩, ⟨by dsimp only; omega, hmonth⟩, Nat.le_refl _, by dsimp only; omega⟩, ?_, Nat.le_refl _⟩
      simp only [Date.dayNumber, daysBefore_succ d.year hm0]
      omega
    · next hmonth =>
      have hyear : d.year ≤ 2099 := hend.resolve_right hmonth
      have hdecember : d.month = 12 := by omega
      have hday : d.day = 31 := by
        rw [hdecember] at hd1 hlast
        have : monthLength d.year 12 = 31 := rfl
        omega
      have hfebruary := monthLength_february hy0 hyear
      have hlength := (monthLength_le d.year 2).1
      refine ⟨⟨⟨by dsimp only; omega, by dsimp only; omega⟩, ⟨Nat.le_refl _, by dsimp only; omega⟩, Nat.le_refl _,
        (by decide : 1 ≤ 28).trans (monthLength_le _ _).1⟩, ?_, by dsimp only; omega⟩
      simp only [Date.dayNumber, hdecember, hday, daysBefore_december]
      have : daysBefore (d.year + 1) 1 = 0 := rfl
      omega

theorem Date.plusDays_valid {d : Date} {n : Nat} (h : d.Valid) (hend : d.dayNumber + n ≤ 36800) :
    (d.plusDays n).Valid ∧ (d.plusDays n).dayNumber = d.dayNumber + n ∧ d.year ≤ (d.plusDays n).year := by
  induction n generalizing d with
  | zero => exact ⟨h, by rw [Date.plusDays, Nat.add_zero], Nat.le_refl _⟩
  | succ n ih =>
    have hyear : d.year ≤ 2099 ∨ d.month < 12 := by
      by_contra hlast
      obtain ⟨-, hy1⟩ := h.year
      obtain ⟨-, hm1⟩ := h.month
      have hy : d.year = 2100 := by omega
      have hm : d.month = 12 := by omega
      rw [Date.dayNumber, hy, hm, daysBefore_december] at hend
      omega
    obtain ⟨hvalid, hnumber, hle⟩ := h.following hyear
    obtain ⟨hv, hn, hy⟩ := ih hvalid (by omega)
    exact ⟨hv, by rw [Date.plusDays, hn, hnumber]; omega, hle.trans hy⟩

/-- Settles O50: the content field by field, the codes by `withCheck_reads`, the sell-by date day by day. -/
theorem labelsCarryTheirContent : Obligations.LabelsCarryTheirContent := by
  refine ⟨fun kind label itemPrefix order owner f a => ⟨rfl, rfl, rfl, rfl, rfl, rfl, rfl, rfl, rfl, rfl, rfl, rfl, rfl, rfl, rfl,
      fun g t h => ?weighed, fun n h => ?counted, fun h => ?fixed, fun h => ?plain, fun n h => ?overridden, fun h => ?undated,
      fun t days ht hd => ?dated⟩,
    fun label order owner totalPrefix count total ticket st stamp => ⟨rfl, rfl, rfl, rfl, rfl, rfl, rfl, rfl, rfl, rfl, rfl, rfl,
      rfl, rfl, rfl, rfl, rfl, rfl, rfl, rfl, rfl, rfl, rfl, rfl⟩,
    fun front number cents hfront => ⟨fun hn hc => ?item, fun hn hc => ?total⟩,
    fun d days hy0 hy1 hm0 hm1 hd0 hd1 hdays => ?sellBy⟩
  case weighed =>
    simp only [lineContent, h]
    refine ⟨rfl, rfl, rfl, fun ht => if_neg (by omega), fun ht => if_pos ht⟩
  case counted => simp only [lineContent, h]; exact ⟨rfl, rfl, rfl, rfl⟩
  case fixed => simp only [lineContent, h]; exact ⟨rfl, rfl, rfl, rfl⟩
  case plain => simp only [lineContent, h]; rfl
  case overridden => simp only [lineContent, h]; rfl
  case undated =>
    have hnone : sellByDate f.time (a.bind Article.shelfLife) = none := by
      rcases h with h | h
      · rw [h]; rfl
      · rw [h]; cases f.time <;> rfl
    exact hnone
  case dated =>
    have hsome : sellByDate f.time (a.bind Article.shelfLife) = some (t.date.plusDays days) := by rw [ht, hd]; rfl
    exact hsome
  case item =>
    obtain ⟨digits, hcode, hlength, hall, hvalue⟩ := withCheck_reads front number cents 2 5 5 rfl
    exact ⟨digits, hcode, hlength, hall, by rw [hvalue]; omega⟩
  case total =>
    obtain ⟨digits, hcode, hlength, hall, hvalue⟩ := withCheck_reads front number cents 2 4 6 rfl
    exact ⟨digits, hcode, hlength, hall, by rw [hvalue]; omega⟩
  case sellBy =>
    have hvalid : d.Valid := ⟨⟨hy0, by omega⟩, ⟨hm0, hm1⟩, hd0, hd1⟩
    have hbefore := daysBefore_le d.year hm1
    have hmonth := (monthLength_le d.year d.month).2
    obtain ⟨⟨-, hmonths, hds⟩, hnumber, hyear⟩ := Date.plusDays_valid (n := days) hvalid (by rw [Date.dayNumber]; omega)
    exact ⟨hnumber, hyear, hmonths.1, hmonths.2, hds.1, hds.2⟩

end Sys2Proof.Machine
end


-- ==== Sys2Proof/Proofs/StationBus.lean ====
section
/-! The station bus: whom a poll goes to and what it carries, the replies, and a link that goes STALE (R196 to R198). -/

namespace Sys2Proof.Machine

/-! ## The weight field of a poll (R29) -/

section
variable {c : Channel} {link : Link} {g : Int}

theorem Channel.weightField_dashes (h : link ≠ .present ∨ c.session = true ∨ c.rail = true ∨ c.phase = .settling ∨ c.filtered = none) :
    c.weightField link = .dashes := by
  by_cases hl : link = .present
  · by_cases hs : c.session = true
    · simp [Channel.weightField, Channel.state, hl, hs]
    · by_cases hr : c.rail = true
      · simp [Channel.weightField, Channel.state, hl, hs, hr]
      · by_cases hp : c.phase = .settling
        · simp [Channel.weightField, Channel.state, hl, hs, hr, hp]
        · have hf : c.filtered = none := by simpa [hl, hs, hr, hp] using h
          have hg : c.gross = none := by rw [Channel.gross, hf, Option.map_none]
          unfold Channel.weightField
          rw [hg]
          split <;> simp_all
  · simp [Channel.weightField, Channel.state, hl]

theorem Channel.weightField_weighing (hl : link = .present) (hs : c.session = false) (hr : c.rail = false)
    (hsettling : c.phase ≠ .settling) (hg : c.gross = some g) : c.weightField link =
      if 10 * (c.cal.max : Int) + 90 * c.cal.e2 < g then .ol
      else if g < -(200 * (c.cal.e1 : Int)) then .ul
      else .grams (c.saleWeightOf (c.netOf g)) := by
  have hstate : c.state link = .zeroPending ∨ c.state link = .overload ∨ c.state link = .underload
      ∨ c.state link = .uncalibrated ∨ c.state link = .ready := by
    simp only [Channel.state, hl, hs, hr, hsettling, ne_eq, not_true_eq_false, if_false, Bool.false_eq_true]
    by_cases h1 : c.phase = .zeroPending
    · simp [h1]
    · by_cases h2 : c.overloaded = true
      · simp [h1, h2]
      · by_cases h3 : c.underloaded = true
        · simp [h1, h2, h3]
        · cases c.cal.calibrated <;> simp [h1, h2, h3]
  have hover : c.overloadLimit = 10 * (c.cal.max : Int) + 90 * c.cal.e2 := by rw [Channel.overloadLimit]; omega
  have hunder : c.underloadLimit = -(200 * (c.cal.e1 : Int)) := by rw [Channel.underloadLimit]; omega
  rw [← hover, ← hunder]
  rcases hstate with h | h | h | h | h <;> simp only [Channel.weightField, h, hg]

theorem carriesWeight_iff (w : WeightField) : w.carriesWeight = true ↔ ∃ x, w = .grams x := by
  cases w <;> simp [WeightField.carriesWeight]

theorem Channel.zeroMark_iff : c.zeroMark link = true ↔ (∃ w, c.weightField link = .grams w) ∧ c.tare.kind = .none
    ∧ ∃ f, c.filtered = some f ∧ 4 * (f - c.zo).natAbs ≤ 10 * c.cal.e1 := by
  rw [Channel.zeroMark, Bool.and_eq_true, Bool.and_eq_true, carriesWeight_iff, decide_eq_true_eq, and_assoc, Channel.gross]
  refine and_congr_right fun _ => and_congr_right fun _ => ?_
  cases c.filtered with
  | none => simp
  | some f => simp

end

/-! ## The content of a poll (Table 68) -/

theorem previewOf_blank {a : Article} {sel : Selection} {w : WeightField} (h : a.kind = .weighed)
    (hw : ∀ x : Int, w = .grams x → x ≤ 0) : previewOf a sel w = .blank := by
  cases w with
  | grams x => simp [previewOf, h, hw x rfl]
  | _ => simp [previewOf, h]

/-- The preview of a list price (Table 18). -/
def pricePreview (list : Nat) : Option PriceOverride → Preview
  | none => .price list
  | some o => if o.price ≤ list then .price o.price else .price list

theorem previewOf_priced {a : Article} {sel : Selection} {w : WeightField} {list : Nat}
    (h : (a.kind = .weighed ∧ ∃ x : Nat, 0 < x ∧ w = .grams x ∧ list = weighedPrice a.rounding x a.unitPrice a.step)
      ∨ (a.kind = .counted ∧ list = sel.quantity * a.unitPrice) ∨ (a.kind = .fixed ∧ list = a.unitPrice)) :
    previewOf a sel w = if within 1 Config.maxPrice list = true then pricePreview list sel.override else .limit := by
  rcases h with ⟨hk, x, hx, rfl, rfl⟩ | ⟨hk, rfl⟩ | ⟨hk, rfl⟩
  · cases hw : within 1 Config.maxPrice (weighedPrice a.rounding x a.unitPrice a.step) <;> cases ho : sel.override <;>
      simp [previewOf, hk, Article.listPrice, pricePreview, hw, ho, hx.ne']
  · cases hw : within 1 Config.maxPrice (sel.quantity * a.unitPrice) <;> cases ho : sel.override <;>
      simp [previewOf, hk, Article.listPrice, pricePreview, hw, ho]
  · cases hw : within 1 Config.maxPrice a.unitPrice <;> cases ho : sel.override <;>
      simp [previewOf, hk, Article.listPrice, pricePreview, hw, ho]

theorem Part.poll_polled (p : Part) (st : StationNo) : p.Polled st (p.poll st) where
  dashes h := Channel.weightField_dashes h
  weight f hl hs hr hp hf := by
    have hg : (p.wc.get st).gross = some (f - (p.wc.get st).zo) := by rw [Channel.gross, hf, Option.map_some]
    exact Channel.weightField_weighing hl hs hr hp hg
  stable := by simp [Part.poll]
  net := by
    rw [← carriesWeight_iff]
    simp [Part.poll, Channel.netMark]
  zero := Channel.zeroMark_iff
  unselected h := by
    have hnone : p.selected st = none := h
    simp [Part.poll, Part.preview, hnone]
  selected a h := by
    have hsome : p.selected st = some a := h
    simp [Part.poll, hsome]
  blank a h hk hw := by
    have hsome : p.selected st = some a := h
    simp only [Part.poll, Part.preview, hsome]
    exact previewOf_blank hk hw
  preview a list h hlist := by
    have hsome : p.selected st = some a := h
    have hpreview : (p.poll st).preview = if within 1 Config.maxPrice list = true then
        pricePreview list (p.art.selections.get st).override else .limit := by
      simp only [Part.poll, Part.preview, hsome]
      exact previewOf_priced hlist
    refine ⟨fun hout => hpreview.trans (if_neg (by
      rw [show within 1 Config.maxPrice list = within 1 99999 list from rfl, within_true]
      omega)), fun h1 h2 => ?_⟩
    refine (hpreview.trans (if_pos (within_true.2 ⟨h1, h2⟩))).trans ?_
    cases (p.art.selections.get st).override <;> rfl
  overrideMark := rfl
  generation := rfl
  code := by
    cases hc : p.tt.counter <;> simp [Part.poll, Part.messageCode, hc]
  sequence := rfl
  outcomes := rfl

/-! ## Whom the poll goes to (R196) -/

section
variable {p : Part} {st last : StationNo}

theorem StationNo.all_ascending : (StationNo.all.map StationNo.number).Pairwise (· < ·) := by decide

/-- The first station of an ascending list that has a property, none below it having it. -/
theorem find?_station {l : List StationNo} {test : StationNo → Bool} (h : (l.map StationNo.number).Pairwise (· < ·))
    (hm : st ∈ l) (ht : test st = true) (hb : ∀ x ∈ l, x.number < st.number → test x = false) : l.find? test = some st := by
  induction l with
  | nil => cases hm
  | cons x xs ih =>
    obtain ⟨hx, hxs⟩ := List.pairwise_cons.1 h
    rcases List.mem_cons.1 hm with rfl | hm
    · exact List.find?_cons_of_pos ht
    · have hlow := hb x List.mem_cons_self (hx _ (List.mem_map_of_mem hm))
      rw [List.find?_cons_of_neg (by rw [hlow]; decide)]
      exact ih hxs hm fun y hy => hb y (List.mem_cons_of_mem _ hy)

theorem Part.nextPolled_first (hl : p.ml.lastPolled = none) (he : (p.config st).enabled = true)
    (hb : ∀ x, x.number < st.number → (p.config x).enabled = false) : p.nextPolled = some st := by
  rw [Part.nextPolled, hl]
  exact find?_station StationNo.all_ascending (StationNo.mem_all st) he fun x _ hx => hb x hx

theorem Part.nextPolled_after (hl : p.ml.lastPolled = some last) (he : (p.config st).enabled = true)
    (h : last.number < st.number ∧ (∀ x, last.number < x.number → x.number < st.number → (p.config x).enabled = false)
      ∨ (∀ x, last.number < x.number → (p.config x).enabled = false)
        ∧ (∀ x, x.number < st.number → (p.config x).enabled = false)) : p.nextPolled = some st := by
  have habove : ((StationNo.all.filter (fun t => last.number < t.number)).map StationNo.number).Pairwise (· < ·) :=
    StationNo.all_ascending.sublist (List.filter_sublist.map _)
  have hbelow : ((StationNo.all.filter (fun t => t.number ≤ last.number)).map StationNo.number).Pairwise (· < ·) :=
    StationNo.all_ascending.sublist (List.filter_sublist.map _)
  rw [Part.nextPolled, hl]
  simp only [pollOrder]
  rw [List.find?_append]
  rcases h with ⟨hlast, hb⟩ | ⟨hnone, hb⟩
  · rw [find?_station habove (List.mem_filter.2 ⟨StationNo.mem_all st, decide_eq_true hlast⟩) he fun x hx hlow =>
      hb x (of_decide_eq_true (List.mem_filter.1 hx).2) hlow]
    rfl
  · have hle : st.number ≤ last.number := Nat.not_lt.1 fun hlt => by rw [hnone st hlt] at he; cases he
    have hfirst : (StationNo.all.filter (fun t => last.number < t.number)).find? (fun st => (p.config st).enabled) = none :=
      List.find?_eq_none.2 fun x hx => by
        rw [hnone x (of_decide_eq_true (List.mem_filter.1 hx).2)]
        decide
    rw [hfirst, find?_station hbelow (List.mem_filter.2 ⟨StationNo.mem_all st, decide_eq_true hle⟩) he fun x _ hlow => hb x hlow]
    rfl

theorem Part.sendPoll_none (h : p.ml.awaited ≠ none) : p.sendPoll = p := by
  unfold Part.sendPoll
  split
  · exact absurd ‹_› h
  · rfl

theorem Part.sendPoll_polls (h : p.ml.awaited = none) (hn : p.nextPolled = some st) : p.sendPoll = { p with ml := { p.ml with
    sentPoll := some (st, p.poll st)
    lastPolled := some st
    awaited := some ⟨st, p.time.elapsed⟩ } } := by
  simp only [Part.sendPoll, h, hn]
  rfl

end

/-! ## Replies (R23, R196, R197) -/

section
variable {p : Part} {st : StationNo} {t : Nat} {r : StationReply}

/-- A key tag of Table 69 with a key of Table 70. -/
theorem keyOk_iff (keys : List KeyRequest) : (keys.all (fun k => within 1 255 k.tag) = true
    ∧ keys.all (fun k => k.key.isSome) = true) ↔ ∀ k ∈ keys, (1 ≤ k.tag ∧ k.tag ≤ 255) ∧ k.key ≠ none := by
  simp only [List.all_eq_true, within_true, Option.isSome_iff_ne_none]
  exact ⟨fun h k hk => ⟨h.1 k hk, h.2 k hk⟩, fun h => ⟨fun k hk => (h k hk).1, fun k hk => (h k hk).2⟩⟩

theorem replyContentOk_iff : replyContentOk r = true ↔ r.samples.length ≤ 4
    ∧ (∀ x ∈ r.samples, -8388608 ≤ x ∧ x ≤ 8388607) ∧ r.displayedGeneration ≤ Config.max32 ∧ r.keys.length ≤ 2
    ∧ (r.keys.map KeyRequest.tag).Nodup ∧ ∀ k ∈ r.keys, (1 ≤ k.tag ∧ k.tag ≤ 255) ∧ k.key ≠ none := by
  rw [← keyOk_iff]
  simp only [replyContentOk, keyTagsOk, Bool.and_eq_true, decide_eq_true_eq, List.all_eq_true (l := r.samples)]
  tauto

/-- What Tables 69 and 70 do not allow in a reply (R196). -/
theorem replyContentOk_false (h : 4 < r.samples.length ∨ (∃ x ∈ r.samples, x < -8388608 ∨ 8388607 < x)
    ∨ 4294967295 < r.displayedGeneration ∨ 2 < r.keys.length ∨ (∃ k ∈ r.keys, k.tag = 0 ∨ 255 < k.tag ∨ k.key = none)
    ∨ ∃ k1 k2, r.keys = [k1, k2] ∧ k1.tag = k2.tag) : replyContentOk r = false := by
  refine Bool.eq_false_iff.2 fun hok => ?_
  obtain ⟨hlength, hsamples, hgeneration, hkeys, hdistinct, hall⟩ := replyContentOk_iff.1 hok
  rcases h with h | ⟨x, hx, h⟩ | h | h | ⟨k, hk, h⟩ | ⟨k1, k2, hk, h⟩
  · omega
  · have := hsamples x hx
    omega
  · exact absurd hgeneration (Nat.not_le.2 h)
  · omega
  · obtain ⟨htag, hkey⟩ := hall k hk
    rcases h with h | h | h
    · omega
    · omega
    · exact hkey h
  · rw [hk] at hdistinct
    simp [h] at hdistinct

theorem Part.replyingStation_valid (h : p.ml.awaited = some ⟨st, t⟩) (ha : r.address = st.number) (hc : r.checkAgrees = true)
    (hok : replyContentOk r = true) (ht : p.time.elapsed ≤ t + 2) : p.replyingStation r = some st := by
  have hnow : p.now ≤ t + Config.replyMs := ht
  simp only [Part.replyingStation, h]
  exact if_pos (by simp [ha, hc, hok, hnow])

theorem Part.replyingStation_invalid (h : p.ml.awaited = some ⟨st, t⟩) (hno : r.address ≠ st.number ∨ r.checkAgrees = false
    ∨ replyContentOk r = false ∨ t + 2 < p.time.elapsed) : p.replyingStation r = none := by
  have hnow : p.now ≤ t + Config.replyMs ↔ p.time.elapsed ≤ t + 2 := Iff.rfl
  simp only [Part.replyingStation, h]
  refine if_neg ?_
  rcases hno with h | h | h | h
  · simp [h]
  · simp [h]
  · simp [h]
  · simp [hnow, Nat.not_le.2 h]

/-- What a valid reply leaves before its key requests are served: the link, the displayed generation and the samples. -/
def Part.replied (p : Part) (st : StationNo) (r : StationReply) : Part :=
  { p with
    wc := p.wc.set st (r.samples.foldl (fun c x => c.takeSample p.time.elapsed x)
      (if p.link st = .absent then Channel.initial (p.wc.get st).cal (p.wc.get st).config else p.wc.get st))
    art := { p.art with confirmed := p.art.confirmed.set st (some r.displayedGeneration) }
    ml := { p.ml with
      stations := p.ml.stations.set st
        { p.ml.stations.get st with link := .present, lastReply := some p.time.elapsed }
      awaited := none } }

theorem Part.takeReply_replied (p : Part) (st : StationNo) (r : StationReply) :
    p.endAwait.takeReply st r = (p.replied st r).takeKeys st (namedKeys r.keys) := by
  refine congrArg (fun q : Part => q.takeKeys st (namedKeys r.keys)) ?_
  by_cases hl : p.link st = .absent
  · have hl' : p.endAwait.link st = .absent := hl
    unfold Part.replied Part.linkPresent
    rw [if_pos hl', if_pos hl]
    simp only [Part.takeSamples, Part.onChannel, Part.confirm, Part.onLink, Part.endAwait, PerStation.get_set_same, PerStation.set_set]
    rfl
  · have hl' : ¬ p.endAwait.link st = .absent := hl
    unfold Part.replied Part.linkPresent
    rw [if_neg hl', if_neg hl]
    rfl

theorem Part.takeKeys_nil (p : Part) (st : StationNo) : p.takeKeys st [] = p := rfl

theorem Part.stationReply_valid (h : p.replyingStation r = some st) :
    p.stationReply r = (p.replied st r).takeKeys st (namedKeys r.keys) := by
  simp only [Part.stationReply, h, Part.takeReply_replied]

theorem Part.stationReply_invalid (h : p.replyingStation r = none) : p.stationReply r = p.endAwait := by
  simp only [Part.stationReply, h]

theorem Part.replyTimeout_ends (h : p.ml.awaited = some ⟨st, t⟩) : p.replyTimeout = { p with
    time := p.time.advance (t + 2 - p.time.elapsed)
    ml := { p.ml with awaited := none } } := by
  simp only [Part.replyTimeout, h]
  rfl

end

/-! ## A link that goes STALE (R24, R69, R87, R183) -/

section
variable {p : Part} {st : StationNo} {t : Nat}

/-- The part once a link has gone STALE, its calibration session aside. -/
def Part.wentStale (p : Part) (st : StationNo) (t : Nat) : Part :=
  ((((((p.reach (t + Config.staleMs)).onLink st (fun l => { l with link := .stale })).latch .stationLost
    (some (.station st))).onChannel st Channel.filterRestart).confirm st none).endOverride st)

theorem Part.stale_eq (hl : p.link st = .present) (ht : (p.ml.stations.get st).lastReply = some t) :
    p.stale st = (p.wentStale st t).staleSession st := by
  simp only [Part.stale, hl, ht]
  rfl

theorem Part.wentStale_parts (p : Part) (st : StationNo) (t : Nat) :
    let q := p.wentStale st t
    q.time = p.time.advance (t + 500 - p.time.elapsed)
    ∧ q.ml.stations = p.ml.stations.set st { p.ml.stations.get st with link := .stale }
    ∧ q.ml.latches.get .stationLost = ⟨true, some (.station st)⟩
    ∧ q.art = { p.art with confirmed := p.art.confirmed.set st none }
    ∧ (∀ x, q.oc.stack.get x = if x = st then (match p.oc.stack.get st with
        | .overridden c _ _ => .signedOn c
        | k => k) else p.oc.stack.get x)
    ∧ (∀ x, x ≠ st → q.wc.get x = p.wc.get x) ∧ q.wc.get st = (p.wc.get st).filterRestart ∧ q.cc = p.cc
    ∧ q.committing = p.committing
    ∧ q.nv = p.nv ∧ q.om = p.om ∧ q.tc = p.tc ∧ q.lu = p.lu ∧ q.tj = p.tj ∧ q.tt = p.tt := by
  refine ⟨rfl, rfl, (Part.latch_get _ _ _ _).trans (if_pos rfl), rfl, fun x => ?_, fun x hx => PerStation.get_set_other _ _ hx,
    PerStation.get_set_same _ _ _, rfl, rfl, rfl, rfl, rfl, rfl, rfl, rfl⟩
  by_cases hx : x = st
  · subst hx
    rw [if_pos rfl]
    refine (PerStation.get_set_same _ _ _).trans ?_
    show (p.oc.stack.get x).restored = _
    cases p.oc.stack.get x <;> rfl
  · rw [if_neg hx]
    exact PerStation.get_set_other _ _ hx

theorem Part.staleSession_ends {x : Session} (hx : p.cc.session = some x) (hs : x.station = st) (hc : p.committing = false) :
    p.staleSession st = p.sessionEnded x .stale := by
  rw [Part.staleSession, hx, if_pos (by rw [← hs]; rfl), Part.interruptSession, if_neg (by rw [hc]; decide),
    Part.endSession_ended hx]

theorem Part.staleSession_stays (h : p.cc.session.map Session.station ≠ some st ∨ p.committing = true) :
    p.staleSession st = p := by
  unfold Part.staleSession Part.interruptSession
  split
  · next hs => rw [if_pos (h.resolve_left (not_not.2 hs))]
  · rfl

end

/-- Settles O48: the poll by `Part.poll_polled`, the reply by `Part.replied`, the loss of the link by `Part.wentStale`. -/
theorem stationBusPollsAndListens : Obligations.StationBusPollsAndListens := by
  intro s st hr
  refine ⟨fun h => ?waiting, fun last h hl he hnext => ?after, fun h hl he hb => ?first,
    fun t r h => ⟨fun ha hc hn hx hg hk ht => ?valid, fun hno => ?invalid, ?timeout⟩, fun t hl ht => ?stale⟩
  case waiting => exact (State.act_runs hr _).trans (by rw [Part.sendPoll_none h])
  case after =>
    exact ⟨_, (State.act_runs hr _).trans (by rw [Part.sendPoll_polls h (Part.nextPolled_after hl he hnext)]), Part.poll_polled _ _⟩
  case first =>
    exact ⟨_, (State.act_runs hr _).trans (by rw [Part.sendPoll_polls h (Part.nextPolled_first hl he hb)]), Part.poll_polled _ _⟩
  case valid =>
    have hok : replyContentOk r = true := replyContentOk_iff.2 ⟨hn, hx, hg, by simp [hk], by simp [hk], by simp [hk]⟩
    refine (State.act_runs hr _).trans ?_
    rw [Part.stationReply_valid (Part.replyingStation_valid h ha hc hok ht), hk]
    rfl
  case invalid =>
    refine (State.act_runs hr _).trans ?_
    have hnone : s.part.replyingStation r = none := Part.replyingStation_invalid h (by
      rcases hno with hno | hno | hno | hno | hno | hno | hno | hno | hno
      · exact .inl hno
      · exact .inr (.inl hno)
      · exact .inr (.inr (.inl (replyContentOk_false (.inl hno))))
      · exact .inr (.inr (.inl (replyContentOk_false (.inr (.inl hno)))))
      · exact .inr (.inr (.inl (replyContentOk_false (.inr (.inr (.inl hno))))))
      · exact .inr (.inr (.inl (replyContentOk_false (.inr (.inr (.inr (.inl hno)))))))
      · exact .inr (.inr (.inl (replyContentOk_false (.inr (.inr (.inr (.inr (.inl hno))))))))
      · exact .inr (.inr (.inl (replyContentOk_false (.inr (.inr (.inr (.inr (.inr hno))))))))
      · exact .inr (.inr (.inr hno)))
    rw [Part.stationReply_invalid hnone]
    rfl
  case timeout => exact (State.act_runs hr _).trans (by rw [Part.replyTimeout_ends h])
  case stale =>
    have hrun : exec (.stationStale st) s = .next { s with part := (s.part.wentStale st t).staleSession st } :=
      (State.act_runs hr _).trans (by rw [Part.stale_eq hl ht])
    obtain ⟨htime, hstations, hlatch, hart, hstack, hothers, hchannel, hcc, hcommit, hrest⟩ := s.part.wentStale_parts st t
    generalize s.part.wentStale st t = a at *
    by_cases hends : s.part.cc.session.map Session.station ≠ some st ∨ s.part.committing = true
    · have hstays : a.staleSession st = a := Part.staleSession_stays (by rw [hcc, hcommit]; exact hends)
      rw [hstays] at hrun
      refine ⟨a, hrun, htime, hstations, hlatch, hart, hstack, hothers, by rw [hchannel]; rfl, fun x hx hxs hfree => ?_,
        fun _ => ⟨hcc, by rw [hchannel]; rfl⟩, hrest⟩
      rcases hends with hends | hends
      · exact absurd (by rw [hx, ← hxs]; rfl) hends
      · rw [Part.committing_eq_false hfree] at hends
        cases hends
    · obtain ⟨hsome, hfree⟩ := not_or.1 hends
      obtain ⟨x, hx, hxs⟩ := Option.map_eq_some_iff.1 (not_not.1 hsome)
      rw [Part.staleSession_ends (by rw [hcc]; exact hx) hxs (by rw [hcommit]; exact Bool.eq_false_iff.2 hfree)] at hrun
      refine ⟨_, hrun, htime, hstations, hlatch, hart, hstack, fun y hy => ?_, ?_, fun y hy _ _ => ⟨rfl, rfl, ?_⟩,
        fun hno => absurd (hno.imp_right fun ⟨y, e, hy, he⟩ => Part.committing_of ⟨y, hy, he⟩) hends, hrest⟩
      · exact (PerStation.get_set_other _ _ (by rw [hxs]; exact hy)).trans (hothers y hy)
      · subst hxs
        simp only [Part.sessionEnded, PerStation.get_set_same, hchannel, Channel.filterRestart]
      · subst hxs
        simp only [Part.sessionEnded, PerStation.get_set_same]

end Sys2Proof.Machine
end


-- ==== Sys2Proof/Proofs/KeyLinks.lean ====
section
/-! The key requests of a station reply, one after the other (R197, R198): none of them changes what ML keeps for a station, or
latches anything but PRINT_QUEUE_HIGH. -/

namespace Sys2Proof.Machine

/-- ML keeps what it holds for the stations, and no condition but PRINT_QUEUE_HIGH changes. -/
structure Part.LinksKept (p q : Part) : Prop where
  stations : q.ml.stations = p.ml.stations
  latches : ∀ x, x ≠ .printQueueHigh → q.ml.latches.get x = p.ml.latches.get x

section
variable {p q r : Part} {st : StationNo} {d : ResultData}

theorem Part.LinksKept.of_ml (h : q.ml = p.ml) : p.LinksKept q := ⟨by rw [h], fun _ _ => by rw [h]⟩

theorem Part.LinksKept.trans (h : p.LinksKept q) (h' : q.LinksKept r) : p.LinksKept r :=
  ⟨h'.stations.trans h.stations, fun x hx => (h'.latches x hx).trans (h.latches x hx)⟩

theorem Part.LinksKept.queued (h : p.LinksKept q) (x : Record) : p.LinksKept (q.queueRecord x) :=
  h.trans (.of_ml (by simp))

theorem Part.addJob_kept (h : q.ml = p.ml) (kind : LabelKind) (n : Nat) (pr : PrinterNo) (x : LabelContent) :
    p.LinksKept (q.addJob kind n pr x) := by
  refine Part.LinksKept.trans (.of_ml h) ?_
  unfold Part.addJob
  dsimp only
  split
  · exact ⟨rfl, fun c hc => (Part.latch_get _ _ _ _).trans (if_neg hc)⟩
  · exact .of_ml rfl

theorem Part.makeItemLabel_kept (p : Part) (o : Order) (f : LineFields) (a : Article) : p.LinksKept (p.makeItemLabel o f a) := by
  unfold Part.makeItemLabel
  split
  · exact .of_ml rfl
  · exact Part.addJob_kept (by rfl) _ _ _ _

theorem Part.makeTotalLabel_kept (p : Part) (st : StationNo) (o : Order) : p.LinksKept (p.makeTotalLabel st o) := by
  unfold Part.makeTotalLabel
  split
  · exact Part.addJob_kept (by rfl) _ _ _ _
  · exact .of_ml rfl

theorem Part.addLine_kept (p : Part) (o : Order) (f : LineFields) (a : Article) : p.LinksKept (p.addLine o f a) := by
  have hlabel := (Part.LinksKept.of_ml (p := p) (q := p.updateOrder o.number (fun x =>
    { x with lines := x.lines ++ [⟨f, .pending⟩], total := x.total + f.linePrice })) rfl).trans
      (Part.makeItemLabel_kept _ o f a)
  refine Part.LinksKept.trans hlabel (.of_ml ?_)
  unfold Part.addLine Part.confirmLine Part.consumeSelection
  dsimp only
  split <;> simp

theorem Part.beginClosing_kept (p : Part) (n : Nat) (kind : CloseKind) : p.LinksKept (p.beginClosing n kind) :=
  .of_ml (by simp [Part.beginClosing])

theorem Part.freed_kept (p : Part) (n : Nat) (t : Option Nat) : p.LinksKept ((p.freeOrder n).endNoSale t) := .of_ml (by simp)

theorem Part.voidOrder_kept {o : Order} (h : p.voidOrder o = .ok q) : p.LinksKept q := by
  unfold Part.voidOrder at h
  split at h
  · cases h
    exact Part.freed_kept p _ _
  · split at h
    · cases h
    · cases h
      exact Part.beginClosing_kept p _ _

/-- The call of a ticket hands a list to the display and leaves the links. -/
theorem Part.callTicket_kept (p : Part) (st : StationNo) (t : Ticket) : p.LinksKept (p.callTicket st t) :=
  ⟨rfl, fun _ _ => rfl⟩

/-! ## The keys -/

theorem keyNext_kept (h : keyNext st p = .ok (q, d)) : p.LinksKept q := by
  simp only [keyNext, bind_ok, check_ok, need_ok, pure_ok, Prod.mk.injEq] at h
  obtain ⟨_, -, _, -, t, -, rfl, -⟩ := h
  exact Part.LinksKept.trans (.of_ml (by simp)) (Part.callTicket_kept _ _ _)

theorem keyRecall_kept {k : Nat} (h : keyRecall st k p = .ok (q, d)) : p.LinksKept q := by
  simp only [keyRecall, bind_ok, check_ok, need_ok, pure_ok, Prod.mk.injEq] at h
  obtain ⟨_, -, _, -, _, -, m, -, rfl, -⟩ := h
  exact Part.LinksKept.trans (.of_ml (by simp)) (Part.callTicket_kept _ _ _)

theorem keyOpenOrder_kept {operator : Nat} (h : keyOpenOrder st operator p = .ok (q, d)) : p.LinksKept q := by
  simp only [keyOpenOrder, bind_ok, pure_ok, Prod.mk.injEq] at h
  obtain ⟨_, -, _, -, _, -, rfl, -⟩ := h
  exact .of_ml (by simp)

theorem park_kept {o : Order} (h : p.park st = .ok (q, o)) : p.LinksKept q := by
  simp only [Part.park, bind_ok, need_ok, pure_ok, Prod.mk.injEq] at h
  obtain ⟨x, -, rfl, -⟩ := h
  exact .of_ml rfl

theorem keyPark_kept (h : keyPark st p = .ok (q, d)) : p.LinksKept q := by
  simp only [keyPark, bind_ok, pure_ok, Prod.mk.injEq, Prod.exists] at h
  obtain ⟨_, _, hpark, rfl, -⟩ := h
  exact park_kept hpark

theorem endSignOn_kept {x : Option Nat} (h : p.endSignOn st = .ok (q, x)) : p.LinksKept q := by
  unfold Part.endSignOn at h
  split at h
  · simp only [bind_ok, pure_ok, Prod.mk.injEq, Prod.exists] at h
    obtain ⟨_, _, hpark, rfl, -⟩ := h
    exact (park_kept hpark).trans (.of_ml rfl)
  · simp only [pure_ok, Prod.mk.injEq] at h
    obtain ⟨rfl, -⟩ := h
    exact .of_ml rfl

theorem keySignOff_kept (h : keySignOff st p = .ok (q, d)) : p.LinksKept q := by
  simp only [keySignOff, bind_ok, pure_ok, Prod.mk.injEq, Prod.exists] at h
  obtain ⟨_, _, hend, rfl, -⟩ := h
  exact endSignOn_kept hend

theorem keyResume_kept {k : Nat} (h : keyResume st k p = .ok (q, d)) : p.LinksKept q := by
  simp only [keyResume, bind_ok, check_ok, need_ok, pure_ok, Prod.mk.injEq] at h
  obtain ⟨_, -, _, -, o, -, _, -, rfl, -⟩ := h
  exact .of_ml rfl

theorem keyCloseOrder_kept (h : keyCloseOrder st p = .ok (q, d)) : p.LinksKept q := by
  simp only [keyCloseOrder, bind_ok, need_ok] at h
  obtain ⟨o, -, h⟩ := h
  split at h
  · simp only [pure_ok, Prod.mk.injEq] at h
    obtain ⟨rfl, -⟩ := h
    exact Part.freed_kept p _ _
  · simp only [bind_ok, check_ok, pure_ok, Prod.mk.injEq] at h
    obtain ⟨_, -, _, -, rfl, -⟩ := h
    exact (Part.makeTotalLabel_kept p st o).trans (Part.beginClosing_kept _ _ _)

theorem keyVoidOrder_kept {named : Option Nat} (h : keyVoidOrder st named p = .ok (q, d)) : p.LinksKept q := by
  simp only [keyVoidOrder, bind_ok, pure_ok, Prod.mk.injEq] at h
  obtain ⟨o, -, _, hvoid, rfl, -⟩ := h
  exact Part.voidOrder_kept hvoid

theorem keyVoidLine_kept {index supervisor : Nat} (h : keyVoidLine st index supervisor p = .ok (q, d)) : p.LinksKept q := by
  simp only [keyVoidLine, bind_ok, pure_ok, Prod.mk.injEq, Prod.exists] at h
  obtain ⟨o, f, -, _, -, rfl, -⟩ := h
  exact .of_ml (by simp)

theorem keyReprint_kept {index supervisor : Nat} (h : keyReprint st index supervisor p = .ok (q, d)) : p.LinksKept q := by
  simp only [keyReprint, bind_ok, check_ok, need_ok, pure_ok, Prod.mk.injEq, Prod.exists] at h
  obtain ⟨o, f, -, k, -, _, -, _, -, rfl, -⟩ := h
  exact (Part.addJob_kept rfl _ _ _ _).queued _

theorem keyAddLine_kept {operator : Nat} (h : keyAddLine st operator p = .ok (q, d)) : p.LinksKept q := by
  simp only [keyAddLine, bind_ok, need_ok, pure_ok, Prod.mk.injEq] at h
  obtain ⟨x, -, o, -, rfl, -⟩ := h
  have horder : p.LinksKept (p.withOrder st operator) := by
    unfold Part.withOrder
    split <;> exact .of_ml (by simp)
  exact horder.trans (Part.addLine_kept _ _ _ _)

theorem onKeyChannel_kept {r : Except Reason Channel} (h : p.onKeyChannel st r = .ok (q, d)) : p.LinksKept q := by
  unfold Part.onKeyChannel at h
  split at h
  · cases h
  · cases h
    exact .of_ml rfl

theorem keySelect_kept {k : Nat} (h : keySelect st k p = .ok (q, d)) : p.LinksKept q := by
  simp only [keySelect, bind_ok, pure_ok, Prod.mk.injEq] at h
  obtain ⟨_, -, _, -, rfl, -⟩ := h
  exact .of_ml rfl

theorem keyRepeat_kept (h : keyRepeat st p = .ok (q, d)) : p.LinksKept q := by
  simp only [keyRepeat, bind_ok, pure_ok, Prod.mk.injEq] at h
  obtain ⟨_, -, _, -, rfl, -⟩ := h
  exact .of_ml rfl

theorem keyQuantity_kept {k : Nat} (h : keyQuantity st k p = .ok (q, d)) : p.LinksKept q := by
  simp only [keyQuantity, bind_ok, pure_ok, Prod.mk.injEq] at h
  obtain ⟨_, -, _, -, _, -, rfl, -⟩ := h
  exact .of_ml rfl

theorem keyPriceOverride_kept {price k : Nat} (h : keyPriceOverride st price k p = .ok (q, d)) : p.LinksKept q := by
  simp only [keyPriceOverride, bind_ok, pure_ok, Prod.mk.injEq] at h
  obtain ⟨_, -, _, -, rfl, -⟩ := h
  exact .of_ml rfl

theorem keySignOn_kept {k : Nat} (h : keySignOn st k p = .ok (q, d)) : p.LinksKept q := by
  simp only [keySignOn, bind_ok, pure_ok, Prod.mk.injEq] at h
  obtain ⟨_, -, _, -, _, -, rfl, -⟩ := h
  exact .of_ml rfl

theorem keyOverride_kept {k : Nat} (h : keyOverride st k p = .ok (q, d)) : p.LinksKept q := by
  simp only [keyOverride, bind_ok, pure_ok, Prod.mk.injEq] at h
  obtain ⟨_, -, _, -, _, -, _, -, _, -, rfl, -⟩ := h
  exact .of_ml rfl

theorem keyEndOverride_kept (h : keyEndOverride st p = .ok (q, d)) : p.LinksKept q := by
  simp only [keyEndOverride, bind_ok, pure_ok, Prod.mk.injEq] at h
  obtain ⟨_, -, rfl, -⟩ := h
  exact .of_ml rfl

theorem privileged_kept {serve : Nat → Part → Served} (hserve : ∀ k r e, serve k p = .ok (r, e) → p.LinksKept r)
    (h : p.privileged st serve = .ok (q, d)) : p.LinksKept q := by
  rw [Part.privileged_eq] at h
  split at h
  · cases h
  · next k _ =>
    cases hr : serve k p with
    | error e => rw [hr] at h; cases h
    | ok x =>
      rw [hr] at h
      cases h
      exact (hserve k x.1 x.2 hr).trans (.of_ml rfl)

theorem serveSignedOn_kept {operator : Nat} {k : Key} (h : p.serveSignedOn st operator k = .ok (q, d)) : p.LinksKept q := by
  cases k with
  | signOn _ => cases h
  | signOff => exact keySignOff_kept h
  | override _ => exact keyOverride_kept h
  | endOverride => exact keyEndOverride_kept h
  | select _ => exact keySelect_kept h
  | quantity _ => exact keyQuantity_kept h
  | repeatEntry => exact keyRepeat_kept h
  | priceOverride _ => exact privileged_kept (fun _ _ _ => keyPriceOverride_kept) h
  | zero => exact onKeyChannel_kept h
  | tare => exact onKeyChannel_kept h
  | clearTare => exact onKeyChannel_kept h
  | addLine => exact keyAddLine_kept h
  | openOrder => exact keyOpenOrder_kept h
  | park => exact keyPark_kept h
  | resume _ =>
    simp only [Part.serveSignedOn] at h
    split at h
    · exact privileged_kept (fun _ _ _ => keyResume_kept) h
    · exact keyResume_kept h
  | closeOrder => exact keyCloseOrder_kept h
  | voidLine _ => exact privileged_kept (fun _ _ _ => keyVoidLine_kept) h
  | voidOrder _ => exact privileged_kept (fun _ _ _ => keyVoidOrder_kept) h
  | reprint _ => exact privileged_kept (fun _ _ _ => keyReprint_kept) h
  | next => exact keyNext_kept h
  -- RECALL, whose name is a keyword of Lean
  | _ => exact keyRecall_kept h

theorem serveKey_kept {k : Key} (h : p.serveKey st k = .ok (q, d)) : p.LinksKept q := by
  unfold Part.serveKey at h
  split at h
  · cases h
  · split at h
    · cases h
    · split at h
      · cases k with
        | signOn _ => exact keySignOn_kept h
        | zero => exact onKeyChannel_kept h
        | tare => exact onKeyChannel_kept h
        | clearTare => exact onKeyChannel_kept h
        | _ => cases h
      · exact serveSignedOn_kept h

end

/-! ## Two key requests in one reply (R197) -/

section
variable {p : Part} {st : StationNo} {t : Nat} {r : StationReply}

theorem Part.replied_present (p : Part) (st : StationNo) (r : StationReply) : (p.replied st r).link st = .present := by
  rw [Part.link, Part.replied, PerStation.get_set_same]

/-- What a served key request leaves: nothing where it was refused. -/
def Served.after (q : Part) : Served → Part
  | .ok x => x.1
  | .error _ => q

/-- The result of a served key request. -/
def Served.result : Served → KeyResult
  | .ok x => .accepted x.2
  | .error e => .refused e

theorem Part.keyOutcome_eq (p : Part) (tag : Nat) (a : Served) : p.keyOutcome tag a = (Served.after p a, ⟨tag, Served.result a⟩) := by
  cases a <;> rfl

theorem takeKey_kept {acc : Part × List KeyOutcome} {tag : Nat} (h : (acc.1.ml.stations.get st).keptTag = some tag) (k : Key) :
    takeKey st acc tag k = acc := if_pos h

theorem takeKey_served {acc : Part × List KeyOutcome} {tag : Nat} (h : (acc.1.ml.stations.get st).keptTag ≠ some tag) (k : Key) :
    takeKey st acc tag k = (Served.after (acc.1.keyTaken st tag) ((acc.1.keyTaken st tag).serveKey st k),
      acc.2 ++ [⟨tag, Served.result ((acc.1.keyTaken st tag).serveKey st k)⟩]) := by
  have houtcome := Part.keyOutcome_eq (acc.1.keyTaken st tag) tag ((acc.1.keyTaken st tag).serveKey st k)
  exact (if_neg h).trans (congrArg (fun x : Part × KeyOutcome => (x.1, acc.2 ++ [x.2])) houtcome)

/-- The tag that is kept stays the one kept while the key is served. -/
theorem Part.served_keptTag (p : Part) (st : StationNo) (tag : Nat) (k : Key) :
    ((Served.after (p.keyTaken st tag) ((p.keyTaken st tag).serveKey st k)).ml.stations.get st).keptTag = some tag := by
  have htaken : ((p.keyTaken st tag).ml.stations.get st).keptTag = some tag := by
    rw [Part.keyTaken, Part.onLink, PerStation.get_set_same]
  cases hs : (p.keyTaken st tag).serveKey st k with
  | error e => exact htaken
  | ok x => rw [← htaken]; exact congrArg (fun l => (PerStation.get l st).keptTag) (serveKey_kept (q := x.1) (d := x.2) hs).stations

/-- One key request in a reply does what its own command does. -/
theorem exec_takeKeys {s : State} {c : Instr} {tag : Nat} {k : Key} (hr : s.runs) (hc : c.keyRequest? = some (st, tag, k))
    (hl : s.part.link st = .present) (h1 : 1 ≤ tag) (h2 : tag ≤ 255) :
    exec c s = .next { s with part := s.part.takeKeys st [(tag, k)] } := by
  rw [exec_key hc]
  refine (State.act_runs hr _).trans ?_
  rw [Part.keyRequest, if_pos (by rw [hl, within_true.2 ⟨h1, h2⟩]; rfl)]

end

/-- A valid reply: its keys are served behind the rest of it. -/
theorem exec_reply {s : State} {st : StationNo} {t : Nat} {r : StationReply} (hr : s.runs)
    (h : s.part.ml.awaited = some ⟨st, t⟩) (ha : r.address = st.number) (hc : r.checkAgrees = true)
    (hok : replyContentOk r = true) (ht : s.part.time.elapsed ≤ t + 2) :
    exec (.stationReply r) s = .next { s with part := (s.part.replied st r).takeKeys st (namedKeys r.keys) } :=
  (State.act_runs hr _).trans (by rw [Part.stationReply_valid (Part.replyingStation_valid h ha hc hok ht)])

/-- Settles O49: the reply leaves `Part.replied`, on which its keys are served by `takeKey` one after the other. -/
theorem stationRepliesServeTheirKeys : Obligations.StationRepliesServeTheirKeys := by
  intro s st t r k1 k2 t1 t2 hr h ha hc hn hx hg ht h1 h1' h2 h2' hne
  have hpresent := s.part.replied_present st r
  have hok (x : StationReply) (hs : x.samples = r.samples) (hd : x.displayedGeneration = r.displayedGeneration)
      (hlength : x.keys.length ≤ 2) (hdistinct : (x.keys.map KeyRequest.tag).Nodup)
      (hall : ∀ k ∈ x.keys, (1 ≤ k.tag ∧ k.tag ≤ 255) ∧ k.key ≠ none) : replyContentOk x = true :=
    replyContentOk_iff.2 ⟨by rw [hs]; exact hn, by rw [hs]; exact hx, by rw [hd]; exact hg, hlength, hdistinct, hall⟩
  have hone (tag : Nat) (k : Key) (c : Instr) (ht1 : 1 ≤ tag) (ht2 : tag ≤ 255) (hk : c.keyRequest? = some (st, tag, k)) :
      exec c { s with part := s.part.replied st r }
        = .next { s with part := (s.part.replied st r).takeKeys st [(tag, k)] } :=
    exec_takeKeys (s := { s with part := s.part.replied st r }) hr hk hpresent ht1 ht2
  refine ⟨s.part.replied st r, exec_reply (r := { r with keys := [] }) hr h ha hc
    (hok _ rfl rfl (by simp) (by simp) (by simp)) ht, hpresent, fun hk c hcmd => ?one,
    fun hk => ⟨fun hkept c hcmd => ?retransmitted, fun hkept => ?both⟩⟩
  case one =>
    rw [hone t1 k1 c h1 h1' hcmd, exec_reply hr h ha hc (hok r rfl rfl (by simp [hk]) (by simp [hk]) (by simp [hk]; omega)) ht, hk]
    rfl
  case retransmitted =>
    rw [hone t2 k2 c h2 h2' hcmd, exec_reply hr h ha hc (hok r rfl rfl (by simp [hk]) (by simp [hk, hne]) (by simp [hk]; omega)) ht,
      hk]
    refine congrArg (fun q => Host.Outcome.next { s with part := q }) ?_
    have hfirst := takeKey_kept (acc := (s.part.replied st r, [])) hkept k1
    simp only [namedKeys, List.filterMap_cons, List.filterMap_nil, Option.map_some, Part.takeKeys, List.foldl, hfirst]
  case both =>
    rw [exec_reply hr h ha hc (hok r rfl rfl (by simp [hk]) (by simp [hk, hne]) (by simp [hk]; omega)) ht, hk]
    refine congrArg (fun q => Host.Outcome.next { s with part := q }) ?_
    have hfirst := takeKey_served (acc := (s.part.replied st r, [])) hkept k1
    have hsecond := takeKey_served (acc := (Served.after ((s.part.replied st r).keyTaken st t1)
      (((s.part.replied st r).keyTaken st t1).serveKey st k1),
      [⟨t1, Served.result (((s.part.replied st r).keyTaken st t1).serveKey st k1)⟩])) (tag := t2) (st := st)
      (by rw [Part.served_keptTag]; simpa using hne) k2
    simp only [namedKeys, List.filterMap_cons, List.filterMap_nil, Option.map_some, Part.takeKeys, List.foldl, hfirst,
      List.nil_append, hsecond, Part.replaceOutcomes]
    rfl

end Sys2Proof.Machine
end


-- ==== Sys2Proof/Proofs/QueuedApplies.lean ====
section
/-! The PRICE_APPLY records of the write queue: what each operation of the write queue and the entry into FAULT do to them (R64,
R147, R151). -/

namespace Sys2Proof.Machine

/-! ## The filled places -/

theorem filledRecords_append (a b : List Place) : filledRecords (a ++ b) = filledRecords a ++ filledRecords b := by
  induction a with
  | nil => rfl
  | cons x a ih => cases x <;> simp [filledRecords, ih]

theorem mem_filledRecords {r : Record} {l : List Place} : r ∈ filledRecords l ↔ .filled r ∈ l := by
  induction l with
  | nil => simp [filledRecords]
  | cons x l ih => cases x <;> simp [filledRecords, ih]

theorem filledRecords_first {r : Record} {l : List Place} (h : firstRecord l = some r) :
    filledRecords l = r :: filledRecords (dropFirstRecord l) := by
  induction l with
  | nil => cases h
  | cons x l ih =>
    cases x with
    | held n k => exact ih h
    | filled r' =>
      cases h
      rfl

theorem filledRecords_dropHeld (n : Nat) (l : List Place) : filledRecords (dropHeld n l) = filledRecords l := by
  induction l with
  | nil => rfl
  | cons x l ih =>
    cases x with
    | held m k =>
      rw [dropHeld]
      split
      · rfl
      · exact ih
    | filled r => exact congrArg (r :: ·) ih

theorem applies_fillHeld (n : Nat) {r : Record} (h : r.apply? = none) (l : List Place) :
    (filledRecords (fillHeld n r l)).filterMap Record.apply? = (filledRecords l).filterMap Record.apply? := by
  induction l with
  | nil => rfl
  | cons x l ih =>
    cases x with
    | held m k =>
      rw [fillHeld]
      split
      · simp [filledRecords, h]
      · exact ih
    | filled r' => simp [fillHeld, filledRecords, List.filterMap_cons, ih]

theorem filledRecords_held (l : List Place) : filledRecords (l.filter Place.isHeld) = [] := by
  induction l with
  | nil => rfl
  | cons x l ih => cases x <;> simpa [List.filter_cons, Place.isHeld, filledRecords] using ih

/-! ## The operations of the write queue -/

section
variable (p : Part)

@[simp] theorem Part.withQueue_queue (l : List Place) (b : Bool) :
    (p.withQueue l b).tj.queue = l ∧ (p.withQueue l b).tj.waiting = p.tj.waiting := ⟨rfl, rfl⟩

@[simp] theorem Part.fillPlace_queue (n : Nat) (r : Record) : (p.fillPlace n r).tj.queue = fillHeld n r p.tj.queue
    ∧ (p.fillPlace n r).tj.waiting = p.tj.waiting := ⟨rfl, rfl⟩

theorem Part.promote_of_none (h : p.tj.waiting = none) : p.promote = p := by
  unfold Part.promote
  rw [h]

end

section
variable {p q : Part}

theorem Part.applies_of_eq (queue : q.tj.queue = p.tj.queue) (waits : q.tj.waiting = p.tj.waiting) :
    q.queuedApplies = p.queuedApplies := by
  unfold Part.queuedApplies
  rw [queue, waits]

theorem Part.promote_applies (p : Part) : p.promote.queuedApplies = p.queuedApplies := by
  unfold Part.promote
  split
  · rfl
  · rename_i r hwaits
    split
    · simp [Part.queuedApplies, filledRecords_append, filledRecords, hwaits]
    · rfl

theorem Part.takePlace_applies {x : Place} (h : (filledRecords [x]).filterMap Record.apply? = []) :
    (p.takePlace x).queuedApplies = p.queuedApplies := by
  simp [Part.queuedApplies, filledRecords_append, h]

theorem Part.queueRecord_applies {r : Record} (h : r.apply? = none) :
    (p.queueRecord r).queuedApplies = p.queuedApplies := Part.takePlace_applies (by simp [filledRecords, h])

/-- A record that takes a place or waits for one, with no PRICE_APPLY queued before it. -/
theorem Part.queueOrWait_applies (r : Record) (h : p.queuedApplies = []) :
    (p.queueOrWait r).queuedApplies = r.apply?.toList := by
  unfold Part.queuedApplies at h
  rw [List.filterMap_append, List.append_eq_nil_iff] at h
  obtain ⟨hfilled, hwaits⟩ := h
  unfold Part.queueOrWait
  split
  · simp only [Part.queuedApplies, Part.queueRecord_queue, filledRecords_append, List.filterMap_append, hfilled, hwaits]
    cases h : r.apply? <;> simp [filledRecords, h]
  · simp only [Part.queuedApplies, List.filterMap_append, hfilled]
    cases h : r.apply? <;> simp [h]

theorem Part.fillPlace_applies (n : Nat) {r : Record} (h : r.apply? = none) :
    (p.fillPlace n r).queuedApplies = p.queuedApplies := by
  simp [Part.queuedApplies, applies_fillHeld n h]

theorem Part.giveBack_applies (n : Nat) : (p.giveBack n).queuedApplies = p.queuedApplies := by
  unfold Part.giveBack
  rw [Part.promote_applies]
  simp [Part.queuedApplies, filledRecords_dropHeld]

/-- The record that is written leaves the queue, and the one that waited takes its place. -/
theorem Part.finishAppend_applies {r : Record} (h : firstRecord p.tj.queue = some r) :
    p.queuedApplies = r.apply?.toList ++ (p.finishAppend r).queuedApplies := by
  have hq : ((p.storeRecord r).reportRetry).tj = p.tj := by simp
  unfold Part.finishAppend
  rw [Part.promote_applies]
  simp only [Part.queuedApplies, Part.withQueue_tj, Part.withAppend, hq, filledRecords_first h, List.cons_append,
    List.filterMap_cons]
  cases r.apply? <;> rfl

theorem closingRecord_apply? (o : Order) (k : CloseKind) : (p.closingRecord o k).apply? = none := by
  cases k <;> rfl

theorem Part.formClosing_applies (o : Order) (k : CloseKind) : (p.formClosing o k).queuedApplies = p.queuedApplies := by
  have htj : ∀ {a b : Part}, a.tj = b.tj → a.queuedApplies = b.queuedApplies := fun h =>
    Part.applies_of_eq (by rw [h]) (by rw [h])
  rw [p.formClosing_eq]
  split
  · rw [Part.giveBack_applies]
    exact htj ((Part.failClosing_om _ o k).2.1.trans (p.completed_frame o k).2.1)
  · refine (htj (b := (p.completed o k).fillPlace o.number (p.closingRecord o k)) rfl).trans ?_
    rw [Part.fillPlace_applies o.number (closingRecord_apply? o k)]
    exact htj (p.completed_frame o k).2.1

theorem Part.endEmptyClose_applies (o : Order) : (p.endEmptyClose o).queuedApplies = p.queuedApplies := by
  unfold Part.endEmptyClose
  dsimp only
  rw [Part.giveBack_applies]
  refine Part.applies_of_eq ?_ ?_ <;> split <;> simp

theorem Part.settleClosing_applies (n : Nat) : (p.settleClosing n).queuedApplies = p.queuedApplies := by
  rcases p.settleClosing_cases n with h | ⟨o, kind, -, -, -, ⟨-, h⟩ | ⟨-, h⟩⟩ <;> rw [h]
  · exact Part.endEmptyClose_applies o
  · exact Part.formClosing_applies o kind

end

/-! ## The entry into FAULT -/

/-- The write queue in FAULT: its places are held, and no record waits. -/
structure Part.Faulted (p : Part) : Prop where
  fault : p.tj.fault = true
  held : ∀ x ∈ p.tj.queue, x.isHeld = true
  waits : p.tj.waiting = none

theorem Part.Faulted.applies {p : Part} (h : p.Faulted) : p.queuedApplies = [] := by
  have hqueue : p.tj.queue.filter Place.isHeld = p.tj.queue := List.filter_eq_self.2 h.held
  unfold Part.queuedApplies
  rw [← hqueue, filledRecords_held, h.waits]
  rfl

theorem Part.Faulted.of_tj {p q : Part} (h : p.Faulted) (tj : q.tj = p.tj) : q.Faulted :=
  ⟨by rw [tj]; exact h.fault, by rw [tj]; exact h.held, by rw [tj]; exact h.waits⟩

theorem Part.Faulted.giveBack {p : Part} (h : p.Faulted) (n : Nat) : (p.giveBack n).Faulted := by
  have htj : (p.giveBack n).tj = (p.withQueue (dropHeld n p.tj.queue) (!frontFilled p.tj.queue)).tj :=
    congrArg Part.tj (Part.promote_of_none _ (by simpa using h.waits))
  refine Part.Faulted.of_tj ?_ htj
  exact ⟨h.fault, fun x hx => h.held x ((dropHeld_sublist n p.tj.queue).subset hx), h.waits⟩

theorem Part.Faulted.settleClosing {p : Part} (h : p.Faulted) (n : Nat) : (p.settleClosing n).Faulted := by
  rcases p.settleClosing_cases n with e | ⟨o, kind, -, -, -, ⟨-, e⟩ | ⟨-, e⟩⟩ <;> rw [e]
  · exact h
  · unfold Part.endEmptyClose
    dsimp only
    refine Part.Faulted.giveBack (h.of_tj ?_) o.number
    split <;> simp
  · rw [p.formClosing_eq, if_pos h.fault]
    exact Part.Faulted.giveBack (h.of_tj ((Part.failClosing_om _ o kind).2.1.trans (p.completed_frame o kind).2.1)) o.number

theorem Part.Faulted.recordFailed {p : Part} (h : p.Faulted) (r : Record) : (p.recordFailed r).Faulted := by
  have hclosing : ∀ n kind, (p.closingFailed n kind).Faulted := fun n kind => by
    unfold Part.closingFailed
    split
    · exact h
    · exact h.of_tj (Part.failClosing_om _ _ _).2.1
  cases r with
  | line n owner f =>
    refine Part.Faulted.settleClosing (h.of_tj ?_) n
    unfold Part.onItemJob
    dsimp only
    split <;> rfl
  | close n => exact hclosing n .sale
  | voidOrder n => exact hclosing n .void
  | priceApply =>
    simp only [Part.recordFailed, Part.failApply]
    split <;> exact h.of_tj rfl
  | priceStored =>
    simp only [Part.recordFailed, Part.failStore]
    split <;> exact h.of_tj rfl
  | _ => exact h.of_tj rfl

theorem Part.enterFault_faulted (p : Part) : p.enterFault.Faulted :=
  enterFault_keeps ⟨rfl, fun _ hx => (List.mem_filter.1 hx).2, rfl⟩ (fun _ r h => h.recordFailed r) fun _ _ h =>
    h.of_tj rfl

end Sys2Proof.Machine
end


-- ==== Sys2Proof/Proofs/NextGeneration.lean ====
section
/-! The change set and its queued PRICE_APPLY at every step, and the room of the article table (R34, R53 to R56, R62 to R66). -/

namespace Sys2Proof.Machine

/-! ## What the laws of the switch see -/

/-- What the law of the switch sees: the generation, the change set, the queued PRICE_APPLY records, whether the store-back is
idle and whether the start-up scan goes on. -/
theorem Part.Switching.of_eq {p q : Part} (h : p.Switching) (generation : q.art.generation = p.art.generation)
    (changeSet : q.art.changeSet = p.art.changeSet) (storeBack : p.art.storeBack = .idle → q.art.storeBack = .idle)
    (counter : q.tt.counter = .starting → p.tt.counter = .starting) (applies : q.queuedApplies = p.queuedApplies) :
    q.Switching :=
  { base := by rw [changeSet, generation]; exact h.base
    alone := by rw [changeSet]; exact fun hc => storeBack (h.alone hc)
    scanning := fun hc => changeSet.trans (h.scanning (counter hc))
    applies := by rw [applies, changeSet, generation]; exact h.applies }

theorem ChangeSet.applies_of_waiting {x : ChangeSet} (h : x.isApplying = false) (g : Nat) : x.applies g = [] := by
  cases x with
  | applying => cases h
  | _ => rfl

theorem ChangeSet.content_eq_none {x : ChangeSet} : x.content = Option.none ↔ x = .none := by cases x <;> simp [ChangeSet.content]

/-- A change set that is not in APPLYING replaced by one with the content of either. -/
theorem Part.Switching.withChangeSet {p : Part} (h : p.Switching) {x : ChangeSet} (before : p.art.changeSet.isApplying = false)
    (after : x.isApplying = false) (base : ∀ base es, x.content = some (base, es) → base = p.art.generation)
    (alone : x ≠ .none → p.art.storeBack = .idle) (running : x ≠ .none → p.tt.counter ≠ .starting) :
    (p.withChangeSet x).Switching :=
  { base := base
    alone := alone
    scanning := fun hc => Classical.byContradiction fun hx => running hx hc
    applies := h.applies.trans (by rw [ChangeSet.applies_of_waiting before]; exact (ChangeSet.applies_of_waiting after _).symm) }

/-- Where a change set is, the counter does not start and no store-back goes on. -/
theorem Part.Switching.present {p : Part} (h : p.Switching) (hc : p.art.changeSet ≠ .none) :
    p.art.storeBack = .idle ∧ p.tt.counter ≠ .starting := ⟨h.alone hc, fun hs => hc (h.scanning hs)⟩

/-- No PRICE_APPLY is queued but by a change set in APPLYING. -/
theorem Part.Switching.none_queued {p : Part} (h : p.Switching) (hc : p.art.changeSet.isApplying = false) :
    p.queuedApplies = [] := h.applies.trans (ChangeSet.applies_of_waiting hc _)

/-- A PRICE_APPLY that can be written is that of the change set, of the current generation plus 1. -/
theorem Part.Switching.first {p : Part} (h : p.Switching) {g : Nat} {es : List ChangeEntry} {time : Option DateTime}
    (first : firstRecord p.tj.queue = some (.priceApply g es time)) :
    g = p.art.generation + 1 ∧ (p.finishAppend (.priceApply g es time)).queuedApplies = []
      ∧ ∃ base, p.art.changeSet.content = some (base, es) := by
  have hqueued := Part.finishAppend_applies first
  rw [h.applies] at hqueued
  revert hqueued
  cases p.art.changeSet with
  | applying base es' t =>
    intro hqueued
    simp only [ChangeSet.applies, Record.apply?, Option.toList_some, List.singleton_append, List.cons.injEq,
      Prod.mk.injEq] at hqueued
    obtain ⟨⟨hg, hes⟩, hrest⟩ := hqueued
    exact ⟨hg.symm, hrest.symm, base, by rw [ChangeSet.content, hes]⟩
  | _ => exact nofun

/-! ## The entry into FAULT -/

/-- What the failure of records leaves of the change set, the store-back and the counter: an apply that fails opens its set
again. -/
structure Part.Reopening (p q : Part) (failing : List Record) : Prop where
  content : q.art.changeSet.content = p.art.changeSet.content
  phase : q.art.changeSet.isApplying = true → p.art.changeSet.isApplying = true ∧ ∀ r ∈ failing, r.apply? = none
  storeBack : p.art.storeBack = .idle → q.art.storeBack = .idle
  counter : q.tt.counter = .starting → p.tt.counter = .starting

theorem Part.recordFailed_reopening (p : Part) (r : Record) : p.Reopening (p.recordFailed r) [r] := by
  have hsame : r.apply? = none → (p.recordFailed r).art = p.art → (p.recordFailed r).tt = p.tt →
      p.Reopening (p.recordFailed r) [r] := fun hr hart htt =>
    ⟨by rw [hart], fun hq => ⟨by rwa [hart] at hq, fun x hx => List.mem_singleton.1 hx ▸ hr⟩, fun hi => by rw [hart, hi],
      fun hs => by rwa [htt] at hs⟩
  cases r with
  | line n owner f => exact hsame rfl (p.lineFailed_frame n f).2.1 (p.lineFailed_frame n f).2.2
  | close n => exact hsame rfl (p.closingFailed_frame n .sale).2.1 (p.closingFailed_frame n .sale).2.2
  | voidOrder n => exact hsame rfl (p.closingFailed_frame n .void).2.1 (p.closingFailed_frame n .void).2.2
  | priceApply g es t =>
    cases hc : p.art.changeSet.content with
    | none =>
      have hset := ChangeSet.content_eq_none.1 hc
      have he : p.recordFailed (.priceApply g es t) = p := by simp only [Part.recordFailed, Part.failApply, hc]
      rw [he]
      exact ⟨rfl, fun hq => absurd (hset ▸ hq) nofun, id, id⟩
    | some x =>
      have he : p.recordFailed (.priceApply g es t)
          = (p.withChangeSet (.opened x.1 x.2 p.now)).latch .applyDone (some (.applyFailed .storeFault)) := by
        simp only [Part.recordFailed, Part.failApply, hc]
      rw [he]
      exact ⟨hc.symm, nofun, id, id⟩
  | priceStored g =>
    have hplain : ∀ x ∈ [Record.priceStored g], x.apply? = none := fun x hx => List.mem_singleton.1 hx ▸ rfl
    cases hback : p.art.storeBack with
    | storing g' step later =>
      have he : p.recordFailed (.priceStored g) = p.withStoreBack (.owed g') := by
        simp only [Part.recordFailed, Part.failStore, hback]
      rw [he]
      exact ⟨rfl, fun hq => ⟨hq, hplain⟩, fun hi => absurd (hback.symm.trans hi) nofun, id⟩
    | _ =>
      have he : p.recordFailed (.priceStored g) = p := by simp only [Part.recordFailed, Part.failStore, hback]
      rw [he]
      exact ⟨rfl, fun hq => ⟨hq, hplain⟩, id, id⟩
  | dayClose d => exact ⟨rfl, fun hq => ⟨hq, fun x hx => List.mem_singleton.1 hx ▸ rfl⟩, id, nofun⟩
  | _ => exact hsame rfl rfl rfl

theorem foldl_recordFailed_reopening (rs : List Record) (p : Part) : p.Reopening (rs.foldl Part.recordFailed p) rs := by
  induction rs generalizing p with
  | nil => exact ⟨rfl, fun h => ⟨h, nofun⟩, id, id⟩
  | cons r rs ih =>
    have hr := p.recordFailed_reopening r
    have hrest := ih (p.recordFailed r)
    refine ⟨hrest.content.trans hr.content, fun hq => ?_, fun hi => hrest.storeBack (hr.storeBack hi),
      fun hs => hr.counter (hrest.counter hs)⟩
    obtain ⟨hmid, hnone⟩ := hrest.phase hq
    obtain ⟨hp, hfirst⟩ := hr.phase hmid
    exact ⟨hp, List.forall_mem_cons.2 ⟨hfirst r (List.mem_singleton_self r), hnone⟩⟩

theorem Part.enterFault_reopening (p : Part) :
    p.Reopening p.enterFault (filledRecords p.tj.queue ++ p.tj.waiting.toList) :=
  have h := foldl_recordFailed_reopening (filledRecords p.tj.queue ++ p.tj.waiting.toList) { p with tj := { p.tj with
    fault := true, append := none, queue := p.tj.queue.filter Place.isHeld, waiting := none } }
  ⟨h.content, h.phase, h.storeBack, h.counter⟩

theorem Part.Switching.enterFault {p : Part} (h : p.Switching) : p.enterFault.Switching := by
  have hr := p.enterFault_reopening
  have hnone : p.enterFault.art.changeSet ≠ .none → p.art.changeSet ≠ .none := fun hq hp =>
    hq (ChangeSet.content_eq_none.1 (by rw [hr.content, hp]; rfl))
  have hphase : p.enterFault.art.changeSet.isApplying = false := by
    refine Bool.eq_false_iff.2 fun hq => ?_
    obtain ⟨hp, hfailing⟩ := hr.phase hq
    have hempty : p.queuedApplies = [] := List.filterMap_eq_nil_iff.2 hfailing
    rw [h.applies] at hempty
    cases hset : p.art.changeSet with
    | applying base es t => rw [hset] at hempty; cases hempty
    | _ => rw [hset] at hp; cases hp
  exact {
    base := fun base es hq => by
      rw [p.enterFault_failing.generation]
      exact h.base base es (hr.content ▸ hq)
    alone := fun hq => hr.storeBack (h.alone (hnone hq))
    scanning := fun hs => Classical.byContradiction fun hq => hnone hq (h.scanning (hr.counter hs))
    applies := p.enterFault_faulted.applies.trans (ChangeSet.applies_of_waiting hphase _).symm }

/-! ## The moves -/

/-- The queue of PRICE_APPLY records where a record of another kind is written. -/
theorem Part.finishAppend_applies_none {p : Part} {r : Record} (h : firstRecord p.tj.queue = some r) (hr : r.apply? = none) :
    (p.finishAppend r).queuedApplies = p.queuedApplies := by
  rw [Part.finishAppend_applies h, hr]
  rfl

theorem Record.apply?_of_plain {r : Record} (h : r.plain = true) : r.apply? = none := by
  cases r with
  | priceApply => cases h
  | _ => rfl

theorem switching_move {c : Instr} {k : Nat} {p q : Part} (m : Move c k p q) (h : p.Switching) : q.Switching := by
  have hcontent : ∀ {x : ChangeSet}, p.art.changeSet = x → ∀ base es, x.content = some (base, es) →
      base = p.art.generation := fun e base es hx => h.base base es (by rw [e]; exact hx)
  have hqueue : ∀ {r : Record} {r' : Part}, firstRecord p.tj.queue = some r → r.apply? = none →
      r'.tj = (p.finishAppend r).tj → r'.queuedApplies = p.queuedApplies := fun hfirst hr htj =>
    (Part.applies_of_eq (by rw [htj]) (by rw [htj])).trans (Part.finishAppend_applies_none hfirst hr)
  cases m with
  | quiet seen =>
    exact h.of_eq (congrArg Seen.generation seen) (congrArg Seen.changeSet seen)
      (by rw [show q.art.storeBack = p.art.storeBack from congrArg Seen.storeBack seen]; exact id)
      (by rw [show q.tt.counter = p.tt.counter from congrArg Seen.counter seen]; exact id)
      (Part.applies_of_eq (congrArg Seen.queue seen) (congrArg Seen.waits seen))
  | reset => exact ⟨nofun, fun _ => rfl, fun _ => rfl, rfl⟩
  | changeTouched base es last now opened =>
    have hp := h.present (by rw [opened]; exact nofun)
    exact h.withChangeSet (by rw [opened]; rfl) rfl (fun b e he => hcontent opened b e he) (fun _ => hp.1) fun _ => hp.2
  | changeBegun now none idle running =>
    exact h.withChangeSet (by rw [none]; rfl) rfl (fun b e he => by cases he; rfl) (fun _ => idle) fun _ => running
  | staged base es last now e opened =>
    have hp := h.present (by rw [opened]; exact nofun)
    exact h.withChangeSet (by rw [opened]; rfl) rfl (fun b _ he => by cases he; exact hcontent opened _ es rfl)
      (fun _ => hp.1) fun _ => hp.2
  | changeDropped phase =>
    exact h.withChangeSet phase rfl nofun (fun hx => absurd rfl hx) fun hx => absurd rfl hx
  | changeScheduled base es last time opened =>
    have hp := h.present (by rw [opened]; exact nofun)
    exact h.withChangeSet (by rw [opened]; rfl) rfl (fun b e he => hcontent opened b e he) (fun _ => hp.1) fun _ => hp.2
  | changeReopened base es time now scheduled =>
    have hp := h.present (by rw [scheduled]; exact nofun)
    exact h.withChangeSet (by rw [scheduled]; rfl) rfl (fun b e he => hcontent scheduled b e he) (fun _ => hp.1)
      fun _ => hp.2
  | changeApplied base es time content phase =>
    have hp := h.present fun hnone => by rw [hnone] at content; cases content
    refine ⟨fun b e he => ?_, fun _ => by simpa using hp.1, fun hs => absurd hs (by simpa using hp.2), ?_⟩
    · cases he
      simpa using h.base _ es content
    · refine (Part.queueOrWait_applies (p.applyRecord es) (h.none_queued phase)).trans ?_
      simp [Record.apply?, Part.applyRecord, ChangeSet.applies]
  | orderOpened => exact h.of_eq (by simp) (by simp) (by simp) (by simp) (Part.applies_of_eq (by simp) (by simp))
  | lineAdded st o f a =>
    refine h.of_eq (by simp) (by simp) (by simp) (by simp) ?_
    refine (Part.applies_of_eq (p := p.queueRecord (.line o.number o.owner f)) ?_ ?_).trans (Part.queueRecord_applies rfl)
    all_goals
      unfold Part.addLine Part.confirmLine Part.consumeSelection
      dsimp only
      split <;> simp
  | closingBegun o kind =>
    exact h.of_eq rfl rfl id id ((Part.takePlace_applies rfl).trans (Part.applies_of_eq rfl rfl))
  | closingSettled n =>
    exact h.of_eq (by simp) (by simp) (by simp) (by simp) (Part.settleClosing_applies n)
  | recordQueued r plain =>
    exact h.of_eq rfl rfl id id (Part.queueRecord_applies (Record.apply?_of_plain plain))
  | storedQueued g later storing =>
    have hnone : p.art.changeSet = .none := Classical.byContradiction fun hc => storing (h.alone hc)
    have hempty : p.queuedApplies = [] := h.none_queued (by rw [hnone]; rfl)
    refine ⟨by simp [hnone, ChangeSet.content], by simp [hnone], by simp [hnone], ?_⟩
    refine (Part.queueOrWait_applies (.priceStored g) hempty).trans ?_
    simp [hnone, Record.apply?, ChangeSet.applies]
  | dayCloseBegun d =>
    exact h.of_eq rfl rfl id nofun ((Part.applies_of_eq rfl rfl).trans (Part.queueRecord_applies (p := p) (r := .dayClose d) rfl))
  | counterSet x running state => exact h.of_eq rfl rfl id (fun hs => absurd hs state) (Part.applies_of_eq rfl rfl)
  | dayEnded d => exact h.of_eq rfl rfl id nofun (Part.applies_of_eq rfl rfl)
  | lineWritten n owner f first =>
    exact h.of_eq (by simp) (by simp) (by simp) (by simp) (hqueue first rfl (by simp))
  | closeWritten n owner ticket count total label wait first =>
    exact h.of_eq (by simp) (by simp) (by simp) (by simp) (hqueue first rfl (by simp))
  | voidWritten n owner ticket value first =>
    exact h.of_eq (by simp) (by simp) (by simp) (by simp) (hqueue first rfl (by simp))
  | plainWritten r plain first =>
    exact h.of_eq (by simp) (by simp) (by simp) (by simp) (hqueue first (Record.apply?_of_plain plain) rfl)
  | switched g es time command first =>
    obtain ⟨-, hempty, base, hcontent⟩ := h.first first
    have hp := h.present fun hnone => by rw [hnone] at hcontent; cases hcontent
    refine ⟨by simp [ChangeSet.content], by simp, fun _ => by simp, ?_⟩
    refine (Part.applies_of_eq (by simp) (by simp)).trans (hempty.trans ?_)
    simp [ChangeSet.applies]
  | faultEntered => exact h.enterFault
  | storeBackMoved x storing =>
    exact h.of_eq rfl rfl (fun hi => absurd hi storing) id (Part.applies_of_eq rfl rfl)
  | _ => exact h.of_eq (by simp) (by simp) (by simp) (by simp) (Part.applies_of_eq (by simp) (by simp))

theorem switching_endScan {p : Part} {x : List Nat} (hs : p.tt.counter = .starting) (h : p.Switching) :
    (p.endScan x).Switching := by
  have hnone := h.scanning hs
  have hempty : p.queuedApplies = [] := h.none_queued (by rw [hnone]; rfl)
  refine ⟨by simp [hnone, ChangeSet.content], by simp [hnone], by simp, ?_⟩
  refine (Part.applies_of_eq (by simp) (by simp)).trans (hempty.trans ?_)
  simp [hnone, ChangeSet.applies]

/-- A PRICE_APPLY that is written raises the generation by one. -/
theorem exec_priceApplyWritten_generation {s t : State} (h : s.part.Switching) (hstep : exec .priceApplyWritten s = .next t) :
    t.part.art.generation = s.part.art.generation ∨ t.part.art.generation = s.part.art.generation + 1 := by
  have hpart : t.part.art.generation = s.part.art.generation
      ∨ t.part = s.part.appendWritten reportPriceApply := by
    by_cases hr : s.runs
    · have hnext : exec .priceApplyWritten s = .next { s with part := s.part.appendWritten reportPriceApply } :=
        State.act_runs hr _
      rw [hnext] at hstep
      cases hstep
      exact .inr rfl
    · have hnext : exec .priceApplyWritten s = .next s := State.act_held (by simpa [State.runs] using hr) _
      rw [hnext] at hstep
      cases hstep
      exact .inl rfl
  rcases hpart with hsame | hpart
  · exact .inl hsame
  · rw [hpart]
    unfold Part.appendWritten
    split
    · exact .inl rfl
    · rename_i r hr
      split
      · exact .inl rfl
      · rename_i effect heffect
        cases r with
        | priceApply g es time =>
          cases heffect
          exact .inr (by simpa using (h.first (firstRecord_of_inFlight hr)).1)
        | _ => cases heffect

end Sys2Proof.Machine
end


-- ==== Sys2Proof/Proofs/TableRoom.lean ====
section
/-! The article table within its 2,000 records, before and after the change set is applied (R34). -/

namespace Sys2Proof.Machine

/-! ## What the entries add -/

/-- Whether an entry adds a record to a table: a PUT of an article that is not there. -/
def ChangeEntry.adds (table : List Article) (e : ChangeEntry) : Bool :=
  e.isPut && (lookup Article.number e.number table).isNone

theorem Part.roomCount_eq (p : Part) (es : List ChangeEntry) :
    p.roomCount es = p.art.table.length + es.countP (ChangeEntry.adds p.art.table) := by
  rw [List.countP_eq_length_filter]
  rfl

theorem length_applyEntry (g : Nat) (e : ChangeEntry) {table : List Article} (h : (table.map Article.number).Pairwise (· < ·)) :
    (applyEntry g table e).length ≤ table.length + if e.adds table then 1 else 0 := by
  cases e with
  | put a =>
    cases hl : (lookup Article.number a.number table).isSome with
    | true => exact (length_insertByKey_of_mem (x := { a with generation := g }) h hl).le.trans (Nat.le_add_right _ _)
    | false =>
      have hadds : (ChangeEntry.put a).adds table = true := by
        simpa [ChangeEntry.adds, ChangeEntry.isPut, ChangeEntry.number] using hl
      rw [if_pos hadds]
      exact length_insertByKey _ _ _
  | delete n => exact (List.length_filter_le _ _).trans (Nat.le_add_right _ _)
  | hold n => exact (length_changeFirst _ _ _).le.trans (Nat.le_add_right _ _)
  | release n => exact (length_changeFirst _ _ _).le.trans (Nat.le_add_right _ _)

theorem length_applyEntries (g : Nat) (es : List ChangeEntry) {table : List Article}
    (h : (table.map Article.number).Pairwise (· < ·)) (he : (es.map ChangeEntry.number).Pairwise (· < ·)) :
    (applyEntries g es table).length ≤ table.length + es.countP (ChangeEntry.adds table) := by
  induction es generalizing table with
  | nil => exact le_refl _
  | cons e es ih =>
    rw [List.map_cons, List.pairwise_cons] at he
    obtain ⟨hfirst, hrest⟩ := he
    have happlied := applyEntry_applied g e table h
    have hsame : es.countP (ChangeEntry.adds (applyEntry g table e)) = es.countP (ChangeEntry.adds table) := by
      refine List.countP_congr fun x hx => ?_
      have hne : x.number ≠ e.number := Nat.ne_of_gt (hfirst _ (List.mem_map_of_mem hx))
      unfold ChangeEntry.adds
      rw [happlied.others _ hne]
    have hlength := length_applyEntry g e h
    have := ih happlied.ascending hrest
    rw [hsame] at this
    rw [List.countP_cons]
    show (applyEntries g es (applyEntry g table e)).length ≤ _
    omega

/-! ## What a staged entry adds -/

theorem insertByKey_split {α : Type} {key : α → Nat} {x : α} {l : List α} (h : (l.map key).Pairwise (· < ·)) :
    ∃ before behind, insertByKey key x l = before ++ x :: behind
      ∧ ((l = before ++ behind ∧ lookup key (key x) l = none)
        ∨ ∃ y, key y = key x ∧ l = before ++ y :: behind ∧ lookup key (key x) l = some y) := by
  induction l with
  | nil => exact ⟨[], [], rfl, .inl ⟨rfl, rfl⟩⟩
  | cons y ys ih =>
    rw [List.map_cons, List.pairwise_cons] at h
    obtain ⟨hfirst, hrest⟩ := h
    rw [insertByKey]
    split
    · rename_i hlt
      refine ⟨[], y :: ys, rfl, .inl ⟨rfl, List.find?_eq_none.2 fun z hz => ?_⟩⟩
      rcases List.mem_cons.1 hz with rfl | hz
      · simpa using Nat.ne_of_gt hlt
      · simpa using Nat.ne_of_gt (hlt.trans (hfirst _ (List.mem_map_of_mem hz)))
    · split
      · rename_i heq
        exact ⟨[], ys, rfl, .inr ⟨y, heq.symm, rfl, List.find?_cons_of_pos (by simpa using heq.symm)⟩⟩
      · rename_i hne
        obtain ⟨before, behind, hinsert, hl⟩ := ih hrest
        have hfind : lookup key (key x) (y :: ys) = lookup key (key x) ys :=
          List.find?_cons_of_neg (by simpa using Ne.symm hne)
        refine ⟨y :: before, behind, by rw [hinsert]; rfl, ?_⟩
        rw [hfind]
        rcases hl with ⟨hl, hnone⟩ | ⟨z, hz, hl, hsome⟩
        · exact .inl ⟨by rw [hl]; rfl, hnone⟩
        · exact .inr ⟨z, hz, by rw [hl]; rfl, hsome⟩

/-- A staged entry keeps the room that its check has seen. -/
theorem Part.roomCount_staged {p : Part} {es : List ChangeEntry} {e : ChangeEntry}
    (ascending : (es.map ChangeEntry.number).Pairwise (· < ·)) (room : p.roomCount es ≤ Config.maxArticles)
    (put : ∀ a, e = .put a → p.roomFor es a.number = true) :
    p.roomCount (insertByKey ChangeEntry.number e es) ≤ Config.maxArticles := by
  rw [Part.roomCount_eq] at room ⊢
  obtain ⟨before, behind, hinsert, hsplit⟩ := insertByKey_split (x := e) ascending
  have hcount : (insertByKey ChangeEntry.number e es).countP (ChangeEntry.adds p.art.table)
      ≤ es.countP (ChangeEntry.adds p.art.table) + if e.adds p.art.table then 1 else 0 := by
    rw [hinsert]
    rcases hsplit with ⟨hl, -⟩ | ⟨y, -, hl, -⟩ <;> rw [hl] <;> simp only [List.countP_append, List.countP_cons] <;> omega
  by_cases hadds : e.adds p.art.table = true
  case neg =>
    rw [if_neg hadds] at hcount
    omega
  case pos =>
    rw [if_pos hadds] at hcount
    cases e with
    | put a =>
      have hnone : (p.article a.number).isSome = false := by
        have : (lookup Article.number a.number p.art.table).isNone = true := by
          simpa [ChangeEntry.adds, ChangeEntry.isPut, ChangeEntry.number] using hadds
        simpa [Part.article] using this
      have hroom := put a rfl
      rw [Part.roomFor, hnone, Bool.false_or, Bool.or_eq_true, decide_eq_true_eq, Part.roomCount_eq] at hroom
      rcases hroom with hput | hless
      · rcases hsplit with ⟨-, hfind⟩ | ⟨y, hy, hl, hfind⟩ <;> rw [ChangeEntry.number] at hfind <;> rw [hfind] at hput
        · cases hput
        · have hyput : y.isPut = true := hput
          have hyadds : y.adds p.art.table = true := by
            unfold ChangeEntry.adds at hadds ⊢
            rw [hy, hyput]
            exact hadds
          rw [hinsert]
          rw [hl] at room
          simp only [List.countP_append, List.countP_cons, hadds, hyadds, if_true] at room ⊢
          omega
      · omega
    | _ => cases hadds

/-! ## The moves -/

theorem Part.TableFits.of_eq {p q : Part} (h : p.TableFits) (table : q.art.table = p.art.table)
    (changes : q.art.changeSet.content = p.art.changeSet.content) : q.TableFits := by
  refine ⟨by rw [table]; exact h.table, fun base es he => ?_⟩
  have := h.changes base es (changes ▸ he)
  rw [Part.roomCount_eq] at this ⊢
  rwa [table]

theorem Part.TableFits.without {p : Part} (table : p.art.table.length ≤ Config.maxArticles)
    (none : p.art.changeSet = .none) : p.TableFits :=
  ⟨table, fun base es he => by rw [none] at he; cases he⟩

theorem tableFits_move {c : Instr} {k : Nat} {p q : Part} (m : Move c k p q) (hinv : p.Inv) (hasc : p.Ascending)
    (hswitching : p.Switching) (h : p.TableFits) : q.TableFits := by
  cases m with
  | quiet seen => exact h.of_eq (congrArg Seen.table seen) (congrArg (fun x => x.changeSet.content) seen)
  | reset => exact ⟨Nat.zero_le _, nofun⟩
  | changeTouched base es last now opened => exact h.of_eq rfl (by rw [opened]; rfl)
  | changeBegun now =>
    refine ⟨h.table, fun base es he => ?_⟩
    cases he
    exact h.table
  | staged base es last now e opened room put =>
    have hcontent : p.art.changeSet.content = some (base, es) := by rw [opened]; rfl
    refine ⟨h.table, fun base' es' he => ?_⟩
    cases he
    exact Part.roomCount_staged (hinv.ordered.changes base es hcontent) (h.changes base es hcontent) fun a ha => (put a ha).1
  | changeDropped => exact ⟨h.table, nofun⟩
  | changeScheduled base es last time opened => exact h.of_eq rfl (by rw [opened]; rfl)
  | changeReopened base es time now scheduled => exact h.of_eq rfl (by rw [scheduled]; rfl)
  | changeApplied base es time content => exact h.of_eq (by simp) (by rw [content]; rfl)
  | switched g es time command first =>
    obtain ⟨-, -, base, hcontent⟩ := hswitching.first first
    refine Part.TableFits.without ?_ (by simp)
    have hroom := h.changes base es hcontent
    rw [Part.roomCount_eq] at hroom
    have hlength := length_applyEntries g es hasc.table (hinv.ordered.changes base es hcontent)
    simpa using hlength.trans hroom
  | faultEntered => exact h.of_eq p.enterFault_failing.table p.enterFault_content
  | _ => exact h.of_eq (by simp) (by simp)

/-- The laws that the room of the article table rests on. -/
structure Part.Roomy (p : Part) : Prop where
  inv : p.Inv
  ascending : p.Ascending
  switching : p.Switching
  fits : p.TableFits

theorem roomy_move {c : Instr} {k : Nat} {p q : Part} (m : Move c k p q) (h : p.Roomy) : q.Roomy :=
  ⟨inv_move m h.inv, ascending_move m h.ascending, switching_move m h.switching,
    tableFits_move m h.inv h.ascending h.switching h.fits⟩

/-- Settles O58: each move keeps the queued PRICE_APPLY that of the change set, and the count of R34 bounds what the switch adds
to the table. -/
theorem stepKeepsTheNextGeneration : Obligations.StepKeepsTheNextGeneration := by
  refine ⟨fun s t hs h => step_keeps h hs switching_move switching_endScan,
    fun s t hs h => exec_priceApplyWritten_generation hs h, fun s t hinv hasc hswitching hfits hend h => ?_⟩
  rcases step_cases h with ⟨c, hpath⟩ | ⟨x, hscan, -⟩
  · exact (hpath.keeps ⟨hinv, hasc, hswitching, hfits⟩ roomy_move).fits
  · exact absurd hscan (hend x)

end Sys2Proof.Machine
end


-- ==== Sys2Proof/Proofs/OrderMoves.lean ====
section
/-! What the operations of the order block do to the orders of the pool, to the active-order references and to the write queue. -/

namespace Sys2Proof.Machine

/-- The order manager after the order of a number has left it. -/
def OrderManager.without (m : OrderManager) (n : Nat) : OrderManager := { m with
  pool := updatePool n (fun _ => none) m.pool
  active := m.active.map (fun a => if a = some n then none else a) }

section
variable (p : Part)

theorem Part.freeOrder_om (n : Nat) : (p.freeOrder n).om = p.om.without n := rfl

theorem OrderManager.without_orders (m : OrderManager) (n : Nat) :
    (m.without n).orders = m.orders.filter (fun o => o.number ≠ n) :=
  orders_freed { State.reset.part with om := m } n

theorem OrderManager.without_active (m : OrderManager) (n : Nat) (st : StationNo) (k : Nat) :
    (m.without n).active.get st = some k ↔ m.active.get st = some k ∧ k ≠ n := by
  rw [OrderManager.without, PerStation.get_map]
  by_cases h : m.active.get st = some n
  · simp only [h, if_true, Option.some.injEq]
    exact ⟨nofun, fun ⟨he, hne⟩ => absurd he.symm hne⟩
  · rw [if_neg h]
    exact ⟨fun he => ⟨he, fun hk => h (by rw [he, hk])⟩, fun he => he.1⟩

/-- The order with a line that a commit adds. -/
def Order.withLine (o : Order) (f : LineFields) : Order :=
  { o with lines := o.lines ++ [⟨f, .pending⟩], total := o.total + f.linePrice }

theorem Part.addLine_om (o : Order) (f : LineFields) (a : Article) :
    (p.addLine o f a).om = (p.updateOrder o.number (fun x => x.withLine f)).om := by
  unfold Part.addLine Part.confirmLine Part.consumeSelection
  dsimp only
  split <;> simp <;> rfl

theorem Part.addLine_queue (o : Order) (f : LineFields) (a : Article) :
    (p.addLine o f a).tj.queue = p.tj.queue ++ [.filled (.line o.number o.owner f)]
      ∧ (p.addLine o f a).tj.waiting = p.tj.waiting := by
  unfold Part.addLine Part.confirmLine Part.consumeSelection
  dsimp only
  split <;> simp

/-- The order without the line of a record that has failed. -/
def Order.withoutLine (o : Order) (f : LineFields) : Order :=
  { o with lines := removeFirst (fun l => l.fields.index == f.index) o.lines, total := o.total - f.linePrice }

/-- The part without the line of a record that has failed, before the close of its order is judged. -/
def Part.lineLost (p : Part) (n : Nat) (f : LineFields) : Part :=
  ((p.updateOrder n (fun o => o.withoutLine f)).onItemJob f (fun q k => q.deleteJob .item k)).markStoreError f.station

theorem Part.lineFailed_lost (n : Nat) (f : LineFields) : p.lineFailed n f = (p.lineLost n f).settleClosing n := rfl

theorem Part.lineLost_parts (n : Nat) (f : LineFields) :
    (p.lineLost n f).om = (p.updateOrder n (fun o => o.withoutLine f)).om ∧ (p.lineLost n f).tj = p.tj
      ∧ (p.lineLost n f).tc = p.tc := by
  unfold Part.lineLost Part.onItemJob
  split <;> exact ⟨rfl, rfl, rfl⟩

/-! ## A close judged, failed and written -/

theorem Part.endEmptyClose_without (o : Order) : (p.endEmptyClose o).om = p.om.without o.number :=
  (p.endEmptyClose_om o).1

/-- The places of the write queue without the held one of an order, which is given back. -/
theorem Part.giveBack_from {p q : Part} (h : q.tj = p.tj) (n : Nat) : ∃ rs : List Record,
    (q.giveBack n).tj.queue = dropHeld n p.tj.queue ++ rs.map .filled
      ∧ rs ++ (q.giveBack n).tj.waiting.toList = p.tj.waiting.toList := h ▸ q.giveBack_places n

theorem Part.endEmptyClose_places (o : Order) : ∃ rs : List Record,
    (p.endEmptyClose o).tj.queue = dropHeld o.number p.tj.queue ++ rs.map .filled
      ∧ rs ++ (p.endEmptyClose o).tj.waiting.toList = p.tj.waiting.toList := by
  unfold Part.endEmptyClose
  dsimp only
  refine Part.giveBack_from ?_ o.number
  split <;> simp

theorem Part.formClosing_fault (h : p.tj.fault = true) (o : Order) (k : CloseKind) : ∃ rs : List Record,
    (p.formClosing o k).om = (p.setClosing o.number k .failed).om
      ∧ (p.formClosing o k).tj.queue = dropHeld o.number p.tj.queue ++ rs.map .filled
      ∧ rs ++ (p.formClosing o k).tj.waiting.toList = p.tj.waiting.toList := by
  have hom := p.formClosing_om o k
  rw [if_pos h] at hom
  have htj : ((p.completed o k).failClosing o k).tj = p.tj :=
    (Part.failClosing_om _ o k).2.1.trans (p.completed_frame o k).2.1
  obtain ⟨rs, hq, hw⟩ := Part.giveBack_from htj o.number
  refine ⟨rs, hom, ?_, ?_⟩ <;> rw [p.formClosing_eq, if_pos h]
  · exact hq
  · exact hw

theorem Part.formClosing_queued (h : p.tj.fault = false) (o : Order) (k : CloseKind) : ∃ r : Record,
    (p.formClosing o k).om = (p.setClosing o.number k .queued).om
      ∧ (p.formClosing o k).tj.queue = fillHeld o.number r p.tj.queue
      ∧ (p.formClosing o k).tj.waiting = p.tj.waiting
      ∧ r = p.closingRecord o k := by
  have hom := p.formClosing_om o k
  rw [if_neg (by rw [h]; exact Bool.false_ne_true)] at hom
  have htj := (p.completed_frame o k).2.1
  have hrecord : (p.completed o k).closingRecord o k = p.closingRecord o k := by
    cases k with
    | void => rfl
    | sale =>
      have htc := (p.completed_frame o .sale).2.2
      have hwait : (p.completed o .sale).waitOf o.ticket = p.waitOf o.ticket := Part.waitOf_tc htc
      simp only [Part.closingRecord, hwait]
  refine ⟨_, hom, ?_, ?_, hrecord⟩ <;> rw [p.formClosing_eq, if_neg (by rw [h]; exact Bool.false_ne_true)]
  · show fillHeld _ _ (p.completed o k).tj.queue = _
    rw [htj, hrecord]
  · show (p.completed o k).tj.waiting = _
    rw [htj]

/-- A record that is written of an order that is there: the order leaves. -/
theorem Part.closeWritten_om (n owner total : Nat) (label : Option Nat) :
    (p.order n = none ∧ p.closeWritten n owner total label = p)
      ∨ (p.closeWritten n owner total label).om = p.om.without n := by
  unfold Part.closeWritten
  cases h : p.order n with
  | none => exact .inl ⟨rfl, rfl⟩
  | some o =>
    refine .inr ?_
    dsimp only
    rw [Part.freeOrder_om]
    congr 1
    rw [(Part.endServed_frame _ _).2.2.2.2.2.2.1,
      (Part.onTotalJob_frame _ o (fun q k => q.releaseJob .total k) fun _ _ => ⟨rfl, rfl, rfl⟩).1]
    rfl

theorem Part.voidOrderWritten_om (n owner value : Nat) :
    (p.order n = none ∧ p.voidOrderWritten n owner value = p)
      ∨ (p.voidOrderWritten n owner value).om = p.om.without n := by
  unfold Part.voidOrderWritten
  cases h : p.order n with
  | none => exact .inl ⟨rfl, rfl⟩
  | some o =>
    refine .inr ?_
    dsimp only
    rw [Part.freeOrder_om]
    congr 1
    rw [(Part.endNoSale_frame _ _).2.2.2.2.2.2.1]
    rfl

theorem Part.makeTotalLabel_updates (st : StationNo) (o : Order) (h : makesTotal o.labelMode = true) :
    (p.makeTotalLabel st o).om
      = (p.updateOrder o.number (fun x => { x with totalLabel := some p.lu.nextLabel })).om := by
  simp only [Part.makeTotalLabel, h, if_true, Part.addJob_frame]
  rfl

theorem Part.openOrder_om (st : StationNo) (operator : Nat) : (p.openOrder st operator).om
    = ⟨placeOrder (p.newOrder st operator) p.om.pool, p.om.active.set st (some p.nextOrder), p.nextOrder⟩ := by
  unfold Part.openOrder Part.bindTicket
  dsimp only
  split <;> rfl

end

/-- The number of an order that is opened is not that of another. -/
theorem Part.nextOrder_new {p : Part} (slots : p.om.pool.length = Config.orderSlots) :
    ∀ o ∈ p.om.orders, o.number ≠ p.nextOrder := by
  have hlength : (p.om.orders.map Order.number).length ≤ 16 := by
    rw [List.length_map]
    exact (List.length_filterMap_le _ _).trans slots.le
  have h := (firstFree_notMem (limit := 9999) (n := p.om.lastNumber) (fuel := 16) (by omega) hlength).1
  rw [← Part.nextOrder_eq] at h
  exact fun o ho he => h (List.mem_map.2 ⟨o, ho, he⟩)

/-- What holds of every order before a close is judged, and of one that changes its state, holds after. -/
theorem Part.settleClosing_all {Q : Order → Prop} {p : Part} (n : Nat) (h : ∀ o ∈ p.om.orders, Q o)
    (state : ∀ o s, Q o → Q { o with state := s }) : ∀ o ∈ (p.settleClosing n).om.orders, Q o := by
  rcases p.settleClosing_cases n with e | ⟨o, kind, -, -, -, ⟨-, e⟩ | ⟨-, e⟩⟩ <;> rw [e]
  · exact h
  · rw [Part.endEmptyClose_without, OrderManager.without_orders]
    exact fun x hx => h x (List.mem_filter.1 hx).1
  · rw [Part.formClosing_om, Part.setClosing, Part.updateOrder_orders]
    intro x hx
    obtain ⟨y, hy, rfl⟩ := List.mem_map.1 hx
    by_cases hn : y.number = o.number
    · rw [if_pos hn]
      exact state _ _ (h y hy)
    · rw [if_neg hn]
      exact h y hy

end Sys2Proof.Machine
end


-- ==== Sys2Proof/Proofs/OrdersBound.lean ====
section
/-! The binding of orders (R90 to R92, R98, R106, R107, R109, R110) at each change of an order, of a reference and of the write
queue. At the entry into FAULT the records that have not been reported yet count as places still. -/

namespace Sys2Proof.Machine

/-! ## The lines of an order (R98) -/

/-- The indices of the lines are ascending within 1..24. -/
structure Order.LinesOk (o : Order) : Prop where
  ascending : (o.lines.map (fun l => l.fields.index)).Pairwise (· < ·)
  range : ∀ l ∈ o.lines, 1 ≤ l.fields.index ∧ l.fields.index ≤ Config.maxLines

theorem length_le_of_ascending {l : List Nat} {m n : Nat} (h : l.Pairwise (· < ·)) (range : ∀ x ∈ l, m + 1 ≤ x ∧ x ≤ m + n) :
    l.length ≤ n := by
  induction l generalizing m n with
  | nil => exact Nat.zero_le n
  | cons x xs ih =>
    obtain ⟨hx, hxs⟩ := List.pairwise_cons.1 h
    obtain ⟨hlow, hhigh⟩ := range x List.mem_cons_self
    have := ih (m := x) (n := m + n - x) hxs fun y hy => ⟨hx y hy, by have := (range y (List.mem_cons_of_mem x hy)).2; omega⟩
    rw [List.length_cons]
    omega

/-- So they are at most 24. -/
theorem Order.LinesOk.length {o : Order} (h : o.LinesOk) : o.lines.length ≤ Config.maxLines := by
  have := length_le_of_ascending (m := 0) (n := Config.maxLines) h.ascending fun x hx => by
    obtain ⟨l, hl, rfl⟩ := List.mem_map.1 hx
    have := h.range l hl
    omega
  simpa using this

theorem le_foldl_max (l : List Nat) (m : Nat) : m ≤ l.foldl max m ∧ ∀ x ∈ l, x ≤ l.foldl max m := by
  induction l generalizing m with
  | nil => exact ⟨le_refl m, nofun⟩
  | cons y ys ih =>
    obtain ⟨hm, hys⟩ := ih (max m y)
    exact ⟨(le_max_left m y).trans hm, List.forall_mem_cons.2 ⟨(le_max_right m y).trans hm, hys⟩⟩

theorem Order.index_le_last (o : Order) : ∀ l ∈ o.lines, l.fields.index ≤ o.lastIndex := fun l hl =>
  (le_foldl_max _ 0).2 _ (List.mem_map.2 ⟨l, hl, rfl⟩)

theorem Order.LinesOk.withLine {o : Order} (h : o.LinesOk) {f : LineFields} (index : f.index = o.lastIndex + 1)
    (room : o.lastIndex < Config.maxLines) : (o.withLine f).LinesOk := by
  refine ⟨?_, fun l hl => ?_⟩
  · simp only [Order.withLine, List.map_append, List.map_cons, List.map_nil, List.pairwise_append]
    refine ⟨h.ascending, List.pairwise_singleton _ _, fun x hx y hy => ?_⟩
    obtain ⟨l, hl, rfl⟩ := List.mem_map.1 hx
    have := o.index_le_last l hl
    rw [List.mem_singleton.1 hy, index]
    omega
  · rcases List.mem_append.1 hl with hl | hl
    · exact h.range l hl
    · rw [List.mem_singleton.1 hl]
      show 1 ≤ f.index ∧ f.index ≤ Config.maxLines
      omega

theorem Order.LinesOk.sublist {o x : Order} (h : o.LinesOk) (lines : x.lines.Sublist o.lines) : x.LinesOk :=
  ⟨h.ascending.sublist (lines.map _), fun l hl => h.range l (lines.subset hl)⟩

theorem Order.LinesOk.withLineState {o : Order} (h : o.LinesOk) (index : Nat) (s : LineState) :
    (o.withLineState index s).LinesOk := by
  refine ⟨?_, fun l hl => ?_⟩
  · have hmap := map_changeFirst (fun l : Line => l.fields.index) (fun l => l.fields.index == index)
      (fun l => { l with state := s }) (fun _ => rfl) o.lines
    exact hmap ▸ h.ascending
  · rcases mem_changeFirst hl with hl | ⟨x, hx, rfl⟩
    · exact h.range l hl
    · exact h.range x (List.mem_of_find?_eq_some hx)

/-! ## The binding -/

/-- The laws of `Part.Bound`, where the records `rs` count as filled places behind those of the write queue. -/
structure Part.Binds (p : Part) (rs : List Record) : Prop where
  distinct : (p.om.orders.map Order.number).Nodup
  bound : ∀ st n, p.om.active.get st = some n ↔ p.hasState n (.opened st)
  closes : p.Closes (p.tj.queue ++ rs.map .filled)
  waits : ∀ r, p.tj.waiting = some r → (Place.filled r).closes? = none
  lines : ∀ o ∈ p.om.orders, o.LinesOk
  owned : ∀ clerk, p.ownedBy clerk ≤ Config.maxClerkOrders

theorem Part.binds_iff (p : Part) : p.Binds [] ↔ p.Bound := by
  constructor
  · intro h
    have hcloses : p.Closes p.tj.queue := by simpa using h.closes
    exact ⟨h.distinct, h.bound, hcloses.once, hcloses.held, fun r n hr hn => by
      obtain ⟨k, o, ho, hon, hok⟩ := hcloses.filled r n hr hn
      exact ⟨o, ho, hon, k, hok⟩, h.waits, fun o ho => ⟨(h.lines o ho).length, (h.lines o ho).ascending, (h.lines o ho).range⟩,
      h.owned⟩
  · intro h
    have hcloses : p.Closes p.tj.queue := ⟨h.once, h.held, fun r n hr hn => by
      obtain ⟨o, ho, hon, k, hok⟩ := h.filled r n hr hn
      exact ⟨k, o, ho, hon, hok⟩⟩
    exact ⟨h.distinct, h.bound, by simpa using hcloses, h.waits, fun o ho => ⟨(h.lines o ho).2.1, (h.lines o ho).2.2⟩, h.owned⟩

/-- A reference names an order that is OPEN, so that no place closes it. -/
theorem Part.Closes.not_mem {p : Part} {queue : List Place} (h : p.Closes queue)
    (distinct : (p.om.orders.map Order.number).Nodup) {n : Nat} {s : OrderState} (state : p.hasState n s)
    (other : ∀ k, s ≠ .closing k .waiting ∧ s ≠ .closing k .queued) : n ∉ closings queue := fun hn => by
  obtain ⟨k, hk⟩ := h.state hn
  rcases hk with hk | hk
  · exact (other k).1 (hasState_unique distinct state hk)
  · exact (other k).2 (hasState_unique distinct state hk)

section
variable {p q : Part} {rs : List Record}

/-! ## Orders that stay in their state -/

/-- The write queue takes or loses places that close no order. -/
theorem Part.Binds.queued (h : p.Binds rs) (orders : q.om.orders = p.om.orders) (active : q.om.active = p.om.active)
    {rs' : List Record} (closes : p.Closes (q.tj.queue ++ rs'.map .filled))
    (waits : ∀ r, q.tj.waiting = some r → (Place.filled r).closes? = none) : q.Binds rs' := by
  have hstate : ∀ n s, q.hasState n s ↔ p.hasState n s := fun n s => by unfold Part.hasState; rw [orders]
  refine ⟨by rw [orders]; exact h.distinct, fun st n => ?_, closes.of_states fun n _ s hs => (hstate n s).2 hs, waits,
    by rw [orders]; exact h.lines, fun clerk => ?_⟩
  · rw [active, hstate]
    exact h.bound st n
  · have := h.owned clerk
    unfold Part.ownedBy at this ⊢
    rwa [orders]

/-- A part whose orders, references and places are those of another. -/
theorem Part.Binds.of_eq (h : p.Binds rs) (om : q.om.orders = p.om.orders) (active : q.om.active = p.om.active)
    (queue : q.tj.queue = p.tj.queue) (waits : q.tj.waiting = p.tj.waiting) : q.Binds rs :=
  h.queued om active (by rw [queue]; exact h.closes) (by rw [waits]; exact h.waits)

theorem ownedBy_updated {n : Nat} {f : Order → Order}
    (orders : q.om.orders = p.om.orders.map (fun o => if o.number = n then f o else o))
    (owner : ∀ o, (f o).owner = o.owner) (counted : ∀ o ∈ p.om.orders, o.number = n → (f o).counted = true → o.counted = true)
    (clerk : Nat) : q.ownedBy clerk ≤ p.ownedBy clerk := by
  unfold Part.ownedBy
  rw [orders, ← List.countP_eq_length_filter, ← List.countP_eq_length_filter, List.countP_map]
  refine List.countP_mono_left fun o ho hc => ?_
  simp only [Function.comp_apply] at hc
  by_cases hn : o.number = n
  · simp only [hn, if_true, Bool.and_eq_true, owner] at hc ⊢
    exact ⟨hc.1, counted o ho hn hc.2⟩
  · rwa [if_neg hn] at hc

/-- An order changed in its lines, total or labels. -/
theorem Part.Binds.updated (h : p.Binds rs) {n : Nat} {f : Order → Order}
    (orders : q.om.orders = p.om.orders.map (fun o => if o.number = n then f o else o))
    (active : q.om.active = p.om.active) (queue : q.tj.queue = p.tj.queue) (waits : q.tj.waiting = p.tj.waiting)
    (number : ∀ o, (f o).number = o.number) (state : ∀ o, (f o).state = o.state) (owner : ∀ o, (f o).owner = o.owner)
    (lines : ∀ o ∈ p.om.orders, o.number = n → o.LinesOk → (f o).LinesOk) : q.Binds rs := by
  have hstate : ∀ n s, q.hasState n s ↔ p.hasState n s := fun _ _ => hasState_kept orders number state
  refine ⟨by rw [numbers_update orders number]; exact h.distinct, fun st n => ?_, ?_, by rw [waits]; exact h.waits,
    fun x hx => ?_, fun clerk => (ownedBy_updated orders owner (fun o _ _ hc => ?_) clerk).trans (h.owned clerk)⟩
  · rw [active, hstate]
    exact h.bound st n
  · rw [queue]
    exact h.closes.of_states fun n _ s hs => (hstate n s).2 hs
  · rcases (mem_orders_update orders).1 hx with ⟨hx, -⟩ | ⟨o, ho, hn, rfl⟩
    · exact h.lines x hx
    · exact lines o ho hn (h.lines o ho)
  · unfold Order.counted at hc ⊢
    rwa [state] at hc

/-! ## Orders that change their state -/

/-- An order leaves OPEN or goes on in CLOSING: no reference names it any more. -/
theorem Part.Binds.restated (h : p.Binds rs) {n : Nat} {s : OrderState} {rs' : List Record}
    (orders : q.om.orders = p.om.orders.map (fun o => if o.number = n then { o with state := s } else o))
    (away : ∀ st, s ≠ .opened st) (active : ∀ st m, q.om.active.get st = some m ↔ p.om.active.get st = some m ∧ m ≠ n)
    (counted : ∀ o ∈ p.om.orders, o.number = n → (s = .parked → o.counted = true))
    (closes : q.Closes (q.tj.queue ++ rs'.map .filled))
    (waits : ∀ r, q.tj.waiting = some r → (Place.filled r).closes? = none) : q.Binds rs' := by
  have hnumber : ∀ o : Order, ({ o with state := s } : Order).number = o.number := fun _ => rfl
  refine ⟨by rw [numbers_update orders hnumber]; exact h.distinct, fun st m => ?_, closes, waits, fun x hx => ?_,
    fun clerk => (ownedBy_updated orders (fun _ => rfl) (fun o ho hn hc => ?_) clerk).trans (h.owned clerk)⟩
  · rw [active]
    by_cases hm : m = n
    · subst hm
      exact ⟨fun ⟨_, hne⟩ => absurd rfl hne, fun hs => absurd (hasState_updated orders (fun _ => rfl) hs).symm (away st)⟩
    · rw [hasState_update orders hnumber hm, h.bound]
      exact ⟨fun he => he.1, fun he => ⟨he, hm⟩⟩
  · rcases (mem_orders_update orders).1 hx with ⟨hx, -⟩ | ⟨o, ho, -, rfl⟩
    · exact h.lines x hx
    · exact ⟨(h.lines o ho).ascending, (h.lines o ho).range⟩
  · cases s with
    | parked => exact counted o ho hn rfl
    | closing k r => cases hc
    | opened st => exact absurd rfl (away st)

/-- The references where the order that changes its state is not OPEN. -/
theorem Part.Binds.unnamed (h : p.Binds rs) {n : Nat} {s : OrderState} (state : p.hasState n s)
    (away : ∀ st, s ≠ .opened st) (active : q.om.active = p.om.active) (st : StationNo) (m : Nat) :
    q.om.active.get st = some m ↔ p.om.active.get st = some m ∧ m ≠ n := by
  rw [active]
  refine ⟨fun hm => ⟨hm, fun e => ?_⟩, fun he => he.1⟩
  subst e
  exact away st (hasState_unique h.distinct state ((h.bound st m).1 hm))

/-- An order leaves the pool. -/
theorem Part.Binds.freed (h : p.Binds rs) {n : Nat} {rs' : List Record} (om : q.om = p.om.without n)
    (unclosed : n ∉ closings (q.tj.queue ++ rs'.map .filled)) (closes : p.Closes (q.tj.queue ++ rs'.map .filled))
    (waits : ∀ r, q.tj.waiting = some r → (Place.filled r).closes? = none) : q.Binds rs' := by
  have horders : q.om.orders = p.om.orders.filter (fun o => o.number ≠ n) := by rw [om, OrderManager.without_orders]
  have hmem : ∀ x, x ∈ q.om.orders ↔ x ∈ p.om.orders ∧ x.number ≠ n := fun x => by
    rw [horders, List.mem_filter, decide_eq_true_eq]
  have hstate : ∀ m s, q.hasState m s ↔ p.hasState m s ∧ m ≠ n := fun m s => by
    constructor
    · rintro ⟨x, hx, rfl, hs⟩
      obtain ⟨hx, hne⟩ := (hmem x).1 hx
      exact ⟨⟨x, hx, rfl, hs⟩, hne⟩
    · rintro ⟨⟨x, hx, rfl, hs⟩, hne⟩
      exact ⟨x, (hmem x).2 ⟨hx, hne⟩, rfl, hs⟩
  have hsub : q.om.orders.Sublist p.om.orders := horders ▸ List.filter_sublist
  refine ⟨h.distinct.sublist (hsub.map _), fun st m => ?_, closes.of_states fun m hm s hs => (hstate m s).2 ⟨hs, ?_⟩, waits,
    fun o ho => h.lines o (hsub.subset ho), fun clerk => ?_⟩
  · rw [om, OrderManager.without_active, h.bound, hstate]
  · exact fun e => unclosed (e ▸ hm)
  · exact (hsub.filter _).length_le.trans (h.owned clerk)

/-! ## The queue -/

/-- Where the close of an order waits, no place closes it but its held one. -/
theorem Part.Closes.dropped {n : Nat} {kind : CloseKind} {queue : List Place}
    (h : p.Closes (queue ++ rs.map .filled)) (distinct : (p.om.orders.map Order.number).Nodup)
    (state : p.hasState n (.closing kind .waiting)) : n ∉ closings (dropHeld n queue ++ rs.map .filled) := by
  rcases held_split n queue with ⟨before, k, after, hq, hd, -⟩ | ⟨hnone, hd, -⟩ <;> rw [hd]
  · have honce := h.once
    rw [hq] at honce
    have hperm : (closings (before ++ .held n k :: after ++ rs.map .filled)).Perm
        (n :: closings (before ++ after ++ rs.map .filled)) := by
      simp only [closings_append, List.append_assoc]
      show (closings before ++ n :: (closings after ++ _)).Perm _
      exact List.perm_middle
    exact (List.nodup_cons.1 (hperm.nodup_iff.1 honce)).1
  · intro hn
    obtain ⟨x, hx, hxn⟩ := List.mem_filterMap.1 hn
    cases x with
    | held m k =>
      cases hxn
      rcases List.mem_append.1 hx with hx | hx
      · exact hnone k hx
      · obtain ⟨r, -, hr⟩ := List.mem_map.1 hx
        cases hr
    | filled r =>
      obtain ⟨k, hk⟩ := h.filled r n hx hxn
      cases hasState_unique distinct state hk

/-- Records that close no order join the write queue. -/
theorem Part.Closes.joined {queue : List Place} (h : p.Closes (queue ++ rs.map .filled)) {new : List Record}
    (plain : ∀ r ∈ new, (Place.filled r).closes? = none) : p.Closes (queue ++ new.map .filled ++ rs.map .filled) := by
  refine (h.append_plain plain).perm ?_
  rw [List.append_assoc, List.append_assoc]
  exact List.perm_append_comm.append_left queue

/-- A record that waited and one that waits still, where the waiting one closes no order. -/
theorem plain_of_waiting {new : List Record} {before after : Option Record} (h : new ++ after.toList = before.toList)
    (plain : ∀ r, before = some r → (Place.filled r).closes? = none) :
    (∀ r ∈ new, (Place.filled r).closes? = none) ∧ ∀ r, after = some r → (Place.filled r).closes? = none := by
  have hmem : ∀ r, r ∈ new ++ after.toList → (Place.filled r).closes? = none := fun r hr => by
    rw [h] at hr
    exact plain r (Option.mem_toList.1 hr)
  exact ⟨fun r hr => hmem r (List.mem_append_left _ hr), fun r hr => hmem r (List.mem_append_right _ (by simp [hr]))⟩

theorem closings_joined {queue : List Place} {new : List Record} (plain : ∀ r ∈ new, (Place.filled r).closes? = none) :
    closings (queue ++ new.map .filled ++ rs.map .filled) = closings (queue ++ rs.map .filled) := by
  have hnone : closings (new.map .filled) = [] := List.filterMap_eq_nil_iff.2 fun x hx => by
    obtain ⟨r, hr, rfl⟩ := List.mem_map.1 hx
    exact plain r hr
  simp [hnone]

/-! ## A close that is judged -/

/-- The close of an order whose held place is given back. -/
theorem Part.Binds.given_back (h : p.Binds rs) {n : Nat} {kind : CloseKind} (state : p.hasState n (.closing kind .waiting))
    {new : List Record} (queue : q.tj.queue = dropHeld n p.tj.queue ++ new.map .filled)
    (waits : new ++ q.tj.waiting.toList = p.tj.waiting.toList) :
    n ∉ closings (q.tj.queue ++ rs.map .filled) ∧ p.Closes (q.tj.queue ++ rs.map .filled)
      ∧ ∀ r, q.tj.waiting = some r → (Place.filled r).closes? = none := by
  obtain ⟨hnew, hwaits⟩ := plain_of_waiting waits h.waits
  rw [queue]
  refine ⟨?_, ?_, hwaits⟩
  · rw [closings_joined hnew]
    exact h.closes.dropped h.distinct state
  · exact (h.closes.sublist ((dropHeld_sublist n p.tj.queue).append_right _)).joined hnew

theorem Part.Closes.restated {queue : List Place} (h : p.Closes queue) {n : Nat} {s : OrderState}
    (orders : q.om.orders = p.om.orders.map (fun o => if o.number = n then { o with state := s } else o))
    (unclosed : n ∉ closings queue) : q.Closes queue :=
  h.of_states fun m hm s' hs => (hasState_update (f := fun o => { o with state := s }) orders (fun _ => rfl)
    fun e => unclosed (by rw [← e]; exact hm)).2 hs

/-- The held place of a close takes its record. -/
theorem Part.Closes.filled_held {n : Nat} {kind : CloseKind} {r : Record} {queue : List Place}
    (h : p.Closes (queue ++ rs.map .filled)) (distinct : (p.om.orders.map Order.number).Nodup)
    (state : p.hasState n (.closing kind .waiting)) (record : (Place.filled r).closes? = some n)
    (orders : q.om.orders
      = p.om.orders.map (fun o => if o.number = n then { o with state := .closing kind .queued } else o)) :
    q.Closes (fillHeld n r queue ++ rs.map .filled) := by
  have hunclosed := h.dropped distinct state
  rcases held_split n queue with ⟨before, k, after, hq, hd, hf⟩ | ⟨-, hd, hf⟩ <;> rw [hd] at hunclosed <;> rw [hf]
  · have hrest : q.Closes (before ++ after ++ rs.map .filled) := by
      refine (h.sublist ?_).restated orders hunclosed
      rw [hq]
      exact ((List.sublist_cons_self _ _).append_left before).append_right _
    have hqueued : q.hasState n (.closing kind .queued) := by
      obtain ⟨o, ho, hon, -⟩ := state
      exact ⟨_, (mem_orders_update (f := fun o => { o with state := .closing kind .queued }) orders).2
        (.inr ⟨o, ho, hon, rfl⟩), hon, rfl⟩
    have hperm : (before ++ Place.filled r :: after ++ rs.map Place.filled).Perm
        (Place.filled r :: (before ++ after ++ rs.map Place.filled)) := by
      rw [List.append_assoc, List.append_assoc]
      exact List.perm_middle
    refine Part.Closes.perm ⟨?_, fun m k' hm => ?_, fun r' m hm hr' => ?_⟩ hperm
    · have hcons : closings (Place.filled r :: (before ++ after ++ rs.map Place.filled))
          = n :: closings (before ++ after ++ rs.map .filled) := by
        unfold closings
        rw [List.filterMap_cons_some record]
      rw [hcons]
      exact List.nodup_cons.2 ⟨hunclosed, hrest.once⟩
    · exact hrest.held m k' ((List.mem_cons.1 hm).resolve_left nofun)
    · rcases List.mem_cons.1 hm with he | hm
      · cases he
        rw [record] at hr'
        cases hr'
        exact ⟨kind, hqueued⟩
      · exact hrest.filled r' m hm hr'
  · exact h.restated orders hunclosed

theorem closingRecord_closes (p : Part) (o : Order) (k : CloseKind) :
    (Place.filled (p.closingRecord o k)).closes? = some o.number := by cases k <;> rfl

theorem Part.setClosing_orders (n : Nat) (k : CloseKind) (r : ClosingRecord) : (p.setClosing n k r).om.orders
    = p.om.orders.map (fun o => if o.number = n then { o with state := .closing k r } else o) := Part.updateOrder_orders _ _ _

theorem Part.Binds.settleClosing (h : p.Binds rs) (n : Nat) : (p.settleClosing n).Binds rs := by
  rcases p.settleClosing_cases n with e | ⟨o, kind, ho, hstate, -, ⟨-, e⟩ | ⟨-, e⟩⟩ <;> rw [e]
  · exact h
  · obtain rfl := Part.order_number ho
    obtain ⟨new, hqueue, hwaits⟩ := p.endEmptyClose_places o
    obtain ⟨hunclosed, hcloses, hplain⟩ := h.given_back ⟨o, order_mem ho, rfl, hstate⟩ hqueue hwaits
    exact h.freed (p.endEmptyClose_without o) hunclosed hcloses hplain
  · obtain rfl := Part.order_number ho
    have hwaiting : p.hasState o.number (.closing kind .waiting) := ⟨o, order_mem ho, rfl, hstate⟩
    have hactive : (p.formClosing o kind).om.active = p.om.active := by rw [p.formClosing_om]; rfl
    have hnamed := h.unnamed hwaiting nofun hactive
    cases hfault : p.tj.fault with
    | true =>
      obtain ⟨new, hom, hqueue, hwaits⟩ := p.formClosing_fault hfault o kind
      obtain ⟨hunclosed, hcloses, hplain⟩ := h.given_back hwaiting hqueue hwaits
      have horders := (congrArg OrderManager.orders hom).trans (Part.setClosing_orders _ _ _)
      exact h.restated horders nofun hnamed (fun _ _ _ => nofun) (hcloses.restated horders hunclosed) hplain
    | false =>
      obtain ⟨r, hom, hqueue, hwaits, hr⟩ := p.formClosing_queued hfault o kind
      have horders := (congrArg OrderManager.orders hom).trans (Part.setClosing_orders _ _ _)
      refine h.restated horders nofun hnamed (fun _ _ _ => nofun) ?_ (by rw [hwaits]; exact h.waits)
      rw [hqueue]
      exact h.closes.filled_held h.distinct hwaiting (hr ▸ closingRecord_closes p o kind) horders

end

end Sys2Proof.Machine
end


-- ==== Sys2Proof/Proofs/OrdersBoundMoves.lean ====
section
/-! The binding of orders at every move, at the entry into FAULT and at the end of the start-up scan (O54). -/

namespace Sys2Proof.Machine

section
variable {p q : Part} {rs : List Record}

/-! ## Records that fail (R101, R111, R151) -/

theorem Part.Binds.lineLost (h : p.Binds rs) (n : Nat) (f : LineFields) : (p.lineLost n f).Binds rs := by
  obtain ⟨hom, htj, -⟩ := p.lineLost_parts n f
  refine h.updated (n := n) (f := fun o => o.withoutLine f) ?_ ?_ (by rw [htj]) (by rw [htj]) (fun _ => rfl) (fun _ => rfl)
    (fun _ => rfl) fun o _ _ ho => ho.sublist (sublist_removeFirst _ _)
  · rw [hom, Part.updateOrder_orders]
  · rw [hom]
    rfl

/-- A record that fails counts as a place no longer. -/
theorem Part.Binds.reported {r : Record} (h : p.Binds (r :: rs)) : p.Binds rs :=
  h.queued rfl rfl (h.closes.sublist ((List.sublist_cons_self _ _).append_left _)) h.waits

theorem Part.Binds.closingFailed {r : Record} {n : Nat} (h : p.Binds (r :: rs)) (record : (Place.filled r).closes? = some n)
    (k : CloseKind) : (p.closingFailed n k).Binds rs := by
  obtain ⟨k', hqueued⟩ := h.closes.filled r n (List.mem_append_right _ List.mem_cons_self) record
  have hunclosed : n ∉ closings (p.tj.queue ++ rs.map .filled) := by
    have honce := h.closes.once
    have hsplit : closings (p.tj.queue ++ (r :: rs).map .filled) = closings p.tj.queue ++ n :: closings (rs.map .filled) := by
      rw [closings_append]
      congr 1
      unfold closings
      rw [List.map_cons, List.filterMap_cons_some record]
    rw [hsplit, List.perm_middle.nodup_iff, List.nodup_cons] at honce
    rw [closings_append]
    exact honce.1
  unfold Part.closingFailed
  split
  · exact h.reported
  · rename_i o ho
    obtain rfl := Part.order_number ho
    obtain ⟨hom, htj, -⟩ := p.failClosing_om o k
    have horders := (congrArg OrderManager.orders hom).trans (Part.setClosing_orders _ _ _)
    refine h.restated horders nofun (h.unnamed hqueued nofun (by rw [hom]; rfl)) (fun _ _ _ => nofun) ?_
      (by rw [htj]; exact h.waits)
    rw [htj]
    exact h.reported.closes.restated horders hunclosed

theorem Part.Binds.recordFailed {r : Record} (h : p.Binds (r :: rs)) : (p.recordFailed r).Binds rs := by
  cases r with
  | line n owner f => exact (h.reported.lineLost n f).settleClosing n
  | close n => exact h.closingFailed rfl .sale
  | voidOrder n => exact h.closingFailed rfl .void
  | priceApply =>
    simp only [Part.recordFailed, Part.failApply]
    split <;> exact h.reported.of_eq rfl rfl rfl rfl
  | priceStored =>
    simp only [Part.recordFailed, Part.failStore]
    split <;> exact h.reported.of_eq rfl rfl rfl rfl
  | _ => exact h.reported.of_eq rfl rfl rfl rfl

theorem Part.Binds.recordsFailed (h : p.Binds rs) : (rs.foldl Part.recordFailed p).Binds [] := by
  induction rs generalizing p with
  | nil => exact h
  | cons r rs ih => exact ih h.recordFailed

/-- The places of the write queue in another order: the held ones, and the filled ones as their records. -/
theorem perm_held_filled (queue : List Place) :
    (queue.filter Place.isHeld ++ (filledRecords queue).map Place.filled).Perm queue := by
  induction queue with
  | nil => exact .refl _
  | cons x xs ih =>
    cases x with
    | held n k => exact ih.cons _
    | filled r => exact List.perm_middle.trans (ih.cons _)

/-- The part in FAULT before a record has been reported as failed (R151). -/
def Part.faulting (p : Part) : Part := { p with tj := { p.tj with
  fault := true, append := none, queue := p.tj.queue.filter Place.isHeld, waiting := none } }

/-- The records that the entry into FAULT reports as failed (R151). -/
def Part.failingRecords (p : Part) : List Record := filledRecords p.tj.queue ++ p.tj.waiting.toList

theorem Part.enterFault_eq (p : Part) :
    p.enterFault = (p.failingRecords.foldl Part.recordFailed p.faulting).latchStore .journal := rfl

theorem Part.Binds.faulting {p : Part} (h : p.Binds []) : p.faulting.Binds p.failingRecords := by
  have hcloses : p.Closes p.tj.queue := by simpa using h.closes
  have hplain : ∀ r ∈ p.tj.waiting.toList, (Place.filled r).closes? = none := fun r hr => h.waits r (Option.mem_toList.1 hr)
  refine h.queued (q := p.faulting) rfl rfl ?_ fun r hr => ?_
  · refine ((hcloses.perm (perm_held_filled p.tj.queue)).append_plain hplain).perm ?_
    rw [Part.failingRecords, List.map_append, List.append_assoc]
    exact .refl _
  · cases hr

/-- A law that counts the records that have not been reported yet, kept at the entry into FAULT. -/
theorem enterFault_reports {P : Part → List Record → Prop} {p : Part} (h : p.Binds []) (start : P p.faulting p.failingRecords)
    (failed : ∀ (q : Part) (r : Record) (rs : List Record), q.Binds (r :: rs) → q.Faulted → P q (r :: rs) →
      P (q.recordFailed r) rs)
    (latched : ∀ q : Part, P q [] → P (q.latchStore .journal) []) : P p.enterFault [] := by
  have hfold : ∀ (rs : List Record) (q : Part), q.Binds rs → q.Faulted → P q rs → P (rs.foldl Part.recordFailed q) [] := by
    intro rs
    induction rs with
    | nil => exact fun _ _ _ hp => hp
    | cons r rs ih => exact fun q hq hf hp => ih _ hq.recordFailed (hf.recordFailed r) (failed q r rs hq hf hp)
  rw [p.enterFault_eq]
  exact latched _ (hfold _ _ h.faulting ⟨rfl, fun _ hx => (List.mem_filter.1 hx).2, rfl⟩ start)

theorem Part.Binds.enterFault (h : p.Binds []) : p.enterFault.Binds [] := by
  rw [p.enterFault_eq]
  exact h.faulting.recordsFailed.of_eq rfl rfl rfl rfl

/-! ## Records that are written -/

/-- A written record leaves its place: the order that it closes is closed by none. -/
theorem Part.Binds.finishAppend (h : p.Binds []) {r : Record} (first : firstRecord p.tj.queue = some r) :
    (p.finishAppend r).Binds [] ∧ ∀ n, (Place.filled r).closes? = some n →
      n ∉ closings (p.finishAppend r).tj.queue := by
  obtain ⟨new, hqueue, hwaits⟩ := p.finishAppend_places r
  obtain ⟨hnew, hplain⟩ := plain_of_waiting hwaits h.waits
  have hcloses : p.Closes p.tj.queue := by simpa using h.closes
  refine ⟨h.queued (by simp) (by simp) ?_ hplain, fun n hn => ?_⟩
  · rw [hqueue, List.map_nil, List.append_nil]
    exact (hcloses.sublist (dropFirstRecord_sublist _)).append_plain hnew
  · obtain ⟨before, after, hq, hd, -⟩ := firstRecord_split first
    have honce := hcloses.once
    rw [hq, closings_append, show closings (.filled r :: after) = n :: closings after from List.filterMap_cons_some hn,
      List.perm_middle.nodup_iff, List.nodup_cons] at honce
    have hjoined := closings_joined (rs := []) (queue := before ++ after) hnew
    simp only [List.map_nil, List.append_nil] at hjoined
    rw [hqueue, hd, hjoined, closings_append]
    exact honce.1

/-- A closing record that is written: its order leaves the pool. -/
theorem Part.Binds.closed (h : p.Binds []) {r : Record} {n : Nat} (first : firstRecord p.tj.queue = some r)
    (record : (Place.filled r).closes? = some n) (htj : q.tj = (p.finishAppend r).tj)
    (written : q = p.finishAppend r ∨ q.om = (p.finishAppend r).om.without n) : q.Binds [] := by
  obtain ⟨hfinished, hunclosed⟩ := h.finishAppend first
  rcases written with e | hom
  · rw [e]
    exact hfinished
  · refine hfinished.freed hom ?_ ?_ (by rw [htj]; exact hfinished.waits) <;> rw [htj]
    · rw [List.map_nil, List.append_nil]
      exact hunclosed n record
    · exact hfinished.closes

/-! ## Requests -/

/-- A record that closes no order takes a place or waits. -/
theorem Part.Binds.queueOrWait (h : p.Binds []) {r : Record} (plain : (Place.filled r).closes? = none) :
    (p.queueOrWait r).Binds [] := by
  rcases p.queueOrWait_places r with ⟨hqueue, hwaits, hnone⟩ | ⟨hqueue, hwaits⟩
  · refine h.queued (by simp) (by simp) ?_ (by rw [hnone]; exact nofun)
    have hjoined := h.closes.append_plain (rs := [r]) fun x hx => List.mem_singleton.1 hx ▸ plain
    simpa [hqueue] using hjoined
  · refine h.queued (by simp) (by simp) (by rw [hqueue]; exact h.closes) fun x hx => ?_
    rw [hwaits] at hx
    cases hx
    exact plain

theorem Part.Binds.queueRecord (h : p.Binds []) {r : Record} (plain : (Place.filled r).closes? = none) :
    (p.queueRecord r).Binds [] := by
  refine h.queued (by simp) (by simp) ?_ (by simpa using h.waits)
  have hjoined := h.closes.append_plain (rs := [r]) fun x hx => List.mem_singleton.1 hx ▸ plain
  simpa using hjoined

theorem Record.closes?_of_plain {r : Record} (h : r.plain = true) : (Place.filled r).closes? = none := by
  cases r with
  | close => cases h
  | voidOrder => cases h
  | _ => rfl

/-- An order that a request can take out of OPEN or PARKED is in one of them. -/
theorem Part.Binds.standing (h : p.Binds rs) {o : Order} (order : p.order o.number = some o) (standing : p.standing o) :
    ∃ s, p.hasState o.number s ∧ o.counted = true ∧ ∀ k r, s ≠ .closing k r := by
  rcases standing with ⟨st, hst⟩ | hparked
  · have hopened := (h.bound st o.number).1 hst
    obtain ⟨x, hx, hxn, hxs⟩ := hopened
    obtain rfl := order_eq_of_mem h.distinct hx (order_mem order) hxn
    exact ⟨.opened st, (h.bound st x.number).1 hst, by rw [Order.counted, hxs], fun _ _ => nofun⟩
  · exact ⟨.parked, ⟨o, order_mem order, rfl, hparked⟩, by rw [Order.counted, hparked], fun _ _ => nofun⟩

theorem Part.Binds.unclosed (h : p.Binds rs) {n : Nat} {s : OrderState} (state : p.hasState n s)
    (away : ∀ k r, s ≠ .closing k r) : n ∉ closings (p.tj.queue ++ rs.map .filled) :=
  h.closes.not_mem h.distinct state fun k => ⟨away k _, away k _⟩

theorem Part.unbind_get (n : Nat) (st : StationNo) (m : Nat) :
    (p.unbind n).om.active.get st = some m ↔ p.om.active.get st = some m ∧ m ≠ n :=
  OrderManager.without_active p.om n st m

theorem Part.Binds.closingBegun (h : p.Binds []) {o : Order} (kind : CloseKind) (order : p.order o.number = some o)
    (standing : p.standing o) :
    (((p.setClosing o.number kind .waiting).unbind o.number).takePlace (.held o.number kind)).Binds [] := by
  obtain ⟨s, hstate, -, haway⟩ := h.standing order standing
  have hunclosed := h.unclosed hstate haway
  generalize hq : ((p.setClosing o.number kind .waiting).unbind o.number).takePlace (.held o.number kind) = q
  have horders : q.om.orders
      = p.om.orders.map (fun x => if x.number = o.number then { x with state := .closing kind .waiting } else x) := by
    rw [← hq]
    exact Part.setClosing_orders _ _ _
  have hactive : ∀ st m, q.om.active.get st = some m ↔ p.om.active.get st = some m ∧ m ≠ o.number := by
    rw [← hq]
    exact OrderManager.without_active p.om o.number
  have hqueue : q.tj.queue = p.tj.queue ++ [.held o.number kind] := by rw [← hq]; rfl
  refine h.restated horders nofun hactive (fun _ _ _ => nofun) ?_ (by rw [← hq]; exact h.waits)
  have hrest : q.Closes p.tj.queue := by simpa using h.closes.restated horders hunclosed
  have hwaiting : q.hasState o.number (.closing kind .waiting) :=
    ⟨_, (mem_orders_update (f := fun x => { x with state := .closing kind .waiting }) horders).2
      (.inr ⟨o, order_mem order, rfl, rfl⟩), rfl, rfl⟩
  rw [List.map_nil, List.append_nil] at hunclosed ⊢
  rw [hqueue]
  refine ⟨?_, fun m k hm => ?_, fun r m hm hr => ?_⟩
  · rw [closings_append, show closings [.held o.number kind] = [o.number] from rfl]
    exact (List.perm_append_singleton _ _).nodup_iff.2 (List.nodup_cons.2 ⟨hunclosed, hrest.once⟩)
  · rcases List.mem_append.1 hm with hm | hm
    · exact hrest.held m k hm
    · cases List.mem_singleton.1 hm
      exact hwaiting
  · rcases List.mem_append.1 hm with hm | hm
    · exact hrest.filled r m hm hr
    · cases List.mem_singleton.1 hm

theorem Part.Binds.parked (h : p.Binds []) {st : StationNo} {o : Order} (active : p.activeOrder st = some o) :
    ((p.updateOrder o.number (fun x => { x with state := .parked })).unbind o.number).Binds [] := by
  obtain ⟨hst, order⟩ := Part.activeOrder_some active
  obtain ⟨s, hstate, hcounted, haway⟩ := h.standing order (.inl ⟨st, hst⟩)
  have horders := Part.updateOrder_orders p o.number (fun x => { x with state := .parked })
  refine h.restated horders nofun (Part.unbind_get (p := p) o.number) (fun x hx hn _ => ?_)
    (h.closes.restated horders (h.unclosed hstate haway)) h.waits
  rw [order_eq_of_mem h.distinct hx (order_mem order) hn]
  exact hcounted

/-- An order that becomes OPEN at a station without an active order. -/
theorem Part.Binds.resumed (h : p.Binds []) {st : StationNo} {n : Nat} {o : Order} (free : p.om.active.get st = none)
    (order : p.order n = some o) (parked : o.state = .parked) : Part.Binds { p with om := { p.om with
      pool := updatePool n (fun x => some { x with state := .opened st }) p.om.pool
      active := p.om.active.set st (some n) } } [] := by
  obtain rfl := Part.order_number order
  have hparked : p.hasState o.number .parked := ⟨o, order_mem order, rfl, parked⟩
  have hnumber : ∀ x : Order, ({ x with state := .opened st } : Order).number = x.number := fun _ => rfl
  generalize hq : ({ p with om := { p.om with
      pool := updatePool o.number (fun x => some { x with state := .opened st }) p.om.pool
      active := p.om.active.set st (some o.number) } } : Part) = q
  have htj : q.tj = p.tj := by rw [← hq]
  have hactive : q.om.active = p.om.active.set st (some o.number) := by rw [← hq]
  have horders : q.om.orders
      = p.om.orders.map (fun x => if x.number = o.number then { x with state := .opened st } else x) := by
    rw [← hq]
    exact filterMap_updatePool_some o.number (fun x => { x with state := .opened st }) p.om.pool
  have hopened : q.hasState o.number (.opened st) :=
    ⟨_, (mem_orders_update (f := fun x => { x with state := .opened st }) horders).2
      (.inr ⟨o, order_mem order, rfl, rfl⟩), rfl, rfl⟩
  refine ⟨by rw [numbers_update horders hnumber]; exact h.distinct, fun st' m => ?_, ?_, by rw [htj]; exact h.waits,
    fun x hx => ?_, fun clerk => (ownedBy_updated horders (fun _ => rfl) (fun x hx hn _ => ?_) clerk).trans (h.owned clerk)⟩
  · rw [hactive]
    have hnone : ∀ m, ¬ p.hasState m (.opened st) := fun m hm => by
      rw [← h.bound, free] at hm
      cases hm
    by_cases hm : m = o.number
    · subst hm
      by_cases hst : st' = st
      · subst hst
        simp [hopened]
      · rw [PerStation.get_set_other _ _ hst, h.bound]
        exact ⟨fun hs => absurd (hasState_unique h.distinct hs hparked) nofun,
          fun hs => absurd (OrderState.opened.inj (hasState_updated horders (fun _ => rfl) hs)) hst⟩
    · rw [hasState_update horders hnumber hm]
      by_cases hst : st' = st
      · subst hst
        rw [PerStation.get_set_same]
        exact ⟨fun he => absurd (Option.some.inj he).symm hm, fun hs => absurd hs (hnone m)⟩
      · rw [PerStation.get_set_other _ _ hst]
        exact h.bound st' m
  · rw [htj]
    exact h.closes.restated horders (h.unclosed hparked fun _ _ => nofun)
  · rcases (mem_orders_update horders).1 hx with ⟨hx, -⟩ | ⟨y, hy, -, rfl⟩
    · exact h.lines x hx
    · exact ⟨(h.lines y hy).ascending, (h.lines y hy).range⟩
  · rw [order_eq_of_mem h.distinct hx (order_mem order) hn, Order.counted, parked]

theorem Part.Binds.opened (h : p.Binds []) {st : StationNo} {operator : Nat} (slots : p.om.pool.length = Config.orderSlots)
    (free : p.om.active.get st = none) (slot : p.om.pool.any Option.isNone = true)
    (limit : p.ownedBy operator < Config.maxClerkOrders) : (p.openOrder st operator).Binds [] := by
  have hnew := Part.nextOrder_new slots
  have hom := p.openOrder_om st operator
  have htj : (p.openOrder st operator).tj = p.tj := by simp
  generalize p.openOrder st operator = q at hom htj
  have hactive : q.om.active = p.om.active.set st (some p.nextOrder) := by rw [hom]
  have hperm : q.om.orders.Perm (p.newOrder st operator :: p.om.orders) := by
    rw [hom]
    exact orders_placed slot
  have hstate : ∀ m s, q.hasState m s ↔ (m = p.nextOrder ∧ s = .opened st) ∨ p.hasState m s := fun m s => by
    unfold Part.hasState
    simp only [hperm.mem_iff, List.mem_cons]
    constructor
    · rintro ⟨x, rfl | hx, rfl, rfl⟩
      · exact .inl ⟨rfl, rfl⟩
      · exact .inr ⟨x, hx, rfl, rfl⟩
    · rintro (⟨rfl, rfl⟩ | ⟨x, hx, hn, hs⟩)
      · exact ⟨_, .inl rfl, rfl, rfl⟩
      · exact ⟨x, .inr hx, hn, hs⟩
  refine ⟨(hperm.map Order.number).nodup_iff.2 (List.nodup_cons.2 ⟨fun hm => ?_, h.distinct⟩), fun st' m => ?_, ?_,
    by rw [htj]; exact h.waits, fun x hx => ?_, fun clerk => ?_⟩
  · obtain ⟨x, hx, hn⟩ := List.mem_map.1 hm
    exact hnew x hx hn
  · rw [hactive, hstate]
    by_cases hst : st' = st
    · subst hst
      have hnone : ∀ m, ¬ p.hasState m (.opened st') := fun m hm => by
        rw [← h.bound, free] at hm
        cases hm
      rw [PerStation.get_set_same]
      exact ⟨fun he => .inl ⟨(Option.some.inj he).symm, rfl⟩, fun he => he.elim (fun he => by rw [he.1])
        fun hs => absurd hs (hnone m)⟩
    · rw [PerStation.get_set_other _ _ hst, h.bound]
      exact ⟨.inr, fun he => he.resolve_left fun he => hst (OrderState.opened.inj he.2)⟩
  · rw [htj]
    exact h.closes.of_states fun m _ s hs => (hstate m s).2 (.inr hs)
  · rcases List.mem_cons.1 (hperm.mem_iff.1 hx) with rfl | hx
    · exact ⟨.nil, nofun⟩
    · exact h.lines x hx
  · have howned := h.owned clerk
    unfold Part.ownedBy at howned limit ⊢
    rw [(hperm.filter _).length_eq, List.filter_cons]
    split
    · rename_i hc
      have hclerk : operator = clerk := by
        rw [Bool.and_eq_true, beq_iff_eq] at hc
        exact hc.1
      rw [← hclerk]
      exact limit
    · exact howned

end

/-! ## The moves -/

theorem Part.Binds.reset_nil {p : Part} (orders : p.om.orders = []) (active : ∀ st, p.om.active.get st = none)
    (queue : p.tj.queue = []) (waits : p.tj.waiting = none) : p.Binds [] := by
  refine ⟨by rw [orders]; exact .nil, fun st n => ?_, ?_, by rw [waits]; exact nofun, by rw [orders]; exact nofun, fun clerk => ?_⟩
  · rw [active]
    exact ⟨nofun, fun ⟨o, ho, _⟩ => by rw [orders] at ho; cases ho⟩
  · rw [queue]
    exact ⟨.nil, nofun, nofun⟩
  · unfold Part.ownedBy
    rw [orders]
    exact Nat.zero_le _

theorem binds_move {c : Instr} {k : Nat} {p q : Part} (m : Move c k p q) (hslots : p.om.pool.length = Config.orderSlots)
    (h : p.Binds []) : q.Binds [] := by
  cases m with
  | quiet seen =>
    exact h.of_eq (congrArg (fun x => x.om.orders) seen) (congrArg (fun x => x.om.active) seen) (congrArg Seen.queue seen)
      (congrArg Seen.waits seen)
  | reset => exact Part.Binds.reset_nil rfl (fun st => by cases st <;> rfl) rfl rfl
  | changeApplied base es time => exact (h.queueOrWait (r := p.applyRecord es) rfl).of_eq rfl rfl rfl rfl
  | orderOpened st operator trading free slot limit => exact h.opened hslots free slot limit
  | lineAdded st o f a command trading active room index =>
    obtain ⟨hqueue, hwaits⟩ := p.addLine_queue o f a
    have hom := p.addLine_om o f a
    have hqueued := h.queueRecord (r := .line o.number o.owner f) rfl
    refine hqueued.updated (n := o.number) (f := fun x => x.withLine f) ?_ ?_ hqueue hwaits (fun _ => rfl)
      (fun _ => rfl) (fun _ => rfl) fun x hx hn hl => ?_
    · rw [hom, Part.updateOrder_orders]
      simp
    · rw [hom]
      simp [Part.updateOrder]
    · have hmem : x ∈ p.om.orders := by simpa using hx
      obtain rfl := order_eq_of_mem h.distinct hmem (order_mem (Part.activeOrder_some active).2) hn
      refine hl.withLine index (room.elim id ?_)
      rintro ⟨y, hy, hyn, hlines⟩
      obtain rfl := order_eq_of_mem h.distinct hy hmem hyn
      rw [Order.lastIndex, hlines]
      decide
  | orderParked st o active => exact h.parked active
  | orderResumed st n o free order parked => exact h.resumed free order parked
  | orderFreed o order standing =>
    obtain ⟨s, hstate, -, haway⟩ := h.standing order standing
    have htj : ((p.freeOrder o.number).endNoSale o.ticket).tj = p.tj := by simp
    refine h.freed (n := o.number) ?_ ?_ ?_ (by rw [htj]; exact h.waits)
    · rw [(Part.endNoSale_frame _ _).2.2.2.2.2.2.1, Part.freeOrder_om]
    · rw [htj]
      exact h.unclosed hstate haway
    · rw [htj]
      exact h.closes
  | totalLabelled st o command running active mode =>
    have hom := p.makeTotalLabel_updates st o mode
    exact h.updated (n := o.number) (f := fun x => { x with totalLabel := some p.lu.nextLabel })
      (by rw [hom, Part.updateOrder_orders]) (by rw [hom]; rfl) (by simp) (by simp)
      (fun _ => rfl) (fun _ => rfl) (fun _ => rfl) fun _ _ _ hl => ⟨hl.ascending, hl.range⟩
  | closingBegun o kind order standing => exact h.closingBegun kind order standing
  | closingSettled n => exact h.settleClosing n
  | lineVoided st o index f active line =>
    exact h.updated (Part.updateOrder_orders _ _ _) rfl rfl rfl (fun _ => rfl) (fun _ => rfl) (fun _ => rfl)
      fun _ _ _ hl => ⟨(hl.withLineState index .voided).ascending, (hl.withLineState index .voided).range⟩
  | recordQueued r plain => exact h.queueRecord (Record.closes?_of_plain plain)
  | storedQueued g => exact (h.queueOrWait (r := .priceStored g) rfl).of_eq rfl rfl rfl rfl
  | dayCloseBegun d => exact (h.queueRecord (r := .dayClose d) rfl).of_eq rfl rfl rfl rfl
  | lineWritten n owner f first =>
    exact (h.finishAppend first).1.updated (Part.updateOrder_orders _ _ _) rfl rfl rfl (fun _ => rfl) (fun _ => rfl)
      (fun _ => rfl) fun _ _ _ hl => hl.withLineState _ _
  | closeWritten n owner ticket count total label wait first =>
    exact h.closed first rfl (by simp) (((p.finishAppend _).closeWritten_om n owner total label).imp And.right id)
  | voidWritten n owner ticket value first =>
    exact h.closed first rfl (by simp) (((p.finishAppend _).voidOrderWritten_om n owner value).imp And.right id)
  | plainWritten r plain first => exact (h.finishAppend first).1
  | switched g es time command first => exact (h.finishAppend first).1.of_eq (by simp) (by simp) (by simp) (by simp)
  | faultEntered => exact h.enterFault
  | _ => exact h.of_eq (by simp) (by simp) (by simp) (by simp)

theorem bound_move {c : Instr} {k : Nat} {p q : Part} (m : Move c k p q) (hinv : p.Inv) (h : p.Bound) : q.Bound :=
  q.binds_iff.1 (binds_move m hinv.fits.slots (p.binds_iff.2 h))

theorem bound_endScan {p : Part} {x : List Nat} (h : p.Bound) : (p.endScan x).Bound :=
  (Part.binds_iff _).1 ((p.binds_iff.2 h).of_eq (by simp [OrderManager.orders]) (by simp) (by simp) (by simp))

/-- The laws with the binding of orders, which every step keeps together. -/
structure Part.Bounded (p : Part) : Prop where
  inv : p.Inv
  bound : p.Bound

theorem Part.Inv.endScan {p : Part} {x : List Nat} (h : p.Inv) : (p.endScan x).Inv :=
  (Part.blocks_iff _).1 (blocks_endScan (p.blocks_iff.2 h))

/-- Settles O54: the records that FAULT has not reported yet count as places, so that each report keeps the binding. -/
theorem stepKeepsOrdersBound : Obligations.StepKeepsOrdersBound := fun _ _ hinv hbound h =>
  (step_keeps (P := Part.Bounded) h ⟨hinv, hbound⟩ (fun m hp => ⟨inv_move m hp.inv, bound_move m hp.inv hp.bound⟩)
    fun _ hp => ⟨hp.inv.endScan, bound_endScan hp.bound⟩).bound

end Sys2Proof.Machine
end


-- ==== Sys2Proof/Proofs/TicketsDistinct.lean ====
section
/-! The numbers of the live tickets at every move, and each SERVING ticket bound to one order (R115, R119 to R123). A number is
counted over the four lists that hold live tickets: a move that takes a ticket from one list to another leaves its count. -/

namespace Sys2Proof.Machine

/-! ## Counting the live tickets -/

/-- The numbers of the tickets that are CALLED. -/
def calledNumbers (v : PerStation (Option CalledTicket)) : List Nat :=
  v.toList.filterMap (fun c => c.map (fun x => x.ticket.number))

/-- How many live tickets hold a number. -/
def TicketController.holders (t : TicketController) (n : Nat) : Nat := t.live.count n

theorem TicketController.holders_eq (t : TicketController) (n : Nat) : t.holders n = (t.waiting.map Ticket.number).count n
    + (calledNumbers t.called).count n + (t.missed.map (fun m => m.ticket.number)).count n
    + (t.serving.map (fun x => x.ticket.number)).count n := by
  simp only [TicketController.holders, TicketController.live, List.count_append]
  rfl

/-- No number has more holders than before. -/
def HoldersKept (s t : TicketController) : Prop := ∀ n, t.holders n ≤ s.holders n

theorem HoldersKept.refl (s : TicketController) : HoldersKept s s := fun _ => le_refl _

theorem HoldersKept.trans {s t u : TicketController} (h : HoldersKept s t) (k : HoldersKept t u) : HoldersKept s u :=
  fun n => (k n).trans (h n)

theorem HoldersKept.of_same {s t : TicketController} (same : TicketsSame s t) (serving : t.serving.Sublist s.serving) :
    HoldersKept s t := fun n => by
  rw [TicketController.holders_eq, TicketController.holders_eq, same.waiting, same.called, same.missed]
  have := (serving.map (fun x => x.ticket.number)).count_le n
  omega

/-- The stations in their order, with one of them put apart. -/
theorem PerStation.toList_split {α : Type} (v : PerStation α) (st : StationNo) : ∃ before after,
    v.toList = before ++ v.get st :: after ∧ ∀ x, (v.set st x).toList = before ++ x :: after := by
  cases st with
  | s1 => exact ⟨[], [v.s2, v.s3, v.s4, v.s5, v.s6, v.s7, v.s8], rfl, fun _ => rfl⟩
  | s2 => exact ⟨[v.s1], [v.s3, v.s4, v.s5, v.s6, v.s7, v.s8], rfl, fun _ => rfl⟩
  | s3 => exact ⟨[v.s1, v.s2], [v.s4, v.s5, v.s6, v.s7, v.s8], rfl, fun _ => rfl⟩
  | s4 => exact ⟨[v.s1, v.s2, v.s3], [v.s5, v.s6, v.s7, v.s8], rfl, fun _ => rfl⟩
  | s5 => exact ⟨[v.s1, v.s2, v.s3, v.s4], [v.s6, v.s7, v.s8], rfl, fun _ => rfl⟩
  | s6 => exact ⟨[v.s1, v.s2, v.s3, v.s4, v.s5], [v.s7, v.s8], rfl, fun _ => rfl⟩
  | s7 => exact ⟨[v.s1, v.s2, v.s3, v.s4, v.s5, v.s6], [v.s8], rfl, fun _ => rfl⟩
  | s8 => exact ⟨[v.s1, v.s2, v.s3, v.s4, v.s5, v.s6, v.s7], [], rfl, fun _ => rfl⟩

theorem count_calledNumbers (v : PerStation (Option CalledTicket)) (st : StationNo) (n : Nat) (x : Option CalledTicket) :
    (calledNumbers (v.set st x)).count n + (((v.get st).map (fun c => c.ticket.number)).toList.count n)
      = (calledNumbers v).count n + ((x.map (fun c => c.ticket.number)).toList.count n) := by
  obtain ⟨before, after, hv, hset⟩ := v.toList_split st
  have hsplit : ∀ y : Option CalledTicket, ((before ++ y :: after).filterMap (fun c => c.map (fun x => x.ticket.number))).count n
      = (before.filterMap (fun c => c.map (fun x => x.ticket.number))).count n
        + (y.map (fun c => c.ticket.number)).toList.count n
        + (after.filterMap (fun c => c.map (fun x => x.ticket.number))).count n := fun y => by
    cases y with
    | none => simp
    | some c => simp [List.count_cons]; omega
  unfold calledNumbers
  rw [hset, hv, hsplit, hsplit]
  omega

/-- The CALLED ticket of a station becomes MISSED: it holds its number still, and the one that leaves the full list does not. -/
theorem Part.missCalled_holders (p : Part) (st : StationNo) : HoldersKept p.tc (p.missCalled st).tc
    ∧ (p.missCalled st).tc.called.get st = none := by
  unfold Part.missCalled
  split
  · rename_i h
    exact ⟨.refl _, h⟩
  · rename_i c h
    refine ⟨fun n => ?_, by simp⟩
    have hcalled := count_calledNumbers p.tc.called st n none
    rw [h] at hcalled
    have hmissed : ((joinMissed p.tc.missed ⟨c.ticket, c.callTime, p.now⟩).map (fun m => m.ticket.number)).count n
        ≤ (p.tc.missed.map (fun m => m.ticket.number)).count n + [c.ticket.number].count n := by
      simp only [joinMissed, List.map_append, List.count_append, List.map_cons, List.map_nil]
      have := ((List.drop_sublist (p.tc.missed.length + 1 - Config.maxMissed) p.tc.missed).map
        (fun m => m.ticket.number)).count_le n
      omega
    simp only [TicketController.holders_eq, Option.map_some, Option.map_none, Option.toList_some, Option.toList_none,
      List.count_nil] at hcalled hmissed ⊢
    omega

/-- A station calls a ticket. -/
theorem Part.call_holders (p : Part) (st : StationNo) (t : Ticket) (n : Nat) :
    ((p.missCalled st).callTicket st t).tc.holders n ≤ p.tc.holders n + [t.number].count n := by
  obtain ⟨hkept, hnone⟩ := p.missCalled_holders st
  refine le_trans ?_ (Nat.add_le_add_right (hkept n) _)
  have hcalled := count_calledNumbers (p.missCalled st).tc.called st n (some ⟨t, (p.missCalled st).time.clock⟩)
  rw [hnone] at hcalled
  have htc : ((p.missCalled st).callTicket st t).tc.holders n = ((p.missCalled st).tc.waiting.map Ticket.number).count n
      + (calledNumbers ((p.missCalled st).tc.called.set st (some ⟨t, (p.missCalled st).time.clock⟩))).count n
      + ((p.missCalled st).tc.missed.map (fun m => m.ticket.number)).count n
      + ((p.missCalled st).tc.serving.map (fun x => x.ticket.number)).count n := TicketController.holders_eq _ n
  rw [htc, TicketController.holders_eq]
  simp only [Option.map_some, Option.map_none, Option.toList_some, Option.toList_none, List.count_nil] at hcalled
  omega

/-- The first element that a test finds is the one that is removed. -/
theorem exists_removeFirst {α : Type} {test : α → Bool} {l : List α} {x : α} (h : l.find? test = some x) :
    ∃ before after, l = before ++ x :: after ∧ removeFirst test l = before ++ after := by
  obtain ⟨hx, before, after, hl, hbefore⟩ := List.find?_eq_some_iff_append.1 h
  refine ⟨before, after, hl, ?_⟩
  rw [hl]
  exact removeFirst_split (fun y hy => by simpa using hbefore y hy) hx

/-! ## The law -/

/-- An order of a number names a ticket. -/
def Part.names (p : Part) (n k : Nat) : Prop := ∃ o ∈ p.om.orders, o.number = k ∧ o.ticket = some n

/-- A ticket is SERVING for an order. -/
def Part.serves (p : Part) (n k : Nat) : Prop := ∃ t ∈ p.tc.serving, t.ticket.number = n ∧ t.order = k

/-- The laws of the tickets, but for the number of SERVING ones, which follows from the slots of the pool. -/
structure Part.Tickets (p : Part) : Prop where
  once : ∀ n, p.tc.holders n ≤ 1
  range : ∀ n, 0 < p.tc.holders n → 1 ≤ n ∧ n ≤ 99
  last : p.tc.lastIssued ≤ 99
  bound : ∀ n k, p.serves n k ↔ p.names n k
  calls : (p.tc.callList.map Call.ticket).Nodup

section
variable {p q : Part}

theorem Part.Tickets.serving_nodup (h : p.Tickets) : (p.tc.serving.map (fun t => t.ticket.number)).Nodup := by
  refine List.nodup_iff_count_le_one.2 fun n => ?_
  have := h.once n
  rw [TicketController.holders_eq] at this
  omega

theorem Part.Tickets.serving_unique (h : p.Tickets) {s t : ServingTicket} (hs : s ∈ p.tc.serving) (ht : t ∈ p.tc.serving)
    (hn : s.ticket.number = t.ticket.number) : s = t := List.inj_on_of_nodup_map h.serving_nodup hs ht hn

/-- At most one SERVING ticket for each slot of the pool. -/
theorem Part.Tickets.serving_length (h : p.Tickets) (distinct : (p.om.orders.map Order.number).Nodup)
    (slots : p.om.pool.length = Config.orderSlots) : p.tc.serving.length ≤ Config.orderSlots := by
  have hnodup : p.tc.serving.Nodup := h.serving_nodup.of_map _
  have hinj : (p.tc.serving.map ServingTicket.order).Nodup := by
    refine hnodup.map_on fun s hs t ht he => ?_
    obtain ⟨o, ho, hok, hot⟩ := (h.bound s.ticket.number s.order).1 ⟨s, hs, rfl, rfl⟩
    obtain ⟨x, hx, hxk, hxt⟩ := (h.bound t.ticket.number t.order).1 ⟨t, ht, rfl, rfl⟩
    obtain rfl := order_eq_of_mem distinct ho hx (hok.trans (he.trans hxk.symm))
    exact h.serving_unique hs ht (Option.some.inj (hot.symm.trans hxt))
  have hsub : p.tc.serving.map ServingTicket.order ⊆ p.om.orders.map Order.number := fun k hk => by
    obtain ⟨t, ht, rfl⟩ := List.mem_map.1 hk
    obtain ⟨o, ho, hok, -⟩ := (h.bound t.ticket.number t.order).1 ⟨t, ht, rfl, rfl⟩
    exact List.mem_map.2 ⟨o, ho, hok⟩
  have hlength := (hinj.subperm hsub).length_le
  rw [List.length_map, List.length_map] at hlength
  exact hlength.trans ((List.length_filterMap_le _ _).trans slots.le)

theorem Part.tickets_iff (distinct : (p.om.orders.map Order.number).Nodup) (slots : p.om.pool.length = Config.orderSlots) :
    p.Tickets ↔ p.Ticketed := by
  have hpos : ∀ n, 0 < p.tc.holders n ↔ n ∈ p.tc.live := fun n => List.count_pos_iff
  constructor
  · intro h
    exact ⟨List.nodup_iff_count_le_one.2 h.once, fun n hn => h.range n ((hpos n).2 hn), h.last, h.bound,
      h.serving_length distinct slots, h.calls⟩
  · intro h
    exact ⟨List.nodup_iff_count_le_one.1 h.distinct, fun n hn => h.range n ((hpos n).1 hn), h.last, h.bound, h.calls⟩

/-- No live ticket joins, and the tickets of the orders stay. -/
theorem Part.Tickets.fewer (h : p.Tickets) (holders : HoldersKept p.tc q.tc) (last : q.tc.lastIssued ≤ 99)
    (bound : ∀ n k, q.serves n k ↔ q.names n k) (calls : (q.tc.callList.map Call.ticket).Nodup) : q.Tickets :=
  ⟨fun n => (holders n).trans (h.once n), fun n hn => h.range n (hn.trans_le (holders n)), last, bound, calls⟩

theorem Part.Tickets.of_same (h : p.Tickets) (same : TicketsSame p.tc q.tc) (serving : q.tc.serving = p.tc.serving)
    (names : ∀ n k, q.names n k ↔ p.names n k) : q.Tickets := by
  refine h.fewer (.of_same same (by rw [serving])) (by rw [same.lastIssued]; exact h.last) (fun n k => ?_)
    (by rw [same.callList]; exact h.calls)
  rw [names, ← h.bound]
  unfold Part.serves
  rw [serving]

/-- An order changed but for its number and its ticket. -/
theorem names_updated {n : Nat} {f : Order → Order}
    (orders : q.om.orders = p.om.orders.map (fun o => if o.number = n then f o else o))
    (number : ∀ o, (f o).number = o.number) (ticket : ∀ o, (f o).ticket = o.ticket) (m k : Nat) :
    q.names m k ↔ p.names m k := by
  unfold Part.names
  rw [orders]
  simp only [List.mem_map]
  constructor
  · rintro ⟨_, ⟨o, ho, rfl⟩, hk, ht⟩
    by_cases hn : o.number = n
    · rw [if_pos hn] at hk ht
      exact ⟨o, ho, (number o).symm.trans hk, (ticket o).symm.trans ht⟩
    · rw [if_neg hn] at hk ht
      exact ⟨o, ho, hk, ht⟩
  · rintro ⟨o, ho, hk, ht⟩
    refine ⟨_, ⟨o, ho, rfl⟩, ?_⟩
    by_cases hn : o.number = n
    · rw [if_pos hn]
      exact ⟨(number o).trans hk, (ticket o).trans ht⟩
    · rw [if_neg hn]
      exact ⟨hk, ht⟩

theorem names_of_orders (h : q.om.orders = p.om.orders) (m k : Nat) : q.names m k ↔ p.names m k := by
  unfold Part.names
  rw [h]

theorem Part.Tickets.updated (h : p.Tickets) {n : Nat} {f : Order → Order}
    (orders : q.om.orders = p.om.orders.map (fun o => if o.number = n then f o else o)) (tc : q.tc = p.tc)
    (number : ∀ o, (f o).number = o.number) (ticket : ∀ o, (f o).ticket = o.ticket) : q.Tickets :=
  h.of_same (.of_eq tc) (by rw [tc]) (names_updated orders number ticket)

/-! ## Orders that leave (R120, R121) -/

/-- The SERVING tickets after the ticket of an order has left. -/
def Part.servingWithout (p : Part) (ticket : Option Nat) : List ServingTicket := (p.endNoSale ticket).tc.serving

theorem Part.endServed_serving (p : Part) (ticket : Option Nat) :
    (p.endServed ticket).tc.serving = p.servingWithout ticket := by
  unfold Part.servingWithout Part.endServed Part.endNoSale
  split <;> rfl

/-- The order leaves the pool, and its ticket leaves TC. -/
theorem Part.Tickets.freed (h : p.Tickets) (distinct : (p.om.orders.map Order.number).Nodup) {o : Order}
    (order : p.order o.number = some o) (om : q.om = p.om.without o.number) (same : TicketsSame p.tc q.tc)
    (serving : q.tc.serving = p.servingWithout o.ticket) : q.Tickets := by
  have hnames : ∀ n k, q.names n k ↔ p.names n k ∧ k ≠ o.number := fun n k => by
    unfold Part.names
    rw [om, OrderManager.without_orders]
    constructor
    · rintro ⟨x, hx, rfl, ht⟩
      obtain ⟨hx, hne⟩ := List.mem_filter.1 hx
      exact ⟨⟨x, hx, rfl, ht⟩, of_decide_eq_true hne⟩
    · rintro ⟨⟨x, hx, rfl, ht⟩, hne⟩
      exact ⟨x, List.mem_filter.2 ⟨hx, decide_eq_true hne⟩, rfl, ht⟩
  have hmem := order_mem order
  cases hticket : o.ticket with
  | none =>
    have hsame : q.tc.serving = p.tc.serving := by rw [serving, hticket]; rfl
    refine h.of_same same hsame fun n k => (hnames n k).trans ⟨And.left, fun hk => ⟨hk, fun e => ?_⟩⟩
    obtain ⟨x, hx, hxk, hxt⟩ := hk
    rw [order_eq_of_mem distinct hx hmem (hxk.trans e), hticket] at hxt
    cases hxt
  | some m =>
    obtain ⟨t, ht, htm, hto⟩ := (h.bound m o.number).2 ⟨o, hmem, rfl, hticket⟩
    have hfind : p.servingTicket m = some t := by
      cases hfind : p.servingTicket m with
      | none => exact absurd htm (by simpa using List.find?_eq_none.1 hfind t ht)
      | some x =>
        have hx := List.mem_of_find?_eq_some hfind
        have hxm : x.ticket.number = m := by simpa using List.find?_some hfind
        rw [h.serving_unique hx ht (hxm.trans htm.symm)]
    obtain ⟨before, after, hsplit, hremoved⟩ := exists_removeFirst hfind
    have hleft : q.tc.serving = before ++ after := by
      rw [serving, hticket, ← hremoved]
      unfold Part.servingWithout Part.endNoSale
      rw [Option.bind_some, hfind]
      show removeFirst (fun x => x.ticket.number == t.ticket.number) p.tc.serving = _
      rw [htm]
    have hnodup := h.serving_nodup
    rw [hsplit, List.map_append, List.map_cons, List.perm_middle.nodup_iff, List.nodup_cons, ← List.map_append] at hnodup
    refine h.fewer (.of_same same ?_) (by rw [same.lastIssued]; exact h.last) (fun n k => ?_)
      (by rw [same.callList]; exact h.calls)
    · rw [hleft, hsplit]
      exact (List.sublist_cons_self _ _).append_left before
    · rw [hnames, ← h.bound]
      unfold Part.serves
      rw [hleft, hsplit]
      constructor
      · rintro ⟨x, hx, rfl, rfl⟩
        have hxp : x ∈ p.tc.serving := by
          rw [hsplit]
          exact ((List.sublist_cons_self _ _).append_left before).subset hx
        refine ⟨⟨x, hsplit ▸ hxp, rfl, rfl⟩, fun e => hnodup.1 (List.mem_map.2 ⟨x, hx, ?_⟩)⟩
        obtain ⟨y, hy, hyk, hyt⟩ := (h.bound x.ticket.number x.order).1 ⟨x, hxp, rfl, rfl⟩
        rw [order_eq_of_mem distinct hy hmem (hyk.trans e), hticket] at hyt
        exact (Option.some.inj hyt).symm.trans htm.symm
      · rintro ⟨⟨x, hx, rfl, rfl⟩, hne⟩
        rcases List.mem_append.1 hx with hx | hx
        · exact ⟨x, List.mem_append_left _ hx, rfl, rfl⟩
        · rcases List.mem_cons.1 hx with rfl | hx
          · exact absurd hto hne
          · exact ⟨x, List.mem_append_right _ hx, rfl, rfl⟩

theorem Part.Tickets.settleClosing (h : p.Tickets) (distinct : (p.om.orders.map Order.number).Nodup) (n : Nat) :
    (p.settleClosing n).Tickets := by
  rcases p.settleClosing_cases n with e | ⟨o, kind, ho, -, -, ⟨-, e⟩ | ⟨-, e⟩⟩ <;> rw [e]
  · exact h
  · obtain rfl := Part.order_number ho
    have htc := (p.endEmptyClose_om o).2
    exact h.freed distinct ho (p.endEmptyClose_without o) ((p.endNoSale_same _).trans (TicketsSame.of_eq htc))
      (congrArg TicketController.serving htc)
  · have hom := congrArg OrderManager.orders (p.formClosing_om o kind)
    exact h.updated (hom.trans (Part.setClosing_orders _ _ _)) (by simp) (fun _ => rfl) fun _ => rfl

theorem Part.Tickets.closingFailed (h : p.Tickets) (n : Nat) (k : CloseKind) : (p.closingFailed n k).Tickets := by
  unfold Part.closingFailed
  split
  · exact h
  · rename_i o _
    have hom := congrArg OrderManager.orders (p.failClosing_om o k).1
    exact h.updated (hom.trans (Part.setClosing_orders _ _ _)) (by simp) (fun _ => rfl) fun _ => rfl

theorem Part.Tickets.recordFailed (h : p.Tickets) (distinct : (p.om.orders.map Order.number).Nodup) (r : Record) :
    (p.recordFailed r).Tickets := by
  cases r with
  | line n owner f =>
    obtain ⟨hom, -, htc⟩ := p.lineLost_parts n f
    have horders := (congrArg OrderManager.orders hom).trans (Part.updateOrder_orders _ _ _)
    have hlost : (p.lineLost n f).Tickets :=
      h.updated (f := fun o => o.withoutLine f) horders htc (fun _ => rfl) fun _ => rfl
    refine hlost.settleClosing ?_ n
    rw [numbers_update (f := fun o => o.withoutLine f) horders fun _ => rfl]
    exact distinct
  | close n => exact h.closingFailed n .sale
  | voidOrder n => exact h.closingFailed n .void
  | priceApply =>
    simp only [Part.recordFailed, Part.failApply]
    split <;> exact h.of_same (.refl _) rfl fun _ _ => Iff.rfl
  | priceStored =>
    simp only [Part.recordFailed, Part.failStore]
    split <;> exact h.of_same (.refl _) rfl fun _ _ => Iff.rfl
  | _ => exact h.of_same (.of_eq rfl) rfl fun _ _ => Iff.rfl

end

end Sys2Proof.Machine
end


-- ==== Sys2Proof/Proofs/TicketsMoves.lean ====
section
/-! The laws of the tickets at every move and at the end of the start-up scan, and the number that TAKE issues (O55). -/

namespace Sys2Proof.Machine

/-! ## The entry into FAULT -/

theorem Part.Tickets.enterFault {p : Part} (h : p.Tickets) (hb : p.Binds []) : p.enterFault.Tickets :=
  enterFault_reports (P := fun q _ => q.Tickets) hb (h.of_same (.refl _) rfl fun _ _ => Iff.rfl)
    (fun _ r _ hq _ hp => hp.recordFailed hq.distinct r) fun _ hp => hp.of_same (.refl _) rfl fun _ _ => Iff.rfl

section
variable {p q : Part}

/-! ## Calls, takes and opened orders -/

theorem Part.call_calls (h : (p.tc.callList.map Call.ticket).Nodup) (st : StationNo) (t : Ticket) :
    (((p.missCalled st).callTicket st t).tc.callList.map Call.ticket).Nodup := by
  have hsame : (p.missCalled st).tc.callList = p.tc.callList := by
    unfold Part.missCalled
    split <;> rfl
  have hlist : ((p.missCalled st).callTicket st t).tc.callList
      = (⟨t.number, st⟩ :: p.tc.callList.filter (fun c => c.ticket != t.number)).take Config.maxCalls := by
    rw [← hsame]
    rfl
  rw [hlist]
  refine List.Nodup.sublist ((List.take_sublist _ _).map _) ?_
  rw [List.map_cons, List.nodup_cons]
  refine ⟨fun hm => ?_, h.sublist (List.filter_sublist.map _)⟩
  obtain ⟨c, hc, he⟩ := List.mem_map.1 hm
  have hne := (List.mem_filter.1 hc).2
  rw [he] at hne
  simp at hne

/-- A ticket of the waiting queue or the missed list is called at a station. -/
theorem Part.Tickets.called (h : p.Tickets) {a : Part} (st : StationNo) (t : Ticket)
    (holders : ∀ n, a.tc.holders n + [t.number].count n ≤ p.tc.holders n) (serving : a.tc.serving = p.tc.serving)
    (last : a.tc.lastIssued = p.tc.lastIssued) (calls : a.tc.callList = p.tc.callList) (om : a.om = p.om) :
    ((a.missCalled st).callTicket st t).Tickets := by
  have hserving : ((a.missCalled st).callTicket st t).tc.serving = p.tc.serving := by
    rw [← serving]
    unfold Part.missCalled
    split <;> rfl
  have hlast : ((a.missCalled st).callTicket st t).tc.lastIssued = p.tc.lastIssued := by
    rw [← last]
    unfold Part.missCalled
    split <;> rfl
  have hom : ((a.missCalled st).callTicket st t).om = p.om := by
    rw [← om]
    unfold Part.missCalled
    split <;> rfl
  refine h.fewer (fun n => (a.call_holders st t n).trans (holders n)) (by rw [hlast]; exact h.last) (fun n k => ?_)
    (a.call_calls (by rw [calls]; exact h.calls) st t)
  rw [names_of_orders (p := p) (congrArg OrderManager.orders hom), ← h.bound]
  unfold Part.serves
  rw [hserving]

theorem freeTicket_free {t : TicketController} (waiting : t.waiting.length < 64) (missed : t.missed.length ≤ 8)
    (serving : t.serving.length ≤ 16) : freeTicket t.live 99 t.lastIssued ∉ t.live
      ∧ 1 ≤ freeTicket t.live 99 t.lastIssued ∧ freeTicket t.live 99 t.lastIssued ≤ 99 := by
  have hlive := TicketController.live_length_lt waiting missed serving
  rw [freeTicket_eq]
  exact firstFree_notMem hlive (by omega)

theorem Part.Tickets.issued (h : p.Tickets) (d : DispenserNo) (waiting : p.tc.waiting.length < 64)
    (missed : p.tc.missed.length ≤ 8) (serving : p.tc.serving.length ≤ 16) : (p.issue d).1.Tickets := by
  obtain ⟨hfree, hlow, hhigh⟩ := freeTicket_free waiting missed serving
  have hnone : p.tc.holders (freeTicket p.tc.live 99 p.tc.lastIssued) = 0 := List.count_eq_zero.2 hfree
  have hholders : ∀ n, (p.issue d).1.tc.holders n
      = p.tc.holders n + [freeTicket p.tc.live 99 p.tc.lastIssued].count n := fun n => by
    rw [TicketController.holders_eq, TicketController.holders_eq]
    simp only [Part.issue, List.map_append, List.count_append, List.map_cons, List.map_nil]
    omega
  refine ⟨fun n => ?_, fun n hn => ?_, hhigh, h.bound, h.calls⟩ <;> rw [hholders] at * <;>
    by_cases he : freeTicket p.tc.live 99 p.tc.lastIssued = n
  case pos =>
    subst he
    rw [hnone]
    simp
  case neg =>
    have := h.once n
    simpa [List.count_singleton, he] using this
  case pos =>
    subst he
    exact ⟨hlow, hhigh⟩
  case neg =>
    refine h.range n ?_
    simpa [List.count_singleton, he] using hn

/-- An order without lines has been opened: the ticket CALLED at its station is SERVING for it. -/
theorem Part.Tickets.opened (h : p.Tickets) (slots : p.om.pool.length = Config.orderSlots) {st : StationNo} {operator : Nat}
    (slot : p.om.pool.any Option.isNone = true) : (p.openOrder st operator).Tickets := by
  have hnew := Part.nextOrder_new slots
  have horders : (p.openOrder st operator).om.orders.Perm (p.newOrder st operator :: p.om.orders) := by
    rw [p.openOrder_om]
    exact orders_placed slot
  have hnames : ∀ n k, (p.openOrder st operator).names n k
      ↔ p.names n k ∨ (k = p.nextOrder ∧ p.calledNumber st = some n) := fun n k => by
    unfold Part.names
    simp only [horders.mem_iff, List.mem_cons]
    constructor
    · rintro ⟨o, rfl | ho, rfl, ht⟩
      · exact .inr ⟨rfl, ht⟩
      · exact .inl ⟨o, ho, rfl, ht⟩
    · rintro (⟨o, ho, rfl, ht⟩ | ⟨rfl, ht⟩)
      · exact ⟨o, .inr ho, rfl, ht⟩
      · exact ⟨_, .inl rfl, rfl, ht⟩
  cases hc : p.tc.called.get st with
  | none =>
    have htc : (p.openOrder st operator).tc = p.tc := by
      unfold Part.openOrder Part.bindTicket
      dsimp only
      rw [hc]
    refine h.of_same (.of_eq htc) (by rw [htc]) fun n k => (hnames n k).trans ⟨fun hk => hk.elim id fun hk => ?_, .inl⟩
    have hticket := hk.2
    rw [Part.calledNumber, hc] at hticket
    cases hticket
  | some c =>
    have htc : (p.openOrder st operator).tc = { p.tc with
        called := p.tc.called.set st none
        serving := p.tc.serving ++ [⟨c.ticket, c.callTime, st, p.nextOrder⟩] } :=
      congrArg Part.tc (Part.bindTicket_called (p := { p with om :=
        ⟨placeOrder (p.newOrder st operator) p.om.pool, p.om.active.set st (some p.nextOrder), p.nextOrder⟩ }) hc p.nextOrder)
    have hcalled := fun n => count_calledNumbers p.tc.called st n none
    refine h.fewer (fun n => ?_) (by rw [htc]; exact h.last) (fun n k => ?_) (by rw [htc]; exact h.calls)
    · have hn := hcalled n
      rw [hc] at hn
      rw [htc, TicketController.holders_eq, TicketController.holders_eq]
      simp only [List.map_append, List.count_append, List.map_cons, List.map_nil, Option.map_some, Option.map_none,
        Option.toList_some, Option.toList_none, List.count_nil] at hn ⊢
      omega
    · rw [hnames, ← h.bound]
      unfold Part.serves
      rw [htc]
      simp only [List.mem_append, List.mem_singleton, Part.calledNumber, hc, Option.map_some, Option.some.injEq]
      constructor
      · rintro ⟨t, ht | rfl, rfl, rfl⟩
        · exact .inl ⟨t, ht, rfl, rfl⟩
        · exact .inr ⟨rfl, rfl⟩
      · rintro (⟨t, ht, hn, hk⟩ | ⟨rfl, rfl⟩)
        · exact ⟨t, .inl ht, hn, hk⟩
        · exact ⟨_, .inr rfl, rfl, rfl⟩

end

/-! ## The moves -/

/-- A closing record that is written: its order leaves the pool, and the ticket of the order leaves TC. -/
theorem Part.Tickets.closed {p q : Part} (h : p.Tickets) (distinct : (p.om.orders.map Order.number).Nodup) {n : Nat}
    (same : TicketsSame p.tc q.tc)
    (written : q = p ∨ ∃ o, p.order n = some o ∧ q.om = p.om.without n ∧ q.tc.serving = p.servingWithout o.ticket) :
    q.Tickets := by
  rcases written with rfl | ⟨o, ho, hom, hserving⟩
  · exact h
  · obtain rfl := Part.order_number ho
    exact h.freed distinct ho hom same hserving

theorem Part.closeWritten_serving (p : Part) (n owner total : Nat) (label : Option Nat) :
    p.closeWritten n owner total label = p ∨ ∃ o, p.order n = some o
      ∧ (p.closeWritten n owner total label).om = p.om.without n
      ∧ (p.closeWritten n owner total label).tc.serving = p.servingWithout o.ticket := by
  rcases p.closeWritten_om n owner total label with ⟨-, he⟩ | hom
  · exact .inl he
  · cases ho : p.order n with
    | none => exact .inl (by rw [Part.closeWritten, ho])
    | some o =>
      refine .inr ⟨o, rfl, hom, ?_⟩
      rw [Part.closeWritten, ho]
      dsimp only
      rw [(Part.freeOrder_frame _ n).2.2.2.2.2.2.1, ← Part.endServed_serving]
      refine congrArg TicketController.serving (Part.endServed_tc ?_)
      exact (Part.onTotalJob_frame _ o (fun q k => q.releaseJob .total k) fun _ _ => ⟨rfl, rfl, rfl⟩).2.2

theorem Part.voidOrderWritten_serving (p : Part) (n owner value : Nat) : p.voidOrderWritten n owner value = p
    ∨ ∃ o, p.order n = some o ∧ (p.voidOrderWritten n owner value).om = p.om.without n
      ∧ (p.voidOrderWritten n owner value).tc.serving = p.servingWithout o.ticket := by
  rcases p.voidOrderWritten_om n owner value with ⟨-, he⟩ | hom
  · exact .inl he
  · cases ho : p.order n with
    | none => exact .inl (by rw [Part.voidOrderWritten, ho])
    | some o =>
      refine .inr ⟨o, rfl, hom, ?_⟩
      rw [Part.voidOrderWritten, ho]
      exact congrArg TicketController.serving (Part.endNoSale_tc (ticket := o.ticket) rfl)

theorem tickets_move {c : Instr} {k : Nat} {p q : Part} (m : Move c k p q) (hinv : p.Inv) (hb : p.Binds [])
    (h : p.Tickets) : q.Tickets := by
  have hslots := hinv.fits.slots
  have hsame : ∀ {r : Part}, r.tc = p.tc → r.om = p.om → r.Tickets := fun htc hom =>
    h.of_same (.of_eq htc) (by rw [htc]) (names_of_orders (congrArg OrderManager.orders hom))
  have hfinished : ∀ r, (p.finishAppend r).Tickets := fun r => hsame (by simp) (by simp)
  cases m with
  | quiet seen =>
    exact h.of_same (.of_seen seen) (congrArg Seen.serving seen) (names_of_orders (congrArg (fun x => x.om.orders) seen))
  | reset => exact ⟨fun _ => Nat.zero_le 1, fun _ hn => absurd hn (lt_irrefl 0), Nat.zero_le _, fun _ _ => ⟨nofun, nofun⟩, .nil⟩
  | orderOpened st operator trading free slot => exact h.opened hslots slot
  | lineAdded st o f a =>
    have horders := (congrArg OrderManager.orders (p.addLine_om o f a)).trans (Part.updateOrder_orders _ _ _)
    exact h.updated (f := fun x => x.withLine f) horders (by simp) (fun _ => rfl) fun _ => rfl
  | orderParked st o => exact h.updated (Part.updateOrder_orders _ _ _) rfl (fun _ => rfl) fun _ => rfl
  | orderResumed st n o =>
    exact h.updated (f := fun x => { x with state := .opened st }) (filterMap_updatePool_some n _ p.om.pool) rfl
      (fun _ => rfl) fun _ => rfl
  | orderFreed o order =>
    have htc : ((p.freeOrder o.number).endNoSale o.ticket).tc = (p.endNoSale o.ticket).tc := Part.endNoSale_tc rfl
    refine h.freed hb.distinct order ?_ ((p.endNoSale_same _).trans (.of_eq htc)) (congrArg TicketController.serving htc)
    rw [(Part.endNoSale_frame _ _).2.2.2.2.2.2.1, Part.freeOrder_om]
  | totalLabelled st o command running active mode =>
    have horders := (congrArg OrderManager.orders (p.makeTotalLabel_updates st o mode)).trans (Part.updateOrder_orders _ _ _)
    exact h.updated (f := fun x => { x with totalLabel := some p.lu.nextLabel }) horders (by simp) (fun _ => rfl) fun _ => rfl
  | closingBegun o kind => exact h.updated (Part.setClosing_orders _ _ _) rfl (fun _ => rfl) fun _ => rfl
  | closingSettled n => exact h.settleClosing hb.distinct n
  | lineVoided st o => exact h.updated (Part.updateOrder_orders _ _ _) rfl (fun _ => rfl) fun _ => rfl
  | ticketCalled st t rest front =>
    refine h.called (a := { p with tc := { p.tc with waiting := rest } }) st t (fun n => ?_) rfl rfl rfl rfl
    rw [TicketController.holders_eq, TicketController.holders_eq, front]
    simp only [List.map_cons, List.count_cons, List.count_nil]
    omega
  | ticketRecalled st n t missed =>
    obtain ⟨before, after, hsplit, hremoved⟩ := exists_removeFirst missed
    refine h.called (a := { p with tc := { p.tc with
      missed := removeFirst (fun m => m.ticket.number == n) p.tc.missed } }) st t.ticket (fun m => ?_) rfl rfl rfl rfl
    rw [TicketController.holders_eq, TicketController.holders_eq]
    dsimp only
    rw [hremoved, hsplit]
    simp only [List.map_append, List.map_cons, List.count_append, List.count_cons, List.count_nil]
    omega
  | ticketIssued d room =>
    exact h.issued d room hinv.fits.missed (h.serving_length hb.distinct hslots)
  | ticketExpired n =>
    refine h.fewer (fun m => ?_) h.last h.bound h.calls
    rw [TicketController.holders_eq, TicketController.holders_eq]
    have := ((sublist_removeFirst (fun x : MissedTicket => x.ticket.number == n) p.tc.missed).map
      (fun x => x.ticket.number)).count_le m
    dsimp only
    omega
  | ticketsAbandoned =>
    refine h.fewer (fun m => ?_) h.last h.bound .nil
    rw [TicketController.holders_eq, TicketController.holders_eq]
    exact Nat.add_le_add_right (Nat.zero_le _) _
  | dayEnded d => exact h.fewer (.refl _) (Nat.zero_le 99) h.bound h.calls
  | lineWritten n owner f =>
    exact (hfinished _).updated (Part.updateOrder_orders _ _ _) rfl (fun _ => rfl) fun _ => rfl
  | closeWritten n owner ticket count total label wait first =>
    exact (hfinished _).closed (by simpa using hb.distinct) (Part.closeWritten_same _ _ _ _ _)
      (Part.closeWritten_serving _ n owner total label)
  | voidWritten n owner ticket value first =>
    exact (hfinished _).closed (by simpa using hb.distinct) (Part.voidOrderWritten_same _ _ _ _)
      (Part.voidOrderWritten_serving _ n owner value)
  | switched g es time command first =>
    exact h.of_same ⟨by simp, by simp, by simp, by simp, by simp⟩ (by simp) (names_of_orders (by simp))
  | faultEntered => exact h.enterFault hb
  | _ => exact hsame (by simp) (by simp)

theorem tickets_endScan {p : Part} {x : List Nat} (h : p.Tickets) : (p.endScan x).Tickets :=
  h.of_same ⟨by simp, by simp, by simp, by simp, by simp⟩ (by simp) (names_of_orders (by simp [OrderManager.orders]))

/-- The laws, the binding of orders and the tickets, which every step keeps together. -/
structure Part.Ticketing (p : Part) : Prop where
  bounded : p.Bounded
  tickets : p.Tickets

/-- Settles O55: the moves take a ticket from one list of live tickets to another, and an order leaves with its ticket. The number
that TAKE issues is the first free one, and with fewer than 64 waiting at most 87 are taken. -/
theorem stepKeepsTicketsDistinct : Obligations.StepKeepsTicketsDistinct := by
  refine ⟨fun s t hinv hbound hticketed h => ?_, fun p hinv hticketed hwaiting => ?_⟩
  · have hs : s.part.Ticketing := ⟨⟨hinv, hbound⟩, (Part.tickets_iff hbound.distinct hinv.fits.slots).2 hticketed⟩
    have ht : t.part.Ticketing := step_keeps h hs
      (fun m hp => ⟨⟨inv_move m hp.bounded.inv, bound_move m hp.bounded.inv hp.bounded.bound⟩,
        tickets_move m hp.bounded.inv ((Part.binds_iff _).2 hp.bounded.bound) hp.tickets⟩)
      fun _ hp => ⟨⟨hp.bounded.inv.endScan, bound_endScan hp.bounded.bound⟩, tickets_endScan hp.tickets⟩
    exact (Part.tickets_iff ht.bounded.bound.distinct ht.bounded.inv.fits.slots).1 ht.tickets
  · exact (freeTicket_free hwaiting hinv.fits.missed hticketed.serving).1

end Sys2Proof.Machine
end


-- ==== Sys2Proof/Proofs/PricedOrders.lean ====
section
/-! The totals of the orders, and the records of the write queue that tell of them (R99 to R102, R107, R110), at each change of an
order and of the write queue. At the entry into FAULT the records that have not been reported yet count still. -/

namespace Sys2Proof.Machine

/-! ## Records that tell of an order -/

/-- Whether a record tells of what an order holds. -/
def Record.tells : Record → Bool
  | .line _ _ _ => true
  | .close _ _ _ _ _ _ _ => true
  | .voidOrder _ _ _ _ => true
  | _ => false

/-- A record tells what an order holds: a LINE its PENDING line, a closing record what the order is closed with. -/
def Record.Agrees (o : Order) : Record → Prop
  | .line n owner f => o.number = n ∧ o.owner = owner ∧ ⟨f, .pending⟩ ∈ o.lines
  | .close n owner ticket count total label _ => o.number = n ∧ o.owner = owner ∧ o.ticket = ticket
      ∧ o.activeLines.length = count ∧ o.total = total ∧ o.totalLabel = label
  | .voidOrder n owner ticket value => o.number = n ∧ o.owner = owner ∧ o.ticket = ticket ∧ o.total = value
  | _ => False

/-- The order and line index of each LINE record. -/
def lineRecords (places : List Place) : List (Nat × Nat) := places.filterMap Place.line?

@[simp] theorem lineRecords_append (a b : List Place) : lineRecords (a ++ b) = lineRecords a ++ lineRecords b :=
  List.filterMap_append

/-- An order's total is the sum of the prices of its lines that are not VOIDED, and a close that has its record has no PENDING
line. -/
structure Order.Sound (o : Order) : Prop where
  total : o.total = (o.activeLines.map LineFields.linePrice).sum
  settled : ∀ kind r, o.state = .closing kind r → r ≠ .waiting → o.hasPending = false

/-- The laws of `Part.Priced`, where the records `rs` count as filled places behind those of the write queue. -/
structure Part.Prices (p : Part) (rs : List Record) : Prop where
  sound : ∀ o ∈ p.om.orders, o.Sound
  records : ∀ r, .filled r ∈ p.tj.queue ++ rs.map .filled → r.tells = true → ∃ o ∈ p.om.orders, r.Agrees o
  once : (lineRecords (p.tj.queue ++ rs.map .filled)).Nodup
  waits : ∀ r, p.tj.waiting = some r → r.mayWait = true

theorem Part.prices_iff (p : Part) : p.Prices [] ↔ p.Priced := by
  have hqueue : p.tj.queue ++ ([] : List Record).map Place.filled = p.tj.queue := List.append_nil _
  constructor
  · intro h
    have hrecords := h.records
    have honce := h.once
    rw [hqueue] at hrecords honce
    exact ⟨fun o ho => (h.sound o ho).total, fun n owner f hr => hrecords _ hr rfl, honce, h.waits,
      fun o ho => (h.sound o ho).settled, fun n owner ticket count total label wait hr => hrecords _ hr rfl,
      fun n owner ticket value hr => hrecords _ hr rfl⟩
  · intro h
    refine ⟨fun o ho => ⟨h.totals o ho, h.settled o ho⟩, ?_, ?_, h.waits⟩ <;> rw [hqueue]
    · intro r hr ht
      cases r with
      | line n owner f => exact h.lines n owner f hr
      | close n owner ticket count total label wait => exact h.closes _ _ _ _ _ _ _ hr
      | voidOrder n owner ticket value => exact h.voids _ _ _ _ hr
      | _ => cases ht
    · exact h.once

theorem Record.Agrees.number {r : Record} {o : Order} (h : r.Agrees o) :
    (Place.filled r).closes? = some o.number ∨ ∃ owner f, r = .line o.number owner f ∧ ⟨f, .pending⟩ ∈ o.lines := by
  cases r with
  | line n owner f => exact .inr ⟨owner, f, by rw [h.1], h.2.2⟩
  | close n => exact .inl (by rw [h.1]; rfl)
  | voidOrder n => exact .inl (by rw [h.1]; rfl)
  | _ => exact h.elim

theorem mayWait_silent {r : Record} (h : r.mayWait = true) :
    r.tells = false ∧ (Place.filled r).line? = none ∧ (Place.filled r).closes? = none := by
  cases r with
  | priceApply => exact ⟨rfl, rfl, rfl⟩
  | priceStored => exact ⟨rfl, rfl, rfl⟩
  | _ => cases h

theorem plain_silent {r : Record} (h : r.plain = true) : r.tells = false ∧ (Place.filled r).line? = none := by
  cases r with
  | line => cases h
  | close => cases h
  | voidOrder => cases h
  | priceApply => cases h
  | _ => exact ⟨rfl, rfl⟩

/-- Records of no line add no LINE record. -/
theorem lineRecords_silent {rs : List Record} (h : ∀ r ∈ rs, (Place.filled r).line? = none) :
    lineRecords (rs.map .filled) = [] := List.filterMap_eq_nil_iff.2 fun x hx => by
  obtain ⟨r, hr, rfl⟩ := List.mem_map.1 hx
  exact h r hr

/-! ## The lines of an order -/

theorem Order.pending_active {o : Order} {f : LineFields} (h : ⟨f, .pending⟩ ∈ o.lines) : f ∈ o.activeLines :=
  List.mem_map.2 ⟨_, List.mem_filter.2 ⟨h, rfl⟩, rfl⟩

theorem Order.not_pending {o : Order} (h : o.hasPending = false) (f : LineFields) : ⟨f, .pending⟩ ∉ o.lines := fun hm => by
  have := (hasPending_iff o).2 ⟨_, hm, rfl⟩
  rw [h] at this
  cases this

/-- The line of an index, apart from the others. -/
theorem Order.LinesOk.split {o : Order} (h : o.LinesOk) {l : Line} (hl : l ∈ o.lines) : ∃ before after,
    o.lines = before ++ l :: after ∧ (∀ x ∈ before ++ after, x.fields.index ≠ l.fields.index)
      ∧ removeFirst (fun x => x.fields.index == l.fields.index) o.lines = before ++ after
      ∧ ∀ f : Line → Line, changeFirst (fun x => x.fields.index == l.fields.index) f o.lines = before ++ f l :: after := by
  obtain ⟨before, after, hsplit⟩ := List.append_of_mem hl
  have hne : ∀ x ∈ before ++ after, x.fields.index ≠ l.fields.index := fun x hx he => by
    have hnodup : (o.lines.map (fun l => l.fields.index)).Nodup := h.ascending.imp fun hlt => Nat.ne_of_lt hlt
    rw [hsplit, List.map_append, List.map_cons, List.perm_middle.nodup_iff, List.nodup_cons, ← List.map_append] at hnodup
    exact hnodup.1 (List.mem_map.2 ⟨x, hx, he⟩)
  have hbefore : ∀ x ∈ before, (x.fields.index == l.fields.index) = false := fun x hx =>
    beq_false_of_ne (hne x (List.mem_append_left _ hx))
  refine ⟨before, after, hsplit, hne, ?_, fun f => ?_⟩ <;> rw [hsplit]
  · exact removeFirst_split hbefore (beq_self_eq_true _)
  · exact changeFirst_split f hbefore (beq_self_eq_true _)

section
variable {p q : Part} {rs : List Record}

/-! ## Changes of an order -/

/-- The write queue changes and the orders stay. -/
theorem Part.Prices.queued (h : p.Prices rs) {rs' : List Record} (orders : q.om.orders = p.om.orders)
    (records : ∀ r, .filled r ∈ q.tj.queue ++ rs'.map .filled → r.tells = true → .filled r ∈ p.tj.queue ++ rs.map .filled)
    (once : (lineRecords (q.tj.queue ++ rs'.map .filled)).Nodup) (waits : ∀ r, q.tj.waiting = some r → r.mayWait = true) :
    q.Prices rs' := by
  refine ⟨by rw [orders]; exact h.sound, fun r hr ht => ?_, once, waits⟩
  rw [orders]
  exact h.records r (records r hr ht) ht

theorem Part.Prices.of_eq (h : p.Prices rs) (orders : q.om.orders = p.om.orders) (queue : q.tj.queue = p.tj.queue)
    (waits : q.tj.waiting = p.tj.waiting) : q.Prices rs :=
  h.queued orders (by rw [queue]; exact fun _ hr _ => hr) (by rw [queue]; exact h.once) (by rw [waits]; exact h.waits)

/-- The order of a number changes, and the write queue with it. -/
theorem Part.Prices.updated (h : p.Prices rs) {rs' : List Record} {n : Nat} {f : Order → Order}
    (orders : q.om.orders = p.om.orders.map (fun o => if o.number = n then f o else o))
    (sound : ∀ o ∈ p.om.orders, o.number = n → o.Sound → (f o).Sound)
    (records : ∀ r, .filled r ∈ q.tj.queue ++ rs'.map .filled → r.tells = true →
      (∃ o ∈ q.om.orders, r.Agrees o) ∨ (.filled r ∈ p.tj.queue ++ rs.map .filled
        ∧ ∀ o ∈ p.om.orders, o.number = n → r.Agrees o → r.Agrees (f o)))
    (once : (lineRecords (q.tj.queue ++ rs'.map .filled)).Nodup) (waits : ∀ r, q.tj.waiting = some r → r.mayWait = true) :
    q.Prices rs' := by
  refine ⟨fun x hx => ?_, fun r hr ht => ?_, once, waits⟩
  · rcases (mem_orders_update orders).1 hx with ⟨hx, -⟩ | ⟨o, ho, hn, rfl⟩
    · exact h.sound x hx
    · exact sound o ho hn (h.sound o ho)
  · rcases records r hr ht with hnew | ⟨hold, hkept⟩
    · exact hnew
    · obtain ⟨o, ho, hagrees⟩ := h.records r hold ht
      by_cases hn : o.number = n
      · exact ⟨f o, (mem_orders_update orders).2 (.inr ⟨o, ho, hn, rfl⟩), hkept o ho hn hagrees⟩
      · exact ⟨o, (mem_orders_update orders).2 (.inl ⟨ho, hn⟩), hagrees⟩

/-- An order leaves that no record of the write queue tells of. -/
theorem Part.Prices.freed (h : p.Prices rs) {rs' : List Record} {n : Nat} (om : q.om = p.om.without n)
    (records : ∀ r, .filled r ∈ q.tj.queue ++ rs'.map .filled → r.tells = true → .filled r ∈ p.tj.queue ++ rs.map .filled)
    (untold : ∀ r, .filled r ∈ q.tj.queue ++ rs'.map .filled → ∀ o ∈ p.om.orders, o.number = n → ¬ r.Agrees o)
    (once : (lineRecords (q.tj.queue ++ rs'.map .filled)).Nodup) (waits : ∀ r, q.tj.waiting = some r → r.mayWait = true) :
    q.Prices rs' := by
  have hmem : ∀ x, x ∈ q.om.orders ↔ x ∈ p.om.orders ∧ x.number ≠ n := fun x => by
    rw [om, OrderManager.without_orders, List.mem_filter, decide_eq_true_eq]
  refine ⟨fun x hx => h.sound x ((hmem x).1 hx).1, fun r hr ht => ?_, once, waits⟩
  obtain ⟨o, ho, hagrees⟩ := h.records r (records r hr ht) ht
  exact ⟨o, (hmem o).2 ⟨ho, fun e => untold r hr o ho e hagrees⟩, hagrees⟩

/-- No record tells of an order without a PENDING line that no place closes. -/
theorem untold_of_unclosed {queue : List Place} {o : Order} (unclosed : o.number ∉ closings queue)
    (settled : o.hasPending = false) {r : Record} (hr : .filled r ∈ queue) : ¬ r.Agrees o := fun hagrees => by
  rcases hagrees.number with hcloses | ⟨owner, f, -, hf⟩
  · exact unclosed (List.mem_filterMap.2 ⟨_, hr, hcloses⟩)
  · exact o.not_pending settled f hf

/-- A record of a LINE stays true of an order that no place closes, when the PENDING lines stay. -/
theorem agrees_of_unclosed {queue : List Place} {o x : Order} (unclosed : o.number ∉ closings queue) (number : x.number = o.number)
    (owner : x.owner = o.owner) {r : Record} (hr : .filled r ∈ queue)
    (pending : ∀ w f, r = .line o.number w f → ⟨f, .pending⟩ ∈ o.lines → ⟨f, .pending⟩ ∈ x.lines) (h : r.Agrees o) :
    r.Agrees x := by
  rcases h.number with hcloses | ⟨w, f, rfl, hf⟩
  · exact absurd (List.mem_filterMap.2 ⟨_, hr, hcloses⟩) unclosed
  · exact ⟨number, owner.trans h.2.1, pending w f rfl hf⟩

/-- A change that leaves what the records tell of. -/
theorem agrees_of_eq {o x : Order} (number : x.number = o.number) (owner : x.owner = o.owner) (ticket : x.ticket = o.ticket)
    (lines : x.lines = o.lines) (total : x.total = o.total) (label : x.totalLabel = o.totalLabel) {r : Record}
    (h : r.Agrees o) : r.Agrees x := by
  have hactive : x.activeLines = o.activeLines := by rw [Order.activeLines, lines, Order.activeLines]
  cases r with
  | line =>
    simp only [Record.Agrees, number, owner, lines] at h ⊢
    exact h
  | close =>
    simp only [Record.Agrees, number, owner, ticket, hactive, total, label] at h ⊢
    exact h
  | voidOrder =>
    simp only [Record.Agrees, number, owner, ticket, total] at h ⊢
    exact h
  | _ => exact h.elim

theorem Order.Sound.restated {o : Order} (h : o.Sound) {s : OrderState}
    (settled : ∀ kind r, s = .closing kind r → r ≠ .waiting → o.hasPending = false) : ({ o with state := s } : Order).Sound :=
  ⟨h.total, settled⟩

/-- An order that changes its state alone, with the write queue unchanged. -/
theorem Part.Prices.restated (h : p.Prices rs) {n : Nat} {s : OrderState}
    (orders : q.om.orders = p.om.orders.map (fun o => if o.number = n then { o with state := s } else o))
    (settled : ∀ o ∈ p.om.orders, o.number = n → ∀ kind r, s = .closing kind r → r ≠ .waiting → o.hasPending = false)
    (queue : q.tj.queue = p.tj.queue) (waits : q.tj.waiting = p.tj.waiting) : q.Prices rs := by
  refine h.updated (f := fun o => { o with state := s }) orders (fun o ho hn hs => hs.restated (settled o ho hn))
    (fun r hr _ => .inr ⟨by rwa [queue] at hr, fun o _ _ ha => agrees_of_eq rfl rfl rfl rfl rfl rfl ha⟩)
    (by rw [queue]; exact h.once) (by rw [waits]; exact h.waits)

/-! ## A close that is judged -/

/-- Records that may wait join the write queue. -/
theorem mem_joined {queue : List Place} {new : List Record} (silent : ∀ r ∈ new, r.mayWait = true) {r : Record}
    (hr : .filled r ∈ queue ++ new.map .filled ++ rs.map .filled) (ht : r.tells = true) :
    .filled r ∈ queue ++ rs.map .filled := by
  rcases List.mem_append.1 hr with hr | hr
  · rcases List.mem_append.1 hr with hr | hr
    · exact List.mem_append_left _ hr
    · obtain ⟨x, hx, he⟩ := List.mem_map.1 hr
      cases he
      rw [(mayWait_silent (silent r hx)).1] at ht
      cases ht
  · exact List.mem_append_right _ hr

theorem lineRecords_joined {queue : List Place} {new : List Record} (silent : ∀ r ∈ new, r.mayWait = true) :
    lineRecords (queue ++ new.map .filled ++ rs.map .filled) = lineRecords (queue ++ rs.map .filled) := by
  have hnone := lineRecords_silent fun r hr => (mayWait_silent (silent r hr)).2.1
  simp [hnone]

theorem silent_of_waiting {new : List Record} {before after : Option Record} (h : new ++ after.toList = before.toList)
    (silent : ∀ r, before = some r → r.mayWait = true) :
    (∀ r ∈ new, r.mayWait = true) ∧ ∀ r, after = some r → r.mayWait = true := by
  have hmem : ∀ r, r ∈ new ++ after.toList → r.mayWait = true := fun r hr => by
    rw [h] at hr
    exact silent r (Option.mem_toList.1 hr)
  exact ⟨fun r hr => hmem r (List.mem_append_left _ hr), fun r hr => hmem r (List.mem_append_right _ (by simp [hr]))⟩

/-- The write queue loses places, and the record that waits can join it. -/
structure Part.QueueLess (p q : Part) (before after : List Record) : Prop where
  records : ∀ r, .filled r ∈ q.tj.queue ++ after.map .filled → r.tells = true → .filled r ∈ p.tj.queue ++ before.map .filled
  once : (lineRecords (q.tj.queue ++ after.map .filled)).Nodup
  waits : ∀ r, q.tj.waiting = some r → r.mayWait = true

theorem Part.Prices.queueLess (h : p.Prices rs) {queue : List Place} (sublist : queue.Sublist p.tj.queue) {new : List Record}
    (hqueue : q.tj.queue = queue ++ new.map .filled) (waits : new ++ q.tj.waiting.toList = p.tj.waiting.toList) :
    p.QueueLess q rs rs := by
  obtain ⟨hnew, hwaits⟩ := silent_of_waiting waits h.waits
  have hsub : (queue ++ rs.map Place.filled).Sublist (p.tj.queue ++ rs.map Place.filled) := sublist.append_right _
  refine ⟨fun r hr ht => ?_, ?_, hwaits⟩ <;> rw [hqueue] at *
  · exact hsub.subset (mem_joined hnew hr ht)
  · rw [lineRecords_joined hnew]
    exact h.once.sublist (hsub.filterMap _)

theorem lineRecords_fillHeld {n : Nat} {r : Record} (h : (Place.filled r).line? = none) (queue : List Place) :
    lineRecords (fillHeld n r queue) = lineRecords queue := by
  rcases held_split n queue with ⟨before, k, after, hq, -, hf⟩ | ⟨-, -, hf⟩ <;> rw [hf]
  rw [hq, lineRecords_append, lineRecords_append]
  congr 1
  unfold lineRecords
  rw [List.filterMap_cons_none h, List.filterMap_cons_none rfl]

theorem mem_fillHeld {n : Nat} {r : Record} {x : Place} {queue : List Place} (h : x ∈ fillHeld n r queue) :
    x = .filled r ∨ x ∈ queue := by
  rcases held_split n queue with ⟨before, k, after, hq, -, hf⟩ | ⟨-, -, hf⟩ <;> rw [hf] at h
  · rw [hq]
    rcases List.mem_append.1 h with h | h
    · exact .inr (List.mem_append_left _ h)
    · exact (List.mem_cons.1 h).imp id fun h => List.mem_append_right _ (List.mem_cons_of_mem _ h)
  · exact .inr h

theorem closingRecord_agrees (p : Part) (o : Order) (k : CloseKind) (s : OrderState) :
    (p.closingRecord o k).Agrees { o with state := s } := by
  cases k with
  | sale => exact ⟨rfl, rfl, rfl, rfl, rfl, rfl⟩
  | void => exact ⟨rfl, rfl, rfl, rfl⟩

theorem Part.Prices.settleClosing (h : p.Prices rs) (hb : p.Binds rs) (n : Nat) : (p.settleClosing n).Prices rs := by
  rcases p.settleClosing_cases n with e | ⟨o, kind, ho, hstate, hpending, ⟨-, e⟩ | ⟨-, e⟩⟩ <;> rw [e]
  · exact h
  · obtain rfl := Part.order_number ho
    obtain ⟨new, hqueue, hwaits⟩ := p.endEmptyClose_places o
    have hunclosed := (hb.given_back ⟨o, order_mem ho, rfl, hstate⟩ hqueue hwaits).1
    have hless := h.queueLess (dropHeld_sublist o.number p.tj.queue) hqueue hwaits
    refine h.freed (p.endEmptyClose_without o) hless.records (fun r hr x hx hn => ?_) hless.once hless.waits
    obtain rfl := order_eq_of_mem hb.distinct hx (order_mem ho) hn
    exact untold_of_unclosed hunclosed hpending hr
  · obtain rfl := Part.order_number ho
    have hsettled : ∀ x ∈ p.om.orders, x.number = o.number → x.hasPending = false := fun x hx hn => by
      rw [order_eq_of_mem hb.distinct hx (order_mem ho) hn]
      exact hpending
    cases hfault : p.tj.fault with
    | true =>
      obtain ⟨new, hom, hqueue, hwaits⟩ := p.formClosing_fault hfault o kind
      have hless := h.queueLess (dropHeld_sublist o.number p.tj.queue) hqueue hwaits
      have horders := (congrArg OrderManager.orders hom).trans (Part.setClosing_orders _ _ _)
      exact h.updated (f := fun x => { x with state := .closing kind .failed }) horders
        (fun x hx hn hs => hs.restated fun _ _ _ _ => hsettled x hx hn)
        (fun r hr ht => .inr ⟨hless.records r hr ht, fun x _ _ ha => agrees_of_eq rfl rfl rfl rfl rfl rfl ha⟩)
        hless.once hless.waits
    | false =>
      obtain ⟨r, hom, hqueue, hwaits, rfl⟩ := p.formClosing_queued hfault o kind
      have horders := (congrArg OrderManager.orders hom).trans (Part.setClosing_orders _ _ _)
      refine h.updated (f := fun x => { x with state := .closing kind .queued }) horders
        (fun x hx hn hs => hs.restated fun _ _ _ _ => hsettled x hx hn) (fun r hr ht => ?_) ?_
        (by rw [hwaits]; exact h.waits)
      · rw [hqueue] at hr
        have hkept : ∀ x ∈ p.om.orders, x.number = o.number → r.Agrees x →
            r.Agrees { x with state := .closing kind .queued } := fun x _ _ ha => agrees_of_eq rfl rfl rfl rfl rfl rfl ha
        rcases List.mem_append.1 hr with hr | hr
        · rcases mem_fillHeld hr with hr | hr
          · cases hr
            exact .inl ⟨_, (mem_orders_update (f := fun x => { x with state := .closing kind .queued }) horders).2
              (.inr ⟨o, order_mem ho, rfl, rfl⟩), closingRecord_agrees p o kind _⟩
          · exact .inr ⟨List.mem_append_left _ hr, hkept⟩
        · exact .inr ⟨List.mem_append_right _ hr, hkept⟩
      · have hline : (Place.filled (p.closingRecord o kind)).line? = none := by cases kind <;> rfl
        have honce := h.once
        rw [hqueue, lineRecords_append, lineRecords_fillHeld hline]
        rwa [lineRecords_append] at honce

end

end Sys2Proof.Machine
end


-- ==== Sys2Proof/Proofs/PricedMoves.lean ====
section
/-! The totals of the orders and their records at every move, at the entry into FAULT and at the end of the start-up scan (O57, the
price law). -/

namespace Sys2Proof.Machine

/-! ## The lines that are not VOIDED -/

/-- The fields of the lines that are not VOIDED. -/
def activeOf (lines : List Line) : List LineFields := (lines.filter (fun l => l.state ≠ .voided)).map Line.fields

theorem Order.activeLines_eq (o : Order) : o.activeLines = activeOf o.lines := rfl

@[simp] theorem activeOf_append (a b : List Line) : activeOf (a ++ b) = activeOf a ++ activeOf b := by
  simp [activeOf]

theorem activeOf_cons_voided (f : LineFields) (l : List Line) : activeOf (⟨f, .voided⟩ :: l) = activeOf l := rfl

theorem activeOf_cons {l : Line} (h : l.state ≠ .voided) (ls : List Line) : activeOf (l :: ls) = l.fields :: activeOf ls := by
  simp [activeOf, h]

theorem Order.Sound.withLine {o : Order} (h : o.Sound) (away : ∀ k r, o.state ≠ .closing k r) (f : LineFields) :
    (o.withLine f).Sound := by
  refine ⟨?_, fun k r hs => absurd hs (away k r)⟩
  rw [Order.activeLines_eq, Order.withLine, activeOf_append, List.map_append, List.sum_append, h.total]
  rfl

/-- A line that is not VOIDED leaves the sum with its price. -/
theorem Order.Sound.total_split {o : Order} (h : o.Sound) {before after : List Line} {l : Line}
    (lines : o.lines = before ++ l :: after) (state : l.state ≠ .voided) :
    o.total - l.fields.linePrice = ((activeOf (before ++ after)).map LineFields.linePrice).sum := by
  rw [h.total, Order.activeLines_eq, lines, activeOf_append, activeOf_append, activeOf_cons state]
  simp only [List.map_append, List.map_cons, List.sum_append, List.sum_cons]
  omega

theorem any_pending_sublist {a b : List Line} (h : ∀ l ∈ a, l.state = .pending → l ∈ b)
    (hb : b.any (fun l => l.state = .pending) = false) : a.any (fun l => l.state = .pending) = false := by
  rw [List.any_eq_false] at hb ⊢
  intro l hl hp
  exact hb l (h l hl (of_decide_eq_true hp)) hp

section
variable {p q : Part} {rs : List Record}

/-! ## Records that fail -/

/-- Only its LINE records tell of an order that holds a PENDING line. -/
theorem Part.Prices.told_pending (h : p.Prices rs) (hb : p.Binds rs) {o : Order} (ho : o ∈ p.om.orders)
    (pending : o.hasPending = true) {r : Record} (hr : .filled r ∈ p.tj.queue ++ rs.map .filled) (agrees : r.Agrees o) :
    ∃ w f, r = .line o.number w f ∧ ⟨f, .pending⟩ ∈ o.lines := by
  rcases agrees.number with hcloses | hline
  · obtain ⟨k, x, hx, hxn, hxs⟩ := hb.closes.filled r o.number hr hcloses
    obtain rfl := order_eq_of_mem hb.distinct hx ho hxn
    rw [(h.sound x hx).settled k .queued hxs nofun] at pending
    cases pending
  · exact hline

theorem Part.Prices.reported {r : Record} (h : p.Prices (r :: rs)) : p.Prices rs := by
  have hsub : (p.tj.queue ++ rs.map Place.filled).Sublist (p.tj.queue ++ (r :: rs).map Place.filled) :=
    (List.sublist_cons_self _ _).append_left _
  exact h.queued rfl (fun x hx _ => hsub.subset hx) (h.once.sublist (hsub.filterMap _)) h.waits

/-- The order and index of a LINE record that is first are those of no other. -/
theorem lineRecords_first {queue : List Place} {n owner : Nat} {f : LineFields}
    (once : (lineRecords (queue ++ (Record.line n owner f :: rs).map .filled)).Nodup) :
    (n, f.index) ∉ lineRecords (queue ++ rs.map .filled) := by
  rw [lineRecords_append, show lineRecords ((Record.line n owner f :: rs).map .filled)
    = (n, f.index) :: lineRecords (rs.map .filled) from rfl, List.perm_middle.nodup_iff, List.nodup_cons] at once
  rw [lineRecords_append]
  exact once.1

theorem mem_lineRecords {queue : List Place} {n w : Nat} {f : LineFields} (h : .filled (.line n w f) ∈ queue) :
    (n, f.index) ∈ lineRecords queue := List.mem_filterMap.2 ⟨_, h, rfl⟩

theorem Part.Prices.lineLost {n owner : Nat} {f : LineFields} (h : p.Prices (.line n owner f :: rs))
    (hb : p.Binds (.line n owner f :: rs)) : (p.lineLost n f).Prices rs := by
  obtain ⟨hom, htj, -⟩ := p.lineLost_parts n f
  have horders := (congrArg OrderManager.orders hom).trans (Part.updateOrder_orders _ _ _)
  obtain ⟨o, ho, hon, -, hf⟩ := h.records (.line n owner f) (List.mem_append_right _ List.mem_cons_self) rfl
  have honly : ∀ x ∈ p.om.orders, x.number = n → x = o := fun x hx hn => order_eq_of_mem hb.distinct hx ho (hn.trans hon.symm)
  obtain ⟨before, after, hsplit, hne, hremoved, -⟩ := (hb.lines o ho).split hf
  have hlines : (o.withoutLine f).lines = before ++ after := hremoved
  have hpending : o.hasPending = true := (hasPending_iff o).2 ⟨_, hf, rfl⟩
  have hunique := lineRecords_first h.once
  refine h.updated (f := fun x => x.withoutLine f) horders (fun x hx hn hs => ?_) (fun r hr ht => .inr ⟨?_, fun x hx hn ha => ?_⟩)
    (by rw [htj]; exact h.reported.once) (by rw [htj]; exact h.waits)
  · obtain rfl := honly x hx hn
    refine ⟨?_, fun k r hs' hr => ?_⟩
    · rw [Order.activeLines_eq, hlines]
      exact hs.total_split hsplit nofun
    · rw [hs.settled k r hs' hr] at hpending
      cases hpending
  · rw [htj] at hr
    exact ((List.sublist_cons_self _ _).append_left p.tj.queue).subset hr
  · obtain rfl := honly x hx hn
    rw [htj] at hr
    have hr' : .filled r ∈ p.tj.queue ++ (Record.line n owner f :: rs).map .filled :=
      ((List.sublist_cons_self _ _).append_left p.tj.queue).subset hr
    obtain ⟨w, g, rfl, hg⟩ := h.told_pending hb hx hpending hr' ha
    have hindex : g.index ≠ f.index := fun e => hunique (by
      have := mem_lineRecords hr
      rwa [e, hn] at this)
    refine ⟨rfl, ha.2.1, ?_⟩
    rw [hlines]
    rw [hsplit] at hg
    rcases List.mem_append.1 hg with hg | hg
    · exact List.mem_append_left _ hg
    · rcases List.mem_cons.1 hg with he | hg
      · exact absurd (congrArg (fun l : Line => l.fields.index) he) hindex
      · exact List.mem_append_right _ hg

theorem Part.Prices.closingFailed {r : Record} {n : Nat} (h : p.Prices (r :: rs)) (hb : p.Binds (r :: rs))
    (record : (Place.filled r).closes? = some n) (k : CloseKind) : (p.closingFailed n k).Prices rs := by
  obtain ⟨k', x, hx, hxn, hxs⟩ := hb.closes.filled r n (List.mem_append_right _ List.mem_cons_self) record
  have hpending := (h.sound x hx).settled k' .queued hxs nofun
  unfold Part.closingFailed
  split
  · exact h.reported
  · rename_i o ho
    obtain rfl := Part.order_number ho
    obtain ⟨hom, htj, -⟩ := p.failClosing_om o k
    have horders := (congrArg OrderManager.orders hom).trans (Part.setClosing_orders _ _ _)
    refine h.reported.restated horders (fun y hy hn _ _ _ _ => ?_) (by rw [htj]) (by rw [htj])
    rw [order_eq_of_mem hb.distinct hy hx (hn.trans hxn.symm)]
    exact hpending

theorem Part.Prices.recordFailed {r : Record} (h : p.Prices (r :: rs)) (hb : p.Binds (r :: rs)) :
    (p.recordFailed r).Prices rs := by
  cases r with
  | line n owner f => exact (h.lineLost hb).settleClosing (hb.reported.lineLost n f) n
  | close n => exact h.closingFailed hb rfl .sale
  | voidOrder n => exact h.closingFailed hb rfl .void
  | priceApply =>
    simp only [Part.recordFailed, Part.failApply]
    split <;> exact h.reported.of_eq rfl rfl rfl
  | priceStored =>
    simp only [Part.recordFailed, Part.failStore]
    split <;> exact h.reported.of_eq rfl rfl rfl
  | _ => exact h.reported.of_eq rfl rfl rfl

theorem Part.Prices.enterFault (h : p.Prices []) (hb : p.Binds []) : p.enterFault.Prices [] := by
  refine enterFault_reports (P := Part.Prices) hb ?_ (fun q r rs hq _ hp => hp.recordFailed hq) fun q hq => hq.of_eq rfl rfl rfl
  have hperm := perm_held_filled p.tj.queue
  have hwaiting : ∀ r ∈ p.tj.waiting.toList, r.mayWait = true := fun r hr => h.waits r (Option.mem_toList.1 hr)
  have hqueue : p.tj.queue ++ ([] : List Record).map Place.filled = p.tj.queue := List.append_nil _
  have hplaces : p.faulting.tj.queue ++ p.failingRecords.map Place.filled
      = p.tj.queue.filter Place.isHeld ++ (filledRecords p.tj.queue).map Place.filled
        ++ p.tj.waiting.toList.map Place.filled := by
    rw [Part.failingRecords, List.map_append, ← List.append_assoc]
    rfl
  refine h.queued rfl (fun r hr ht => ?_) ?_ fun r hr => by cases hr
  · rw [hplaces] at hr
    rw [hqueue]
    rcases List.mem_append.1 hr with hr | hr
    · exact hperm.subset hr
    · obtain ⟨x, hx, he⟩ := List.mem_map.1 hr
      cases he
      rw [(mayWait_silent (hwaiting _ hx)).1] at ht
      cases ht
  · have honce := h.once
    rw [hqueue] at honce
    have hnone := lineRecords_silent (rs := p.tj.waiting.toList) fun r hr => (mayWait_silent (hwaiting r hr)).2.1
    rw [hplaces, lineRecords_append, hnone, List.append_nil]
    exact (hperm.filterMap _).nodup_iff.2 honce

/-! ## Records that are written and queued -/

theorem Part.Prices.finished (h : p.Prices []) (r : Record) : p.QueueLess (p.finishAppend r) [] [] := by
  obtain ⟨new, hqueue, hwaits⟩ := p.finishAppend_places r
  exact h.queueLess (dropFirstRecord_sublist _) hqueue hwaits

theorem Part.Prices.finishAppend (h : p.Prices []) (r : Record) : (p.finishAppend r).Prices [] :=
  have hless := h.finished r
  h.queued (by simp) hless.records hless.once hless.waits

/-- A closing record that is written: no other record tells of its order. -/
theorem Part.Prices.closed (h : p.Prices []) (hb : p.Binds []) {r : Record} {n : Nat}
    (first : firstRecord p.tj.queue = some r) (record : (Place.filled r).closes? = some n)
    (htj : q.tj = (p.finishAppend r).tj)
    (written : q = p.finishAppend r ∨ q.om = (p.finishAppend r).om.without n) : q.Prices [] := by
  have hfinished := h.finishAppend r
  have hunclosed := (hb.finishAppend first).2 n record
  have hmem : .filled r ∈ p.tj.queue := by
    obtain ⟨before, after, hq, -⟩ := firstRecord_split first
    rw [hq]
    exact List.mem_append_right _ List.mem_cons_self
  obtain ⟨k, o, ho, rfl, hstate⟩ := hb.closes.filled r n (List.mem_append_left _ hmem) record
  have hpending := (h.sound o ho).settled k .queued hstate nofun
  rcases written with rfl | hom
  · exact hfinished
  · refine hfinished.freed hom (by rw [htj]; exact fun _ hr _ => hr) (fun x hx y hy hn => ?_) (by rw [htj]; exact hfinished.once)
      (by rw [htj]; exact hfinished.waits)
    have hy' : y ∈ p.om.orders := by simpa using hy
    obtain rfl := order_eq_of_mem hb.distinct hy' ho hn
    rw [htj, List.map_nil, List.append_nil] at hx
    exact untold_of_unclosed hunclosed hpending hx

/-- The index of a LINE record that is written is that of no other of its order. -/
theorem lineRecords_written {new : List Record} {queue : List Place} {n owner : Nat} {f : LineFields}
    (once : (lineRecords queue).Nodup) (first : firstRecord queue = some (.line n owner f))
    (silent : ∀ r ∈ new, r.mayWait = true) : (n, f.index) ∉ lineRecords (dropFirstRecord queue ++ new.map .filled) := by
  obtain ⟨before, after, hq, hd, -⟩ := firstRecord_split first
  have hnone := lineRecords_silent fun r hr => (mayWait_silent (silent r hr)).2.1
  rw [hq, lineRecords_append, show lineRecords (.filled (.line n owner f) :: after) = (n, f.index) :: lineRecords after from rfl,
    List.perm_middle.nodup_iff, List.nodup_cons] at once
  rw [lineRecords_append, hnone, List.append_nil, hd, lineRecords_append]
  exact once.1

theorem Part.Prices.lineWritten (h : p.Prices []) (hb : p.Binds []) {n owner : Nat} {f : LineFields}
    (first : firstRecord p.tj.queue = some (.line n owner f)) :
    ((p.finishAppend (.line n owner f)).updateOrder n (fun o => o.withLineState f.index .active)).Prices [] := by
  have hfinished := h.finishAppend (.line n owner f)
  obtain ⟨new, hqueue, hwaits⟩ := p.finishAppend_places (.line n owner f)
  obtain ⟨hnew, -⟩ := silent_of_waiting hwaits h.waits
  have honce := h.once
  rw [List.map_nil, List.append_nil] at honce
  have hunique := lineRecords_written honce first hnew
  have hmem : .filled (.line n owner f) ∈ p.tj.queue := by
    obtain ⟨before, after, hq, -⟩ := firstRecord_split first
    rw [hq]
    exact List.mem_append_right _ List.mem_cons_self
  obtain ⟨o, ho, hon, -, hf⟩ := h.records (.line n owner f) (List.mem_append_left _ hmem) rfl
  obtain ⟨before, after, hsplit, hne, -, hchanged⟩ := (hb.lines o ho).split hf
  have hlines : (o.withLineState f.index .active).lines = before ++ ⟨f, .active⟩ :: after := hchanged _
  have hactive : (o.withLineState f.index .active).activeLines = o.activeLines := by
    rw [Order.activeLines_eq, hlines, Order.activeLines_eq, hsplit, activeOf_append, activeOf_append,
      activeOf_cons (l := ⟨f, .active⟩) nofun, activeOf_cons (l := ⟨f, .pending⟩) nofun]
  have honly : ∀ x ∈ (p.finishAppend (.line n owner f)).om.orders, x.number = n → x = o := fun x hx hn =>
    order_eq_of_mem hb.distinct (by simpa using hx) ho (hn.trans hon.symm)
  refine hfinished.updated (n := n) (f := fun x => x.withLineState f.index .active) (Part.updateOrder_orders _ _ _)
    (fun x hx hn hs => ?_) (fun r hr _ => .inr ⟨hr, fun x hx hn ha => ?_⟩) hfinished.once hfinished.waits
  · obtain rfl := honly x hx hn
    refine ⟨?_, fun k r hs' hr => ?_⟩
    · rw [hactive]
      exact hs.total
    · have hpending := (hasPending_iff x).2 ⟨_, hf, rfl⟩
      rw [hs.settled k r hs' hr] at hpending
      cases hpending
  · obtain rfl := honly x hx hn
    cases r with
    | line m w g =>
      obtain ⟨hm, hw, hg⟩ := ha
      have hr' : Place.filled (.line m w g) ∈ dropFirstRecord p.tj.queue ++ new.map .filled := by
        rw [← hqueue]
        simpa using hr
      have hindex : g.index ≠ f.index := fun e => hunique (by
        have := mem_lineRecords hr'
        rwa [e, ← hm, hn] at this)
      refine ⟨hm, hw, ?_⟩
      rw [hlines]
      rw [hsplit] at hg
      rcases List.mem_append.1 hg with hg | hg
      · exact List.mem_append_left _ hg
      · rcases List.mem_cons.1 hg with he | hg
        · exact absurd (congrArg (fun l : Line => l.fields.index) he) hindex
        · exact List.mem_append_right _ (List.mem_cons_of_mem _ hg)
    | close =>
      obtain ⟨h1, h2, h3, h4, h5, h6⟩ := ha
      exact ⟨h1, h2, h3, by rw [hactive]; exact h4, h5, h6⟩
    | voidOrder => exact ha
    | _ => exact ha.elim

/-- A record that tells of no order takes a place or waits. -/
theorem Part.Prices.queueOrWait (h : p.Prices []) {r : Record} (silent : r.mayWait = true) : (p.queueOrWait r).Prices [] := by
  obtain ⟨htells, hline, -⟩ := mayWait_silent silent
  rcases p.queueOrWait_places r with ⟨hqueue, -, hnone⟩ | ⟨hqueue, hwaits⟩
  · refine h.queued (by simp) (fun x hx ht => ?_) ?_ (by rw [hnone]; exact nofun)
    · rw [hqueue, List.map_nil, List.append_nil] at hx
      rw [List.map_nil, List.append_nil]
      rcases List.mem_append.1 hx with hx | hx
      · exact hx
      · cases List.mem_singleton.1 hx
        rw [htells] at ht
        cases ht
    · have hnone := lineRecords_silent (rs := [r]) fun x hx => List.mem_singleton.1 hx ▸ hline
      have honce := h.once
      rw [List.map_nil, List.append_nil] at honce ⊢
      rwa [hqueue, lineRecords_append, show [Place.filled r] = [r].map .filled from rfl, hnone, List.append_nil]
  · refine h.queued (by simp) (by rw [hqueue]; exact fun _ hx _ => hx) (by rw [hqueue]; exact h.once) fun x hx => ?_
    rw [hwaits] at hx
    cases hx
    exact silent

/-- A place that tells of no order is taken. -/
theorem Part.Prices.takePlace (h : p.Prices []) {x : Place} (silent : ∀ r, x = .filled r → r.tells = false)
    (line : x.line? = none) : (p.takePlace x).Prices [] := by
  have hqueue : (p.takePlace x).tj.queue = p.tj.queue ++ [x] := rfl
  refine h.queued rfl (fun r hr ht => ?_) ?_ h.waits
  · rw [hqueue, List.map_nil, List.append_nil] at hr
    rw [List.map_nil, List.append_nil]
    rcases List.mem_append.1 hr with hr | hr
    · exact hr
    · rw [silent r (List.mem_singleton.1 hr).symm] at ht
      cases ht
  · have honce := h.once
    have hnone : lineRecords [x] = [] := List.filterMap_eq_nil_iff.2 fun y hy => List.mem_singleton.1 hy ▸ line
    rw [List.map_nil, List.append_nil] at honce ⊢
    rwa [hqueue, lineRecords_append, hnone, List.append_nil]

/-! ## Requests -/

theorem Part.Prices.lineAdded (h : p.Prices []) (hb : p.Binds []) {st : StationNo} {o : Order} {f : LineFields} {a : Article}
    (active : p.activeOrder st = some o) (index : f.index = o.lastIndex + 1) : (p.addLine o f a).Prices [] := by
  obtain ⟨hst, order⟩ := Part.activeOrder_some active
  have hmem := order_mem order
  have hopened := (hb.bound st o.number).1 hst
  have hstate : o.state = .opened st := by
    obtain ⟨x, hx, hxn, hxs⟩ := hopened
    rwa [order_eq_of_mem hb.distinct hx hmem hxn] at hxs
  have hunclosed := hb.unclosed hopened fun _ _ => nofun
  obtain ⟨hqueue, hwaits⟩ := p.addLine_queue o f a
  have horders := (congrArg OrderManager.orders (p.addLine_om o f a)).trans (Part.updateOrder_orders _ _ _)
  have honly : ∀ x ∈ p.om.orders, x.number = o.number → x = o := fun x hx hn => order_eq_of_mem hb.distinct hx hmem hn
  refine h.updated (f := fun x => x.withLine f) horders (fun x hx hn hs => ?_) (fun r hr ht => ?_) ?_ (by rw [hwaits]; exact h.waits)
  · obtain rfl := honly x hx hn
    exact hs.withLine (fun k r e => nomatch hstate.symm.trans e) f
  · rw [hqueue, List.map_nil, List.append_nil] at hr
    rcases List.mem_append.1 hr with hold | hnew
    · refine .inr ⟨List.mem_append_left _ hold, fun x hx hn ha => ?_⟩
      obtain rfl := honly x hx hn
      exact agrees_of_unclosed (x := x.withLine f) hunclosed rfl rfl (List.mem_append_left _ hold)
        (fun _ _ _ hg => List.mem_append_left _ hg) ha
    · cases List.mem_singleton.1 hnew
      exact .inl ⟨o.withLine f, (mem_orders_update (f := fun x => x.withLine f) horders).2 (.inr ⟨o, hmem, rfl, rfl⟩), rfl, rfl,
        List.mem_append_right _ List.mem_cons_self⟩
  · have honce := h.once
    rw [List.map_nil, List.append_nil] at honce ⊢
    rw [hqueue, lineRecords_append, show lineRecords [.filled (.line o.number o.owner f)] = [(o.number, f.index)] from rfl]
    refine (List.perm_append_singleton _ _).nodup_iff.2 (List.nodup_cons.2 ⟨fun hm => ?_, honce⟩)
    obtain ⟨x, hx, hline⟩ := List.mem_filterMap.1 hm
    cases x with
    | held => cases hline
    | filled r =>
      cases r with
      | line n w g =>
        simp only [Place.line?, Option.some.injEq, Prod.mk.injEq] at hline
        obtain ⟨rfl, hg⟩ := hline
        obtain ⟨y, hy, hyn, -, hyl⟩ := h.records _ (List.mem_append_left _ hx) rfl
        obtain rfl := honly y hy hyn
        have := y.index_le_last _ hyl
        simp only at this
        omega
      | _ => cases hline

theorem Part.Prices.lineVoided (h : p.Prices []) (hb : p.Binds []) {st : StationNo} {o : Order} {i : Nat} {f : LineFields}
    (active : p.activeOrder st = some o) (line : o.line i = some ⟨f, .active⟩) :
    (p.updateOrder o.number (fun x => { x.withLineState i .voided with total := x.total - f.linePrice })).Prices [] := by
  obtain ⟨hst, order⟩ := Part.activeOrder_some active
  have hmem := order_mem order
  have hopened := (hb.bound st o.number).1 hst
  have hstate : o.state = .opened st := by
    obtain ⟨x, hx, hxn, hxs⟩ := hopened
    rwa [order_eq_of_mem hb.distinct hx hmem hxn] at hxs
  have hunclosed := hb.unclosed hopened fun _ _ => nofun
  have honly : ∀ x ∈ p.om.orders, x.number = o.number → x = o := fun x hx hn => order_eq_of_mem hb.distinct hx hmem hn
  have hindex : f.index = i := lookup_key (key := fun l : Line => l.fields.index) line
  obtain ⟨before, after, hsplit, -, -, hchanged⟩ := (hb.lines o hmem).split (lookup_mem line)
  have hlines : (o.withLineState i .voided).lines = before ++ ⟨f, .voided⟩ :: after := by
    rw [← hindex]
    exact hchanged _
  refine h.updated (f := fun x => { x.withLineState i .voided with total := x.total - f.linePrice })
    (Part.updateOrder_orders _ _ _) (fun x hx hn hs => ?_) (fun r hr _ => .inr ⟨hr, fun x hx hn ha => ?_⟩) h.once h.waits
  · obtain rfl := honly x hx hn
    refine ⟨?_, fun k r e => nomatch hstate.symm.trans e⟩
    show x.total - f.linePrice = ((activeOf (x.withLineState i .voided).lines).map LineFields.linePrice).sum
    rw [hlines, activeOf_append, activeOf_cons_voided, ← activeOf_append]
    exact hs.total_split hsplit nofun
  · obtain rfl := honly x hx hn
    refine agrees_of_unclosed (x := { x.withLineState i .voided with total := x.total - f.linePrice }) hunclosed rfl rfl hr
      (fun w g _ hg => ?_) ha
    show (⟨g, .pending⟩ : Line) ∈ (x.withLineState i .voided).lines
    rw [hlines]
    rw [hsplit] at hg
    rcases List.mem_append.1 hg with hg | hg
    · exact List.mem_append_left _ hg
    · exact List.mem_append_right _ (List.mem_cons_of_mem _ ((List.mem_cons.1 hg).resolve_left nofun))

theorem Part.Prices.totalLabelled (h : p.Prices []) (hb : p.Binds []) {st : StationNo} {o : Order}
    (active : p.activeOrder st = some o) (mode : makesTotal o.labelMode = true) : (p.makeTotalLabel st o).Prices [] := by
  obtain ⟨hst, order⟩ := Part.activeOrder_some active
  have hunclosed := hb.unclosed ((hb.bound st o.number).1 hst) fun _ _ => nofun
  have horders := (congrArg OrderManager.orders (p.makeTotalLabel_updates st o mode)).trans (Part.updateOrder_orders _ _ _)
  have htj : (p.makeTotalLabel st o).tj = p.tj := by simp
  refine h.updated (f := fun x => { x with totalLabel := some p.lu.nextLabel }) horders (fun x _ _ hs => ⟨hs.total, hs.settled⟩)
    (fun r hr _ => .inr ⟨by rwa [htj] at hr, fun x hx hn ha => ?_⟩) (by rw [htj]; exact h.once) (by rw [htj]; exact h.waits)
  rw [htj] at hr
  obtain rfl := order_eq_of_mem hb.distinct hx (order_mem order) hn
  exact agrees_of_unclosed (x := { x with totalLabel := some p.lu.nextLabel }) hunclosed rfl rfl hr (fun _ _ _ hg => hg) ha

/-- An order without active lines leaves OPEN or PARKED: no record tells of it. -/
theorem Part.Prices.orderFreed (h : p.Prices []) (hb : p.Binds []) {o : Order} (order : p.order o.number = some o)
    (standing : p.standing o) (empty : o.activeLines = []) : ((p.freeOrder o.number).endNoSale o.ticket).Prices [] := by
  obtain ⟨s, hstate, -, haway⟩ := hb.standing order standing
  have hunclosed := hb.unclosed hstate haway
  have htj : ((p.freeOrder o.number).endNoSale o.ticket).tj = p.tj := by simp
  have hpending : o.hasPending = false := Bool.eq_false_iff.2 fun hp => by
    obtain ⟨l, hl, hls⟩ := (hasPending_iff o).1 hp
    have hmem : l.fields ∈ o.activeLines := Order.pending_active (by rw [← hls]; exact hl)
    rw [empty] at hmem
    cases hmem
  refine h.freed (n := o.number) ?_ (by rw [htj]; exact fun _ hr _ => hr) (fun r hr x hx hn => ?_) (by rw [htj]; exact h.once)
    (by rw [htj]; exact h.waits)
  · rw [(Part.endNoSale_frame _ _).2.2.2.2.2.2.1, Part.freeOrder_om]
  · rw [htj] at hr
    obtain rfl := order_eq_of_mem hb.distinct hx (order_mem order) hn
    exact untold_of_unclosed hunclosed hpending hr

theorem Part.Prices.opened (h : p.Prices []) {st : StationNo} {operator : Nat} (slot : p.om.pool.any Option.isNone = true) :
    (p.openOrder st operator).Prices [] := by
  have horders : (p.openOrder st operator).om.orders.Perm (p.newOrder st operator :: p.om.orders) := by
    rw [p.openOrder_om]
    exact orders_placed slot
  have htj : (p.openOrder st operator).tj = p.tj := by simp
  refine ⟨fun o ho => ?_, fun r hr ht => ?_, by rw [htj]; exact h.once, by rw [htj]; exact h.waits⟩
  · rcases List.mem_cons.1 (horders.mem_iff.1 ho) with rfl | ho
    · exact ⟨rfl, nofun⟩
    · exact h.sound o ho
  · rw [htj] at hr
    obtain ⟨o, ho, ha⟩ := h.records r hr ht
    exact ⟨o, horders.mem_iff.2 (List.mem_cons_of_mem _ ho), ha⟩

end

/-! ## The moves -/

theorem prices_move {c : Instr} {k : Nat} {p q : Part} (m : Move c k p q) (hb : p.Binds []) (h : p.Prices []) :
    q.Prices [] := by
  have hawayed : ∀ {s : OrderState}, (∀ k r, s ≠ .closing k r) → ∀ {n : Nat}, ∀ o ∈ p.om.orders, o.number = n →
      ∀ kind r, s = .closing kind r → r ≠ .waiting → o.hasPending = false := fun haway _ _ _ _ k r e => absurd e (haway k r)
  cases m with
  | quiet seen =>
    exact h.of_eq (congrArg (fun x => x.om.orders) seen) (congrArg Seen.queue seen) (congrArg Seen.waits seen)
  | reset => exact ⟨nofun, nofun, .nil, nofun⟩
  | changeApplied base es => exact (h.queueOrWait (r := p.applyRecord es) rfl).of_eq rfl rfl rfl
  | orderOpened st operator trading free slot => exact h.opened slot
  | lineAdded st o f a command trading active room index => exact h.lineAdded hb active index
  | orderParked st o => exact h.restated (s := .parked) (Part.updateOrder_orders _ _ _) (hawayed (s := .parked) nofun) rfl rfl
  | orderResumed st n o =>
    exact h.restated (s := .opened st) (filterMap_updatePool_some n _ p.om.pool) (hawayed (s := .opened st) nofun)
      rfl rfl
  | orderFreed o order standing empty => exact h.orderFreed hb order standing empty
  | totalLabelled st o command running active mode => exact h.totalLabelled hb active mode
  | closingBegun o kind =>
    have hrestated : ((p.setClosing o.number kind .waiting).unbind o.number).Prices [] :=
      h.restated (s := .closing kind .waiting) (Part.setClosing_orders _ _ _) (fun _ _ _ _ _ e hr => by cases e; exact absurd rfl hr)
        rfl rfl
    exact hrestated.takePlace nofun rfl
  | closingSettled n => exact h.settleClosing hb n
  | lineVoided st o index f active line => exact h.lineVoided hb active line
  | recordQueued r plain =>
    exact h.takePlace (fun x hx => by cases hx; exact (plain_silent plain).1) (plain_silent plain).2
  | storedQueued g => exact (h.queueOrWait (r := .priceStored g) rfl).of_eq rfl rfl rfl
  | dayCloseBegun d =>
    exact (h.takePlace (x := .filled (.dayClose d)) (fun x hx => by cases hx; rfl) rfl).of_eq rfl rfl rfl
  | lineWritten n owner f first => exact h.lineWritten hb first
  | closeWritten n owner ticket count total label wait first =>
    exact h.closed hb first rfl (by simp) (((p.finishAppend _).closeWritten_om n owner total label).imp And.right id)
  | voidWritten n owner ticket value first =>
    exact h.closed hb first rfl (by simp) (((p.finishAppend _).voidOrderWritten_om n owner value).imp And.right id)
  | plainWritten r => exact h.finishAppend r
  | switched g es time command first => exact (h.finishAppend (.priceApply g es time)).of_eq (by simp) (by simp) (by simp)
  | faultEntered => exact h.enterFault hb
  | _ => exact h.of_eq (by simp) (by simp) (by simp)

theorem prices_endScan {p : Part} {x : List Nat} (h : p.Prices []) : (p.endScan x).Prices [] :=
  h.of_eq (by simp [OrderManager.orders]) (by simp) (by simp)

/-- The laws, the binding of orders and the price law, which every step keeps together. -/
structure Part.Pricing (p : Part) : Prop where
  inv : p.Inv
  bound : p.Bound
  prices : p.Prices []

theorem pricing_move {c : Instr} {k : Nat} {p q : Part} (m : Move c k p q) (h : p.Pricing) : q.Pricing :=
  ⟨inv_move m h.inv, bound_move m h.inv h.bound, prices_move m ((Part.binds_iff _).2 h.bound) h.prices⟩

theorem pricing_endScan {p : Part} {x : List Nat} (h : p.Pricing) : (p.endScan x).Pricing :=
  ⟨h.inv.endScan, bound_endScan h.bound, prices_endScan h.prices⟩

end Sys2Proof.Machine
end


-- ==== Sys2Proof/Proofs/BalancedTotals.lean ====
section
/-! The breakdowns of the day accumulators, each at the sum of the day's sales value, and the departments of the lines that can
still join them, at every step but the end of the start-up scan (R173, R175; O57). -/

namespace Sys2Proof.Machine

/-! ## Sums over the breakdowns -/

/-- The value of the article map with OTHER. -/
def Accumulators.articleSum (a : Accumulators) : Nat := (a.articles.map (fun e => e.figures.value)).sum + a.other.value

/-- The value of the departments. -/
def Accumulators.departmentSum (a : Accumulators) : Nat := (a.departments.map LineFigures.value).sum

/-- The value of the clerk entries with OTHER CLERKS. -/
def Accumulators.clerkSum (a : Accumulators) : Nat := (a.clerks.map (fun e => e.figures.value)).sum + a.otherClerks.value

/-- The value of the stations. -/
def Accumulators.stationSum (a : Accumulators) : Nat := (a.stations.toList.map LineFigures.value).sum

/-- The sum over a list whose entry of a key is replaced, or that gains one. -/
theorem sum_insertByKey {α : Type} {key value : α → Nat} {x : α} {l : List α} (h : (l.map key).Pairwise (· < ·)) (y : Nat)
    (hx : value x = ((lookup key (key x) l).map value).getD 0 + y) :
    ((insertByKey key x l).map value).sum = (l.map value).sum + y := by
  obtain ⟨before, behind, hinsert, ⟨hl, hfind⟩ | ⟨z, -, hl, hfind⟩⟩ := insertByKey_split (x := x) h
  all_goals
    rw [hfind] at hx
    simp only [Option.map_none, Option.map_some, Option.getD_none, Option.getD_some] at hx
    rw [hinsert, hl]
    simp only [List.map_append, List.map_cons, List.sum_append, List.sum_cons]
    omega

theorem sum_modify {l : List LineFigures} {i : Nat} (h : i < l.length) (f : LineFields) :
    ((l.modify i (fun x => x.add f)).map LineFigures.value).sum = (l.map LineFigures.value).sum + f.linePrice := by
  induction l generalizing i with
  | nil => cases h
  | cons x xs ih =>
    cases i with
    | zero =>
      simp only [List.modify_zero_cons, List.map_cons, List.sum_cons, LineFigures.add]
      omega
    | succ i =>
      rw [List.modify_succ_cons, List.map_cons, List.sum_cons, ih (Nat.lt_of_succ_lt_succ h), List.map_cons, List.sum_cons]
      omega

theorem addArticle_sum {a : Accumulators} (h : a.Kept) (f : LineFields) :
    (a.addArticle f).articleSum = a.articleSum + f.linePrice := by
  unfold Accumulators.articleSum
  rcases a.addArticle_cases f with ⟨e, hl, he⟩ | ⟨hl, -, he⟩ | ⟨-, -, he⟩ <;> rw [he]
  · have := sum_insertByKey (key := ArticleEntry.article) (value := fun e => e.figures.value)
      (x := ⟨f.article, e.figures.add f⟩) h.articles f.linePrice (by rw [hl]; rfl)
    dsimp only
    omega
  · have := sum_insertByKey (key := ArticleEntry.article) (value := fun e => e.figures.value)
      (x := ⟨f.article, ArticleFigures.add ⟨0, 0, 0, 0⟩ f⟩) h.articles f.linePrice (by rw [hl]; rfl)
    dsimp only
    omega
  · simp only [ArticleFigures.add]
    omega

theorem onClerk_sum {a : Accumulators} (h : a.Kept) (owner v : Nat) {g : ClerkFigures → ClerkFigures}
    (hg : ∀ f, (g f).value = f.value + v) : (a.onClerk owner g).clerkSum = a.clerkSum + v := by
  unfold Accumulators.clerkSum
  rcases a.onClerk_cases owner g with ⟨e, hl, he⟩ | ⟨hl, -, he⟩ | ⟨-, -, he⟩ <;> rw [he]
  · have := sum_insertByKey (key := ClerkEntry.clerk) (value := fun e => e.figures.value) (x := ⟨owner, g e.figures⟩) h.clerks v
      (by rw [hl]; exact hg _)
    dsimp only
    omega
  · have := sum_insertByKey (key := ClerkEntry.clerk) (value := fun e => e.figures.value) (x := ⟨owner, g ⟨0, 0, 0, 0⟩⟩)
      h.clerks v (by rw [hl]; exact hg _)
    dsimp only
    omega
  · rw [show (g a.otherClerks).value = a.otherClerks.value + v from hg _]
    dsimp only
    omega

/-- What lines add to the breakdowns: each its price to one article, one department and one station. -/
structure Accumulators.Sold (a b : Accumulators) (v : Nat) : Prop where
  kept : b.Kept
  articles : b.articleSum = a.articleSum + v
  departments : b.departments.length = a.departments.length ∧ b.departmentSum = a.departmentSum + v
  clerks : b.clerkSum = a.clerkSum
  stations : b.stationSum = a.stationSum + v
  value : b.counter.value = a.counter.value

theorem addLine_sold {a : Accumulators} (h : a.Kept) {f : LineFields} (department : departmentOk f.department)
    (length : a.departments.length = 16) : a.Sold (a.addLine f) f.linePrice := by
  have hother : (a.addArticle f).departments = a.departments ∧ (a.addArticle f).stations = a.stations
      ∧ (a.addArticle f).clerkSum = a.clerkSum ∧ (a.addArticle f).counter = a.counter := by
    rcases a.addArticle_cases f with ⟨e, -, he⟩ | ⟨-, -, he⟩ | ⟨-, -, he⟩ <;> rw [he] <;> exact ⟨rfl, rfl, rfl, rfl⟩
  obtain ⟨hdepartments, hstations, hclerks, hcounter⟩ := hother
  refine ⟨Accumulators.addLine_kept h f, addArticle_sum h f, ⟨?_, ?_⟩, hclerks, ?_, ?_⟩
  · simp [Accumulators.addLine, hdepartments]
  · show (((a.addArticle f).departments.modify (f.department - 1) (fun x => x.add f)).map LineFigures.value).sum = _
    rw [hdepartments, sum_modify (by have := department.2; have := department.1; omega)]
    rfl
  · show (((a.addArticle f).stations.set f.station (((a.addArticle f).stations.get f.station).add f)).toList.map
      LineFigures.value).sum = _
    rw [hstations]
    obtain ⟨before, after, hv, hset⟩ := a.stations.toList_split f.station
    unfold Accumulators.stationSum
    rw [hset, hv]
    simp only [List.map_append, List.map_cons, List.sum_append, List.sum_cons, LineFigures.add]
    omega
  · simp only [Accumulators.addLine, hcounter, CounterFigures.addOverride]
    split <;> rfl

theorem addLines_sold {a : Accumulators} (h : a.Kept) {fs : List LineFields} (department : ∀ f ∈ fs, departmentOk f.department)
    (length : a.departments.length = 16) :
    a.Sold (fs.foldl Accumulators.addLine a) ((fs.map LineFields.linePrice).sum) := by
  induction fs generalizing a with
  | nil => exact ⟨h, rfl, ⟨rfl, rfl⟩, rfl, rfl, rfl⟩
  | cons f fs ih =>
    obtain ⟨hf, hfs⟩ := List.forall_mem_cons.1 department
    have hfirst := addLine_sold h hf length
    have hrest := ih hfirst.kept hfs (hfirst.departments.1.trans length)
    rw [List.map_cons, List.sum_cons]
    refine ⟨hrest.kept, ?_, ⟨hrest.departments.1.trans hfirst.departments.1, ?_⟩, hrest.clerks.trans hfirst.clerks, ?_,
      hrest.value.trans hfirst.value⟩
    · have := hfirst.articles
      have := hrest.articles
      rw [List.foldl]
      omega
    · have := hfirst.departments.2
      have := hrest.departments.2
      rw [List.foldl]
      omega
    · have := hfirst.stations
      have := hrest.stations
      rw [List.foldl]
      omega

/-- An order's total is charged to its owner and to the counter: with its lines, every breakdown rises by it. -/
theorem onClerk_balanced {a b : Accumulators} {v : Nat} (h : a.Sold b v) (hb : a.Balanced) {owner : Nat}
    {g : ClerkFigures → ClerkFigures} (hg : ∀ f, (g f).value = f.value + v) {counter : CounterFigures}
    (value : counter.value = b.counter.value + v) : ({ b.onClerk owner g with counter := counter } : Accumulators).Balanced := by
  have hclerk := onClerk_sum h.kept owner v hg
  rw [b.onClerk_rest owner g] at hclerk ⊢
  obtain ⟨-, harticles, ⟨hlength, hdepartments⟩, hclerks, hstations, hvalue⟩ := h
  have ha := hb.articles
  have hd := hb.departments
  have hc := hb.clerks
  have hs := hb.stations
  refine ⟨?_, ⟨hlength.trans hd.1, ?_⟩, ?_, ?_⟩
  · show b.articleSum = counter.value
    rw [harticles, value, hvalue, ← ha]
    rfl
  · show b.departmentSum = counter.value
    rw [hdepartments, value, hvalue, ← hd.2]
    rfl
  · refine Eq.trans hclerk ?_
    rw [hclerks, value, hvalue, ← hc]
    rfl
  · show b.stationSum = counter.value
    rw [hstations, value, hvalue, ← hs]
    rfl

theorem addClose_balanced {a : Accumulators} (h : a.Kept) (hb : a.Balanced) {owner total : Nat} {label : Option Nat}
    {active voided : List LineFields} (department : ∀ f ∈ active, departmentOk f.department)
    (sum : total = (active.map LineFields.linePrice).sum) : (a.addClose owner total label active voided).Balanced := by
  have hsold := addLines_sold h department hb.departments.1
  rw [← sum] at hsold
  unfold Accumulators.addClose
  rw [Accumulators.addVoideds]
  have hvoided : a.Sold { active.foldl Accumulators.addLine a with counter :=
      { (active.foldl Accumulators.addLine a).counter with
        voidedLines := (active.foldl Accumulators.addLine a).counter.voidedLines + voided.length
        voidedLineValue := (active.foldl Accumulators.addLine a).counter.voidedLineValue
          + (voided.map LineFields.linePrice).sum } } total :=
    ⟨hsold.kept.of_eq rfl rfl, hsold.articles, hsold.departments, hsold.clerks, hsold.stations, hsold.value⟩
  refine onClerk_balanced hvoided hb (fun _ => rfl) ?_
  rw [Accumulators.onClerk_rest]

theorem addVoidOrder_balanced {a : Accumulators} (h : a.Kept) (hb : a.Balanced) (owner value : Nat) :
    (a.addVoidOrder owner value).Balanced := by
  have hsold : a.Sold a 0 := ⟨h, rfl, ⟨rfl, rfl⟩, rfl, rfl, rfl⟩
  refine onClerk_balanced hsold hb
    (g := fun f => { f with voidOrders := f.voidOrders + 1, voidValue := f.voidValue + value }) (fun _ => rfl) ?_
  rw [Accumulators.onClerk_rest]
  rfl

theorem zero_balanced : Accumulators.zero.Balanced := ⟨rfl, ⟨rfl, rfl⟩, rfl, rfl⟩

/-! ## The departments -/

/-- The departments of the articles, lines and entries that can still join the accumulators. -/
structure Part.Departments (p : Part) : Prop where
  lines : ∀ o ∈ p.om.orders, ∀ l ∈ o.lines, departmentOk l.fields.department
  table : ∀ a ∈ p.art.table, departmentOk a.department
  changes : ∀ base es, p.art.changeSet.content = some (base, es) → departmentsOk es
  applies : ∀ x ∈ p.queuedApplies, departmentsOk x.2

theorem mem_queuedApplies {p : Part} {g : Nat} {es : List ChangeEntry} : (g, es) ∈ p.queuedApplies ↔ ∃ t,
    .filled (.priceApply g es t) ∈ p.tj.queue ∨ p.tj.waiting = some (.priceApply g es t) := by
  unfold Part.queuedApplies
  rw [List.mem_filterMap]
  constructor
  · rintro ⟨r, hr, he⟩
    cases r with
    | priceApply g' es' t =>
      cases he
      exact ⟨t, (List.mem_append.1 hr).imp mem_filledRecords.1 Option.mem_toList.1⟩
    | _ => cases he
  · rintro ⟨t, ht⟩
    exact ⟨.priceApply g es t, List.mem_append.2 (ht.imp mem_filledRecords.2 Option.mem_toList.2), rfl⟩

theorem Part.balanced_iff (p : Part) : p.Balanced ↔ p.tt.accumulators.Balanced ∧ p.Departments := by
  constructor
  · intro h
    refine ⟨h.sums, h.lines, h.table, h.changes, fun x hx => ?_⟩
    obtain ⟨t, ht⟩ := mem_queuedApplies.1 (show (x.1, x.2) ∈ p.queuedApplies from hx)
    exact h.applies x.1 x.2 t ht
  · rintro ⟨hsums, h⟩
    exact ⟨hsums, h.lines, h.table, h.changes, fun g es t ht => h.applies (g, es) (mem_queuedApplies.2 ⟨t, ht⟩)⟩

/-- Every line of an order is of a department of 1..16. -/
def Order.DepartmentsOk (o : Order) : Prop := ∀ l ∈ o.lines, departmentOk l.fields.department

section
variable {p q : Part}

theorem lines_updated {n : Nat} {f : Order → Order} (h : ∀ o ∈ p.om.orders, o.DepartmentsOk)
    (orders : q.om.orders = p.om.orders.map (fun o => if o.number = n then f o else o))
    (kept : ∀ o ∈ p.om.orders, o.DepartmentsOk → (f o).DepartmentsOk) : ∀ o ∈ q.om.orders, o.DepartmentsOk := fun x hx => by
  rcases (mem_orders_update orders).1 hx with ⟨hx, -⟩ | ⟨o, ho, -, rfl⟩
  · exact h x hx
  · exact kept o ho (h o ho)

theorem lines_without {n : Nat} (h : ∀ o ∈ p.om.orders, o.DepartmentsOk) (om : q.om = p.om.without n) :
    ∀ o ∈ q.om.orders, o.DepartmentsOk := fun x hx => by
  rw [om, OrderManager.without_orders] at hx
  exact h x (List.mem_filter.1 hx).1

theorem DepartmentsOk_withLineState {o : Order} (h : o.DepartmentsOk) (i : Nat) (s : LineState) :
    (o.withLineState i s).DepartmentsOk := fun l hl => by
  rcases mem_changeFirst hl with hl | ⟨x, hx, rfl⟩
  · exact h l hl
  · exact h x (List.mem_of_find?_eq_some hx)

theorem lines_settled (n : Nat) (h : ∀ o ∈ p.om.orders, o.DepartmentsOk) :
    ∀ o ∈ (p.settleClosing n).om.orders, o.DepartmentsOk := Part.settleClosing_all n h fun _ _ ho => ho

theorem lines_recordFailed (r : Record) (h : ∀ o ∈ p.om.orders, o.DepartmentsOk) :
    ∀ o ∈ (p.recordFailed r).om.orders, o.DepartmentsOk := by
  have hclosing : ∀ n k, ∀ o ∈ (p.closingFailed n k).om.orders, o.DepartmentsOk := fun n k => by
    unfold Part.closingFailed
    split
    · exact h
    · rename_i o _
      have horders := (congrArg OrderManager.orders (p.failClosing_om o k).1).trans (Part.setClosing_orders _ _ _)
      exact lines_updated h horders fun _ _ ho => ho
  cases r with
  | line n owner f =>
    have horders := (congrArg OrderManager.orders (p.lineLost_parts n f).1).trans (Part.updateOrder_orders _ _ _)
    exact lines_settled n (lines_updated (f := fun o => o.withoutLine f) h horders fun _ _ ho l hl =>
      ho l ((sublist_removeFirst _ _).subset hl))
  | close n => exact hclosing n .sale
  | voidOrder n => exact hclosing n .void
  | priceApply =>
    simp only [Part.recordFailed, Part.failApply]
    split <;> exact h
  | priceStored =>
    simp only [Part.recordFailed, Part.failStore]
    split <;> exact h
  | _ => exact h

theorem lines_opened {st : StationNo} {operator : Nat} (h : ∀ o ∈ p.om.orders, o.DepartmentsOk)
    (slot : p.om.pool.any Option.isNone = true) : ∀ o ∈ (p.openOrder st operator).om.orders, o.DepartmentsOk := fun x hx => by
  rw [p.openOrder_om] at hx
  rcases List.mem_cons.1 ((orders_placed slot).mem_iff.1 hx) with rfl | hx
  · exact nofun
  · exact h x hx

/-- Every move keeps the departments of the lines. -/
theorem lines_move {c : Instr} {k : Nat} (m : Move c k p q) (h : ∀ o ∈ p.om.orders, o.DepartmentsOk)
    (table : ∀ a ∈ p.art.table, departmentOk a.department) : ∀ o ∈ q.om.orders, o.DepartmentsOk := by
  have hsame : q.om.orders = p.om.orders → ∀ o ∈ q.om.orders, o.DepartmentsOk := fun e => by rw [e]; exact h
  have hfinished : ∀ r, ∀ o ∈ (p.finishAppend r).om.orders, o.DepartmentsOk := fun r => by simpa using h
  cases m with
  | quiet seen => exact hsame (congrArg (fun x => x.om.orders) seen)
  | reset => exact nofun
  | orderOpened st operator trading free slot => exact lines_opened h slot
  | lineAdded st o f a command trading active room index member department =>
    have horders := (congrArg OrderManager.orders (p.addLine_om o f a)).trans (Part.updateOrder_orders _ _ _)
    refine lines_updated (f := fun x => x.withLine f) h horders fun x _ hx l hl => ?_
    rcases List.mem_append.1 hl with hl | hl
    · exact hx l hl
    · rw [List.mem_singleton.1 hl, show (Line.mk f .pending).fields.department = a.department from department]
      exact table a member
  | orderParked st o => exact lines_updated h (Part.updateOrder_orders _ _ _) fun _ _ ho => ho
  | orderResumed st n o =>
    exact lines_updated (f := fun x => { x with state := .opened st }) h (filterMap_updatePool_some n _ p.om.pool)
      fun _ _ ho => ho
  | orderFreed o =>
    refine lines_without (n := o.number) h ?_
    rw [(Part.endNoSale_frame _ _).2.2.2.2.2.2.1, Part.freeOrder_om]
  | totalLabelled st o command running active mode =>
    have horders := (congrArg OrderManager.orders (p.makeTotalLabel_updates st o mode)).trans (Part.updateOrder_orders _ _ _)
    exact lines_updated (f := fun x => { x with totalLabel := some p.lu.nextLabel }) h horders fun _ _ ho => ho
  | closingBegun o kind => exact lines_updated h (Part.setClosing_orders _ _ _) fun _ _ ho => ho
  | closingSettled n => exact lines_settled n h
  | lineVoided st o i f =>
    exact lines_updated h (Part.updateOrder_orders _ _ _) fun _ _ ho => DepartmentsOk_withLineState ho i .voided
  | lineWritten n owner f =>
    exact lines_updated (hfinished _) (Part.updateOrder_orders _ _ _) fun _ _ ho => DepartmentsOk_withLineState ho _ _
  | closeWritten n owner ticket count total label =>
    rcases (p.finishAppend _).closeWritten_om n owner total label with ⟨-, he⟩ | hom
    · rw [he]
      exact hfinished _
    · exact lines_without (hfinished _) hom
  | voidWritten n owner ticket value =>
    rcases (p.finishAppend _).voidOrderWritten_om n owner value with ⟨-, he⟩ | hom
    · rw [he]
      exact hfinished _
    · exact lines_without (hfinished _) hom
  | faultEntered =>
    exact enterFault_keeps (P := fun r => ∀ o ∈ r.om.orders, o.DepartmentsOk) h (fun _ r hr => lines_recordFailed r hr)
      fun _ _ hr => hr
  | _ => exact hsame (by simp)

/-- Entries of the departments 1..16 leave the table with articles of these departments. -/
theorem table_applied {g : Nat} {es : List ChangeEntry} {table : List Article} (h : ∀ a ∈ table, departmentOk a.department)
    (entries : departmentsOk es) : ∀ a ∈ applyEntries g es table, departmentOk a.department := by
  induction es generalizing table with
  | nil => exact h
  | cons e es ih =>
    refine ih (table := applyEntry g table e) (fun a ha => ?_) fun a ha => entries a (List.mem_cons_of_mem _ ha)
    have hmark : ∀ n held, a ∈ changeFirst (fun a => a.number == n) (fun a => a.setHeld held g) table →
        departmentOk a.department := fun n held hm => by
      rcases mem_changeFirst hm with hm | ⟨x, hx, rfl⟩
      · exact h a hm
      · exact h x (List.mem_of_find?_eq_some hx)
    cases e with
    | put x =>
      rcases mem_insertByKey ha with rfl | ha
      · exact entries x List.mem_cons_self
      · exact h a ha
    | delete n => exact h a (List.mem_filter.1 ha).1
    | hold n => exact hmark n true ha
    | release n => exact hmark n false ha

/-- The entries of a change set are of the departments 1..16 where those of another of its content are. -/
theorem Part.Departments.of_eq (h : p.Departments) (lines : ∀ o ∈ q.om.orders, o.DepartmentsOk)
    (table : q.art.table = p.art.table) (changes : q.art.changeSet.content = p.art.changeSet.content)
    (applies : q.queuedApplies = p.queuedApplies) : q.Departments :=
  ⟨lines, by rw [table]; exact h.table, fun base es he => h.changes base es (changes ▸ he), by rw [applies]; exact h.applies⟩

/-- A change set replaced by one of the same entries or of none. -/
theorem Part.Departments.withChangeSet (h : p.Departments) {x : ChangeSet}
    (content : ∀ base es, x.content = some (base, es) → departmentsOk es) : (p.withChangeSet x).Departments :=
  ⟨h.lines, h.table, content, h.applies⟩

theorem departmentsOk_insert {es : List ChangeEntry} {e : ChangeEntry} (h : departmentsOk es)
    (put : ∀ a, e = .put a → departmentOk a.department) : departmentsOk (insertByKey ChangeEntry.number e es) := fun a ha => by
  rcases mem_insertByKey ha with he | ha
  · exact put a he.symm
  · exact h a ha

/-- A record of the write queue is written: its entries were of the departments 1..16. -/
theorem Part.Departments.finishAppend (h : p.Departments) {r : Record} (first : firstRecord p.tj.queue = some r) :
    (p.finishAppend r).Departments ∧ ∀ x, r.apply? = some x → departmentsOk x.2 := by
  have hqueue := Part.finishAppend_applies first
  refine ⟨⟨by simpa using h.lines, by simpa using h.table, by simpa using h.changes, fun x hx => h.applies x ?_⟩, fun x hx => ?_⟩
  · rw [hqueue]
    exact List.mem_append_right _ hx
  · refine h.applies x ?_
    rw [hqueue, hx]
    exact List.mem_append_left _ List.mem_cons_self

theorem Part.queueOrWait_mem {r : Record} {x : Nat × List ChangeEntry} (h : x ∈ (p.queueOrWait r).queuedApplies) :
    x ∈ p.queuedApplies ∨ r.apply? = some x := by
  unfold Part.queueOrWait at h
  split at h
  · simp only [Part.queuedApplies, Part.queueRecord_queue, filledRecords_append, filledRecords, List.filterMap_append,
      List.mem_append, List.mem_filterMap, List.mem_singleton] at h ⊢
    rcases h with (h | ⟨y, rfl, hy⟩) | h
    · exact .inl (.inl h)
    · exact .inr hy
    · exact .inl (.inr h)
  · simp only [Part.queuedApplies, List.filterMap_append, List.mem_append, List.mem_filterMap, Option.toList_some,
      List.mem_singleton] at h ⊢
    rcases h with h | ⟨y, rfl, hy⟩
    · exact .inl (.inl h)
    · exact .inr hy

theorem departments_move {c : Instr} {k : Nat} (m : Move c k p q) (h : p.Departments) : q.Departments := by
  have hlines := lines_move m h.lines h.table
  have happlied : ∀ {r : Record} {a : Part}, firstRecord p.tj.queue = some r → r.apply? = none →
      a.tj = (p.finishAppend r).tj → a.queuedApplies = p.queuedApplies := fun hfirst hr htj =>
    (Part.applies_of_eq (by rw [htj]) (by rw [htj])).trans (Part.finishAppend_applies_none hfirst hr)
  cases m with
  | quiet seen =>
    exact h.of_eq hlines (congrArg Seen.table seen) (congrArg (fun x => x.changeSet.content) seen)
      (Part.applies_of_eq (congrArg Seen.queue seen) (congrArg Seen.waits seen))
  | reset => exact ⟨nofun, nofun, nofun, nofun⟩
  | changeTouched base es last now opened =>
    exact h.withChangeSet fun b e he => h.changes b e (by rw [opened]; exact he)
  | changeBegun now =>
    refine h.withChangeSet fun b e he => ?_
    cases he
    exact nofun
  | staged base es last now e opened room put =>
    refine h.withChangeSet fun b e' he => ?_
    cases he
    exact departmentsOk_insert (h.changes base es (by rw [opened]; rfl)) fun a ha => (put a ha).2
  | changeDropped => exact h.withChangeSet nofun
  | changeScheduled base es last time opened =>
    exact h.withChangeSet fun b e he => h.changes b e (by rw [opened]; exact he)
  | changeReopened base es time now scheduled =>
    exact h.withChangeSet fun b e he => h.changes b e (by rw [scheduled]; exact he)
  | changeApplied base es time content =>
    have hes := h.changes base es content
    refine ⟨hlines, by simpa using h.table, fun b e he => ?_, fun x hx => ?_⟩
    · cases he
      exact hes
    · rcases Part.queueOrWait_mem (p := p) (r := p.applyRecord es) hx with hx | hx
      · exact h.applies x hx
      · cases hx
        exact hes
  | lineAdded st o f a =>
    have hq := p.addLine_queue o f a
    exact h.of_eq hlines (by simp) (by simp) ((Part.applies_of_eq (p := p.queueRecord (.line o.number o.owner f)) hq.1 hq.2).trans
      (Part.queueRecord_applies rfl))
  | closingBegun o kind =>
    exact h.of_eq hlines rfl rfl ((Part.takePlace_applies rfl).trans (Part.applies_of_eq rfl rfl))
  | closingSettled n => exact h.of_eq hlines (by simp) (by simp) (Part.settleClosing_applies n)
  | recordQueued r plain => exact h.of_eq hlines rfl rfl (Part.queueRecord_applies (Record.apply?_of_plain plain))
  | storedQueued g =>
    refine ⟨hlines, by simpa using h.table, by simpa using h.changes, fun x hx => ?_⟩
    rcases Part.queueOrWait_mem (p := p) (r := .priceStored g) hx with hx | hx
    · exact h.applies x hx
    · cases hx
  | dayCloseBegun d =>
    exact h.of_eq hlines rfl rfl ((Part.applies_of_eq rfl rfl).trans (Part.queueRecord_applies (p := p) (r := .dayClose d) rfl))
  | lineWritten n owner f first =>
    exact h.of_eq hlines (by simp) (by simp) (happlied first rfl (by simp))
  | closeWritten n owner ticket count total label wait first =>
    exact h.of_eq hlines (by simp) (by simp) (happlied first rfl (by simp))
  | voidWritten n owner ticket value first =>
    exact h.of_eq hlines (by simp) (by simp) (happlied first rfl (by simp))
  | plainWritten r plain first =>
    exact h.of_eq hlines (by simp) (by simp) (happlied first (Record.apply?_of_plain plain) rfl)
  | switched g es time command first =>
    obtain ⟨hfinished, hentries⟩ := h.finishAppend first
    refine ⟨hlines, ?_, by simp [ChangeSet.content], fun x hx => hfinished.applies x ?_⟩
    · simpa using table_applied (g := g) h.table (hentries (g, es) rfl)
    · rwa [Part.applies_of_eq (p := p.finishAppend (.priceApply g es time)) (by simp) (by simp)] at hx
  | faultEntered =>
    refine ⟨hlines, by rw [p.enterFault_failing.table]; exact h.table, by rw [p.enterFault_content]; exact h.changes, ?_⟩
    rw [p.enterFault_faulted.applies]
    exact nofun
  | _ => exact h.of_eq hlines (by simp) (by simp) (Part.applies_of_eq (by simp) (by simp))

/-! ## The accumulators -/

/-- A CLOSE record that is written adds an order's total, which is the sum of the prices of its lines. -/
theorem Part.Pricing.close_balanced (h : p.Pricing) (hd : p.Departments) (hb : p.tt.accumulators.Balanced)
    {n owner count total : Nat} {ticket label wait : Option Nat}
    (first : firstRecord p.tj.queue = some (.close n owner ticket count total label wait)) :
    ((p.finishAppend (.close n owner ticket count total label wait)).closeWritten n owner total
      label).tt.accumulators.Balanced := by
  rcases closeWritten_accumulators (p.finishAppend (.close n owner ticket count total label wait)) n owner total label with
    e | ⟨o, ho, e⟩ <;> rw [e]
  · simpa using hb
  · have hkept : p.tt.accumulators.Kept := ((Part.blocks_iff p).2 h.inv).accumulators
    have hmem : .filled (.close n owner ticket count total label wait) ∈ p.tj.queue := by
      obtain ⟨before, after, hq, -⟩ := firstRecord_split first
      rw [hq]
      exact List.mem_append_right _ List.mem_cons_self
    obtain ⟨x, hx, hxn, -, -, -, htotal, -⟩ := h.prices.records _ (List.mem_append_left _ hmem) rfl
    have ho' : o ∈ p.om.orders := by simpa using order_mem ho
    obtain rfl := order_eq_of_mem h.bound.distinct ho' hx ((Part.order_number ho).trans hxn.symm)
    have hdepartments : ∀ f ∈ o.activeLines, departmentOk f.department := fun f hf => by
      obtain ⟨l, hl, rfl⟩ := List.mem_map.1 hf
      exact hd.lines o hx l (List.mem_filter.1 hl).1
    have hbalanced := addClose_balanced (owner := owner) (label := label) (voided := o.voidedLines) hkept hb hdepartments
      (htotal.symm.trans (h.prices.sound o hx).total)
    simpa using hbalanced

theorem Part.Pricing.void_balanced (h : p.Pricing) (hb : p.tt.accumulators.Balanced) {r : Record} (n owner value : Nat) :
    ((p.finishAppend r).voidOrderWritten n owner value).tt.accumulators.Balanced := by
  rcases voidOrderWritten_accumulators (p.finishAppend r) n owner value with e | ⟨o, -, e⟩ <;> rw [e]
  · simpa using hb
  · have hkept : p.tt.accumulators.Kept := ((Part.blocks_iff p).2 h.inv).accumulators
    simpa using addVoidOrder_balanced hkept hb owner value

theorem balanced_move {c : Instr} {k : Nat} (m : Move c k p q) (h : p.Pricing) (hd : p.Departments)
    (hb : p.tt.accumulators.Balanced) : q.tt.accumulators.Balanced := by
  have hsame : q.tt.accumulators = p.tt.accumulators → q.tt.accumulators.Balanced := fun e => by rw [e]; exact hb
  cases m with
  | quiet seen => exact hsame (congrArg Seen.accumulators seen)
  | reset => exact zero_balanced
  | reprintCounted => exact ⟨hb.articles, hb.departments, hb.clerks, hb.stations⟩
  | dayEnded => exact zero_balanced
  | closeWritten n owner ticket count total label wait first => exact h.close_balanced hd hb first
  | voidWritten n owner ticket value => exact h.void_balanced hb n owner value
  | faultEntered => exact hsame p.enterFault_failing.accumulators
  | _ => exact hsame (by simp)

end

/-- The price law with the sums, which every step but the end of the start-up scan keeps together. -/
structure Part.Accounting (p : Part) : Prop where
  pricing : p.Pricing
  departments : p.Departments
  balanced : p.tt.accumulators.Balanced

/-- Settles O57: the records that FAULT has not reported yet tell of their orders still, and a CLOSE record adds the sum of the
prices of its lines to every breakdown. -/
theorem stepKeepsTotals : Obligations.StepKeepsTotals := by
  refine ⟨fun s t hinv hbound hpriced h => ?_, fun s t hinv hbound hpriced hbalanced hend h => ?_⟩
  · have hs : s.part.Pricing := ⟨hinv, hbound, (Part.prices_iff _).2 hpriced⟩
    exact (Part.prices_iff _).1 (step_keeps h hs pricing_move fun _ => pricing_endScan).prices
  · obtain ⟨hsums, hdepartments⟩ := (Part.balanced_iff _).1 hbalanced
    rcases step_cases h with ⟨c, hpath⟩ | ⟨x, hscan, -⟩
    · have ht : t.part.Accounting := hpath.keeps ⟨⟨hinv, hbound, (Part.prices_iff _).2 hpriced⟩, hdepartments, hsums⟩
        fun m hp => ⟨pricing_move m hp.pricing, departments_move m hp.departments,
          balanced_move m hp.pricing hp.departments hp.balanced⟩
      exact (Part.balanced_iff _).2 ⟨ht.balanced, ht.departments⟩
    · exact absurd hscan (hend x)

end Sys2Proof.Machine
end


-- ==== Sys2Proof/Proofs/LabelNumbers.lean ====
section
/-! The label numbers of the records and of the jobs (R128, R133): what the operations of the journal, of the orders and of the write
queue do to them. -/

namespace Sys2Proof.Machine

/-! ## The numbers of a list of sectors, of a write queue and of the orders -/

/-- The label numbers of the records that the sectors hold. -/
def sectorLabels (ss : List Sector) : List Nat := (ss.flatMap Sector.journal).filterMap Record.newLabel?

/-- The label numbers of the LINE records of a write queue. -/
def queueLabels (places : List Place) : List Nat := places.filterMap Place.lineLabel?

/-- The numbers of the TOTAL labels of orders. -/
def orderLabels (os : List Order) : List Nat := os.filterMap Order.totalLabel

theorem Part.recordLabels_eq (p : Part) :
    p.recordLabels = sectorLabels p.nv.sectors ++ queueLabels p.tj.queue ++ orderLabels p.om.orders := rfl

theorem Part.recordLabels_count (p : Part) (n : Nat) : p.recordLabels.count n
    = (sectorLabels p.nv.sectors).count n + (queueLabels p.tj.queue).count n + (orderLabels p.om.orders).count n := by
  rw [p.recordLabels_eq, List.count_append, List.count_append]

theorem Part.jobLabels_eq (p : Part) : p.jobLabels = newLabels p.lu.queue := rfl

@[simp] theorem queueLabels_append (a b : List Place) : queueLabels (a ++ b) = queueLabels a ++ queueLabels b :=
  List.filterMap_append

theorem lineLabel_none {r : Record} (h : (Place.filled r).line? = none) : (Place.filled r).lineLabel? = none := by
  cases r with
  | line => cases h
  | _ => rfl

/-- Records of no line add no label number to the write queue. -/
theorem queueLabels_silent {rs : List Record} (h : ∀ r ∈ rs, r.mayWait = true) : queueLabels (rs.map .filled) = [] :=
  List.filterMap_eq_nil_iff.2 fun x hx => by
    obtain ⟨r, hr, rfl⟩ := List.mem_map.1 hx
    exact lineLabel_none (mayWait_silent (h r hr)).2.1

theorem queueLabels_line (n owner : Nat) (f : LineFields) :
    queueLabels [.filled (.line n owner f)] = f.label.toList := by
  cases h : f.label <;> simp [queueLabels, Place.lineLabel?, h]

theorem queueLabels_fillHeld {n : Nat} {r : Record} (h : (Place.filled r).lineLabel? = none) (queue : List Place) :
    queueLabels (fillHeld n r queue) = queueLabels queue := by
  rcases held_split n queue with ⟨before, k, after, hq, -, hf⟩ | ⟨-, -, hf⟩ <;> rw [hf]
  rw [hq, queueLabels_append, queueLabels_append]
  congr 1
  unfold queueLabels
  rw [List.filterMap_cons_none h, List.filterMap_cons_none rfl]

theorem queueLabels_first {queue : List Place} {r : Record} (h : firstRecord queue = some r) (n : Nat) :
    (queueLabels queue).count n
      = (Place.filled r).lineLabel?.toList.count n + (queueLabels (dropFirstRecord queue)).count n := by
  obtain ⟨before, after, hq, hd, -⟩ := firstRecord_split h
  rw [hd, hq, queueLabels_append, queueLabels_append, List.count_append, List.count_append,
    show queueLabels (.filled r :: after) = (Place.filled r).lineLabel?.toList ++ queueLabels after by
      unfold queueLabels
      rw [List.filterMap_cons]
      cases (Place.filled r).lineLabel? <;> rfl, List.count_append]
  omega

theorem orderLabels_map {f : Order → Order} (h : ∀ o, (f o).totalLabel = o.totalLabel) (m : Nat) (os : List Order) :
    orderLabels (os.map (fun o => if o.number = m then f o else o)) = orderLabels os := by
  unfold orderLabels
  rw [List.filterMap_map]
  refine List.filterMap_congr fun o _ => ?_
  by_cases hn : o.number = m <;> simp [hn, h]

/-- The TOTAL label of an order replaced, where no other order has its number. -/
theorem orderLabels_replaced {os : List Order} (distinct : (os.map Order.number).Nodup) (m label n : Nat) :
    (orderLabels (os.map (fun o => if o.number = m then { o with totalLabel := some label } else o))).count n
      ≤ (orderLabels os).count n + [label].count n := by
  induction os with
  | nil => exact Nat.zero_le _
  | cons o os ih =>
    rw [List.map_cons, List.nodup_cons] at distinct
    have hcons : ∀ (x : Order) (xs : List Order),
        (orderLabels (x :: xs)).count n = x.totalLabel.toList.count n + (orderLabels xs).count n := fun x xs => by
      unfold orderLabels
      rw [List.filterMap_cons]
      cases x.totalLabel with
      | none => simp
      | some k => rw [← List.count_append]; rfl
    rw [List.map_cons, hcons, hcons]
    by_cases hn : o.number = m
    · have hrest : os.map (fun x => if x.number = m then { x with totalLabel := some label } else x) = os := by
        refine (List.map_congr_left fun x hx => if_neg fun e => distinct.1 ?_).trans (List.map_id' os)
        exact List.mem_map.2 ⟨x, hx, e.trans hn.symm⟩
      rw [if_pos hn, hrest]
      show [label].count n + _ ≤ _
      omega
    · have := ih distinct.2
      rw [if_neg hn]
      omega

/-- An order leaves with its TOTAL label. -/
theorem orderLabels_without {os : List Order} {o : Order} (ho : o ∈ os) (n : Nat) :
    (orderLabels (os.filter (fun x => x.number ≠ o.number))).count n + o.totalLabel.toList.count n
      ≤ (orderLabels os).count n := by
  obtain ⟨before, after, rfl⟩ := List.append_of_mem ho
  have hsub : ((before ++ o :: after).filter (fun x => x.number ≠ o.number)).Sublist (before ++ after) := by
    rw [List.filter_append, List.filter_cons_of_neg (by simp)]
    exact List.filter_sublist.append List.filter_sublist
  have hperm : (orderLabels (before ++ o :: after)).Perm (o.totalLabel.toList ++ orderLabels (before ++ after)) := by
    refine (List.perm_middle.filterMap _).trans ?_
    rw [List.filterMap_cons]
    cases o.totalLabel <;> exact .refl _
  have hcount := (hsub.filterMap Order.totalLabel).count_le n
  rw [hperm.count_eq, List.count_append]
  unfold orderLabels at hcount ⊢
  omega

/-! ## The sectors -/

theorem sectorLabels_sublist {a b : List Sector} (h : (a.flatMap Sector.journal).Sublist (b.flatMap Sector.journal)) (n : Nat) :
    (sectorLabels a).count n ≤ (sectorLabels b).count n := (h.filterMap _).count_le n

/-- A sector changed that keeps at most the records it has. -/
theorem modify_journal {f : Sector → Sector} (l : List Sector) (i : Nat)
    (h : ∀ s, l[i]? = some s → (f s).journal.Sublist s.journal) :
    ((l.modify i f).flatMap Sector.journal).Sublist (l.flatMap Sector.journal) := by
  induction l generalizing i with
  | nil => simp
  | cons s rest ih =>
    cases i with
    | zero => simpa using (h s rfl).append_right (rest.flatMap Sector.journal)
    | succ i => simpa using (ih i fun t ht => h t (by simpa using ht)).append_left s.journal

/-- A record joins a sector. -/
theorem sectorLabels_stored (l : List Sector) (i : Nat) {f : Sector → Sector} {r : Record}
    (h : ∀ s, (f s).journal = s.journal ++ [r]) (n : Nat) :
    (sectorLabels (l.modify i f)).count n ≤ (sectorLabels l).count n + r.newLabel?.toList.count n := by
  induction l generalizing i with
  | nil => simp [sectorLabels]
  | cons s rest ih =>
    have hcons : ∀ (x : Sector) (xs : List Sector),
        sectorLabels (x :: xs) = x.journal.filterMap Record.newLabel? ++ sectorLabels xs := fun x xs => by
      simp [sectorLabels]
    cases i with
    | zero =>
      have hone : [r].filterMap Record.newLabel? = r.newLabel?.toList := by
        rw [List.filterMap_cons]
        cases r.newLabel? <;> rfl
      rw [List.modify_zero_cons, hcons, hcons, h, List.filterMap_append, hone]
      simp only [List.count_append]
      omega
    | succ i =>
      have := ih i
      rw [List.modify_succ_cons, hcons, hcons]
      simp only [List.count_append]
      omega

theorem Part.storeRecord_labels (p : Part) (r : Record) (n : Nat) :
    (sectorLabels (p.storeRecord r).nv.sectors).count n
      ≤ (sectorLabels p.nv.sectors).count n + r.newLabel?.toList.count n := by
  unfold Part.storeRecord
  split
  · exact Nat.le_add_right _ _
  · rename_i i _
    refine sectorLabels_stored p.nv.sectors i (fun s => ?_) n
    simp [Sector.journal, Stored.of]

/-! ## From part to part -/

/-- The label numbers that a part adds to those of another. -/
structure Part.LabelsGrow (p q : Part) (new : List Nat) : Prop where
  records : ∀ n, q.recordLabels.count n ≤ p.recordLabels.count n + new.count n
  jobs : ∀ n, q.jobLabels.count n ≤ p.jobLabels.count n + new.count n

section
variable {p q r : Part}

theorem Part.LabelsGrow.refl (p : Part) : p.LabelsGrow p [] := ⟨fun _ => le_rfl, fun _ => le_rfl⟩

theorem Part.LabelsGrow.trans {a b : List Nat} (h : p.LabelsGrow q a) (k : q.LabelsGrow r b) : p.LabelsGrow r (a ++ b) := by
  refine ⟨fun n => ?_, fun n => ?_⟩ <;> rw [List.count_append]
  · have := h.records n
    have := k.records n
    omega
  · have := h.jobs n
    have := k.jobs n
    omega

/-- The parts of the record labels apart. -/
theorem Part.LabelsGrow.of_parts {new : List Nat}
    (records : ∀ n, (sectorLabels q.nv.sectors).count n + (queueLabels q.tj.queue).count n
        + (orderLabels q.om.orders).count n
      ≤ (sectorLabels p.nv.sectors).count n + (queueLabels p.tj.queue).count n + (orderLabels p.om.orders).count n
        + new.count n)
    (jobs : ∀ n, (newLabels q.lu.queue).count n ≤ (newLabels p.lu.queue).count n + new.count n) : p.LabelsGrow q new :=
  ⟨fun n => by rw [q.recordLabels_count, p.recordLabels_count]; exact records n, jobs⟩

/-- The sectors are as they were, and each of the other parts holds no more. -/
theorem Part.LabelsGrow.fewer (sectors : q.nv.sectors = p.nv.sectors)
    (queue : (queueLabels q.tj.queue).Sublist (queueLabels p.tj.queue))
    (orders : (orderLabels q.om.orders).Sublist (orderLabels p.om.orders)) (jobs : JobsKept p.lu.queue q.lu.queue) :
    p.LabelsGrow q [] :=
  .of_parts (fun n => by
    have := queue.count_le n
    have := orders.count_le n
    rw [sectors]
    omega) fun n => jobs.labels.count_le n

theorem Part.LabelsGrow.of_eq (sectors : q.nv.sectors = p.nv.sectors) (queue : q.tj.queue = p.tj.queue)
    (orders : q.om.orders = p.om.orders) (jobs : q.lu.queue = p.lu.queue) : p.LabelsGrow q [] :=
  .fewer sectors (by rw [queue]) (by rw [orders]) (by rw [jobs]; exact .refl _)

/-- An order changed in something other than its TOTAL label. -/
theorem Part.LabelsGrow.updated {m : Nat} {f : Order → Order}
    (orders : q.om.orders = p.om.orders.map (fun o => if o.number = m then f o else o))
    (label : ∀ o, (f o).totalLabel = o.totalLabel) (sectors : q.nv.sectors = p.nv.sectors) (queue : q.tj.queue = p.tj.queue)
    (jobs : q.lu.queue = p.lu.queue) : p.LabelsGrow q [] :=
  .fewer sectors (by rw [queue]) (by rw [orders, orderLabels_map label]) (by rw [jobs]; exact .refl _)

/-- The write queue loses places, and records that may wait join it. -/
theorem queueLabels_less {queue rest : List Place} (h : rest.Sublist queue) {new : List Record} {before after : Option Record}
    (waits : new ++ after.toList = before.toList) (silent : ∀ r, before = some r → r.mayWait = true) :
    (queueLabels (rest ++ new.map .filled)).Sublist (queueLabels queue) := by
  rw [queueLabels_append, queueLabels_silent (silent_of_waiting waits silent).1, List.append_nil]
  exact h.filterMap _

theorem orderLabels_left (m : OrderManager) (n : Nat) :
    (orderLabels (m.without n).orders).Sublist (orderLabels m.orders) := by
  rw [OrderManager.without_orders]
  exact List.filter_sublist.filterMap _

theorem Part.setClosing_labels (p : Part) (n : Nat) (k : CloseKind) (r : ClosingRecord) :
    orderLabels (p.setClosing n k r).om.orders = orderLabels p.om.orders :=
  (congrArg orderLabels (Part.setClosing_orders _ _ _)).trans
    (orderLabels_map (f := fun o => { o with state := .closing k r }) (fun _ => rfl) n p.om.orders)

/-- A close that is judged takes no label. -/
theorem Part.settleClosing_labels (waits : ∀ r, p.tj.waiting = some r → r.mayWait = true) (n : Nat) :
    p.LabelsGrow (p.settleClosing n) [] := by
  have hjobs := p.settleClosing_kept n
  have hsectors : (p.settleClosing n).nv.sectors = p.nv.sectors := by simp
  rcases p.settleClosing_cases n with e | ⟨o, kind, -, -, -, ⟨-, e⟩ | ⟨-, e⟩⟩ <;> rw [e] at hjobs hsectors ⊢
  · exact .refl p
  · obtain ⟨new, hqueue, hwaits⟩ := p.endEmptyClose_places o
    refine .fewer hsectors ?_ ?_ hjobs
    · rw [hqueue]
      exact queueLabels_less (dropHeld_sublist o.number p.tj.queue) hwaits waits
    · rw [p.endEmptyClose_without]
      exact orderLabels_left p.om o.number
  · have hlabels : orderLabels (p.formClosing o kind).om.orders = orderLabels p.om.orders := by
      rw [p.formClosing_om o kind]
      exact p.setClosing_labels _ _ _
    cases hfault : p.tj.fault with
    | true =>
      obtain ⟨new, -, hqueue, hwaits⟩ := p.formClosing_fault hfault o kind
      refine .fewer hsectors ?_ (by rw [hlabels]) hjobs
      rw [hqueue]
      exact queueLabels_less (dropHeld_sublist o.number p.tj.queue) hwaits waits
    | false =>
      obtain ⟨r, -, hqueue, -, rfl⟩ := p.formClosing_queued hfault o kind
      refine .fewer hsectors ?_ (by rw [hlabels]) hjobs
      rw [hqueue, queueLabels_fillHeld (by cases kind <;> rfl)]

end

end Sys2Proof.Machine
end


-- ==== Sys2Proof/Proofs/LabelMoves.lean ====
section
/-! The label law at every move and at the end of the start-up scan (O56). -/

namespace Sys2Proof.Machine

section
variable {p q : Part}

/-! ## The entry into FAULT -/

theorem Part.recordFailed_labels (waits : p.tj.waiting = none) (r : Record) : p.LabelsGrow (p.recordFailed r) [] := by
  have hjobs := p.recordFailed_kept r
  have hsectors : (p.recordFailed r).nv.sectors = p.nv.sectors := by rw [(p.recordFailed_failing r).nv]
  have hclosing : ∀ n kind, JobsKept p.lu.queue (p.closingFailed n kind).lu.queue →
      p.LabelsGrow (p.closingFailed n kind) [] := fun n kind hkept => by
    have hs : (p.closingFailed n kind).nv.sectors = p.nv.sectors := by rw [(p.closingFailed_frame n kind).1.nv]
    revert hkept hs
    unfold Part.closingFailed
    split
    · exact fun _ _ => .refl p
    · rename_i o ho
      intro hkept hs
      obtain ⟨hom, htj, -⟩ := p.failClosing_om o kind
      refine .fewer hs (by rw [htj]) ?_ hkept
      rw [hom, p.setClosing_labels]
  cases r with
  | line n owner f =>
    obtain ⟨hom, htj, -⟩ := p.lineLost_parts n f
    have horders := (congrArg OrderManager.orders hom).trans (Part.updateOrder_orders _ _ _)
    have hlost : orderLabels (p.lineLost n f).om.orders = orderLabels p.om.orders := by
      rw [horders]
      exact orderLabels_map (f := fun o => o.withoutLine f) (fun _ => rfl) _ _
    have hlabels := Part.settleClosing_labels (p := p.lineLost n f) (by rw [htj, waits]; exact nofun) n
    refine ⟨fun m => ?_, fun m => hjobs.labels.count_le m⟩
    have := hlabels.records m
    have hnv : (p.lineLost n f).nv = p.nv := by
      have := (p.recordFailed_failing (.line n owner f)).nv
      simpa [Part.recordFailed, p.lineFailed_lost] using this
    rw [(p.lineLost n f).recordLabels_count, hlost, htj, hnv] at this
    rw [p.recordLabels_count]
    exact this
  | close n => exact hclosing n .sale hjobs
  | voidOrder n => exact hclosing n .void hjobs
  | priceApply =>
    refine .fewer hsectors ?_ ?_ hjobs <;> simp only [Part.recordFailed, Part.failApply] <;> split <;> exact .refl _
  | priceStored =>
    refine .fewer hsectors ?_ ?_ hjobs <;> simp only [Part.recordFailed, Part.failStore] <;> split <;> exact .refl _
  | _ => exact .fewer hsectors (.refl _) (.refl _) hjobs

theorem Part.enterFault_labels (p : Part) : p.LabelsGrow p.enterFault [] := by
  have h : p.LabelsGrow p.enterFault [] ∧ p.enterFault.Faulted :=
    enterFault_keeps (P := fun q => p.LabelsGrow q [] ∧ q.Faulted)
      ⟨.fewer rfl (List.filter_sublist.filterMap _) (.refl _) (.refl _), rfl, fun _ hx => (List.mem_filter.1 hx).2, rfl⟩
      (fun q r h => ⟨h.1.trans (Part.recordFailed_labels h.2.waits r), h.2.recordFailed r⟩)
      fun q d h => ⟨h.1.trans (.of_eq rfl rfl rfl rfl), h.2.of_tj rfl⟩
  exact h.1

theorem Part.recordFailed_counter (p : Part) (r : Record) (h : (p.recordFailed r).tt.counter = .starting) :
    p.tt.counter = .starting := by
  cases r with
  | line n owner f => rwa [Part.recordFailed, (p.lineFailed_frame n f).2.2] at h
  | close n => rwa [Part.recordFailed, (p.closingFailed_frame n .sale).2.2] at h
  | voidOrder n => rwa [Part.recordFailed, (p.closingFailed_frame n .void).2.2] at h
  | priceApply =>
    simp only [Part.recordFailed, Part.failApply] at h
    split at h <;> exact h
  | priceStored =>
    simp only [Part.recordFailed, Part.failStore] at h
    split at h <;> exact h
  | dayClose => cases h
  | _ => exact h

theorem Part.enterFault_counter (p : Part) : p.enterFault.tt.counter = .starting → p.tt.counter = .starting :=
  enterFault_keeps (P := fun q => q.tt.counter = .starting → p.tt.counter = .starting) id
    (fun q r h hq => h (q.recordFailed_counter r hq)) fun _ _ h => h

/-! ## Records that are written, lines and closes -/

/-- What a written record does to the labels: its label is in a sector, and that of a LINE leaves the write queue. -/
theorem Part.finishAppend_labels (waits : ∀ r, p.tj.waiting = some r → r.mayWait = true) {r : Record}
    (first : firstRecord p.tj.queue = some r) (n : Nat) :
    (sectorLabels (p.finishAppend r).nv.sectors).count n + (queueLabels (p.finishAppend r).tj.queue).count n
        + (Place.filled r).lineLabel?.toList.count n
      ≤ (sectorLabels p.nv.sectors).count n + (queueLabels p.tj.queue).count n + r.newLabel?.toList.count n := by
  have hsectors : (p.finishAppend r).nv.sectors = (p.storeRecord r).nv.sectors := by simp [Part.finishAppend]
  obtain ⟨new, hqueue, hwaits⟩ := p.finishAppend_places r
  have hstored := p.storeRecord_labels r n
  have hfirst := queueLabels_first first n
  rw [hsectors, hqueue, queueLabels_append, queueLabels_silent (silent_of_waiting hwaits waits).1, List.append_nil]
  omega

/-- A written record whose label leaves the write queue with it. -/
theorem Part.finished_labels (waits : ∀ r, p.tj.waiting = some r → r.mayWait = true) {r : Record}
    (first : firstRecord p.tj.queue = some r) (label : r.newLabel? = (Place.filled r).lineLabel?) :
    p.LabelsGrow (p.finishAppend r) [] := by
  refine .of_parts (fun n => ?_) fun n => by simp
  have := Part.finishAppend_labels waits first n
  rw [label] at this
  rw [show (p.finishAppend r).om = p.om by simp]
  simp only [List.count_nil]
  omega

theorem plain_unlabelled {r : Record} (h : r.plain = true) : r.newLabel? = (Place.filled r).lineLabel? := by
  cases r with
  | line => cases h
  | close => cases h
  | _ => rfl

/-- A written CLOSE: its label is in a sector, and its order leaves with it. -/
theorem Part.closed_labels (h : p.Prices []) {n owner count total : Nat} {ticket label wait : Option Nat}
    (first : firstRecord p.tj.queue = some (.close n owner ticket count total label wait)) :
    p.LabelsGrow ((p.finishAppend (.close n owner ticket count total label wait)).closeWritten n owner total label) [] := by
  set q := p.finishAppend (.close n owner ticket count total label wait) with hq
  have hmem : .filled (.close n owner ticket count total label wait) ∈ p.tj.queue := by
    obtain ⟨before, after, hsplit, -⟩ := firstRecord_split first
    rw [hsplit]
    exact List.mem_append_right _ List.mem_cons_self
  obtain ⟨o, ho, hn, -, -, -, -, hlabel⟩ := h.records _ (List.mem_append_left _ hmem) rfl
  have hom : q.om = p.om := by simp [hq]
  have hleft : (q.closeWritten n owner total label).om = q.om.without n := by
    refine (q.closeWritten_om n owner total label).resolve_left fun hnone => ?_
    have := List.find?_eq_none.1 hnone.1 o (by rw [hom]; exact ho)
    simp [hn] at this
  refine .of_parts (fun m => ?_) fun m => ?_
  · have hwritten := Part.finishAppend_labels h.waits first m
    have horder := orderLabels_without ho m
    rw [hleft, hom, OrderManager.without_orders, (q.closeWritten_frame n owner total label).1,
      show (q.closeWritten n owner total label).tj = q.tj by simp]
    rw [hn, hlabel] at horder
    have hnone : (Place.filled (.close n owner ticket count total label wait)).lineLabel? = none := rfl
    rw [hnone, ← hq] at hwritten
    simp only [Option.toList_none, List.count_nil, Record.newLabel?] at hwritten ⊢
    omega
  · have hjobs := (q.closeWritten_kept n owner total label).labels.count_le m
    rw [show q.lu = p.lu by simp [hq]] at hjobs
    exact hjobs

/-- A line that is committed brings the label that it takes. -/
theorem Part.addLine_labels (p : Part) (o : Order) (f : LineFields) (a : Article) :
    p.LabelsGrow (p.addLine o f a) f.label.toList := by
  have horders := (congrArg OrderManager.orders (p.addLine_om o f a)).trans (Part.updateOrder_orders _ _ _)
  refine .of_parts (fun n => ?_) fun n => ?_
  · rw [horders, orderLabels_map (f := fun x => x.withLine f) fun _ => rfl, (p.addLine_queue o f a).1, queueLabels_append,
      (p.addLine_frame o f a).1, List.count_append]
    rw [queueLabels_line]
    omega
  · rcases p.addLine_jobs o f a with ⟨-, hlu⟩ | ⟨k, hk, hlu⟩
    · rw [hlu]
      exact Nat.le_add_right _ _
    · rw [hlu, hk]
      simp [newLabels, List.filter_append]

/-- A TOTAL label is the number that it takes. -/
theorem Part.makeTotalLabel_labels (distinct : (p.om.orders.map Order.number).Nodup) {st : StationNo} {o : Order}
    (mode : makesTotal o.labelMode = true) : p.LabelsGrow (p.makeTotalLabel st o) [p.lu.nextLabel] := by
  have horders := (congrArg OrderManager.orders (p.makeTotalLabel_updates st o mode)).trans (Part.updateOrder_orders _ _ _)
  refine .of_parts (fun n => ?_) fun n => ?_
  · have := orderLabels_replaced distinct o.number p.lu.nextLabel n
    rw [horders, show (p.makeTotalLabel st o).tj = p.tj by simp, show (p.makeTotalLabel st o).nv = p.nv by simp]
    omega
  · rw [p.makeTotalLabel_jobs st o mode]
    simp [newLabels, List.filter_append]

end

/-! ## The moves -/

/-- What a move does to the label numbers: a reset, a move that takes none, or one that takes the next number. -/
inductive LabelMove (c : Instr) : Nat → Part → Part → Prop
  | reset {p q : Part} (command : c.resets) (labels : p.LabelsGrow q []) (counter : q.tt.counter = .starting)
      (last : q.lu.lastLabel = 0) : LabelMove c 0 p q
  | kept {k : Nat} {p q : Part} (labels : p.LabelsGrow q []) (last : q.lu.lastLabel = p.lu.lastLabel)
      (counter : q.tt.counter = .starting → p.tt.counter = .starting)
      (leaves : p.tt.counter = .starting → q.tt.counter ≠ .starting → c.takesLabels = false ∧ ¬ c.resets) :
    LabelMove c k p q
  | taken {p q : Part} (command : c.takesLabels = true) (labels : p.LabelsGrow q [p.lu.nextLabel])
      (last : q.lu.lastLabel = p.lu.nextLabel) (running : p.tt.counter ≠ .starting)
      (counter : q.tt.counter = p.tt.counter) : LabelMove c 1 p q

theorem LabelMove.still {c : Instr} {k : Nat} {p q : Part} (labels : p.LabelsGrow q [])
    (last : q.lu.lastLabel = p.lu.lastLabel) (counter : q.tt.counter = p.tt.counter) : LabelMove c k p q :=
  .kept labels last (by rw [counter]; exact id) fun h hn => absurd (counter.trans h) hn

/-- The labels of a part whose records, orders and jobs are those of another, with no LINE record taken into the queue. -/
theorem LabelMove.queued {c : Instr} {k : Nat} {p q : Part} (sectors : q.nv.sectors = p.nv.sectors)
    (queue : queueLabels q.tj.queue = queueLabels p.tj.queue) (orders : orderLabels q.om.orders = orderLabels p.om.orders)
    (lu : q.lu = p.lu) (counter : q.tt.counter = p.tt.counter) : LabelMove c k p q :=
  .still (.fewer sectors (by rw [queue]) (by rw [orders]) (by rw [lu]; exact .refl _)) (by rw [lu]) counter

theorem queueLabels_queueOrWait (p : Part) {r : Record} (h : (Place.filled r).lineLabel? = none) :
    queueLabels (p.queueOrWait r).tj.queue = queueLabels p.tj.queue := by
  have hone : queueLabels [.filled r] = [] := List.filterMap_eq_nil_iff.2 fun x hx => List.mem_singleton.1 hx ▸ h
  rcases p.queueOrWait_places r with ⟨hq, -⟩ | ⟨hq, -⟩ <;> rw [hq]
  rw [queueLabels_append, hone, List.append_nil]

theorem queueLabels_taken (queue : List Place) {x : Place} (h : x.lineLabel? = none) :
    queueLabels (queue ++ [x]) = queueLabels queue := by
  rw [queueLabels_append, show queueLabels [x] = [] from
    List.filterMap_eq_nil_iff.2 fun y hy => List.mem_singleton.1 hy ▸ h, List.append_nil]

theorem label_move {c : Instr} {k : Nat} {p q : Part} (m : Move c k p q) (h : p.Pricing) : LabelMove c k p q := by
  have hwaits := h.prices.waits
  have hdistinct := h.bound.distinct
  have hsame : ∀ {r : Part}, r.nv.sectors = p.nv.sectors → r.tj.queue = p.tj.queue → r.om.orders = p.om.orders →
      r.lu = p.lu → r.tt.counter = p.tt.counter → LabelMove c k p r := fun hs hq ho hl hc =>
    .queued hs (by rw [hq]) (by rw [ho]) hl hc
  have hupdated : ∀ {r : Part} {n : Nat} {f : Order → Order},
      r.om.orders = p.om.orders.map (fun o => if o.number = n then f o else o) → (∀ o, (f o).totalLabel = o.totalLabel) →
      r.nv.sectors = p.nv.sectors → r.tj.queue = p.tj.queue → r.lu = p.lu → r.tt.counter = p.tt.counter →
      LabelMove c k p r := fun ho hf hs hq hl hc => .queued hs (by rw [hq]) (by rw [ho, orderLabels_map hf]) hl hc
  cases m with
  | quiet seen =>
    exact .still (.of_eq (congrArg Seen.sectors seen) (congrArg Seen.queue seen) (congrArg (fun x => x.om.orders) seen)
      (congrArg Seen.jobs seen)) (congrArg Seen.lastLabel seen) (congrArg Seen.counter seen)
  | reset cause time command =>
    refine .reset command (.of_parts (fun n => ?_) fun n => Nat.zero_le _) rfl rfl
    have hcut := sectorLabels_sublist p.cutWrites_sectors.2 n
    have hnone : (queueLabels (p.reset cause time).tj.queue).count n + (orderLabels (p.reset cause time).om.orders).count n = 0 :=
      rfl
    have hsectors : (p.reset cause time).nv.sectors = p.cutWrites.nv.sectors := rfl
    rw [hsectors]
    omega
  | changeApplied base es time =>
    exact .queued (by simp) (queueLabels_queueOrWait p rfl) (by simp) (by simp) (by simp)
  | orderOpened st operator trading free slot =>
    have horders : (p.openOrder st operator).om.orders.Perm (p.newOrder st operator :: p.om.orders) := by
      rw [p.openOrder_om]
      exact orders_placed slot
    refine .still (.of_parts (fun n => ?_) fun n => by simp) (by simp) (by simp)
    have hcount := (horders.filterMap Order.totalLabel).count_eq n
    rw [List.filterMap_cons_none rfl] at hcount
    rw [show (p.openOrder st operator).tj = p.tj by simp, show (p.openOrder st operator).nv = p.nv by simp]
    unfold orderLabels
    omega
  | lineAdded st o f a command trading active room index member department label =>
    have hlabels := p.addLine_labels o f a
    have hrunning : p.tt.counter ≠ .starting := by rw [trading]; exact nofun
    rcases p.addLine_jobs o f a with ⟨hnone, hlu⟩ | ⟨n, hn, hlu⟩
    · rw [hnone] at hlabels
      exact .still hlabels (by rw [hlu]) (by simp)
    · rcases label with hnone | ⟨hnext, -⟩
      · rw [hnone] at hn
        cases hn
      · rw [hnext] at hlabels
        exact .taken command hlabels (by rw [hlu]) hrunning (by simp)
  | orderParked st o => exact hupdated (Part.updateOrder_orders _ _ _) (fun _ => rfl) rfl rfl rfl rfl
  | orderResumed st n o =>
    exact hupdated (f := fun x => { x with state := .opened st }) (filterMap_updatePool_some n _ p.om.pool) (fun _ => rfl)
      rfl rfl rfl rfl
  | orderFreed o =>
    refine .still (.fewer (by simp) (by simp) ?_ (by simpa using JobsKept.refl p.lu.queue)) (by simp) (by simp)
    rw [(Part.endNoSale_frame _ _).2.2.2.2.2.2.1, Part.freeOrder_om]
    exact orderLabels_left p.om o.number
  | totalLabelled st o command running active mode =>
    exact .taken command (Part.makeTotalLabel_labels hdistinct mode) (by rw [p.makeTotalLabel_jobs st o mode]) running (by simp)
  | closingBegun o kind =>
    exact .queued rfl (queueLabels_taken p.tj.queue rfl) (p.setClosing_labels o.number kind .waiting) rfl rfl
  | closingSettled n => exact .still (Part.settleClosing_labels hwaits n) (by simp) (by simp)
  | lineVoided st o => exact hupdated (Part.updateOrder_orders _ _ _) (fun _ => rfl) rfl rfl rfl rfl
  | recordQueued r plain =>
    exact .queued rfl (queueLabels_taken p.tj.queue (lineLabel_none (plain_silent plain).2)) rfl rfl rfl
  | storedQueued g => exact .queued (by simp) (queueLabels_queueOrWait p rfl) (by simp) (by simp) (by simp)
  | dayCloseBegun d running =>
    exact .kept (.fewer rfl (by exact (queueLabels_taken p.tj.queue (x := .filled (.dayClose d)) rfl) ▸ .refl _) (.refl _) (.refl _)) rfl
      nofun fun hs => absurd hs running
  | jobAdded j room kind =>
    refine .still (.of_parts (fun n => le_rfl) fun n => ?_) rfl rfl
    show (newLabels (p.lu.queue ++ [j])).count n ≤ _
    simp [newLabels, List.filter_append, kind]
  | jobsSettled queue length released labels =>
    exact .still (.of_parts (fun n => le_rfl) fun n => labels.count_le n) rfl rfl
  | counterSet x running state =>
    exact .kept (.of_eq rfl rfl rfl rfl) rfl (fun hs => absurd hs state) fun hs => absurd hs running
  | dayEnded d command => exact .kept (.of_eq rfl rfl rfl rfl) rfl nofun fun _ _ => command
  | lineWritten n owner f first =>
    have hfinished := Part.finished_labels hwaits first rfl
    refine .still (hfinished.trans (b := []) (.updated (Part.updateOrder_orders _ _ _) (fun _ => rfl) rfl rfl rfl)) (by simp)
      (by simp)
  | closeWritten n owner ticket count total label wait first =>
    exact .still (Part.closed_labels h.prices first) (by simp) (by simp)
  | voidWritten n owner ticket value first =>
    have hfinished := Part.finished_labels hwaits first rfl
    refine .still (hfinished.trans (b := []) ?_) (by simp) (by simp)
    rcases (p.finishAppend (.voidOrder n owner ticket value)).voidOrderWritten_om n owner value with ⟨-, e⟩ | hom
    · rw [e]
      exact .refl _
    · refine .fewer (by simp) (by simp) ?_ (by simpa using JobsKept.refl p.lu.queue)
      rw [hom]
      exact orderLabels_left _ n
  | plainWritten r plain first =>
    exact .still (Part.finished_labels hwaits first (plain_unlabelled plain)) (by simp) (by simp)
  | switched g es time command first =>
    exact .still ((Part.finished_labels hwaits first rfl).trans (b := []) (.of_eq (by simp) (by simp) (by simp) (by simp))) (by simp)
      (by simp)
  | sectorsCleared sectors length records =>
    refine .still (.of_parts (fun n => ?_) fun n => le_rfl) rfl rfl
    have := sectorLabels_sublist records n
    dsimp only
    omega
  | faultEntered command =>
    exact .kept p.enterFault_labels p.enterFault_failing.lastLabel p.enterFault_counter fun _ _ => command
  | _ => exact hsame (by simp) (by simp) (by simp) (by simp) (by simp)

/-! ## The law along a command -/

/-- The label law within a command. `A` says that labels cannot be taken, which frees the numbers from the last one; `B` says what a
counter in STARTING means for the command. -/
structure Part.LabelLaw (A B : Prop) (p : Part) : Prop where
  records : ∀ n, p.recordLabels.count n ≤ 1
  jobs : ∀ n, p.jobLabels.count n ≤ 1
  taken : p.tt.counter ≠ .starting → A ∨ ∀ n, n ∈ p.recordLabels ∨ n ∈ p.jobLabels → 1 ≤ n ∧ n ≤ p.lu.lastLabel
  starting : p.tt.counter = .starting → B

theorem Part.LabelLaw.labelled {A B : Prop} {p : Part} (h : p.LabelLaw A B) (hA : ¬ A) : p.Labelled :=
  ⟨List.nodup_iff_count_le_one.2 h.records, List.nodup_iff_count_le_one.2 h.jobs, fun hc => (h.taken hc).resolve_left hA⟩

theorem Part.Labelled.law {A B : Prop} {p : Part} (h : p.Labelled) (starting : p.tt.counter = .starting → B) :
    p.LabelLaw A B :=
  ⟨List.nodup_iff_count_le_one.1 h.records, List.nodup_iff_count_le_one.1 h.jobs, fun hc => .inr (h.taken hc), starting⟩

section
variable {A B : Prop} {p q : Part}

theorem Part.LabelLaw.kept (h : p.LabelLaw A B) (labels : p.LabelsGrow q [])
    (last : q.tt.counter ≠ .starting → A ∨ (p.tt.counter ≠ .starting ∧ q.lu.lastLabel = p.lu.lastLabel))
    (starting : q.tt.counter = .starting → B) : q.LabelLaw A B := by
  have hrecords : ∀ n, q.recordLabels.count n ≤ p.recordLabels.count n := labels.records
  have hjobs : ∀ n, q.jobLabels.count n ≤ p.jobLabels.count n := labels.jobs
  refine ⟨fun n => (hrecords n).trans (h.records n), fun n => (hjobs n).trans (h.jobs n), fun hc => ?_, starting⟩
  rcases last hc with hA | ⟨hp, he⟩
  · exact .inl hA
  · refine (h.taken hp).imp id fun hbound n hn => ?_
    rw [he]
    refine hbound n (hn.imp (fun hm => ?_) fun hm => ?_)
    · exact List.count_pos_iff.1 ((List.count_pos_iff.2 hm).trans_le (hrecords n))
    · exact List.count_pos_iff.1 ((List.count_pos_iff.2 hm).trans_le (hjobs n))

/-- A number above every other that has been taken. -/
theorem count_new_le {old new : List Nat} {l : Nat} (h : ∀ n, old.count n ≤ 1) (grow : ∀ n, new.count n ≤ old.count n + [l].count n)
    (fresh : l ∉ old) (n : Nat) : new.count n ≤ 1 := by
  have hgrow := grow n
  by_cases hn : n = l
  · subst hn
    rw [List.count_eq_zero.2 fresh] at hgrow
    simpa using hgrow
  · have hzero : [l].count n = 0 := List.count_eq_zero.2 (by simpa using hn)
    exact hgrow.trans (by rw [hzero]; exact h n)

theorem mem_of_grow {old new : List Nat} {l n : Nat} (grow : ∀ n, new.count n ≤ old.count n + [l].count n) (h : n ∈ new) :
    n ∈ old ∨ n = l := by
  by_contra hno
  have hgrow := grow n
  rw [List.count_eq_zero.2 fun e => hno (.inl e), List.count_eq_zero.2 fun e => hno (.inr (List.mem_singleton.1 e))] at hgrow
  have := List.count_pos_iff.2 h
  omega

theorem Part.LabelLaw.taking (h : p.LabelLaw A B) (free : ¬ A) (running : p.tt.counter ≠ .starting)
    (counter : q.tt.counter ≠ .starting) (room : p.lu.lastLabel + 1 ≤ Config.max32)
    (labels : p.LabelsGrow q [p.lu.nextLabel]) (last : q.lu.lastLabel = p.lu.nextLabel) : q.LabelLaw A B := by
  have hnext : p.lu.nextLabel = p.lu.lastLabel + 1 := if_pos room
  have hbound := (h.taken running).resolve_left free
  have hfresh : ∀ n, n ∈ p.recordLabels ∨ n ∈ p.jobLabels → n ≠ p.lu.nextLabel := fun n hn he => by
    have := (hbound n hn).2
    omega
  refine ⟨count_new_le h.records labels.records fun hm => hfresh _ (.inl hm) rfl,
    count_new_le h.jobs labels.jobs fun hm => hfresh _ (.inr hm) rfl, fun _ => .inr fun n hn => ?_, fun hs => absurd hs counter⟩
  have hmem : (n ∈ p.recordLabels ∨ n ∈ p.jobLabels) ∨ n = p.lu.nextLabel :=
    hn.elim (fun hm => (mem_of_grow labels.records hm).imp .inl id) fun hm => (mem_of_grow labels.jobs hm).imp .inr id
  rw [last, hnext]
  rcases hmem with hold | rfl
  · have := hbound n hold
    omega
  · omega

theorem LabelMove.keeps {c : Instr} {k : Nat} (resets : c.resets → B) (leaves : c.takesLabels = false → ¬ c.resets → B → A)
    (takes : c.takesLabels = true → ¬ A) (m : LabelMove c k p q) (room : p.lu.lastLabel + k ≤ Config.max32)
    (h : p.LabelLaw A B) : q.LabelLaw A B ∧ q.lu.lastLabel ≤ p.lu.lastLabel + k := by
  cases m with
  | reset command labels counter last =>
    exact ⟨h.kept labels (fun hc => absurd counter hc) fun _ => resets command, by rw [last]; exact Nat.zero_le _⟩
  | kept labels last counter left =>
    refine ⟨h.kept labels (fun hc => ?_) fun hs => h.starting (counter hs), by rw [last]; exact Nat.le_add_right _ _⟩
    by_cases hp : p.tt.counter = .starting
    · obtain ⟨hcommand, hreset⟩ := left hp hc
      exact .inl (leaves hcommand hreset (h.starting hp))
    · exact .inr ⟨hp, last⟩
  | taken command labels last running counter =>
    refine ⟨h.taking (takes command) running (by rw [counter]; exact running) room labels last, ?_⟩
    rw [last, show p.lu.nextLabel = p.lu.lastLabel + 1 from if_pos room]

theorem label_path {c : Instr} {n : Nat} (resets : c.resets → B) (leaves : c.takesLabels = false → ¬ c.resets → B → A)
    (takes : c.takesLabels = true → ¬ A) (path : Path c n p q) (hp : p.Pricing) (room : p.lu.lastLabel + n ≤ Config.max32)
    (h : p.LabelLaw A B) : q.LabelLaw A B := by
  induction path with
  | nil => exact h
  | cons move rest ih =>
    obtain ⟨hlaw, hlast⟩ := LabelMove.keeps resets leaves takes (label_move move hp) (by omega) h
    exact ih (pricing_move move hp) (by omega) hlaw

end

/-! ## The end of the start-up scan -/

theorem takeWhile_stop {α : Type} {test : α → Bool} (a b : List α) (h : (a ++ b).all test = false) (hb : b.length ≤ 1) :
    ((a ++ b).takeWhile test).Sublist a := by
  induction a with
  | nil =>
    match b, hb with
    | [], _ => exact .slnil
    | [x], _ =>
      have hx : test x = false := by simpa using h
      simp [hx]
  | cons x a ih =>
    rw [List.cons_append, List.takeWhile_cons]
    split
    · rename_i hx
      refine (ih ?_).cons_cons x
      rw [List.cons_append, List.all_cons, hx, Bool.true_and] at h
      exact h
    · exact List.nil_sublist _

/-- A sector that ends the scan keeps records that it held. -/
theorem Sector.scanned_sublist {s : Sector} (h : s.whole = false) : s.scanned.records.Sublist s.records :=
  takeWhile_stop s.records s.torn.toList h (by cases s.torn <;> simp)

theorem readSectors_failed {l : List Indexed} {x : Indexed} (h : (readSectors l).failed = some x) :
    ∃ y ∈ l, y.sector.whole = false ∧ x = y.scanned := by
  induction l with
  | nil => cases h
  | cons s rest ih =>
    rw [readSectors] at h
    split at h
    · obtain ⟨y, hy, hw⟩ := ih h
      exact ⟨y, List.mem_cons_of_mem _ hy, hw⟩
    · rename_i hw
      cases h
      exact ⟨s, List.mem_cons_self, Bool.eq_false_iff.2 hw, rfl⟩

/-- A seal leaves a sector with records that it held. -/
theorem Part.sealSector_sublist (p : Part) (failed : List Nat) (s : Indexed) (records : List Stored)
    (h : ∀ t, p.nv.sectors[s.index]? = some t → records.Sublist t.records) :
    ((p.sealSector failed s records).nv.sectors.flatMap Sector.journal).Sublist (p.nv.sectors.flatMap Sector.journal) := by
  have hsectors : (p.sealSector failed s records).nv.sectors = p.nv.sectors.modify s.index
      (fun t => t.seal records (failed.contains s.index && s.sector.mark ≠ .bad)) := by
    unfold Part.sealSector
    dsimp only
    split <;> rfl
  rw [hsectors]
  exact modify_journal p.nv.sectors s.index fun t ht => (h t ht).map _

theorem Part.sealAll_sublist (p : Part) (failed : List Nat) :
    ((p.sealAll (readSectors (journalSectors p.nv.sectors)) failed).nv.sectors.flatMap Sector.journal).Sublist
      (p.nv.sectors.flatMap Sector.journal) := by
  have hpassed : ∀ (l : List Indexed) (q : Part),
      ((l.foldl (fun q t => q.sealSector failed t []) q).nv.sectors.flatMap Sector.journal).Sublist
        (q.nv.sectors.flatMap Sector.journal) := by
    intro l
    induction l with
    | nil => exact fun q => .refl _
    | cons a l ih => exact fun q => (ih _).trans (q.sealSector_sublist failed a [] fun _ _ => List.nil_sublist _)
  unfold Part.sealAll
  split
  · exact .refl _
  · rename_i s hs
    refine (hpassed _ _).trans (p.sealSector_sublist failed s s.sector.records fun t ht => ?_)
    obtain ⟨y, hy, hwhole, rfl⟩ := readSectors_failed hs
    have hsector := (mem_journalSectors hy).1
    rw [show y.scanned.index = y.index from rfl, hsector] at ht
    cases ht
    exact Sector.scanned_sublist hwhole

theorem surveyed_sublist (ss : List Sector) : ((surveyed ss).flatMap Sector.journal).Sublist (ss.flatMap Sector.journal) := by
  induction ss with
  | nil => exact .slnil
  | cons s rest ih =>
    rw [surveyed, List.map_cons, List.flatMap_cons, List.flatMap_cons]
    refine List.Sublist.append ?_ ih
    split
    · exact List.nil_sublist _
    · exact .refl _

theorem endScan_labels (p : Part) (x : List Nat) : p.LabelsGrow (p.endScan x) [] := by
  refine .of_parts (fun n => ?_) fun n => by simp
  have hsealed := Part.sealAll_sublist { p with nv := { p.nv with sectors := surveyed p.nv.sectors } } x
  have := sectorLabels_sublist (hsealed.trans (surveyed_sublist p.nv.sectors)) n
  rw [p.endScan_sectors, show (p.endScan x).tj.queue = p.tj.queue by simp,
    show (p.endScan x).om.orders = p.om.orders by simp [OrderManager.orders]]
  exact Nat.add_le_add_right (Nat.add_le_add_right this _) _

/-- Above the base and up to the limit the number farthest forward is the greatest. -/
theorem le_farthest {limit base : Nat} {numbers : List Nat} (h : ∀ n ∈ numbers, base < n ∧ n ≤ limit) :
    base ≤ farthest limit base numbers ∧ ∀ n ∈ numbers, n ≤ farthest limit base numbers := by
  have hfold : ∀ (l : List Nat) (best : Nat), base < best → (∀ n ∈ l, base < n) →
      best ≤ l.foldl (fun best m => if forward limit base best < forward limit base m then m else best) best
      ∧ ∀ n ∈ l, n ≤ l.foldl (fun best m => if forward limit base best < forward limit base m then m else best) best := by
    intro l
    induction l with
    | nil => exact fun _ _ _ => ⟨le_rfl, nofun⟩
    | cons m l ih =>
      intro best hbest hl
      have hm := hl m List.mem_cons_self
      have hrest : ∀ n ∈ l, base < n := fun n hn => hl n (List.mem_cons_of_mem _ hn)
      rw [List.foldl_cons, forward, if_pos hbest, forward, if_pos hm]
      split
      · obtain ⟨h1, h2⟩ := ih m hm hrest
        exact ⟨by omega, List.forall_mem_cons.2 ⟨h1, h2⟩⟩
      · obtain ⟨h1, h2⟩ := ih best hbest hrest
        exact ⟨h1, List.forall_mem_cons.2 ⟨by omega, h2⟩⟩
  cases numbers with
  | nil => exact ⟨le_rfl, nofun⟩
  | cons n rest =>
    have hn := (h n List.mem_cons_self).1
    obtain ⟨h1, h2⟩ := hfold rest n hn fun m hm => (h m (List.mem_cons_of_mem _ hm)).1
    exact ⟨hn.le.trans h1, List.forall_mem_cons.2 ⟨h1, h2⟩⟩

theorem labelled_endScan {p : Part} {x : List Nat} (h : p.Labelled)
    (found : ∀ n ∈ p.sinceScan.2.filterMap Record.label?,
      (p.sinceScan.1.map DayClose.lastLabel).getD 0 < n ∧ n ≤ Config.max32)
    (labels : ∀ n, n ∈ p.recordLabels ∨ n ∈ p.jobLabels →
      1 ≤ n ∧ (n ≤ (p.sinceScan.1.map DayClose.lastLabel).getD 0 ∨ n ∈ p.sinceScan.2.filterMap Record.label?)) :
    (p.endScan x).Labelled := by
  have hgrow := endScan_labels p x
  obtain ⟨hbase, hfarthest⟩ := le_farthest found
  have hlast : (p.endScan x).lu.lastLabel = farthest Config.max32 ((p.sinceScan.1.map DayClose.lastLabel).getD 0)
    (p.sinceScan.2.filterMap Record.label?) := by simp
  have hrecords : ∀ n, (p.endScan x).recordLabels.count n ≤ p.recordLabels.count n := hgrow.records
  have hjobs : ∀ n, (p.endScan x).jobLabels.count n ≤ p.jobLabels.count n := hgrow.jobs
  refine ⟨List.nodup_iff_count_le_one.2 fun n => (hrecords n).trans (List.nodup_iff_count_le_one.1 h.records n),
    List.nodup_iff_count_le_one.2 fun n => (hjobs n).trans (List.nodup_iff_count_le_one.1 h.jobs n), fun _ n hn => ?_⟩
  obtain ⟨hlow, hhigh⟩ := labels n (hn.imp
    (fun hm => List.count_pos_iff.1 ((List.count_pos_iff.2 hm).trans_le (hrecords n)))
    fun hm => List.count_pos_iff.1 ((List.count_pos_iff.2 hm).trans_le (hjobs n)))
  rw [hlast]
  exact ⟨hlow, hhigh.elim (fun hb => hb.trans hbase) (hfarthest n)⟩

/-- Settles O56: a step moves label numbers between the records and the jobs or drops them, and takes at most two new ones, each above
all that were taken. -/
theorem stepKeepsLabelsDistinct : Obligations.StepKeepsLabelsDistinct := by
  refine ⟨fun s t hinv hbound hpriced hlabelled hroom h => ?_, fun s t failed rest hpending hlabelled => ?_⟩
  · have hpricing : s.part.Pricing := ⟨hinv, hbound, (Part.prices_iff _).2 hpriced⟩
    rcases step_cases h with ⟨c, hpath⟩ | ⟨x, -, hstarting, hend⟩
    · by_cases hstart : s.part.tt.counter = .starting
      · have hlaw := label_path (A := c.takesLabels = false) (B := True) (fun _ => trivial) (fun hc _ _ => hc)
          (fun hc hA => by rw [hc] at hA; cases hA) hpath hpricing hroom (hlabelled.law fun _ => trivial)
        exact ⟨List.nodup_iff_count_le_one.2 hlaw.records, List.nodup_iff_count_le_one.2 hlaw.jobs,
          fun hc => absurd hstart hc⟩
      · have hlaw := label_path (A := False) (B := c.resets) id (fun _ hn hr => hn hr) (fun _ => id) hpath hpricing hroom
          (hlabelled.law fun hc => absurd hc hstart)
        have ht := hlaw.labelled id
        exact ⟨ht.records, ht.jobs, fun _ => ht⟩
    · have hgrow := endScan_labels s.part x
      rw [hend]
      exact ⟨List.nodup_iff_count_le_one.2 fun n => (hgrow.records n).trans (List.nodup_iff_count_le_one.1 hlabelled.records n),
        List.nodup_iff_count_le_one.2 fun n => (hgrow.jobs n).trans (List.nodup_iff_count_le_one.1 hlabelled.jobs n),
        fun hc => absurd hstarting hc⟩
  · intro found base _ hfound hlabels h
    unfold step at h
    rw [hpending] at h
    rcases scanEnd_cases h with hsame | ⟨-, hend⟩
    · rw [hsame]
      exact hlabelled
    · rw [hend]
      exact labelled_endScan hlabelled hfound hlabels

end Sys2Proof.Machine
end


-- ==== Sys2Proof/Proofs/HostFrames.lean ====
section
/-! The reception of host frames and what their dispatch refuses (R190 to R192). -/

namespace Sys2Proof.Machine

/-! ## A reset does not depend on the receiver -/

section
variable (p : Part) (r : Receiver)

theorem Part.cutWrite_receiver {write : Part → Part} (h : ∀ q : Part, write (q.withReceiver r) = (write q).withReceiver r) :
    (p.withReceiver r).cutWrite write = (p.cutWrite write).withReceiver r := by
  have hfree : (p.withReceiver r).free = p.free := rfl
  unfold Part.cutWrite
  rw [hfree]
  split
  · rw [h]
    rfl
  · rfl

theorem Part.settleHeld_receiver : (p.withReceiver r).settleHeld = p.settleHeld.withReceiver r := by
  have hsame : (p.withReceiver r).awaitedWrite = p.awaitedWrite := rfl
  cases h : p.awaitedWrite with
  | none => simp only [Part.settleHeld, hsame, h]
  | some w =>
    cases w with
    | calAudit => simp only [Part.settleHeld, hsame, h]; rfl
    | _ =>
      simp only [Part.settleHeld, hsame, h]
      exact p.cutWrite_receiver r fun _ => rfl

theorem Part.settleGeneration_receiver (g : Nat) :
    (p.withReceiver r).settleGeneration g = (p.settleGeneration g).withReceiver r :=
  p.cutWrite_receiver r fun _ => rfl

theorem Part.storeEntry_receiver (e : ChangeEntry) : (p.withReceiver r).storeEntry e = (p.storeEntry e).withReceiver r :=
  rfl

theorem Part.settleArticle_receiver : (p.withReceiver r).settleArticle = p.settleArticle.withReceiver r := by
  have hsame : (p.withReceiver r).art = p.art := rfl
  have hfree : (p.withReceiver r).free = p.free := rfl
  unfold Part.settleArticle
  rw [hsame, hfree]
  split
  · exact p.settleGeneration_receiver r _
  · split
    · rw [p.storeEntry_receiver]
      exact (p.storeEntry _).useFree.settleGeneration_receiver r _
    · rfl
  · exact p.cutWrite_receiver r fun q => q.storeEntry_receiver r _
  · rfl

theorem Part.settleAppend_receiver : (p.withReceiver r).settleAppend = p.settleAppend.withReceiver r := by
  have hflight : (p.withReceiver r).inFlight = p.inFlight := rfl
  have htj : (p.withReceiver r).tj = p.tj := rfl
  unfold Part.settleAppend
  rw [hflight, htj]
  split <;> rfl

theorem Part.cutWrites_receiver : (p.withReceiver r).cutWrites = p.cutWrites.withReceiver r := by
  unfold Part.cutWrites
  rw [p.settleHeld_receiver, Part.settleArticle_receiver, Part.settleAppend_receiver]
  rfl

theorem Part.resetPart_receiver (tag : Nat) : (p.withReceiver r).resetPart tag = p.resetPart tag := by
  have hreset : ∀ time, (p.withReceiver r).reset .resetPart time = p.reset .resetPart time := fun time => by
    unfold Part.reset
    rw [p.cutWrites_receiver]
    rfl
  unfold Part.resetPart
  rw [hreset]
  rfl

end

/-! ## A frame that is received -/

/-- The receiver returns to hunting behind a frame that is discarded. -/
theorem Part.hunt_latchLink (p : Part) (r : Receiver) (d : LinkDetail) :
    ((p.withReceiver r).latchLink d).hunt = (p.latchLink d).withReceiver (.hunting p.now) := rfl

section
variable {p : Part} {f : WireFrame} {mark : Nat}

theorem Part.receive_late (h : mark + 50 < p.now) :
    (p.withReceiver (.receiving mark)).receive f = (p.withReceiver (.receiving mark)).latchLink .timeout :=
  if_pos (decide_eq_true h)

/-- A frame that has ended in time. -/
theorem Part.receive_intime (h : p.now ≤ mark + 50) : (p.withReceiver (.receiving mark)).receive f
    = if 240 < f.length.toNat then (p.withReceiver (.receiving mark)).latchLink .overlength
      else if crc16 (f.kind :: f.tag :: f.body) ≠ f.check then (p.withReceiver (.receiving mark)).latchLink .check
      else (p.withReceiver (.receiving mark)).acceptFrame ⟨f.tag.toNat, f.meaning⟩ :=
  if_neg fun hlate => absurd (of_decide_eq_true hlate) (Nat.not_lt.2 h)

theorem resetsPart_iff (f : WireFrame) :
    resetsPart ⟨f.tag.toNat, f.meaning⟩ = true ↔ f.meaning = .request .resetPart ∧ f.tag ≠ 0 := by
  have htag : f.tag.toNat = 0 ↔ f.tag = 0 := by
    constructor
    · exact fun h => BitVec.eq_of_toNat_eq h
    · rintro h
      rw [h]
      rfl
  simp [resetsPart, htag]

/-- A frame that is no RESET PART joins the buffer, or is discarded with OVERRUN. -/
theorem Part.acceptFrame_buffer {q : Part} (h : f.meaning ≠ .request .resetPart ∨ f.tag = 0) :
    q.acceptFrame ⟨f.tag.toNat, f.meaning⟩ = q.buffer ⟨f.tag.toNat, f.meaning⟩ := by
  refine if_neg fun hr => ?_
  obtain ⟨hmeaning, htag⟩ := (resetsPart_iff f).1 hr
  exact h.elim (fun hn => hn hmeaning) htag

end

theorem Part.takeFrame_front {p : Part} {f : Frame} (serving : p.ml.serving = none)
    (front : p.ml.buffer = [] ∨ p.ml.buffer.head? = some f) : p.takeFrame f = some p.taken := by
  unfold Part.takeFrame
  rw [serving]
  cases hb : p.ml.buffer with
  | nil =>
    have : p.taken = p := by
      unfold Part.taken
      rw [hb, List.tail_nil, ← hb]
    rw [this]
    rfl
  | cons g rest =>
    rw [hb] at front
    have hg : g = f := by simpa using front
    simp [hg, Part.taken, hb]

theorem refusable_of {f : Frame} (h : (∃ k, f.meaning = .notARequest k) ∨ (∃ k, f.meaning = .wrongBody k)
    ∨ f.meaning = .wrongResetBody ∨ f.tag = 0) : refusable f = true := by
  unfold refusable
  split
  · rename_i req hreq
    rcases h with ⟨k, hk⟩ | ⟨k, hk⟩ | hk | htag
    · cases hreq.symm.trans hk
    · cases hreq.symm.trans hk
    · cases hreq.symm.trans hk
    · simp [htag]
  · rfl

/-! ## Dispatch -/

/-- Every host request is dispatched to the block that serves it. -/
theorem exec_dispatch {c : Instr} {tag : Nat} {req : HostRequest} (h : c.hostRequest? = some (tag, req)) (s : State) :
    ∃ serve, exec c s = s.act (fun p => p.dispatch tag req serve) := by
  cases c <;> cases h <;> exact ⟨_, rfl⟩

theorem Part.dispatch_waiting {p : Part} (h : p.ml.serving ≠ none) (tag : Nat) (req : HostRequest)
    (serve : Part → Part × Answer) : p.dispatch tag req serve = p := by
  have hnone : p.takeFrame ⟨tag, .request req⟩ = none := if_pos (Option.isSome_iff_ne_none.2 h)
  unfold Part.dispatch
  rw [hnone]

theorem servedDuringScan_false {req : HostRequest} (hello : req ≠ .hello) (status : req ≠ .status) :
    servedDuringScan req = false := by
  cases req with
  | hello => exact absurd rfl hello
  | status => exact absurd rfl status
  | _ => rfl

/-- Settles O6: the reception of a frame goes through its five ends in turn, and every request goes through one dispatch. -/
theorem hostFramesAreReceivedAndJudged : Obligations.HostFramesAreReceivedAndJudged := by
  refine ⟨crc16_eq, fun s f hr => ?received, fun s hr => ?timeout, fun s f hr hserving hfront hmeaning => ?refused,
    fun s c tag req hc => ?dispatched⟩
  case received =>
    intro mark p hunts
    have hexec : exec (.hostFrame f) s
        = .next { s with part := ((p.withReceiver (.receiving mark)).receive f).hunt } := State.act_runs hr _
    have hlatch : ∀ d, (p.withReceiver (.receiving mark)).receive f = (p.withReceiver (.receiving mark)).latchLink d →
        exec (.hostFrame f) s = .next (hunts (p.latchLink d)) := fun d hd => by
      rw [hexec, hd]
      rfl
    refine ⟨fun hlate => hlatch _ (Part.receive_late hlate), fun hintime => ?_⟩
    have hreceive := Part.receive_intime (f := f) hintime
    refine ⟨fun hlong => hlatch _ (hreceive.trans (if_pos hlong)), fun hlength hcheck =>
      hlatch _ (hreceive.trans ((if_neg (Nat.not_lt.2 hlength)).trans (if_pos hcheck))), fun hlength hcheck => ?_⟩
    have haccept := hreceive.trans ((if_neg (Nat.not_lt.2 hlength)).trans (if_neg (not_not_intro hcheck)))
    refine ⟨fun hreset => ?_, fun hother => ?_⟩
    · have hruns : ({ s with part := p } : State).runs := hr
      have htag := (resetsPart_iff f).2 hreset
      rw [hexec, haccept]
      refine Eq.trans ?_ (State.act_runs hruns _).symm
      have hpart : (p.withReceiver (.receiving mark)).acceptFrame ⟨f.tag.toNat, f.meaning⟩ = p.resetPart f.tag.toNat :=
        (if_pos htag).trans (p.resetPart_receiver _ _)
      have hframe : p.acceptFrame ⟨f.tag.toNat, .request .resetPart⟩ = p.resetPart f.tag.toNat :=
        if_pos (by rw [← hreset.1]; exact htag)
      rw [hpart, hframe]
      rfl
    · rw [Part.acceptFrame_buffer hother] at haccept
      refine ⟨fun hroom => ?_, fun hfull => hlatch _ (haccept.trans (if_neg (Nat.not_lt.2 hfull)))⟩
      rw [hexec, haccept.trans (if_pos hroom)]
      rfl
  case timeout =>
    have htime : (max (s.part.now - 50) s.part.ml.receiver.mark + 50) - s.part.time.elapsed
        = s.part.ml.receiver.mark + 50 - s.part.time.elapsed := by
      have : s.part.now = s.part.time.elapsed := rfl
      omega
    refine ⟨_, rfl, (State.act_runs hr _).trans ?_, ?_⟩
    · rw [← htime]
      rfl
    · show _ ≤ s.part.time.elapsed + _
      omega
  case refused =>
    refine (State.act_runs hr _).trans ?_
    rw [Part.refuseFrame, refusable_of hmeaning, Part.takeFrame_front hserving hfront]
  case dispatched =>
    obtain ⟨serve, hserve⟩ := exec_dispatch hc s
    refine ⟨fun hd ht hstarting hello status => ?_, fun hserving => ?_⟩
    · rw [hserve, State.act_runs hd.1, Part.dispatch_starting hd ht hstarting, servedDuringScan_false hello status]
      rfl
    · rw [hserve]
      by_cases hr : s.runs
      · rw [State.act_runs hr, Part.dispatch_waiting hserving]
      · exact State.act_held (by simpa [State.runs] using hr) _

end Sys2Proof.Machine
end


-- ==== Sys2Proof/Proofs/Resets.lean ====
section
/-! The three resets (R192): the RAM that they leave, and the nonvolatile memory where they cut no write (R1, R188). -/

namespace Sys2Proof.Machine

/-! ## The RAM after a reset -/

theorem Channel.initialAll_get (x : Settings) (st : StationNo) :
    (Channel.initialAll x).get st = .initial (x.records.get st) (x.configs.get st) := by cases st <;> rfl

theorem Part.afterReset_fresh (cause : ResetCause) (nv : NonVolatile) (inputs : Inputs) {time : TimeBase} (free : Nat)
    (elapsed : time.elapsed = 0) : (Part.afterReset cause nv inputs time free).FreshRam cause where
  channels := Channel.initialAll_get nv.settings
  links st := by simp [Part.afterReset, Links.initial, StationLink.initial]
  selections st := by simp [Part.afterReset, ArticleControl.initial, Selection.initial]
  changeSet := rfl
  prefixes := ⟨rfl, rfl⟩
  operators st := by simp [Part.afterReset, OperatorControl.initial]
  clerks := rfl
  slots := ⟨rfl, fun _ h => List.eq_of_mem_replicate h⟩
  active st := by simp [Part.afterReset, OrderManager.initial]
  tickets := ⟨rfl, rfl, rfl, rfl, rfl, rfl⟩
  called st := by simp [Part.afterReset, TicketController.initial]
  printing := ⟨rfl, rfl, fun pr => by simp [Part.afterReset, LabelUnit.initial, Printer.initial]⟩
  journal := ⟨rfl, rfl, rfl, rfl, rfl, rfl⟩
  counter := ⟨rfl, rfl⟩
  calibration := ⟨rfl, rfl⟩
  port := ⟨rfl, rfl, rfl, rfl, rfl, rfl⟩
  takes d := by cases d <;> rfl
  conditions c := by simp [Part.afterReset, Links.initial]
  elapsed := elapsed

/-- A reply that is sent is no part of the RAM that a reset judges. -/
theorem Part.FreshRam.reply {p : Part} {cause : ResetCause} (h : p.FreshRam cause) (tag : Nat) (meaning : FrameMeaning)
    (body : ReplyBody) : (p.reply tag meaning body).FreshRam cause :=
  { h with }

theorem exec_resetPart {s : State} {tag : Nat} (h : s.runs) (ht : tag ≠ 0) :
    exec (.resetPart tag) s = .next { s with part := s.part.resetPart tag } :=
  (State.act_runs h _).trans (congrArg (fun q : Part => Host.Outcome.next { s with part := q }) (if_pos (by simp [resetsPart, ht])))

/-! ## The nonvolatile memory -/

/-- With no nonvolatile write in flight a reset cuts none. -/
theorem Part.cutWrites_quiet {p : Part} (h : p.quiet) : p.cutWrites = p.recountAudit := by
  obtain ⟨hserving, happend, hstore⟩ := h
  have hheld : p.settleHeld = p := by
    have hawaited : p.awaitedWrite = none := by rw [Part.awaitedWrite, hserving]; rfl
    unfold Part.settleHeld
    rw [hawaited]
  have harticle : p.settleArticle = p := by
    unfold Part.settleArticle
    split
    case h_1 hw => exact absurd hw (hstore _ _ _)
    case h_2 hw => exact absurd hw (hstore _ _ _)
    case h_3 hw => exact absurd hw (hstore _ _ _)
    case h_4 => rfl
  have hflight : p.inFlight = none := by
    rw [Part.inFlight, happend]
    rfl
  have hsettle : p.settleAppend = p := by
    unfold Part.settleAppend
    rw [hflight]
  rw [Part.cutWrites, hheld, harticle, hsettle]

/-- Settles O3: every reset ends in one RAM, and with no write in flight it only counts the audit entries again. -/
theorem resetsStartTheRamAfresh : Obligations.ResetsStartTheRamAfresh := by
  refine ⟨fun s tag => ⟨⟨_, rfl, rfl, Part.afterReset_fresh _ _ _ _ rfl, rfl, rfl, rfl⟩,
    ⟨_, rfl, rfl, Part.afterReset_fresh _ _ _ _ rfl, rfl, rfl, rfl⟩, fun hr ht => ⟨_, exec_resetPart hr ht, rfl,
      (Part.afterReset_fresh _ _ _ _ rfl).reply _ _ _, rfl, rfl, rfl, rfl⟩⟩, fun s tag hquiet c t hc h => ?_⟩
  have hnv : ∀ cause time, (s.part.reset cause time).nv = { s.part.nv with auditCounter := s.part.nv.audit.length } :=
    fun cause time => congrArg Part.nv (Part.cutWrites_quiet hquiet)
  rcases hc with rfl | rfl | ⟨rfl, ht, hr⟩
  · cases h
    exact hnv _ _
  · cases h
    have hlow : ({ s.part with inputs := { s.part.inputs with resetAsserted := false } } : Part).quiet := hquiet
    exact congrArg Part.nv (Part.cutWrites_quiet hlow)
  · rw [exec_resetPart hr ht] at h
    cases h
    exact hnv .resetPart s.part.time.restart

end Sys2Proof.Machine
end


-- ==== Sys2Proof/Proofs/JournalLow.lean ====
section
/-! The latch of JOURNAL_LOW (R156): no command but those that judge an erase sets it or changes its detail. -/

namespace Sys2Proof.Machine

/-- The latch of JOURNAL_LOW. -/
def Part.low (p : Part) : Latch := p.ml.latches.get .journalLow

section
variable {p q : Part}

theorem Part.low_of_ml (h : q.ml = p.ml) : q.low = p.low := by rw [Part.low, h, Part.low]

theorem Part.LinksKept.low (h : p.LinksKept q) : q.low = p.low := h.latches _ (by decide)

theorem Part.latch_low (p : Part) {c : Condition} (h : c ≠ .journalLow) (d : Option Detail) : (p.latch c d).low = p.low :=
  (p.latch_get c .journalLow d).trans (if_neg h.symm)

theorem takeFrame_low {f : Frame} (h : p.takeFrame f = some q) : q.low = p.low := by
  unfold Part.takeFrame at h
  split at h
  · cases h
  · split at h
    · cases h
      rfl
    · split at h
      · cases h
        rfl
      · cases h

end

section
variable (p : Part)

/-! ## Host requests -/

/-- What a dispatched request leaves of the latch is what its block leaves. -/
theorem Part.dispatch_low {tag : Nat} {req : HostRequest} {serve : Part → Part × Answer}
    (h : ∀ q, (serve q).1.low = q.low) : (p.dispatch tag req serve).low = p.low := by
  unfold Part.dispatch
  split
  · rfl
  · rename_i q hq
    split
    · exact (takeFrame_low hq :)
    · split
      · exact (takeFrame_low hq :)
      · refine Eq.trans ?_ ((h q).trans (takeFrame_low hq))
        cases (serve q).2 <;> rfl

theorem touchChange_low : p.touchChange.low = p.low := by unfold Part.touchChange; split <;> rfl

theorem serveBeginChange_low (base : Nat) : (serveBeginChange base p).1.low = p.low := by
  unfold serveBeginChange
  dsimp only
  split <;> exact touchChange_low p

theorem serveStagePut_low (f : ArticleFields) : (serveStagePut f p).1.low = p.low := by
  unfold serveStagePut
  dsimp only
  split <;> exact touchChange_low p

theorem serveStage_low (e : ChangeEntry) : (serveStage e p).1.low = p.low := by
  unfold serveStage
  dsimp only
  split <;> exact touchChange_low p

theorem serveDiscardChange_low : (serveDiscardChange p).1.low = p.low := by unfold serveDiscardChange; split <;> rfl

theorem serveApplyNow_low : (serveApplyNow p).1.low = p.low := by
  unfold serveApplyNow
  dsimp only
  split <;> exact touchChange_low p

theorem serveApplyAt_low (a b d : Nat) : (serveApplyAt a b d p).1.low = p.low := by
  unfold serveApplyAt
  dsimp only
  split <;> exact touchChange_low p

theorem failApply_low (r : Reason) : (p.failApply r).low = p.low := by unfold Part.failApply; split <;> rfl

theorem queueOrWait_low (r : Record) : (p.queueOrWait r).low = p.low := by unfold Part.queueOrWait; split <;> rfl

theorem reportScheduled_low : p.reportScheduled.low = p.low := by
  unfold Part.reportScheduled Part.scheduledReport
  split
  · split
    · exact failApply_low _ _
    · split
      · exact failApply_low _ _
      · exact queueOrWait_low _ _
  · rfl

theorem serveSetClock_low (a b d e f g : Nat) : (serveSetClock a b d e f g p).1.low = p.low := by
  unfold serveSetClock
  split
  · dsimp only
    split
    · split
      · exact reportScheduled_low _
      · rfl
    · rfl
  · rfl

theorem serveSetStation_low (body : SetStationBody) : (serveSetStation body p).1.low = p.low := by
  unfold serveSetStation
  split
  · split <;> rfl
  · split <;> rfl

theorem serveSetClerk_low (n : Nat) (role : Option Role) (name : Text) : (serveSetClerk n role name p).1.low = p.low := by
  unfold serveSetClerk
  split <;> rfl

theorem serveRemoveClerk_low (n : Nat) : (serveRemoveClerk n p).1.low = p.low := by
  unfold serveRemoveClerk
  split <;> rfl

theorem serveSignOffClerk_low (n : Nat) : (serveSignOffClerk n p).1.low = p.low := by
  unfold serveSignOffClerk
  split
  · rfl
  · rename_i h
    simp only [Part.signOffClerk, bind_ok, check_ok, need_ok, pure_ok, Prod.mk.injEq, Prod.exists] at h
    obtain ⟨_, -, _, -, _, -, _, _, hend, rfl, -⟩ := h
    exact (endSignOn_kept hend).low

theorem serveVoidOrder_low (n : Nat) : (serveVoidOrder n p).1.low = p.low := by
  unfold serveVoidOrder
  split
  · rfl
  · rename_i h
    simp only [Part.hostVoid, bind_ok, check_ok, need_ok, pure_ok, Prod.mk.injEq] at h
    obtain ⟨_, -, _, -, _, -, _, hvoid, rfl, -⟩ := h
    exact (Part.voidOrder_kept hvoid).low

theorem serveMoveJobs_low (a b : Nat) : (serveMoveJobs a b p).1.low = p.low := by
  unfold serveMoveJobs
  split
  · split <;> rfl
  · rfl

theorem serveCancelJobs_low (n : Nat) : (serveCancelJobs n p).1.low = p.low := by
  unfold serveCancelJobs
  split <;> rfl

theorem serveReadRecovery_low (n : Nat) : (serveReadRecovery n p).1.low = p.low := by
  unfold serveReadRecovery
  split
  · rfl
  · split <;> rfl

theorem serveOpenCounter_low : (serveOpenCounter p).1.low = p.low := by
  unfold serveOpenCounter
  split
  · rfl
  · rfl
  · split
    · rfl
    · split <;> rfl

theorem servePauseCounter_low : (servePauseCounter p).1.low = p.low := by unfold servePauseCounter; split <;> rfl

theorem serveCloseCounter_low : (serveCloseCounter p).1.low = p.low := by unfold serveCloseCounter; split <;> rfl

theorem serveDayClose_low : (serveDayClose p).1.low = p.low := by unfold serveDayClose; split <;> rfl

theorem serveCalBegin_low (n : Nat) : (serveCalBegin n p).1.low = p.low := by unfold serveCalBegin; split <;> rfl

theorem endSession_low (cause : EndCause) : (p.endSession cause).low = p.low := by unfold Part.endSession; split <;> rfl

theorem serveCalAbort_low : (serveCalAbort p).1.low = p.low := by
  unfold serveCalAbort
  split
  · exact endSession_low p .aborted
  · rfl

theorem serveStep_low (step : Part → Session → StepResult) : (serveStep step p).1.low = p.low := by
  unfold serveStep
  dsimp only
  split
  · rfl
  · split <;> rfl

theorem serveCalCommit_low : (serveCalCommit p).1.low = p.low := by
  unfold serveCalCommit
  dsimp only
  split
  · rfl
  · split <;> rfl

/-! ## The ends of writes, deadlines and the other ports -/

theorem replyHeld_low (body : ReplyBody) : (p.replyHeld body).low = p.low := by unfold Part.replyHeld; split <;> rfl

theorem failSettings_low : p.failSettings.low = p.low := (replyHeld_low _ _).trans rfl

theorem endSetStation_low (agrees : Bool) : (p.endSetStation agrees).low = p.low := by
  unfold Part.endSetStation
  split
  · split
    · refine (replyHeld_low _ _).trans ?_
      unfold Part.configureStation
      dsimp only
      split <;> rfl
    · exact failSettings_low p
  · split
    · exact replyHeld_low _ _
    · exact failSettings_low p
  · rfl

theorem endSetClerk_low (agrees : Bool) : (p.endSetClerk agrees).low = p.low := by
  unfold Part.endSetClerk
  split
  · split
    · exact replyHeld_low _ _
    · exact failSettings_low p
  · rfl

theorem endRemoveClerk_low (agrees : Bool) : (p.endRemoveClerk agrees).low = p.low := by
  unfold Part.endRemoveClerk
  split
  · split
    · exact replyHeld_low _ _
    · exact failSettings_low p
  · rfl

theorem failCommit_low (d : StoreDetail) : (p.failCommit d).low = p.low :=
  (replyHeld_low _ _).trans (endSession_low p .failed)

theorem endCalAudit_low (agrees : Bool) : (p.endCalAudit agrees).low = p.low := by
  unfold Part.endCalAudit
  split
  · split
    · rfl
    · exact failCommit_low _ _
  · rfl

theorem endCalRecord_low (agrees : Bool) : (p.endCalRecord agrees).low = p.low := by
  unfold Part.endCalRecord
  split
  · split
    · exact (replyHeld_low _ _).trans rfl
    · exact failCommit_low _ _
  · rfl

theorem gapExpiry_low : p.gapExpiry.low = p.low := by
  unfold Part.gapExpiry
  split
  · rfl
  · split
    · rfl
    · exact endSession_low _ _

theorem interruptSession_low (cause : EndCause) : (p.interruptSession cause).low = p.low := by
  unfold Part.interruptSession
  split
  · rfl
  · exact endSession_low p cause

theorem expireChangeSet_low : p.expireChangeSet.low = p.low := by unfold Part.expireChangeSet; split <;> rfl

theorem scheduledTime_low : p.scheduledTime.low = p.low := by
  unfold Part.scheduledTime
  split
  · rfl
  · exact reportScheduled_low _

theorem overrideDeadline_low (st : StationNo) : (p.overrideDeadline st).low = p.low := by
  unfold Part.overrideDeadline
  split <;> rfl

theorem sendPoll_low : p.sendPoll.low = p.low := by
  unfold Part.sendPoll
  split <;> rfl

theorem replyTimeout_low : p.replyTimeout.low = p.low := by unfold Part.replyTimeout; split <;> rfl

theorem takeKey_low (acc : Part × List KeyOutcome) (st : StationNo) (tag : Nat) (k : Key) :
    (takeKey st acc tag k).1.low = acc.1.low := by
  by_cases htag : (acc.1.ml.stations.get st).keptTag = some tag
  · rw [takeKey_kept htag]
  · rw [takeKey_served htag]
    show (Served.after (acc.1.keyTaken st tag) _).low = (acc.1.keyTaken st tag).low
    cases hserved : (acc.1.keyTaken st tag).serveKey st k with
    | error e => rfl
    | ok x => exact (serveKey_kept hserved).low

theorem replaceOutcomes_low (st : StationNo) (os : List KeyOutcome) : (p.replaceOutcomes st os).low = p.low := by
  unfold Part.replaceOutcomes
  split <;> rfl

theorem takeKeys_low (st : StationNo) (keys : List (Nat × Key)) : (p.takeKeys st keys).low = p.low := by
  refine (replaceOutcomes_low _ _ _).trans ?_
  suffices ∀ acc : Part × List KeyOutcome, (keys.foldl (fun acc k => takeKey st acc k.1 k.2) acc).1.low = acc.1.low from this _
  induction keys with
  | nil => exact fun _ => rfl
  | cons k keys ih => exact fun acc => (ih _).trans (takeKey_low acc st k.1 k.2)

theorem keyRequest_low (st : StationNo) (tag : Nat) (k : Key) : (p.keyRequest st tag k).low = p.low := by
  unfold Part.keyRequest
  split
  · exact takeKeys_low _ _ _
  · rfl

theorem stationReply_low (r : StationReply) : (p.stationReply r).low = p.low := by
  unfold Part.stationReply
  split
  · rfl
  · refine (takeKeys_low _ _ _).trans ?_
    show (Part.linkPresent _ _).low = _
    unfold Part.linkPresent
    dsimp only
    split <;> rfl

theorem stale_low (st : StationNo) : (p.stale st).low = p.low := by
  unfold Part.stale
  split
  · dsimp only
    unfold Part.staleSession
    split
    · exact (interruptSession_low _ _).trans rfl
    · rfl
  · rfl

theorem expireMissed_low (n : Nat) : (p.expireMissed n).low = p.low := by unfold Part.expireMissed; split <;> rfl

theorem receiveTake_low (d : DispenserNo) (tag : Nat) (agrees : Bool) : (p.receiveTake d tag agrees).low = p.low := by
  have hserved : (p.serveTake d).1.low = p.low := by
    unfold Part.serveTake
    split
    · rfl
    · rfl
    · rfl
    · split <;> rfl
  unfold Part.receiveTake Part.take
  split
  · split
    · rfl
    · exact hserved
  · rfl

theorem sendCalls_low : p.sendCalls.low = p.low := by unfold Part.sendCalls; split <;> rfl

theorem sendStatus_low (pr : PrinterNo) : (p.sendStatus pr).low = p.low := by unfold Part.sendStatus; split <;> rfl

theorem sendLabel_low (pr : PrinterNo) : (p.sendLabel pr).low = p.low := by
  unfold Part.sendLabel
  split
  · rfl
  · split <;> rfl

theorem giveUp_low (pr : PrinterNo) : (p.giveUp pr).low = p.low := by unfold Part.giveUp; split <;> rfl

theorem enterPrinterState_low (pr : PrinterNo) (x : PrinterState) : (p.enterPrinterState pr x).low = p.low := by
  unfold Part.enterPrinterState
  dsimp only
  split <;> rfl

theorem receivePrinter_low (pr : PrinterNo) (x : PrinterStatus) (agrees : Bool) : (p.receivePrinter pr x agrees).low = p.low := by
  unfold Part.receivePrinter
  split
  · exact enterPrinterState_low _ _ _
  · rfl

theorem printerOffline_low (pr : PrinterNo) : (p.printerOffline pr).low = p.low := by
  unfold Part.printerOffline
  split
  · rfl
  · rfl
  · exact enterPrinterState_low _ _ _

theorem sendNotice_low : p.sendNotice.low = p.low := by unfold Part.sendNotice; split <;> rfl

theorem refuseFrame_low (f : Frame) : (p.refuseFrame f).low = p.low := by
  unfold Part.refuseFrame
  split
  · rename_i hq
    exact (takeFrame_low hq :)
  · rfl

theorem frameTimeout_low : p.frameTimeout.low = p.low := rfl

/-! ## Appends, erases and the store-back -/

theorem settleClosing_low (n : Nat) : (p.settleClosing n).low = p.low := Part.low_of_ml (by simp)

theorem finishAppend_low (r : Record) : (p.finishAppend r).low = p.low := by
  have hpromote : ∀ q : Part, q.promote.low = q.low := fun q => Part.low_of_ml (by simp)
  refine (hpromote _).trans ?_
  show (p.storeRecord r).reportRetry.low = _
  have hstored : (p.storeRecord r).low = p.low := Part.low_of_ml (by simp)
  refine Eq.trans ?_ hstored
  unfold Part.reportRetry
  split <;> rfl

theorem storeEntry_low (e : ChangeEntry) : (p.storeEntry e).low = p.low := rfl

theorem offerStored_low (g : Nat) (later : List OwedGeneration) : (p.offerStored g later).low = p.low := by
  unfold Part.offerStored
  split
  · rfl
  · split
    · rfl
    · exact queueOrWait_low _ _

theorem offerAgain_low : p.offerAgain.low = p.low := by
  unfold Part.offerAgain
  split
  · exact offerStored_low _ _ _
  · rfl

theorem storeGeneration_low (g : Nat) (later : List OwedGeneration) (agrees : Bool) :
    (p.storeGeneration g later agrees).low = p.low := by
  unfold Part.storeGeneration
  split
  · exact offerStored_low _ _ _
  · rfl

theorem articleAreaWrite_low (a b : Bool) : (p.articleAreaWrite a b).low = p.low := by
  unfold Part.articleAreaWrite
  split
  · exact storeGeneration_low _ _ _ _
  · split
    · unfold Part.spoilEntry
      split <;> rfl
    · split
      · exact storeGeneration_low _ _ _ _
      · rfl
  · rfl

theorem lineWritten_low (n : Nat) (f : LineFields) : (p.lineWritten n f).low = p.low := by
  refine (settleClosing_low _ _).trans ?_
  unfold Part.onItemJob
  split <;> rfl

theorem closeWritten_low (n owner total : Nat) (label : Option Nat) : (p.closeWritten n owner total label).low = p.low :=
  Part.low_of_ml (by simp)

theorem voidOrderWritten_low (n owner value : Nat) : (p.voidOrderWritten n owner value).low = p.low :=
  Part.low_of_ml (by simp)

theorem switchTo_low (g : Nat) (es : List ChangeEntry) : (p.switchTo g es).low = p.low := by
  have hstation : ∀ (q : Part) (st : StationNo), (q.switchStation es st).low = q.low := fun q st => by
    unfold Part.switchStation
    dsimp only
    split <;> rfl
  have hall : ∀ (sts : List StationNo) (q : Part), (sts.foldl (Part.switchStation es) q).low = q.low := fun sts => by
    induction sts with
    | nil => exact fun _ => rfl
    | cons st sts ih => exact fun q => (ih _).trans (hstation q st)
  exact hall _ _

theorem finishStore_low : p.finishStore.low = p.low := by unfold Part.finishStore; split <;> rfl

theorem recordFailed_low (r : Record) : (p.recordFailed r).low = p.low := by
  have hclosing : ∀ n kind, (p.closingFailed n kind).low = p.low := fun n kind => by
    unfold Part.closingFailed
    split
    · rfl
    · exact Part.low_of_ml (by simp)
  cases r with
  | line n owner f =>
    refine (settleClosing_low _ _).trans ?_
    show (Part.markStoreError _ _).low = _
    unfold Part.onItemJob
    split <;> rfl
  | close n => exact hclosing n .sale
  | voidOrder n => exact hclosing n .void
  | priceApply => exact failApply_low p _
  | priceStored =>
    simp only [Part.recordFailed, Part.failStore]
    split <;> rfl
  | _ => rfl

theorem enterFault_low : p.enterFault.low = p.low :=
  enterFault_keeps (P := fun q => q.low = p.low) rfl (fun q r h => (recordFailed_low q r).trans h) fun _ _ h => h

theorem startErase_low : p.startErase.low = p.low := by
  unfold Part.startErase
  split
  · rfl
  · split <;> rfl

theorem resumeErase_low : p.resumeErase.low = p.low := by unfold Part.resumeErase; split <;> rfl

end

end Sys2Proof.Machine
end


-- ==== Sys2Proof/Proofs/JudgedErases.lean ====
section
/-! When JOURNAL_LOW is judged and with what outcome, and that no other command sets it (R153, R156). -/

namespace Sys2Proof.Machine

/-- Fewer than 4 sectors are ERASED, no erase is in flight and none can begin (R156). -/
def Part.shortOfSectors (p : Part) : Prop := p.erasedCount < 4 ∧ p.tj.erase = none ∧ p.begun = none ∧ p.candidate = none

/-- In `q` JOURNAL_LOW is as the judgement of R156 leaves what it was in `p`. -/
structure Part.LowJudged (p q : Part) : Prop where
  latched : q.shortOfSectors → q.low = ⟨true, some (.erasedSectors q.erasedCount)⟩
  left : ¬ q.shortOfSectors → q.low = p.low

/-- Where JOURNAL_LOW is set in `q`, it is as it was in `p`. -/
def Part.LowKept (p q : Part) : Prop := q.low.flag = true → q.low = p.low

section
variable {p q r : Part}

theorem Part.LowKept.of_eq (h : q.low = p.low) : p.LowKept q := fun _ => h

theorem Part.shortOfSectors_congr (hs : r.nv.sectors = q.nv.sectors) (hw : r.tj.writing = q.tj.writing)
    (he : r.tj.erase = none ↔ q.tj.erase = none) :
    (r.shortOfSectors ↔ q.shortOfSectors) ∧ r.erasedCount = q.erasedCount := by
  have hkind : r.isErased = q.isErased := funext fun i => by simp only [Part.isErased, hs, hw]
  have herased : r.erasedCount = q.erasedCount := by rw [Part.erasedCount, hkind, Part.erasedCount]
  have hbegun : r.begun = q.begun := by simp only [Part.begun, hs]
  have hcandidate : r.candidate = q.candidate := by simp only [Part.candidate, Part.lowestFull, hs, hw]
  exact ⟨by simp only [Part.shortOfSectors, herased, hbegun, hcandidate, he], herased⟩

/-- What touches neither the sectors nor the latch leaves a judgement as it is. -/
theorem Part.LowJudged.then (h : p.LowJudged q) (hs : r.nv.sectors = q.nv.sectors) (hw : r.tj.writing = q.tj.writing)
    (he : r.tj.erase = none ↔ q.tj.erase = none) (hl : r.low = q.low) : p.LowJudged r := by
  obtain ⟨hshort, herased⟩ := Part.shortOfSectors_congr hs hw he
  exact ⟨fun x => by rw [hl, herased]; exact h.latched (hshort.1 x), fun x => hl.trans (h.left (fun y => x (hshort.2 y)))⟩

theorem Part.LowJudged.of_low (h : q.LowJudged r) (hl : q.low = p.low) : p.LowJudged r :=
  ⟨h.latched, fun x => (h.left x).trans hl⟩

theorem Part.judges_iff (p : Part) :
    (p.erasedCount < Config.keptErased && p.tj.erase.isNone && p.nextErase.isNone) = true ↔ p.shortOfSectors := by
  simp only [Bool.and_eq_true, decide_eq_true_eq, Option.isNone_iff_eq_none, and_assoc]
  refine and_congr_right fun hfew => and_congr_right fun _ => ?_
  unfold Part.nextErase
  split
  · rename_i h
    simp [h]
  · rename_i h
    rw [if_pos hfew]
    simp [h]

theorem Part.judgeErase_judges (p : Part) : p.LowJudged p.judgeErase := by
  obtain ⟨hnv, -, -, -, -, -, -, -, htj, -⟩ := p.judgeErase_frame
  obtain ⟨hshort, herased⟩ := Part.shortOfSectors_congr (r := p.judgeErase) (q := p) (by rw [hnv]) (by rw [htj]) (by rw [htj])
  refine ⟨fun h => ?_, fun h => ?_⟩
  · have hset : p.judgeErase = p.latch .journalLow (some (.erasedSectors p.erasedCount)) :=
      if_pos (p.judges_iff.2 (hshort.1 h))
    rw [herased, hset]
    exact (p.latch_get .journalLow .journalLow _).trans (if_pos rfl)
  · have hsame : p.judgeErase = p := if_neg fun hj => h (hshort.2 (p.judges_iff.1 hj))
    rw [hsame]

end

/-! ## The judged moments -/

section
variable (p : Part)

theorem Part.openSector_judges (j : Nat) (a : Append) : p.LowJudged ((p.openSector j).withAppend (some a)) :=
  have hopened : p.LowJudged (p.openSector j) := (Part.judgeErase_judges _).of_low rfl
  hopened.then rfl rfl Iff.rfl rfl

theorem Part.endErase_judges (i : Nat) (agrees : Bool) : p.LowJudged (p.endErase i agrees) := by
  unfold Part.endErase
  dsimp only
  split
  · exact (Part.judgeErase_judges _).of_low rfl
  · exact (Part.judgeErase_judges _).of_low rfl

/-- A PRICE_STORED that is offered again changes no sector, and suspends no erase that is not in flight. -/
theorem Part.offerAgain_journal : p.offerAgain.nv = p.nv ∧ p.offerAgain.tj.writing = p.tj.writing
    ∧ (p.offerAgain.tj.erase = none ↔ p.tj.erase = none) := by
  have hplace : ∀ (q : Part) (r : Record), (q.queueOrWait r).nv = q.nv ∧ (q.queueOrWait r).tj.writing = q.tj.writing
      ∧ ((q.queueOrWait r).tj.erase = none ↔ q.tj.erase = none) := fun q r => by
    unfold Part.queueOrWait
    split
    · refine ⟨rfl, rfl, ?_⟩
      simp only [Part.queueRecord, Part.takePlace, Part.withQueue]
      split <;> simp
    · exact ⟨rfl, rfl, Iff.rfl⟩
  unfold Part.offerAgain
  split
  · unfold Part.offerStored
    split
    · exact ⟨rfl, rfl, Iff.rfl⟩
    · split
      · exact ⟨rfl, rfl, Iff.rfl⟩
      · exact hplace _ _
  · exact ⟨rfl, rfl, Iff.rfl⟩

theorem Part.eraseDone_judges {i : Nat} (agrees : Bool) (he : p.tj.erase = some ⟨i, false⟩) (hf : p.tj.fault = false) :
    p.LowJudged (p.eraseDone agrees) := by
  have hdone : p.eraseDone agrees = (p.endErase i agrees).offerAgain := by
    simp only [Part.eraseDone, he, hf, Bool.or_self, Bool.false_eq_true, if_false]
  rw [hdone]
  obtain ⟨hnv, hwriting, herase⟩ := (p.endErase i agrees).offerAgain_journal
  exact (p.endErase_judges i agrees).then (by rw [hnv]) hwriting herase (offerAgain_low _)

theorem Part.endScan_judges (failed : List Nat) : p.LowJudged (p.endScan failed) := by
  have hseal : ∀ (q : Part) (r : Reading), (q.sealAll r failed).low = q.low := fun q r =>
    (q.sealAll_get r failed .journalLow).trans (if_neg (by decide))
  have hscanned : (p.scanned failed).low = p.low := by
    rw [Part.low, p.scanned_ml failed]
    exact hseal _ _
  have hlast : ∀ q : Part, (q.judgeRecovery.judgeClock.sendStarted).low = q.low := fun q => by
    show q.judgeRecovery.judgeClock.low = q.low
    unfold Part.judgeClock Part.judgeRecovery
    split <;> split <;> rfl
  have hframe : ∀ q : Part, (q.judgeRecovery.judgeClock.sendStarted).nv = q.nv
      ∧ (q.judgeRecovery.judgeClock.sendStarted).tj = q.tj := fun q => by
    show q.judgeRecovery.judgeClock.nv = q.nv ∧ q.judgeRecovery.judgeClock.tj = q.tj
    unfold Part.judgeClock Part.judgeRecovery
    split <;> split <;> exact ⟨rfl, rfl⟩
  rw [p.endScan_eq failed]
  obtain ⟨hnv, htj⟩ := hframe (p.scanned failed).judgeErase
  exact ((Part.judgeErase_judges _).then (by rw [hnv]) (by rw [htj]) (by rw [htj]) (hlast _)).of_low hscanned

/-- Where no sector is opened, an append that begins leaves the latch as it is. -/
theorem Part.startAppend_judges :
    (p.startAppend.low = p.low ∧ (p.startAppend.tj.nextSeq = p.tj.nextSeq ∨ p.startAppend.tj.append = p.tj.append))
      ∨ (p.tj.append = none ∧ p.startAppend.tj.append ≠ none ∧ p.startAppend.tj.nextSeq ≠ p.tj.nextSeq
        ∧ p.LowJudged p.startAppend) := by
  unfold Part.startAppend
  split
  · exact .inl ⟨rfl, .inl rfl⟩
  · rename_i hfree
    split
    · exact .inl ⟨rfl, .inl rfl⟩
    · split
      · exact .inl ⟨rfl, .inl rfl⟩
      · split
        · exact .inl ⟨rfl, .inl rfl⟩
        · rename_i j _
          have htj := (p.openSector_append j .first).1
          refine .inr ⟨?_, ?_, ?_, p.openSector_judges j .first⟩
          · cases h : p.tj.append <;> simp_all
          · rw [htj]
            nofun
          · rw [htj]
            exact Nat.succ_ne_self _

/-! ## The sequence numbers in FAULT -/

theorem Part.promote_nextSeq : p.promote.tj.nextSeq = p.tj.nextSeq := by
  unfold Part.promote
  split
  · rfl
  · split <;> rfl

theorem Part.giveBack_nextSeq (n : Nat) : (p.giveBack n).tj.nextSeq = p.tj.nextSeq := (Part.promote_nextSeq _).trans rfl

theorem Part.failClosing_tj (o : Order) (k : CloseKind) : (p.failClosing o k).tj = p.tj := by
  unfold Part.failClosing Part.onTotalJob
  split <;> rfl

theorem Part.settleClosing_nextSeq (n : Nat) : (p.settleClosing n).tj.nextSeq = p.tj.nextSeq := by
  rcases p.settleClosing_cases n with h | ⟨o, k, -, -, -, ⟨-, h⟩ | ⟨-, h⟩⟩
  · rw [h]
  · rw [h]
    unfold Part.endEmptyClose
    refine (Part.giveBack_nextSeq _ _).trans ?_
    split <;> simp
  · rw [h]
    have htotal : ∀ q : Part, q.tj = p.tj → (if p.tj.fault then (q.failClosing o k).giveBack o.number
        else (q.fillPlace o.number (p.closingRecord o k)).setClosing o.number k .queued).tj.nextSeq = p.tj.nextSeq := fun q hq => by
      split
      · exact (Part.giveBack_nextSeq _ _).trans (by rw [Part.failClosing_tj, hq])
      · rw [← hq]; rfl
    unfold Part.formClosing
    refine htotal _ ?_
    cases k with
    | sale => unfold Part.onTotalJob; dsimp only; split <;> rfl
    | void => rfl

theorem Part.recordFailed_nextSeq (r : Record) : (p.recordFailed r).tj.nextSeq = p.tj.nextSeq := by
  have hclosing : ∀ n kind, (p.closingFailed n kind).tj.nextSeq = p.tj.nextSeq := fun n kind => by
    unfold Part.closingFailed
    split
    · rfl
    · rw [Part.failClosing_tj]
  cases r with
  | line n owner f =>
    refine (Part.settleClosing_nextSeq _ _).trans ?_
    unfold Part.onItemJob
    split <;> rfl
  | close n => exact hclosing n .sale
  | voidOrder n => exact hclosing n .void
  | priceApply =>
    simp only [Part.recordFailed, Part.failApply]
    split <;> rfl
  | priceStored =>
    simp only [Part.recordFailed, Part.failStore]
    split <;> rfl
  | _ => rfl

theorem Part.enterFault_nextSeq : p.enterFault.tj.nextSeq = p.tj.nextSeq :=
  enterFault_keeps (P := fun q => q.tj.nextSeq = p.tj.nextSeq) rfl (fun q r h => (q.recordFailed_nextSeq r).trans h)
    fun _ _ h => h

/-- Where no sector is opened for a retry, an append that fails leaves the latch as it is. -/
theorem Part.appendFailed_judges (agrees : Bool) :
    ((p.appendFailed agrees).low = p.low ∧ ((p.appendFailed agrees).tj.nextSeq = p.tj.nextSeq))
      ∨ (agrees = true ∧ p.tj.append = some .first ∧ (p.appendFailed agrees).tj.nextSeq ≠ p.tj.nextSeq
        ∧ p.LowJudged (p.appendFailed agrees)) := by
  have hmark : ∀ i, (if agrees = true then p.markBad i else p.spoilMark i).low = p.low
      ∧ (if agrees = true then p.markBad i else p.spoilMark i).tj = p.tj := fun i => by split <;> exact ⟨rfl, rfl⟩
  unfold Part.appendFailed
  split
  · rename_i a i ha _
    obtain ⟨hlow, htj⟩ := hmark i
    dsimp only
    generalize (if agrees = true then p.markBad i else p.spoilMark i) = q at hlow htj
    have hfault : q.enterFault.low = p.low ∧ q.enterFault.tj.nextSeq = p.tj.nextSeq :=
      ⟨(enterFault_low q).trans hlow, q.enterFault_nextSeq.trans (congrArg Journal.nextSeq htj)⟩
    split
    · rename_i hfirst
      unfold Part.retryAppend
      split
      · exact .inl hfault
      · rename_i j _
        simp only [Bool.and_eq_true, decide_eq_true_eq] at hfirst
        refine .inr ⟨hfirst.1, by rw [ha, hfirst.2], ?_, (q.openSector_judges j _).of_low hlow⟩
        rw [(q.openSector_append j (.retry i)).1, htj]
        exact Nat.succ_ne_self _
    · exact .inl hfault
  · exact .inl ⟨rfl, rfl⟩

end

end Sys2Proof.Machine
end


-- ==== Sys2Proof/Proofs/LowJournal.lean ====
section
/-! Over the commands of the part: JOURNAL_LOW is latched at the judged moments alone (R153, R156). -/

namespace Sys2Proof

/-- The commands that can judge whether an erase can begin. -/
def Instr.judges : Instr → Bool
  | .appendStart => true
  | .appendReadbackFail _ => true
  | .dayCloseWritten => true
  | .priceStoredWritten => true
  | .eraseDone _ => true
  | .startUpScanEnd _ => true
  | _ => false

end Sys2Proof

namespace Sys2Proof.Machine

section
variable {p q r : Part}

theorem Part.LowKept.of_low (h : q.LowKept r) (hl : q.low = p.low) : p.LowKept r := fun x => (h x).trans hl

theorem Part.low_of_fresh {cause : ResetCause} (h : q.FreshRam cause) : p.LowKept q := fun x => by
  rw [Part.low, (h.conditions .journalLow).1] at x
  cases x

theorem Part.reset_lowKept (cause : ResetCause) {time : TimeBase} (h : time.elapsed = 0) : p.LowKept (q.reset cause time) :=
  Part.low_of_fresh (Part.afterReset_fresh _ _ _ _ h)

theorem Part.acceptFrame_lowKept (p : Part) (f : Frame) : p.LowKept (p.acceptFrame f) := by
  unfold Part.acceptFrame
  split
  · exact Part.low_of_fresh ((Part.afterReset_fresh _ _ _ _ rfl).reply _ _ _)
  · unfold Part.buffer
    split <;> exact .of_eq rfl

theorem Part.takeWireFrame_lowKept (p : Part) (f : WireFrame) : p.LowKept (p.takeWireFrame f) := by
  unfold Part.takeWireFrame Part.receive
  dsimp only
  split
  · exact .of_eq rfl
  · split
    · exact .of_eq rfl
    · split
      · exact .of_eq rfl
      · exact (Part.acceptFrame_lowKept _ _).of_low rfl

theorem serveClearConditions_lowKept (named : List (Option Condition)) (p : Part) :
    p.LowKept (serveClearConditions named p).1 := by
  have hclear : ∀ (q : Part) (c : Condition), q.LowKept (q.clear c) := fun q c => by
    unfold Part.clear
    by_cases hc : c = .journalLow
    · subst hc
      exact fun x => by cases x
    · exact .of_eq (PerCondition.get_set_other _ _ (Ne.symm hc))
  have hall : ∀ (cs : List Condition) (q : Part), q.LowKept (cs.foldl Part.clear q) := fun cs => by
    induction cs with
    | nil => exact fun q => .of_eq rfl
    | cons c cs ih => exact fun q x => (ih _ x).trans (hclear q c ((congrArg Latch.flag (ih _ x)).symm.trans x))
  unfold serveClearConditions
  split
  · exact .of_eq rfl
  · exact hall _ p

/-- What a dispatched request keeps of the latch is what its block keeps. -/
theorem Part.dispatch_lowKept (p : Part) {tag : Nat} {req : HostRequest} {serve : Part → Part × Answer}
    (h : ∀ q : Part, q.LowKept (serve q).1) : p.LowKept (p.dispatch tag req serve) := by
  unfold Part.dispatch
  split
  · exact .of_eq rfl
  · rename_i q hq
    split
    · exact .of_eq (takeFrame_low hq :)
    · split
      · exact .of_eq (takeFrame_low hq :)
      · refine Part.LowKept.of_low (q := q) ?_ (takeFrame_low hq)
        have := h q
        cases (serve q).2 <;> exact this

end

section
variable {s t : State} {c : Instr} {f : Part → Part}

theorem act_lowKept (h : s.act f = .next t) (hf : ∀ p : Part, p.LowKept (f p)) : s.part.LowKept t.part := by
  cases h
  show s.part.LowKept (Part.unlessHeld f s.part)
  unfold Part.unlessHeld
  split
  · exact .of_eq rfl
  · exact hf _

theorem act_low (h : s.act f = .next t) (hf : ∀ p : Part, (f p).low = p.low) : s.part.LowKept t.part :=
  act_lowKept h fun p => .of_eq (hf p)

theorem appendWritten_low {report : Record → Option (Part → Part)} (p : Part)
    (h : ∀ r effect, report r = some effect → ∀ q, (effect q).low = q.low) : (p.appendWritten report).low = p.low := by
  unfold Part.appendWritten
  split
  · rfl
  · split
    · rfl
    · rename_i hreport
      exact (h _ _ hreport _).trans (finishAppend_low _ _)

/-- A command that is none of the judging ones sets no JOURNAL_LOW and changes no detail of one. -/
theorem exec_lowKept (h : exec c s = .next t) (hc : c.judges = false) : s.part.LowKept t.part := by
  cases hk : c.keyRequest? with
  | some x =>
    rw [exec_key (st := x.1) (tag := x.2.1) (k := x.2.2) hk] at h
    exact act_low h fun p => keyRequest_low p _ _ _
  | none =>
  cases c with
  | powerOn => cases h; exact Part.reset_lowKept _ rfl
  | resetLine => cases h; exact Part.reset_lowKept _ rfl
  | resetPart tag => exact act_lowKept h fun p => p.acceptFrame_lowKept _
  | hostFrame f => exact act_lowKept h fun p => p.takeWireFrame_lowKept f
  | clearConditions _ named => exact act_lowKept h fun p => p.dispatch_lowKept (serveClearConditions_lowKept named)
  | baudStrapChange | calibrationSwitchAssert | resetInputAsserted => cases h; exact .of_eq rfl
  | calibrationSwitchRelease =>
    cases h
    refine .of_eq ?_
    show (Part.unlessHeld _ _).low = _
    unfold Part.unlessHeld
    split
    · rfl
    · exact (interruptSession_low _ _).trans rfl
  | hostFrameTimeout => exact act_low h frameTimeout_low
  | notAHostRequest f => exact act_low h fun p => refuseFrame_low p f
  | notice => exact act_low h sendNotice_low
  | hello | status | setNotices | readConditions | readStation | readArticle | readOrder | readQueue | readPrinters
  | readJournal | readTotals | readClose | readAudit => exact act_low h fun p => p.dispatch_low fun _ => rfl
  | setStation _ body => exact act_low h fun p => p.dispatch_low fun q => serveSetStation_low q body
  | setStationWriteDone agrees => exact act_low h fun p => endSetStation_low p agrees
  | beginChange _ base => exact act_low h fun p => p.dispatch_low fun q => serveBeginChange_low q base
  | stagePut _ f => exact act_low h fun p => p.dispatch_low fun q => serveStagePut_low q f
  | stageDelete | stageHold | stageRelease => exact act_low h fun p => p.dispatch_low fun q => serveStage_low q _
  | discardChange => exact act_low h fun p => p.dispatch_low serveDiscardChange_low
  | changeStatus => exact act_low h fun p => p.dispatch_low touchChange_low
  | applyNow => exact act_low h fun p => p.dispatch_low serveApplyNow_low
  | applyAt _ a b d => exact act_low h fun p => p.dispatch_low fun q => serveApplyAt_low q a b d
  | changeSetExpiry => exact act_low h expireChangeSet_low
  | scheduledTimeReached => exact act_low h scheduledTime_low
  | setClerk _ n role name => exact act_low h fun p => p.dispatch_low fun q => serveSetClerk_low q n role name
  | setClerkWriteDone agrees => exact act_low h fun p => endSetClerk_low p agrees
  | removeClerk _ n => exact act_low h fun p => p.dispatch_low fun q => serveRemoveClerk_low q n
  | removeClerkWriteDone agrees => exact act_low h fun p => endRemoveClerk_low p agrees
  | signOffClerk _ n => exact act_low h fun p => p.dispatch_low fun q => serveSignOffClerk_low q n
  | hostVoidOrder _ n => exact act_low h fun p => p.dispatch_low fun q => serveVoidOrder_low q n
  | moveJobs _ a b => exact act_low h fun p => p.dispatch_low fun q => serveMoveJobs_low q a b
  | cancelJobs _ n => exact act_low h fun p => p.dispatch_low fun q => serveCancelJobs_low q n
  | readRecovery _ n => exact act_low h fun p => p.dispatch_low fun q => serveReadRecovery_low q n
  | openCounter => exact act_low h fun p => p.dispatch_low serveOpenCounter_low
  | pauseCounter => exact act_low h fun p => p.dispatch_low servePauseCounter_low
  | closeCounter => exact act_low h fun p => p.dispatch_low serveCloseCounter_low
  | setClock _ a b d e f g => exact act_low h fun p => p.dispatch_low fun q => serveSetClock_low q a b d e f g
  | dayClose => exact act_low h fun p => p.dispatch_low serveDayClose_low
  | calBegin _ n => exact act_low h fun p => p.dispatch_low fun q => serveCalBegin_low q n
  | calAbort => exact act_low h fun p => p.dispatch_low serveCalAbort_low
  | calZero | calSpan | calIntervals => exact act_low h fun p => p.dispatch_low fun q => serveStep_low q _
  | calCommit => exact act_low h fun p => p.dispatch_low serveCalCommit_low
  | calAuditWriteDone agrees => exact act_low h fun p => endCalAudit_low p agrees
  | calRecordWriteDone agrees => exact act_low h fun p => endCalRecord_low p agrees
  | calGapExpiry => exact act_low h gapExpiry_low
  | stationPoll => exact act_low h sendPoll_low
  | stationReply r => exact act_low h fun p => stationReply_low p r
  | stationReplyTimeout => exact act_low h replyTimeout_low
  | stationStale st => exact act_low h fun p => stale_low p st
  | overrideDeadline st => exact act_low h fun p => overrideDeadline_low p st
  | missedTicketExpiry n => exact act_low h fun p => expireMissed_low p n
  | take d tag agrees => exact act_low h fun p => receiveTake_low p d tag agrees
  | calls => exact act_low h sendCalls_low
  | printerStatusSend pr => exact act_low h fun p => sendStatus_low p pr
  | labelSend pr => exact act_low h fun p => sendLabel_low p pr
  | printerReply pr x agrees => exact act_low h fun p => receivePrinter_low p pr x agrees
  | printerMessageGiveUp pr => exact act_low h fun p => giveUp_low p pr
  | printerOffline pr => exact act_low h fun p => printerOffline_low p pr
  | lineWritten =>
    refine act_low h fun p => appendWritten_low p fun r effect hr q => ?_
    cases r <;> cases hr
    exact lineWritten_low _ _ _
  | voidLineWritten =>
    refine act_low h fun p => appendWritten_low p fun r effect hr q => ?_
    cases r <;> cases hr
    rfl
  | closeWritten =>
    refine act_low h fun p => appendWritten_low p fun r effect hr q => ?_
    cases r <;> cases hr
    exact closeWritten_low _ _ _ _ _
  | voidOrderWritten =>
    refine act_low h fun p => appendWritten_low p fun r effect hr q => ?_
    cases r <;> cases hr
    exact voidOrderWritten_low _ _ _ _
  | reprintWritten =>
    refine act_low h fun p => appendWritten_low p fun r effect hr q => ?_
    cases r <;> cases hr
    rfl
  | priceApplyWritten =>
    refine act_low h fun p => appendWritten_low p fun r effect hr q => ?_
    cases r <;> cases hr
    exact switchTo_low _ _ _
  | articleAreaWriteDone a b => exact act_low h fun p => articleAreaWrite_low p a b
  | eraseStart => exact act_low h startErase_low
  | eraseResume => exact act_low h resumeErase_low
  | startUpScanEnd | appendStart | appendReadbackFail | dayCloseWritten | priceStoredWritten | eraseDone => cases hc
  | _ => cases hk

/-! ## The judging commands -/

section
variable {failed : List Nat} {agrees : Bool}

theorem judgesErase_appendStart : s.judgesErase .appendStart t ↔ s.runs ∧ s.part.tj.append = none ∧ t.part.tj.append ≠ none
    ∧ t.part.tj.nextSeq ≠ s.part.tj.nextSeq := by simp [State.judgesErase]

theorem judgesErase_appendReadbackFail : s.judgesErase (.appendReadbackFail agrees) t
    ↔ s.runs ∧ agrees = true ∧ s.part.tj.append = some .first ∧ t.part.tj.nextSeq ≠ s.part.tj.nextSeq := by
  simp [State.judgesErase]

theorem judgesErase_dayCloseWritten :
    s.judgesErase .dayCloseWritten t ↔ s.runs ∧ ∃ d, s.part.inFlight = some (.dayClose d) := by
  simp [State.judgesErase]

theorem judgesErase_priceStoredWritten :
    s.judgesErase .priceStoredWritten t ↔ s.runs ∧ ∃ g, s.part.inFlight = some (.priceStored g) := by
  simp [State.judgesErase]

theorem judgesErase_eraseDone : s.judgesErase (.eraseDone agrees) t
    ↔ s.runs ∧ (∃ i, s.part.tj.erase = some ⟨i, false⟩) ∧ s.part.tj.fault = false := by
  simp [State.judgesErase]

theorem judgesErase_startUpScanEnd : s.judgesErase (.startUpScanEnd failed) t ↔ s.runs ∧ s.part.tt.counter = .starting := by
  simp [State.judgesErase]

theorem judges_of_judgesErase (h : s.judgesErase c t) : c.judges = true := by
  obtain ⟨-, ⟨rfl, -⟩ | ⟨rfl, -⟩ | ⟨rfl, -⟩ | ⟨rfl, -⟩ | ⟨_, _, rfl, -⟩ | ⟨_, rfl, -⟩⟩ := h <;> rfl

/-- A judging command acts on a part that is not held in reset, and on no other. -/
theorem judging_acts (hc : c.judges = true) : ∃ f, exec c s = s.act f := by
  cases c with
  | appendStart | appendReadbackFail | dayCloseWritten | priceStoredWritten | eraseDone | startUpScanEnd => exact ⟨_, rfl⟩
  | _ => cases hc

end

/-- JOURNAL_LOW across a step that is judged or not. -/
def Part.LowAcross (judged : Prop) (p q : Part) : Prop := (judged → p.LowJudged q) ∧ (¬ judged → p.LowKept q)

theorem Part.LowAcross.judged {j : Prop} {p q : Part} (hj : j) (h : p.LowJudged q) : Part.LowAcross j p q :=
  ⟨fun _ => h, fun hn => absurd hj hn⟩

theorem Part.LowAcross.kept {j : Prop} {p q : Part} (hj : ¬ j) (h : p.LowKept q) : Part.LowAcross j p q :=
  ⟨fun hn => absurd hn hj, fun _ => h⟩

/-- The completion of a record whose report is judged: JOURNAL_LOW is judged where that record is in flight, and otherwise
nothing changes. -/
theorem appendWritten_judges {report : Record → Option (Part → Part)} (p : Part)
    (h : ∀ r effect, report r = some effect →
      ∃ g : Part → Part, (∀ q, effect q = (g q).judgeErase) ∧ ∀ q, (g q).low = q.low) :
    Part.LowAcross (∃ r, p.inFlight = some r ∧ (report r).isSome = true) p (p.appendWritten report) := by
  cases hf : p.inFlight with
  | none => exact .kept (by simp) (.of_eq (by simp only [Part.appendWritten, hf]))
  | some r =>
    cases hr : report r with
    | none => exact .kept (by simp [hr]) (.of_eq (by simp only [Part.appendWritten, hf, hr]))
    | some effect =>
      obtain ⟨g, heffect, hg⟩ := h r effect hr
      have hdone : p.appendWritten report = (g (p.finishAppend r)).judgeErase := by
        simp only [Part.appendWritten, hf, hr, heffect]
      rw [hdone]
      exact .judged ⟨r, rfl, by rw [hr]; rfl⟩ ((Part.judgeErase_judges _).of_low ((hg _).trans (finishAppend_low p r)))

theorem reportDayClose_isSome {x : Option Record} :
    (∃ r, x = some r ∧ (reportDayClose r).isSome = true) ↔ ∃ d, x = some (.dayClose d) :=
  ⟨fun ⟨r, hx, hr⟩ => by cases r <;> simp_all [reportDayClose], fun ⟨d, hx⟩ => ⟨_, hx, rfl⟩⟩

theorem reportPriceStored_isSome {x : Option Record} :
    (∃ r, x = some r ∧ (reportPriceStored r).isSome = true) ↔ ∃ g, x = some (.priceStored g) :=
  ⟨fun ⟨r, hx, hr⟩ => by cases r <;> simp_all [reportPriceStored], fun ⟨g, hx⟩ => ⟨_, hx, rfl⟩⟩

theorem Part.eraseDone_lowAcross (p : Part) (agrees : Bool) :
    Part.LowAcross ((∃ i, p.tj.erase = some ⟨i, false⟩) ∧ p.tj.fault = false) p (p.eraseDone agrees) := by
  by_cases he : (∃ i, p.tj.erase = some ⟨i, false⟩) ∧ p.tj.fault = false
  · obtain ⟨⟨i, hi⟩, hf⟩ := he
    exact .judged ⟨⟨i, hi⟩, hf⟩ (p.eraseDone_judges agrees hi hf)
  · refine .kept he (.of_eq ?_)
    unfold Part.eraseDone
    split
    · rename_i e herase
      split
      · rfl
      · rename_i hgoes
        simp only [Bool.or_eq_true, not_or, Bool.not_eq_true] at hgoes
        exact absurd ⟨⟨e.sector, herase.trans (by rw [← hgoes.1])⟩, hgoes.2⟩ he
    · rfl

/-- A command at a judged moment leaves JOURNAL_LOW as the judgement says, and any other does not set it. -/
theorem exec_low (h : exec c s = .next t) : Part.LowAcross (s.judgesErase c t) s.part t.part := by
  cases hc : c.judges with
  | false => exact .kept (fun hj => by rw [judges_of_judgesErase hj] at hc; cases hc) (exec_lowKept h hc)
  | true =>
  by_cases hr : s.runs
  case neg =>
    obtain ⟨f, hf⟩ := judging_acts (s := s) hc
    rw [hf, State.act_held (by simpa [State.runs] using hr)] at h
    cases h
    exact .kept (fun hj => hr hj.1) (.of_eq rfl)
  case pos =>
  cases c with
  | appendStart =>
    cases (State.act_runs hr _).symm.trans h
    simp only [judgesErase_appendStart]
    rcases s.part.startAppend_judges with ⟨hlow, hsame⟩ | ⟨hnone, hsome, hseq, hjudged⟩
    · exact .kept (fun ⟨_, hnone, hsome, hseq⟩ => hsame.elim hseq fun h => hsome (h.trans hnone)) (.of_eq hlow)
    · exact .judged ⟨hr, hnone, hsome, hseq⟩ hjudged
  | appendReadbackFail agrees =>
    cases (State.act_runs hr _).symm.trans h
    simp only [judgesErase_appendReadbackFail]
    rcases s.part.appendFailed_judges agrees with ⟨hlow, hsame⟩ | ⟨hagrees, hfirst, hseq, hjudged⟩
    · exact .kept (fun ⟨_, _, _, hseq⟩ => hseq hsame) (.of_eq hlow)
    · exact .judged ⟨hr, hagrees, hfirst, hseq⟩ hjudged
  | dayCloseWritten =>
    cases (State.act_runs hr _).symm.trans h
    simp only [judgesErase_dayCloseWritten, hr, true_and, ← reportDayClose_isSome]
    exact appendWritten_judges s.part fun r effect he => by
      cases r <;> cases he
      exact ⟨_, fun _ => rfl, fun _ => rfl⟩
  | priceStoredWritten =>
    cases (State.act_runs hr _).symm.trans h
    simp only [judgesErase_priceStoredWritten, hr, true_and, ← reportPriceStored_isSome]
    exact appendWritten_judges s.part fun r effect he => by
      cases r <;> cases he
      exact ⟨_, fun _ => rfl, finishStore_low⟩
  | eraseDone agrees =>
    cases (State.act_runs hr _).symm.trans h
    have := s.part.eraseDone_lowAcross agrees
    simpa only [judgesErase_eraseDone, hr, true_and] using this
  | startUpScanEnd failed =>
    simp only [judgesErase_startUpScanEnd]
    cases (State.act_runs hr _).symm.trans h
    by_cases hstarting : s.part.tt.counter = .starting
    · exact .judged ⟨hr, hstarting⟩ (by
        have hend : s.part.scanEnds failed = s.part.endScan failed := if_pos hstarting
        exact hend ▸ s.part.endScan_judges failed)
    · exact .kept (fun ⟨_, h⟩ => hstarting h) (.of_eq (congrArg Part.low (if_neg hstarting : s.part.scanEnds failed = _)))
  | _ => cases hc

end

end Sys2Proof.Machine
end


-- ==== Sys2Proof/Proofs/LongQueue.lean ====
section
/-! PRINT_QUEUE_HIGH when a job joins the print queue (R132), and the two latches over the commands of the part. -/

namespace Sys2Proof

/-- The key requests that add a job to the print queue. -/
def Key.addsJob : Key → Bool
  | .addLine => true
  | .closeOrder => true
  | .reprint _ => true
  | _ => false

end Sys2Proof

namespace Sys2Proof.Machine

/-- The latch of PRINT_QUEUE_HIGH. -/
def Part.high (p : Part) : Latch := p.ml.latches.get .printQueueHigh

/-- The number of jobs and PRINT_QUEUE_HIGH as they were. -/
structure Part.JobsLeft (p q : Part) : Prop where
  length : q.lu.queue.length = p.lu.queue.length
  high : q.high = p.high

/-- Either no job has joined, or one has, for a printer, and PRINT_QUEUE_HIGH is latched where 24 or more are then held. -/
def Part.JobMayJoin (p q : Part) (pr : PrinterNo) : Prop :=
  p.JobsLeft q ∨ (q.lu.queue.length = p.lu.queue.length + 1
    ∧ (24 ≤ q.lu.queue.length → q.high = ⟨true, some (.printQueue q.lu.queue.length pr)⟩)
    ∧ (q.lu.queue.length < 24 → q.high = p.high))

section
variable {p q r : Part} {pr : PrinterNo}

theorem Part.JobsLeft.of_eq (hl : q.lu = p.lu) (hm : q.ml = p.ml) : p.JobsLeft q :=
  ⟨by rw [hl], by rw [Part.high, hm, Part.high]⟩

theorem Part.JobsLeft.trans (h : p.JobsLeft q) (k : q.JobsLeft r) : p.JobsLeft r :=
  ⟨k.length.trans h.length, k.high.trans h.high⟩

theorem Part.JobMayJoin.after (h : q.JobMayJoin r pr) (k : p.JobsLeft q) : p.JobMayJoin r pr := by
  rcases h with h | ⟨hlength, hlong, hshort⟩
  · exact .inl (k.trans h)
  · exact .inr ⟨by rw [hlength, k.length], hlong, fun hl => (hshort hl).trans k.high⟩

theorem Part.JobMayJoin.then (h : p.JobMayJoin q pr) (k : q.JobsLeft r) : p.JobMayJoin r pr := by
  rcases h with h | ⟨hlength, hlong, hshort⟩
  · exact .inl (h.trans k)
  · exact .inr ⟨by rw [k.length, hlength], fun hl => by rw [k.high, k.length]; exact hlong (by rwa [← k.length]),
      fun hl => k.high.trans (hshort (by rwa [← k.length]))⟩

theorem Part.addJob_joins (p : Part) (kind : LabelKind) (n : Nat) (pr : PrinterNo) (content : LabelContent) :
    p.JobMayJoin (p.addJob kind n pr content) pr := by
  have hlength : (p.lu.queue ++ [(⟨kind, n, pr, false, false, content⟩ : Job)]).length = p.lu.queue.length + 1 := by simp
  unfold Part.addJob
  dsimp only
  split
  · rename_i hlong
    exact .inr ⟨hlength, fun _ => (Part.latch_get _ _ _ _).trans (if_pos rfl), fun hshort => absurd hlong (Nat.not_le.2 hshort)⟩
  · rename_i hshort
    exact .inr ⟨hlength, fun hlong => absurd hlong hshort, fun _ => rfl⟩

/-! ## The three requests that add a job -/

section
variable {st : StationNo} {d : ResultData}

theorem Part.withOrder_left (p : Part) (st : StationNo) (operator : Nat) : p.JobsLeft (p.withOrder st operator)
    ∧ (p.withOrder st operator).wc = p.wc := by
  unfold Part.withOrder
  split <;> exact ⟨.of_eq (by simp) (by simp), by simp⟩

theorem Part.makeItemLabel_joins (p : Part) (o : Order) (f : LineFields) (a : Article) :
    p.JobMayJoin (p.makeItemLabel o f a) (p.config f.station).printer := by
  unfold Part.makeItemLabel
  split
  · exact .inl ⟨rfl, rfl⟩
  · exact (Part.addJob_joins p.takeLabel _ _ _ _).after ⟨rfl, rfl⟩

theorem Part.addLine_joins (p : Part) (o : Order) (f : LineFields) (a : Article) :
    p.JobMayJoin (p.addLine o f a) (p.config f.station).printer := by
  have hlabel := (p.updateOrder o.number (fun x => { x with
    lines := x.lines ++ [⟨f, .pending⟩], total := x.total + f.linePrice })).makeItemLabel_joins o f a
  have hstart := hlabel.after (p := p) ⟨rfl, rfl⟩
  refine hstart.then ?_
  unfold Part.addLine Part.confirmLine
  dsimp only
  split <;> exact ⟨rfl, rfl⟩

theorem keyAddLine_joins {operator : Nat} (h : keyAddLine st operator p = .ok (q, d)) :
    p.JobMayJoin q (p.config st).printer := by
  simp only [keyAddLine, bind_ok, need_ok, pure_ok, Prod.mk.injEq] at h
  obtain ⟨c, -, o, -, rfl, -⟩ := h
  obtain ⟨hleft, hwc⟩ := p.withOrder_left st operator
  have hjoins := (p.withOrder st operator).addLine_joins o ((p.withOrder st operator).newLine st o c) c.article
  have hconfig : (p.withOrder st operator).config st = p.config st := by rw [Part.config, hwc, Part.config]
  exact hconfig ▸ hjoins.after hleft

theorem keyReprint_joins {index supervisor : Nat} (h : keyReprint st index supervisor p = .ok (q, d)) :
    p.JobMayJoin q (p.config st).printer := by
  simp only [keyReprint, bind_ok, need_ok, check_ok, pure_ok, Prod.mk.injEq, Prod.exists] at h
  obtain ⟨o, f, -, k, -, _, -, _, -, rfl, -⟩ := h
  exact (Part.addJob_joins _ _ _ _ _).then ⟨rfl, rfl⟩

theorem Part.makeTotalLabel_joins (p : Part) (st : StationNo) (o : Order) :
    p.JobMayJoin (p.makeTotalLabel st o) (p.config st).printer := by
  unfold Part.makeTotalLabel
  split
  · exact (Part.addJob_joins _ _ _ _ _).after ⟨rfl, rfl⟩
  · exact .inl ⟨rfl, rfl⟩

/-- A close with something to record, outside FAULT, completes at most the content of a job. -/
theorem Part.beginClosing_left {o : Order} {n : Nat} {kind : CloseKind} (ho : p.order n = some o)
    (hn : o.nothingToClose kind = false) (hf : p.tj.fault = false) : p.JobsLeft (p.beginClosing n kind) := by
  cases hp : o.hasPending with
  | true =>
    rw [Part.beginClosing_waits ho hp]
    exact ⟨rfl, rfl⟩
  | false =>
    rw [Part.beginClosing_forms ho hp hn hf]
    obtain ⟨-, -, hlu, -, -, -, -, -, -, -, -, hml⟩ := (p.closeWaits n kind).formed_parts
      { o with state := .closing kind .waiting } n kind ((p.closeWaits n kind).closingRecord o kind)
    refine ⟨?_, by rw [Part.high, hml]; rfl⟩
    rw [hlu]
    cases kind with
    | void => rfl
    | sale =>
      simp only [Part.completed, Part.onTotalJob]
      cases o.totalLabel with
      | none => rfl
      | some k => exact length_changeFirst _ _ _

theorem keyCloseOrder_joins (h : keyCloseOrder st p = .ok (q, d)) : p.JobMayJoin q (p.config st).printer := by
  simp only [keyCloseOrder, bind_ok, need_ok] at h
  obtain ⟨o, ho, h⟩ := h
  split at h
  · simp only [pure_ok, Prod.mk.injEq] at h
    obtain ⟨rfl, -⟩ := h
    exact .inl (.of_eq (by simp) (by simp))
  · rename_i hlines
    simp only [bind_ok, check_ok, pure_ok, Prod.mk.injEq] at h
    obtain ⟨_, -, _, hjournal, rfl, -⟩ := h
    have horder := Part.makeTotalLabel_order (st := st) (Part.order_of_active ho).2
    have hfault : (p.makeTotalLabel st o).tj.fault = false := by
      have hframe : (p.makeTotalLabel st o).tj = p.tj := by simp
      rw [hframe]
      exact (Part.journalCheck_ok.1 hjournal).1
    exact (p.makeTotalLabel_joins st o).then (Part.beginClosing_left horder (Bool.eq_false_iff.2 hlines) hfault)

/-! ## A key request on its own -/

theorem serveKey_joins {k : Key} (hk : k.addsJob = true) (h : p.serveKey st k = .ok (q, d)) :
    p.JobMayJoin q (p.config st).printer := by
  unfold Part.serveKey at h
  split at h
  · cases h
  · split at h
    · cases h
    · split at h
      · cases k with
        | addLine | closeOrder | reprint => cases h
        | _ => cases hk
      · cases k with
        | addLine => exact keyAddLine_joins h
        | closeOrder => exact keyCloseOrder_joins h
        | reprint index =>
          simp only [Part.serveSignedOn, Part.privileged, bind_ok, need_ok, pure_ok, Prod.mk.injEq, Prod.exists] at h
          obtain ⟨supervisor, -, q', d', hreprint, rfl, -⟩ := h
          exact (keyReprint_joins hreprint).then ⟨rfl, rfl⟩
        | _ => cases hk

theorem keyRequest_joins {tag : Nat} {k : Key} (hk : k.addsJob = true) (p : Part) :
    p.JobMayJoin (p.keyRequest st tag k) (p.config st).printer := by
  have hreplace : ∀ (q : Part) os, q.JobsLeft (q.replaceOutcomes st os) := fun q os => by
    unfold Part.replaceOutcomes
    split <;> exact ⟨rfl, rfl⟩
  unfold Part.keyRequest
  split
  · unfold Part.takeKeys
    refine Part.JobMayJoin.then ?_ (hreplace _ _)
    show p.JobMayJoin (takeKey st (p, []) tag k).1 _
    by_cases htag : (p.ml.stations.get st).keptTag = some tag
    · rw [takeKey_kept (acc := (p, [])) htag]
      exact .inl ⟨rfl, rfl⟩
    · rw [takeKey_served (acc := (p, [])) htag]
      show p.JobMayJoin (Served.after (p.keyTaken st tag) ((p.keyTaken st tag).serveKey st k)) _
      cases hserved : (p.keyTaken st tag).serveKey st k with
      | error e => exact .inl ⟨rfl, rfl⟩
      | ok x => exact (serveKey_joins hk hserved).after ⟨rfl, rfl⟩
  · exact .inl ⟨rfl, rfl⟩

end

end

/-- Settles O47: over the commands JOURNAL_LOW is as `exec_low` says, and a job joins in the three key requests alone. -/
theorem lowJournalAndLongQueueAreLatched : Obligations.LowJournalAndLongQueueAreLatched := by
  refine ⟨fun s t c h => ?_, fun s t c st tag hc h => ?_⟩
  · obtain ⟨hjudged, hkept⟩ := exec_low h
    exact ⟨fun hj => ⟨(hjudged hj).latched, (hjudged hj).left⟩, hkept⟩
  · obtain ⟨k, hk, hexec⟩ : ∃ k : Key, k.addsJob = true ∧ c.keyRequest? = some (st, tag, k) := by
      rcases hc with rfl | rfl | ⟨index, rfl⟩ <;> exact ⟨_, rfl, rfl⟩
    have hjoins : s.part.JobMayJoin t.part (s.part.config st).printer := by
      rw [exec_key hexec] at h
      cases h
      show s.part.JobMayJoin (Part.unlessHeld _ s.part) _
      unfold Part.unlessHeld
      split
      · exact .inl ⟨rfl, rfl⟩
      · exact keyRequest_joins hk s.part
    rcases hjoins with ⟨hlength, hhigh⟩ | ⟨hlength, hlong, hshort⟩
    · exact ⟨fun hjoined => absurd (hlength.symm.trans hjoined) (Nat.ne_of_lt (Nat.lt_succ_self _)), fun _ => hhigh⟩
    · exact ⟨fun _ => hlong, fun hx => hshort (hx.resolve_left fun hsame => by omega)⟩

end Sys2Proof.Machine
end


-- ==== Sys2Proof/Proofs/ScanEnd.lean ====
section
/-! The end of the start-up scan (R158 to R162, R168, R192): the part that it leaves, field by field. -/

namespace Sys2Proof.Machine

/-! ## Reading a sector -/

section
variable {x : Indexed} {good : List Stored}

theorem Stored.agrees_iff (y : Stored) : y.agrees = true ↔ y.check = crc16 (Config.recordContent y.record) := by
  unfold Stored.agrees Record.check
  exact decide_eq_true_iff

/-- A sector all of whose records agree is read, and the reading goes on. -/
theorem readSectors_whole (rest : List Indexed) (hgood : ∀ y ∈ good, Stored.agrees y = true) (h : x.sector.area = good) :
    readSectors (x :: rest) = ⟨⟨x.index, { x.sector with records := good, torn := none }⟩ :: (readSectors rest).read,
      (readSectors rest).failed, (readSectors rest).passedOver⟩ := by
  have hwhole : x.sector.whole = true := by rw [Sector.whole, h, List.all_eq_true]; exact hgood
  have hscanned : x.scanned = ⟨x.index, { x.sector with records := good, torn := none }⟩ := by
    rw [Indexed.scanned, Sector.scanned, h, List.takeWhile_eq_self_iff.2 hgood]
  rw [← hscanned]
  exact if_pos hwhole

/-- The reading ends at the first record whose check fails. -/
theorem readSectors_fails {bad : Stored} {behind : List Stored} (rest : List Indexed)
    (hgood : ∀ y ∈ good, Stored.agrees y = true) (h : x.sector.area = good ++ bad :: behind) (hbad : bad.agrees = false) :
    readSectors (x :: rest) = ⟨[], some ⟨x.index, { x.sector with records := good, torn := none }⟩, rest⟩ := by
  have hwhole : ¬ x.sector.whole = true := by simp [Sector.whole, h, hbad]
  have hscanned : x.scanned = ⟨x.index, { x.sector with records := good, torn := none }⟩ := by
    rw [Indexed.scanned, Sector.scanned, h, List.takeWhile_append_of_pos hgood, List.takeWhile_cons, hbad]
    simp
  rw [← hscanned]
  exact if_neg hwhole

theorem readSectors_passedOver (l : List Indexed) : ∀ y ∈ (readSectors l).passedOver, y ∈ l := by
  induction l with
  | nil =>
    rw [readSectors]
    exact fun y hy => hy
  | cons s rest ih =>
    rw [readSectors]
    split
    · exact fun y hy => List.mem_cons_of_mem _ (ih y hy)
    · exact fun y hy => List.mem_cons_of_mem _ hy

theorem Reading.early_none {r : Reading} (h : r.failed = none) : r.early = none := by simp only [Reading.early, h]

theorem Reading.early_some {r : Reading} {s : Indexed} (h : r.failed = some s) :
    r.early = if r.passedOver = [] then none else some ⟨s.seq, r.passedOver.length⟩ := by
  simp only [Reading.early, h, List.isEmpty_iff]

end

/-! ## Seals -/

/-- A sector after its seal (R160): a failed seal leaves it BAD, and a BAD one stays BAD. -/
def Sector.sealedAt (failed : List Nat) (i : Nat) (records : List Stored) (y : Sector) : Sector :=
  { y with mark := if i ∈ failed ∨ y.mark = .bad then .bad else .sealed, records := records, torn := none }

section
variable {failed : List Nat} {p : Part} {s : Indexed} {records : List Stored}

theorem Sector.sealedAt_bad {y : Sector} {i : Nat} (h : y.mark = .bad) : (y.sealedAt failed i records).mark = .bad :=
  if_pos (.inr h)

theorem Sector.sealedAt_sealedAt (y : Sector) (i : Nat) :
    (y.sealedAt failed i records).sealedAt failed i records = y.sealedAt failed i records := by
  by_cases h : i ∈ failed ∨ y.mark = .bad
  · simp [Sector.sealedAt, h]
  · have hi : i ∉ failed := fun hi => h (.inl hi)
    simp [Sector.sealedAt, hi]

/-- A seal of a sector as it was read, which is BAD only where the sector is. -/
theorem Part.sealSector_sectors (h : ∀ y, p.nv.sectors[s.index]? = some y → s.sector.mark = .bad → y.mark = .bad) (i : Nat) :
    (p.sealSector failed s records).nv.sectors[i]? = (p.nv.sectors[i]?).map (fun y =>
      if i = s.index then y.sealedAt failed i records else y) := by
  have hsectors : (p.sealSector failed s records).nv.sectors = p.nv.sectors.modify s.index
      (fun t => t.seal records (failed.contains s.index && s.sector.mark ≠ .bad)) := by
    unfold Part.sealSector
    dsimp only
    split <;> rfl
  rw [hsectors, List.getElem?_modify]
  by_cases hi : s.index = i
  · subst hi
    cases hy : p.nv.sectors[s.index]? with
    | none => rfl
    | some y =>
      have hbad := h y hy
      have hmark : y.seal records (failed.contains s.index && s.sector.mark ≠ .bad) = y.sealedAt failed s.index records := by
        by_cases hz : s.sector.mark = .bad
        · simp [Sector.seal, Sector.sealedAt, hz, hbad hz]
        · simp [Sector.seal, Sector.sealedAt, hz]
      simp only [Option.map_some, Option.map_eq_map, if_true]
      exact congrArg some hmark
  · simp [hi, Ne.symm hi]

theorem Part.sealPassed_get {l : List Indexed}
    (h : ∀ z ∈ l, ∀ y, p.nv.sectors[z.index]? = some y → z.sector.mark = .bad → y.mark = .bad) (i : Nat) :
    (l.foldl (fun q t => q.sealSector failed t []) p).nv.sectors[i]? = (p.nv.sectors[i]?).map (fun y =>
      if ∃ z ∈ l, z.index = i then y.sealedAt failed i [] else y) := by
  induction l generalizing p with
  | nil => simp
  | cons a l ih =>
    have hsealed := Part.sealSector_sectors (failed := failed) (records := []) (h a List.mem_cons_self)
    rw [List.foldl_cons, ih, hsealed, Option.map_map]
    · congr 1
      funext y
      by_cases ha : a.index = i
      · subst ha
        by_cases hl : ∃ z ∈ l, z.index = a.index
        · simp [hl, Sector.sealedAt_sealedAt]
        · simp [hl]
      · simp [ha, Ne.symm ha]
    · intro z hz y hy hbad
      rw [hsealed] at hy
      obtain ⟨y', hy', rfl⟩ := Option.map_eq_some_iff.1 hy
      have := h z (List.mem_cons_of_mem _ hz) y' hy' hbad
      split
      · exact Sector.sealedAt_bad this
      · exact this

/-- The sectors after the seals of a reading of them. -/
theorem Part.sealAll_sectors {x : Indexed} (hx : (readSectors (journalSectors p.nv.sectors)).failed = some x)
    (hdistinct : ∀ y ∈ (readSectors (journalSectors p.nv.sectors)).passedOver, y.index ≠ x.index) (i : Nat) :
    (p.sealAll (readSectors (journalSectors p.nv.sectors)) failed).nv.sectors[i]? = (p.nv.sectors[i]?).map (fun y =>
      if i = x.index then y.sealedAt failed i x.sector.records
      else if ∃ z ∈ (readSectors (journalSectors p.nv.sectors)).passedOver, z.index = i then y.sealedAt failed i []
      else y) := by
  have hread : ∀ y, p.nv.sectors[x.index]? = some y → x.sector.mark = .bad → y.mark = .bad := fun y hy hbad => by
    obtain ⟨z, hz, -, rfl⟩ := readSectors_failed hx
    have hsector : p.nv.sectors[z.scanned.index]? = some z.sector := (mem_journalSectors hz).1
    cases hsector.symm.trans hy
    exact hbad
  have hsealed := Part.sealSector_sectors (failed := failed) (records := x.sector.records) hread
  have hpassed := Part.sealPassed_get (failed := failed) (p := p.sealSector failed x x.sector.records)
    (l := (readSectors (journalSectors p.nv.sectors)).passedOver) fun z hz y hy hbad => by
      have hsector := (mem_journalSectors (readSectors_passedOver _ z hz)).1
      rw [hsealed, hsector, Option.map_some, if_neg (hdistinct z hz)] at hy
      cases hy
      exact hbad
  rw [Part.sealAll, hx]
  refine (hpassed i).trans ?_
  rw [hsealed, Option.map_map]
  congr 1
  funext y
  by_cases hi : i = x.index
  · have hnone : ¬ ∃ z ∈ (readSectors (journalSectors p.nv.sectors)).passedOver, z.index = i :=
      fun ⟨z, hz, hzi⟩ => hdistinct z hz (hzi.trans hi)
    simp [hi, hi ▸ hnone]
  · simp [hi]

end

/-! ## The part at the end of the scan -/

section
variable (p : Part) (failed : List Nat)

/-- The store-back after the roll-forward (R73). -/
def Part.rolledStoreBack (p : Part) : StoreBack :=
  match (unstored p.reading.records).foldl (fun l o => insertByKey OwedGeneration.generation o l) [] with
  | [] => p.art.storeBack
  | o :: later => .storing o.generation (.writing o.entries) later

/-- The values that the scan has rebuilt, in the blocks of a part (R73, R90, R113, R128, R158, R161, R172). -/
structure Part.Rebuilt (p q : Part) : Prop where
  art : q.art = { p.art with
    table := (unstored p.reading.records).foldl (fun t o => applyEntries o.generation o.entries t) p.nv.articles
    generation := rebuiltGeneration p.nv.areaGeneration p.reading.records
    storeBack := p.rolledStoreBack }
  om : q.om = { p.om with
    lastNumber := farthest 9999 ((p.sinceScan.1.map DayClose.lastOrder).getD 0) (p.sinceScan.2.filterMap Record.orderNumber?) }
  lu : q.lu = { p.lu with
    lastLabel := farthest Config.max32 ((p.sinceScan.1.map DayClose.lastLabel).getD 0) (p.sinceScan.2.filterMap Record.label?) }
  tc : q.tc = { p.tc with validFrom := p.stamp }
  tj : q.tj = { p.tj with nextSeq := highestSeq (surveyed p.nv.sectors) + 1, openAfter := p.reading.endIndex }
  tt : q.tt = { p.tt with
    counter := .closed
    day := (p.sinceScan.1.map (fun x => dayAfter x.day)).getD 1
    grandTotal := (p.sinceScan.1.map DayClose.grandTotalAfter).getD 0
    lastClose := p.sinceScan.1
    accumulators := (rebuild p.sinceScan.2).accumulators
    interrupted := interruptedOf (rebuild p.sinceScan.2).interrupted
    report := some ⟨p.ml.cause, p.reading.early, (rebuild p.sinceScan.2).interrupted, false⟩ }
  cause : q.ml.cause = p.ml.cause

theorem Part.Rebuilt.of_ml {q : Part} (h : p.Rebuilt q) {ml : Links} (cause : ml.cause = q.ml.cause) :
    p.Rebuilt { q with ml := ml } := ⟨h.art, h.om, h.lu, h.tc, h.tj, h.tt, cause.trans h.cause⟩

theorem Part.rollForward_eq (rs : List Record) : p.rollForward rs = { p with art := { p.art with
    table := (unstored rs).foldl (fun t o => applyEntries o.generation o.entries t) p.nv.articles
    generation := rebuiltGeneration p.nv.areaGeneration rs
    storeBack := match (unstored rs).foldl (fun l o => insertByKey OwedGeneration.generation o l) [] with
      | [] => p.art.storeBack
      | o :: later => .storing o.generation (.writing o.entries) later } } := by
  unfold Part.rollForward
  dsimp only
  cases (unstored rs).foldl (fun l o => insertByKey OwedGeneration.generation o l) [] <;> rfl

theorem Part.scanned_rebuilt : p.Rebuilt (p.scanned failed) := by
  obtain ⟨sectors, latches, notices, hseals⟩ := Part.sealAll_eq
    { p with nv := { p.nv with sectors := surveyed p.nv.sectors } } p.reading failed
  have htake : p.takeSectors (surveyed p.nv.sectors) p.reading failed
      = { (p.withSeals sectors latches notices) with
          tj := { p.tj with nextSeq := highestSeq (surveyed p.nv.sectors) + 1, openAfter := p.reading.endIndex } } :=
    congrArg (fun t : Part => ({ t with tj := { t.tj with
      nextSeq := highestSeq (surveyed p.nv.sectors) + 1, openAfter := p.reading.endIndex } } : Part)) hseals
  have hscanned : p.scanned failed = (((((p.takeSectors (surveyed p.nv.sectors) p.reading failed).rollForward
    p.reading.records).takeNumbers p.sinceScan.1 p.sinceScan.2).takeTotals p.sinceScan.1 p.sinceScan.2
    p.reading.early).startFigures.handCallList) := rfl
  rw [hscanned, Part.rollForward_eq, htake]
  exact ⟨rfl, rfl, rfl, rfl, rfl, rfl, rfl⟩

theorem Part.judged_ml (q : Part) : ∃ latches notices, q.judgeErase.judgeRecovery.judgeClock
    = { q with ml := { q.ml with latches := latches, notices := notices } } := by
  have herase : ∀ q : Part, ∃ latches notices,
      q.judgeErase = { q with ml := { q.ml with latches := latches, notices := notices } } := fun q => by
    unfold Part.judgeErase
    split <;> exact ⟨_, _, rfl⟩
  have hrecovery : ∀ q : Part, ∃ latches notices,
      q.judgeRecovery = { q with ml := { q.ml with latches := latches, notices := notices } } := fun q => by
    unfold Part.judgeRecovery
    split <;> exact ⟨_, _, rfl⟩
  have hclock : ∀ q : Part, ∃ latches notices,
      q.judgeClock = { q with ml := { q.ml with latches := latches, notices := notices } } := fun q => by
    unfold Part.judgeClock
    split <;> exact ⟨_, _, rfl⟩
  obtain ⟨_, _, h1⟩ := herase q
  obtain ⟨_, _, h2⟩ := hrecovery q.judgeErase
  obtain ⟨_, _, h3⟩ := hclock q.judgeErase.judgeRecovery
  exact ⟨_, _, by rw [h3, h2, h1]⟩

theorem Part.judged_rebuilt : p.Rebuilt (p.scanned failed).judgeErase.judgeRecovery.judgeClock := by
  have hscanned := p.scanned_rebuilt failed
  generalize p.scanned failed = q at hscanned ⊢
  obtain ⟨latches, notices, hjudged⟩ := q.judged_ml
  rw [hjudged]
  exact hscanned.of_ml p rfl

theorem Part.endScan_rebuilt : p.Rebuilt (p.endScan failed) := by
  have hjudged := p.judged_rebuilt failed
  rw [p.endScan_eq]
  generalize (p.scanned failed).judgeErase.judgeRecovery.judgeClock = q at hjudged ⊢
  exact hjudged.of_ml p rfl

/-- STARTED puts the notices in the order of Table 67. -/
theorem Part.endScan_notices : (p.endScan failed).ml.notices.Sublist Condition.all := by
  rw [p.endScan_eq]
  generalize (p.scanned failed).judgeErase.judgeRecovery.judgeClock = q
  exact List.filter_sublist

/-- STARTED tells of the day, the generation and the interrupted orders that the scan has rebuilt. -/
theorem Part.endScan_started : (p.endScan failed).ml.sentNotice = some (.started p.ml.cause (p.endScan failed).tt.day
    (p.endScan failed).art.generation .closed (rebuild p.sinceScan.2).interrupted.length) := by
  obtain ⟨-, -, -, -, -, htt, hcause⟩ := p.judged_rebuilt failed
  rw [p.endScan_eq]
  generalize (p.scanned failed).judgeErase.judgeRecovery.judgeClock = q at htt hcause ⊢
  have hcounter : q.tt.counter = .closed := by rw [htt]
  have hnumber : q.tt.interruptedOrders = (rebuild p.sinceScan.2).interrupted.length := by rw [htt]; rfl
  show some (Notice.started q.ml.cause q.tt.day q.art.generation q.tt.counter q.tt.interruptedOrders) = _
  rw [hcause, hcounter, hnumber]
  rfl

end

end Sys2Proof.Machine
end


-- ==== Sys2Proof/Proofs/ScanStart.lean ====
section
/-! START_UP_SCAN_END (R161, R162, R192): its conditions, and the values that the counter starts with. -/

namespace Sys2Proof.Machine

section
variable (p : Part) (failed : List Nat)

/-! ## RECOVERY_PENDING and CLOCK_UNSET -/

theorem Part.judgeRecovery_get (q : Part) (c : Condition) : q.judgeRecovery.ml.latches.get c
    = if c = .recoveryPending ∧ q.tt.recoveryPending = true then ⟨true, some (.interrupted q.tt.interruptedOrders)⟩
      else q.ml.latches.get c := by
  unfold Part.judgeRecovery
  split
  · rename_i h
    simp [Part.latch_get, h]
  · rename_i h
    simp [h]

theorem Part.judgeClock_get (q : Part) (c : Condition) : q.judgeClock.ml.latches.get c
    = if c = .clockUnset ∧ q.ml.cause = .powerOn then ⟨true, none⟩ else q.ml.latches.get c := by
  unfold Part.judgeClock
  split
  · rename_i h
    simp [Part.latch_get, h]
  · rename_i h
    simp [h]

theorem Part.judgeErase_cause (q : Part) : q.judgeErase.judgeRecovery.ml.cause = q.ml.cause := by
  unfold Part.judgeRecovery Part.judgeErase
  split <;> split <;> rfl

theorem Part.scanned_get {c : Condition} (h : c ≠ .storeFault) :
    (p.scanned failed).ml.latches.get c = p.ml.latches.get c := by
  rw [p.scanned_ml failed]
  exact (Part.sealAll_get _ _ _ c).trans (if_neg h)

theorem Part.endScan_pending : (p.endScan failed).ml.latches.get .recoveryPending
    = if (rebuild p.sinceScan.2).interrupted ≠ [] ∨ p.reading.early ≠ none
        then ⟨true, some (.interrupted (rebuild p.sinceScan.2).interrupted.length)⟩
        else p.ml.latches.get .recoveryPending := by
  obtain ⟨-, -, -, -, -, -, -, -, -, herase, -⟩ := (p.scanned failed).judgeErase_frame
  have htt := herase.trans (p.scanned_rebuilt failed).tt
  have hnumber : (p.scanned failed).judgeErase.tt.interruptedOrders = (rebuild p.sinceScan.2).interrupted.length := by
    rw [htt]
    rfl
  have hpending : (p.scanned failed).judgeErase.tt.recoveryPending = true
      ↔ (rebuild p.sinceScan.2).interrupted ≠ [] ∨ p.reading.early ≠ none := by
    rw [Totals.recoveryPending, hnumber, htt]
    simp [List.length_pos_iff, Option.isSome_iff_ne_none]
  rw [p.endScan_eq, Part.sendStarted_latches, Part.judgeClock_get, if_neg (by simp), Part.judgeRecovery_get,
    Part.judgeErase_latch _ (by decide), p.scanned_get failed (by decide)]
  simp only [true_and, hpending, hnumber]

theorem Part.endScan_unset : (p.endScan failed).ml.latches.get .clockUnset
    = if p.ml.cause = .powerOn then ⟨true, none⟩ else p.ml.latches.get .clockUnset := by
  rw [p.endScan_eq, Part.sendStarted_latches, Part.judgeClock_get, Part.judgeErase_cause, (p.scanned_rebuilt failed).cause,
    Part.judgeRecovery_get, if_neg (c := Condition.clockUnset = .recoveryPending ∧ _) (fun h => nomatch h.1),
    Part.judgeErase_latch _ (by decide), p.scanned_get failed (by decide)]
  simp only [true_and]

theorem exec_scanEnd {s : State} (h : s.runs) (hstart : s.part.tt.counter = .starting) :
    exec (.startUpScanEnd failed) s = .next { s with part := s.part.endScan failed } :=
  (State.act_runs h _).trans (congrArg (fun q : Part => Host.Outcome.next { s with part := q }) (if_pos hstart))

theorem Part.rolledStoreBack_storing {o : OwedGeneration} {later : List OwedGeneration}
    (h : (unstored p.reading.records).foldl (fun l o => insertByKey OwedGeneration.generation o l) [] = o :: later) :
    p.rolledStoreBack = .storing o.generation (.writing o.entries) later := by simp only [Part.rolledStoreBack, h]

theorem Part.rolledStoreBack_none (h : unstored p.reading.records = []) : p.rolledStoreBack = p.art.storeBack := by
  simp only [Part.rolledStoreBack, h, List.foldl_nil]

theorem Part.endScan_unsealed (h : p.reading.failed = none) : (p.endScan failed).nv.sectors = surveyed p.nv.sectors := by
  rw [p.endScan_sectors]
  simp only [Part.sealAll, h]

theorem Part.endScan_fault : (p.endScan failed).ml.latches.get .storeFault
    = (match (p.reading.toSeal.filter (fun y => decide (y.index ∈ failed ∧ y.sector.mark ≠ .bad))).getLast? with
      | some y => ⟨true, some (.store (.sectorBad y.index))⟩
      | none => p.ml.latches.get .storeFault) :=
  (p.endScan_get failed .storeFault (by decide) (by decide) (by decide)).trans (if_pos rfl)

theorem Part.endScan_others (c : Condition) (fault : c ≠ .storeFault) (low : c ≠ .journalLow) (pending : c ≠ .recoveryPending)
    (unset : c ≠ .clockUnset) : (p.endScan failed).ml.latches.get c = p.ml.latches.get c :=
  (p.endScan_get failed c low pending unset).trans (if_neg fault)

theorem Part.endScan_sealed {x : Indexed} (hx : p.reading.failed = some x)
    (hdistinct : ∀ y ∈ p.reading.passedOver, y.index ≠ x.index) (i : Nat) :
    (p.endScan failed).nv.sectors[i]? = ((surveyed p.nv.sectors)[i]?).map (fun y =>
      if i = x.index then y.sealedAt failed i x.sector.records
      else if ∃ z ∈ p.reading.passedOver, z.index = i then y.sealedAt failed i []
      else y) := by
  rw [p.endScan_sectors]
  exact Part.sealAll_sectors (p := { p with nv := { p.nv with sectors := surveyed p.nv.sectors } }) hx hdistinct i

end

/-- Settles O4: the scan's end leaves `Part.rebuilt`, and its conditions are those of the seals and of the three judgements. -/
theorem startUpScanRebuildsTheDay : Obligations.StartUpScanRebuildsTheDay := by
  refine ⟨fun s failed hr hstart => ?_, fun x rest good hgood => ?_⟩
  · intro ss reading found orders owed early toSeal sealed
    obtain ⟨hart, hom, hlu, htc, htj, htt, -⟩ := s.part.endScan_rebuilt failed
    have hlatching := s.part.endScan_latching failed
    have hfault := s.part.endScan_fault failed
    have hothers := s.part.endScan_others failed
    have hpending := s.part.endScan_pending failed
    have hunset := s.part.endScan_unset failed
    have hstarted := s.part.endScan_started failed
    have hnotices := s.part.endScan_notices failed
    have hunsealed := s.part.endScan_unsealed failed
    have hsealed := fun x => s.part.endScan_sealed failed (x := x)
    have hidle := s.part.rolledStoreBack_none
    have hstoring := fun o later => s.part.rolledStoreBack_storing (o := o) (later := later)
    have hrolled := fun h : s.part.Ascending => rollForward_applied (unstored s.part.reading.records) s.part.nv.articles h.area
    have hearly : s.part.reading.early = early := by
      simp only [early]
      cases hfailed : reading.failed with
      | none => exact Reading.early_none hfailed
      | some x => exact Reading.early_some hfailed
    have htoSeal : s.part.reading.toSeal = toSeal := rfl
    have hss : surveyed s.part.nv.sectors = ss := rfl
    have hreading : s.part.reading = reading := rfl
    have hfound : s.part.sinceScan = found := rfl
    have howed : unstored reading.records = owed := rfl
    have horders : (rebuild found.2).interrupted = orders := rfl
    rw [hfound, hearly, horders] at htt
    rw [hreading, howed] at hart hidle hrolled
    rw [hss, hreading] at htj
    rw [hreading, hss] at hunsealed
    rw [hfound] at hom hlu
    rw [hfound, hearly, horders] at hpending
    rw [hfound, horders] at hstarted
    rw [htoSeal] at hfault
    simp only [hreading, howed, hss] at hstoring hsealed
    clear_value toSeal early owed orders found reading ss
    refine ⟨_, exec_scanEnd failed hr hstart, ?_⟩
    dsimp only
    clear hearly htoSeal hss hreading hfound howed horders
    generalize s.part.endScan failed = q at *
    refine ⟨congrArg Totals.counter htt, ?day, ?grand, congrArg Totals.lastClose htt,
      congrArg Totals.accumulators htt, congrArg Totals.interrupted htt, congrArg Totals.report htt, hpending, hunset,
      congrArg ArticleControl.generation hart, congrArg ArticleControl.table hart, ?rolled, ?idle, ?storing, hunsealed, hsealed,
      htj, congrArg OrderManager.lastNumber hom, congrArg LabelUnit.lastLabel hlu, congrArg TicketController.validFrom htc,
      hstarted, hfault, hothers, hlatching.enables, hnotices, hlatching.notices⟩
    case day =>
      refine (congrArg Totals.day htt).trans ?_
      cases found.1 <;> rfl
    case grand =>
      refine (congrArg Totals.grandTotal htt).trans ?_
      cases found.1 <;> rfl
    case rolled => exact fun hascending => by rw [hart]; exact hrolled hascending
    case idle => exact fun h => by rw [hart]; exact hidle h
    case storing => exact fun o later h => by rw [hart]; exact hstoring o later h
  · have hagree : ∀ y ∈ good, Stored.agrees y = true := fun y hy => (Stored.agrees_iff y).2 (hgood y hy)
    refine ⟨readSectors_whole rest hagree, fun bad behind harea hbad => ?_⟩
    exact readSectors_fails rest hagree harea (Bool.eq_false_iff.2 fun h => hbad ((Stored.agrees_iff bad).1 h))

end Sys2Proof.Machine
end


-- ==== Sys2Proof/Proofs/RebuiltDay.lean ====
section
/-! The walk through the records since the latest DAY_CLOSE (R161, R162, R172): the lines of an order number, and the interrupted
orders. -/

namespace Sys2Proof.Machine

/-- The lines that the walk has found of an order number. -/
def groupLines (gs : List Group) (n : Nat) : List (LineFields × Bool) :=
  ((gs.find? (fun g => g.order == n)).map Group.lines).getD []

theorem Rebuild.group_lines (r : Rebuild) (n owner : Nat) : (r.group n owner).lines = groupLines r.groups n := by
  unfold Rebuild.group groupLines
  cases r.groups.find? (fun g => g.order == n) <;> rfl

/-! ## The groups after one record -/

section
variable {gs : List Group} {m n : Nat}

theorem groupLines_of_mem {g : Group} (hnodup : (gs.map Group.order).Nodup) (hg : g ∈ gs) : groupLines gs g.order = g.lines := by
  have hfound : gs.find? (fun x => x.order == g.order) = some g := by
    induction gs with
    | nil => cases hg
    | cons a gs ih =>
      obtain ⟨ha, hrest⟩ := List.nodup_cons.1 hnodup
      rcases List.mem_cons.1 hg with rfl | hg
      · simp
      · have hne : a.order ≠ g.order := fun h => ha (h ▸ List.mem_map_of_mem hg)
        rw [List.find?_cons_of_neg (by simpa using hne)]
        exact ih hrest hg
  rw [groupLines, hfound]
  rfl

theorem groupLines_of_notMem (h : n ∉ gs.map Group.order) : groupLines gs n = [] := by
  have hnone : gs.find? (fun g => g.order == n) = none :=
    List.find?_eq_none.2 fun g hg => by simpa using fun hn : g.order = n => h (hn ▸ List.mem_map_of_mem hg)
  rw [groupLines, hnone]
  rfl

theorem groupLines_joinGroup (owner : Nat) (f : LineFields) :
    groupLines (joinGroup m owner f gs) n = if m = n then groupLines gs n ++ [(f, false)] else groupLines gs n := by
  induction gs with
  | nil =>
    by_cases h : m = n <;> simp [joinGroup, groupLines, h]
  | cons g gs ih =>
    simp only [joinGroup]
    by_cases hg : g.order = m
    · rw [if_pos hg]
      by_cases hn : g.order = n
      · simp [groupLines, hn, ← hg]
      · simp [groupLines, hn, ← hg]
    · rw [if_neg hg]
      by_cases hn : g.order = n
      · have hm : m ≠ n := fun h => hg (hn.trans h.symm)
        simp [groupLines, hn, hm]
      · simpa [groupLines, hn] using ih

theorem groupLines_markVoid (index : Nat) : groupLines (markVoid m index gs) n
    = if m = n then (groupLines gs n).map (fun x => (x.1, x.2 || x.1.index == index)) else groupLines gs n := by
  induction gs with
  | nil => simp [markVoid, groupLines]
  | cons g gs ih =>
    by_cases hn : g.order = n
    · by_cases hm : m = n
      · subst hm
        simp [markVoid, groupLines, hn]
      · have hg : g.order ≠ m := fun h => hm (h.symm.trans hn)
        simp [markVoid, groupLines, hn, hm, Ne.symm hm]
    · have hkeep : ∀ g' : Group, g'.order = g.order →
          groupLines (g' :: markVoid m index gs) n = groupLines (markVoid m index gs) n :=
        fun g' h' => by simp [groupLines, h', hn]
      have hold : groupLines (g :: gs) n = groupLines gs n := by simp [groupLines, hn]
      rw [hold, ← ih, markVoid, List.map_cons]
      exact hkeep _ (by split <;> rfl)

theorem groupLines_closed : groupLines (gs.filter (fun g => g.order != m)) n = if m = n then [] else groupLines gs n := by
  by_cases hm : m = n
  · subst hm
    rw [if_pos rfl]
    exact groupLines_of_notMem (by simp)
  · rw [if_neg hm]
    unfold groupLines
    rw [List.find?_filter]
    congr 2
    refine congrFun (congrArg List.find? (funext fun g => ?_)) gs
    by_cases hg : g.order = n
    · simp [hg, Ne.symm hm]
    · simp [hg]

theorem joinGroup_orders (owner : Nat) (f : LineFields) : (joinGroup m owner f gs).map Group.order
    = if m ∈ gs.map Group.order then gs.map Group.order else gs.map Group.order ++ [m] := by
  induction gs with
  | nil => rfl
  | cons g gs ih =>
    simp only [joinGroup]
    by_cases hg : g.order = m
    · simp [hg]
    · rw [if_neg hg, List.map_cons, ih]
      simp only [List.map_cons, List.mem_cons, Ne.symm hg, false_or]
      split <;> rfl

theorem mem_joinGroup {owner : Nat} {f : LineFields} {g : Group} (h : g ∈ joinGroup m owner f gs) :
    (∃ g' ∈ gs, g'.order = g.order ∧ g'.owner = g.owner) ∨ (g.order = m ∧ g.owner = owner) := by
  induction gs with
  | nil =>
    rw [joinGroup, List.mem_singleton] at h
    subst h
    exact .inr ⟨rfl, rfl⟩
  | cons a gs ih =>
    rw [joinGroup] at h
    split at h
    · rcases List.mem_cons.1 h with rfl | h
      · exact .inl ⟨a, List.mem_cons_self, rfl, rfl⟩
      · exact .inl ⟨g, List.mem_cons_of_mem _ h, rfl, rfl⟩
    · rcases List.mem_cons.1 h with rfl | h
      · exact .inl ⟨g, List.mem_cons_self, rfl, rfl⟩
      · rcases ih h with ⟨g', hg', hsame⟩ | hnew
        · exact .inl ⟨g', List.mem_cons_of_mem _ hg', hsame⟩
        · exact .inr hnew

theorem markVoid_orders (index : Nat) : (markVoid m index gs).map Group.order = gs.map Group.order := by
  rw [markVoid, List.map_map]
  exact List.map_congr_left fun g _ => by simp only [Function.comp]; split <;> rfl

theorem mem_markVoid {index : Nat} {g : Group} (h : g ∈ markVoid m index gs) :
    ∃ g' ∈ gs, g'.order = g.order ∧ g'.owner = g.owner := by
  obtain ⟨g', hg', rfl⟩ := List.mem_map.1 h
  exact ⟨g', hg', by split <;> rfl, by split <;> rfl⟩

end

/-! ## The walk -/

section
variable (rs : List Record) (r : Record)

theorem rebuild_snoc : rebuild (rs ++ [r]) = (rebuild rs).step r := by rw [rebuild, List.foldl_append]; rfl

/-- What the walk keeps of its groups: one for each order number, with the owner of one of its LINE records. -/
structure Rebuild.Grouped (x : Rebuild) (rs : List Record) : Prop where
  nodup : (x.groups.map Group.order).Nodup
  owned : ∀ g ∈ x.groups, ∃ f, .line g.order g.owner f ∈ rs

theorem Rebuild.Grouped.step {x : Rebuild} (h : x.Grouped rs) : (x.step r).Grouped (rs ++ [r]) := by
  have hearlier : ∀ g : Group, (∃ g' ∈ x.groups, g'.order = g.order ∧ g'.owner = g.owner) →
      ∃ f, .line g.order g.owner f ∈ rs ++ [r] := by
    rintro g ⟨g', hg', horder, howner⟩
    obtain ⟨f, hf⟩ := h.owned g' hg'
    exact ⟨f, List.mem_append_left _ (by rw [← horder, ← howner]; exact hf)⟩
  have hsame : ∀ y : Rebuild, y.groups = x.groups → y.Grouped (rs ++ [r]) := fun y hy =>
    ⟨by rw [hy]; exact h.nodup, fun g hg => hearlier g ⟨g, hy ▸ hg, rfl, rfl⟩⟩
  have hclosed : ∀ (y : Rebuild) (m : Nat), y.groups = x.groups.filter (fun g => g.order != m) → y.Grouped (rs ++ [r]) :=
    fun y m hy => ⟨by rw [hy]; exact h.nodup.sublist (List.filter_sublist.map _),
      fun g hg => hearlier g ⟨g, List.mem_of_mem_filter (hy ▸ hg), rfl, rfl⟩⟩
  cases r with
  | line m owner f =>
    refine ⟨?_, fun g hg => ?_⟩
    · show ((joinGroup m owner f x.groups).map Group.order).Nodup
      rw [joinGroup_orders]
      split
      · exact h.nodup
      · rename_i hnew
        exact List.nodup_append.2 ⟨h.nodup, List.nodup_singleton m, fun a ha b hb hab =>
          hnew (List.mem_singleton.1 hb ▸ hab ▸ ha)⟩
    · rcases mem_joinGroup hg with hold | ⟨horder, howner⟩
      · exact hearlier g hold
      · exact ⟨f, List.mem_append_right _ (by rw [horder, howner]; exact List.mem_singleton_self _)⟩
  | voidLine m index supervisor =>
    refine ⟨?_, fun g hg => hearlier g (mem_markVoid hg)⟩
    show ((markVoid m index x.groups).map Group.order).Nodup
    rw [markVoid_orders]
    exact h.nodup
  | close m => exact hclosed _ m rfl
  | voidOrder m => exact hclosed _ m rfl
  | _ => exact hsame _ rfl

theorem rebuild_grouped : (rebuild rs).Grouped rs := by
  induction rs using List.reverseRecOn with
  | nil => exact ⟨List.nodup_nil, nofun⟩
  | append_singleton rs r ih =>
    rw [rebuild_snoc]
    exact ih.step rs r

/-- The lines that the walk has found of an order number. -/
def linesFound (n : Nat) : List (LineFields × Bool) := groupLines (rebuild rs).groups n

theorem rebuild_lines (n owner : Nat) : ((rebuild rs).group n owner).lines = linesFound rs n := Rebuild.group_lines _ _ _

theorem linesFound_snoc (n : Nat) : linesFound (rs ++ [r]) n = (match r with
    | .line m _ f => if m = n then linesFound rs n ++ [(f, false)] else linesFound rs n
    | .voidLine m index _ =>
      if m = n then (linesFound rs n).map (fun x => (x.1, x.2 || x.1.index == index)) else linesFound rs n
    | .close m _ _ _ _ _ _ => if m = n then [] else linesFound rs n
    | .voidOrder m _ _ _ => if m = n then [] else linesFound rs n
    | _ => linesFound rs n) := by
  rw [linesFound, rebuild_snoc]
  cases r with
  | line m owner f => exact groupLines_joinGroup owner f
  | voidLine m index supervisor => exact groupLines_markVoid index
  | close m => exact groupLines_closed
  | voidOrder m => exact groupLines_closed
  | _ => rfl

/-- The lines found of an order number that no VOID_LINE marks. -/
def linesKept (n : Nat) : List LineFields := ((linesFound rs n).filter (fun x => !x.2)).map Prod.fst

theorem group_active {g : Group} (hg : g ∈ (rebuild rs).groups) : g.active = linesKept rs g.order := by
  rw [linesKept, linesFound, groupLines_of_mem (rebuild_grouped rs).nodup hg]
  rfl

theorem interrupted_orders : ((rebuild rs).interrupted.map InterruptedOrder.order).Nodup := by
  have horders : (rebuild rs).interrupted.map InterruptedOrder.order
      = ((rebuild rs).groups.filter (fun g => !g.active.isEmpty)).map Group.order := by
    rw [Rebuild.interrupted, List.map_map]
    rfl
  rw [horders]
  exact (rebuild_grouped rs).nodup.sublist (List.filter_sublist.map _)

theorem mem_interrupted {o : InterruptedOrder} : o ∈ (rebuild rs).interrupted ↔ ∃ g ∈ (rebuild rs).groups,
    g.active ≠ [] ∧ (⟨g.order, g.owner, g.active.map LineFields.interrupted, (g.active.map LineFields.linePrice).sum⟩
      : InterruptedOrder) = o := by
  simp [Rebuild.interrupted, and_assoc]

theorem linesKept_interrupted (n : Nat) : linesKept rs n ≠ [] ↔ ∃ o ∈ (rebuild rs).interrupted, o.order = n := by
  constructor
  · intro h
    have hn : n ∈ (rebuild rs).groups.map Group.order := by
      by_contra hn
      exact h (by rw [linesKept, linesFound, groupLines_of_notMem hn]; rfl)
    obtain ⟨g, hg, rfl⟩ := List.mem_map.1 hn
    exact ⟨_, (mem_interrupted rs).2 ⟨g, hg, by rwa [group_active rs hg], rfl⟩, rfl⟩
  · rintro ⟨o, ho, rfl⟩
    obtain ⟨g, hg, hactive, rfl⟩ := (mem_interrupted rs).1 ho
    rwa [group_active rs hg] at hactive

theorem interrupted_lines {o : InterruptedOrder} (h : o ∈ (rebuild rs).interrupted) :
    o.lines = (linesKept rs o.order).map LineFields.interrupted
    ∧ o.value = ((linesKept rs o.order).map LineFields.linePrice).sum ∧ ∃ f, .line o.order o.owner f ∈ rs := by
  obtain ⟨g, hg, -, rfl⟩ := (mem_interrupted rs).1 h
  exact ⟨by rw [group_active rs hg], by rw [group_active rs hg], (rebuild_grouped rs).owned g hg⟩

end

end Sys2Proof.Machine
end


-- ==== Sys2Proof/Proofs/StartingValues.lean ====
section
/-! What the records read give at the end of the start-up scan (R53, R73, R90, R128, R158, R161, R172). -/

namespace Sys2Proof.Machine

/-! ## The store-backs owed, and the generation -/

section
variable {rs a b before after : List Record} {g : Nat} {es : List ChangeEntry} {t : Option DateTime} {o : OwedGeneration}

theorem any_stores : rs.any (Record.stores g) = true ↔ .priceStored g ∈ rs := by
  rw [List.any_eq_true]
  refine ⟨fun ⟨r, hr, hs⟩ => ?_, fun h => ⟨_, h, by simp [Record.stores]⟩⟩
  cases r with
  | priceStored k =>
    have hk : g = k := by simpa [Record.stores] using hs
    rwa [hk]
  | _ => cases hs

theorem unstored_apply : unstored (.priceApply g es t :: rs)
    = if .priceStored g ∈ rs then unstored rs else ⟨g, es⟩ :: unstored rs := by
  rw [unstored]
  by_cases h : .priceStored g ∈ rs
  · rw [if_pos h, if_pos (any_stores.2 h)]
  · rw [if_neg h, if_neg fun hs => h (any_stores.1 hs)]

theorem mem_unstored : o ∈ unstored rs ↔ ∃ before after t,
    rs = before ++ .priceApply o.generation o.entries t :: after ∧ .priceStored o.generation ∉ after := by
  induction rs with
  | nil => simp [unstored]
  | cons r rs ih =>
    have hbehind : o ∈ unstored rs → ∃ before after t,
        r :: rs = before ++ .priceApply o.generation o.entries t :: after ∧ .priceStored o.generation ∉ after := fun h => by
      obtain ⟨before, after, t, rfl, hnot⟩ := ih.1 h
      exact ⟨r :: before, after, t, rfl, hnot⟩
    constructor
    · intro h
      cases r with
      | priceApply g es t =>
        rw [unstored_apply] at h
        split at h
        · exact hbehind h
        · rename_i hnot
          rcases List.mem_cons.1 h with rfl | h
          · exact ⟨[], rs, t, rfl, hnot⟩
          · exact hbehind h
      | _ => exact hbehind h
    · rintro ⟨before, after, t, h, hnot⟩
      cases before with
      | nil =>
        obtain ⟨rfl, rfl⟩ := List.cons.inj h
        rw [unstored_apply, if_neg hnot]
        exact List.mem_cons_self
      | cons x before =>
        obtain ⟨rfl, rfl⟩ := List.cons.inj h
        have hmem := ih.2 ⟨before, after, t, rfl, hnot⟩
        cases r with
        | priceApply g es t =>
          rw [unstored_apply]
          split
          · exact hmem
          · exact List.mem_cons_of_mem _ hmem
        | _ => exact hmem

theorem unstored_append : unstored (a ++ b)
    = (unstored a).filter (fun o => decide (.priceStored o.generation ∉ b)) ++ unstored b := by
  induction a with
  | nil => rfl
  | cons r a ih =>
    cases r with
    | priceApply g es t =>
      rw [List.cons_append, unstored_apply, unstored_apply, ih]
      by_cases ha : .priceStored g ∈ a
      · simp [ha]
      · by_cases hb : .priceStored g ∈ b
        · simp [ha, hb]
        · simp [ha, hb]
    | _ => exact ih

theorem rebuiltGeneration_none (area : Nat) (h : ∀ g es t, .priceApply g es t ∉ after) :
    rebuiltGeneration area after = area := by
  have hnone : after.filterMap Record.applied? = [] := List.filterMap_eq_nil_iff.2 fun r hr => by
    cases r with
    | priceApply g es t => exact absurd hr (h g es t)
    | _ => rfl
  rw [rebuiltGeneration, hnone]
  exact Nat.max_zero area

theorem rebuiltGeneration_last (area : Nat) (h : ∀ g es t, .priceApply g es t ∉ after) :
    rebuiltGeneration area (before ++ .priceApply g es t :: after) = max area g := by
  have hnone : after.filterMap Record.applied? = [] := List.filterMap_eq_nil_iff.2 fun r hr => by
    cases r with
    | priceApply g es t => exact absurd hr (h g es t)
    | _ => rfl
  have happlied : (Record.priceApply g es t).applied? = some g := rfl
  simp [rebuiltGeneration, List.filterMap_append, happlied, hnone]

end

/-! ## The number farthest forward -/

/-- The number `k` steps ahead of a base, counting through 1..`limit` with wrap. -/
def stepsAhead (limit base k : Nat) : Nat := (base + k - 1) % limit + 1

section
variable {limit base : Nat}

theorem forward_spec (hb : base ≤ limit) {n : Nat} (h1 : 1 ≤ n) (hn : n ≤ limit) : 1 ≤ forward limit base n
    ∧ forward limit base n ≤ limit ∧ stepsAhead limit base (forward limit base n) = n := by
  unfold forward stepsAhead
  by_cases h : base < n
  · rw [if_pos h, show base + (n - base) - 1 = n - 1 by omega, Nat.mod_eq_of_lt (by omega)]
    omega
  · rw [if_neg h, show base + (n + limit - base) - 1 = n - 1 + limit by omega, Nat.add_mod_right, Nat.mod_eq_of_lt (by omega)]
    omega

/-- Of several numbers the farthest is one of them, and none of them is farther. -/
theorem farthest_max (n : Nat) (ns : List Nat) : farthest limit base (n :: ns) ∈ n :: ns
    ∧ ∀ m ∈ n :: ns, forward limit base m ≤ forward limit base (farthest limit base (n :: ns)) := by
  rw [farthest]
  induction ns generalizing n with
  | nil => simp
  | cons m ns ih =>
    rw [List.foldl_cons]
    split
    · rename_i hfar
      obtain ⟨hmem, hmax⟩ := ih m
      refine ⟨List.mem_cons_of_mem _ hmem, fun k hk => ?_⟩
      rcases List.mem_cons.1 hk with rfl | hk
      · exact hfar.le.trans (hmax m List.mem_cons_self)
      · exact hmax k hk
    · rename_i hnear
      obtain ⟨hmem, hmax⟩ := ih n
      refine ⟨?_, fun k hk => ?_⟩
      · rcases List.mem_cons.1 hmem with h | h
        · rw [h]
          exact List.mem_cons_self
        · exact List.mem_cons_of_mem _ (List.mem_cons_of_mem _ h)
      · rcases List.mem_cons.1 hk with rfl | hk
        · exact hmax k List.mem_cons_self
        · rcases List.mem_cons.1 hk with rfl | hk
          · exact (Nat.not_lt.1 hnear).trans (hmax n List.mem_cons_self)
          · exact hmax k (List.mem_cons_of_mem _ hk)

theorem farthest_ahead (hb : base ≤ limit) {numbers : List Nat} (h : ∀ n ∈ numbers, 1 ≤ n ∧ n ≤ limit)
    (hne : numbers ≠ []) :
    ∃ k, 1 ≤ k ∧ k ≤ limit ∧ farthest limit base numbers = stepsAhead limit base k ∧ stepsAhead limit base k ∈ numbers
      ∧ ∀ n ∈ numbers, ∃ j, 1 ≤ j ∧ j ≤ k ∧ n = stepsAhead limit base j := by
  obtain ⟨n, ns, rfl⟩ := List.exists_cons_of_ne_nil hne
  obtain ⟨hmem, hmax⟩ := farthest_max (limit := limit) (base := base) n ns
  generalize farthest limit base (n :: ns) = m at hmem hmax
  obtain ⟨hk1, hk, hahead⟩ := forward_spec hb (h m hmem).1 (h m hmem).2
  refine ⟨forward limit base m, hk1, hk, hahead.symm, by rwa [hahead], fun x hx => ?_⟩
  obtain ⟨hj1, -, hx'⟩ := forward_spec hb (h x hx).1 (h x hx).2
  exact ⟨forward limit base x, hj1, hmax x hx, hx'.symm⟩

end

/-! ## The completions of the records -/

section
variable {s : State} {r : Record}

/-- The completion of a record in flight, as the accumulators see it. -/
theorem written_accumulators {report : Record → Option (Part → Part)} {effect : Part → Part} {c : Instr}
    (hr : s.runs) (hc : exec c s = s.act (fun p => p.appendWritten report)) (hf : s.part.inFlight = some r)
    (he : report r = some effect) {b : Accumulators}
    (h : ∀ a : Part, a.tt = s.part.tt → a.om = s.part.om → (effect a).tt.accumulators = b) :
    ∃ t, exec c s = .next t ∧ b = t.part.tt.accumulators := by
  obtain ⟨-, -, -, -, -, hom, -, -, htt, -⟩ := s.part.finishAppend_frame r
  exact ⟨_, hc.trans ((State.act_runs hr _).trans (by rw [Part.appendWritten_of hf he])), (h _ htt hom).symm⟩

theorem closed_lines {o : Order} {l : List (LineFields × Bool)}
    (h : o.lines.map (fun x => (x.fields, decide (x.state = .voided))) = l) :
    o.activeLines = (l.filter (fun x => !x.2)).map Prod.fst ∧ o.voidedLines = (l.filter (fun x => x.2)).map Prod.fst := by
  subst h
  rw [List.filter_map, List.filter_map, List.map_map, List.map_map]
  refine ⟨?_, ?_⟩
  · rw [Order.activeLines]
    congr 2
    funext x
    simp
  · rw [Order.voidedLines]
    rfl

end

/-- Settles O5: the walk by `linesFound_snoc`, the farthest number by `farthest_ahead`, and each completion by the accumulators
that its record adds to. -/
theorem recordsReadGiveTheStartingValues : Obligations.RecordsReadGiveTheStartingValues := by
  refine ⟨fun ss => ⟨List.length_map _, fun i x hx => ?survey⟩,
    fun before after d h => ⟨sinceClose_none h, sinceClose_some d h⟩, fun rs o => mem_unstored, fun a b => unstored_append,
    fun area g es t before after h => ⟨rebuiltGeneration_none area h, rebuiltGeneration_last area h⟩,
    fun limit base numbers hb h => ⟨fun hnil => by rw [hnil]; rfl, farthest_ahead hb h⟩, rfl, fun n => rfl,
    fun rs r n => ⟨?lines, ?accumulators, ?added⟩,
    fun rs => ⟨interrupted_orders rs, fun n => ?kept, fun o ho => ?interrupted⟩, fun s rs r c hr hf hacc hc => ?completed⟩
  case survey => rw [surveyed, List.getElem?_map, hx]; simp
  case lines =>
    refine (rebuild_lines (rs ++ [r]) n 0).trans ((linesFound_snoc rs r n).trans ?_)
    cases r <;> simp only [rebuild_lines]
  case accumulators =>
    rw [rebuild_snoc]
    cases r with
    | close m owner => simp only [Rebuild.step, Group.active, Group.voided, rebuild_lines]
    | _ => rfl
  case added =>
    rw [rebuild_snoc]
    cases r with
    | close m owner ticket count total label wait =>
      simp only [Rebuild.step, Group.active, Group.voided, rebuild_lines]
      exact Accumulators.addClose_closed _ _ _ _ _ _
    | voidOrder m owner ticket value => exact Accumulators.addVoidOrder_voided _ _ _
    | _ => rfl
  case kept =>
    simp only [rebuild_lines]
    exact linesKept_interrupted rs n
  case interrupted =>
    simp only [rebuild_lines]
    exact interrupted_lines rs ho
  case completed =>
    rw [rebuild_snoc]
    cases r with
    | line n owner f =>
      subst hc
      refine written_accumulators hr rfl hf rfl fun a htt _ => ?_
      have hframe : (a.lineWritten n f).tt = a.tt := by
        simp only [Part.lineWritten, Part.settleClosing_frame, Part.onItemJob]
        split <;> rfl
      rw [hframe, htt]
      exact hacc.symm
    | voidLine =>
      subst hc
      exact written_accumulators hr rfl hf rfl fun a htt _ => by rw [id, htt]; exact hacc.symm
    | close n owner ticket count total label wait =>
      obtain ⟨rfl, o, ho, hlines⟩ := hc
      refine written_accumulators hr rfl hf rfl fun a htt hom => ?_
      have hao : a.order n = some o := by rw [Part.order, hom]; exact ho
      obtain ⟨-, qtt, -⟩ := Part.closeWritten_parts (owner := owner) (total := total) (label := label) hao
      obtain ⟨hactive, hvoided⟩ := closed_lines hlines
      show (a.closeWritten n owner total label).tt.accumulators = (rebuild rs).accumulators.addClose owner total label
        ((rebuild rs).group n owner).active ((rebuild rs).group n owner).voided
      rw [qtt, htt, hactive, hvoided, hacc, Group.active, Group.voided]
      simp only [rebuild_lines]
    | voidOrder n owner ticket value =>
      obtain ⟨rfl, o, ho⟩ := hc
      refine written_accumulators hr rfl hf rfl fun a htt hom => ?_
      have hao : a.order n = some o := by rw [Part.order, hom]; exact ho
      obtain ⟨-, qtt, -⟩ := Part.voidOrderWritten_parts (owner := owner) (value := value) hao
      rw [qtt, htt, ← hacc]
      rfl
    | reprint label supervisor st =>
      subst hc
      refine written_accumulators hr rfl hf rfl fun a htt _ => ?_
      show a.tt.accumulators.addReprint = (rebuild rs).accumulators.addReprint
      rw [htt, hacc]
    | priceApply g es t =>
      subst hc
      refine written_accumulators hr rfl hf rfl fun a htt _ => ?_
      have hframe : (a.switchTo g es).tt.accumulators = a.tt.accumulators := by simp
      rw [hframe, htt]
      exact hacc.symm
    | priceStored g =>
      subst hc
      refine written_accumulators hr rfl hf rfl fun a htt _ => ?_
      have hframe : a.finishStore.judgeErase.tt = a.tt := by
        obtain ⟨-, -, -, -, -, -, -, -, -, htt, -⟩ := a.finishStore.judgeErase_frame
        rw [htt]
        unfold Part.finishStore
        split <;> rfl
      rw [hframe, htt]
      exact hacc.symm
    | dayClose => exact hc.elim

end Sys2Proof.Machine
end
